-- ==== Sys2Proof/Word.lean ====
section
/-! DEFINITION. The register word, the byte, and a bit range of a word (R6, R10). -/

namespace Sys2Proof

/-- Every register is 32 bits wide (R10). -/
abbrev Word := BitVec 32

abbrev Byte := BitVec 8

/-- A field of a word: its lowest bit and its width in bits (R6). -/
structure Fld where
  lo : Nat
  width : Nat
  deriving DecidableEq, Repr

end Sys2Proof
end

