-- ==== Sys2Proof/Syntax.lean ====
section
/-! DEFINITION. The commands of the block: one constructor of `Instr` for each row of the opcode table, with the row's
operands, and the types those operands have (R14 gives the ranges of the identifiers). -/

namespace Sys2Proof

/-- Glove domain: 0 is PF0, d is VF d (R14). -/
abbrev DomId := Fin 16
abbrev RegionId := Fin 16
abbrev BlockId := Fin 8
abbrev CellId := Fin 12
abbrev PipeId := Fin 1024
abbrev PortId := Fin 1024
/-- Raster domain. -/
abbrev RasterId := Fin 16
abbrev PoolId := Fin 16
abbrev BufId := Fin 524288
abbrev ChanId := Fin 64
/-- HBM controller and its stack. -/
abbrev StackId := Fin 4
/-- Lanes: 0-31 are ML0-ML31, 32-47 are SL0-SL15, 48-51 RGI0-RGI3, 52-55 RGO0-RGO3. -/
abbrev LaneId := Fin 56
abbrev MacId := Fin 8
abbrev SrcId := Fin 4096

/-- The supply rails of R667. -/
inductive Rail
  | vaux0v8 | vfab1v5 | vsoc0v75 | vser0v9 | vser1v2 | vhbm1v1 | vhbm0v4 | vio1v8
  deriving DecidableEq, Repr

/-- The instructions of the boundary-scan TAP (R690). -/
inductive TapInstr
  | extest | samplePreload | highz | clamp | extestPulse | extestTrain | bypass
  deriving DecidableEq, Repr

/-- Who acknowledges an interrupt source (R580). -/
inductive AckBy
  | host (d : DomId)
  | rgc (r : RegionId)
  | baseCamp
  deriving DecidableEq, Repr

/-- The target of a delivery decision (R568): a host vector of a function, a Region Controller, or Base Camp. -/
inductive Target
  | host (d : DomId) (v : Fin 2048)
  | rgc (r : RegionId)
  | baseCamp
  deriving DecidableEq, Repr

/-- What makes held interrupt events deliverable again (R574): a function returns to D0, or a vector's table entry is
given a message address. -/
inductive Awake
  | function (d : DomId)
  | vector (d : DomId) (v : Fin 2048) (addr : Nat) (data : Word)
  deriving DecidableEq, Repr

/-- The outcome of the cryptographic checks and reads of one flash slot (R106): the spec names the published standards for
them and does not hold their text. `readFail` is the image offset at which a flash read fails, if any; `badDigests` the
section-table indexes whose SHA-384 does not match. -/
structure SlotVerdict where
  readFail : Option Nat
  vendorKey : Bool
  vendorSig : Bool
  certSig : Bool
  imageSig : Bool
  badDigests : List Nat
  firmwareOk : Bool
  deriving DecidableEq, Repr

/-- How the host link trained (R519). -/
inductive LinkMode
  | pcie | cxl
  deriving DecidableEq, Repr

/-- Data a device read of host memory returns (R435): the bytes, the bytes marked poisoned, or an error completion. -/
inductive HostRead
  | data (bytes : List Byte)
  | poisoned (bytes : List Byte)
  | error
  deriving DecidableEq, Repr

/-- Which unit's fault registers (R584). -/
inductive FaultUnit
  | chip
  | region (r : RegionId)
  | block (r : RegionId) (b : BlockId)
  deriving DecidableEq, Repr

/-- Why the chip enters SAFE (R614). -/
inductive SafeCause
  | fault (cls unit : Nat)
  | forced
  | training (c : StackId)
  deriving DecidableEq, Repr

/-- The samples of a picture: the bit depth and the rows of its components, top first; a picture of 4:0:0 has no chroma rows. -/
structure Planes where
  depth : Nat
  y : List (List Nat)
  cb : List (List Nat)
  cr : List (List Nat)
  deriving DecidableEq, Repr, Inhabited

/-- A motion vector, in 1/16 luma samples. -/
structure MotionVec where
  x : Int
  y : Int
  deriving DecidableEq, Repr, Inhabited

/-- The coding tools that R185 enables and those that R186 names: `deblocking` to `rdoq` are bits 0 to 15 of ENC_TOOLS in order. -/
inductive CodeTool
  | deblocking | filter1 | filter2 | part | temporalMv | transformSkip | affine4 | mmvd | cclm | lmcs | dualTree | highPrecMv | biPred
  | signHiding | dependentQuant | rdoq
  | mbaff | weightedPred | transquantBypass | scalingLists | laterReference | pcm | rangeExtension | palette | intraBlockCopy
  | refResampling | affine6 | gpm | ciip | bdof | dmvr | sbTmvp | bcw | mip | isp | multiRefLine | lfnst | explicitMts | subpictures | gdr
  | superres | sizeChange | filmGrain | warpedMotion | obmc | interIntra | wedge | switchFrame
  deriving DecidableEq, Repr

/-- How a block is predicted: by an intra mode, or from references of its lists, each with a vector; `skip` where it has no residual. -/
inductive Pred
  | intra (mode : Nat)
  | inter (refs : List (Nat × MotionVec)) (skip : Bool)
  deriving DecidableEq, Repr

/-- A coded block: its place in the CTU and its size in luma samples, its split level, its prediction and the sides of its transform
blocks. -/
structure CodeBlock where
  x : Nat
  y : Nat
  w : Nat
  h : Nat
  depth : Nat
  pred : Pred
  transforms : List Nat
  deriving DecidableEq, Repr

/-- A way to code one CTU: its blocks in coding order and the tools it uses. -/
structure Choice where
  blocks : List CodeBlock
  tools : List CodeTool
  deriving DecidableEq, Repr, Inhabited

/-- The syntax elements whose values the spec gives, by the name it uses for them. -/
inductive Elem
  | profile | level | tier | bitDepth | chromaFormat | width | height | cropRight | cropBottom | chromaLoc
  | tileCols | tileRows | uniformSpacing | columnBoundary (i : Nat) | rowBoundary (i : Nat) | wpp | entropyCoding
  | fieldPic | frameMbsOnly | bottomField | fieldIndication | toolEnable (t : CodeTool)
  | bitRate | cpbSize | cbrFlag | initialRemovalDelay | removalDelay | decoderBufferDelay | encoderBufferDelay
  | pictureType | pictureOrder | refCount | longTerm
  | picInitQp | numRefIdxDefault | log2MaxFrameNum | chromaQpOffset | sliceQp | log2MaxPoc | cbQpOffset | log2CtuSize
  | tileColsLog2 | obuType | frameWidth | maxFrameWidth | direct8x8 | tileColumnWidth | sliceTemporalMv | phAlf
  | reducedStillPicture | stillPicture | seqProfile | monoChrome | dataChroma | orderHint | useRefFrameMvs | bothQuantTools | obuSizeSkew
  deriving DecidableEq, Repr

/-- The kinds of units of a coded stream (R240): slice or tile group data, a parameter set or sequence header, an SEI message or
metadata OBU, a picture or frame header, filler data. -/
inductive UnitKind
  | slice | paramSet | sei | header | filler
  deriving DecidableEq, Repr

/-- A unit of a coded stream: its kind, the elements it signals, and the coded data it carries. -/
structure StreamUnit where
  kind : UnitKind
  elems : List (Elem × Int)
  body : List Byte
  deriving DecidableEq, Repr

/-- What the coding of one row unit rests on (R209) and nothing else: the vendor section, personality and chroma; the sets as they apply
to it; the picture's index, kind and place of the unit; the samples of its source, of the source before it and of its references, each with
its distance in pictures; the reference words that came back poisoned; the row's QP, floor mode and cap; the delta map; and how
the CTUs above were coded. -/
structure UnitJob where
  vs : Word
  pers : Nat
  chroma : Nat
  sets : List (Nat × Word)
  index : Nat
  kind : Nat
  row : Nat
  col : Nat
  source : Planes
  previous : Planes
  refs : List (Nat × Planes)
  poisoned : List (Nat × Nat)
  rowQp : Nat
  lastQp : Nat
  floor : Bool
  reserve : Bool
  cap : Int
  map : List (Option Nat)
  above : List Choice
  deriving DecidableEq, Repr

/-- The state of an entropy engine (R329): the coder's range, low or value, and pending bits; the context variables or CDFs and the
synchronisation store; the byte or bit position; the tracer's running state; and the partition's row units done. -/
structure Engine where
  range : Nat
  low : Nat
  outstanding : Nat
  contexts : List Nat
  sync : List Nat
  position : Nat
  tracer : List Nat
  unitsDone : Nat
  deriving DecidableEq, Repr, Inhabited

/-- Who a request of a cell SRAM port is for, in priority order (R20). -/
inductive SramFor
  | belay | work | prefetch
  deriving DecidableEq, Repr

/-- A request inside a block: of a port of a cell's SRAM (R20), or of a bank of the block line store by a requester, cells 0 to 11 or the
sequencer 12 (R21). It reads from a byte address, or writes bytes there. -/
inductive LocalReq
  | sram (cell : CellId) (port : Fin 2) (use : SramFor) (addr : Fin 524288) (data : Option (List Byte))
  | line (bank : Fin 16) (who : Fin 13) (addr : Fin 262144) (data : Option (List Byte))
  deriving DecidableEq, Repr

/-- How a request comes to the mesh: the mesh input, the cycles since it was injected, and the region memory agent that passes it, with
the pipeline charged (none: the region's own traffic). -/
structure MemBy where
  input : Fin 32
  age : Nat
  agent : Option (RegionId × Option PipeId)
  deriving DecidableEq, Repr

/-- A request to an HBM controller: a write or a read, the word, a write's bytes and the first byte they go to, the mesh class, and
whether the data is poisoned. -/
structure MemReqIn where
  write : Bool
  word : Nat
  data : List Byte
  first : Nat
  cls : Nat
  poisoned : Bool
  deriving DecidableEq, Repr

/-- What differs between two copies that a block compares: the next state of a Rope pair's second engine (R330), or the copy of a queue's write
or read pointer (R343). -/
inductive Upset
  | engine (e : Engine)
  | pointer (write : Bool) (copy : Nat)
  deriving DecidableEq, Repr

/-- A fault as a unit detects it (R584): its class, the unit it names (R592), for STATE_COPY
whether both copies of one word are poisoned, and for ROPE_MISMATCH and QUEUE_POINTER what differs, where it is one of the compared states. -/
structure FaultIn where
  cls : Nat
  unit : Nat
  both : Bool
  upset : Option Upset
  deriving DecidableEq, Repr

/-- What a chip-class fault strikes (R584): a buffer's table entry, or the request, packet or source that read a word. -/
inductive Victim
  | none
  | buffer (n : BufId)
  | channel (c : ChanId)
  | source (n : SrcId)
  | port (n : PortId)
  deriving DecidableEq, Repr

/-- What decoding one CTU gave: the codecs are those of the published standards, whose text the spec does not hold. `bits` are those
decoded, `qp` the QP read; `mode`, `mvx`, `mvy` are the record's fields (R318). -/
structure CtuIn where
  bits : Nat
  qp : Nat
  mode : Nat
  mvx : Nat
  mvy : Nat
  deriving DecidableEq, Repr

/-- A conformance event that the tracer found (R299, R316): its code, the CTU (0xFFFF each where none), the bit position, the
value, the limit, the identifier and the unit; `remains` tells of 0x5005 that data remains after the last CTU. -/
structure EventIn where
  code : Nat
  x : Nat
  y : Nat
  bitOfs : Nat
  value : Nat
  limit : Nat
  picId : Nat
  unit : Nat
  remains : Bool
  deriving DecidableEq, Repr

/-- A run of concealed CTUs (R317): its first CTU, count, cause and whether the CTUs used poisoned samples. -/
structure ConcealIn where
  x : Nat
  y : Nat
  count : Nat
  cause : Nat
  poison : Bool
  deriving DecidableEq, Repr

/-- The outcome of decoding one row unit: its first CTU column, its CTUs in order, the events and the concealed runs. An encoded unit's
outcome is the model's own. -/
structure UnitIn where
  x0 : Nat
  ctus : List CtuIn
  events : List EventIn
  conceals : List ConcealIn
  deriving DecidableEq, Repr

/-- A reference that a coded picture names (R308): its slot or list index, the index of the decoded picture named (none where
none was decoded for it), its identifier, its place in output order where known, and where the stream names it. -/
structure RefIn where
  slot : Nat
  pic : Option Nat
  picId : Nat
  order : Option Nat
  bitOfs : Nat
  unit : Nat
  deriving DecidableEq, Repr

/-- A decoded picture hash SEI message (R299): its method and digest, and where it stands. -/
structure HashIn where
  method : Nat
  digest : Nat
  bitOfs : Nat
  unit : Nat
  deriving DecidableEq, Repr

/-- What the parsing of a coded picture's headers gives (R281, R289, R292, R297, R308): the standards' syntax is not in the
spec. `profile` is the mask bit of R279 (255 outside its table), `chroma` is coded as PE_CHROMA (3 for 4:0:0), `kind` as bits
[2:0] of DR_KIND; `field` tells a field-coded picture; `order` is its place in output order and `reorder` the stream's depth;
`keep` are the earlier pictures that stay references; `refresh` and `shown` tell whether it becomes a reference and is output;
`shows` is the held picture that it outputs instead (show_existing_frame). `hiddenRows` counts the CTU rows of the frames of a
temporal unit that are not shown. `codedW`, `codedH` are the decoded size before cropping and `depth` is the bit depth. `cropX`, `cropY` are the first column and row of the cropped area of that width and height; `unitParts` names
the entropy partition of each row unit in raster order. `bitOfs` and `unit` tell where its first unit stands; `hash` is the
decoded picture hash SEI message, where there is one. -/
structure StreamPic where
  profile : Nat
  level : Nat
  chroma : Nat
  width : Nat
  height : Nat
  codedW : Nat
  codedH : Nat
  depth : Nat
  kind : Nat
  field : Bool
  picId : Nat
  order : Nat
  reorder : Nat
  newSeq : Bool
  rap : Bool
  refs : List RefIn
  keep : List Nat
  refresh : Bool
  shown : Bool
  shows : Option Nat
  ctuLog2 : Nat
  tileCols : Nat
  hiddenRows : Nat
  partitions : Nat
  unitParts : List Nat
  cropX : Nat
  cropY : Nat
  bitOfs : Nat
  unit : Nat
  hash : Option HashIn
  events : List EventIn
  deriving DecidableEq, Repr

/-- What a decoder was given for one coded picture (R298): the DEC set at its PIC_START, its bytes with a mark on those that came back
poisoned, whether the last one was there, and the losses reported in it. -/
structure StreamIn where
  sets : List (Nat × Word)
  bytes : List (Byte × Bool)
  whole : Bool
  losses : List EventIn
  deriving DecidableEq, Repr

/-- What decoding rests on (R298) and nothing else: the vendor section, personality and chroma, the coded pictures taken since enable, the
row unit (none for the headers), and the reference words that came back poisoned. -/
structure DecJob where
  vs : Word
  pers : Nat
  chroma : Nat
  stream : List StreamIn
  unit : Option (Nat × Nat)
  poisoned : List (Nat × Nat)
  deriving DecidableEq, Repr

/-- The row unit whose tokens a queue carries. -/
inductive WorkJob
  | encode (j : UnitJob)
  | decode (j : DecJob)
  deriving DecidableEq, Repr

/-- What starting a picture takes from outside the rules of the spec: nothing for an encoded picture; for a decoder the parse of the
coded picture that it takes. -/
inductive PicInfo
  | encode
  | decode (info : StreamPic)
  deriving DecidableEq, Repr

/-- One line of a picture: its luma and chroma samples. -/
structure LineIn where
  y : List Nat
  cb : List Nat
  cr : List Nat
  deriving DecidableEq, Repr

/-- A unit that the device reads from an ingress host ring (R494). -/
structure HrUnitIn where
  kind : Nat
  flags : Nat
  pic : Nat
  data : List Byte
  deriving DecidableEq, Repr

/-- A mark record of a ring frame (R475). -/
structure RingMark where
  slot : Nat
  pass : Bool
  src : Nat
  domain : Nat
  frame : Nat
  line : Nat
  sample : Nat
  arg : Word
  sec : Nat
  ns : Nat
  deriving DecidableEq, Repr

/-- A valid cell of a ring frame (R476): its number, header fields and payload. -/
structure RingCell where
  number : Nat
  sop : Bool
  eop : Bool
  eopic : Bool
  src : Nat
  age : Nat
  dest : Nat
  stream : Nat
  seq : Nat
  payload : List Byte
  deriving DecidableEq, Repr

/-- A ring frame (R465, R467): kind 1 MASTER, 2 FORMING; only valid cells and marks are listed. -/
structure RingFrame where
  kind : Nat
  updId : Nat
  masterId : Nat
  masterPri : Nat
  seq : Nat
  sec : Nat
  ns : Nat
  acc : Nat
  trigUp : BitVec 8
  trigAll : BitVec 8
  loop : Nat
  marks : List RingMark
  cells : List RingCell
  deriving DecidableEq, Repr

/-- What RECOMPOSE_REGION meets as it runs (R110, R138, R435, R613): the outcome of the image's cryptographic checks, the bytes of
an image in host memory, how far it comes before another command (0 inside steps 1 to 3, 1 in step 4, 2 in step 5, 3 in step 6), and the
RETIRED blocks of the region that pass their self-test. -/
structure RecomposeIn where
  verdict : SlotVerdict
  host : HostRead
  reached : Fin 4
  passed : List (Fin 8)
  deriving DecidableEq, Repr

/-- What an operation of the Command Port found by its end (R623 to R626, R656): bytes read from the host, the units done where
an abort stopped it, the flash sectors that still fail, failed cells as (region, block, cell), blocks with another failure, regions
whose controller failed, failed chip units and buffers (R625), failing words of memory, and RETIRED blocks that passed (R613). -/
structure OpEnv where
  host : HostRead
  units : Nat
  sectors : List Nat
  cells : List (RegionId × BlockId × CellId)
  blocks : List (RegionId × BlockId)
  controllers : List RegionId
  chipUnits : Fin 32
  buffers : List BufId
  words : List Nat
  passed : List (Fin 8)
  late : Bool
  deriving DecidableEq, Repr

/-- A BAR of a function (R533). -/
inductive Bar
  | bar0 | bar2 | bar4
  deriving DecidableEq, Repr

/-- The words that R551 holds in three copies, by the fault class of a word without a majority. -/
inductive TripWord
  | chip | clock | composition | glove | baseCamp
  deriving DecidableEq, Repr

/-- A PTP message (R57): an Announce of the clock that the best-master choice selects, a Sync with the master's time where it is
one-step, a Follow_Up with it, or a Delay_Resp. An Announce advertises its interval, 2 to the power `logInterval` seconds. `t2` is the hardware timestamp of the Sync and `t3` of the Delay_Req answered, in ns. -/
inductive PtpMsg
  | announce (master : Nat) (logInterval : Int)
  | sync (t1 : Option Nat) (t2 : Nat)
  | followUp (t1 : Nat)
  | delayResp (t3 t4 : Nat)
  deriving DecidableEq, Repr

/-- What a register write meets beside its value: which reference clocks run (R441, R462; bits 0 and 1 the two 156.25 MHz inputs, 2 148.5 MHz,
3 148.5 MHz / 1.001), whether a hardware
update reaches an HWU field in the same cycle (R548), the units that stand in an ingress host ring up to a new WR (R494), and
what RECOMPOSE_REGION meets. -/
structure RegEnv where
  clk : BitVec 4
  clash : Bool
  units : List HrUnitIn
  image : RecomposeIn
  deriving DecidableEq, Repr

/-- The configuration-space fields of a function that the rules rest on (R531, R573, R574): power state D0, PME_En, MSI-X Enable and
Function Mask, Memory Space Enable, and PF0's NumVFs; `early` tells that the write comes before the chip area answers (R146). -/
structure ConfigIn where
  early : Bool
  aerClear : Bool
  d0 : Bool
  pmeEn : Bool
  msixEn : Bool
  fnMask : Bool
  memSpace : Bool
  numVfs : Nat
  deriving DecidableEq, Repr

/-- What a read of configuration space asks for (R523, R531): the identity, a field of the DVSEC for CXL Devices (ID 0), the Non-CXL Function Map's
bit of a VF (ID 2), Phase 2 duration of the GPF DVSEC in microseconds (ID 5), a field of the Flex Bus Port DVSEC (ID 7), the BAR and the offset of the Register
Locator's entry (ID 8), of SR-IOV, and the status and Header Log of AER. -/
inductive ConfigItem
  | vendorId | deviceId | revisionId | classCode
  | cacheCapable | ioCapable | memCapable | hdmCount | memHwInit | viralCapable | cacheSizeUnit
  | range1Size | range2Size | memInfoValid | memActive | memActiveTimeout | cxlEnabled
  | nonCxl (vf : Fin 16)
  | gpfPhase2
  | portCache | portIo | portMem | flit68
  | locatorBar | locatorOffset
  | totalVfs | initialVfs | firstVfOffset | vfStride | numVfs | ari | ats
  | aerPoisoned
  deriving DecidableEq, Repr

/-- A read by the host: `n` bytes of a BAR of a function from a byte offset on, where `sparse` tells byte enables with gaps (R541), or of configuration
space. -/
inductive HostLoad
  | memory (bar : Bar) (off n : Nat) (sparse : Bool)
  | config (early : Bool) (i : ConfigItem)
  deriving DecidableEq, Repr

/-- A write by the host: bytes to a BAR of a function from a byte offset on (`none`: that byte is not enabled), or the function's
configuration fields. -/
inductive HostWrite
  | memory (bar : Bar) (off : Nat) (data : List (Option Byte))
  | config (c : ConfigIn)
  deriving DecidableEq, Repr

/-- Who asks for a buffer (R409): host software of a domain by a 32-bit read of HOP_ALLOC, or a unit by its owner ID, which may be a
producer that can wait (R413) or live ingress (R414). -/
inductive AllocBy
  | host (d : DomId)
  | unit (pool : PoolId) (owner : Fin 4096) (waits live : Bool)
  deriving DecidableEq, Repr

/-- Who operates on a buffer (R415): host software of a domain by HOP_CMD, or a unit by its owner ID. -/
inductive BufBy
  | host (d : DomId)
  | unit (owner : Fin 4096)
  deriving DecidableEq, Repr
/-- The commands of the device: one constructor for each row of the opcode table, in the table's order. -/
inductive Instr
  | auxPowerOn (adsel : Fin 4)
  | baseCampFirmwareLoad (sigA sigB : Bool)
  | railWindowEntry (r : Rail)
  | railEntryTimeout (r : Rail)
  | railExcursion (r : Rail)
  | vauxBrownout
  | chipStart (vA vB : SlotVerdict)
  | hbmStackTrained (c : StackId) (ok : Bool)
  | releaseToBivouac
  | cxlLinkUp (mode : LinkMode) (lanes rate : Nat)
  | perstAssert
  | linkReset
  | passThroughLock
  | flrVf (d : DomId)
  | flrPf0
  | trstAssert
  | cxlLinkDown
  | cxlLinkReturn (lanes rate : Nat)
  | cxlLinkDownTimeout
  | modeReqBivouac (d : DomId)
  | modeReqRun (d : DomId)
  | modeReqMaintain (d : DomId)
  | modeTransitionDone
  | forceSafe (d : DomId) (mitten : Fin 4)
  | mittenForceWrite (d : DomId) (mitten : Fin 4)
  | safeEntry (c : SafeCause)
  | recomposeRegate (r : RegionId)
  | refSourceLost
  | holdoverTimeout
  | rckPhaseMeasurement (err rate : Int)
  | rckLocked
  | rckRateUpdate
  | rckRefPriWrite (d : DomId) (v : Word)
  | rckDomOfsWrite (d : DomId) (r : RasterId) (v : Word)
  | domainFrameEnd (r : RasterId)
  | ptpMessage (domain : Nat) (m : PtpMsg)
  | ptpExchange (rate : Int)
  | ptpAdjWrite (d : DomId) (v : Word)
  | ptpHostStale
  | refVEdge (input : Fin 5) (refF : Bool)
  | scheduleEntryFire (r : RasterId)
  | hostScheduleWrite (d : DomId) (e : Fin 65536) (k : Fin 4) (be : BitVec 4) (v : Word)
  | nop (n : Fin 4096)
  | handover (p : PipeId)
  | picStart (p : PipeId) (info : PicInfo)
  | marginMark (p : PipeId)
  | rowDeadline (p : PipeId)
  | emit (p : PipeId)
  | release (n : PortId)
  | captureArm (p : PipeId)
  | regionUp (r : RegionId)
  | regionGate (r : RegionId)
  | regionDvfs (r : RegionId)
  | hbmRetrain (c : StackId) (ch : Fin 16)
  | trigOut (n : Fin 4)
  | trigOutPulseEnd (n : Fin 4)
  | irqAction (n : Fin 4096)
  | ringMark (n : Fin 4096)
  | regionActionAtIdle (r : RegionId)
  | regionIdle (r : RegionId)
  | trigInEvent (n : Fin 4)
  | externalInputEdge (n : Fin 8) (level : Bool) (samples : Nat)
  | lowWordSnapshotRead (d : DomId) (r : HostLoad)
  | spareMove (r : RegionId) (b : BlockId)
  | inservicePassDone (r : RegionId) (b : BlockId) (pass : Bool)
  | rowUnitHandout (p : PipeId) (r : RegionId) (b : BlockId) (work : List LocalReq) (poisoned : List (Nat × Nat)) (black : List (Nat × Nat × Nat))
  | partitionAssign (p : PipeId) (r : RegionId) (b : BlockId) (q : Fin 2) (cavlc : Bool)
  | rowUnitComplete (r : RegionId) (b : BlockId) (out : UnitIn)
  | pictureComplete (p : PipeId)
  | blockFault (r : RegionId) (b : BlockId) (fs : List FaultIn) (corrected patch : Nat)
  | belayRerun (r : RegionId) (b : BlockId) (work : List LocalReq)
  | standbyTakeover (r : RegionId) (b : BlockId)
  | blockSelftestDone (r : RegionId) (b : BlockId) (pass : Bool)
  | regionFault (r : RegionId) (fs : List FaultIn) (corrected : Nat)
  | rgcResyncDone (r : RegionId)
  | chipFault (fs : List FaultIn) (v : Victim) (corrected : Nat)
  | faultAck (d : DomId) (u : FaultUnit) (v : Word)
  | autoAck (u : FaultUnit) (cls : Fin 64)
  | faultInject (d : DomId) (u : FaultUnit) (v : Word)
  | injectionFire (u : FaultUnit) (both : Bool) (real : List FaultIn)
  | cairn (r : RegionId) (b : BlockId) (gap progress : Nat)
  | dqTokenWrite (r : RegionId) (b : BlockId) (q : Fin 2) (who : Fin 13) (far : Bool)
  | dqTokenRead (r : RegionId) (b : BlockId) (q : Fin 2) (who : Fin 13)
  | dqLevelWrite (d : DomId) (r : RegionId) (b : BlockId) (q : Fin 2) (v : Word)
  | segmentMove (r : RegionId) (b : BlockId) (q : Fin 2)
  | captureLine (p : PipeId) (y x : Nat) (l : LineIn)
  | inputFrameStart (p : PipeId) (field2 : Bool)
  | lineGiveUp (p : PipeId) (row : Nat)
  | clipCapture (p : PipeId) (field2 : Bool)
  | shadowWrite (d : DomId) (p : PipeId) (set : Fin 3) (o : Fin 64) (v : Word)
  | shadowDiscard (d : DomId) (p : PipeId)
  | activeWrite (d : DomId) (p : PipeId) (set : Fin 3) (o : Fin 64) (v : Word) (clash : Bool)
  | pipelineEnable (d : DomId) (p : PipeId) (v : Word)
  | pipelineDisable (d : DomId) (p : PipeId) (v : Word)
  | recordCommit (p : PipeId)
  | deltaMapReadDone (p : PipeId) (h : HostRead)
  | codedPictureReceived (p : PipeId)
  | partitionDataTimeout (p : PipeId)
  | memoryRequest (by_ : MemBy) (m : MemReqIn)
  | pseudoChannelIssue (c : StackId) (ch : Fin 16) (p : Fin 2) (colReady actReady : List Nat) (upsets : List (Nat × Nat))
  | pageIdleClose (c : StackId) (ch : Fin 16) (p : Fin 2) (b : Fin 48)
  | bankRefresh (c : StackId) (ch : Fin 16) (p : Fin 2) (postpone : Bool)
  | retrainDone (c : StackId) (ok : Bool)
  | autoRetrain (c : StackId) (ch : Fin 16)
  | selfRefreshEntry (c : StackId) (cancelled : Bool)
  | selfRefreshExit (c : StackId)
  | ceBucketLeak (c : StackId)
  | memEccCtlWrite (d : DomId) (c : StackId) (v : Word)
  | scrubPage (c : StackId)
  | arbitrationWindow (r : RegionId) (demands : List (PipeId × Nat × Nat))
  | budgetWrite (d : DomId) (p : PipeId) (v : Word)
  | alloc (a : AllocBy)
  | free (a : BufBy) (n : BufId)
  | releaseShare (a : BufBy) (n : BufId)
  | share (a : BufBy) (n : BufId)
  | pass (a : BufBy) (n : BufId) (newOwner : Fin 4096)
  | poolRetry (k : Nat)
  | linkWordRefill (p : PoolId)
  | rebuildDone (p : PoolId)
  | poolResize (d : DomId) (p : PoolId) (v : Word)
  | poolEnable (d : DomId) (p : PoolId) (on : Bool)
  | dmaDoorbell (d : DomId) (c : ChanId)
  | dmaPoll (c : ChanId)
  | descriptorFetch (c : ChanId) (h : HostRead)
  | copy (c : ChanId) (h : HostRead)
  | fill (c : ChanId) (h : HostRead)
  | toPool (c : ChanId) (h : HostRead)
  | fromPool (c : ChanId) (h : HostRead)
  | descriptorWriteback (c : ChanId) (h : HostRead)
  | dmaEnable (d : DomId) (c : ChanId) (v : Word)
  | dmaStop (c : ChanId) (moved : Nat) (h : HostRead)
  | macPortEnable (d : DomId) (m : MacId) (j : Fin 4) (v : Word) (clk : BitVec 4)
  | sdiLaneEnable (d : DomId) (l : Fin 16) (v : Word) (clk : BitVec 4)
  | lanePllLock (l : LaneId)
  | laneSignalDetect (l : LaneId)
  | laneAdapted (l : LaneId) (inverted : Bool)
  | laneAlignLock (l : LaneId) (logical : List (Fin 16))
  | laneRetryTimeout (l : LaneId)
  | laneLockLost (l : LaneId)
  | recal (d : DomId) (l : LaneId) (v : Word)
  | recalDone (l : LaneId)
  | prbsGeneratorWrite (d : DomId) (l : LaneId) (v : Word)
  | ringActivate (d : DomId) (v : Word) (clk : BitVec 4)
  | ringFrameReceive (f : RingFrame) (bad : List (Fin 40))
  | ringFrameOriginate
  | ringMasterTimeout
  | ringTriggerAction (t : Fin 8)
  | macFrameReceive (m : MacId) (j : Fin 4) (corr uncorr : Nat) (frame : List Byte)
  | sdiLineReceive (l : Fin 16) (y : Nat) (first field2 : Bool) (payload : Option Word) (crcBad : Bool) (line : LineIn)
  | policerRefill (n : PortId)
  | policerWrite (d : DomId) (n : PortId) (burst : Bool) (v : Word)
  | mergeTimeout (n : PortId)
  | pathLoss (n : PortId)
  | hostRingWrWrite (d : DomId) (n : PortId) (v : Word) (units : List HrUnitIn)
  | hostRingUnitOut (n : PortId)
  | transmitOpportunity (t : Fin 33)
  | packetEnd (t : Fin 33)
  | shaperCreditTick
  | shaperConfigWrite (d : DomId) (n : PortId) (which : Fin 3) (v : Word)
  | queueSample (n : PortId)
  | reorderRelease (n : PortId)
  | sptImpSeedWrite (d : DomId) (n : PortId) (v : Word)
  | pcrInsert (n : PortId)
  | psiInsert (n : PortId)
  | portEnable (d : DomId) (n : PortId) (v : Word)
  | portDisable (d : DomId) (n : PortId) (v : Word)
  | chipKeyWrite (d : DomId) (v : Word)
  | registerWrite (d : DomId) (x : RegEnv) (w : HostWrite)
  | cmdArgWrite (d : DomId) (n : Fin 8) (be : BitVec 4) (v : Word)
  | ping (d : DomId)
  | chipReboot (d : DomId)
  | flashWrite (d : DomId)
  | flashRead (d : DomId)
  | fuseRead (d : DomId)
  | regionSelftest (d : DomId)
  | chipSelftest (d : DomId)
  | memoryTest (d : DomId)
  | recomposeRegion (d : DomId) (x : RecomposeIn)
  | recomposeActivate (r : RasterId)
  | commandComplete (e : OpEnv)
  | cmdAbort (d : DomId)
  | hdmCommit (k : Fin 8) (base size ways skip : Nat) (lock : Bool)
  | cxlMemRead (k : Fin 8) (o : Nat)
  | cxlMemWrite (k : Fin 8) (o : Nat) (bytes : List Byte) (poisoned : Bool)
  | h2dSnoop
  | gpfPhase2
  | poisonedTlpWrite (d : DomId)
  | deliveryDecision (t : Target)
  | wakeRegate (r : RegionId)
  | holdoffExpiry (d : DomId) (v : Fin 2048)
  | interruptAck (a : AckBy) (src : SrcId) (n : Fin 256)
  | routeWrite (d : DomId) (src : SrcId) (v : Word)
  | functionD0Return (w : Awake)
  | sensorSample (n : Fin 48) (v : BitVec 16)
  | powerWindow
  | baseCampTrip (sensor : Fin 32)
  | bcmPowerCapWrite (d : DomId) (v : Word)
  | bcmRegionOffWrite (d : DomId) (v : Word)
  | flashWeWrite (d : DomId) (v : Word)
  | logIdxWrite (d : DomId) (v : Word)
  | smbStatus (addr : Fin 128) (pec : Bool)
  | smbTempMax (addr : Fin 128) (pec : Bool)
  | smbPower (addr : Fin 128) (pec : Bool)
  | smbSensor (addr : Fin 128) (pec : Bool) (n : Fin 256)
  | logSeek (addr : Fin 128) (pec : Bool) (k : Word)
  | logRead (addr : Fin 128) (pec : Bool)
  | smbHold (addr : Fin 128) (pec : Bool) (v : Fin 256)
  | bmcCap (addr : Fin 128) (pec : Bool) (w : BitVec 16)
  | clearTrip (addr : Fin 128) (pec : Bool)
  | fwInfo (addr : Fin 128) (pec : Bool)
  | extest (drive pads : List (Nat × Bool))
  | samplePreload (preload pads : List (Nat × Bool))
  | highz
  | clamp
  | extestPulse (drive pads : List (Nat × Bool))
  | extestTrain (drive pads : List (Nat × Bool))
  | bypass
  | sdiOutputLine (l : Fin 16)
  | prbsCheckerLock (l : LaneId) (clean : Nat)
  | prbsCheckerLockLoss (l : LaneId) (errs : Nat)
  | linkLayerRetry
  | flitBufferError
  | triplicatedCopyUpset (w : TripWord) (majority : Bool)
  deriving DecidableEq, Repr

end Sys2Proof
end

