-- ==== Sys2Proof/WellFormed.lean ====
section
/-! DEFINITION. The well-formed commands: the operand ranges that the operands' types do not carry already. -/

namespace Sys2Proof

/-- A fault names a class of six bits and a unit of four (R584, R592). -/
def FaultIn.wf (f : FaultIn) : Bool :=
  decide (f.cls < 64) && decide (f.unit < 16)

/-- A line has as many samples of one chroma component as of the other. -/
def LineIn.wf (l : LineIn) : Bool := decide (l.cb.length = l.cr.length)

/-- A row unit's CTUs have QPs of eight bits and a mode byte (R251, R318). -/
def UnitIn.wf (u : UnitIn) : Bool := u.ctus.all fun c => decide (c.qp < 256) && decide (c.mode < 256)

/-- A parse names a CTU size and at least one tile column (R281). -/
def PicInfo.wf : PicInfo → Bool
  | .encode => true
  | .decode i => decide (4 ≤ i.ctuLog2) && decide (i.ctuLog2 ≤ 7) && decide (0 < i.tileCols)

/-- A ring frame's header fields fit, and it has 4 mark slots and 102 cells (R465, R467). -/
def RingFrame.wf (f : RingFrame) : Bool :=
  decide (f.kind < 4) && decide (f.updId < 16) && decide (f.masterId < 16) && decide (f.masterPri < 256)
    && decide (f.ns < 10 ^ 9) && f.marks.all (fun m => decide (m.slot < 4)) && f.cells.all (fun c => decide (c.number < 102))

/-- A memory request stays within its word, and names a class of the mesh (R32). -/
def MemReqIn.wf (m : MemReqIn) : Bool := decide (m.first + m.data.length ≤ 64) && decide (m.cls < 5)

/-- A host-ring unit's kind and flags are bytes (R494). -/
def HrUnitIn.wf (u : HrUnitIn) : Bool := decide (u.kind < 256) && decide (u.flags < 256)

/-- A host write carries at least one byte lane. -/
def HostWrite.wf : HostWrite → Bool
  | .memory _ _ data => !data.isEmpty
  | .config c => decide (c.numVfs < 16)

/-- A host read of memory asks for at least one byte. -/
def HostLoad.wf : HostLoad → Bool
  | .memory _ _ n _ => decide (0 < n)
  | .config _ _ => true

/-- A well-formed command. -/
def Instr.wf : Instr → Bool
  | .auxPowerOn .. => true
  | .baseCampFirmwareLoad .. => true
  | .railWindowEntry .. => true
  | .railEntryTimeout .. => true
  | .railExcursion .. => true
  | .vauxBrownout => true
  | .chipStart vA vB => vA.badDigests.all (· < 32) && vB.badDigests.all (· < 32)
  | .hbmStackTrained .. => true
  | .releaseToBivouac => true
  | .cxlLinkUp _ lanes rate => decide (rate < 3) && decide (lanes ≤ 8)
  | .perstAssert => true
  | .linkReset => true
  | .passThroughLock => true
  | .flrVf .. => true
  | .flrPf0 => true
  | .trstAssert => true
  | .cxlLinkDown => true
  | .cxlLinkReturn lanes rate => decide (rate < 3) && decide (lanes ≤ 8)
  | .cxlLinkDownTimeout => true
  | .modeReqBivouac .. => true
  | .modeReqRun .. => true
  | .modeReqMaintain .. => true
  | .modeTransitionDone => true
  | .forceSafe .. => true
  | .mittenForceWrite .. => true
  | .safeEntry .. => true
  | .recomposeRegate .. => true
  | .refSourceLost => true
  | .holdoverTimeout => true
  | .rckPhaseMeasurement .. => true
  | .rckLocked => true
  | .rckRateUpdate => true
  | .rckRefPriWrite .. => true
  | .rckDomOfsWrite .. => true
  | .domainFrameEnd .. => true
  | .ptpMessage domain _ => decide (domain < 256)
  | .ptpExchange .. => true
  | .ptpAdjWrite .. => true
  | .ptpHostStale => true
  | .refVEdge .. => true
  | .scheduleEntryFire .. => true
  | .hostScheduleWrite .. => true
  | .nop .. => true
  | .handover .. => true
  | .picStart _ info => info.wf
  | .marginMark .. => true
  | .rowDeadline .. => true
  | .emit .. => true
  | .release .. => true
  | .captureArm .. => true
  | .regionUp .. => true
  | .regionGate .. => true
  | .regionDvfs .. => true
  | .hbmRetrain .. => true
  | .trigOut .. => true
  | .trigOutPulseEnd .. => true
  | .irqAction .. => true
  | .ringMark .. => true
  | .regionActionAtIdle .. => true
  | .regionIdle .. => true
  | .trigInEvent .. => true
  | .externalInputEdge _ _ samples => decide (0 < samples)
  | .lowWordSnapshotRead _ r => r.wf
  | .spareMove .. => true
  | .inservicePassDone .. => true
  | .rowUnitHandout .. => true
  | .partitionAssign .. => true
  | .rowUnitComplete _ _ out => out.wf
  | .pictureComplete .. => true
  | .blockFault _ _ fs _ _ => fs.all FaultIn.wf
  | .belayRerun .. => true
  | .standbyTakeover .. => true
  | .blockSelftestDone .. => true
  | .regionFault _ fs _ => fs.all FaultIn.wf
  | .rgcResyncDone .. => true
  | .chipFault fs _ _ => fs.all FaultIn.wf
  | .faultAck .. => true
  | .autoAck .. => true
  | .faultInject .. => true
  | .injectionFire _ _ real => real.all FaultIn.wf
  | .cairn _ _ gap _ => decide (gap ≤ 4096)
  | .dqTokenWrite .. => true
  | .dqTokenRead .. => true
  | .dqLevelWrite .. => true
  | .segmentMove .. => true
  | .captureLine _ _ _ l => l.wf
  | .inputFrameStart .. => true
  | .lineGiveUp .. => true
  | .clipCapture .. => true
  | .shadowWrite .. => true
  | .shadowDiscard .. => true
  | .activeWrite .. => true
  | .pipelineEnable .. => true
  | .pipelineDisable .. => true
  | .recordCommit .. => true
  | .deltaMapReadDone .. => true
  | .codedPictureReceived .. => true
  | .partitionDataTimeout .. => true
  | .memoryRequest _ m => m.wf
  | .pseudoChannelIssue _ _ _ colReady actReady _ => colReady.all (· < 48) && actReady.all (· < 48)
  | .pageIdleClose .. => true
  | .bankRefresh .. => true
  | .retrainDone .. => true
  | .autoRetrain .. => true
  | .selfRefreshEntry .. => true
  | .selfRefreshExit .. => true
  | .ceBucketLeak .. => true
  | .memEccCtlWrite .. => true
  | .scrubPage .. => true
  | .arbitrationWindow .. => true
  | .budgetWrite .. => true
  | .alloc .. => true
  | .free .. => true
  | .releaseShare .. => true
  | .share .. => true
  | .pass .. => true
  | .poolRetry .. => true
  | .linkWordRefill .. => true
  | .rebuildDone .. => true
  | .poolResize .. => true
  | .poolEnable .. => true
  | .dmaDoorbell .. => true
  | .dmaPoll .. => true
  | .descriptorFetch .. => true
  | .copy .. => true
  | .fill .. => true
  | .toPool .. => true
  | .fromPool .. => true
  | .descriptorWriteback .. => true
  | .dmaEnable .. => true
  | .dmaStop _ moved _ => decide (moved < 2 ^ 24)
  | .macPortEnable .. => true
  | .sdiLaneEnable .. => true
  | .lanePllLock .. => true
  | .laneSignalDetect .. => true
  | .laneAdapted .. => true
  | .laneAlignLock .. => true
  | .laneRetryTimeout .. => true
  | .laneLockLost .. => true
  | .recal .. => true
  | .recalDone .. => true
  | .prbsGeneratorWrite .. => true
  | .ringActivate .. => true
  | .ringFrameReceive f _ => f.wf
  | .ringFrameOriginate => true
  | .ringMasterTimeout => true
  | .ringTriggerAction .. => true
  | .macFrameReceive _ _ _ _ frame => decide (14 ≤ frame.length)
  | .sdiLineReceive _ _ _ _ _ _ line => line.wf
  | .policerRefill .. => true
  | .policerWrite .. => true
  | .mergeTimeout .. => true
  | .pathLoss .. => true
  | .hostRingWrWrite _ _ _ units => units.all HrUnitIn.wf
  | .hostRingUnitOut .. => true
  | .transmitOpportunity .. => true
  | .packetEnd .. => true
  | .shaperCreditTick => true
  | .shaperConfigWrite .. => true
  | .queueSample .. => true
  | .reorderRelease .. => true
  | .sptImpSeedWrite .. => true
  | .pcrInsert .. => true
  | .psiInsert .. => true
  | .portEnable .. => true
  | .portDisable .. => true
  | .chipKeyWrite .. => true
  | .registerWrite _ _ w => w.wf
  | .cmdArgWrite .. => true
  | .ping .. => true
  | .chipReboot .. => true
  | .flashWrite .. => true
  | .flashRead .. => true
  | .fuseRead .. => true
  | .regionSelftest .. => true
  | .chipSelftest .. => true
  | .memoryTest .. => true
  | .recomposeRegion .. => true
  | .recomposeActivate .. => true
  | .commandComplete .. => true
  | .cmdAbort .. => true
  | .hdmCommit .. => true
  | .cxlMemRead _ o => decide (o % 64 = 0)
  | .cxlMemWrite _ o bytes _ => decide (o % 64 = 0) && decide (bytes.length = 64)
  | .h2dSnoop => true
  | .gpfPhase2 => true
  | .poisonedTlpWrite .. => true
  | .deliveryDecision .. => true
  | .wakeRegate .. => true
  | .holdoffExpiry .. => true
  | .interruptAck .. => true
  | .routeWrite .. => true
  | .functionD0Return .. => true
  | .sensorSample .. => true
  | .powerWindow => true
  | .baseCampTrip .. => true
  | .bcmPowerCapWrite .. => true
  | .bcmRegionOffWrite .. => true
  | .flashWeWrite .. => true
  | .logIdxWrite .. => true
  | .smbStatus .. => true
  | .smbTempMax .. => true
  | .smbPower .. => true
  | .smbSensor .. => true
  | .logSeek .. => true
  | .logRead .. => true
  | .smbHold .. => true
  | .bmcCap .. => true
  | .clearTrip .. => true
  | .fwInfo .. => true
  | .extest .. => true
  | .samplePreload .. => true
  | .highz => true
  | .clamp => true
  | .extestPulse .. => true
  | .extestTrain .. => true
  | .bypass => true
  | .sdiOutputLine .. => true
  | .prbsCheckerLock .. => true
  | .prbsCheckerLockLoss _ errs => decide (errs ≤ 1024)
  | .linkLayerRetry => true
  | .flitBufferError => true
  | .triplicatedCopyUpset .. => true

end Sys2Proof
end

