-- ==== Sys2Proof/Decode.lean ====
section
/-! DEFINITION. The command that a word of the opcode table spells. The table gives no row any bits: every command is an event at the
device's boundary or inside it, so no word spells one. -/

namespace Sys2Proof

/-- No row of the opcode table has bits, so a word spells no command. -/
def decodeTableWord (_nbits _w : Nat) : Option Instr := none

end Sys2Proof
end

