-- ==== Sys2Proof/Config.lean ====
section
/-! DEFINITION. What an implementation fixes and the spec leaves open: constants with no body, so that no proof can see a
value of them and a statement about them holds whatever they are. -/

namespace Sys2Proof.Config

/-- The n-th free value: what a result, a byte or a choice the spec leaves open takes at the n-th use (assumption 2). -/
opaque free : Nat → Nat

/-- Byte `i` of data the spec leaves open, at the n-th use. -/
opaque freeByte : Nat → Nat → Byte

/-- What reading HBM word `w`, never written since power-up, yields (R388): 0 uncorrectable, 1 corrected, other values
passed as clean. -/
opaque unwrittenOutcome : Nat → Nat

/-- Byte `i` that such a word returns where it is not found uncorrectable. -/
opaque unwrittenByte : Nat → Nat → Byte

/-- What reading an HBM word with more than 6 bad symbols yields (R378): deterministic in the word's address and its count
of bad symbols, and otherwise open. 0 stands for uncorrectable, 1 for miscorrected, other values for passed as clean. -/
opaque beyondCode : Nat → Nat → Nat

/-- The byte such a word returns where it is not found uncorrectable. -/
opaque beyondByte : Nat → Nat → Nat → Byte

/-- The version of the Base Camp boot ROM, which FW_INFO returns and the spec does not give (R647). -/
opaque romVersion : Nat → Byte

/-- Whether a cache of the host holds a line of a host-bias carve-out changed, at the n-th time that the device asks, and byte `i` of it (R528). -/
opaque hostHolds : Nat → Nat → Bool
opaque hostByte : Nat → Nat → Nat → Byte

/-- Status bits of the CXL RAS capability that a write to a component register clears: bit 0 correctable, bit 1 uncorrectable. -/
opaque rasClears : Nat → Word → Nat

/-- What a read of the CXL component registers returns, from the offset and the word last written there: the registers are
those of the CXL standard, whose text the spec does not hold (R534). -/
opaque componentRead : Nat → Word → Word

/-- Word `i` of the fuse array where the spec gives no value (die identifier, key hash, trim, calibration, lane repair). -/
opaque fuseWord : Nat → Word

/-- round(k * log2(a / b)) as the log2 table of the vendor section gives it (R259, R264): the table's contents and its use
are the vendor's. -/
opaque log2Round : Nat → Int → Int → Int

/-- A CTU's activity weighted by its ROI factor (R260), from its combined delta, K and the activity: the factor table is the vendor
section's. -/
opaque roiWeighted : Int → Nat → Nat → Nat

/-- The row QP of row `r` of picture `i` that the weight of a quality target is taken against before the row has one (R260). -/
opaque rowQpAhead : Nat → Nat → Nat

/-- Whether a stream's parameters lie within the limits of a published standard (R188, R207, R220, R278, R303), whose text the
spec does not hold: the code that asks and the numbers it depends on. -/
opaque standardAdmits : Nat → List Nat → Bool

/-- The words of the control ROMs of a block sequencer, at micro and nano level (R345): they are the vendor's. -/
opaque rom : Bool → Nat → List Word

/-! ### Entropy engines and tokens (R298, R329 to R339) -/

/-- The k-th token of a row unit (R338, R339): its content is the vendor's and depends on the unit's inputs alone. -/
opaque token : WorkJob → Nat → BitVec 128

/-- An engine after one cycle of its work: the standards' coders, whose next state R330 compares. -/
opaque engineNext : Engine → Engine

/-- An engine's coder, contexts, synchronisation store and tracer after the work on one row unit; its position and count of
units are R327's to R329's. -/
opaque engineUnit : WorkJob → Engine → Engine

/-- An engine as a partition begins: initialised contexts of the coder. -/
opaque engineStart : Nat → Engine

/-- Byte `i` of memory `m` of a block as it is where nothing has been written since the `n`-th loss of its contents (R637): cell SRAMs 0 to 11, line
store banks from 12 on. -/
opaque lostByte : Nat → Nat → Nat → Nat → Byte

/-! ### Packets (R487, R492) -/

/-- The IPv4 identification of a packet, by port and number: the packet is never fragmented. -/
opaque ipIdent : Nat → Nat → Nat

/-- What IEEE 1588 and the board fix of a Delay_Req: 0 the version byte, 1 the clock identity, 2 the port number, 3 the TTL, 4 DSCP, 5 the origin
timestamp, by sequence number. -/
opaque delayReq : Nat → Nat → Nat

/-- Numbers of the program tables: 0 the transport stream, 1 the program, 2 the tables' version. -/
opaque tableNumber : Nat → Nat

/-- The value found that a transport event of a code reports (R303), by the bytes that it is found in. -/
opaque foundValue : Nat → List Byte → Nat

/-! ### SDI (R446, R510): ST 352, whose text the spec does not hold -/

/-- The payload identifier of what an SDI output sends, by LAN_SDI_CTL and the number of its link (0: a single link). -/
opaque payloadId : Nat → Nat → Word

/-- The link of a quad link that a payload identifier names, from 0. -/
opaque payloadLink : Word → Fin 4

/-! ### The codecs' own parts (chapter "Encoding"): the published standards' syntax and decoding, and the vendor's tables -/

/-- The ways to code CTU `n` of a row unit that the mode decision tries (R201), given how the CTUs before it were coded. -/
opaque ctuCandidates : UnitJob → List Choice → Nat → List Choice

/-- The samples of a CTU coded so, by the codec's decoding process. -/
opaque decodeCtu : UnitJob → List Choice → Choice → Planes

/-- The bits a CTU coded so takes. -/
opaque choiceBits : UnitJob → List Choice → Choice → Nat

/-- The bits of a motion vector of a block for a reference. -/
opaque vectorBits : UnitJob → Nat → MotionVec → Nat

/-- The vector predictors of the codec for a block (merge and AMVP, or AV1 reference vectors) in a reference. -/
opaque predictors : UnitJob → List Choice → Nat → CodeBlock → List MotionVec

/-- The luma prediction of a `w` by `h` block at (x, y) from a reference by a vector, padded as the codec pads it. -/
opaque predict : Nat → Planes → MotionVec → Nat → Nat → Nat → Nat → List (List Nat)

/-- SATD on 8 by 8 of two blocks: the transform's scaling is the vendor's. -/
opaque satd : List (List Nat) → List (List Nat) → Nat

/-- The vectors that codec, level and the place of a block allow: the least and greatest x and y. -/
opaque vectorLimits : Nat → Nat → Nat → Nat → (Int × Int) × (Int × Int)

/-- 0.68 x 2^((QP - 12) / 3) with 8 fractional bits, as the table of the vendor section holds it (R202). -/
opaque lambdaTable : Nat → Nat

/-- The QP whose quantiser step is nearest the luma AC step of an AV1 qindex (R202). -/
opaque av1Qp : Nat → Nat

/-- Byte `i` of the coded data of a row unit whose CTUs were coded so. -/
opaque unitByte : UnitJob → List Choice → Nat → Byte

/-- The bytes of a unit of the stream (a NAL unit, or an OBU), by codec, from its elements and coded data. -/
opaque streamBytes : Nat → StreamUnit → List Byte

/-- The picture that the codec's decoding process gives from the units of one picture and its references (R203). -/
opaque decodeEncoded : Nat → List StreamUnit → List (Nat × Planes) → Planes

/-- The picture order count, or the order hint extended to 32 bits, of picture `i` whose last IRAP is `k`, by codec (R250). -/
opaque pictureOrder : Nat → Nat → Nat → Nat

/-- Row `r`'s activity of picture `i` where its capture is not whole at its start (R259): the spec does not say what stands for it. -/
opaque earlyActivity : Nat → Nat → Nat

/-- The level one step below another, by codec, as its coding gives it (R242). -/
opaque levelBelow : Nat → Nat → Int

/-- The digest of a decoded picture by a codec's hash SEI method: the standards' text is not in the spec (R299). -/
opaque pictureHash : Nat → Nat → Planes → Nat

/-- Picture of a decoder (R290): the standard's decoding process on the stream, with its references by slot or list index as the decoder holds
them, each with whether it is a substitute (R309), and the values that concealed CTUs (column, row) take. -/
opaque decodeStream : DecJob → List (Nat × Bool × Planes) → List (Nat × Nat × Planes) → Planes

end Sys2Proof.Config
end

