-- ==== Sys2Proof/Machine/SMap.lean ====
section
/-! DEFINITION. Sparse tables keyed by a number, in one canonical form: keys strictly rising, and no entry equal to what an
unlisted key reads as. Registers, memories and per-object records are held in this form. Bit fields of words stand here too. -/

namespace Sys2Proof.Machine

/-- A sparse table: (key, value) pairs. -/
abbrev SMap (α : Type) := List (Nat × α)

/-- The value at key `k`: the entry's, or `d` where no entry has that key. -/
def smGet {α : Type} (d : α) (k : Nat) : SMap α → α
  | [] => d
  | (j, v) :: m => if k = j then v else smGet d k m

/-- Put the entry `v` at key `k`. -/
def smPut {α : Type} (k : Nat) (v : α) : SMap α → SMap α
  | [] => [(k, v)]
  | (j, w) :: m =>
    if k < j then (k, v) :: (j, w) :: m
    else if k = j then (k, v) :: m
    else (j, w) :: smPut k v m

/-- Drop the entry at key `k`. -/
def smDel {α : Type} (k : Nat) : SMap α → SMap α
  | [] => []
  | (j, w) :: m => if k = j then smDel k m else (j, w) :: smDel k m

/-- Make key `k` read as `v`, where an unlisted `k` reads as `d`: a value equal to `d` is not listed. -/
def smSet {α : Type} [DecidableEq α] (d : α) (k : Nat) (v : α) (m : SMap α) : SMap α :=
  if v = d then smDel k m else smPut k v m

/-- The entry at key `k`, if there is one. -/
def smFind {α : Type} (k : Nat) : SMap α → Option α
  | [] => none
  | (j, v) :: m => if k = j then some v else smFind k m

/-- Every key of the table is above `b`. -/
def smAbove {α : Type} (b : Nat) : SMap α → Bool
  | [] => true
  | (j, _) :: m => decide (b < j) && smAbove b m

/-- The canonical form: keys strictly rising and no entry that reads as its default. -/
def smWf {α : Type} [DecidableEq α] (d : Nat → α) : SMap α → Bool
  | [] => true
  | (j, v) :: m => decide (v ≠ d j) && (smAbove j m && smWf d m)

/-- Drop the entries whose key satisfies `p`: each of those keys reads as its default again. -/
def smErase {α : Type} (p : Nat → Bool) (m : SMap α) : SMap α := m.filter fun e => !p e.1

/-- The keys that have an entry, in rising order. -/
def smKeys {α : Type} (m : SMap α) : List Nat := m.map Prod.fst

/-- Insert into a list in rising order of `key`, after the entries with the same key. -/
def insertBy {α : Type} (key : α → Nat) (x : α) : List α → List α
  | [] => [x]
  | y :: l => if key x < key y then x :: y :: l else y :: insertBy key x l

/-- A list in rising order of `key`. -/
def sortBy {α : Type} (key : α → Nat) (l : List α) : List α := l.foldl (fun a x => insertBy key x a) []

/-- The mask of a field. -/
def maskF (f : Fld) : Word := BitVec.ofNat 32 (2 ^ f.width - 1) <<< f.lo

/-- The value of a field of a word. -/
def getF (f : Fld) (w : Word) : Nat := (w.toNat >>> f.lo) % 2 ^ f.width

/-- The word with a field set to `v` (modulo the field's size) and its other bits as they were. -/
def putF (f : Fld) (w : Word) (v : Nat) : Word :=
  (w &&& ~~~(maskF f)) ||| (BitVec.ofNat 32 (v % 2 ^ f.width) <<< f.lo)

end Sys2Proof.Machine
end

