-- ==== Sys2Proof/Machine/RegMap.lean ====
section
/-! DEFINITION. The register map of BAR0: the name of every register of the spec, its fields (bit range, field class, reset
value) as its header table gives them (R9, R10, R548), its BAR0 offset, and the register that stands at an offset. -/

namespace Sys2Proof.Machine

/-- The field classes of R548. `hwuShd` is a field shown as "HWU / SHD": HWU in the active set and SHD in the shadow set. -/
inductive FieldClass
  | ro | rw | w1c | cnt | sc | hwu | hwuShd
  deriving DecidableEq, Repr

/-- One row of a register's table: its bits, its class, and its reset value. -/
structure FieldRow where
  fld : Fld
  cls : FieldClass
  reset : Nat
  deriving DecidableEq, Repr

/-- The registers the spec names, one name for each header line (an indexed register has one name for all its instances). -/
inductive RegName
  | chipId
  | chipMode
  | chipResetCause
  | chipForce
  | chipKey
  | chipKeyState
  | chipTmr
  | cmdOp
  | cmdArg
  | cmdStatus
  | cmdAbort
  | cmdRejectCnt
  | cmdProgress
  | cmdOut
  | chipAccessErr
  | chipAccessAddr
  | chipOverrunAddr
  | chipAccessCnt
  | rckCtl
  | rckStatus
  | rckSlew
  | rckPhaseErr
  | rckSchedHost
  | rckTrigCtl
  | rckTrigPosLo
  | rckTrigPosHi
  | rckDomCtl
  | rckDomRate
  | rckDomGeom
  | rckDomActive
  | rckDomField
  | rckDomOfs
  | rckDomPosLo
  | rckDomPosHi
  | rckDomSched
  | rckDomLate
  | cfgStatus
  | cfgRefuse
  | cfgRefuseObj
  | cfgCompIdLo
  | cfgCompIdHi
  | cfgVsVersion
  | cfgRgnCompIdLo
  | cfgRgnCompIdHi
  | glvSummary
  | glvDeny
  | glvDenyCnt
  | glvEntry
  | icuStatus
  | icuFallbackCnt
  | icuWakeCnt
  | icuAck
  | icuNext
  | icuNextVec
  | icuExtCtl
  | icuSrcRoute
  | icuSrcStat
  | icuVecHold
  | bcmStatus
  | bcmPowerCap
  | bcmBmcCap
  | bcmPower
  | bcmThermCtl
  | bcmTempMax
  | bcmRegionOff
  | bcmRegionDvfs
  | bcmShedCnt
  | bcmTripCtl
  | bcmFlashCtl
  | bcmFwVersion
  | bcmLogIdx
  | bcmLogWr
  | bcmLogStatus
  | bcmLogData
  | bcmBoard
  | bcmPtpCtl
  | bcmPtpIp
  | bcmPtpStatus
  | bcmPtpAdj
  | bcmPtpTs
  | bcmSensor
  | memStatus
  | memCtl
  | memEccCtl
  | memCeCnt
  | memUeCnt
  | memCeAddrLo
  | memCeAddrHi
  | memUeAddrLo
  | memUeAddrHi
  | memScrubCtl
  | memScrubPos
  | memRetrainCnt
  | memSrCnt
  | bpmPoolCtl
  | bpmPoolSize
  | bpmPoolWarn1
  | bpmPoolWarn2
  | bpmPoolStatus
  | bpmPoolHeld
  | bpmPoolFree
  | bpmPoolFirst
  | bpmPoolMax
  | bpmPoolEmptyCnt
  | bpmPoolOverCnt
  | bpmPoolErrCnt
  | bpmPoolLastErr
  | bpmPoolLastErrOwn
  | bpmPoolWaitCnt
  | hopArg
  | hopCmd
  | hopResult
  | hopAlloc
  | dmaCtl
  | dmaStatus
  | dmaRefuse
  | dmaDb
  | dmaHeadLo
  | dmaHeadHi
  | dmaCurLo
  | dmaCurHi
  | dmaDoneLen
  | dmaDescCnt
  | dmaBytesLo
  | dmaBytesHi
  | dmaWaitCnt
  | lanLaneCtl
  | lanLaneStatus
  | lanTxFfe
  | lanRxEq
  | lanPrbs
  | lanPrbsErr
  | lanPrbsBitsLo
  | lanPrbsBitsHi
  | lanLockLostCnt
  | lanSdiCtl
  | lanSdiPayload
  | lanSdiCrcCnt
  | lanMacCtl
  | lanMacPortStatus
  | lanMacPortFecCorr
  | lanMacPortFecUncorr
  | lanRingCtl
  | lanRingCells
  | lanRingCable
  | lanRingStatus
  | lanRingLoop
  | lanRingTrig
  | lanRingMark
  | lanRingMarkArg
  | lanRingMarkDiff
  | lanRingBadfrm
  | lanRingCellTx
  | lanRingCellRx
  | sptCtl
  | sptStatus
  | sptBind
  | sptBind2
  | sptEncap
  | sptUdp
  | sptDstIp
  | sptSrcIp
  | sptDstMacLo
  | sptDstMacHi
  | sptRtp
  | sptSsrc
  | sptSeq
  | sptTs
  | sptTsRate
  | spt2110
  | sptRingHr
  | sptHrBaseLo
  | sptHrBaseHi
  | sptHrWr
  | sptHrRd
  | sptPolRate
  | sptPolBurst
  | sptMerge
  | schPortCtl
  | schIdleKbps
  | schHiCredit
  | schCredit
  | sptQDepth
  | sptQDelay
  | sptQMaxDepth
  | sptQMaxDelay
  | sptImpCtl
  | sptImpProb0
  | sptImpProb1
  | sptImpSeed
  | sptImpTsOfs
  | sptImpPcrOfs
  | sptImpCnt0
  | sptImpCnt1
  | sptPktsLo
  | sptPktsHi
  | sptBytesLo
  | sptBytesHi
  | sptDropPol
  | sptDropPool
  | sptDropOther
  | sptMergeDup
  | sptLoss
  | sptCsumBad
  | schCreditOnChange
  | schGrpPend
  | schMacAddrLo
  | schMacAddrHi
  | schMacCfg
  | schMacUnmatched
  | schMacRate
  | rgcStatus
  | rgcVote
  | maStatus
  | maGrantCnt
  | blkStatus
  | blkCellRole
  | blkSwitchCnt
  | blkSlot
  | ropeStatus
  | seqStatus
  | seqVersion
  | seqPatch
  | seqPatchCrc
  | seqEcc
  | seqResume
  | dqCtl
  | dqStatus
  | dqHiwater
  | dqResetCnt
  | dqStallCnt
  | dqTokens
  | pipCtl
  | pipStatus
  | pipRefuse
  | pipLatency
  | pipShadowPending
  | pipHandover
  | pipPicCnt
  | pipRecCtl
  | pipRecBaseLo
  | pipRecBaseHi
  | pipRecWr
  | pipRecRd
  | pipRecDrop
  | pipBudget
  | pipBudgetStat
  | pipOutPool
  | pipFault
  | decStatus
  | decEvtCnt
  | decConcealCnt
  | decMissingCnt
  | decLateBytes
  | decLastEvt
  | encCodec
  | encSize
  | encPart
  | encGop
  | encSearch
  | encTools
  | encQuant
  | encSrc
  | impSeed
  | impSlotCtl
  | impSlotArg
  | decCodec
  | decSize
  | decOut
  | decConceal
  | decTrace
  | rcCtl
  | rcRate
  | rcMaxrate
  | rcCpb
  | rcQp
  | rcWeight
  | rcStress
  | rcCurQp
  | rcFullness
  | rcCarry
  | rcStatus
  | roiRectX
  | roiRectY
  | roiMapCtl
  | roiMapBaseLo
  | roiMapBaseHi
  | fltStatus
  | fltCtl
  | fltUnack
  | fltAck
  | fltInject
  | fltEvtCnt
  | fltInjCnt
  | fltCeCnt
  | fltHistLo
  | fltHistHi
  | fltSafeCause
  | fltNowLo
  | fltNowHi
  | cxlStatus
  | cxlHdmMap
  | cxlPoisonCnt
  | cxlHdmOob
  deriving DecidableEq, Repr

def ChipId.chipId : Fld := ⟨0, 32⟩
def ChipMode.modeRefuse : Fld := ⟨24, 8⟩
def ChipMode.modeReq : Fld := ⟨16, 4⟩
def ChipMode.mittenPath : Fld := ⟨14, 2⟩
def ChipMode.modeBusy : Fld := ⟨13, 1⟩
def ChipMode.pcieOnly : Fld := ⟨12, 1⟩
def ChipMode.memActive : Fld := ⟨11, 1⟩
def ChipMode.curMode : Fld := ⟨0, 3⟩
def ChipResetCause.causeWasSafe : Fld := ⟨8, 1⟩
def ChipResetCause.resetCause : Fld := ⟨0, 4⟩
def ChipForce.forceSafe : Fld := ⟨2, 1⟩
def ChipForce.mittenForce : Fld := ⟨0, 2⟩
def ChipKey.key : Fld := ⟨0, 32⟩
def ChipKeyState.armed : Fld := ⟨0, 1⟩
def ChipTmr.tmrCorr : Fld := ⟨16, 16⟩
def CmdOp.op : Fld := ⟨0, 8⟩
def CmdArg.arg : Fld := ⟨0, 32⟩
def CmdStatus.result : Fld := ⟨24, 8⟩
def CmdStatus.cmdRefuse : Fld := ⟨16, 8⟩
def CmdStatus.curOp : Fld := ⟨8, 8⟩
def CmdStatus.abortHeld : Fld := ⟨3, 1⟩
def CmdStatus.aborting : Fld := ⟨2, 1⟩
def CmdStatus.done : Fld := ⟨1, 1⟩
def CmdStatus.busy : Fld := ⟨0, 1⟩
def CmdAbort.abort : Fld := ⟨0, 1⟩
def CmdRejectCnt.rejectCnt : Fld := ⟨0, 32⟩
def CmdProgress.progress : Fld := ⟨0, 32⟩
def CmdOut.out : Fld := ⟨0, 32⟩
def ChipAccessErr.accKind : Fld := ⟨24, 4⟩
def ChipAccessErr.fieldOverrun : Fld := ⟨1, 1⟩
def ChipAccessErr.accessErr : Fld := ⟨0, 1⟩
def ChipAccessAddr.ofs : Fld := ⟨0, 24⟩
def ChipAccessCnt.count : Fld := ⟨0, 32⟩
def RckCtl.rckHoldMs : Fld := ⟨16, 16⟩
def RckCtl.rckRefDom : Fld := ⟨12, 4⟩
def RckCtl.rckStepEn : Fld := ⟨9, 1⟩
def RckCtl.rckSecEn : Fld := ⟨8, 1⟩
def RckCtl.rckRefSec : Fld := ⟨4, 3⟩
def RckCtl.rckRefPri : Fld := ⟨0, 3⟩
def RckStatus.rckHostActErr : Fld := ⟨12, 1⟩
def RckStatus.rckLateEntry : Fld := ⟨11, 1⟩
def RckStatus.rckStepEvent : Fld := ⟨10, 1⟩
def RckStatus.rckRelock : Fld := ⟨9, 1⟩
def RckStatus.rckRefLost : Fld := ⟨8, 1⟩
def RckStatus.rckRefAct : Fld := ⟨4, 3⟩
def RckStatus.rckState : Fld := ⟨0, 3⟩
def RckSlew.rckStepThr : Fld := ⟨16, 16⟩
def RckSlew.rckSlew : Fld := ⟨0, 10⟩
def RckPhaseErr.rckPhaseErr : Fld := ⟨0, 32⟩
def RckSchedHost.hostDom : Fld := ⟨28, 4⟩
def RckSchedHost.hostCount : Fld := ⟨16, 12⟩
def RckSchedHost.hostBase : Fld := ⟨0, 16⟩
def RckTrigCtl.toutIdle : Fld := ⟨28, 4⟩
def RckTrigCtl.tinEn : Fld := ⟨24, 4⟩
def RckTrigCtl.tinDom : Fld := ⟨0, 16⟩
def RckTrigPosLo.tposLine : Fld := ⟨18, 14⟩
def RckTrigPosLo.tposSample : Fld := ⟨0, 18⟩
def RckTrigPosHi.tposFrame : Fld := ⟨0, 32⟩
def RckDomCtl.domValid : Fld := ⟨31, 1⟩
def RckDomCtl.domInterlaced : Fld := ⟨30, 1⟩
def RckDomCtl.domFstartIrq : Fld := ⟨0, 1⟩
def RckDomRate.rateNum : Fld := ⟨12, 20⟩
def RckDomRate.rateDen : Fld := ⟨0, 12⟩
def RckDomGeom.domTotalLines : Fld := ⟨18, 14⟩
def RckDomGeom.domTotalSpl : Fld := ⟨3, 15⟩
def RckDomActive.domFirstLine : Fld := ⟨18, 14⟩
def RckDomActive.domActLines : Fld := ⟨4, 14⟩
def RckDomField.domF2Line : Fld := ⟨18, 14⟩
def RckDomField.domActSpl : Fld := ⟨3, 15⟩
def RckDomOfs.domOfs : Fld := ⟨0, 32⟩
def RckDomPosLo.posLine : Fld := ⟨18, 14⟩
def RckDomPosLo.posSample : Fld := ⟨0, 18⟩
def RckDomPosHi.posFrame : Fld := ⟨0, 32⟩
def RckDomSched.domSchedCount : Fld := ⟨16, 16⟩
def RckDomSched.domSchedBase : Fld := ⟨0, 16⟩
def RckDomLate.domLateCnt : Fld := ⟨0, 32⟩
def CfgStatus.cfgSections : Fld := ⟨24, 8⟩
def CfgStatus.cfgWaived : Fld := ⟨12, 1⟩
def CfgStatus.cfgRgnEmpty : Fld := ⟨11, 1⟩
def CfgStatus.cfgRgnBusy : Fld := ⟨10, 1⟩
def CfgStatus.cfgRgn : Fld := ⟨4, 4⟩
def CfgStatus.cfgState : Fld := ⟨0, 3⟩
def CfgRefuse.cfgRefSect : Fld := ⟨24, 8⟩
def CfgRefuse.cfgRefRgn : Fld := ⟨16, 8⟩
def CfgRefuse.cfgRefB : Fld := ⟨8, 8⟩
def CfgRefuse.cfgRefA : Fld := ⟨0, 8⟩
def CfgRefuseObj.cfgRefObj : Fld := ⟨0, 20⟩
def CfgCompIdLo.cfgCompId : Fld := ⟨0, 32⟩
def CfgVsVersion.cfgVsVersion : Fld := ⟨0, 32⟩
def CfgRgnCompIdLo.cfgRgnCompId : Fld := ⟨0, 32⟩
def GlvSummary.glvEntries : Fld := ⟨16, 9⟩
def GlvSummary.glvLocked : Fld := ⟨4, 1⟩
def GlvSummary.glvMaxDom : Fld := ⟨0, 4⟩
def GlvDeny.denyDom : Fld := ⟨28, 4⟩
def GlvDeny.denyOfs : Fld := ⟨0, 24⟩
def GlvDenyCnt.glvDenyCnt : Fld := ⟨0, 32⟩
def GlvEntry.glvEntry : Fld := ⟨0, 32⟩
def IcuStatus.pendCnt : Fld := ⟨0, 13⟩
def IcuFallbackCnt.count : Fld := ⟨0, 32⟩
def IcuAck.ackN : Fld := ⟨16, 8⟩
def IcuAck.ackSrc : Fld := ⟨0, 12⟩
def IcuNext.valid : Fld := ⟨31, 1⟩
def IcuNext.count : Fld := ⟨16, 8⟩
def IcuNext.src : Fld := ⟨0, 12⟩
def IcuNextVec.vec : Fld := ⟨0, 12⟩
def IcuExtCtl.level : Fld := ⟨31, 1⟩
def IcuExtCtl.filt : Fld := ⟨8, 8⟩
def IcuExtCtl.sense : Fld := ⟨0, 3⟩
def IcuSrcRoute.mask : Fld := ⟨31, 1⟩
def IcuSrcRoute.wake : Fld := ⟨30, 1⟩
def IcuSrcRoute.kind : Fld := ⟨28, 2⟩
def IcuSrcRoute.rgcRegion : Fld := ⟨24, 4⟩
def IcuSrcRoute.vector : Fld := ⟨0, 11⟩
def IcuSrcStat.inflight : Fld := ⟨31, 1⟩
def IcuSrcStat.pend : Fld := ⟨30, 1⟩
def IcuSrcStat.ovf : Fld := ⟨29, 1⟩
def IcuSrcStat.delKind : Fld := ⟨24, 4⟩
def IcuSrcStat.count : Fld := ⟨0, 8⟩
def IcuVecHold.holdUs : Fld := ⟨16, 16⟩
def IcuVecHold.idle : Fld := ⟨15, 1⟩
def IcuVecHold.held : Fld := ⟨14, 1⟩
def BcmStatus.hdrDefault : Fld := ⟨9, 1⟩
def BcmStatus.railOk : Fld := ⟨8, 1⟩
def BcmStatus.fwSlot : Fld := ⟨6, 2⟩
def BcmStatus.held : Fld := ⟨5, 1⟩
def BcmStatus.throttle : Fld := ⟨4, 1⟩
def BcmStatus.capActive : Fld := ⟨3, 1⟩
def BcmStatus.tempWarn : Fld := ⟨2, 1⟩
def BcmPowerCap.windowMs : Fld := ⟨16, 10⟩
def BcmPowerCap.capW : Fld := ⟨0, 9⟩
def BcmBmcCap.bmcCapW : Fld := ⟨0, 9⟩
def BcmPower.peak : Fld := ⟨16, 16⟩
def BcmPower.average : Fld := ⟨0, 16⟩
def BcmThermCtl.throttleC : Fld := ⟨8, 8⟩
def BcmThermCtl.warnC : Fld := ⟨0, 8⟩
def BcmTempMax.tSensor : Fld := ⟨16, 8⟩
def BcmTempMax.tMax : Fld := ⟨0, 16⟩
def BcmRegionOff.off : Fld := ⟨0, 16⟩
def BcmRegionDvfs.point : Fld := ⟨0, 32⟩
def BcmShedCnt.count : Fld := ⟨0, 32⟩
def BcmTripCtl.railOff : Fld := ⟨0, 1⟩
def BcmFlashCtl.flashWe : Fld := ⟨0, 1⟩
def BcmFwVersion.bfVersion : Fld := ⟨0, 32⟩
def BcmLogIdx.count : Fld := ⟨0, 32⟩
def BcmLogStatus.logStale : Fld := ⟨0, 1⟩
def BcmLogData.data : Fld := ⟨0, 32⟩
def BcmBoard.board : Fld := ⟨0, 32⟩
def BcmPtpCtl.ptpDomain : Fld := ⟨24, 8⟩
def BcmPtpCtl.servo : Fld := ⟨23, 1⟩
def BcmPtpCtl.ipv6 : Fld := ⟨22, 1⟩
def BcmPtpCtl.vlanEn : Fld := ⟨21, 1⟩
def BcmPtpCtl.ptpPort : Fld := ⟨18, 2⟩
def BcmPtpCtl.vid : Fld := ⟨0, 12⟩
def BcmPtpIp.addr : Fld := ⟨0, 32⟩
def BcmPtpStatus.hostStale : Fld := ⟨2, 1⟩
def BcmPtpStatus.ptpState : Fld := ⟨0, 2⟩
def BcmPtpAdj.adj : Fld := ⟨0, 32⟩
def BcmPtpTs.ts : Fld := ⟨0, 32⟩
def BcmSensor.value : Fld := ⟨16, 16⟩
def BcmSensor.valid : Fld := ⟨0, 1⟩
def MemStatus.bucket : Fld := ⟨24, 8⟩
def MemStatus.trainOk : Fld := ⟨8, 16⟩
def MemStatus.scrubDone : Fld := ⟨6, 1⟩
def MemStatus.autoRetrain : Fld := ⟨5, 1⟩
def MemStatus.retrainFail : Fld := ⟨4, 1⟩
def MemStatus.ue : Fld := ⟨3, 1⟩
def MemStatus.ceStorm : Fld := ⟨2, 1⟩
def MemStatus.memState : Fld := ⟨0, 2⟩
def MemCtl.srIdle : Fld := ⟨24, 8⟩
def MemCtl.srEn : Fld := ⟨16, 1⟩
def MemCtl.idleTimer : Fld := ⟨0, 10⟩
def MemEccCtl.leakUs : Fld := ⟨16, 16⟩
def MemEccCtl.thresh : Fld := ⟨0, 8⟩
def MemCeCnt.memCeCnt : Fld := ⟨0, 32⟩
def MemUeCnt.scrubUe : Fld := ⟨16, 16⟩
def MemUeCnt.ueCnt : Fld := ⟨0, 16⟩
def MemCeAddrLo.ceAddr : Fld := ⟨6, 26⟩
def MemCeAddrHi.ceSyms : Fld := ⟨8, 2⟩
def MemCeAddrHi.ceAddrHi : Fld := ⟨0, 6⟩
def MemUeAddrLo.ueAddr : Fld := ⟨6, 26⟩
def MemUeAddrHi.ueClass : Fld := ⟨8, 3⟩
def MemUeAddrHi.ueAddrHi : Fld := ⟨0, 6⟩
def MemScrubCtl.periodH : Fld := ⟨0, 8⟩
def MemScrubPos.scrubPos : Fld := ⟨0, 32⟩
def MemRetrainCnt.autoCnt : Fld := ⟨16, 16⟩
def MemRetrainCnt.retrainCnt : Fld := ⟨0, 16⟩
def MemSrCnt.srCancel : Fld := ⟨16, 16⟩
def MemSrCnt.srEntry : Fld := ⟨0, 16⟩
def BpmPoolCtl.defined : Fld := ⟨31, 1⟩
def BpmPoolCtl.bufLog2 : Fld := ⟨24, 5⟩
def BpmPoolCtl.enable : Fld := ⟨0, 1⟩
def BpmPoolSize.size : Fld := ⟨0, 20⟩
def BpmPoolWarn1.warn : Fld := ⟨0, 20⟩
def BpmPoolStatus.poolRefuse : Fld := ⟨24, 8⟩
def BpmPoolStatus.rebuilding : Fld := ⟨5, 1⟩
def BpmPoolStatus.sizeRej : Fld := ⟨4, 1⟩
def BpmPoolStatus.rebuildEv : Fld := ⟨3, 1⟩
def BpmPoolStatus.errEv : Fld := ⟨2, 1⟩
def BpmPoolStatus.failEv : Fld := ⟨1, 1⟩
def BpmPoolStatus.warn1X : Fld := ⟨0, 1⟩
def BpmPoolHeld.count : Fld := ⟨0, 20⟩
def BpmPoolFirst.firstId : Fld := ⟨0, 19⟩
def BpmPoolMax.max : Fld := ⟨0, 20⟩
def BpmPoolEmptyCnt.count : Fld := ⟨0, 32⟩
def BpmPoolLastErr.lastErr : Fld := ⟨24, 8⟩
def BpmPoolLastErr.lastErrId : Fld := ⟨0, 19⟩
def BpmPoolLastErrOwn.rebuildCnt : Fld := ⟨28, 4⟩
def BpmPoolLastErrOwn.lastErrOwn : Fld := ⟨0, 12⟩
def BpmPoolWaitCnt.waitCnt : Fld := ⟨0, 32⟩
def HopArg.pool : Fld := ⟨16, 4⟩
def HopArg.newOwner : Fld := ⟨0, 12⟩
def HopCmd.op : Fld := ⟨29, 3⟩
def HopCmd.id : Fld := ⟨0, 19⟩
def HopResult.result : Fld := ⟨24, 8⟩
def HopResult.id : Fld := ⟨0, 19⟩
def DmaCtl.pollUs : Fld := ⟨24, 8⟩
def DmaCtl.enable : Fld := ⟨0, 1⟩
def DmaStatus.lastResult : Fld := ⟨24, 8⟩
def DmaStatus.haltEv : Fld := ⟨7, 1⟩
def DmaStatus.poisonEv : Fld := ⟨6, 1⟩
def DmaStatus.dbPend : Fld := ⟨5, 1⟩
def DmaStatus.dmaState : Fld := ⟨0, 3⟩
def DmaRefuse.dmaRefCode : Fld := ⟨0, 8⟩
def DmaDb.db : Fld := ⟨0, 1⟩
def DmaHeadLo.dmaHead : Fld := ⟨0, 32⟩
def DmaCurLo.dmaCur : Fld := ⟨0, 32⟩
def DmaDoneLen.doneLen : Fld := ⟨0, 24⟩
def DmaDescCnt.descCnt : Fld := ⟨0, 32⟩
def DmaBytesLo.bytes : Fld := ⟨0, 32⟩
def DmaWaitCnt.waitCnt : Fld := ⟨0, 32⟩
def LanLaneCtl.rxPolAuto : Fld := ⟨9, 1⟩
def LanLaneCtl.rxInv : Fld := ⟨8, 1⟩
def LanLaneCtl.txInv : Fld := ⟨7, 1⟩
def LanLaneCtl.recal : Fld := ⟨1, 1⟩
def LanLaneCtl.sdiEn : Fld := ⟨0, 1⟩
def LanLaneStatus.laneRefuse : Fld := ⟨24, 8⟩
def LanLaneStatus.retryCnt : Fld := ⟨20, 4⟩
def LanLaneStatus.logical : Fld := ⟨12, 4⟩
def LanLaneStatus.rxInvDet : Fld := ⟨11, 1⟩
def LanLaneStatus.cdrLock : Fld := ⟨10, 1⟩
def LanLaneStatus.sigDet : Fld := ⟨9, 1⟩
def LanLaneStatus.active : Fld := ⟨8, 1⟩
def LanLaneStatus.recalDone : Fld := ⟨4, 1⟩
def LanLaneStatus.lockLost : Fld := ⟨3, 1⟩
def LanLaneStatus.laneState : Fld := ⟨0, 3⟩
def LanTxFfe.cM2 : Fld := ⟨24, 8⟩
def LanTxFfe.cM1 : Fld := ⟨16, 8⟩
def LanTxFfe.c0 : Fld := ⟨8, 8⟩
def LanTxFfe.cP1 : Fld := ⟨0, 8⟩
def LanRxEq.ctle : Fld := ⟨24, 8⟩
def LanRxEq.eyeMv : Fld := ⟨16, 8⟩
def LanRxEq.dfeTaps : Fld := ⟨8, 8⟩
def LanPrbs.chkPat : Fld := ⟨24, 4⟩
def LanPrbs.genPat : Fld := ⟨16, 4⟩
def LanPrbs.chkLock : Fld := ⟨2, 1⟩
def LanPrbs.chkEn : Fld := ⟨1, 1⟩
def LanPrbs.genEn : Fld := ⟨0, 1⟩
def LanPrbsErr.prbsErr : Fld := ⟨0, 32⟩
def LanPrbsBitsLo.prbsBits : Fld := ⟨0, 32⟩
def LanLockLostCnt.lockLostCnt : Fld := ⟨0, 32⟩
def LanSdiCtl.dom : Fld := ⟨24, 4⟩
def LanSdiCtl.std : Fld := ⟨16, 3⟩
def LanSdiCtl.quad : Fld := ⟨1, 1⟩
def LanSdiCtl.frac : Fld := ⟨0, 1⟩
def LanSdiPayload.payloadId : Fld := ⟨0, 32⟩
def LanSdiCrcCnt.crcCnt : Fld := ⟨0, 32⟩
def LanMacCtl.mode : Fld := ⟨28, 4⟩
def LanMacCtl.auiNarrow : Fld := ⟨24, 1⟩
def LanMacCtl.fec25 : Fld := ⟨8, 4⟩
def LanMacCtl.portEn : Fld := ⟨0, 4⟩
def LanMacPortStatus.portRefuse : Fld := ⟨24, 8⟩
def LanMacPortStatus.linkDownEv : Fld := ⟨3, 1⟩
def LanMacPortStatus.linkUp : Fld := ⟨2, 1⟩
def LanMacPortStatus.amLock : Fld := ⟨1, 1⟩
def LanMacPortStatus.fecLock : Fld := ⟨0, 1⟩
def LanMacPortFecCorr.count : Fld := ⟨0, 32⟩
def LanRingCtl.pri : Fld := ⟨24, 8⟩
def LanRingCtl.ringId : Fld := ⟨16, 4⟩
def LanRingCtl.active : Fld := ⟨0, 1⟩
def LanRingCells.cellCount : Fld := ⟨8, 8⟩
def LanRingCells.cellFirst : Fld := ⟨0, 8⟩
def LanRingCable.upId : Fld := ⟨16, 4⟩
def LanRingCable.cableNs : Fld := ⟨0, 11⟩
def LanRingStatus.ringRefuse : Fld := ⟨24, 8⟩
def LanRingStatus.masterId : Fld := ⟨20, 4⟩
def LanRingStatus.updId : Fld := ⟨16, 4⟩
def LanRingStatus.lateTrig : Fld := ⟨8, 1⟩
def LanRingStatus.upstreamChg : Fld := ⟨7, 1⟩
def LanRingStatus.clash : Fld := ⟨6, 1⟩
def LanRingStatus.masterChg : Fld := ⟨5, 1⟩
def LanRingStatus.lockChg : Fld := ⟨4, 1⟩
def LanRingStatus.frameLock : Fld := ⟨3, 1⟩
def LanRingStatus.ringState : Fld := ⟨0, 3⟩
def LanRingLoop.loopNs : Fld := ⟨0, 32⟩
def LanRingTrig.rxEn : Fld := ⟨16, 8⟩
def LanRingTrig.txMap : Fld := ⟨0, 16⟩
def LanRingMark.marksDelayed : Fld := ⟨16, 16⟩
def LanRingMark.mkDomain : Fld := ⟨4, 4⟩
def LanRingMark.mkSrc : Fld := ⟨0, 4⟩
def LanRingMarkArg.value : Fld := ⟨0, 32⟩
def LanRingBadfrm.count : Fld := ⟨0, 32⟩
def SptCtl.irqEn : Fld := ⟨16, 8⟩
def SptCtl.csumIgnore : Fld := ⟨3, 1⟩
def SptCtl.srcFilt : Fld := ⟨2, 1⟩
def SptCtl.ipv6 : Fld := ⟨1, 1⟩
def SptCtl.enable : Fld := ⟨0, 1⟩
def SptStatus.sptRefuse : Fld := ⟨24, 8⟩
def SptStatus.targetUp : Fld := ⟨16, 1⟩
def SptStatus.csumEv : Fld := ⟨6, 1⟩
def SptStatus.pathLossEv : Fld := ⟨5, 1⟩
def SptStatus.hrDropEv : Fld := ⟨4, 1⟩
def SptStatus.linkDropEv : Fld := ⟨3, 1⟩
def SptStatus.seqLossEv : Fld := ⟨2, 1⟩
def SptStatus.poolDropEv : Fld := ⟨1, 1⟩
def SptStatus.polDropEv : Fld := ⟨0, 1⟩
def SptBind.defined : Fld := ⟨31, 1⟩
def SptBind.egress : Fld := ⟨30, 1⟩
def SptBind.kind : Fld := ⟨28, 2⟩
def SptBind.bind : Fld := ⟨20, 8⟩
def SptBind.pool : Fld := ⟨12, 8⟩
def SptBind2.pair : Fld := ⟨16, 16⟩
def SptBind2.pipe : Fld := ⟨0, 16⟩
def SptEncap.encap : Fld := ⟨28, 4⟩
def SptEncap.macPort : Fld := ⟨26, 2⟩
def SptEncap.ctrlMac : Fld := ⟨22, 4⟩
def SptEncap.ctrlPort : Fld := ⟨20, 2⟩
def SptEncap.pcp : Fld := ⟨17, 3⟩
def SptEncap.vlanEn : Fld := ⟨16, 1⟩
def SptEncap.vid : Fld := ⟨0, 12⟩
def SptUdp.srcPort : Fld := ⟨16, 16⟩
def SptUdp.dstPort : Fld := ⟨0, 16⟩
def SptDstIp.addr : Fld := ⟨0, 32⟩
def SptDstMacLo.mac : Fld := ⟨0, 32⟩
def SptDstMacHi.mac : Fld := ⟨0, 16⟩
def SptRtp.payloadMax : Fld := ⟨18, 14⟩
def SptRtp.dscp : Fld := ⟨12, 6⟩
def SptRtp.pt : Fld := ⟨0, 7⟩
def SptSsrc.value : Fld := ⟨0, 32⟩
def SptTs.pcrMs : Fld := ⟨24, 8⟩
def SptTs.ptsDelayMs : Fld := ⟨16, 8⟩
def SptTs.pkts : Fld := ⟨13, 3⟩
def SptTs.pid : Fld := ⟨0, 13⟩
def SptTsRate.muxKbps : Fld := ⟨0, 32⟩
def Spt2110.bpm : Fld := ⟨8, 1⟩
def Spt2110.depth : Fld := ⟨4, 2⟩
def Spt2110.sampling : Fld := ⟨0, 3⟩
def SptRingHr.dest : Fld := ⟨16, 16⟩
def SptRingHr.hrLog2sz : Fld := ⟨10, 4⟩
def SptRingHr.ringStream : Fld := ⟨0, 10⟩
def SptHrBaseLo.hrBase : Fld := ⟨0, 32⟩
def SptHrWr.count : Fld := ⟨0, 32⟩
def SptPolRate.value : Fld := ⟨0, 32⟩
def SptPolBurst.value : Fld := ⟨0, 24⟩
def SptMerge.mergeUs : Fld := ⟨0, 16⟩
def SchPortCtl.shapeEn : Fld := ⟨31, 1⟩
def SchPortCtl.prio : Fld := ⟨30, 1⟩
def SchPortCtl.sampleUs : Fld := ⟨16, 10⟩
def SchPortCtl.quantum : Fld := ⟨0, 12⟩
def SchIdleKbps.value : Fld := ⟨0, 32⟩
def SchHiCredit.value : Fld := ⟨0, 24⟩
def SchCredit.credit : Fld := ⟨0, 32⟩
def SptQDepth.value : Fld := ⟨0, 32⟩
def SptImpCtl.reorderDepth : Fld := ⟨4, 4⟩
def SptImpCtl.csumAfter : Fld := ⟨1, 1⟩
def SptImpCtl.impEn : Fld := ⟨0, 1⟩
def SptImpProb0.probA : Fld := ⟨16, 16⟩
def SptImpProb0.probB : Fld := ⟨0, 16⟩
def SptImpSeed.value : Fld := ⟨0, 32⟩
def SptImpCnt0.cntA : Fld := ⟨16, 16⟩
def SptImpCnt0.cntB : Fld := ⟨0, 16⟩
def SptPktsLo.count : Fld := ⟨0, 32⟩
def SptDropPol.count : Fld := ⟨0, 32⟩
def SchCreditOnChange.onChange : Fld := ⟨0, 1⟩
def SchGrpPend.pend : Fld := ⟨0, 16⟩
def SchMacAddrLo.addr : Fld := ⟨0, 32⟩
def SchMacAddrHi.addr : Fld := ⟨0, 16⟩
def SchMacCfg.mtu : Fld := ⟨0, 14⟩
def SchMacUnmatched.count : Fld := ⟨0, 32⟩
def SchMacRate.rateMbps : Fld := ⟨0, 32⟩
def RgcStatus.rgcPipes : Fld := ⟨16, 7⟩
def RgcStatus.rgcStandby : Fld := ⟨12, 4⟩
def RgcStatus.rgcIvrPhaseLost : Fld := ⟨9, 1⟩
def RgcStatus.rgcVoteEvent : Fld := ⟨8, 1⟩
def RgcStatus.rgcState : Fld := ⟨0, 3⟩
def RgcVote.rgcResyncCnt : Fld := ⟨16, 16⟩
def RgcVote.rgcLastMinority : Fld := ⟨8, 2⟩
def MaStatus.maBudgetSum : Fld := ⟨16, 12⟩
def MaStatus.maEnabled : Fld := ⟨0, 7⟩
def MaGrantCnt.maGrantCnt : Fld := ⟨0, 32⟩
def BlkStatus.blkRole : Fld := ⟨28, 4⟩
def BlkStatus.blkPersonality : Fld := ⟨24, 4⟩
def BlkStatus.blkSlots : Fld := ⟨20, 4⟩
def BlkStatus.blkSpare : Fld := ⟨16, 4⟩
def BlkStatus.blkReplay : Fld := ⟨15, 1⟩
def BlkStatus.blkCurSlot : Fld := ⟨12, 3⟩
def BlkStatus.blkCellOk : Fld := ⟨0, 12⟩
def BlkCellRole.cellRole : Fld := ⟨0, 24⟩
def BlkSwitchCnt.blkSwitchCnt : Fld := ⟨0, 32⟩
def BlkSlot.slotValid : Fld := ⟨31, 1⟩
def BlkSlot.slotPipe : Fld := ⟨0, 10⟩
def RopeStatus.ropeMismatchCnt : Fld := ⟨16, 16⟩
def RopeStatus.ropeBusy : Fld := ⟨15, 1⟩
def RopeStatus.ropeCoder : Fld := ⟨10, 2⟩
def RopeStatus.ropePipe : Fld := ⟨0, 10⟩
def SeqStatus.seqRoutine : Fld := ⟨24, 8⟩
def SeqStatus.seqCairnGap : Fld := ⟨7, 13⟩
def SeqStatus.seqResumeValid : Fld := ⟨3, 1⟩
def SeqStatus.seqState : Fld := ⟨0, 3⟩
def SeqVersion.romVersion : Fld := ⟨16, 16⟩
def SeqPatch.patchValid : Fld := ⟨31, 1⟩
def SeqPatch.patchMatch : Fld := ⟨24, 7⟩
def SeqPatch.patchMicro : Fld := ⟨13, 11⟩
def SeqPatch.patchNano : Fld := ⟨4, 9⟩
def SeqPatchCrc.seqPatchCrc : Fld := ⟨0, 32⟩
def SeqEcc.seqCorr : Fld := ⟨16, 16⟩
def SeqEcc.seqUncorr : Fld := ⟨0, 16⟩
def SeqResume.seqResume : Fld := ⟨0, 32⟩
def DqCtl.dqIrqEn : Fld := ⟨15, 1⟩
def DqCtl.dqLevel : Fld := ⟨0, 14⟩
def DqStatus.dqFill : Fld := ⟨16, 14⟩
def DqStatus.dqDir : Fld := ⟨4, 1⟩
def DqStatus.dqSeg : Fld := ⟨3, 1⟩
def DqStatus.dqStall : Fld := ⟨2, 1⟩
def DqStatus.dqResetEv : Fld := ⟨1, 1⟩
def DqStatus.dqCross : Fld := ⟨0, 1⟩
def DqHiwater.dqHiwater : Fld := ⟨0, 14⟩
def DqResetCnt.dqResetCnt : Fld := ⟨0, 16⟩
def DqStallCnt.dqStallCnt : Fld := ⟨0, 32⟩
def DqTokens.dqTokens : Fld := ⟨0, 32⟩
def PipCtl.picIrq : Fld := ⟨1, 1⟩
def PipCtl.enable : Fld := ⟨0, 1⟩
def PipStatus.encode : Fld := ⟨9, 1⟩
def PipStatus.recDrop : Fld := ⟨8, 1⟩
def PipStatus.captureOverrun : Fld := ⟨7, 1⟩
def PipStatus.srcIncomplete : Fld := ⟨6, 1⟩
def PipStatus.activeWrite : Fld := ⟨5, 1⟩
def PipStatus.hoRefused : Fld := ⟨4, 1⟩
def PipStatus.deadlineMiss : Fld := ⟨2, 1⟩
def PipStatus.inMargin : Fld := ⟨1, 1⟩
def PipStatus.running : Fld := ⟨0, 1⟩
def PipRefuse.pipRefOfs : Fld := ⟨16, 10⟩
def PipRefuse.pipRefCode : Fld := ⟨0, 8⟩
def PipLatency.rows : Fld := ⟨8, 8⟩
def PipLatency.mode : Fld := ⟨0, 1⟩
def PipShadowPending.discard : Fld := ⟨1, 1⟩
def PipShadowPending.pending : Fld := ⟨0, 1⟩
def PipHandover.hoCount : Fld := ⟨16, 16⟩
def PipHandover.hoHold : Fld := ⟨0, 1⟩
def PipPicCnt.pipPicCnt : Fld := ⟨0, 32⟩
def PipRecCtl.recLog2sz : Fld := ⟨24, 4⟩
def PipRecCtl.recDma : Fld := ⟨16, 6⟩
def PipRecCtl.recLevel : Fld := ⟨0, 2⟩
def PipRecBaseLo.pipRecBase : Fld := ⟨0, 32⟩
def PipRecWr.pipRecWr : Fld := ⟨0, 32⟩
def PipRecRd.pipRecRd : Fld := ⟨0, 32⟩
def PipRecDrop.pipRecDrop : Fld := ⟨0, 32⟩
def PipBudget.budgetRej : Fld := ⟨16, 1⟩
def PipBudget.budget : Fld := ⟨0, 12⟩
def PipBudgetStat.throttleCnt : Fld := ⟨0, 32⟩
def PipOutPool.outPool : Fld := ⟨0, 4⟩
def PipFault.region : Fld := ⟨4, 4⟩
def PipFault.lost : Fld := ⟨2, 1⟩
def PipFault.shed : Fld := ⟨1, 1⟩
def PipFault.degraded : Fld := ⟨0, 1⟩
def DecStatus.decIrqEn : Fld := ⟨16, 8⟩
def DecStatus.taintNow : Fld := ⟨8, 1⟩
def DecStatus.resync : Fld := ⟨7, 1⟩
def DecStatus.poison : Fld := ⟨6, 1⟩
def DecStatus.lateData : Fld := ⟨5, 1⟩
def DecStatus.underflow : Fld := ⟨4, 1⟩
def DecStatus.substituted : Fld := ⟨3, 1⟩
def DecStatus.missingRef : Fld := ⟨2, 1⟩
def DecStatus.concealed : Fld := ⟨1, 1⟩
def DecStatus.event : Fld := ⟨0, 1⟩
def DecEvtCnt.decEvtCnt : Fld := ⟨0, 32⟩
def DecConcealCnt.decConcealCnt : Fld := ⟨0, 32⟩
def DecMissingCnt.decMissingCnt : Fld := ⟨0, 32⟩
def DecLateBytes.decLateBytes : Fld := ⟨0, 32⟩
def DecLastEvt.lastPic : Fld := ⟨16, 16⟩
def DecLastEvt.lastCode : Fld := ⟨0, 16⟩
def EncCodec.fieldMode : Fld := ⟨20, 1⟩
def EncCodec.cavlc : Fld := ⟨19, 1⟩
def EncCodec.depth10 : Fld := ⟨16, 1⟩
def EncCodec.level : Fld := ⟨8, 8⟩
def EncCodec.highTier : Fld := ⟨4, 1⟩
def EncCodec.profile : Fld := ⟨0, 4⟩
def EncSize.width : Fld := ⟨16, 16⟩
def EncSize.height : Fld := ⟨0, 16⟩
def EncPart.sliceRows : Fld := ⟨24, 8⟩
def EncPart.ctuLog2 : Fld := ⟨20, 3⟩
def EncPart.wpp : Fld := ⟨16, 1⟩
def EncPart.tileRows : Fld := ⟨8, 7⟩
def EncPart.tileCols : Fld := ⟨0, 7⟩
def EncGop.ltPeriod : Fld := ⟨24, 8⟩
def EncGop.refs : Fld := ⟨20, 3⟩
def EncGop.openGop : Fld := ⟨19, 1⟩
def EncGop.struct : Fld := ⟨16, 3⟩
def EncGop.intraPeriod : Fld := ⟨0, 16⟩
def EncSearch.frac : Fld := ⟨20, 2⟩
def EncSearch.l2Ry : Fld := ⟨10, 9⟩
def EncSearch.l2Rx : Fld := ⟨0, 10⟩
def EncTools.tools : Fld := ⟨0, 16⟩
def EncQuant.interRound : Fld := ⟨24, 8⟩
def EncQuant.intraRound : Fld := ⟨16, 8⟩
def EncQuant.lambdaScale : Fld := ⟨0, 16⟩
def EncSrc.clipCount : Fld := ⟨16, 12⟩
def EncSrc.clipIndex : Fld := ⟨4, 12⟩
def EncSrc.inFmt : Fld := ⟨0, 3⟩
def ImpSeed.impSeed : Fld := ⟨0, 32⟩
def ImpSlotCtl.prob : Fld := ⟨16, 16⟩
def ImpSlotCtl.sel : Fld := ⟨12, 4⟩
def ImpSlotCtl.mode : Fld := ⟨8, 2⟩
def ImpSlotCtl.code : Fld := ⟨0, 8⟩
def ImpSlotArg.arg : Fld := ⟨16, 16⟩
def ImpSlotArg.phase : Fld := ⟨0, 16⟩
def DecCodec.profileMask : Fld := ⟨0, 5⟩
def DecSize.maxW : Fld := ⟨16, 16⟩
def DecSize.maxH : Fld := ⟨0, 16⟩
def DecOut.reorder : Fld := ⟨8, 4⟩
def DecOut.fmt : Fld := ⟨0, 3⟩
def DecConceal.noGapTaint : Fld := ⟨3, 1⟩
def DecConceal.start : Fld := ⟨2, 1⟩
def DecConceal.corrupt : Fld := ⟨1, 1⟩
def DecConceal.missing : Fld := ⟨0, 1⟩
def DecTrace.maxEvt : Fld := ⟨24, 8⟩
def DecTrace.hashEn : Fld := ⟨16, 1⟩
def DecTrace.catMask : Fld := ⟨0, 16⟩
def RcCtl.rowDq : Fld := ⟨12, 4⟩
def RcCtl.rowLag : Fld := ⟨8, 4⟩
def RcCtl.hrdSignal : Fld := ⟨5, 1⟩
def RcCtl.reserveOff : Fld := ⟨4, 1⟩
def RcCtl.mode : Fld := ⟨0, 3⟩
def RcRate.rateKbps : Fld := ⟨0, 32⟩
def RcMaxrate.maxrateKbps : Fld := ⟨0, 32⟩
def RcCpb.init : Fld := ⟨24, 8⟩
def RcCpb.cpbKbit : Fld := ⟨0, 24⟩
def RcQp.qpInit : Fld := ⟨24, 8⟩
def RcQp.qpMax : Fld := ⟨16, 8⟩
def RcQp.qpMin : Fld := ⟨8, 8⟩
def RcWeight.intraW : Fld := ⟨8, 8⟩
def RcWeight.intraDq : Fld := ⟨0, 8⟩
def RcStress.amount : Fld := ⟨24, 8⟩
def RcStress.period : Fld := ⟨16, 8⟩
def RcStress.phase : Fld := ⟨8, 8⟩
def RcStress.kind : Fld := ⟨0, 2⟩
def RcCurQp.qpPrevInter : Fld := ⟨8, 8⟩
def RcCurQp.qpPrevIntra : Fld := ⟨0, 8⟩
def RcFullness.rcF : Fld := ⟨0, 32⟩
def RcCarry.rcCarry : Fld := ⟨0, 32⟩
def RcStatus.floorCnt : Fld := ⟨16, 16⟩
def RcStatus.mapErr : Fld := ⟨2, 1⟩
def RcStatus.cpbViol : Fld := ⟨1, 1⟩
def RcStatus.floor : Fld := ⟨0, 1⟩
def RoiRectX.mode : Fld := ⟨30, 2⟩
def RoiRectX.x1 : Fld := ⟨16, 9⟩
def RoiRectX.x0 : Fld := ⟨0, 9⟩
def RoiRectY.value : Fld := ⟨25, 7⟩
def RoiRectY.y1 : Fld := ⟨16, 9⟩
def RoiRectY.y0 : Fld := ⟨0, 9⟩
def RoiMapCtl.mapDma : Fld := ⟨8, 6⟩
def RoiMapCtl.mapSrc : Fld := ⟨1, 1⟩
def RoiMapCtl.mapEn : Fld := ⟨0, 1⟩
def RoiMapBaseLo.mapBase : Fld := ⟨0, 32⟩
def FltStatus.injRefuse : Fld := ⟨24, 8⟩
def FltStatus.lastClass : Fld := ⟨16, 8⟩
def FltStatus.lastLevel : Fld := ⟨14, 2⟩
def FltStatus.histHead : Fld := ⟨8, 3⟩
def FltStatus.injArmed : Fld := ⟨3, 1⟩
def FltStatus.injFired : Fld := ⟨2, 1⟩
def FltStatus.escalated : Fld := ⟨1, 1⟩
def FltStatus.fault : Fld := ⟨0, 1⟩
def FltCtl.autoAckS : Fld := ⟨24, 8⟩
def FltCtl.irqLevel : Fld := ⟨0, 2⟩
def FltUnack.unack : Fld := ⟨0, 32⟩
def FltAck.ackAll : Fld := ⟨31, 1⟩
def FltAck.ackClass : Fld := ⟨0, 6⟩
def FltInject.injGo : Fld := ⟨31, 1⟩
def FltInject.injLevel : Fld := ⟨28, 2⟩
def FltInject.injClass : Fld := ⟨22, 6⟩
def FltInject.injUnit : Fld := ⟨18, 4⟩
def FltInject.injDelay : Fld := ⟨0, 16⟩
def FltEvtCnt.count : Fld := ⟨0, 32⟩
def FltHistLo.hist : Fld := ⟨0, 32⟩
def FltSafeCause.safe : Fld := ⟨31, 1⟩
def FltSafeCause.forced : Fld := ⟨30, 1⟩
def FltSafeCause.scClass : Fld := ⟨24, 6⟩
def FltSafeCause.scUnit : Fld := ⟨20, 4⟩
def FltNowLo.now : Fld := ⟨0, 32⟩
def CxlStatus.linkDownCnt : Fld := ⟨16, 16⟩
def CxlStatus.linkDownEv : Fld := ⟨8, 1⟩
def CxlStatus.linkMode : Fld := ⟨6, 2⟩
def CxlStatus.width : Fld := ⟨4, 2⟩
def CxlStatus.rate : Fld := ⟨2, 2⟩
def CxlHdmMap.mapValid : Fld := ⟨31, 1⟩
def CxlHdmMap.mapDom : Fld := ⟨24, 4⟩
def CxlHdmMap.mapBias : Fld := ⟨8, 2⟩
def CxlHdmMap.mapCo : Fld := ⟨0, 8⟩
def CxlPoisonCnt.count : Fld := ⟨0, 32⟩

/-- The fields of each register, with their classes and reset values. Bits of no row are reserved: read-only zeros (R11). -/
def regFields : RegName → List FieldRow
  | .chipId => [⟨ChipId.chipId, .ro, 0x51024b0⟩]
  | .chipMode => [⟨ChipMode.modeRefuse, .ro, 0⟩, ⟨ChipMode.modeReq, .sc, 0⟩, ⟨ChipMode.mittenPath, .ro, 1⟩,
      ⟨ChipMode.modeBusy, .ro, 0⟩, ⟨ChipMode.pcieOnly, .ro, 0⟩, ⟨ChipMode.memActive, .ro, 0⟩,
      ⟨ChipMode.curMode, .ro, 1⟩]
  | .chipResetCause => [⟨ChipResetCause.causeWasSafe, .ro, 0⟩, ⟨ChipResetCause.resetCause, .ro, 0⟩]
  | .chipForce => [⟨ChipForce.forceSafe, .sc, 0⟩, ⟨ChipForce.mittenForce, .rw, 0⟩]
  | .chipKey => [⟨ChipKey.key, .sc, 0⟩]
  | .chipKeyState => [⟨ChipKeyState.armed, .ro, 0⟩]
  | .chipTmr => [⟨ChipTmr.tmrCorr, .cnt, 0⟩]
  | .cmdOp => [⟨CmdOp.op, .sc, 0⟩]
  | .cmdArg => [⟨CmdArg.arg, .rw, 0⟩]
  | .cmdStatus => [⟨CmdStatus.result, .ro, 0⟩, ⟨CmdStatus.cmdRefuse, .ro, 0⟩, ⟨CmdStatus.curOp, .ro, 0⟩,
      ⟨CmdStatus.abortHeld, .ro, 0⟩, ⟨CmdStatus.aborting, .ro, 0⟩, ⟨CmdStatus.done, .w1c, 0⟩,
      ⟨CmdStatus.busy, .ro, 0⟩]
  | .cmdAbort => [⟨CmdAbort.abort, .sc, 0⟩]
  | .cmdRejectCnt => [⟨CmdRejectCnt.rejectCnt, .cnt, 0⟩]
  | .cmdProgress => [⟨CmdProgress.progress, .ro, 0⟩]
  | .cmdOut => [⟨CmdOut.out, .ro, 0⟩]
  | .chipAccessErr => [⟨ChipAccessErr.accKind, .ro, 0⟩, ⟨ChipAccessErr.fieldOverrun, .w1c, 0⟩,
      ⟨ChipAccessErr.accessErr, .w1c, 0⟩]
  | .chipAccessAddr => [⟨ChipAccessAddr.ofs, .ro, 0⟩]
  | .chipOverrunAddr => [⟨ChipAccessAddr.ofs, .ro, 0⟩]
  | .chipAccessCnt => [⟨ChipAccessCnt.count, .cnt, 0⟩]
  | .rckCtl => [⟨RckCtl.rckHoldMs, .rw, 0x3e8⟩, ⟨RckCtl.rckRefDom, .rw, 0⟩, ⟨RckCtl.rckStepEn, .rw, 0⟩,
      ⟨RckCtl.rckSecEn, .rw, 0⟩, ⟨RckCtl.rckRefSec, .rw, 0⟩, ⟨RckCtl.rckRefPri, .rw, 0⟩]
  | .rckStatus => [⟨RckStatus.rckHostActErr, .w1c, 0⟩, ⟨RckStatus.rckLateEntry, .w1c, 0⟩,
      ⟨RckStatus.rckStepEvent, .w1c, 0⟩, ⟨RckStatus.rckRelock, .w1c, 0⟩, ⟨RckStatus.rckRefLost, .w1c, 0⟩,
      ⟨RckStatus.rckRefAct, .ro, 0⟩, ⟨RckStatus.rckState, .ro, 0⟩]
  | .rckSlew => [⟨RckSlew.rckStepThr, .rw, 0x3e8⟩, ⟨RckSlew.rckSlew, .rw, 0xa⟩]
  | .rckPhaseErr => [⟨RckPhaseErr.rckPhaseErr, .ro, 0⟩]
  | .rckSchedHost => [⟨RckSchedHost.hostDom, .ro, 0⟩, ⟨RckSchedHost.hostCount, .ro, 0⟩,
      ⟨RckSchedHost.hostBase, .ro, 0⟩]
  | .rckTrigCtl => [⟨RckTrigCtl.toutIdle, .rw, 0⟩, ⟨RckTrigCtl.tinEn, .rw, 0⟩, ⟨RckTrigCtl.tinDom, .rw, 0⟩]
  | .rckTrigPosLo => [⟨RckTrigPosLo.tposLine, .ro, 0⟩, ⟨RckTrigPosLo.tposSample, .ro, 0⟩]
  | .rckTrigPosHi => [⟨RckTrigPosHi.tposFrame, .ro, 0⟩]
  | .rckDomCtl => [⟨RckDomCtl.domValid, .ro, 0⟩, ⟨RckDomCtl.domInterlaced, .ro, 0⟩, ⟨RckDomCtl.domFstartIrq, .rw, 0⟩]
  | .rckDomRate => [⟨RckDomRate.rateNum, .ro, 0⟩, ⟨RckDomRate.rateDen, .ro, 0⟩]
  | .rckDomGeom => [⟨RckDomGeom.domTotalLines, .ro, 0⟩, ⟨RckDomGeom.domTotalSpl, .ro, 0⟩]
  | .rckDomActive => [⟨RckDomActive.domFirstLine, .ro, 0⟩, ⟨RckDomActive.domActLines, .ro, 0⟩]
  | .rckDomField => [⟨RckDomField.domF2Line, .ro, 0⟩, ⟨RckDomField.domActSpl, .ro, 0⟩]
  | .rckDomOfs => [⟨RckDomOfs.domOfs, .rw, 0⟩]
  | .rckDomPosLo => [⟨RckDomPosLo.posLine, .ro, 0⟩, ⟨RckDomPosLo.posSample, .ro, 0⟩]
  | .rckDomPosHi => [⟨RckDomPosHi.posFrame, .ro, 0⟩]
  | .rckDomSched => [⟨RckDomSched.domSchedCount, .ro, 0⟩, ⟨RckDomSched.domSchedBase, .ro, 0⟩]
  | .rckDomLate => [⟨RckDomLate.domLateCnt, .cnt, 0⟩]
  | .cfgStatus => [⟨CfgStatus.cfgSections, .ro, 0⟩, ⟨CfgStatus.cfgWaived, .ro, 0⟩, ⟨CfgStatus.cfgRgnEmpty, .ro, 0⟩,
      ⟨CfgStatus.cfgRgnBusy, .ro, 0⟩, ⟨CfgStatus.cfgRgn, .ro, 0⟩, ⟨CfgStatus.cfgState, .ro, 0⟩]
  | .cfgRefuse => [⟨CfgRefuse.cfgRefSect, .ro, 0xff⟩, ⟨CfgRefuse.cfgRefRgn, .ro, 0⟩, ⟨CfgRefuse.cfgRefB, .ro, 0⟩,
      ⟨CfgRefuse.cfgRefA, .ro, 0⟩]
  | .cfgRefuseObj => [⟨CfgRefuseObj.cfgRefObj, .ro, 0xfffff⟩]
  | .cfgCompIdLo => [⟨CfgCompIdLo.cfgCompId, .ro, 0⟩]
  | .cfgCompIdHi => [⟨CfgCompIdLo.cfgCompId, .ro, 0⟩]
  | .cfgVsVersion => [⟨CfgVsVersion.cfgVsVersion, .ro, 0⟩]
  | .cfgRgnCompIdLo => [⟨CfgRgnCompIdLo.cfgRgnCompId, .ro, 0⟩]
  | .cfgRgnCompIdHi => [⟨CfgRgnCompIdLo.cfgRgnCompId, .ro, 0⟩]
  | .glvSummary => [⟨GlvSummary.glvEntries, .ro, 0⟩, ⟨GlvSummary.glvLocked, .ro, 0⟩, ⟨GlvSummary.glvMaxDom, .ro, 0⟩]
  | .glvDeny => [⟨GlvDeny.denyDom, .ro, 0⟩, ⟨GlvDeny.denyOfs, .ro, 0⟩]
  | .glvDenyCnt => [⟨GlvDenyCnt.glvDenyCnt, .ro, 0⟩]
  | .glvEntry => [⟨GlvEntry.glvEntry, .ro, 0⟩]
  | .icuStatus => [⟨IcuStatus.pendCnt, .ro, 0⟩]
  | .icuFallbackCnt => [⟨IcuFallbackCnt.count, .cnt, 0⟩]
  | .icuWakeCnt => [⟨IcuFallbackCnt.count, .cnt, 0⟩]
  | .icuAck => [⟨IcuAck.ackN, .sc, 0⟩, ⟨IcuAck.ackSrc, .sc, 0⟩]
  | .icuNext => [⟨IcuNext.valid, .ro, 0⟩, ⟨IcuNext.count, .ro, 0⟩, ⟨IcuNext.src, .ro, 0⟩]
  | .icuNextVec => [⟨IcuNextVec.vec, .rw, 0xfff⟩]
  | .icuExtCtl => [⟨IcuExtCtl.level, .ro, 0⟩, ⟨IcuExtCtl.filt, .rw, 0xa⟩, ⟨IcuExtCtl.sense, .rw, 1⟩]
  | .icuSrcRoute => [⟨IcuSrcRoute.mask, .rw, 1⟩, ⟨IcuSrcRoute.wake, .rw, 0⟩, ⟨IcuSrcRoute.kind, .rw, 1⟩,
      ⟨IcuSrcRoute.rgcRegion, .rw, 0⟩, ⟨IcuSrcRoute.vector, .rw, 0⟩]
  | .icuSrcStat => [⟨IcuSrcStat.inflight, .ro, 0⟩, ⟨IcuSrcStat.pend, .ro, 0⟩, ⟨IcuSrcStat.ovf, .w1c, 0⟩,
      ⟨IcuSrcStat.delKind, .ro, 0⟩, ⟨IcuSrcStat.count, .ro, 0⟩]
  | .icuVecHold => [⟨IcuVecHold.holdUs, .rw, 0⟩, ⟨IcuVecHold.idle, .ro, 1⟩, ⟨IcuVecHold.held, .ro, 0⟩]
  | .bcmStatus => [⟨BcmStatus.hdrDefault, .ro, 0⟩, ⟨BcmStatus.railOk, .ro, 0⟩, ⟨BcmStatus.fwSlot, .ro, 0⟩,
      ⟨BcmStatus.held, .ro, 0⟩, ⟨BcmStatus.throttle, .ro, 0⟩, ⟨BcmStatus.capActive, .ro, 0⟩,
      ⟨BcmStatus.tempWarn, .ro, 0⟩]
  | .bcmPowerCap => [⟨BcmPowerCap.windowMs, .rw, 0xa⟩, ⟨BcmPowerCap.capW, .rw, 0⟩]
  | .bcmBmcCap => [⟨BcmBmcCap.bmcCapW, .ro, 0⟩]
  | .bcmPower => [⟨BcmPower.peak, .hwu, 0⟩, ⟨BcmPower.average, .ro, 0⟩]
  | .bcmThermCtl => [⟨BcmThermCtl.throttleC, .rw, 0x64⟩, ⟨BcmThermCtl.warnC, .rw, 0x5f⟩]
  | .bcmTempMax => [⟨BcmTempMax.tSensor, .ro, 0⟩, ⟨BcmTempMax.tMax, .ro, 0⟩]
  | .bcmRegionOff => [⟨BcmRegionOff.off, .rw, 0⟩]
  | .bcmRegionDvfs => [⟨BcmRegionDvfs.point, .ro, 0⟩]
  | .bcmShedCnt => [⟨BcmShedCnt.count, .cnt, 0⟩]
  | .bcmTripCtl => [⟨BcmTripCtl.railOff, .rw, 1⟩]
  | .bcmFlashCtl => [⟨BcmFlashCtl.flashWe, .hwu, 0⟩]
  | .bcmFwVersion => [⟨BcmFwVersion.bfVersion, .ro, 0⟩]
  | .bcmLogIdx => [⟨BcmLogIdx.count, .rw, 0⟩]
  | .bcmLogWr => [⟨BcmLogIdx.count, .ro, 0⟩]
  | .bcmLogStatus => [⟨BcmLogStatus.logStale, .ro, 0⟩]
  | .bcmLogData => [⟨BcmLogData.data, .ro, 0⟩]
  | .bcmBoard => [⟨BcmBoard.board, .ro, 0⟩]
  | .bcmPtpCtl => [⟨BcmPtpCtl.ptpDomain, .rw, 0x7f⟩, ⟨BcmPtpCtl.servo, .rw, 0⟩, ⟨BcmPtpCtl.ipv6, .rw, 0⟩,
      ⟨BcmPtpCtl.vlanEn, .rw, 0⟩, ⟨BcmPtpCtl.ptpPort, .rw, 0⟩, ⟨BcmPtpCtl.vid, .rw, 0⟩]
  | .bcmPtpIp => [⟨BcmPtpIp.addr, .rw, 0⟩]
  | .bcmPtpStatus => [⟨BcmPtpStatus.hostStale, .w1c, 0⟩, ⟨BcmPtpStatus.ptpState, .ro, 0⟩]
  | .bcmPtpAdj => [⟨BcmPtpAdj.adj, .rw, 0⟩]
  | .bcmPtpTs => [⟨BcmPtpTs.ts, .ro, 0⟩]
  | .bcmSensor => [⟨BcmSensor.value, .ro, 0⟩, ⟨BcmSensor.valid, .ro, 0⟩]
  | .memStatus => [⟨MemStatus.bucket, .ro, 0⟩, ⟨MemStatus.trainOk, .ro, 0⟩, ⟨MemStatus.scrubDone, .w1c, 0⟩,
      ⟨MemStatus.autoRetrain, .w1c, 0⟩, ⟨MemStatus.retrainFail, .w1c, 0⟩, ⟨MemStatus.ue, .w1c, 0⟩,
      ⟨MemStatus.ceStorm, .w1c, 0⟩, ⟨MemStatus.memState, .ro, 0⟩]
  | .memCtl => [⟨MemCtl.srIdle, .rw, 0x64⟩, ⟨MemCtl.srEn, .rw, 0⟩, ⟨MemCtl.idleTimer, .rw, 0x40⟩]
  | .memEccCtl => [⟨MemEccCtl.leakUs, .rw, 0x3e8⟩, ⟨MemEccCtl.thresh, .rw, 0x10⟩]
  | .memCeCnt => [⟨MemCeCnt.memCeCnt, .cnt, 0⟩]
  | .memUeCnt => [⟨MemUeCnt.scrubUe, .cnt, 0⟩, ⟨MemUeCnt.ueCnt, .cnt, 0⟩]
  | .memCeAddrLo => [⟨MemCeAddrLo.ceAddr, .ro, 0⟩]
  | .memCeAddrHi => [⟨MemCeAddrHi.ceSyms, .ro, 0⟩, ⟨MemCeAddrHi.ceAddrHi, .ro, 0⟩]
  | .memUeAddrLo => [⟨MemUeAddrLo.ueAddr, .ro, 0⟩]
  | .memUeAddrHi => [⟨MemUeAddrHi.ueClass, .ro, 0⟩, ⟨MemUeAddrHi.ueAddrHi, .ro, 0⟩]
  | .memScrubCtl => [⟨MemScrubCtl.periodH, .rw, 0x18⟩]
  | .memScrubPos => [⟨MemScrubPos.scrubPos, .ro, 0⟩]
  | .memRetrainCnt => [⟨MemRetrainCnt.autoCnt, .cnt, 0⟩, ⟨MemRetrainCnt.retrainCnt, .cnt, 0⟩]
  | .memSrCnt => [⟨MemSrCnt.srCancel, .cnt, 0⟩, ⟨MemSrCnt.srEntry, .cnt, 0⟩]
  | .bpmPoolCtl => [⟨BpmPoolCtl.defined, .ro, 0⟩, ⟨BpmPoolCtl.bufLog2, .ro, 0⟩, ⟨BpmPoolCtl.enable, .hwu, 0⟩]
  | .bpmPoolSize => [⟨BpmPoolSize.size, .rw, 0⟩]
  | .bpmPoolWarn1 => [⟨BpmPoolWarn1.warn, .rw, 0⟩]
  | .bpmPoolWarn2 => [⟨BpmPoolWarn1.warn, .rw, 0⟩]
  | .bpmPoolStatus => [⟨BpmPoolStatus.poolRefuse, .ro, 0⟩, ⟨BpmPoolStatus.rebuilding, .ro, 0⟩,
      ⟨BpmPoolStatus.sizeRej, .w1c, 0⟩, ⟨BpmPoolStatus.rebuildEv, .w1c, 0⟩, ⟨BpmPoolStatus.errEv, .w1c, 0⟩,
      ⟨BpmPoolStatus.failEv, .w1c, 0⟩, ⟨BpmPoolStatus.warn1X, .w1c, 0⟩]
  | .bpmPoolHeld => [⟨BpmPoolHeld.count, .ro, 0⟩]
  | .bpmPoolFree => [⟨BpmPoolHeld.count, .ro, 0⟩]
  | .bpmPoolFirst => [⟨BpmPoolFirst.firstId, .ro, 0⟩]
  | .bpmPoolMax => [⟨BpmPoolMax.max, .ro, 0⟩]
  | .bpmPoolEmptyCnt => [⟨BpmPoolEmptyCnt.count, .cnt, 0⟩]
  | .bpmPoolOverCnt => [⟨BpmPoolEmptyCnt.count, .cnt, 0⟩]
  | .bpmPoolErrCnt => [⟨BpmPoolEmptyCnt.count, .cnt, 0⟩]
  | .bpmPoolLastErr => [⟨BpmPoolLastErr.lastErr, .ro, 0⟩, ⟨BpmPoolLastErr.lastErrId, .ro, 0⟩]
  | .bpmPoolLastErrOwn => [⟨BpmPoolLastErrOwn.rebuildCnt, .cnt, 0⟩, ⟨BpmPoolLastErrOwn.lastErrOwn, .ro, 0⟩]
  | .bpmPoolWaitCnt => [⟨BpmPoolWaitCnt.waitCnt, .cnt, 0⟩]
  | .hopArg => [⟨HopArg.pool, .rw, 0⟩, ⟨HopArg.newOwner, .rw, 0⟩]
  | .hopCmd => [⟨HopCmd.op, .sc, 0⟩, ⟨HopCmd.id, .sc, 0⟩]
  | .hopResult => [⟨HopResult.result, .ro, 0⟩, ⟨HopResult.id, .ro, 0⟩]
  | .hopAlloc => [⟨HopResult.result, .ro, 0⟩, ⟨HopResult.id, .ro, 0⟩]
  | .dmaCtl => [⟨DmaCtl.pollUs, .rw, 0⟩, ⟨DmaCtl.enable, .hwu, 0⟩]
  | .dmaStatus => [⟨DmaStatus.lastResult, .ro, 0⟩, ⟨DmaStatus.haltEv, .w1c, 0⟩, ⟨DmaStatus.poisonEv, .w1c, 0⟩,
      ⟨DmaStatus.dbPend, .ro, 0⟩, ⟨DmaStatus.dmaState, .ro, 0⟩]
  | .dmaRefuse => [⟨DmaRefuse.dmaRefCode, .ro, 0⟩]
  | .dmaDb => [⟨DmaDb.db, .sc, 0⟩]
  | .dmaHeadLo => [⟨DmaHeadLo.dmaHead, .rw, 0⟩]
  | .dmaHeadHi => [⟨DmaHeadLo.dmaHead, .rw, 0⟩]
  | .dmaCurLo => [⟨DmaCurLo.dmaCur, .ro, 0⟩]
  | .dmaCurHi => [⟨DmaCurLo.dmaCur, .ro, 0⟩]
  | .dmaDoneLen => [⟨DmaDoneLen.doneLen, .ro, 0⟩]
  | .dmaDescCnt => [⟨DmaDescCnt.descCnt, .cnt, 0⟩]
  | .dmaBytesLo => [⟨DmaBytesLo.bytes, .cnt, 0⟩]
  | .dmaBytesHi => [⟨DmaBytesLo.bytes, .cnt, 0⟩]
  | .dmaWaitCnt => [⟨DmaWaitCnt.waitCnt, .cnt, 0⟩]
  | .lanLaneCtl => [⟨LanLaneCtl.rxPolAuto, .rw, 1⟩, ⟨LanLaneCtl.rxInv, .rw, 0⟩, ⟨LanLaneCtl.txInv, .rw, 0⟩,
      ⟨LanLaneCtl.recal, .sc, 0⟩, ⟨LanLaneCtl.sdiEn, .hwu, 0⟩]
  | .lanLaneStatus => [⟨LanLaneStatus.laneRefuse, .ro, 0⟩, ⟨LanLaneStatus.retryCnt, .cnt, 0⟩,
      ⟨LanLaneStatus.logical, .ro, 0⟩, ⟨LanLaneStatus.rxInvDet, .ro, 0⟩, ⟨LanLaneStatus.cdrLock, .ro, 0⟩,
      ⟨LanLaneStatus.sigDet, .ro, 0⟩, ⟨LanLaneStatus.active, .ro, 0⟩, ⟨LanLaneStatus.recalDone, .w1c, 0⟩,
      ⟨LanLaneStatus.lockLost, .w1c, 0⟩, ⟨LanLaneStatus.laneState, .ro, 0⟩]
  | .lanTxFfe => [⟨LanTxFfe.cM2, .rw, 0⟩, ⟨LanTxFfe.cM1, .rw, 0xf8⟩, ⟨LanTxFfe.c0, .rw, 0x38⟩, ⟨LanTxFfe.cP1, .rw, 0⟩]
  | .lanRxEq => [⟨LanRxEq.ctle, .ro, 0⟩, ⟨LanRxEq.eyeMv, .ro, 0⟩, ⟨LanRxEq.dfeTaps, .ro, 0⟩]
  | .lanPrbs => [⟨LanPrbs.chkPat, .rw, 0⟩, ⟨LanPrbs.genPat, .rw, 0⟩, ⟨LanPrbs.chkLock, .ro, 0⟩,
      ⟨LanPrbs.chkEn, .rw, 0⟩, ⟨LanPrbs.genEn, .rw, 0⟩]
  | .lanPrbsErr => [⟨LanPrbsErr.prbsErr, .cnt, 0⟩]
  | .lanPrbsBitsLo => [⟨LanPrbsBitsLo.prbsBits, .cnt, 0⟩]
  | .lanPrbsBitsHi => [⟨LanPrbsBitsLo.prbsBits, .cnt, 0⟩]
  | .lanLockLostCnt => [⟨LanLockLostCnt.lockLostCnt, .cnt, 0⟩]
  | .lanSdiCtl => [⟨LanSdiCtl.dom, .rw, 0⟩, ⟨LanSdiCtl.std, .rw, 0⟩, ⟨LanSdiCtl.quad, .rw, 0⟩,
      ⟨LanSdiCtl.frac, .rw, 0⟩]
  | .lanSdiPayload => [⟨LanSdiPayload.payloadId, .ro, 0⟩]
  | .lanSdiCrcCnt => [⟨LanSdiCrcCnt.crcCnt, .cnt, 0⟩]
  | .lanMacCtl => [⟨LanMacCtl.mode, .ro, 0⟩, ⟨LanMacCtl.auiNarrow, .rw, 0⟩, ⟨LanMacCtl.fec25, .rw, 0xf⟩,
      ⟨LanMacCtl.portEn, .hwu, 0⟩]
  | .lanMacPortStatus => [⟨LanMacPortStatus.portRefuse, .ro, 0⟩, ⟨LanMacPortStatus.linkDownEv, .w1c, 0⟩,
      ⟨LanMacPortStatus.linkUp, .ro, 0⟩, ⟨LanMacPortStatus.amLock, .ro, 0⟩, ⟨LanMacPortStatus.fecLock, .ro, 0⟩]
  | .lanMacPortFecCorr => [⟨LanMacPortFecCorr.count, .cnt, 0⟩]
  | .lanMacPortFecUncorr => [⟨LanMacPortFecCorr.count, .cnt, 0⟩]
  | .lanRingCtl => [⟨LanRingCtl.pri, .rw, 0⟩, ⟨LanRingCtl.ringId, .rw, 0⟩, ⟨LanRingCtl.active, .hwu, 0⟩]
  | .lanRingCells => [⟨LanRingCells.cellCount, .rw, 0⟩, ⟨LanRingCells.cellFirst, .rw, 0⟩]
  | .lanRingCable => [⟨LanRingCable.upId, .rw, 0⟩, ⟨LanRingCable.cableNs, .rw, 0⟩]
  | .lanRingStatus => [⟨LanRingStatus.ringRefuse, .ro, 0⟩, ⟨LanRingStatus.masterId, .ro, 0⟩,
      ⟨LanRingStatus.updId, .ro, 0⟩, ⟨LanRingStatus.lateTrig, .w1c, 0⟩, ⟨LanRingStatus.upstreamChg, .w1c, 0⟩,
      ⟨LanRingStatus.clash, .w1c, 0⟩, ⟨LanRingStatus.masterChg, .w1c, 0⟩, ⟨LanRingStatus.lockChg, .w1c, 0⟩,
      ⟨LanRingStatus.frameLock, .ro, 0⟩, ⟨LanRingStatus.ringState, .ro, 0⟩]
  | .lanRingLoop => [⟨LanRingLoop.loopNs, .ro, 0⟩]
  | .lanRingTrig => [⟨LanRingTrig.rxEn, .rw, 0⟩, ⟨LanRingTrig.txMap, .rw, 0⟩]
  | .lanRingMark => [⟨LanRingMark.marksDelayed, .cnt, 0⟩, ⟨LanRingMark.mkDomain, .ro, 0⟩, ⟨LanRingMark.mkSrc, .ro, 0⟩]
  | .lanRingMarkArg => [⟨LanRingMarkArg.value, .ro, 0⟩]
  | .lanRingMarkDiff => [⟨LanRingMarkArg.value, .ro, 0⟩]
  | .lanRingBadfrm => [⟨LanRingBadfrm.count, .cnt, 0⟩]
  | .lanRingCellTx => [⟨LanRingBadfrm.count, .cnt, 0⟩]
  | .lanRingCellRx => [⟨LanRingBadfrm.count, .cnt, 0⟩]
  | .sptCtl => [⟨SptCtl.irqEn, .rw, 0⟩, ⟨SptCtl.csumIgnore, .rw, 0⟩, ⟨SptCtl.srcFilt, .rw, 0⟩, ⟨SptCtl.ipv6, .rw, 0⟩,
      ⟨SptCtl.enable, .hwu, 0⟩]
  | .sptStatus => [⟨SptStatus.sptRefuse, .ro, 0⟩, ⟨SptStatus.targetUp, .ro, 0⟩, ⟨SptStatus.csumEv, .w1c, 0⟩,
      ⟨SptStatus.pathLossEv, .w1c, 0⟩, ⟨SptStatus.hrDropEv, .w1c, 0⟩, ⟨SptStatus.linkDropEv, .w1c, 0⟩,
      ⟨SptStatus.seqLossEv, .w1c, 0⟩, ⟨SptStatus.poolDropEv, .w1c, 0⟩, ⟨SptStatus.polDropEv, .w1c, 0⟩]
  | .sptBind => [⟨SptBind.defined, .ro, 0⟩, ⟨SptBind.egress, .ro, 0⟩, ⟨SptBind.kind, .ro, 0⟩, ⟨SptBind.bind, .ro, 0⟩,
      ⟨SptBind.pool, .ro, 0⟩]
  | .sptBind2 => [⟨SptBind2.pair, .ro, 0xffff⟩, ⟨SptBind2.pipe, .ro, 0xffff⟩]
  | .sptEncap => [⟨SptEncap.encap, .rw, 0⟩, ⟨SptEncap.macPort, .rw, 0⟩, ⟨SptEncap.ctrlMac, .rw, 0⟩,
      ⟨SptEncap.ctrlPort, .rw, 0⟩, ⟨SptEncap.pcp, .rw, 0⟩, ⟨SptEncap.vlanEn, .rw, 0⟩, ⟨SptEncap.vid, .rw, 0⟩]
  | .sptUdp => [⟨SptUdp.srcPort, .rw, 0⟩, ⟨SptUdp.dstPort, .rw, 0⟩]
  | .sptDstIp => [⟨SptDstIp.addr, .rw, 0⟩]
  | .sptSrcIp => [⟨SptDstIp.addr, .rw, 0⟩]
  | .sptDstMacLo => [⟨SptDstMacLo.mac, .rw, 0⟩]
  | .sptDstMacHi => [⟨SptDstMacHi.mac, .rw, 0⟩]
  | .sptRtp => [⟨SptRtp.payloadMax, .rw, 0⟩, ⟨SptRtp.dscp, .rw, 0⟩, ⟨SptRtp.pt, .rw, 0⟩]
  | .sptSsrc => [⟨SptSsrc.value, .rw, 0⟩]
  | .sptSeq => [⟨SptSsrc.value, .rw, 0⟩]
  | .sptTs => [⟨SptTs.pcrMs, .rw, 0⟩, ⟨SptTs.ptsDelayMs, .rw, 0⟩, ⟨SptTs.pkts, .rw, 0⟩, ⟨SptTs.pid, .rw, 0x100⟩]
  | .sptTsRate => [⟨SptTsRate.muxKbps, .rw, 0⟩]
  | .spt2110 => [⟨Spt2110.bpm, .rw, 0⟩, ⟨Spt2110.depth, .rw, 0⟩, ⟨Spt2110.sampling, .rw, 0⟩]
  | .sptRingHr => [⟨SptRingHr.dest, .rw, 0⟩, ⟨SptRingHr.hrLog2sz, .rw, 0⟩, ⟨SptRingHr.ringStream, .rw, 0⟩]
  | .sptHrBaseLo => [⟨SptHrBaseLo.hrBase, .rw, 0⟩]
  | .sptHrBaseHi => [⟨SptHrBaseLo.hrBase, .rw, 0⟩]
  | .sptHrWr => [⟨SptHrWr.count, .hwu, 0⟩]
  | .sptHrRd => [⟨SptHrWr.count, .hwu, 0⟩]
  | .sptPolRate => [⟨SptPolRate.value, .rw, 0⟩]
  | .sptPolBurst => [⟨SptPolBurst.value, .rw, 0⟩]
  | .sptMerge => [⟨SptMerge.mergeUs, .rw, 0⟩]
  | .schPortCtl => [⟨SchPortCtl.shapeEn, .rw, 0⟩, ⟨SchPortCtl.prio, .rw, 0⟩, ⟨SchPortCtl.sampleUs, .rw, 0⟩,
      ⟨SchPortCtl.quantum, .rw, 0⟩]
  | .schIdleKbps => [⟨SchIdleKbps.value, .rw, 0⟩]
  | .schHiCredit => [⟨SchHiCredit.value, .rw, 0⟩]
  | .schCredit => [⟨SchCredit.credit, .ro, 0⟩]
  | .sptQDepth => [⟨SptQDepth.value, .ro, 0⟩]
  | .sptQDelay => [⟨SptQDepth.value, .ro, 0⟩]
  | .sptQMaxDepth => [⟨SptQDepth.value, .hwu, 0⟩]
  | .sptQMaxDelay => [⟨SptQDepth.value, .hwu, 0⟩]
  | .sptImpCtl => [⟨SptImpCtl.reorderDepth, .rw, 0⟩, ⟨SptImpCtl.csumAfter, .rw, 0⟩, ⟨SptImpCtl.impEn, .rw, 0⟩]
  | .sptImpProb0 => [⟨SptImpProb0.probA, .rw, 0⟩, ⟨SptImpProb0.probB, .rw, 0⟩]
  | .sptImpProb1 => [⟨SptImpProb0.probA, .rw, 0⟩, ⟨SptImpProb0.probB, .rw, 0⟩]
  | .sptImpSeed => [⟨SptImpSeed.value, .rw, 0⟩]
  | .sptImpTsOfs => [⟨SptImpSeed.value, .rw, 0⟩]
  | .sptImpPcrOfs => [⟨SptImpSeed.value, .rw, 0⟩]
  | .sptImpCnt0 => [⟨SptImpCnt0.cntA, .cnt, 0⟩, ⟨SptImpCnt0.cntB, .cnt, 0⟩]
  | .sptImpCnt1 => [⟨SptImpCnt0.cntA, .cnt, 0⟩, ⟨SptImpCnt0.cntB, .cnt, 0⟩]
  | .sptPktsLo => [⟨SptPktsLo.count, .cnt, 0⟩]
  | .sptPktsHi => [⟨SptPktsLo.count, .cnt, 0⟩]
  | .sptBytesLo => [⟨SptPktsLo.count, .cnt, 0⟩]
  | .sptBytesHi => [⟨SptPktsLo.count, .cnt, 0⟩]
  | .sptDropPol => [⟨SptDropPol.count, .cnt, 0⟩]
  | .sptDropPool => [⟨SptDropPol.count, .cnt, 0⟩]
  | .sptDropOther => [⟨SptDropPol.count, .cnt, 0⟩]
  | .sptMergeDup => [⟨SptDropPol.count, .cnt, 0⟩]
  | .sptLoss => [⟨SptDropPol.count, .cnt, 0⟩]
  | .sptCsumBad => [⟨SptDropPol.count, .cnt, 0⟩]
  | .schCreditOnChange => [⟨SchCreditOnChange.onChange, .rw, 0⟩]
  | .schGrpPend => [⟨SchGrpPend.pend, .ro, 0⟩]
  | .schMacAddrLo => [⟨SchMacAddrLo.addr, .rw, 0⟩]
  | .schMacAddrHi => [⟨SchMacAddrHi.addr, .rw, 0⟩]
  | .schMacCfg => [⟨SchMacCfg.mtu, .rw, 0⟩]
  | .schMacUnmatched => [⟨SchMacUnmatched.count, .cnt, 0⟩]
  | .schMacRate => [⟨SchMacRate.rateMbps, .ro, 0⟩]
  | .rgcStatus => [⟨RgcStatus.rgcPipes, .ro, 0⟩, ⟨RgcStatus.rgcStandby, .ro, 0xf⟩,
      ⟨RgcStatus.rgcIvrPhaseLost, .w1c, 0⟩, ⟨RgcStatus.rgcVoteEvent, .w1c, 0⟩, ⟨RgcStatus.rgcState, .ro, 0⟩]
  | .rgcVote => [⟨RgcVote.rgcResyncCnt, .cnt, 0⟩, ⟨RgcVote.rgcLastMinority, .ro, 3⟩]
  | .maStatus => [⟨MaStatus.maBudgetSum, .ro, 0⟩, ⟨MaStatus.maEnabled, .ro, 0⟩]
  | .maGrantCnt => [⟨MaGrantCnt.maGrantCnt, .cnt, 0⟩]
  | .blkStatus => [⟨BlkStatus.blkRole, .ro, 0⟩, ⟨BlkStatus.blkPersonality, .ro, 0⟩, ⟨BlkStatus.blkSlots, .ro, 0⟩,
      ⟨BlkStatus.blkSpare, .ro, 0xb⟩, ⟨BlkStatus.blkReplay, .ro, 0⟩, ⟨BlkStatus.blkCurSlot, .ro, 0⟩,
      ⟨BlkStatus.blkCellOk, .ro, 0xfff⟩]
  | .blkCellRole => [⟨BlkCellRole.cellRole, .ro, 0⟩]
  | .blkSwitchCnt => [⟨BlkSwitchCnt.blkSwitchCnt, .ro, 0⟩]
  | .blkSlot => [⟨BlkSlot.slotValid, .ro, 0⟩, ⟨BlkSlot.slotPipe, .ro, 0⟩]
  | .ropeStatus => [⟨RopeStatus.ropeMismatchCnt, .ro, 0⟩, ⟨RopeStatus.ropeBusy, .ro, 0⟩,
      ⟨RopeStatus.ropeCoder, .ro, 0⟩, ⟨RopeStatus.ropePipe, .ro, 0⟩]
  | .seqStatus => [⟨SeqStatus.seqRoutine, .ro, 0⟩, ⟨SeqStatus.seqCairnGap, .ro, 0⟩,
      ⟨SeqStatus.seqResumeValid, .w1c, 0⟩, ⟨SeqStatus.seqState, .ro, 0⟩]
  | .seqVersion => [⟨SeqVersion.romVersion, .ro, 0x100⟩]
  | .seqPatch => [⟨SeqPatch.patchValid, .ro, 0⟩, ⟨SeqPatch.patchMatch, .ro, 0⟩, ⟨SeqPatch.patchMicro, .ro, 0⟩,
      ⟨SeqPatch.patchNano, .ro, 0⟩]
  | .seqPatchCrc => [⟨SeqPatchCrc.seqPatchCrc, .ro, 0⟩]
  | .seqEcc => [⟨SeqEcc.seqCorr, .cnt, 0⟩, ⟨SeqEcc.seqUncorr, .cnt, 0⟩]
  | .seqResume => [⟨SeqResume.seqResume, .ro, 0⟩]
  | .dqCtl => [⟨DqCtl.dqIrqEn, .rw, 0⟩, ⟨DqCtl.dqLevel, .rw, 0⟩]
  | .dqStatus => [⟨DqStatus.dqFill, .ro, 0⟩, ⟨DqStatus.dqDir, .ro, 0⟩, ⟨DqStatus.dqSeg, .ro, 0⟩,
      ⟨DqStatus.dqStall, .w1c, 0⟩, ⟨DqStatus.dqResetEv, .w1c, 0⟩, ⟨DqStatus.dqCross, .w1c, 0⟩]
  | .dqHiwater => [⟨DqHiwater.dqHiwater, .hwu, 0⟩]
  | .dqResetCnt => [⟨DqResetCnt.dqResetCnt, .cnt, 0⟩]
  | .dqStallCnt => [⟨DqStallCnt.dqStallCnt, .cnt, 0⟩]
  | .dqTokens => [⟨DqTokens.dqTokens, .cnt, 0⟩]
  | .pipCtl => [⟨PipCtl.picIrq, .rw, 0⟩, ⟨PipCtl.enable, .hwu, 0⟩]
  | .pipStatus => [⟨PipStatus.encode, .ro, 0⟩, ⟨PipStatus.recDrop, .w1c, 0⟩, ⟨PipStatus.captureOverrun, .w1c, 0⟩,
      ⟨PipStatus.srcIncomplete, .w1c, 0⟩, ⟨PipStatus.activeWrite, .w1c, 0⟩, ⟨PipStatus.hoRefused, .w1c, 0⟩,
      ⟨PipStatus.deadlineMiss, .w1c, 0⟩, ⟨PipStatus.inMargin, .w1c, 0⟩, ⟨PipStatus.running, .ro, 0⟩]
  | .pipRefuse => [⟨PipRefuse.pipRefOfs, .ro, 0x3ff⟩, ⟨PipRefuse.pipRefCode, .ro, 0⟩]
  | .pipLatency => [⟨PipLatency.rows, .rw, 0⟩, ⟨PipLatency.mode, .rw, 0⟩]
  | .pipShadowPending => [⟨PipShadowPending.discard, .sc, 0⟩, ⟨PipShadowPending.pending, .ro, 0⟩]
  | .pipHandover => [⟨PipHandover.hoCount, .cnt, 0⟩, ⟨PipHandover.hoHold, .rw, 0⟩]
  | .pipPicCnt => [⟨PipPicCnt.pipPicCnt, .cnt, 0⟩]
  | .pipRecCtl => [⟨PipRecCtl.recLog2sz, .rw, 0⟩, ⟨PipRecCtl.recDma, .rw, 0⟩, ⟨PipRecCtl.recLevel, .rw, 0⟩]
  | .pipRecBaseLo => [⟨PipRecBaseLo.pipRecBase, .rw, 0⟩]
  | .pipRecBaseHi => [⟨PipRecBaseLo.pipRecBase, .rw, 0⟩]
  | .pipRecWr => [⟨PipRecWr.pipRecWr, .ro, 0⟩]
  | .pipRecRd => [⟨PipRecRd.pipRecRd, .rw, 0⟩]
  | .pipRecDrop => [⟨PipRecDrop.pipRecDrop, .cnt, 0⟩]
  | .pipBudget => [⟨PipBudget.budgetRej, .w1c, 0⟩, ⟨PipBudget.budget, .rw, 0⟩]
  | .pipBudgetStat => [⟨PipBudgetStat.throttleCnt, .cnt, 0⟩]
  | .pipOutPool => [⟨PipOutPool.outPool, .rw, 0⟩]
  | .pipFault => [⟨PipFault.region, .ro, 0⟩, ⟨PipFault.lost, .w1c, 0⟩, ⟨PipFault.shed, .w1c, 0⟩,
      ⟨PipFault.degraded, .w1c, 0⟩]
  | .decStatus => [⟨DecStatus.decIrqEn, .rw, 0⟩, ⟨DecStatus.taintNow, .ro, 0⟩, ⟨DecStatus.resync, .w1c, 0⟩,
      ⟨DecStatus.poison, .w1c, 0⟩, ⟨DecStatus.lateData, .w1c, 0⟩, ⟨DecStatus.underflow, .w1c, 0⟩,
      ⟨DecStatus.substituted, .w1c, 0⟩, ⟨DecStatus.missingRef, .w1c, 0⟩, ⟨DecStatus.concealed, .w1c, 0⟩,
      ⟨DecStatus.event, .w1c, 0⟩]
  | .decEvtCnt => [⟨DecEvtCnt.decEvtCnt, .cnt, 0⟩]
  | .decConcealCnt => [⟨DecConcealCnt.decConcealCnt, .cnt, 0⟩]
  | .decMissingCnt => [⟨DecMissingCnt.decMissingCnt, .cnt, 0⟩]
  | .decLateBytes => [⟨DecLateBytes.decLateBytes, .cnt, 0⟩]
  | .decLastEvt => [⟨DecLastEvt.lastPic, .ro, 0⟩, ⟨DecLastEvt.lastCode, .ro, 0⟩]
  | .encCodec => [⟨EncCodec.fieldMode, .hwuShd, 0⟩, ⟨EncCodec.cavlc, .hwuShd, 0⟩, ⟨EncCodec.depth10, .hwuShd, 0⟩,
      ⟨EncCodec.level, .hwuShd, 0⟩, ⟨EncCodec.highTier, .hwuShd, 0⟩, ⟨EncCodec.profile, .hwuShd, 0⟩]
  | .encSize => [⟨EncSize.width, .hwuShd, 0⟩, ⟨EncSize.height, .hwuShd, 0⟩]
  | .encPart => [⟨EncPart.sliceRows, .hwuShd, 0⟩, ⟨EncPart.ctuLog2, .hwuShd, 0⟩, ⟨EncPart.wpp, .hwuShd, 0⟩,
      ⟨EncPart.tileRows, .hwuShd, 0⟩, ⟨EncPart.tileCols, .hwuShd, 0⟩]
  | .encGop => [⟨EncGop.ltPeriod, .hwuShd, 0⟩, ⟨EncGop.refs, .hwuShd, 0⟩, ⟨EncGop.openGop, .hwuShd, 0⟩,
      ⟨EncGop.struct, .hwuShd, 0⟩, ⟨EncGop.intraPeriod, .hwuShd, 0⟩]
  | .encSearch => [⟨EncSearch.frac, .hwuShd, 0⟩, ⟨EncSearch.l2Ry, .hwuShd, 0⟩, ⟨EncSearch.l2Rx, .hwuShd, 0⟩]
  | .encTools => [⟨EncTools.tools, .hwuShd, 0⟩]
  | .encQuant => [⟨EncQuant.interRound, .hwuShd, 0⟩, ⟨EncQuant.intraRound, .hwuShd, 0⟩,
      ⟨EncQuant.lambdaScale, .hwuShd, 0⟩]
  | .encSrc => [⟨EncSrc.clipCount, .hwuShd, 0⟩, ⟨EncSrc.clipIndex, .hwu, 0⟩, ⟨EncSrc.inFmt, .hwuShd, 0⟩]
  | .impSeed => [⟨ImpSeed.impSeed, .hwuShd, 0⟩]
  | .impSlotCtl => [⟨ImpSlotCtl.prob, .hwuShd, 0⟩, ⟨ImpSlotCtl.sel, .hwuShd, 0⟩, ⟨ImpSlotCtl.mode, .hwuShd, 0⟩,
      ⟨ImpSlotCtl.code, .hwuShd, 0⟩]
  | .impSlotArg => [⟨ImpSlotArg.arg, .hwuShd, 0⟩, ⟨ImpSlotArg.phase, .hwuShd, 0⟩]
  | .decCodec => [⟨DecCodec.profileMask, .hwuShd, 0⟩]
  | .decSize => [⟨DecSize.maxW, .hwuShd, 0⟩, ⟨DecSize.maxH, .hwuShd, 0⟩]
  | .decOut => [⟨DecOut.reorder, .hwuShd, 0⟩, ⟨DecOut.fmt, .hwuShd, 0⟩]
  | .decConceal => [⟨DecConceal.noGapTaint, .hwuShd, 0⟩, ⟨DecConceal.start, .hwuShd, 0⟩,
      ⟨DecConceal.corrupt, .hwuShd, 0⟩, ⟨DecConceal.missing, .hwuShd, 0⟩]
  | .decTrace => [⟨DecTrace.maxEvt, .hwuShd, 0⟩, ⟨DecTrace.hashEn, .hwuShd, 0⟩, ⟨DecTrace.catMask, .hwuShd, 0⟩]
  | .rcCtl => [⟨RcCtl.rowDq, .hwuShd, 0⟩, ⟨RcCtl.rowLag, .hwuShd, 0⟩, ⟨RcCtl.hrdSignal, .hwuShd, 0⟩,
      ⟨RcCtl.reserveOff, .hwuShd, 0⟩, ⟨RcCtl.mode, .hwuShd, 0⟩]
  | .rcRate => [⟨RcRate.rateKbps, .hwuShd, 0⟩]
  | .rcMaxrate => [⟨RcMaxrate.maxrateKbps, .hwuShd, 0⟩]
  | .rcCpb => [⟨RcCpb.init, .hwuShd, 0⟩, ⟨RcCpb.cpbKbit, .hwuShd, 0⟩]
  | .rcQp => [⟨RcQp.qpInit, .hwuShd, 0⟩, ⟨RcQp.qpMax, .hwuShd, 0⟩, ⟨RcQp.qpMin, .hwuShd, 0⟩]
  | .rcWeight => [⟨RcWeight.intraW, .hwuShd, 0⟩, ⟨RcWeight.intraDq, .hwuShd, 0⟩]
  | .rcStress => [⟨RcStress.amount, .hwuShd, 0⟩, ⟨RcStress.period, .hwuShd, 0⟩, ⟨RcStress.phase, .hwuShd, 0⟩,
      ⟨RcStress.kind, .hwuShd, 0⟩]
  | .rcCurQp => [⟨RcCurQp.qpPrevInter, .hwu, 0⟩, ⟨RcCurQp.qpPrevIntra, .hwu, 0⟩]
  | .rcFullness => [⟨RcFullness.rcF, .hwu, 0⟩]
  | .rcCarry => [⟨RcCarry.rcCarry, .ro, 0⟩]
  | .rcStatus => [⟨RcStatus.floorCnt, .cnt, 0⟩, ⟨RcStatus.mapErr, .w1c, 0⟩, ⟨RcStatus.cpbViol, .w1c, 0⟩,
      ⟨RcStatus.floor, .w1c, 0⟩]
  | .roiRectX => [⟨RoiRectX.mode, .hwuShd, 0⟩, ⟨RoiRectX.x1, .hwuShd, 0⟩, ⟨RoiRectX.x0, .hwuShd, 0⟩]
  | .roiRectY => [⟨RoiRectY.value, .hwuShd, 0⟩, ⟨RoiRectY.y1, .hwuShd, 0⟩, ⟨RoiRectY.y0, .hwuShd, 0⟩]
  | .roiMapCtl => [⟨RoiMapCtl.mapDma, .hwuShd, 0⟩, ⟨RoiMapCtl.mapSrc, .hwuShd, 0⟩, ⟨RoiMapCtl.mapEn, .hwuShd, 0⟩]
  | .roiMapBaseLo => [⟨RoiMapBaseLo.mapBase, .hwuShd, 0⟩]
  | .roiMapBaseHi => [⟨RoiMapBaseLo.mapBase, .hwuShd, 0⟩]
  | .fltStatus => [⟨FltStatus.injRefuse, .ro, 0⟩, ⟨FltStatus.lastClass, .ro, 0⟩, ⟨FltStatus.lastLevel, .ro, 0⟩,
      ⟨FltStatus.histHead, .ro, 0⟩, ⟨FltStatus.injArmed, .ro, 0⟩, ⟨FltStatus.injFired, .w1c, 0⟩,
      ⟨FltStatus.escalated, .w1c, 0⟩, ⟨FltStatus.fault, .w1c, 0⟩]
  | .fltCtl => [⟨FltCtl.autoAckS, .rw, 0⟩, ⟨FltCtl.irqLevel, .rw, 0⟩]
  | .fltUnack => [⟨FltUnack.unack, .ro, 0⟩]
  | .fltAck => [⟨FltAck.ackAll, .sc, 0⟩, ⟨FltAck.ackClass, .sc, 0⟩]
  | .fltInject => [⟨FltInject.injGo, .sc, 0⟩, ⟨FltInject.injLevel, .rw, 0⟩, ⟨FltInject.injClass, .rw, 0⟩,
      ⟨FltInject.injUnit, .rw, 0⟩, ⟨FltInject.injDelay, .rw, 0⟩]
  | .fltEvtCnt => [⟨FltEvtCnt.count, .cnt, 0⟩]
  | .fltInjCnt => [⟨FltEvtCnt.count, .cnt, 0⟩]
  | .fltCeCnt => [⟨FltEvtCnt.count, .cnt, 0⟩]
  | .fltHistLo => [⟨FltHistLo.hist, .ro, 0⟩]
  | .fltHistHi => [⟨FltHistLo.hist, .ro, 0⟩]
  | .fltSafeCause => [⟨FltSafeCause.safe, .ro, 0⟩, ⟨FltSafeCause.forced, .ro, 0⟩, ⟨FltSafeCause.scClass, .ro, 0⟩,
      ⟨FltSafeCause.scUnit, .ro, 0⟩]
  | .fltNowLo => [⟨FltNowLo.now, .ro, 0⟩]
  | .fltNowHi => [⟨FltNowLo.now, .ro, 0⟩]
  | .cxlStatus => [⟨CxlStatus.linkDownCnt, .cnt, 0⟩, ⟨CxlStatus.linkDownEv, .w1c, 0⟩, ⟨CxlStatus.linkMode, .ro, 0⟩,
      ⟨CxlStatus.width, .ro, 0⟩, ⟨CxlStatus.rate, .ro, 0⟩]
  | .cxlHdmMap => [⟨CxlHdmMap.mapValid, .ro, 0⟩, ⟨CxlHdmMap.mapDom, .ro, 0⟩, ⟨CxlHdmMap.mapBias, .ro, 0⟩,
      ⟨CxlHdmMap.mapCo, .ro, 0⟩]
  | .cxlPoisonCnt => [⟨CxlPoisonCnt.count, .cnt, 0⟩]
  | .cxlHdmOob => [⟨CxlPoisonCnt.count, .cnt, 0⟩]

/-! The BAR0 offset of each register (R534 and the header lines). -/

def Reg.chipId : Nat := 0x0
def Reg.chipMode : Nat := 0x4
def Reg.chipResetCause : Nat := 0x8
def Reg.chipForce : Nat := 0xc
def Reg.chipKey : Nat := 0x10
def Reg.chipKeyState : Nat := 0x14
def Reg.chipTmr : Nat := 0x18
def Reg.cmdOp : Nat := 0x100
def Reg.cmdArg (n : Nat) : Nat := 0x104 + 4 * n
def Reg.cmdStatus : Nat := 0x124
def Reg.cmdAbort : Nat := 0x128
def Reg.cmdRejectCnt : Nat := 0x12c
def Reg.cmdProgress : Nat := 0x130
def Reg.cmdOut (n : Nat) : Nat := 0x140 + 4 * n
def Reg.chipAccessErr (d : Nat) : Nat := 0x1000 + 0x40 * d
def Reg.chipAccessAddr (d : Nat) : Nat := 0x1000 + 0x40 * d + 0x4
def Reg.chipOverrunAddr (d : Nat) : Nat := 0x1000 + 0x40 * d + 0x8
def Reg.chipAccessCnt (d : Nat) : Nat := 0x1000 + 0x40 * d + 0xc
def Reg.rckCtl : Nat := 0x10000
def Reg.rckStatus : Nat := 0x10000 + 0x4
def Reg.rckSlew : Nat := 0x10000 + 0x8
def Reg.rckPhaseErr : Nat := 0x10000 + 0xc
def Reg.rckSchedHost : Nat := 0x10000 + 0x40
def Reg.rckTrigCtl : Nat := 0x10000 + 0x44
def Reg.rckTrigPosLo (n : Nat) : Nat := 0x10000 + 0x48 + 8 * n
def Reg.rckTrigPosHi (n : Nat) : Nat := 0x10000 + 0x4c + 8 * n
def Reg.rckDomCtl (d : Nat) : Nat := 0x11000 + 0x40 * d
def Reg.rckDomRate (d : Nat) : Nat := 0x11000 + 0x40 * d + 0x4
def Reg.rckDomGeom (d : Nat) : Nat := 0x11000 + 0x40 * d + 0x8
def Reg.rckDomActive (d : Nat) : Nat := 0x11000 + 0x40 * d + 0xc
def Reg.rckDomField (d : Nat) : Nat := 0x11000 + 0x40 * d + 0x10
def Reg.rckDomOfs (d : Nat) : Nat := 0x11000 + 0x40 * d + 0x14
def Reg.rckDomPosLo (d : Nat) : Nat := 0x11000 + 0x40 * d + 0x18
def Reg.rckDomPosHi (d : Nat) : Nat := 0x11000 + 0x40 * d + 0x1c
def Reg.rckDomSched (d : Nat) : Nat := 0x11000 + 0x40 * d + 0x20
def Reg.rckDomLate (d : Nat) : Nat := 0x11000 + 0x40 * d + 0x24
def Reg.cfgStatus : Nat := 0x20000
def Reg.cfgRefuse : Nat := 0x20000 + 0x4
def Reg.cfgRefuseObj : Nat := 0x20000 + 0x8
def Reg.cfgCompIdLo : Nat := 0x20000 + 0x10
def Reg.cfgCompIdHi : Nat := 0x20000 + 0x14
def Reg.cfgVsVersion : Nat := 0x20000 + 0x18
def Reg.cfgRgnCompIdLo (r : Nat) : Nat := 0x20000 + 0x100 + 8 * r
def Reg.cfgRgnCompIdHi (r : Nat) : Nat := 0x20000 + 0x104 + 8 * r
def Reg.glvSummary : Nat := 0x20000 + 0x400
def Reg.glvDeny : Nat := 0x20000 + 0x408
def Reg.glvDenyCnt : Nat := 0x20000 + 0x40c
def Reg.glvEntry (i : Nat) : Nat := 0x20000 + 0x800 + 4 * i
def Reg.icuStatus : Nat := 0x30000
def Reg.icuFallbackCnt : Nat := 0x30000 + 0x4
def Reg.icuWakeCnt : Nat := 0x30000 + 0x8
def Reg.icuAck (d : Nat) : Nat := 0x30100 + 0x10 * d
def Reg.icuNext (d : Nat) : Nat := 0x30100 + 0x10 * d + 0x4
def Reg.icuNextVec (d : Nat) : Nat := 0x30100 + 0x10 * d + 0x8
def Reg.icuExtCtl (n : Nat) : Nat := 0x30000 + 0x400 + 4 * n
def Reg.icuSrcRoute (s : Nat) : Nat := 0x30000 + 0x4000 + 4 * s
def Reg.icuSrcStat (s : Nat) : Nat := 0x30000 + 0x8000 + 4 * s
def Reg.icuVecHold (i : Nat) : Nat := 0x30000 + 0xc000 + 4 * i
def Reg.bcmStatus : Nat := 0x40000
def Reg.bcmPowerCap : Nat := 0x40000 + 0x4
def Reg.bcmBmcCap : Nat := 0x40000 + 0x8
def Reg.bcmPower : Nat := 0x40000 + 0xc
def Reg.bcmThermCtl : Nat := 0x40000 + 0x10
def Reg.bcmTempMax : Nat := 0x40000 + 0x14
def Reg.bcmRegionOff : Nat := 0x40000 + 0x18
def Reg.bcmRegionDvfs : Nat := 0x40000 + 0x1c
def Reg.bcmShedCnt : Nat := 0x40000 + 0x20
def Reg.bcmTripCtl : Nat := 0x40000 + 0x24
def Reg.bcmFlashCtl : Nat := 0x40000 + 0x30
def Reg.bcmFwVersion : Nat := 0x40000 + 0x34
def Reg.bcmLogIdx : Nat := 0x40000 + 0x40
def Reg.bcmLogWr : Nat := 0x40000 + 0x44
def Reg.bcmLogStatus : Nat := 0x40000 + 0x48
def Reg.bcmLogData (i : Nat) : Nat := 0x40000 + 0x60 + 4 * i
def Reg.bcmBoard (i : Nat) : Nat := 0x40000 + 0xc0 + 4 * i
def Reg.bcmPtpCtl : Nat := 0x40000 + 0x100
def Reg.bcmPtpIp (k : Nat) : Nat := 0x40000 + 0x104 + 4 * k
def Reg.bcmPtpStatus : Nat := 0x40000 + 0x114
def Reg.bcmPtpAdj : Nat := 0x40000 + 0x118
def Reg.bcmPtpTs (i : Nat) : Nat := 0x40000 + 0x120 + 4 * i
def Reg.bcmSensor (n : Nat) : Nat := 0x40000 + 0x400 + 4 * n
def Reg.memStatus (c : Nat) : Nat := 0x50000 + 0x4000 * c
def Reg.memCtl (c : Nat) : Nat := 0x50000 + 0x4000 * c + 0x4
def Reg.memEccCtl (c : Nat) : Nat := 0x50000 + 0x4000 * c + 0x8
def Reg.memCeCnt (c : Nat) : Nat := 0x50000 + 0x4000 * c + 0xc
def Reg.memUeCnt (c : Nat) : Nat := 0x50000 + 0x4000 * c + 0x10
def Reg.memCeAddrLo (c : Nat) : Nat := 0x50000 + 0x4000 * c + 0x14
def Reg.memCeAddrHi (c : Nat) : Nat := 0x50000 + 0x4000 * c + 0x18
def Reg.memUeAddrLo (c : Nat) : Nat := 0x50000 + 0x4000 * c + 0x1c
def Reg.memUeAddrHi (c : Nat) : Nat := 0x50000 + 0x4000 * c + 0x20
def Reg.memScrubCtl (c : Nat) : Nat := 0x50000 + 0x4000 * c + 0x24
def Reg.memScrubPos (c : Nat) : Nat := 0x50000 + 0x4000 * c + 0x28
def Reg.memRetrainCnt (c : Nat) : Nat := 0x50000 + 0x4000 * c + 0x2c
def Reg.memSrCnt (c : Nat) : Nat := 0x50000 + 0x4000 * c + 0x30
def Reg.bpmPoolCtl (k : Nat) : Nat := 0x60000 + 0x100 * k
def Reg.bpmPoolSize (k : Nat) : Nat := 0x60000 + 0x100 * k + 0x4
def Reg.bpmPoolWarn1 (k : Nat) : Nat := 0x60000 + 0x100 * k + 0x8
def Reg.bpmPoolWarn2 (k : Nat) : Nat := 0x60000 + 0x100 * k + 0xc
def Reg.bpmPoolStatus (k : Nat) : Nat := 0x60000 + 0x100 * k + 0x10
def Reg.bpmPoolHeld (k : Nat) : Nat := 0x60000 + 0x100 * k + 0x14
def Reg.bpmPoolFree (k : Nat) : Nat := 0x60000 + 0x100 * k + 0x18
def Reg.bpmPoolFirst (k : Nat) : Nat := 0x60000 + 0x100 * k + 0x1c
def Reg.bpmPoolMax (k : Nat) : Nat := 0x60000 + 0x100 * k + 0x20
def Reg.bpmPoolEmptyCnt (k : Nat) : Nat := 0x60000 + 0x100 * k + 0x24
def Reg.bpmPoolOverCnt (k : Nat) : Nat := 0x60000 + 0x100 * k + 0x28
def Reg.bpmPoolErrCnt (k : Nat) : Nat := 0x60000 + 0x100 * k + 0x2c
def Reg.bpmPoolLastErr (k : Nat) : Nat := 0x60000 + 0x100 * k + 0x30
def Reg.bpmPoolLastErrOwn (k : Nat) : Nat := 0x60000 + 0x100 * k + 0x34
def Reg.bpmPoolWaitCnt (k : Nat) : Nat := 0x60000 + 0x100 * k + 0x38
def Reg.hopArg (d : Nat) : Nat := 0x61000 + 0x20 * d
def Reg.hopCmd (d : Nat) : Nat := 0x61000 + 0x20 * d + 0x4
def Reg.hopResult (d : Nat) : Nat := 0x61000 + 0x20 * d + 0x8
def Reg.hopAlloc (d : Nat) : Nat := 0x61000 + 0x20 * d + 0xc
def Reg.dmaCtl (c : Nat) : Nat := 0x70000 + 0x100 * c
def Reg.dmaStatus (c : Nat) : Nat := 0x70000 + 0x100 * c + 0x4
def Reg.dmaRefuse (c : Nat) : Nat := 0x70000 + 0x100 * c + 0x8
def Reg.dmaDb (c : Nat) : Nat := 0x70000 + 0x100 * c + 0xc
def Reg.dmaHeadLo (c : Nat) : Nat := 0x70000 + 0x100 * c + 0x10
def Reg.dmaHeadHi (c : Nat) : Nat := 0x70000 + 0x100 * c + 0x14
def Reg.dmaCurLo (c : Nat) : Nat := 0x70000 + 0x100 * c + 0x18
def Reg.dmaCurHi (c : Nat) : Nat := 0x70000 + 0x100 * c + 0x1c
def Reg.dmaDoneLen (c : Nat) : Nat := 0x70000 + 0x100 * c + 0x20
def Reg.dmaDescCnt (c : Nat) : Nat := 0x70000 + 0x100 * c + 0x24
def Reg.dmaBytesLo (c : Nat) : Nat := 0x70000 + 0x100 * c + 0x28
def Reg.dmaBytesHi (c : Nat) : Nat := 0x70000 + 0x100 * c + 0x2c
def Reg.dmaWaitCnt (c : Nat) : Nat := 0x70000 + 0x100 * c + 0x30
def Reg.lanLaneCtl (l : Nat) : Nat := 0x80000 + 0x100 * l
def Reg.lanLaneStatus (l : Nat) : Nat := 0x80000 + 0x100 * l + 0x4
def Reg.lanTxFfe (l : Nat) : Nat := 0x80000 + 0x100 * l + 0x8
def Reg.lanRxEq (l : Nat) : Nat := 0x80000 + 0x100 * l + 0xc
def Reg.lanPrbs (l : Nat) : Nat := 0x80000 + 0x100 * l + 0x10
def Reg.lanPrbsErr (l : Nat) : Nat := 0x80000 + 0x100 * l + 0x14
def Reg.lanPrbsBitsLo (l : Nat) : Nat := 0x80000 + 0x100 * l + 0x18
def Reg.lanPrbsBitsHi (l : Nat) : Nat := 0x80000 + 0x100 * l + 0x1c
def Reg.lanLockLostCnt (l : Nat) : Nat := 0x80000 + 0x100 * l + 0x20
def Reg.lanSdiCtl (l : Nat) : Nat := 0x80000 + 0x100 * l + 0x40
def Reg.lanSdiPayload (l : Nat) : Nat := 0x80000 + 0x100 * l + 0x44
def Reg.lanSdiCrcCnt (l : Nat) : Nat := 0x80000 + 0x100 * l + 0x48
def Reg.lanMacCtl (m : Nat) : Nat := 0x84000 + 0x100 * m
def Reg.lanMacPortStatus (m j : Nat) : Nat := 0x84000 + 0x100 * m + 0x10 + 4 * j
def Reg.lanMacPortFecCorr (m j : Nat) : Nat := 0x84000 + 0x100 * m + 0x20 + 8 * j
def Reg.lanMacPortFecUncorr (m j : Nat) : Nat := 0x84000 + 0x100 * m + 0x24 + 8 * j
def Reg.lanRingCtl : Nat := 0x86000
def Reg.lanRingCells : Nat := 0x86000 + 0x4
def Reg.lanRingCable : Nat := 0x86000 + 0x8
def Reg.lanRingStatus : Nat := 0x86000 + 0xc
def Reg.lanRingLoop : Nat := 0x86000 + 0x10
def Reg.lanRingTrig : Nat := 0x86000 + 0x14
def Reg.lanRingMark : Nat := 0x86000 + 0x18
def Reg.lanRingMarkArg : Nat := 0x86000 + 0x1c
def Reg.lanRingMarkDiff : Nat := 0x86000 + 0x20
def Reg.lanRingBadfrm : Nat := 0x86000 + 0x24
def Reg.lanRingCellTx : Nat := 0x86000 + 0x28
def Reg.lanRingCellRx : Nat := 0x86000 + 0x2c
def Reg.sptCtl (n : Nat) : Nat := 0x100000 + 0x100 * n
def Reg.sptStatus (n : Nat) : Nat := 0x100000 + 0x100 * n + 0x4
def Reg.sptBind (n : Nat) : Nat := 0x100000 + 0x100 * n + 0x8
def Reg.sptBind2 (n : Nat) : Nat := 0x100000 + 0x100 * n + 0xc
def Reg.sptEncap (n : Nat) : Nat := 0x100000 + 0x100 * n + 0x10
def Reg.sptUdp (n : Nat) : Nat := 0x100000 + 0x100 * n + 0x14
def Reg.sptDstIp (n k : Nat) : Nat := 0x100000 + 0x100 * n + 0x18 + 4 * k
def Reg.sptSrcIp (n k : Nat) : Nat := 0x100000 + 0x100 * n + 0x28 + 4 * k
def Reg.sptDstMacLo (n : Nat) : Nat := 0x100000 + 0x100 * n + 0x38
def Reg.sptDstMacHi (n : Nat) : Nat := 0x100000 + 0x100 * n + 0x3c
def Reg.sptRtp (n : Nat) : Nat := 0x100000 + 0x100 * n + 0x40
def Reg.sptSsrc (n : Nat) : Nat := 0x100000 + 0x100 * n + 0x44
def Reg.sptSeq (n : Nat) : Nat := 0x100000 + 0x100 * n + 0x48
def Reg.sptTs (n : Nat) : Nat := 0x100000 + 0x100 * n + 0x4c
def Reg.sptTsRate (n : Nat) : Nat := 0x100000 + 0x100 * n + 0x50
def Reg.spt2110 (n : Nat) : Nat := 0x100000 + 0x100 * n + 0x54
def Reg.sptRingHr (n : Nat) : Nat := 0x100000 + 0x100 * n + 0x58
def Reg.sptHrBaseLo (n : Nat) : Nat := 0x100000 + 0x100 * n + 0x5c
def Reg.sptHrBaseHi (n : Nat) : Nat := 0x100000 + 0x100 * n + 0x60
def Reg.sptHrWr (n : Nat) : Nat := 0x100000 + 0x100 * n + 0x64
def Reg.sptHrRd (n : Nat) : Nat := 0x100000 + 0x100 * n + 0x68
def Reg.sptPolRate (n : Nat) : Nat := 0x100000 + 0x100 * n + 0x6c
def Reg.sptPolBurst (n : Nat) : Nat := 0x100000 + 0x100 * n + 0x70
def Reg.sptMerge (n : Nat) : Nat := 0x100000 + 0x100 * n + 0x74
def Reg.schPortCtl (n : Nat) : Nat := 0x100000 + 0x100 * n + 0x80
def Reg.schIdleKbps (n : Nat) : Nat := 0x100000 + 0x100 * n + 0x84
def Reg.schHiCredit (n : Nat) : Nat := 0x100000 + 0x100 * n + 0x88
def Reg.schCredit (n : Nat) : Nat := 0x100000 + 0x100 * n + 0x8c
def Reg.sptQDepth (n : Nat) : Nat := 0x100000 + 0x100 * n + 0x90
def Reg.sptQDelay (n : Nat) : Nat := 0x100000 + 0x100 * n + 0x94
def Reg.sptQMaxDepth (n : Nat) : Nat := 0x100000 + 0x100 * n + 0x98
def Reg.sptQMaxDelay (n : Nat) : Nat := 0x100000 + 0x100 * n + 0x9c
def Reg.sptImpCtl (n : Nat) : Nat := 0x100000 + 0x100 * n + 0xa0
def Reg.sptImpProb0 (n : Nat) : Nat := 0x100000 + 0x100 * n + 0xa4
def Reg.sptImpProb1 (n : Nat) : Nat := 0x100000 + 0x100 * n + 0xa8
def Reg.sptImpSeed (n : Nat) : Nat := 0x100000 + 0x100 * n + 0xac
def Reg.sptImpTsOfs (n : Nat) : Nat := 0x100000 + 0x100 * n + 0xb0
def Reg.sptImpPcrOfs (n : Nat) : Nat := 0x100000 + 0x100 * n + 0xb4
def Reg.sptImpCnt0 (n : Nat) : Nat := 0x100000 + 0x100 * n + 0xb8
def Reg.sptImpCnt1 (n : Nat) : Nat := 0x100000 + 0x100 * n + 0xbc
def Reg.sptPktsLo (n : Nat) : Nat := 0x100000 + 0x100 * n + 0xc0
def Reg.sptPktsHi (n : Nat) : Nat := 0x100000 + 0x100 * n + 0xc4
def Reg.sptBytesLo (n : Nat) : Nat := 0x100000 + 0x100 * n + 0xc8
def Reg.sptBytesHi (n : Nat) : Nat := 0x100000 + 0x100 * n + 0xcc
def Reg.sptDropPol (n : Nat) : Nat := 0x100000 + 0x100 * n + 0xd0
def Reg.sptDropPool (n : Nat) : Nat := 0x100000 + 0x100 * n + 0xd4
def Reg.sptDropOther (n : Nat) : Nat := 0x100000 + 0x100 * n + 0xd8
def Reg.sptMergeDup (n : Nat) : Nat := 0x100000 + 0x100 * n + 0xdc
def Reg.sptLoss (n : Nat) : Nat := 0x100000 + 0x100 * n + 0xe0
def Reg.sptCsumBad (n : Nat) : Nat := 0x100000 + 0x100 * n + 0xe4
def Reg.schCreditOnChange : Nat := 0x140000
def Reg.schGrpPend (g : Nat) : Nat := 0x140000 + 0x100 + 4 * g
def Reg.schMacAddrLo (t : Nat) : Nat := 0x141000 + 0x40 * t
def Reg.schMacAddrHi (t : Nat) : Nat := 0x141000 + 0x40 * t + 0x4
def Reg.schMacCfg (t : Nat) : Nat := 0x141000 + 0x40 * t + 0x8
def Reg.schMacUnmatched (t : Nat) : Nat := 0x141000 + 0x40 * t + 0xc
def Reg.schMacRate (t : Nat) : Nat := 0x141000 + 0x40 * t + 0x10
def Reg.rgcStatus (r : Nat) : Nat := 0x400000 + 0x40000 * r
def Reg.rgcVote (r : Nat) : Nat := 0x400000 + 0x40000 * r + 0x4
def Reg.maStatus (r : Nat) : Nat := 0x400000 + 0x40000 * r + 0x4000
def Reg.maGrantCnt (r : Nat) : Nat := 0x400000 + 0x40000 * r + 0x4004
def Reg.blkStatus (r b : Nat) : Nat := 0x410000 + 0x40000 * r + 0x4000 * b
def Reg.blkCellRole (r b : Nat) : Nat := 0x410000 + 0x40000 * r + 0x4000 * b + 0x4
def Reg.blkSwitchCnt (r b : Nat) : Nat := 0x410000 + 0x40000 * r + 0x4000 * b + 0x8
def Reg.blkSlot (r b t : Nat) : Nat := 0x410000 + 0x40000 * r + 0x4000 * b + 0x10 + 4 * t
def Reg.ropeStatus (r b q : Nat) : Nat := 0x410000 + 0x40000 * r + 0x4000 * b + 0x40 + 4 * q
def Reg.seqStatus (r b : Nat) : Nat := 0x410000 + 0x40000 * r + 0x4000 * b + 0x200
def Reg.seqVersion (r b : Nat) : Nat := 0x410000 + 0x40000 * r + 0x4000 * b + 0x204
def Reg.seqPatch (r b : Nat) : Nat := 0x410000 + 0x40000 * r + 0x4000 * b + 0x208
def Reg.seqPatchCrc (r b : Nat) : Nat := 0x410000 + 0x40000 * r + 0x4000 * b + 0x20c
def Reg.seqEcc (r b : Nat) : Nat := 0x410000 + 0x40000 * r + 0x4000 * b + 0x210
def Reg.seqResume (r b i : Nat) : Nat := 0x410000 + 0x40000 * r + 0x4000 * b + 0x220 + 4 * i
def Reg.dqCtl (r b q : Nat) : Nat := 0x410400 + 0x40000 * r + 0x4000 * b + 0x40 * q
def Reg.dqStatus (r b q : Nat) : Nat := 0x410400 + 0x40000 * r + 0x4000 * b + 0x40 * q + 0x4
def Reg.dqHiwater (r b q : Nat) : Nat := 0x410400 + 0x40000 * r + 0x4000 * b + 0x40 * q + 0x8
def Reg.dqResetCnt (r b q : Nat) : Nat := 0x410400 + 0x40000 * r + 0x4000 * b + 0x40 * q + 0xc
def Reg.dqStallCnt (r b q : Nat) : Nat := 0x410400 + 0x40000 * r + 0x4000 * b + 0x40 * q + 0x10
def Reg.dqTokens (r b q : Nat) : Nat := 0x410400 + 0x40000 * r + 0x4000 * b + 0x40 * q + 0x14
def Reg.pipCtl (p : Nat) : Nat := 0x800000 + 0x1000 * p
def Reg.pipStatus (p : Nat) : Nat := 0x800000 + 0x1000 * p + 0x4
def Reg.pipRefuse (p : Nat) : Nat := 0x800000 + 0x1000 * p + 0x8
def Reg.pipLatency (p : Nat) : Nat := 0x800000 + 0x1000 * p + 0xc
def Reg.pipShadowPending (p : Nat) : Nat := 0x800000 + 0x1000 * p + 0x10
def Reg.pipHandover (p : Nat) : Nat := 0x800000 + 0x1000 * p + 0x14
def Reg.pipPicCnt (p : Nat) : Nat := 0x800000 + 0x1000 * p + 0x18
def Reg.pipRecCtl (p : Nat) : Nat := 0x800000 + 0x1000 * p + 0x20
def Reg.pipRecBaseLo (p : Nat) : Nat := 0x800000 + 0x1000 * p + 0x24
def Reg.pipRecBaseHi (p : Nat) : Nat := 0x800000 + 0x1000 * p + 0x28
def Reg.pipRecWr (p : Nat) : Nat := 0x800000 + 0x1000 * p + 0x2c
def Reg.pipRecRd (p : Nat) : Nat := 0x800000 + 0x1000 * p + 0x30
def Reg.pipRecDrop (p : Nat) : Nat := 0x800000 + 0x1000 * p + 0x34
def Reg.pipBudget (p : Nat) : Nat := 0x800000 + 0x1000 * p + 0x40
def Reg.pipBudgetStat (p : Nat) : Nat := 0x800000 + 0x1000 * p + 0x44
def Reg.pipOutPool (p : Nat) : Nat := 0x800000 + 0x1000 * p + 0x48
def Reg.pipFault (p : Nat) : Nat := 0x800000 + 0x1000 * p + 0x50
def Reg.decStatus (p : Nat) : Nat := 0x800000 + 0x1000 * p + 0x80
def Reg.decEvtCnt (p : Nat) : Nat := 0x800000 + 0x1000 * p + 0x84
def Reg.decConcealCnt (p : Nat) : Nat := 0x800000 + 0x1000 * p + 0x88
def Reg.decMissingCnt (p : Nat) : Nat := 0x800000 + 0x1000 * p + 0x8c
def Reg.decLateBytes (p : Nat) : Nat := 0x800000 + 0x1000 * p + 0x90
def Reg.decLastEvt (p : Nat) : Nat := 0x800000 + 0x1000 * p + 0x94
def Reg.encCodec (base : Nat) : Nat := base
def Reg.encSize (base : Nat) : Nat := base + 0x4
def Reg.encPart (base : Nat) : Nat := base + 0x8
def Reg.encGop (base : Nat) : Nat := base + 0xc
def Reg.encSearch (base : Nat) : Nat := base + 0x10
def Reg.encTools (base : Nat) : Nat := base + 0x14
def Reg.encQuant (base : Nat) : Nat := base + 0x18
def Reg.encSrc (base : Nat) : Nat := base + 0x1c
def Reg.impSeed (base : Nat) : Nat := base + 0x20
def Reg.impSlotCtl (base t : Nat) : Nat := base + 0x40 + 8 * t
def Reg.impSlotArg (base t : Nat) : Nat := base + 0x44 + 8 * t
def Reg.decCodec (base : Nat) : Nat := base
def Reg.decSize (base : Nat) : Nat := base + 0x4
def Reg.decOut (base : Nat) : Nat := base + 0x8
def Reg.decConceal (base : Nat) : Nat := base + 0xc
def Reg.decTrace (base : Nat) : Nat := base + 0x10
def Reg.rcCtl (base : Nat) : Nat := base
def Reg.rcRate (base : Nat) : Nat := base + 0x4
def Reg.rcMaxrate (base : Nat) : Nat := base + 0x8
def Reg.rcCpb (base : Nat) : Nat := base + 0xc
def Reg.rcQp (base : Nat) : Nat := base + 0x10
def Reg.rcWeight (base : Nat) : Nat := base + 0x14
def Reg.rcStress (base : Nat) : Nat := base + 0x18
def Reg.rcCurQp (base : Nat) : Nat := base + 0x40
def Reg.rcFullness (base : Nat) : Nat := base + 0x44
def Reg.rcCarry (base : Nat) : Nat := base + 0x48
def Reg.rcStatus (base : Nat) : Nat := base + 0x4c
def Reg.roiRectX (base n : Nat) : Nat := base + 8 * n
def Reg.roiRectY (base n : Nat) : Nat := base + 0x4 + 8 * n
def Reg.roiMapCtl (base : Nat) : Nat := base + 0x80
def Reg.roiMapBaseLo (base : Nat) : Nat := base + 0x84
def Reg.roiMapBaseHi (base : Nat) : Nat := base + 0x88
def Reg.fltStatus (u : Nat) : Nat := u
def Reg.fltCtl (u : Nat) : Nat := u + 0x4
def Reg.fltUnack (u : Nat) : Nat := u + 0x8
def Reg.fltAck (u : Nat) : Nat := u + 0xc
def Reg.fltInject (u : Nat) : Nat := u + 0x10
def Reg.fltEvtCnt (u : Nat) : Nat := u + 0x14
def Reg.fltInjCnt (u : Nat) : Nat := u + 0x18
def Reg.fltCeCnt (u : Nat) : Nat := u + 0x1c
def Reg.fltHistLo (u i : Nat) : Nat := u + 0x40 + 8 * i
def Reg.fltHistHi (u i : Nat) : Nat := u + 0x44 + 8 * i
def Reg.fltSafeCause (u : Nat) : Nat := u + 0x20
def Reg.fltNowLo (u : Nat) : Nat := u + 0x28
def Reg.fltNowHi (u : Nat) : Nat := u + 0x2c
def Reg.cxlStatus : Nat := 0xD10000
def Reg.cxlHdmMap (k : Nat) : Nat := 0xD10000 + 0x4 + 4 * k
def Reg.cxlPoisonCnt : Nat := 0xD10000 + 0x24
def Reg.cxlHdmOob : Nat := 0xD10000 + 0x28

/-- One row of a window's map: `count` instances of a register, `stride` apart from `base`. -/
structure RegRow where
  base : Nat
  stride : Nat
  count : Nat
  name : RegName
  deriving DecidableEq, Repr

/-- The row that holds offset `o` of a window, if any: offsets of no row are reserved (R534, R539). -/
def regRowAt (o : Nat) : List RegRow → Option RegName
  | [] => none
  | r :: rs =>
    if r.base ≤ o ∧ o < r.base + r.stride * r.count ∧ (o - r.base) % r.stride = 0 then some r.name else regRowAt o rs

/-- CHIP window. -/
def rowsChip : List RegRow := [
  ⟨0x0, 4, 1, .chipId⟩,
  ⟨0x4, 4, 1, .chipMode⟩,
  ⟨0x8, 4, 1, .chipResetCause⟩,
  ⟨0xc, 4, 1, .chipForce⟩,
  ⟨0x10, 4, 1, .chipKey⟩,
  ⟨0x14, 4, 1, .chipKeyState⟩,
  ⟨0x18, 4, 1, .chipTmr⟩,
  ⟨0x100, 4, 1, .cmdOp⟩,
  ⟨0x104, 4, 8, .cmdArg⟩,
  ⟨0x124, 4, 1, .cmdStatus⟩,
  ⟨0x128, 4, 1, .cmdAbort⟩,
  ⟨0x12c, 4, 1, .cmdRejectCnt⟩,
  ⟨0x130, 4, 1, .cmdProgress⟩,
  ⟨0x140, 4, 4, .cmdOut⟩]

/-- An access page (16 of them, 0x40 apart from CHIP window offset 0x1000). -/
def rowsAccess : List RegRow := [
  ⟨0x0, 4, 1, .chipAccessErr⟩,
  ⟨0x4, 4, 1, .chipAccessAddr⟩,
  ⟨0x8, 4, 1, .chipOverrunAddr⟩,
  ⟨0xc, 4, 1, .chipAccessCnt⟩]

/-- A fault unit (R584): the registers every unit has. -/
def rowsFaultUnit : List RegRow := [
  ⟨0x0, 4, 1, .fltStatus⟩,
  ⟨0x4, 4, 1, .fltCtl⟩,
  ⟨0x8, 4, 1, .fltUnack⟩,
  ⟨0xc, 4, 1, .fltAck⟩,
  ⟨0x10, 4, 1, .fltInject⟩,
  ⟨0x14, 4, 1, .fltEvtCnt⟩,
  ⟨0x18, 4, 1, .fltInjCnt⟩,
  ⟨0x1c, 4, 1, .fltCeCnt⟩,
  ⟨0x40, 8, 8, .fltHistLo⟩,
  ⟨0x44, 8, 8, .fltHistHi⟩]

/-- The registers of the chip fault unit alone. -/
def rowsFaultChip : List RegRow := [
  ⟨0x20, 4, 1, .fltSafeCause⟩,
  ⟨0x28, 4, 1, .fltNowLo⟩,
  ⟨0x2c, 4, 1, .fltNowHi⟩]

/-- RCK window. -/
def rowsRck : List RegRow := [
  ⟨0x0, 4, 1, .rckCtl⟩,
  ⟨0x4, 4, 1, .rckStatus⟩,
  ⟨0x8, 4, 1, .rckSlew⟩,
  ⟨0xc, 4, 1, .rckPhaseErr⟩,
  ⟨0x40, 4, 1, .rckSchedHost⟩,
  ⟨0x44, 4, 1, .rckTrigCtl⟩,
  ⟨0x48, 8, 4, .rckTrigPosLo⟩,
  ⟨0x4c, 8, 4, .rckTrigPosHi⟩]

/-- The registers of one raster domain. -/
def rowsRckDom : List RegRow := [
  ⟨0x0, 4, 1, .rckDomCtl⟩,
  ⟨0x4, 4, 1, .rckDomRate⟩,
  ⟨0x8, 4, 1, .rckDomGeom⟩,
  ⟨0xc, 4, 1, .rckDomActive⟩,
  ⟨0x10, 4, 1, .rckDomField⟩,
  ⟨0x14, 4, 1, .rckDomOfs⟩,
  ⟨0x18, 4, 1, .rckDomPosLo⟩,
  ⟨0x1c, 4, 1, .rckDomPosHi⟩,
  ⟨0x20, 4, 1, .rckDomSched⟩,
  ⟨0x24, 4, 1, .rckDomLate⟩]

/-- CFG and GLV window. -/
def rowsCfg : List RegRow := [
  ⟨0x0, 4, 1, .cfgStatus⟩,
  ⟨0x4, 4, 1, .cfgRefuse⟩,
  ⟨0x8, 4, 1, .cfgRefuseObj⟩,
  ⟨0x10, 4, 1, .cfgCompIdLo⟩,
  ⟨0x14, 4, 1, .cfgCompIdHi⟩,
  ⟨0x18, 4, 1, .cfgVsVersion⟩,
  ⟨0x100, 8, 16, .cfgRgnCompIdLo⟩,
  ⟨0x104, 8, 16, .cfgRgnCompIdHi⟩,
  ⟨0x400, 4, 1, .glvSummary⟩,
  ⟨0x408, 4, 1, .glvDeny⟩,
  ⟨0x40c, 4, 1, .glvDenyCnt⟩,
  ⟨0x800, 4, 256, .glvEntry⟩]

/-- ICU window. -/
def rowsIcu : List RegRow := [
  ⟨0x0, 4, 1, .icuStatus⟩,
  ⟨0x4, 4, 1, .icuFallbackCnt⟩,
  ⟨0x8, 4, 1, .icuWakeCnt⟩,
  ⟨0x400, 4, 8, .icuExtCtl⟩,
  ⟨0x4000, 4, 4096, .icuSrcRoute⟩,
  ⟨0x8000, 4, 4096, .icuSrcStat⟩,
  ⟨0xc000, 4, 3968, .icuVecHold⟩]

/-- One ICU page. -/
def rowsIcuPage : List RegRow := [
  ⟨0x0, 4, 1, .icuAck⟩,
  ⟨0x4, 4, 1, .icuNext⟩,
  ⟨0x8, 4, 1, .icuNextVec⟩]

/-- BCM window. -/
def rowsBcm : List RegRow := [
  ⟨0x0, 4, 1, .bcmStatus⟩,
  ⟨0x4, 4, 1, .bcmPowerCap⟩,
  ⟨0x8, 4, 1, .bcmBmcCap⟩,
  ⟨0xc, 4, 1, .bcmPower⟩,
  ⟨0x10, 4, 1, .bcmThermCtl⟩,
  ⟨0x14, 4, 1, .bcmTempMax⟩,
  ⟨0x18, 4, 1, .bcmRegionOff⟩,
  ⟨0x1c, 4, 1, .bcmRegionDvfs⟩,
  ⟨0x20, 4, 1, .bcmShedCnt⟩,
  ⟨0x24, 4, 1, .bcmTripCtl⟩,
  ⟨0x30, 4, 1, .bcmFlashCtl⟩,
  ⟨0x34, 4, 1, .bcmFwVersion⟩,
  ⟨0x40, 4, 1, .bcmLogIdx⟩,
  ⟨0x44, 4, 1, .bcmLogWr⟩,
  ⟨0x48, 4, 1, .bcmLogStatus⟩,
  ⟨0x60, 4, 8, .bcmLogData⟩,
  ⟨0xc0, 4, 8, .bcmBoard⟩,
  ⟨0x100, 4, 1, .bcmPtpCtl⟩,
  ⟨0x104, 4, 4, .bcmPtpIp⟩,
  ⟨0x114, 4, 1, .bcmPtpStatus⟩,
  ⟨0x118, 4, 1, .bcmPtpAdj⟩,
  ⟨0x120, 4, 8, .bcmPtpTs⟩,
  ⟨0x400, 4, 64, .bcmSensor⟩]

/-- One HBM controller. -/
def rowsMem : List RegRow := [
  ⟨0x0, 4, 1, .memStatus⟩,
  ⟨0x4, 4, 1, .memCtl⟩,
  ⟨0x8, 4, 1, .memEccCtl⟩,
  ⟨0xc, 4, 1, .memCeCnt⟩,
  ⟨0x10, 4, 1, .memUeCnt⟩,
  ⟨0x14, 4, 1, .memCeAddrLo⟩,
  ⟨0x18, 4, 1, .memCeAddrHi⟩,
  ⟨0x1c, 4, 1, .memUeAddrLo⟩,
  ⟨0x20, 4, 1, .memUeAddrHi⟩,
  ⟨0x24, 4, 1, .memScrubCtl⟩,
  ⟨0x28, 4, 1, .memScrubPos⟩,
  ⟨0x2c, 4, 1, .memRetrainCnt⟩,
  ⟨0x30, 4, 1, .memSrCnt⟩]

/-- One buffer pool. -/
def rowsPool : List RegRow := [
  ⟨0x0, 4, 1, .bpmPoolCtl⟩,
  ⟨0x4, 4, 1, .bpmPoolSize⟩,
  ⟨0x8, 4, 1, .bpmPoolWarn1⟩,
  ⟨0xc, 4, 1, .bpmPoolWarn2⟩,
  ⟨0x10, 4, 1, .bpmPoolStatus⟩,
  ⟨0x14, 4, 1, .bpmPoolHeld⟩,
  ⟨0x18, 4, 1, .bpmPoolFree⟩,
  ⟨0x1c, 4, 1, .bpmPoolFirst⟩,
  ⟨0x20, 4, 1, .bpmPoolMax⟩,
  ⟨0x24, 4, 1, .bpmPoolEmptyCnt⟩,
  ⟨0x28, 4, 1, .bpmPoolOverCnt⟩,
  ⟨0x2c, 4, 1, .bpmPoolErrCnt⟩,
  ⟨0x30, 4, 1, .bpmPoolLastErr⟩,
  ⟨0x34, 4, 1, .bpmPoolLastErrOwn⟩,
  ⟨0x38, 4, 1, .bpmPoolWaitCnt⟩]

/-- One host operation page. -/
def rowsHop : List RegRow := [
  ⟨0x0, 4, 1, .hopArg⟩,
  ⟨0x4, 4, 1, .hopCmd⟩,
  ⟨0x8, 4, 1, .hopResult⟩,
  ⟨0xc, 4, 1, .hopAlloc⟩]

/-- One DMA channel. -/
def rowsDma : List RegRow := [
  ⟨0x0, 4, 1, .dmaCtl⟩,
  ⟨0x4, 4, 1, .dmaStatus⟩,
  ⟨0x8, 4, 1, .dmaRefuse⟩,
  ⟨0xc, 4, 1, .dmaDb⟩,
  ⟨0x10, 4, 1, .dmaHeadLo⟩,
  ⟨0x14, 4, 1, .dmaHeadHi⟩,
  ⟨0x18, 4, 1, .dmaCurLo⟩,
  ⟨0x1c, 4, 1, .dmaCurHi⟩,
  ⟨0x20, 4, 1, .dmaDoneLen⟩,
  ⟨0x24, 4, 1, .dmaDescCnt⟩,
  ⟨0x28, 4, 1, .dmaBytesLo⟩,
  ⟨0x2c, 4, 1, .dmaBytesHi⟩,
  ⟨0x30, 4, 1, .dmaWaitCnt⟩]

/-- One lane, but the SDI registers. -/
def rowsLane : List RegRow := [
  ⟨0x0, 4, 1, .lanLaneCtl⟩,
  ⟨0x4, 4, 1, .lanLaneStatus⟩,
  ⟨0x8, 4, 1, .lanTxFfe⟩,
  ⟨0xc, 4, 1, .lanRxEq⟩,
  ⟨0x10, 4, 1, .lanPrbs⟩,
  ⟨0x14, 4, 1, .lanPrbsErr⟩,
  ⟨0x18, 4, 1, .lanPrbsBitsLo⟩,
  ⟨0x1c, 4, 1, .lanPrbsBitsHi⟩,
  ⟨0x20, 4, 1, .lanLockLostCnt⟩]

/-- The registers of SDI lanes alone. -/
def rowsLaneSdi : List RegRow := [
  ⟨0x40, 4, 1, .lanSdiCtl⟩,
  ⟨0x44, 4, 1, .lanSdiPayload⟩,
  ⟨0x48, 4, 1, .lanSdiCrcCnt⟩]

/-- One MAC complex. -/
def rowsMac : List RegRow := [
  ⟨0x0, 4, 1, .lanMacCtl⟩,
  ⟨0x10, 4, 4, .lanMacPortStatus⟩,
  ⟨0x20, 8, 4, .lanMacPortFecCorr⟩,
  ⟨0x24, 8, 4, .lanMacPortFecUncorr⟩]

/-- The cascade ring. -/
def rowsRing : List RegRow := [
  ⟨0x0, 4, 1, .lanRingCtl⟩,
  ⟨0x4, 4, 1, .lanRingCells⟩,
  ⟨0x8, 4, 1, .lanRingCable⟩,
  ⟨0xc, 4, 1, .lanRingStatus⟩,
  ⟨0x10, 4, 1, .lanRingLoop⟩,
  ⟨0x14, 4, 1, .lanRingTrig⟩,
  ⟨0x18, 4, 1, .lanRingMark⟩,
  ⟨0x1c, 4, 1, .lanRingMarkArg⟩,
  ⟨0x20, 4, 1, .lanRingMarkDiff⟩,
  ⟨0x24, 4, 1, .lanRingBadfrm⟩,
  ⟨0x28, 4, 1, .lanRingCellTx⟩,
  ⟨0x2c, 4, 1, .lanRingCellRx⟩]

/-- One stream port. -/
def rowsSpt : List RegRow := [
  ⟨0x0, 4, 1, .sptCtl⟩,
  ⟨0x4, 4, 1, .sptStatus⟩,
  ⟨0x8, 4, 1, .sptBind⟩,
  ⟨0xc, 4, 1, .sptBind2⟩,
  ⟨0x10, 4, 1, .sptEncap⟩,
  ⟨0x14, 4, 1, .sptUdp⟩,
  ⟨0x18, 4, 4, .sptDstIp⟩,
  ⟨0x28, 4, 4, .sptSrcIp⟩,
  ⟨0x38, 4, 1, .sptDstMacLo⟩,
  ⟨0x3c, 4, 1, .sptDstMacHi⟩,
  ⟨0x40, 4, 1, .sptRtp⟩,
  ⟨0x44, 4, 1, .sptSsrc⟩,
  ⟨0x48, 4, 1, .sptSeq⟩,
  ⟨0x4c, 4, 1, .sptTs⟩,
  ⟨0x50, 4, 1, .sptTsRate⟩,
  ⟨0x54, 4, 1, .spt2110⟩,
  ⟨0x58, 4, 1, .sptRingHr⟩,
  ⟨0x5c, 4, 1, .sptHrBaseLo⟩,
  ⟨0x60, 4, 1, .sptHrBaseHi⟩,
  ⟨0x64, 4, 1, .sptHrWr⟩,
  ⟨0x68, 4, 1, .sptHrRd⟩,
  ⟨0x6c, 4, 1, .sptPolRate⟩,
  ⟨0x70, 4, 1, .sptPolBurst⟩,
  ⟨0x74, 4, 1, .sptMerge⟩,
  ⟨0x80, 4, 1, .schPortCtl⟩,
  ⟨0x84, 4, 1, .schIdleKbps⟩,
  ⟨0x88, 4, 1, .schHiCredit⟩,
  ⟨0x8c, 4, 1, .schCredit⟩,
  ⟨0x90, 4, 1, .sptQDepth⟩,
  ⟨0x94, 4, 1, .sptQDelay⟩,
  ⟨0x98, 4, 1, .sptQMaxDepth⟩,
  ⟨0x9c, 4, 1, .sptQMaxDelay⟩,
  ⟨0xa0, 4, 1, .sptImpCtl⟩,
  ⟨0xa4, 4, 1, .sptImpProb0⟩,
  ⟨0xa8, 4, 1, .sptImpProb1⟩,
  ⟨0xac, 4, 1, .sptImpSeed⟩,
  ⟨0xb0, 4, 1, .sptImpTsOfs⟩,
  ⟨0xb4, 4, 1, .sptImpPcrOfs⟩,
  ⟨0xb8, 4, 1, .sptImpCnt0⟩,
  ⟨0xbc, 4, 1, .sptImpCnt1⟩,
  ⟨0xc0, 4, 1, .sptPktsLo⟩,
  ⟨0xc4, 4, 1, .sptPktsHi⟩,
  ⟨0xc8, 4, 1, .sptBytesLo⟩,
  ⟨0xcc, 4, 1, .sptBytesHi⟩,
  ⟨0xd0, 4, 1, .sptDropPol⟩,
  ⟨0xd4, 4, 1, .sptDropPool⟩,
  ⟨0xd8, 4, 1, .sptDropOther⟩,
  ⟨0xdc, 4, 1, .sptMergeDup⟩,
  ⟨0xe0, 4, 1, .sptLoss⟩,
  ⟨0xe4, 4, 1, .sptCsumBad⟩]

/-- SCH window. -/
def rowsSch : List RegRow := [
  ⟨0x0, 4, 1, .schCreditOnChange⟩,
  ⟨0x100, 4, 64, .schGrpPend⟩]

/-- One MAC port scheduling target. -/
def rowsTarget : List RegRow := [
  ⟨0x0, 4, 1, .schMacAddrLo⟩,
  ⟨0x4, 4, 1, .schMacAddrHi⟩,
  ⟨0x8, 4, 1, .schMacCfg⟩,
  ⟨0xc, 4, 1, .schMacUnmatched⟩,
  ⟨0x10, 4, 1, .schMacRate⟩]

/-- A region window. -/
def rowsRegion : List RegRow := [
  ⟨0x0, 4, 1, .rgcStatus⟩,
  ⟨0x4, 4, 1, .rgcVote⟩,
  ⟨0x4000, 4, 1, .maStatus⟩,
  ⟨0x4004, 4, 1, .maGrantCnt⟩]

/-- A block window. -/
def rowsBlock : List RegRow := [
  ⟨0x0, 4, 1, .blkStatus⟩,
  ⟨0x4, 4, 1, .blkCellRole⟩,
  ⟨0x8, 4, 1, .blkSwitchCnt⟩,
  ⟨0x10, 4, 8, .blkSlot⟩,
  ⟨0x40, 4, 2, .ropeStatus⟩,
  ⟨0x200, 4, 1, .seqStatus⟩,
  ⟨0x204, 4, 1, .seqVersion⟩,
  ⟨0x208, 4, 1, .seqPatch⟩,
  ⟨0x20c, 4, 1, .seqPatchCrc⟩,
  ⟨0x210, 4, 1, .seqEcc⟩,
  ⟨0x220, 4, 8, .seqResume⟩]

/-- One decoupling queue. -/
def rowsDq : List RegRow := [
  ⟨0x0, 4, 1, .dqCtl⟩,
  ⟨0x4, 4, 1, .dqStatus⟩,
  ⟨0x8, 4, 1, .dqHiwater⟩,
  ⟨0xc, 4, 1, .dqResetCnt⟩,
  ⟨0x10, 4, 1, .dqStallCnt⟩,
  ⟨0x14, 4, 1, .dqTokens⟩]

/-- A pipeline window, but the parameter sets. -/
def rowsPip : List RegRow := [
  ⟨0x0, 4, 1, .pipCtl⟩,
  ⟨0x4, 4, 1, .pipStatus⟩,
  ⟨0x8, 4, 1, .pipRefuse⟩,
  ⟨0xc, 4, 1, .pipLatency⟩,
  ⟨0x10, 4, 1, .pipShadowPending⟩,
  ⟨0x14, 4, 1, .pipHandover⟩,
  ⟨0x18, 4, 1, .pipPicCnt⟩,
  ⟨0x20, 4, 1, .pipRecCtl⟩,
  ⟨0x24, 4, 1, .pipRecBaseLo⟩,
  ⟨0x28, 4, 1, .pipRecBaseHi⟩,
  ⟨0x2c, 4, 1, .pipRecWr⟩,
  ⟨0x30, 4, 1, .pipRecRd⟩,
  ⟨0x34, 4, 1, .pipRecDrop⟩,
  ⟨0x40, 4, 1, .pipBudget⟩,
  ⟨0x44, 4, 1, .pipBudgetStat⟩,
  ⟨0x48, 4, 1, .pipOutPool⟩,
  ⟨0x50, 4, 1, .pipFault⟩]

/-- The registers of decode pipelines alone. -/
def rowsPipDec : List RegRow := [
  ⟨0x80, 4, 1, .decStatus⟩,
  ⟨0x84, 4, 1, .decEvtCnt⟩,
  ⟨0x88, 4, 1, .decConcealCnt⟩,
  ⟨0x8c, 4, 1, .decMissingCnt⟩,
  ⟨0x90, 4, 1, .decLateBytes⟩,
  ⟨0x94, 4, 1, .decLastEvt⟩]

/-- The encode parameter set. -/
def rowsEncSet : List RegRow := [
  ⟨0x0, 4, 1, .encCodec⟩,
  ⟨0x4, 4, 1, .encSize⟩,
  ⟨0x8, 4, 1, .encPart⟩,
  ⟨0xc, 4, 1, .encGop⟩,
  ⟨0x10, 4, 1, .encSearch⟩,
  ⟨0x14, 4, 1, .encTools⟩,
  ⟨0x18, 4, 1, .encQuant⟩,
  ⟨0x1c, 4, 1, .encSrc⟩,
  ⟨0x20, 4, 1, .impSeed⟩,
  ⟨0x40, 8, 8, .impSlotCtl⟩,
  ⟨0x44, 8, 8, .impSlotArg⟩]

/-- The decode parameter set. -/
def rowsDecSet : List RegRow := [
  ⟨0x0, 4, 1, .decCodec⟩,
  ⟨0x4, 4, 1, .decSize⟩,
  ⟨0x8, 4, 1, .decOut⟩,
  ⟨0xc, 4, 1, .decConceal⟩,
  ⟨0x10, 4, 1, .decTrace⟩]

/-- The rate-control set: the fields that have a shadow. -/
def rowsRcSet : List RegRow := [
  ⟨0x0, 4, 1, .rcCtl⟩,
  ⟨0x4, 4, 1, .rcRate⟩,
  ⟨0x8, 4, 1, .rcMaxrate⟩,
  ⟨0xc, 4, 1, .rcCpb⟩,
  ⟨0x10, 4, 1, .rcQp⟩,
  ⟨0x14, 4, 1, .rcWeight⟩,
  ⟨0x18, 4, 1, .rcStress⟩]

/-- The rate-control registers of the active set alone. -/
def rowsRcActive : List RegRow := [
  ⟨0x40, 4, 1, .rcCurQp⟩,
  ⟨0x44, 4, 1, .rcFullness⟩,
  ⟨0x48, 4, 1, .rcCarry⟩,
  ⟨0x4c, 4, 1, .rcStatus⟩]

/-- The region-of-interest set. -/
def rowsRoiSet : List RegRow := [
  ⟨0x0, 8, 16, .roiRectX⟩,
  ⟨0x4, 8, 16, .roiRectY⟩,
  ⟨0x80, 4, 1, .roiMapCtl⟩,
  ⟨0x84, 4, 1, .roiMapBaseLo⟩,
  ⟨0x88, 4, 1, .roiMapBaseHi⟩]

/-- CXL vendor registers. -/
def rowsCxl : List RegRow := [
  ⟨0x0, 4, 1, .cxlStatus⟩,
  ⟨0x4, 4, 8, .cxlHdmMap⟩,
  ⟨0x24, 4, 1, .cxlPoisonCnt⟩,
  ⟨0x28, 4, 1, .cxlHdmOob⟩]

/-- The register at BAR0 offset `off` with low two bits zero, by the windows of R534 and the layouts of the chapters.
`decodes` tells whether the pipeline of a pipeline window is a decoder: its parameter set then has the decode layout.
The second component is true in a shadow set. -/
def regAt (decodes : Nat → Bool) (off : Nat) : Option (RegName × Bool) :=
  let plain : Option RegName → Option (RegName × Bool) := Option.map (·, false)
  if off < 0x10000 then
    if off < 0x200 then plain (regRowAt off rowsChip)
    else if off < 0x300 then plain (regRowAt (off - 0x200) (rowsFaultUnit ++ rowsFaultChip))
    else if 0x1000 ≤ off ∧ off < 0x1400 then plain (regRowAt ((off - 0x1000) % 0x40) rowsAccess)
    else none
  else if off < 0x20000 then
    if off < 0x11000 then plain (regRowAt (off - 0x10000) rowsRck)
    else if off < 0x11400 then plain (regRowAt ((off - 0x11000) % 0x40) rowsRckDom)
    else none
  else if off < 0x30000 then plain (regRowAt (off - 0x20000) rowsCfg)
  else if off < 0x40000 then
    if 0x30100 ≤ off ∧ off < 0x30200 then plain (regRowAt ((off - 0x30100) % 0x10) rowsIcuPage)
    else plain (regRowAt (off - 0x30000) rowsIcu)
  else if off < 0x50000 then plain (regRowAt (off - 0x40000) rowsBcm)
  else if off < 0x60000 then plain (regRowAt ((off - 0x50000) % 0x4000) rowsMem)
  else if off < 0x70000 then
    if off < 0x61000 then plain (regRowAt ((off - 0x60000) % 0x100) rowsPool)
    else if off < 0x61200 then plain (regRowAt ((off - 0x61000) % 0x20) rowsHop)
    else none
  else if off < 0x80000 then
    if off < 0x74000 then plain (regRowAt ((off - 0x70000) % 0x100) rowsDma) else none
  else if off < 0x90000 then
    if off < 0x83800 then
      let l := (off - 0x80000) / 0x100
      plain (regRowAt ((off - 0x80000) % 0x100) (if 32 ≤ l ∧ l < 48 then rowsLane ++ rowsLaneSdi else rowsLane))
    else if 0x84000 ≤ off ∧ off < 0x84800 then plain (regRowAt ((off - 0x84000) % 0x100) rowsMac)
    else if 0x86000 ≤ off ∧ off < 0x86100 then plain (regRowAt (off - 0x86000) rowsRing)
    else none
  else if off < 0x100000 then none
  else if off < 0x140000 then plain (regRowAt ((off - 0x100000) % 0x100) rowsSpt)
  else if off < 0x200000 then
    if off < 0x141000 then plain (regRowAt (off - 0x140000) rowsSch)
    else if off < 0x141840 then plain (regRowAt ((off - 0x141000) % 0x40) rowsTarget)
    else none
  else if off < 0x400000 then none
  else if off < 0x800000 then
    let o := (off - 0x400000) % 0x40000
    if o < 0x100 then plain (regRowAt o rowsRegion)
    else if o < 0x200 then plain (regRowAt (o - 0x100) rowsFaultUnit)
    else if o < 0x10000 then plain (regRowAt o rowsRegion)
    else if o < 0x30000 then
      let k := (o - 0x10000) % 0x4000
      if 0x100 ≤ k ∧ k < 0x200 then plain (regRowAt (k - 0x100) rowsFaultUnit)
      else if 0x400 ≤ k ∧ k < 0x480 then plain (regRowAt ((k - 0x400) % 0x40) rowsDq)
      else plain (regRowAt k rowsBlock)
    else none
  else if off < 0xC00000 then
    let p := (off - 0x800000) / 0x1000
    let o := (off - 0x800000) % 0x1000
    let codec := if decodes p then rowsDecSet else rowsEncSet
    if o < 0x100 then plain (regRowAt o (if decodes p then rowsPip ++ rowsPipDec else rowsPip))
    else if o < 0x200 then plain (regRowAt (o - 0x100) codec)
    else if o < 0x300 then (regRowAt (o - 0x200) codec).map (·, true)
    else if o < 0x400 then plain (regRowAt (o - 0x300) (rowsRcSet ++ rowsRcActive))
    else if o < 0x500 then (regRowAt (o - 0x400) rowsRcSet).map (·, true)
    else if o < 0x600 then plain (regRowAt (o - 0x500) rowsRoiSet)
    else if o < 0x700 then (regRowAt (o - 0x600) rowsRoiSet).map (·, true)
    else none
  else if 0xD10000 ≤ off ∧ off < 0xD10100 then plain (regRowAt (off - 0xD10000) rowsCxl)
  else none

/-- The word whose fields hold their reset values. -/
def resetWord : List FieldRow → Nat
  | [] => 0
  | f :: fs => f.reset * 2 ^ f.fld.lo + resetWord fs

/-- What a register reads as before anything has written it: the reset values of its header table. Only registers that a
decode pipeline and an encode pipeline do not share depend on the layout, and they all reset to 0. -/
def regReset (off : Nat) : Word :=
  match regAt (fun _ => false) off with
  | some (n, _) => BitVec.ofNat 32 (resetWord (regFields n))
  | none => 0

end Sys2Proof.Machine
end

