-- ==== Sys2Proof/Machine/State.lean ====
section
/-! DEFINITION. The state of the device, as plain data: every register of BAR0 (in `regs`), the memories, the composition
in force, the queues and the work in progress of every unit, the pins, the commands that wait, and State.reset. -/

namespace Sys2Proof.Machine

open Sys2Proof

/-! ### The composition in force (chapter "The composition image") -/

/-- A pipeline entry of the composition (R113). `blocks` holds 8 x region + block for each valid PE_BLOCK. -/
structure PipeEntry where
  pipe : Nat
  domain : Nat
  home : Nat
  pers : Nat
  chroma : Nat
  maxW : Nat
  maxH : Nat
  ctuLog2 : Nat
  tileCols : Nat
  maxRefs : Nat
  weight : Nat
  flags : Nat
  subRows : Nat
  fsCarve : Nat
  srcCarve : Nat
  recCarve : Nat
  budget : Nat
  blocks : List Nat
  deriving DecidableEq, Repr

/-- A stream port entry (R118). -/
structure PortEntry where
  port : Nat
  kind : Nat
  egress : Bool
  bind : Nat
  pipe : Nat
  pool : Nat
  pair : Nat
  deriving DecidableEq, Repr

/-- A carve-out entry (R122); base and size in 2 MiB units. -/
structure Carve where
  kind : Nat
  map : Nat
  hdm : Nat
  region : Nat
  base : Nat
  size : Nat
  deriving DecidableEq, Repr

/-- A POOLS entry (R104). -/
structure PoolEntry where
  log2 : Nat
  count : Nat
  carve : Nat
  deriving DecidableEq, Repr

/-- The composition in force, but for the parts that registers hold (the domains, the schedule table, the block registers,
RCK_CTL): those live in the registers. -/
structure Comp where
  inForce : Bool
  pipes : List PipeEntry
  ports : List PortEntry
  carves : List Carve
  pools : List PoolEntry
  macModes : List Nat
  sdiOut : Nat
  ringEn : Bool
  ptpMac : Nat
  glove : List Word
  capW : Nat
  dvfsPoints : Nat
  compId : Nat
  patches : List Word
  deriving DecidableEq, Repr

/-! ### Outputs -/

/-- What the device hands to the world outside, oldest first: the model's own record of it (assumption 3). -/
inductive Output
  | msix (dom vec addr : Nat) (data : Word)
  | pme (dom : Nat)
  | aer (dom : Nat) (kind : Nat)
  | regRead (dom off : Nat) (value : Word)
  | smbus (bytes : List Nat)
  | smbusNack
  | flushRead (dom addr : Nat)
  | hostRead (dom addr size : Nat) (cache : Bool)
  | cacheWrite (addr : Nat) (bytes : List Byte)
  | cacheResolve (addr : Nat)
  | linkRetrain
  | configData (dom : Nat) (value : Option Nat)
  | hostWrite (dom addr : Nat) (bytes : List Byte) (poisoned : Bool)
  | memData (addr : Nat) (bytes : List Byte) (poisoned : Bool)
  | cxlData (addr : Nat) (bytes : List Byte) (poisoned : Bool)
  | snoopMiss
  | frame (port kind seq ts size : Nat) (marker sumOk : Bool) (bytes : List Byte)
  | ringFrame (header : List Byte) (cells : List (Nat × List Byte))
  | sdiLine (lane : Nat) (line : Nat) (black : Bool) (picture : Nat) (payload : Word) (samples : LineIn)
  | pins (name : Nat) (level : Bool)
  | picture (pipe : Nat) (picture : Nat)
  | ptpDelayReq
  | configRetry (dom : Nat)
  deriving DecidableEq, Repr

/-! ### The interrupt controller (chapter "Interrupts") -/

/-- A host vector: its MSI-X table entry (BAR4), its PBA bit, and the mesh cycle of its last message (R578). -/
structure Vec where
  addr : Nat
  data : Word
  mask : Bool
  pba : Bool
  sent : Option Nat
  deriving DecidableEq, Repr

/-- What a host vector holds before software writes it: the MSI-X reset values (mask set, message zero). -/
def Vec.init : Vec := ⟨0, 0, true, false, none⟩

/-- The last delivery of a source: the host vector its message went out on (0: none, else index + 1) and its count then. -/
structure Delivered where
  vecPlus1 : Nat
  count : Nat
  deriving DecidableEq, Repr

def Delivered.init : Delivered := ⟨0, 0⟩

/-- The configuration-space bits of one PCIe function on which rules of the spec rest, and whether it has signalled PME. -/
structure Fn where
  d0 : Bool
  pmeEn : Bool
  msixEn : Bool
  fnMask : Bool
  memSpace : Bool
  pme : Bool
  deriving DecidableEq, Repr

def Fn.init : Fn := ⟨true, false, false, false, false, false⟩

/-- A glitch filter: the level its last samples saw and how many in a row (R565). -/
structure Glitch where
  level : Bool
  run : Nat
  deriving DecidableEq, Repr

def Glitch.init : Glitch := ⟨false, 0⟩

structure Icu where
  vecs : SMap Vec
  delivered : SMap Delivered
  fns : SMap Fn
  glitch : SMap Glitch
  numVfs : Nat
  wakes : SMap Bool
  deriving DecidableEq, Repr

def Icu.init : Icu := ⟨[], [], [], [], 0, []⟩

/-! ### Power, Base Camp, start-up, the TAP (chapters "Start-up ...", "Base Camp ...", "Package ...") -/

/-- How far start-up has come (R146). -/
inductive Boot
  | off
  | loading
  | training
  | filled
  | failed
  | done
  deriving DecidableEq, Repr

/-- Supplies, resets and pins. `railGood` holds the rails inside their windows and `railSeen` the supervised ones; `modeReqAt` and `safeAt`
are the times of the last accepted mode request and of SAFE entry, in ps (R164). -/
structure Power where
  bypass : Bool
  aux : Bool
  adsel : Nat
  railEn : Bool
  railGood : List Rail
  railSeen : List Rail
  perst : Bool
  hold : Bool
  trip : Bool
  boot : Boot
  trained : List StackId
  trainFails : SMap Nat
  mittenN : Bool
  linkUp : Bool
  linkPcie : Bool
  memActive : Bool
  padsOff : Bool
  passThrough : Bool
  modeTarget : Nat
  modeReqAt : Nat
  safeAt : Option Nat
  deriving DecidableEq, Repr

def Power.init : Power :=
  ⟨true, false, 0, false, [], [], true, false, false, .off, [], [], false, false, false, false, false, false, 0, 0, none⟩

/-- A log entry (R648): its stamp in µs since auxiliary power-on, kind, argument and data. -/
structure LogEntry where
  stamp : Nat
  kind : Nat
  arg : Nat
  data0 : Nat
  data1 : Nat
  deriving DecidableEq, Repr

def LogEntry.init : LogEntry := ⟨0, 0, 0, 0, 0⟩

/-- A region action Base Camp holds until the region is idle (R638). -/
inductive RegionAct
  | gate
  | up
  | dvfs (point : Nat)
  deriving DecidableEq, Repr

/-- Base Camp: its log, the SMBus log index, the time since auxiliary power-on in ps; region actions that wait, the points last asked for and
those of the power cap, the regions lowered, those held by R610, whether steps of the cap or the thermal limit are in force; the times since which
T_max and the power are low enough, the start of the power window with the sum and count of its samples, dummy cycles and clock in MHz of flash
reads; and PTP's master, the times of the exchange and how many are known, who steers, the Announce interval in ns, the next sequence number of a
Delay_Req, and the mesh cycles of the last Announce and of the last write of BCM_PTP_ADJ;
since when sensors of rails have read outside their windows, and when RAIL_EN last rose (R672). -/
structure BaseCamp where
  log : SMap LogEntry
  smbIdx : Nat
  auxPs : Nat
  waiting : SMap (List RegionAct)
  dvfsAsked : SMap Nat
  capLevel : SMap Nat
  lowered : List Nat
  ivrHold : List Nat
  capStep : Bool
  thermStep : Bool
  coolSince : Option Nat
  lowSince : Option Nat
  windowAt : Nat
  powerSum : Int
  powerCount : Nat
  xspi : Nat × Nat
  ptpMaster : Nat
  ptpT1 : Nat
  ptpT2 : Nat
  ptpT3 : Nat
  ptpT4 : Nat
  ptpGot : Nat
  servoHost : Bool
  ptpInterval : Nat
  ptpSeq : Nat
  announceAt : Nat
  adjAt : Nat
  outSince : SMap Nat
  railAt : Nat
  deriving DecidableEq, Repr

def BaseCamp.init : BaseCamp :=
  ⟨[], 0, 0, [], [], [], [], [], false, false, none, none, 0, 0, 0, (20, 200), 0, 0, 0, 0, 0, 0, false, 250000000, 0, 0, 0, [], 0⟩

/-- The boundary-scan TAP: the instruction in force, the values the boundary cells drive, the values they captured, whether the
cells drive the pads, and whether the pads are at high impedance. -/
structure Tap where
  instr : TapInstr
  cells : SMap Bool
  captured : SMap Bool
  driving : Bool
  highZ : Bool
  deriving DecidableEq, Repr

def Tap.init : Tap := ⟨.bypass, [], [], false, false⟩

/-! ### The Command Port (R552 to R559) -/

/-- The resume record of an aborted maintenance operation: its code, its arguments and the units done (R558, R657). -/
structure Resume where
  op : Nat
  args : List Word
  done : Nat
  deriving DecidableEq, Repr

/-- The operation the Command Port runs: its copied arguments, whether its work is done and with what result, how far
RECOMPOSE_REGION has come (0 in steps 1 to 3, 1 in step 4, 2 in step 5, 3 past it), the prior state of a region it holds, the refusal the
checks of its image found, the domains whose new entries have not yet got SE_VALID, the blocks that stay RETIRED, the regions
under test with their prior states (R625), and the mesh cycle of the last completion. -/
structure Cmd where
  args : List Word
  finished : Bool
  result : Nat
  step : Nat
  prior : Nat
  flrAbort : Bool
  resume : Option Resume
  enableWait : List Nat
  fail : Option (Nat × Nat × Nat)
  left : List Nat
  bad : List Nat
  under : List (Nat × Nat)
  doneAt : Option Nat
  deriving DecidableEq, Repr

def Cmd.init : Cmd := ⟨[], false, 0, 0, 0, false, none, [], none, [], [], [], none⟩

/-! ### A composition image as parsed (chapter "The composition image") -/

/-- One section-table entry (R103). -/
structure Section where
  index : Nat
  type : Nat
  offset : Nat
  length : Nat
  deriving DecidableEq, Repr

/-- A schedule entry of a SCHEDULE run: its index and its four words (R71). -/
structure SchedEntry where
  index : Nat
  w0 : Word
  w1 : Word
  w2 : Word
  w3 : Word
  deriving DecidableEq, Repr

/-- The contents of an image, section by section. `carves` are in index order; `blocks` holds (region, personalities,
standby); `domains` the seven words of each domain; `patches` the words of patch memory and match registers, `patchCounts` the
micro words and nano words that records name and the enabled match registers. -/
structure Image where
  compId : Nat
  powerEst : Nat
  sections : List Section
  vsVersion : Word
  rckCtl : Word
  schedHost : Word
  domains : List (List Word)
  schedule : List SchedEntry
  blocks : List (Nat × Nat × Nat)
  pipes : List PipeEntry
  ports : List PortEntry
  carves : List Carve
  pools : List PoolEntry
  macModes : List Nat
  sdiOut : Nat
  ringEn : Bool
  ptpMac : Nat
  glove : List Word
  capW : Nat
  powerRsvd : Nat
  dvfsPoints : Nat
  patches : List Word
  patchCounts : List Nat
  deriving DecidableEq, Repr

/-! ### Raster time and the schedule -/

/-- One raster domain: the offset in force, an offset write not yet taken, the part of a time-base step not yet taken (in
time-base units), the frame being walked and where its walk began (eighth-samples), how far the two walks have come in
their ranges and the latest position they waited for, the triggered entries armed for this frame and for the next, and the
mesh cycle of the walker's last firing (+ 1; 0 none). -/
structure Raster where
  ofs : Int
  newOfs : Option Int
  untaken : Int
  stepping : Bool
  frame : Int
  walkFrom : Nat
  next : Nat
  due : Nat
  hostNext : Nat
  hostDue : Nat
  armed : List Nat
  armedNext : List Nat
  lastFire : Nat
  deriving DecidableEq, Repr

def Raster.init : Raster := ⟨0, none, 0, false, 0, 0, 0, 0, 0, 0, [], [], 0⟩

/-- An action a walker sent that has not reached its target (R74): its code, target, argument, the domain it
fired in and the mesh cycle. -/
structure Action where
  code : Nat
  target : Nat
  arg : Nat
  dom : Nat
  fired : Nat
  deriving DecidableEq, Repr

/-- The raster clock. `timeBase` counts 10^-21 s; rates are offsets in 10^-9: of the time base, of the source as last
tracked, and of the time base when the source was selected. `fresh` holds since the last measurement until a step; `err` is the last phase
error in 10^-21 s. `edges` has the time base at the last line 0 of the reference (0), REF_H edge (1), REF_V edge of field 1 (2), PPS edge (3),
10 MHz edge (4) and sound ring frame (5), and `edgeAt` the mesh cycle of the last REF_V edge (0) and of those from 3 on; `selAt` and `tenGood` are
those of the source's selection and of the last 10 MHz measurement within its limit, which counts `tenCount` edges from `tenFrom` on, `breaches` counts REF_V periods outside theirs, and `vEdge` is a
REF_V edge that no line 0 has followed (R61, R685). `lostAt` is the mesh cycle of the last loss, `outAt` that of the last phase error outside the lock
limit or of the source's selection (R60, R64), and `trigEnd` the domain and the `e` of R69 at which the pulse of a TRIG_OUT output ends. -/
structure Clock where
  running : Bool
  timeBase : Int
  rate : Int
  tracked : Option Int
  selRate : Int
  acquiring : Bool
  fresh : Bool
  domains : SMap Raster
  inFlight : List Action
  trigOut : SMap Nat
  edges : SMap Int
  edgeAt : SMap Nat
  selAt : Nat
  tenGood : Nat
  breaches : Nat
  vEdge : Option (Int × Bool)
  err : Int
  lostAt : Nat
  outAt : Nat
  tenFrom : Nat
  tenCount : Nat
  trigEnd : SMap (Nat × Int)
  deriving DecidableEq, Repr

def Clock.init : Clock := ⟨false, 0, 0, none, 0, false, false, [], [], [], [], [], 0, 0, 0, none, 0, 0, 0, 0, 0, []⟩

/-! ### Frame store memory -/

/-- Bytes with one canonical form: `cells` lists the bytes that are not 0, with addresses strictly rising; `zeroed` lists the
bytes that are 0 as ranges [lo, hi) in rising order, not empty and not touching. An address in neither has never been written
(R388). -/
structure Mem where
  cells : List Host.Cell
  zeroed : List (Nat × Nat)
  deriving DecidableEq, Repr

def Mem.init : Mem := ⟨[], []⟩

/-- A request in an HBM controller (R364): whether it writes, its word address, the bytes of a write and the first byte they go to,
and the mesh class. -/
structure MemReq where
  write : Bool
  word : Nat
  data : List Byte
  first : Nat
  cls : Nat
  poisoned : Bool
  deriving DecidableEq, Repr

/-- A bank: its queue, its open row (row + 1; 0 closed), refreshes postponed, and the memory clock of its last column command (R367). -/
structure Bank where
  queue : List MemReq
  openRow : Nat
  postponed : Nat
  usedAt : Nat
  deriving DecidableEq, Repr

def Bank.init : Bank := ⟨[], 0, 0, 0⟩

/-- A pseudo-channel: its banks and the rotating pointers of R366. -/
structure Pseudo where
  banks : SMap Bank
  lastCol : Nat
  lastAct : Nat
  lastRef : Nat
  deriving DecidableEq, Repr

def Pseudo.init : Pseudo := ⟨[], 47, 47, 47⟩

/-- A channel: its input buffer of (pseudo-channel, bank, row, request), and when it was last retrained with success and last retrained
by its controller's own doing (R372). -/
structure MemChannel where
  input : List (Nat × Nat × Nat × MemReq)
  goodAt : Nat
  autoAt : Nat
  deriving DecidableEq, Repr

def MemChannel.init : MemChannel := ⟨[], 0, 0⟩

/-- A controller: the channel whose retraining runs and those that wait (channel + 1; 0 none), and requests that wait for the exit from
self-refresh; when a request last reached it (R374), its bucket last leaked (R381) and its scrubber last took a page (R386). -/
structure MemCtl where
  training : Nat
  autoTraining : Bool
  waiting : List Nat
  srWaiting : List MemReq
  heardAt : Nat
  leakAt : Nat
  scrubAt : Nat
  deriving DecidableEq, Repr

def MemCtl.init : MemCtl := ⟨0, false, [], [], 0, 0, 0⟩

/-- A flit that asks for a mesh output (R33): the request it carries, whose class is the flit's, the mesh cycle of its injection and
the input it came by. -/
structure Flit where
  req : MemReq
  injected : Nat
  input : Nat
  deriving DecidableEq, Repr

/-- The mesh output towards an HBM controller (R33 to R35): the flits that ask for it, the credits of each class in use, the class
buffers at the input behind it, and the input of the last winner. -/
structure MeshOut where
  asking : List Flit
  used : SMap Nat
  buffers : SMap (List Flit)
  last : Nat
  deriving DecidableEq, Repr

def MeshOut.init : MeshOut := ⟨[], [], [], 31⟩

/-- A request at a region memory agent (R27 to R29, R393): its pipeline, or none for the region's own traffic (R395). -/
structure AgentReq where
  pipe : Option Nat
  flit : Flit
  deriving DecidableEq, Repr

/-- An access of the host by CXL.mem that waits for its stack: HDM decoder, offset, and the data of a write. -/
inductive HostMem
  | read (k o : Nat)
  | write (k o : Nat) (bytes : List Byte) (poisoned : Bool)
  deriving DecidableEq, Repr

/-- The frame store. `budgets` are those in force at each memory agent, `left` what each pipeline has left of its window, `belayWants` and
`wants` the units asked for in bulk that no window has granted, in Belay traffic and in other traffic; `meshCredits` is the
number of credits of a class on a link (assumption 158); `throttled` tells of a pipeline that the window has been counted in THROTTLE_CNT. -/
structure FrameStore where
  mem : Mem
  poison : SMap Bool
  syms : SMap Nat
  pseudos : SMap Pseudo
  channels : SMap MemChannel
  ctls : SMap MemCtl
  mesh : SMap MeshOut
  meshCredits : Nat
  agents : SMap (List AgentReq)
  budgets : SMap Nat
  left : SMap Nat
  belayWants : SMap Nat
  wants : SMap Nat
  throttled : SMap Bool
  hostWaiting : List HostMem
  deriving DecidableEq, Repr

def FrameStore.init : FrameStore := ⟨Mem.init, [], [], [], [], [], [], 8, [], [], [], [], [], [], []⟩

/-! ### Buffer pools and DMA -/

/-- A buffer state table entry (R403): state 0 FREE, 1 HELD, 2 RESERVE, the share count and the final owner. -/
structure Buf where
  state : Nat
  share : Nat
  owner : Nat
  deriving DecidableEq, Repr

def Buf.init : Buf := ⟨0, 0, 4095⟩

/-- A party that waits on a pool (R413, R416): an ALLOC, or a FREE that met SHARED_PENDING. -/
inductive PoolWait
  | alloc (owner : Nat) (pool : Nat)
  | free (owner : Nat) (buf : Nat)
  deriving DecidableEq, Repr

/-- The four operations on a held buffer (R415). -/
inductive BufOp
  | free
  | release
  | share
  | pass (newOwner : Nat)
  deriving DecidableEq, Repr

/-- What a requester asks of a pool: ALLOC by a unit or by a read of HOP_ALLOC, an operation on a buffer by a unit or by HOP_CMD, a write of
BPM_POOL_SIZE. -/
inductive PoolAct
  | alloc (owner : Nat) (waits live : Bool)
  | hostAlloc (dom : Nat)
  | buffer (owner : Nat) (op : BufOp) (buf : Nat)
  | hostBuffer (dom : Nat) (op : BufOp) (buf : Nat)
  | resize (size : Nat)
  deriving DecidableEq, Repr

/-- A request to a pool's arbiter, with the requester's place in the rotation (R407). -/
structure PoolAsk where
  line : Nat
  act : PoolAct
  deriving DecidableEq, Repr

/-- The arbiter of a pool (R407): the requests that wait, the place after the last winner's, and the mesh cycle after the last one in which
it served an operation (0: none). -/
structure PoolArb where
  waiting : List PoolAsk
  turn : Nat
  free : Nat
  deriving DecidableEq, Repr

def PoolArb.init : PoolArb := ⟨[], 0, 0⟩

/-- Buffers that join a pool that has grown, in their order, and the mesh cycle by which the last has joined (R417). -/
structure PoolGrow where
  joins : List Nat
  by_ : Nat
  deriving DecidableEq, Repr

def PoolGrow.init : PoolGrow := ⟨[], 0⟩

structure Pools where
  bufs : SMap Buf
  heads : SMap (List Nat)
  waits : List PoolWait
  askAt : SMap Nat
  arbs : SMap PoolArb
  grows : SMap PoolGrow
  deriving DecidableEq, Repr

def Pools.init : Pools := ⟨[], [], [], [], [], []⟩

/-- A DMA descriptor (R422), as its eight words. -/
structure Desc where
  w : List Word
  deriving DecidableEq, Repr

/-- What a channel is doing with its descriptor. -/
inductive ChanPhase
  | idle
  | reading
  | ready
  | moved
  deriving DecidableEq, Repr

/-- A DMA channel: its phase, the descriptor read, the bytes of it moved so far, the buffer TO_POOL took (+ 1; 0 none), the result so far, a
stop asked for, host traffic held while the link is down, whether the next enable restarts at DMA_CUR (R436), and the last host destination
written (+ 1; 0 none; R428). -/
structure Chan where
  phase : ChanPhase
  desc : Desc
  moved : Nat
  buf : Nat
  result : Nat
  stopping : Bool
  held : Bool
  restart : Bool
  lastHost : Nat
  waitAt : Nat
  deriving DecidableEq, Repr

def Chan.init : Chan := ⟨.idle, ⟨[]⟩, 0, 0, 0, false, false, false, 0, 0⟩

/-- The channel without a descriptor: what stays is the last host destination. -/
def Chan.fresh (x : Chan) : Chan := { Chan.init with lastHost := x.lastHost }

/-! ### Blocks, queues, regions (chapters "Cells, blocks, regions ...", "Rope pairs ...", "Fault detection ...") -/

/-- A reaction a block has still to take (R36, R584): the re-run of the row unit after a fault of a class, or the takeover
by the standby block. -/
inductive Reaction
  | rerun (cls unit : Nat)
  | takeover
  deriving DecidableEq, Repr

/-- An armed injection (R619), and the mesh cycle from which its delay counts: in a block the start of the row unit that runs. -/
structure Inj where
  level : Nat
  cls : Nat
  unit : Nat
  delay : Nat
  since : Option Nat
  deriving DecidableEq, Repr

/-- A request a block sequencer takes at its next cairn (R354). -/
inductive CairnReq
  | abort (cause : Nat)
  | disable (pipe : Nat)
  deriving DecidableEq, Repr

/-- A request that waits for a grant: its requester (cells 0 to 11, the sequencer or segment mover 12), or at an SRAM port its priority;
and for memory the byte address and the data of a write. -/
structure LocalWait where
  who : Nat
  addr : Nat
  data : Option (List Byte)
  deriving DecidableEq, Repr

/-- What gives one grant in a fabric cycle (R20, R21): the requests that wait, the requester next in turn, and whether the cycle's grant
has been given. -/
structure Arbiter where
  waiting : List LocalWait
  turn : Nat
  used : Bool
  deriving DecidableEq, Repr

def Arbiter.init : Arbiter := ⟨[], 0, false⟩

/-- A decoupling queue (R333 to R344): its tokens oldest first, its two pointers and their copies, the token segment, the arbiters of
its write and read sides, the row unit whose tokens it takes (pipeline, picture, row, column) with how many were made, the tokens
that passed the segment, in encode the row unit whose tokens another block writes to the segment with how many were made, and the row unit
whose last token the mover has brought. -/
structure Dq where
  tokens : List (BitVec 128)
  wr : Nat
  wrCopy : Nat
  rd : Nat
  rdCopy : Nat
  segment : List (BitVec 128)
  writeSide : Arbiter
  readSide : Arbiter
  unit : Option (Nat × Nat × Nat × Nat)
  made : Nat
  moved : Nat
  far : Option (Nat × Nat × Nat × Nat)
  farMade : Nat
  fed : Option (Nat × Nat × Nat × Nat)
  deriving DecidableEq, Repr

def Dq.init : Dq := ⟨[], 0, 0, 0, 0, [], Arbiter.init, Arbiter.init, none, 0, 0, none, 0, none⟩

/-- A Rope pair: its two engines in lockstep, and whether they have stopped (R330, R331). -/
structure Rope where
  first : Engine
  second : Engine
  stopped : Bool
  deriving DecidableEq, Repr

def Rope.init : Rope := ⟨default, default, false⟩

/-- A block's work: the row unit its cells run as (pipeline, picture index, row, tile column), reactions pending, the spare
that takes a faulted cell's role at the re-run (cell + 1; 0 none), the cell under test after a fault (cell + 1), whether the
spare's pass is done and the mesh cycle its pass began, whether the self-test of R608 runs, its sequencer requests, its queues, and the routine's argument,
progress, cycles and cairn index for a resume record. Then its memories: each cell's SRAM and each bank of the line store (R21) by byte,
with the arbiters of the two ports of each cell (2 * cell + port) and of each bank, and what the last granted read of each requester gave (a
cell's lanes; 12 the sequencer); its Rope pairs; the pictures started on it, in order (R25); the mesh cycle until which a slot switch
takes it (R24); which half of the line store holds the input lines (R595); its patch memory and match registers (R350); and how often its memories have lost their contents (R637). -/
structure Block where
  running : Option (Nat × Nat × Nat × Nat)
  reactions : List Reaction
  spareWas : Nat
  testing : Nat
  passDone : Bool
  passAt : Nat
  selfTest : Bool
  requests : List CairnReq
  queues : SMap Dq
  key : Nat
  progress : Nat
  cycles : Nat
  cairn : Nat
  sram : SMap (SMap (Option Byte))
  ports : SMap Arbiter
  lines : SMap (SMap (Option Byte))
  banks : SMap Arbiter
  lanes : SMap (List Byte)
  ropes : SMap Rope
  turn : List (Nat × Nat)
  readyAt : Nat
  half : Bool
  patch : List Word
  losses : Nat
  deriving DecidableEq, Repr

def Block.init : Block where
  running := none
  reactions := []
  spareWas := 0
  testing := 0
  passDone := false
  passAt := 0
  selfTest := false
  requests := []
  queues := []
  key := 0
  progress := 0
  cycles := 0
  cairn := 0
  sram := []
  ports := []
  lines := []
  banks := []
  lanes := []
  ropes := []
  turn := []
  readyAt := 0
  half := false
  patch := []
  losses := 0

/-- A CTU row of a picture in the rate controller (R264). -/
structure RowCtl where
  started : Bool
  floor : Bool
  alloc : Int
  cap : Int
  qp : Nat
  bits : Nat
  floored : Bool
  deriving DecidableEq, Repr

def RowCtl.init : RowCtl := ⟨false, false, 0, 0, 0, 0, false⟩

/-- A checkpoint (R329, R595): the row unit (pipeline, picture, row, column), the reference pictures in list order, the row's state in
the rate controller and the floor latch, the Rope pair's state, and the half of the line store with the input lines. -/
structure Ckpt where
  unit : Nat × Nat × Nat × Nat
  refs : List Nat
  row : RowCtl
  floorLatched : Bool
  engine : Engine
  half : Bool
  deriving DecidableEq, Repr

/-- A pipeline's state on a block while another slot runs (R24). -/
structure SlotSt where
  pipe : Nat
  lines : SMap (SMap (Option Byte))
  half : Bool
  deriving DecidableEq, Repr

/-- A region's own work: the core excluded (core + 1), the core resynchronising (core + 1), whether its gate waits in
BIVOUAC after a recomposition (R168), whether its picture work has stopped (R611), and the mesh cycle in which its power came up. Then what its REGION_MEM carve-out holds, each in two copies (R595): checkpoints by 2 * block +
copy, slot states by 2 * (8 * block + slot) + copy, and the region's copy of the patch image (R351). -/
structure RegionSt where
  excluded : Nat
  resync : Nat
  regateDue : Bool
  stopped : Bool
  upAt : Nat
  ckpts : SMap (Option Ckpt)
  slots : SMap (Option SlotSt)
  patch : List Word
  deriving DecidableEq, Repr

def RegionSt.init : RegionSt := ⟨0, 0, false, false, 0, [], [], []⟩

/-! ### Pipelines (chapters "Encoding", "Rate control ...", "Decoding ...") -/

/-- A capture picture (R194 to R196): the capture count it holds (+ 1; 0 none), its lines by number, each as the runs of
samples received (first sample, samples), the lines given up, whether its last line has come, the time base when the
frame began, and whether it is field 2 of a frame whose fields are captured apart. Samples are those of the input; the coded samples and the pyramid are computed from them. -/
structure CapPic where
  count : Nat
  lines : SMap (List (Nat × LineIn))
  gaveUp : List Nat
  whole : Bool
  time : Int
  field2 : Bool
  deriving DecidableEq, Repr

def CapPic.init : CapPic := ⟨0, [], [], false, 0, false⟩

/-- A row unit: not handed out (block 0), handed to block index + 1, complete; its re-runs, its bytes, its buffers and
the egress ports that hold them; the registers read at its start (R228); the reference
words (reference, word) that came back poisoned; its CTUs as coded, its bytes before impairment, and the places in its bytes at which units of the
stream start. -/
structure UnitSt where
  block : Nat
  done : Bool
  reruns : Nat
  bytes : List Byte
  bufs : List Nat
  holders : List Nat
  sets : SMap Word
  poisoned : List (Nat × Nat)
  choices : List Choice
  raw : List Byte
  starts : List Nat
  deriving DecidableEq, Repr

def UnitSt.init : UnitSt := ⟨0, false, 0, [], [], [], [], [], [], [], []⟩

/-- A started picture of a pipeline, encode or decode. `sets` are the active registers read at its PIC_START by offset in
the pipeline window; `flags` are the record's flag bits. `order` to `cause` serve a decoder: the place in output order, whether
it becomes a reference, the earlier pictures that stay references, TAINTED, the first reference, whether a substitute replaces
it, the reorder depth, whether its EMIT has begun and is done (an encoder has none), whether it is among the held pictures,
its CTUs, the bytes of the decoded picture, and the code that a substitute answers. `refs` are the reference pictures in list order,
`heads` the units of an encoded stream that come before the coded data and `rawHeads` those before impairment, `budgeted` whether its
budget is set, `partBits` the bits of each partition so far, `unitParts` the
partition of each row unit of a decoded picture, `crop` the cropped area's corner, `stream` how many coded pictures the decoder had with it,
`refSlots` its held references by slot or list index, `subRefs` the substitutes of the others, `fills` the values of its concealed CTUs (column, row),
`sentLines` the lines of it that EMITs have sent, `chroma`, `coded` and `bitDepth` its format and size before cropping, `planes` the picture as reconstructed, `freed` whether its chunks were freed at its RELEASE (R503), `srcTime` the time at which its input frame began (R488), `direct` whether its sets hold a value written directly since it started,
`irap` the last IRAP at it and `map` its delta map; `parts` is the number of the Rope pair of each partition, `engines` where its engines stood after its last complete unit. -/
structure Pic where
  idx : Nat
  kind : Nat
  layer : Nat
  field2 : Bool
  intra : Bool
  nref : Nat
  cap : Nat
  srcTime : Int
  picId : Nat
  sets : SMap Word
  headerBits : Nat
  rowActs : List Nat
  act : Nat
  target : Int
  targetOn : Bool
  ceiling : Option Int
  bMin : Int
  reserve : Bool
  stress : Bool
  qpPic : Nat
  floorLatched : Bool
  rows : SMap RowCtl
  units : SMap UnitSt
  unitsDone : Nat
  parts : SMap Nat
  engines : SMap Engine
  impMask : Nat
  impDraws : List (Nat × List Word)
  seedState : Word
  bytes : Nat
  bytesUnimp : Nat
  data : List Byte
  bits : Nat
  ctuIntra : Nat
  ctuSkip : Nat
  qpSum : Nat
  qpCount : Nat
  qpMin : Nat
  qpMax : Nat
  sseY : Nat
  sseC : Nat
  refs : List Nat
  heads : List StreamUnit
  rawHeads : List StreamUnit
  budgeted : Bool
  partBits : SMap Nat
  unitParts : List Nat
  crop : Nat × Nat
  stream : Nat
  refSlots : List (Nat × Nat)
  subRefs : List (Nat × Planes)
  fills : List (Nat × Nat × Planes)
  sentLines : Nat
  chroma : Nat
  coded : Nat × Nat
  bitDepth : Nat
  planes : Planes
  direct : Bool
  irap : Nat
  map : List (Option Nat)
  flags : Nat
  belayRuns : Nat
  throttled : Bool
  srcLines : Nat
  fullFired : Bool
  due : Nat
  missed : Bool
  freed : Bool
  complete : Bool
  cpb : Int
  doneFrame : Nat
  doneLine : Nat
  whole : Bool
  held : Nat
  late : Nat
  profile : Nat
  level : Nat
  width : Nat
  height : Nat
  events : Nat
  written : Nat
  supp : Nat
  concealed : Nat
  missing : Nat
  emitPic : Nat
  hash : Nat
  hashSei : Option HashIn
  mapReady : Bool
  shown : Bool
  bufs : List Nat
  rowCount : Nat
  tiles : Nat
  tileRows : Nat
  ctuLog2 : Nat
  nparts : Nat
  order : Nat
  refresh : Bool
  keep : List Nat
  tainted : Bool
  firstRef : Option Nat
  substituted : Bool
  depth : Nat
  emitBegun : Bool
  emitDone : Bool
  stored : Bool
  ctus : Nat
  size : Nat
  cause : Nat
  deriving DecidableEq, Repr

def Pic.init : Pic where
  idx := 0
  kind := 0
  layer := 0
  field2 := false
  intra := false
  nref := 0
  cap := 0
  srcTime := 0
  picId := 0
  sets := []
  headerBits := 0
  rowActs := []
  act := 0
  target := 0
  targetOn := false
  ceiling := none
  bMin := 0
  reserve := false
  stress := false
  qpPic := 0
  floorLatched := false
  rows := []
  units := []
  unitsDone := 0
  parts := []
  engines := []
  impMask := 0
  impDraws := []
  seedState := 0
  bytes := 0
  bytesUnimp := 0
  data := []
  bits := 0
  ctuIntra := 0
  ctuSkip := 0
  qpSum := 0
  qpCount := 0
  qpMin := 0
  qpMax := 0
  sseY := 0
  sseC := 0
  refs := []
  heads := []
  rawHeads := []
  budgeted := true
  partBits := []
  unitParts := []
  crop := (0, 0)
  stream := 0
  refSlots := []
  subRefs := []
  fills := []
  sentLines := 0
  chroma := 0
  coded := (0, 0)
  bitDepth := 8
  planes := default
  direct := false
  irap := 0
  map := []
  flags := 0
  belayRuns := 0
  throttled := false
  srcLines := 0
  fullFired := false
  due := 0
  missed := false
  freed := false
  complete := false
  cpb := 0
  doneFrame := 0
  doneLine := 0
  whole := true
  held := 0
  late := 0
  profile := 0xFF
  level := 0
  width := 0
  height := 0
  events := 0
  written := 0
  supp := 0
  concealed := 0
  missing := 0
  emitPic := 0
  hash := 0
  hashSei := none
  mapReady := true
  shown := true
  bufs := []
  rowCount := 0
  tiles := 1
  tileRows := 1
  ctuLog2 := 0
  nparts := 0
  order := 0
  refresh := false
  keep := []
  tainted := false
  firstRef := none
  substituted := false
  depth := 0
  emitBegun := false
  emitDone := false
  stored := false
  ctus := 0
  size := 0
  cause := 0

/-- Row units of a picture (R38): one for each CTU row of each tile column. -/
def Pic.unitCount (x : Pic) : Nat := x.rowCount * x.tiles

/-- A range of a pool buffer that holds coded bytes; `own` tells that the buffer goes back with it. -/
structure Seg where
  buf : Nat
  off : Nat
  len : Nat
  own : Bool
  deriving DecidableEq, Repr

/-- A coded picture that a decoder has begun to receive and no PIC_START has taken (R283 to R288): its pool buffers with the
bytes in each, whether its last byte has come, its RTP timestamp, and the losses reported in it. -/
structure CodedPic where
  parts : List Seg
  whole : Bool
  ts : Option Nat
  losses : List EventIn
  deriving DecidableEq, Repr

/-- A picture a decoder holds (R291): its index, its place in output order, whether it waits for output, whether it is a
reference, whether it is TAINTED, its bytes as emitted, its samples, the corner of its cropped area with its size, whether it is coded as a
field, its chroma format as StreamPic has it, and the DEC_OUT.FMT it is emitted in. -/
structure HeldPic where
  idx : Nat
  order : Nat
  waiting : Bool
  reference : Bool
  tainted : Bool
  size : Nat
  planes : Planes
  crop : Nat × Nat
  area : Nat × Nat
  field : Bool
  chroma : Nat
  fmt : Nat
  deriving DecidableEq, Repr

/-- A pipeline's state beside its registers. `latched` are the registers read at enable, by offset in the window; `irap` is the index
of the last IRAP. `hadIntra`, `hadInter`: a picture of the kind has completed since enable or
since a write to RC_CUR_QP (R259). `recon` are the reconstructed pictures since the last IRAP by index, `prevSource` the source of the
picture before; `stream` are the
coded pictures taken, `lastOut` the picture emitted last and `outBefore` the one before it; `subs` are the substitutes of missing references. -/
structure Pipe where
  latched : SMap Word
  irap : Nat
  draining : Bool
  next : Nat
  x : Word
  seedWritten : Bool
  activeWritten : Bool
  directInForce : Bool
  rcWritten : Bool
  handedOver : Bool
  hoRefused : Bool
  pics : List Pic
  caps : SMap CapPic
  capNext : Nat
  capArmed : Bool
  capCount : Nat
  capLive : Nat
  lastCap : Nat
  bIntra : Nat
  bInter : Nat
  actIntra : Nat
  actInter : Nat
  hadIntra : Bool
  hadInter : Bool
  sumD : Int
  lastCoded : Nat
  recSeq : Nat
  recGap : Bool
  recs : List (List Byte)
  mapPending : Bool
  map : List (Option Nat)
  coded : List CodedPic
  losses : List EventIn
  lateFor : Option (Nat × Option Nat)
  heldPics : List HeldPic
  lastEmit : Nat
  gapTaint : Bool
  sawRap : Bool
  resync : Bool
  rapRecorded : Bool
  discarded : Nat
  repeatNext : Bool
  subs : SMap Planes
  frameCoded : Bool
  lastSize : Nat
  reorderClipped : Bool
  recon : SMap Planes
  prevSource : Planes
  stream : List StreamIn
  lastOut : Option HeldPic
  outBefore : Option HeldPic
  deriving DecidableEq, Repr

def Pipe.init : Pipe where
  latched := []
  irap := 0
  draining := false
  next := 0
  x := 1
  seedWritten := false
  activeWritten := false
  directInForce := false
  rcWritten := false
  handedOver := false
  hoRefused := false
  pics := []
  caps := []
  capNext := 0
  capArmed := false
  capCount := 0
  capLive := 0
  lastCap := 0
  bIntra := 0
  bInter := 0
  actIntra := 0
  actInter := 0
  hadIntra := false
  hadInter := false
  sumD := 0
  lastCoded := 0
  recSeq := 0
  recGap := false
  recs := []
  mapPending := false
  map := []
  coded := []
  losses := []
  lateFor := none
  heldPics := []
  lastEmit := 0
  gapTaint := false
  sawRap := false
  resync := false
  rapRecorded := false
  discarded := 0
  repeatNext := false
  subs := []
  frameCoded := false
  lastSize := 0
  reorderClipped := false
  recon := []
  prevSource := default
  stream := []
  lastOut := none
  outBefore := none

/-! ### Lanes and the ring (chapter "Serial lanes and the cascade ring") -/

/-- Lanes whose forced recalibration runs, and the Ethernet ports (4m + j) enabled in the narrow form,
LAN_SDI_CTL of each enabled SDI lane as read at its enable, and when step 3 last began for the lanes that a lane heads (R449). -/
structure Lanes where
  recal : List Nat
  narrow : SMap Bool
  sdi : SMap Word
  since : SMap Nat
  deriving DecidableEq, Repr

def Lanes.init : Lanes := ⟨[], [], [], []⟩

/-- The cascade ring: its latched priority, identifier and owned cells, a change of ACTIVE not yet at a frame boundary, the last
FR_SEQ and the next one to send, headers lost in a row, whether a master has been seen, triggers raised for the next frame,
triggers to act on (bit, master time in ns), the frame returned to the master, marks waiting (domain, argument), marks taken
and marks sent (sender or slot, seconds, ns), cell sequences sent and received, whether UPSTREAM_CHG was told, the master time
last reckoned in ns, cells to send, and the time base when the device last originated a frame. -/
structure RingSt where
  pri : Nat
  id : Nat
  first : Nat
  count : Nat
  wanted : Option Bool
  lastSeq : Nat
  seqOut : Nat
  badRun : Nat
  masterSeen : Bool
  heardAt : Nat
  trigUp : BitVec 8
  trigDue : List (Nat × Nat)
  returned : Option RingFrame
  marks : List (Nat × Word)
  taken : List (Nat × Nat × Nat)
  sent : List (Nat × Nat × Nat)
  txSeq : SMap Nat
  rxSeq : SMap Nat
  told : Bool
  time : Option Nat
  cells : List RingCell
  sentT : Int
  deriving DecidableEq, Repr

def RingSt.init : RingSt :=
  ⟨0, 0, 0, 0, none, 0, 0, 0, false, 0, 0, [], none, [], [], [], [], [], false, none, [], 0⟩

/-! ### Stream ports (chapter "Stream ports, scheduling, shaping and policing") -/

/-- A packet of an egress port: kind 0 media, 1 PTP, 2 RAW_ETH, 3 PCR, 4 PAT and PMT; its wire size, picture, the mesh cycle from which it is
eligible, its transport fields, UDP payload, frame or cell, whether its UDP checksum is right, the bit of the payload that an impairment inverts
(R513), and the pool buffers that go back once it has left. -/
structure Packet where
  kind : Nat
  size : Nat
  pic : Nat
  since : Nat
  seq : Nat
  ts : Nat
  marker : Bool
  payload : List Byte
  sop : Bool
  eop : Bool
  sumOk : Bool
  flip : Option Nat
  bufs : List Nat
  deriving DecidableEq, Repr

def Packet.init : Packet where
  kind := 0
  size := 0
  pic := 0
  since := 0
  seq := 0
  ts := 0
  marker := false
  payload := []
  sop := true
  eop := true
  sumOk := true
  flip := none
  bufs := []

/-- A received Ethernet frame as its headers read (R496): `bytes` runs from the destination address up to the FCS, `payload` is that of UDP. -/
structure FrameIn where
  dstMac : Nat
  vlan : Option Nat
  isUdp : Bool
  ipv6 : Bool
  fragment : Bool
  ipSumOk : Bool
  udpSumOk : Bool
  srcIp : Nat
  dstIp : Nat
  srcPort : Nat
  dstPort : Nat
  bytes : List Byte
  payload : List Byte
  deriving DecidableEq, Repr

/-- A TS packet's header (R492): its PID, whether a PES packet or section starts in it, its continuity counter, whether a discontinuity is signalled,
and whether it has a payload. -/
structure TsHead where
  pid : Nat
  starts : Bool
  cc : Nat
  jump : Bool
  filled : Bool
  deriving DecidableEq, Repr

/-- What stands in a run of a received packet's bytes: whole units of a stream, a fragment of one unit with its first or last byte, or the payload of a
TS packet. -/
inductive Piece
  | data
  | fragment (first last : Bool)
  | ts (h : TsHead)
  deriving DecidableEq, Repr

/-- A received packet as its payload format reads (R489, R491, R492): its RTP marker, timestamp and sequence number; the bytes its pool buffers hold;
what stands in them, in runs of a length each; samples of video (row, second field, first sample, samples); and the code with which a packet with no
use is reported, 0 where it has one. -/
structure PacketIn where
  marker : Bool
  ts : Nat
  seq : Nat
  bytes : List Byte
  pieces : List (Nat × Piece)
  video : List (Nat × Bool × Nat × LineIn)
  fault : Nat
  deriving DecidableEq, Repr

/-- An ingress packet held by a merge (R500): its extended sequence number, the port it came on, its pool buffers with the bytes in each, and the
mesh cycle of its arrival. -/
structure MergeIn where
  seq : Nat
  packet : PacketIn
  port : Nat
  bufs : List (Nat × Nat)
  since : Nat
  deriving DecidableEq, Repr

/-- A unit of a host-ring port (R494): its picture index, whether it is the picture's first and last, its data, and the pool
buffers it stands in. -/
structure HrUnit where
  pic : Nat
  first : Bool
  last : Bool
  data : List Byte
  bufs : List Nat
  deriving DecidableEq, Repr

/-- A stream port's state beside its registers. `latched` are the registers read at enable (R485); credit counts 2^-24 byte
and tokens millibits; `held` are reordered packets with the packets still to pass and the mesh cycle since which each is held; `relNext` is the next picture a RELEASE
acts on, `relPic` and `relSent` the picture and unit the packetiser is at, `relAllowed` the units released by
picture, `relTimes` the time at which the first RELEASE of each fired, `picSeq` the packets sent before that picture, and `tsNext` the cycle
at which the next datagram of a TS multiplex of a set rate is due (R492). `nal` is the header of the stream unit that goes on into the next row
unit (R491). Of a TS multiplex, `es` are bytes that wait for a TS packet, `pes` tells that a PES packet begins with the next one, `tsHold` are TS
packets that wait for a datagram, with their buffers in `tsBufs`, `cc` the continuity counters by PID, and `picCc` those before the picture; `pcrAt` and
`psiAt` are the mesh cycles of the last PCR and of the last PAT and PMT. Of ingress, `rtpTs` tells the input frame or field of the samples last received, `unitOpen` tells
of a fragmented unit that goes on (1) or is discarded (2), `ccIn` holds the last continuity counter by PID with whether it came twice, `psi` the bytes of
program sections by PID, `pmt` and `autoPid` the PIDs found in them, `esTail` the last bytes of the picture, `pesSkip` what is left of a PES header, `heard`
the mesh cycle of the last packet, and `silent` that its lack has been shown. `tokenAt` and `sampleAt` are the mesh cycles of the last refill of the policer and of the last
sample of the queue, `creditAt` the nanosecond up to which the shaper has counted (R498, R507, R511). -/
structure Port where
  latched : SMap Word
  queue : List Packet
  sending : Option Packet
  deficit : Nat
  fresh : Bool
  credit : Int
  change : Option (List (Nat × Word))
  x : Word
  seq : Nat
  held : List (Packet × Nat × Nat)
  tokens : Nat
  lastSeq : Option Nat
  nextSeq : Option Nat
  merge : List MergeIn
  stopping : Bool
  inPic : Bool
  hrSeq : Nat
  hrGap : Bool
  units : List HrUnit
  inUnits : List HrUnitIn
  relNext : Nat
  relPic : Nat
  relSent : Nat
  relAllowed : SMap Nat
  relTimes : SMap Int
  picSeq : Nat
  tsNext : Nat
  nal : List Byte
  es : List Byte
  pes : Bool
  tsHold : List (List Byte)
  tsBufs : List Nat
  cc : SMap Nat
  picCc : SMap Nat
  pcrAt : Nat
  psiAt : Nat
  rtpTs : Option Nat
  unitOpen : Nat
  ccIn : SMap (Nat × Bool)
  psi : SMap (List Byte)
  pmt : Option Nat
  autoPid : Option Nat
  esTail : List Byte
  pesSkip : Nat
  heard : Nat
  silent : Bool
  tokenAt : Nat
  sampleAt : Nat
  creditAt : Nat
  deriving DecidableEq, Repr

def Port.init : Port where
  latched := []
  queue := []
  sending := none
  deficit := 0
  fresh := true
  credit := 0
  change := none
  x := 1
  seq := 0
  held := []
  tokens := 0
  lastSeq := none
  nextSeq := none
  merge := []
  stopping := false
  inPic := false
  hrSeq := 0
  hrGap := false
  units := []
  inUnits := []
  relNext := 0
  relPic := 0
  relSent := 0
  relAllowed := []
  relTimes := []
  picSeq := 0
  tsNext := 0
  nal := []
  es := []
  pes := false
  tsHold := []
  tsBufs := []
  cc := []
  picCc := []
  pcrAt := 0
  psiAt := 0
  rtpTs := none
  unitOpen := 0
  ccIn := []
  psi := []
  pmt := none
  autoPid := none
  esTail := []
  pesSkip := 0
  heard := 0
  silent := false
  tokenAt := 0
  sampleAt := 0
  creditAt := 0

/-- A scheduling target (R505, R506): its ports of PRIO 1 and PRIO 0 in order of joining, PTP messages that wait, and the
port that sends (+ 1; 0 none; 1025 PTP), and the mesh cycle at which its packet has been sent. -/
structure Target32 where
  high : List Nat
  low : List Nat
  ptp : List Packet
  busy : Nat
  endAt : Nat
  deriving DecidableEq, Repr

def Target32.init : Target32 := ⟨[], [], [], 0, 0⟩

/-- An HDM decoder (R524, R525): its range, and whether it is committed, locked, or shows Error Not Committed. -/
structure Hdm where
  base : Nat
  size : Nat
  committed : Bool
  locked : Bool
  error : Bool
  deriving DecidableEq, Repr

def Hdm.init : Hdm := ⟨0, 0, false, false, false⟩

/-- CXL (chapter "CXL attachment ..."): the HDM decoders, the component registers as last written, the RAS status bits, AER
Poisoned TLP Received by function, what the Header Log holds (1 an Internal Error), and whether the link is down under R522, and since which mesh cycle. -/
structure Cxl where
  hdm : SMap Hdm
  component : SMap Word
  rasCorr : Bool
  rasInternal : Bool
  aer : SMap Bool
  headerLog : Nat
  retraining : Bool
  downAt : Nat
  deriving DecidableEq, Repr

def Cxl.init : Cxl := ⟨[], [], false, false, [], 0, false, 0⟩


/-! ### The whole device -/

/-- Why a run stops with a fault. The spec gives the device no event that stops it: the only fault is the model's own, for
an address that does not exist. -/
inductive Fault
  /-- Raised by an operation that the spec gives on a device address of HBM, where the address lies at or above 144 GiB
  (R359: no such byte exists). Safe: the run stops where the hardware has no byte. -/
  | noSuchAddress (addr : Nat)
  deriving DecidableEq, Repr

/-- Why a command has no meaning. -/
inductive Refusal
  /-- Raised by an arm of `exec` whose command has no meaning yet. Safe: nothing is proved about it. -/
  | notModelled (mnemonic : String)
  deriving DecidableEq, Repr

structure State where
  pending : List Instr
  outbox : List Output
  freeCtr : Nat
  now : Nat
  regs : SMap Word
  snaps : SMap Word
  comp : Comp
  icu : Icu
  pwr : Power
  bc : BaseCamp
  flash : SMap Byte
  cmd : Cmd
  staged : Option Image
  clock : Clock
  fs : FrameStore
  pools : Pools
  chans : SMap Chan
  dmaTurn : Nat
  tap : Tap
  blocks : SMap Block
  regions : SMap RegionSt
  injs : SMap Inj
  faultAt : SMap Nat
  pipes : SMap Pipe
  lanes : Lanes
  ring : RingSt
  ports : SMap Port
  targets : SMap Target32
  cxl : Cxl
  parsed : List (DecJob × StreamPic)
  decoded : List (DecJob × UnitIn)
  deriving DecidableEq, Repr

def Comp.init : Comp := ⟨false, [], [], [], [], [], 0, false, 15, [], 0, 0, 0, []⟩

/-- The device before VAUX_0V8 first rises: BYPASS, every register at its reset value, every memory unwritten. -/
def State.reset : State where
  pending := []
  outbox := []
  freeCtr := 0
  now := 0
  regs := []
  snaps := []
  comp := Comp.init
  icu := Icu.init
  pwr := Power.init
  bc := BaseCamp.init
  flash := []
  cmd := Cmd.init
  staged := none
  clock := Clock.init
  fs := FrameStore.init
  pools := Pools.init
  chans := []
  dmaTurn := 0
  tap := Tap.init
  blocks := []
  regions := []
  injs := []
  faultAt := []
  pipes := []
  lanes := Lanes.init
  ring := RingSt.init
  ports := []
  targets := []
  cxl := Cxl.init
  parsed := []
  decoded := []

end Sys2Proof.Machine
end

