-- ==== Sys2Proof/Machine/Package.lean ====
section
/-! DEFINITION. The ball grid (R660 to R666, R692): rows, empty sites, zones, and what each ball carries. -/

namespace Sys2Proof.Machine

open Sys2Proof

/-- The letters of row names, in order. -/
def rowLetters : List String := ["A", "B", "C", "D", "E", "F", "G", "H", "J", "K", "L", "M", "N", "P", "T", "U", "V", "W", "Y"]

/-- The name of row `i` (R661). -/
def rowName (i : Nat) : String :=
  let letter := fun k => (rowLetters[k]?).getD ""
  if i < 19 then letter i else letter (i / 19 - 1) ++ letter (i % 19)

/-- A site without a ball (R662): the corner squares and the centre block. Columns count from 1. -/
def emptySite (i j : Nat) : Bool :=
  ((decide (i ≤ 3) || decide (60 ≤ i)) && (decide (j ≤ 4) || decide (61 ≤ j)))
    || (decide (30 ≤ i) && decide (i ≤ 33) && decide (29 ≤ j) && decide (j ≤ 36))

/-- The zones of the grid. -/
inductive Zone
  | north
  | south
  | west
  | east
  | core
  deriving DecidableEq, Repr

def zoneOf (i j : Nat) : Zone :=
  if i ≤ 7 then .north else if 56 ≤ i then .south else if j ≤ 8 then .west else if 57 ≤ j then .east else .core

/-- Groups of serial lanes (R14). -/
inductive LaneGroup
  | cx
  | ml
  | sl
  | rgo
  | rgi
  deriving DecidableEq, Repr

/-- Reference clocks of the serial lanes (R681). -/
inductive RefClock
  | cxl
  | eth (n : Nat)
  | sdi (n : Nat)
  deriving DecidableEq, Repr

/-- Low-speed signals (R666). -/
inductive LowSpeed
  | xspiCk
  | xspiCsN
  | xspiDs
  | xspiRstN
  | xspiIo (n : Nat)
  | tck
  | tms
  | tdi
  | tdo
  | trstN
  | smbScl
  | smbSda
  | smbAlertN
  | smbAdsel (n : Nat)
  | testen
  | perstN
  | mittenN
  | railEn
  | trigIn (n : Nat)
  | trigOut (n : Nat)
  | refH
  | refV
  | refF
  | ppsIn
  | f10mIn
  | xtalIn
  | xtalOut
  deriving DecidableEq, Repr

/-- What a site of the grid carries. A pair has its P ball and its N ball; a lane's transmit and receive pairs are told apart. -/
inductive Ball
  | none
  | vss
  | supply (r : Rail)
  | lane (g : LaneGroup) (n : Nat) (tx p : Bool)
  | refclk (c : RefClock) (p : Bool)
  | rcal (n : Nat)
  | low (x : LowSpeed)
  deriving DecidableEq, Repr

/-- A lane slot of the north or the south zone: its transmit pair in row `rt`, its receive pair in row `rr`, from column 9 on (R665). -/
def slotBall (rt rr : Nat) (lane : Nat → Bool → LaneGroup × Nat) (slots i j : Nat) : Option Ball :=
  let k := (j - 9) / 2
  let p := (j - 9) % 2 == 0
  if j < 9 ∨ slots ≤ k then none
  else if i = rt then some (.lane (lane k true).1 (lane k true).2 true p)
  else if i = rr then some (.lane (lane k false).1 (lane k false).2 false p)
  else none

def northLane (k : Nat) (_ : Bool) : LaneGroup × Nat := if k < 8 then (.cx, k) else (.ml, k - 8)
def southLane (k : Nat) (tx : Bool) : LaneGroup × Nat := if k < 16 then (.ml, k + 16) else (if tx then .rgo else .rgi, k - 16)

/-- SDI lane n lies in row 9 + 2n (R665). -/
def sdiBall (i j : Nat) : Option Ball :=
  if i < 9 ∨ 41 ≤ i ∨ i % 2 = 0 then none
  else
    let n := (i - 9) / 2
    match j with
    | 2 => some (.lane .sl n true true)
    | 3 => some (.lane .sl n true false)
    | 6 => some (.lane .sl n false true)
    | 7 => some (.lane .sl n false false)
    | _ => none

/-- Reference clocks and calibration (R665). -/
def clockBall (i j : Nat) : Option Ball :=
  match i, j with
  | 3, 5 => some (.refclk .cxl true)
  | 3, 6 => some (.refclk .cxl false)
  | 3, 7 => some (.rcal 0)
  | 3, 59 => some (.refclk (.eth 0) true)
  | 3, 60 => some (.refclk (.eth 0) false)
  | 60, 7 => some (.rcal 1)
  | 60, 59 => some (.refclk (.eth 1) true)
  | 60, 60 => some (.refclk (.eth 1) false)
  | 41, 2 => some (.refclk (.sdi 0) true)
  | 41, 3 => some (.refclk (.sdi 0) false)
  | 41, 6 => some (.refclk (.sdi 1) true)
  | 41, 7 => some (.refclk (.sdi 1) false)
  | _, _ => none

/-- The signals of a row of R666 from column 1 on. -/
def lowRow (i : Nat) : List (Option LowSpeed) :=
  match i with
  | 43 => [some .xspiCk, some .xspiCsN, some .xspiDs, some .xspiRstN, some (.xspiIo 0), some (.xspiIo 1), some (.xspiIo 2), some (.xspiIo 3)]
  | 45 => [some (.xspiIo 4), some (.xspiIo 5), some (.xspiIo 6), some (.xspiIo 7), some .tck, some .tms, some .tdi, some .tdo]
  | 47 => [some .trstN, some .smbScl, some .smbSda, some .smbAlertN, some (.smbAdsel 0), some (.smbAdsel 1), some .testen, some .perstN]
  | 49 => [some .mittenN, some .railEn, some (.trigIn 0), some (.trigIn 1), some (.trigIn 2), some (.trigIn 3)]
  | 51 => [some (.trigOut 0), some (.trigOut 1), some (.trigOut 2), some (.trigOut 3), none, some .refH, some .refV, some .refF]
  | 53 => [some .ppsIn, some .f10mIn]
  | 55 => [none, some .xtalIn, none, some .xtalOut]
  | _ => []

def lowBall (i j : Nat) : Option Ball :=
  match j with
  | 0 => none
  | k + 1 => (((lowRow i)[k]?).getD none).map .low

/-- The supply of a site that carries no signal (R663, R664). -/
def supplyBall (i j : Nat) : Option Rail :=
  let odd := (i + j) % 2 == 1
  match zoneOf i j with
  | .core => if odd then some (if 12 ≤ i ∧ i ≤ 51 then .vfab1v5 else .vsoc0v75) else none
  | .east => if odd then some (if j ≤ 60 then .vhbm1v1 else .vhbm0v4) else none
  | .north => if i = 6 then some .vser0v9 else if i = 7 then some (if j % 2 = 1 then .vser0v9 else .vser1v2) else none
  | .south => if i = 57 then some .vser0v9 else if i = 56 then some (if j % 2 = 1 then .vser0v9 else .vser1v2) else none
  | .west =>
    if j % 2 = 1 then none
    else if i = 44 ∨ i = 46 ∨ i = 48 ∨ i = 50 then some .vio1v8
    else if i = 52 ∨ i = 54 then some .vaux0v8
    else none

/-- The signal at a site, if it carries one. -/
def signalBall (i j : Nat) : Option Ball :=
  slotBall 1 5 northLane 24 i j <|> slotBall 62 58 southLane 20 i j <|> clockBall i j
    <|> (if zoneOf i j = .west then sdiBall i j <|> lowBall i j else none)

/-- The ball in row index `i` and column `j`. -/
def ballAt (i j : Nat) : Ball :=
  if emptySite i j then .none
  else
    match signalBall i j with
    | some b => b
    | none => match supplyBall i j with | some r => .supply r | none => .vss

/-- A pad that runs from VAUX_0V8 (R678); the other low-speed pads but the crystal's are of the VIO class (R677). -/
def auxPad (x : LowSpeed) : Bool :=
  match x with
  | .perstN | .testen | .smbScl | .smbSda | .smbAlertN | .smbAdsel _ | .mittenN | .railEn => true
  | _ => false

/-- A ball with boundary cells (R692): every VIO-class pad and every serial lane, and none of the AUX class. -/
def scanned (b : Ball) : Bool :=
  match b with
  | .lane _ _ _ _ => true
  | .low x => !auxPad x && x != .xtalIn && x != .xtalOut
  | _ => false

end Sys2Proof.Machine
end

