-- ==== Sys2Proof/Machine/Ops.lean ====
section
/-! DEFINITION. The named operations over the state: register and field access, sparse records, output, interrupt events,
access errors, ownership, modes. Every meaning is written over these. -/

namespace Sys2Proof.Machine

open Sys2Proof

/-! ### Registers (R10, R11, R548) -/

/-- The word held at BAR0 offset `off`. -/
def rd (off : Nat) (s : State) : Word := smGet (regReset off) off s.regs

/-- Put a word at BAR0 offset `off`. -/
def wr (off : Nat) (w : Word) (s : State) : State := { s with regs := smSet (regReset off) off w s.regs }

/-- The value of a field of the register at `off`. -/
def fget (off : Nat) (f : Fld) (s : State) : Nat := getF f (rd off s)

/-- Set a field of the register at `off`, leaving its other bits. -/
def fput (off : Nat) (f : Fld) (v : Nat) (s : State) : State := wr off (putF f (rd off s) v) s

/-- A one-bit field as a truth value. -/
def fbit (off : Nat) (f : Fld) (s : State) : Bool := fget off f s == 1

def fset (off : Nat) (f : Fld) (s : State) : State := fput off f 1 s
def fclr (off : Nat) (f : Fld) (s : State) : State := fput off f 0 s

/-- Add `n` to a counter field that saturates at its largest value. -/
def bumpBy (n : Nat) (off : Nat) (f : Fld) (s : State) : State :=
  fput off f (min (fget off f s + n) (2 ^ f.width - 1)) s

def bump (off : Nat) (f : Fld) (s : State) : State := bumpBy 1 off f s

/-- Add `n` to a counter field that wraps. -/
def bumpWrapBy (n : Nat) (off : Nat) (f : Fld) (s : State) : State := fput off f (fget off f s + n) s

def bumpWrap (off : Nat) (f : Fld) (s : State) : State := bumpWrapBy 1 off f s

/-- A 64-bit value held in a low and a high register. -/
def rd64 (lo hi : Nat) (s : State) : Nat := (rd lo s).toNat + 2 ^ 32 * (rd hi s).toNat

def wr64 (lo hi : Nat) (v : Nat) (s : State) : State :=
  wr hi (BitVec.ofNat 32 (v / 2 ^ 32)) (wr lo (BitVec.ofNat 32 v) s)

/-- Add to a counter pair, which wraps at 2^64 (a low and a high register). -/
def bumpPair (n lo hi : Nat) (s : State) : State := wr64 lo hi (rd64 lo hi s + n) s

/-- The whole word of a register, as a field. -/
def whole : Fld := ⟨0, 32⟩

/-- A signed reading of a 32-bit word. -/
def sint (w : Word) : Int := w.toInt

/-! ### Outputs and free values -/

/-- Hand something to the world outside. -/
def emit (o : Output) (s : State) : State := { s with outbox := s.outbox ++ [o] }

/-- Take a free value (a value the spec leaves open): the counter names the use, and `Config.free` has no body. -/
def freeNat (s : State) : Nat := Config.free s.freeCtr

def stepFree (s : State) : State := { s with freeCtr := s.freeCtr + 1 }

/-! ### Modes (R157) -/

/-- The current mode: BYPASS while the chip is held in reset or unpowered, else CHIP_MODE.CUR_MODE. -/
def curMode (s : State) : Nat := if s.pwr.bypass then 0 else fget Reg.chipMode ChipMode.curMode s

def modeBypass : Nat := 0
def modeLoad : Nat := 1
def modeBivouac : Nat := 2
def modeRun : Nat := 3
def modeMaintain : Nat := 4
def modeSafe : Nat := 5

def modeBusy (s : State) : Bool := fbit Reg.chipMode ChipMode.modeBusy s

/-- The modes after release in which units may be enabled: BIVOUAC, RUN and MAINTAIN (R165). -/
def released (s : State) : Bool := curMode s == 2 || curMode s == 3 || curMode s == 4

/-! ### Interrupt events (R563, R564) -/

/-- One event at source `src`: the count goes up by one, and at 255 further events set OVF and are not counted. -/
def raise (src : Nat) (s : State) : State :=
  let c := fget (Reg.icuSrcStat src) IcuSrcStat.count s
  if c = 255 then fset (Reg.icuSrcStat src) IcuSrcStat.ovf s
  else fput (Reg.icuSrcStat src) IcuSrcStat.count (c + 1) s

def raiseWhen (b : Bool) (src : Nat) (s : State) : State := if b then raise src s else s

/-! ### Access errors (R546) -/

/-- Kinds of CHIP_ACCESS_ERR. -/
def kindNarrow : Nat := 1
def kindUnaligned : Nat := 2
def kindLoadArea : Nat := 3
def kindKey : Nat := 4
def kindState : Nat := 5

/-- Record an access error of the given kind in the access page of domain `d`. -/
def accessErr (d : Nat) (kind off : Nat) (s : State) : State :=
  bump (Reg.chipAccessCnt d) ChipAccessCnt.count
    (fput (Reg.chipAccessAddr d) ChipAccessAddr.ofs off
      (fset (Reg.chipAccessErr d) ChipAccessErr.accessErr
        (fput (Reg.chipAccessErr d) ChipAccessErr.accKind kind s)))

/-- Record a FIELD_OVERRUN (R548: software wins over a hardware update of the same cycle). -/
def fieldOverrun (d : Nat) (off : Nat) (s : State) : State :=
  bump (Reg.chipAccessCnt d) ChipAccessCnt.count
    (fput (Reg.chipOverrunAddr d) ChipAccessAddr.ofs off (fset (Reg.chipAccessErr d) ChipAccessErr.fieldOverrun s))

/-! ### Glove ownership (R126 to R131, R562) -/

/-- The Glove kinds of R126. -/
def glvPipe : Nat := 1
def glvPort : Nat := 2
def glvPool : Nat := 3
def glvDma : Nat := 4
def glvRaster : Nat := 5
def glvHostSched : Nat := 6
def glvCarve : Nat := 7

/-- The owner a list of Glove entries gives to resource `id` of kind `kind`; domain 0 where no entry names it (R129). -/
def gloveOwner (entries : List Word) (kind id : Nat) : Nat :=
  match entries with
  | [] => 0
  | e :: es =>
    if e.toNat / 2 ^ 28 = kind ∧ e.toNat % 4096 ≤ id ∧ id ≤ e.toNat / 4096 % 4096 then e.toNat / 2 ^ 24 % 16
    else gloveOwner es kind id

def owner (s : State) (kind id : Nat) : Nat := gloveOwner s.comp.glove kind id

/-- The first of the elements with the least key. -/
def leastBy {α : Type} (key : α → Nat) : List α → Option α
  | [] => none
  | x :: l =>
    match leastBy key l with
    | none => some x
    | some y => some (if key y < key x then y else x)

/-- The Glove domain a source belongs to (R562). -/
def srcOwner (s : State) (src : Nat) : Nat :=
  if 192 ≤ src ∧ src < 256 then owner s glvPool ((src - 192) / 4)
  else if 256 ≤ src ∧ src < 384 then owner s glvDma ((src - 256) / 2)
  else if 448 ≤ src ∧ src < 512 then owner s glvPort (16 * (src - 448))
  else if 1536 ≤ src ∧ src < 2560 then owner s glvPipe (src - 1536)
  else 0

/-- The BAR0 offset's owner: the domain whose accesses it admits (R129, R130, and the ownership lines of the chapters). -/
def regOwner (s : State) (off : Nat) : Nat :=
  if 0x1000 ≤ off ∧ off < 0x1400 then (off - 0x1000) / 0x40
  else if 0x11000 ≤ off ∧ off < 0x11400 then owner s glvRaster ((off - 0x11000) / 0x40)
  else if 0x30100 ≤ off ∧ off < 0x30200 then (off - 0x30100) / 0x10
  else if 0x34000 ≤ off ∧ off < 0x38000 then srcOwner s ((off - 0x34000) / 4)
  else if 0x38000 ≤ off ∧ off < 0x3C000 then srcOwner s ((off - 0x38000) / 4)
  else if 0x3E000 ≤ off ∧ off < 0x3FE00 then (off - 0x3E000) / 0x200 + 1
  else if 0x60000 ≤ off ∧ off < 0x61000 then owner s glvPool ((off - 0x60000) / 0x100)
  else if 0x61000 ≤ off ∧ off < 0x61200 then (off - 0x61000) / 0x20
  else if 0x70000 ≤ off ∧ off < 0x74000 then owner s glvDma ((off - 0x70000) / 0x100)
  else if 0x100000 ≤ off ∧ off < 0x140000 then owner s glvPort ((off - 0x100000) / 0x100)
  else if 0x800000 ≤ off ∧ off < 0xC00000 then owner s glvPipe ((off - 0x800000) / 0x1000)
  else if 0xC00000 ≤ off ∧ off < 0xD00000 then
    let i := (off - 0xC00000) / 16
    let b := fget Reg.rckSchedHost RckSchedHost.hostBase s
    let n := fget Reg.rckSchedHost RckSchedHost.hostCount s
    if b ≤ i ∧ i < b + n then owner s glvHostSched 0 else 0
  else 0

/-- Record a denied access (R130). -/
def gloveDeny (d off : Nat) (s : State) : State :=
  bumpWrap Reg.glvDenyCnt GlvDenyCnt.glvDenyCnt
    (fput Reg.glvDeny GlvDeny.denyOfs off (fput Reg.glvDeny GlvDeny.denyDom d s))

end Sys2Proof.Machine
end

