-- ==== Sys2Proof/Machine/Icu.lean ====
section
/-! DEFINITION. The interrupt controller (chapter "Interrupts"): filtered inputs, eligibility, delivery decisions with
fallback, hold-off, acknowledgement, routing, wakes. -/

namespace Sys2Proof.Machine

open Sys2Proof

/-! ### Sources -/

/-- ICU_SRC_ROUTE.KIND (R568). -/
def routeKind (src : Nat) (s : State) : Nat := fget (Reg.icuSrcRoute src) IcuSrcRoute.kind s
def routeMask (src : Nat) (s : State) : Bool := fbit (Reg.icuSrcRoute src) IcuSrcRoute.mask s
def routeVector (src : Nat) (s : State) : Nat := fget (Reg.icuSrcRoute src) IcuSrcRoute.vector s
def srcCount (src : Nat) (s : State) : Nat := fget (Reg.icuSrcStat src) IcuSrcStat.count s
def srcInflight (src : Nat) (s : State) : Bool := fbit (Reg.icuSrcStat src) IcuSrcStat.inflight s

/-- ICU_EXT_CTL.SENSE in force for external input `n` (R566; reserved codes act as the reset value, R13). -/
def extSense (n : Nat) (s : State) : Nat :=
  let v := fget (Reg.icuExtCtl n) IcuExtCtl.sense s
  if v ≤ 4 then v else 1

/-- The source is level-sensed and its level is active (R566). -/
def levelActive (src : Nat) (s : State) : Bool :=
  if 2560 ≤ src ∧ src < 2568 then
    let n := src - 2560
    let l := fbit (Reg.icuExtCtl n) IcuExtCtl.level s
    (extSense n s == 0 && l) || (extSense n s == 4 && !l)
  else false

/-- The source is pending: a nonzero count or an active level (ICU_SRC_STAT.PEND). -/
def srcPending (src : Nat) (s : State) : Bool := srcCount src s != 0 || levelActive src s

/-- In SAFE only sources 0 to 63 are delivered (R615). -/
def srcAllowed (src : Nat) (s : State) : Bool := curMode s != 5 || decide (src < 64)

/-- Eligibility (R571). -/
def eligible (src : Nat) (s : State) : Bool :=
  srcPending src s && !routeMask src s && routeKind src s != 0 && !srcInflight src s && srcAllowed src s

/-- Sources that can be pending: those with a status word, and the external inputs. -/
def candidates (s : State) : List Nat :=
  (((smKeys s.regs).filter fun o => decide (0x38000 ≤ o ∧ o < 0x3C000)).map fun o => (o - 0x38000) / 4)
    |>.filter (fun n => decide (n < 2560 ∨ 2568 ≤ n))
    |>.append [2560, 2561, 2562, 2563, 2564, 2565, 2566, 2567]

/-! ### Host vectors -/

/-- The index of vector `v` of domain `d` among the hold-off registers. -/
def vecIndex (d v : Nat) : Nat := if d = 0 then v else 2048 + 128 * (d - 1) + v

/-- How many vectors the function of domain `d` has (R533). -/
def vecCount (d : Nat) : Nat := if d = 0 then 2048 else 128

def getVec (d v : Nat) (s : State) : Vec := smGet Vec.init (vecIndex d v) s.icu.vecs
def setVec (d v : Nat) (x : Vec) (s : State) : State :=
  { s with icu := { s.icu with vecs := smSet Vec.init (vecIndex d v) x s.icu.vecs } }

def getFn (d : Nat) (s : State) : Fn := smGet Fn.init d s.icu.fns
def setFn (d : Nat) (x : Fn) (s : State) : State :=
  { s with icu := { s.icu with fns := smSet Fn.init d x s.icu.fns } }

def getDelivered (src : Nat) (s : State) : Delivered := smGet Delivered.init src s.icu.delivered
def setDelivered (src : Nat) (x : Delivered) (s : State) : State :=
  { s with icu := { s.icu with delivered := smSet Delivered.init src x s.icu.delivered } }

/-- A vector sleeps while its table entry holds message address 0 (R574). -/
def vecAsleep (d v : Nat) (s : State) : Bool := (getVec d v s).addr == 0

/-- A vector is masked by its entry's mask bit, by MSI-X Enable 0 or by the function mask (R576). -/
def vecMasked (d v : Nat) (s : State) : Bool :=
  (getVec d v s).mask || !(getFn d s).msixEn || (getFn d s).fnMask

/-- A vector is idle when no source whose last message went out on it has INFLIGHT set (R579). -/
def vecIdle (d v : Nat) (s : State) : Bool :=
  (s.icu.delivered.filter fun e => e.2.vecPlus1 == vecIndex d v + 1 && srcInflight e.1 s).isEmpty

/-! ### Where an eligible source goes -/

/-- The region sleeps for its Region Controller: GATED or RECOMPOSING (R575). -/
def rgcAsleep (r : Nat) (s : State) : Bool :=
  let st := fget (Reg.rgcStatus r) RgcStatus.rgcState s
  st == 0 || st == 3

/-- The region can be woken for source `src`: its route has WAKE 1, the region is GATED and BCM_REGION_OFF does not hold
it (R575, R640). -/
def rgcWakes (src r : Nat) (s : State) : Bool :=
  fbit (Reg.icuSrcRoute src) IcuSrcRoute.wake s
    && fget (Reg.rgcStatus r) RgcStatus.rgcState s == 0
    && !(fget Reg.bcmRegionOff BcmRegionOff.off s).testBit r

/-- Where a decision would deliver source `src` now: the target, and the DEL_KIND it leaves. `none` where the event stays
pending (R573 to R576, R522). -/
def destination (src : Nat) (s : State) : Option (Target × Nat) :=
  match routeKind src s with
  | 1 =>
    let d := srcOwner s src
    let v := routeVector src s
    if h : d < 16 ∧ v < 2048 then
      let dd : DomId := ⟨d, h.1⟩
      if !s.pwr.linkUp || !(getFn d s).d0 || decide (vecCount d ≤ v) then none
      else if !vecAsleep d v s then (if vecMasked d v s then none else some (.host dd ⟨v, h.2⟩, 1))
      else if !vecAsleep d 0 s && !vecMasked d 0 s then some (.host dd 0, 4)
      else none
    else none
  | 2 =>
    let r := fget (Reg.icuSrcRoute src) IcuSrcRoute.rgcRegion s
    if h : r < 16 then
      if !rgcAsleep r s || rgcWakes src r s then some (.rgc ⟨r, h⟩, 2) else some (.baseCamp, 5)
    else none
  | 3 => some (.baseCamp, 3)
  | _ => none

/-- The eligible sources that a decision on target `t` covers (R572), in rising order. -/
def covered (t : Target) (s : State) : List Nat :=
  (candidates s).filter fun src =>
    eligible src s && (match destination src s with | some (t', _) => decide (t' = t) | none => false)

/-- The vector index plus one that a target stands for (0 for no host vector). -/
def targetVec : Target → Nat
  | .host d v => vecIndex d v + 1
  | _ => 0

/-- Mark one covered source delivered: INFLIGHT, DEL_KIND, and a fallback counted (R572, R574, R575). -/
def deliverOne (t : Target) (src : Nat) (s : State) : State :=
  let k := match destination src s with | some (_, k) => k | none => 0
  let s1 := setDelivered src ⟨targetVec t, srcCount src s⟩ s
  let s2 := fput (Reg.icuSrcStat src) IcuSrcStat.delKind k (fset (Reg.icuSrcStat src) IcuSrcStat.inflight s1)
  if k = 4 ∨ k = 5 then bump Reg.icuFallbackCnt IcuFallbackCnt.count s2 else s2

def deliverAll (t : Target) (l : List Nat) (s : State) : State := l.foldl (fun a src => deliverOne t src a) s

/-- A GATED region's power comes up: READY. Patch memory is loaded from the region's copy (R637), and in-service passes begin (R601). -/
def powerUp (r : Nat) (s : State) : State :=
  let x := smGet RegionSt.init r s.regions
  fput (Reg.rgcStatus r) RgcStatus.rgcState 1 { s with
    regions := smSet RegionSt.init r { x with upAt := s.now } s.regions
    blocks := (List.range 8).foldl (fun m b =>
      smSet Block.init (8 * r + b) { smGet Block.init (8 * r + b) m with patch := x.patch } m) s.blocks }

/-- Base Camp brings a GATED region to READY for its Region Controller (R575). -/
def wakeRegion (r : Nat) (s : State) : State :=
  let s1 := bump Reg.icuWakeCnt IcuFallbackCnt.count (powerUp r s)
  { s1 with icu := { s1.icu with wakes := smSet false r true s1.icu.wakes } }

/-- The hold-off of vector `v` of domain `d` runs: HOLD_US has not passed since its last message (R578, R581). -/
def holdRuns (d v : Nat) (s : State) : Bool :=
  match (getVec d v s).sent with
  | some t => decide (s.now < t + 1600 * fget (Reg.icuVecHold (vecIndex d v)) IcuVecHold.holdUs s)
  | none => false

/-- Send the message of a host vector (R572, R578). -/
def sendMsix (d v : Nat) (s : State) : State :=
  let x := getVec d v s
  let s1 := emit (.msix d v x.addr x.data) (setVec d v { x with pba := false, sent := some s.now } s)
  fclr (Reg.icuVecHold (vecIndex d v)) IcuVecHold.held s1

/-- Deliver everything target `t` covers in one message. -/
def deliver (t : Target) (s : State) : State :=
  let l := covered t s
  if l.isEmpty then s
  else
    match t with
    | .host d v => sendMsix d v (deliverAll t l s)
    | .rgc r =>
      let s1 := deliverAll t l s
      if rgcAsleep r s then wakeRegion r s1 else s1
    | .baseCamp => deliverAll t l s

/-- Host vector `v` of domain `d` is masked and has an eligible source: it holds a message (R576). -/
def holdsMessage (d v : Nat) (s : State) : Bool :=
  decide (v < vecCount d) && vecMasked d v s && !vecAsleep d v s &&
    (candidates s).any fun src => eligible src s && routeKind src s == 1 && srcOwner s src == d && routeVector src s == v

/-- Its PBA bit is set while it does (R576). -/
def holdMasked (d v : Nat) (s : State) : State :=
  if holdsMessage d v s then setVec d v { getVec d v s with pba := true } s else s

/-- An event for a function not in D0 whose PME_En is set signals PME, once until it returns to D0 (R574). -/
def signalPme (d : Nat) (s : State) : State :=
  let f := getFn d s
  if !f.d0 && f.pmeEn && !f.pme && s.pwr.linkUp &&
      (candidates s).any fun src => eligible src s && routeKind src s == 1 && srcOwner s src == d
  then emit (.pme d) (setFn d { f with pme := true } s) else s

/-- A delivery decision for one target (R572): a host vector whose hold-off runs and that is not idle waits, with HELD
set (R578, R579). -/
def deliveryDecision (t : Target) (s : State) : State :=
  match t with
  | .host d v =>
    let s := holdMasked d v (signalPme d s)
    if holdRuns d v s && !vecIdle d v s then
      (if (covered t s).isEmpty then s else fset (Reg.icuVecHold (vecIndex d v)) IcuVecHold.held s)
    else deliver t s
  | _ => deliver t s

/-- The hold-off of a host vector ends, and its waiting sources go in one message (R578). -/
def holdoffExpiry (d v : Nat) (s : State) : State :=
  if vecCount d ≤ v ∨ holdRuns d v s = true then s
  else
    let s1 := fclr (Reg.icuVecHold (vecIndex d v)) IcuVecHold.held s
    if h : d < 16 ∧ v < 2048 then deliver (.host ⟨d, h.1⟩ ⟨v, h.2⟩) s1 else s1

/-! ### Acknowledgement -/

/-- Lower the count of `src` by min(n, count) and clear INFLIGHT (R580). -/
def ackSource (src n : Nat) (s : State) : State :=
  let c := srcCount src s
  fclr (Reg.icuSrcStat src) IcuSrcStat.inflight (fput (Reg.icuSrcStat src) IcuSrcStat.count (c - min n c) s)

/-- A write to ICU_ACK in the page of domain `page` (R580): a source of another domain is refused with STATE. -/
def ackWrite (page : Nat) (v : Word) (s : State) : State :=
  let src := getF IcuAck.ackSrc v
  if srcOwner s src = page then ackSource src (getF IcuAck.ackN v) s
  else accessErr page kindState (Reg.icuAck page) s

/-- Region Controller firmware or Base Camp acknowledges a source delivered to it, with the count it held at delivery; a
source whose level is still active is not yet acknowledged (R580). -/
def ackFirmware (src : Nat) (s : State) : State :=
  if srcInflight src s && !levelActive src s then ackSource src (getDelivered src s).count s else s

/-- No source delivered to Region Controller `r` is in flight. -/
def rgcQuiet (r : Nat) (s : State) : Bool :=
  (candidates s).all fun src => !(srcInflight src s && fget (Reg.icuSrcStat src) IcuSrcStat.delKind s == 2
    && fget (Reg.icuSrcRoute src) IcuSrcRoute.rgcRegion s == r)

/-! ### Routing -/

/-- A write to ICU_SRC_ROUTE by domain `d` (R569): a KIND of RGC or BASE_CAMP from a domain other than 0, and a vector at or
above the function's count, are dropped with STATE. -/
def routeWrite (d src : Nat) (v : Word) (s : State) : State :=
  let k := getF IcuSrcRoute.kind v
  if (d ≠ 0 ∧ (k = 2 ∨ k = 3)) ∨ vecCount (srcOwner s src) ≤ getF IcuSrcRoute.vector v then
    accessErr d kindState (Reg.icuSrcRoute src) s
  else wr (Reg.icuSrcRoute src) (v &&& 0xFF0007FF#32) s

/-- A write to ICU_VEC_HOLD: the new hold-off applies from that cycle, measured from the last message (R581). -/
def vecHoldWrite (i : Nat) (v : Word) (s : State) : State :=
  fput (Reg.icuVecHold i) IcuVecHold.holdUs (getF IcuVecHold.holdUs v) s

/-- A function returns to D0, or a vector is given a message address (R574): held events become deliverable. -/
def awake (w : Awake) (s : State) : State :=
  match w with
  | .function d => setFn d { getFn d s with d0 := true, pme := false } s
  | .vector d v a data =>
    if vecCount d ≤ v.val then s else setVec d v { getVec d v s with addr := a, data := data } s

/-- The sources routed to one of the vectors of domain `d`'s function. -/
def routedTo (d : Nat) (s : State) : List Nat :=
  ((smKeys s.regs).filter (fun o => decide (0x34000 ≤ o ∧ o < 0x3C000))).map (fun o => (o - 0x34000) / 4 % 4096)
    |>.filter (fun src => srcOwner s src == d && routeKind src s == 1)

/-- An FLR of the function of domain `d` (R582): on each source routed to its vectors INFLIGHT is cleared and MASK set, and
the vector's HOLD_US becomes 0. Counts are kept. -/
def flrIcu (d : Nat) (s : State) : State :=
  let s0 := if (List.range 2568).any (fun src => srcOwner s src == d && routeKind src s == 1 && routeVector src s == 0)
    then vecHoldWrite (vecIndex d 0) 0 s else s
  (routedTo d s).foldl (fun a src =>
    vecHoldWrite (vecIndex d (routeVector src a)) 0
      (fset (Reg.icuSrcRoute src) IcuSrcRoute.mask (fclr (Reg.icuSrcStat src) IcuSrcStat.inflight a))) s0

/-! ### External inputs -/

/-- FILT in force (R565: 0 acts as 1). -/
def filtLen (n : Nat) (s : State) : Nat := max 1 (fget (Reg.icuExtCtl n) IcuExtCtl.filt s)

/-- A change of the filtered level is an event under SENSE (R566). -/
def isEvent (sense : Nat) (level : Bool) : Bool :=
  match sense with
  | 0 => level
  | 1 => level
  | 2 => !level
  | 3 => true
  | _ => !level

/-- The filter of input `n` samples `level` at `samples` consecutive edges of the filter clock (R565). The second component
tells whether the filtered level changed. -/
def glitchSample (n : Nat) (level : Bool) (samples : Nat) (s : State) : State × Bool :=
  let g := smGet Glitch.init n s.icu.glitch
  let run := if g.level = level then g.run + samples else samples
  let s1 := { s with icu := { s.icu with glitch := smSet Glitch.init n ⟨level, run⟩ s.icu.glitch } }
  if filtLen n s + 1 ≤ run ∧ fbit (Reg.icuExtCtl n) IcuExtCtl.level s ≠ level then
    (fput (Reg.icuExtCtl n) IcuExtCtl.level (if level then 1 else 0) s1, true)
  else (s1, false)

/-! ### Registers the ICU computes -/

/-- ICU_NEXT in the page of domain `d` (R583). -/
def icuNext (d : Nat) (s : State) : Word :=
  let v := fget (Reg.icuNextVec d) IcuNextVec.vec s
  let l := ((smKeys s.regs).filter fun o => decide (0x38000 ≤ o ∧ o < 0x3C000)).map fun o => (o - 0x38000) / 4
  match l.find? fun src => srcInflight src s && srcOwner s src == d &&
      (v == 0xFFF || (getDelivered src s).vecPlus1 == vecIndex d v + 1) with
  | some src => putF IcuNext.valid (putF IcuNext.count (putF IcuNext.src 0 src) (srcCount src s)) 1
  | none => 0

/-- ICU_STATUS.PEND_CNT: the sources that are pending. -/
def icuPendCount (s : State) : Nat := ((candidates s).filter fun src => srcPending src s).length

end Sys2Proof.Machine
end

