-- ==== Sys2Proof/Machine/Memory.lean ====
section
/-! DEFINITION. Frame store memory (chapter of that name): the bytes, the code over 64-byte words, the address maps, the
controllers' queues, retraining, self-refresh, scrub, and the region memory agents' budgets. -/

namespace Sys2Proof.Machine

open Sys2Proof

/-! ### Bytes -/

/-- The size of the frame store: device addresses run from 0 to 144 GiB - 1 (R359). -/
def hbmSize : Nat := 144 * 2 ^ 30

def inRanges (a : Nat) : List (Nat × Nat) → Bool
  | [] => false
  | (lo, hi) :: rs => decide (lo ≤ a ∧ a < hi) || inRanges a rs

/-- What an address that no cell lists reads as: 0 in a zero range, nothing where it has never been written (R388). -/
def memDefault (m : Mem) (a : Nat) : Option Byte := if inRanges a m.zeroed then some 0 else none

/-- One byte, or none where it has never been written. -/
def memGet (m : Mem) (a : Nat) : Option Byte :=
  match smFind a m.cells with
  | some b => some b
  | none => memDefault m a

/-- Insert a range into a list of ranges in rising order that do not touch, keeping that form. -/
def rangeAdd (lo hi : Nat) : List (Nat × Nat) → List (Nat × Nat)
  | [] => if lo < hi then [(lo, hi)] else []
  | (l, h) :: rs =>
    if hi ≤ lo then (l, h) :: rs
    else if hi < l then (lo, hi) :: (l, h) :: rs
    else if h < lo then (l, h) :: rangeAdd lo hi rs
    else rangeAdd (min lo l) (max hi h) rs

/-- Take one address out of a list of ranges. -/
def rangeDel (a : Nat) : List (Nat × Nat) → List (Nat × Nat)
  | [] => []
  | (l, h) :: rs =>
    if h ≤ a then (l, h) :: rangeDel a rs
    else if a < l then (l, h) :: rs
    else (if l < a then [(l, a)] else []) ++ ((if a + 1 < h then [(a + 1, h)] else []) ++ rs)

/-- Write one byte: a zero byte stands in the zero ranges, any other is listed. -/
def memPut (m : Mem) (a : Nat) (b : Byte) : Mem :=
  if b = 0 then { cells := smDel a m.cells, zeroed := rangeAdd a (a + 1) m.zeroed }
  else { cells := smPut a b m.cells, zeroed := rangeDel a m.zeroed }

def memPutList (m : Mem) (a : Nat) : List Byte → Mem
  | [] => m
  | b :: bs => memPutList (memPut m a b) (a + 1) bs

/-- Write zeros to every byte from `lo` up to `hi`. -/
def memZero (m : Mem) (lo hi : Nat) : Mem :=
  { cells := m.cells.filter fun e => !decide (lo ≤ e.1 ∧ e.1 < hi), zeroed := rangeAdd lo hi m.zeroed }

/-- Ranges in rising order, not empty and not touching. -/
def rangesWf : List (Nat × Nat) → Bool
  | [] => true
  | (l, h) :: rs => decide (l < h) && (match rs with | [] => true | (l', _) :: _ => decide (h < l')) && rangesWf rs

/-- Listed addresses strictly rise, none is in a zero range and no listed byte is 0. -/
def cellsWf (zeroed : List (Nat × Nat)) : List Host.Cell → Bool
  | [] => true
  | (a, b) :: m => !inRanges a zeroed && (decide (b ≠ 0) && (smAbove a m && cellsWf zeroed m))

/-- The canonical form of the frame store's bytes: each byte written stands in one place, as a cell or in a zero range. -/
abbrev Mem.wf (m : Mem) : Prop := cellsWf m.zeroed m.cells = true ∧ rangesWf m.zeroed = true

/-! ### Address maps (R360 to R362) -/

/-- 2 MiB. -/
def unitSize : Nat := 2 ^ 21

/-- The carve-out that holds device address `a`, with its index. -/
def carveAt (a : Nat) : List Carve → Nat → Option (Nat × Carve)
  | [], _ => none
  | c :: cs, i =>
    if c.kind ≠ 0xFF ∧ c.base * unitSize ≤ a ∧ a < (c.base + c.size) * unitSize then some (i, c)
    else carveAt a cs (i + 1)

/-- The place of a byte: stack, channel, pseudo-channel, bank, row and byte of the page. -/
structure Place where
  stack : Nat
  channel : Nat
  pseudo : Nat
  bank : Nat
  row : Nat
  column : Nat
  deriving DecidableEq, Repr

/-- The effective grain, group size and pixel-map shift (R361, R362): the shift is 0 for X = 0. -/
def mapParams (c : Option Carve) (u : Nat) : Nat × Nat × Nat :=
  match c with
  | none => (16384, 1, 0)
  | some c =>
    let g := c.map % 16
    if c.map / 128 % 2 = 0 then (1024, 1, g)
    else if g ≤ 6 then (2 ^ (8 + g), 1, 0)
    else
      let n := if g = 7 then 2 else 4
      let u0 := n * (u / n)
      if c.base ≤ u0 ∧ u0 + n ≤ c.base + c.size then (2 ^ (8 + g), n, 0) else (16384, 1, 0)

/-- R360. -/
def place (carves : List Carve) (a : Nat) : Place :=
  let u := a / unitSize
  let (e, n, sft) := mapParams ((carveAt a carves 0).map Prod.snd) u
  let u0 := n * (u / n)
  let o := a - u0 * unitSize
  let c := o / e
  let i := c % 128
  let p := u0 * 16384 + c / 128 * e + o % e
  let q := p / 1024
  let h := q / 16
  let row := h / 3
  let x := if sft = 0 then 0 else row / 2 ^ (sft - 1) % 16
  { stack := i % 4, channel := i / 4 % 16, pseudo := i / 64, bank := 16 * (h % 3) + (q % 16 ^^^ x), row := row,
    column := p % 1024 }

def placeOf (s : State) (a : Nat) : Place := place s.comp.carves a

/-! ### The code over a word (R378 to R384) -/

/-- Who reads a word: a demand read in a mesh class, the read of a sub-word write, or patrol scrub. -/
inductive ReadFor
  | demand (cls : Nat)
  | subWord
  | scrub
  deriving DecidableEq, Repr

/-- What the decoder finds. -/
inductive Decoded
  | clean
  | corrected (syms : Nat)
  | bad
  deriving DecidableEq, Repr

def fsMem (s : State) : Mem := s.fs.mem

def setMem (m : Mem) (s : State) : State := { s with fs := { s.fs with mem := m } }

/-- Whether word `w` has been written since power-up. -/
def wordWritten (w : Nat) (s : State) : Bool := (memGet (fsMem s) (64 * w)).isSome

/-- The decoder's outcome on word `w` (R378, R382, R388): poisoned words are uncorrectable, 1 or 2 bad symbols are
corrected, 3 to 6 are found uncorrectable, and more are open. -/
def decodeWord (w : Nat) (s : State) : Decoded :=
  if smGet false w s.fs.poison then .bad
  else if !wordWritten w s then
    match Config.unwrittenOutcome w with
    | 0 => .bad
    | 1 => .corrected 1
    | _ => .clean
  else
    let e := smGet 0 w s.fs.syms
    if e = 0 then .clean
    else if e ≤ 2 then .corrected e
    else if e ≤ 6 then .bad
    else
      match Config.beyondCode w e with
      | 0 => .bad
      | 1 => .corrected 2
      | _ => .clean

/-- Byte `i` of word `w` as a read returns it. -/
def wordByte (w i : Nat) (s : State) : Byte :=
  if 6 < smGet 0 w s.fs.syms then Config.beyondByte w (smGet 0 w s.fs.syms) i
  else (memGet (fsMem s) (64 * w + i)).getD (Config.unwrittenByte w i)

def wordBytes (w : Nat) (s : State) : List Byte := (List.range 64).map fun i => wordByte w i s

/-- The controller that serves word `w`. -/
def ctlOf (w : Nat) (s : State) : Nat := (placeOf s (64 * w)).stack

/-- Count a corrected word: MEM_CE_CNT, MEM_CE_ADDR, the leaky bucket and CE_STORM (R381). -/
def countCorrected (w syms : Nat) (s : State) : State :=
  let c := ctlOf w s
  let s1 := bump (Reg.memCeCnt c) MemCeCnt.memCeCnt s
  let s2 := wr (Reg.memCeAddrLo c) (BitVec.ofNat 32 (64 * w)) s1
  let s3 := fput (Reg.memCeAddrHi c) MemCeAddrHi.ceSyms syms
    (fput (Reg.memCeAddrHi c) MemCeAddrHi.ceAddrHi (64 * w / 2 ^ 32) s2)
  let b := fget (Reg.memStatus c) MemStatus.bucket s3
  let th := max 1 (fget (Reg.memEccCtl c) MemEccCtl.thresh s3)
  let s4 := bump (Reg.memStatus c) MemStatus.bucket s3
  if b + 1 = th then raise (128 + 16 * c) (fset (Reg.memStatus c) MemStatus.ceStorm s4) else s4

/-- Count an uncorrectable word of a demand read or a sub-word write, and latch the first (R384). -/
def countUncorrectable (w cls : Nat) (s : State) : State :=
  let c := ctlOf w s
  let s1 := bump (Reg.memUeCnt c) MemUeCnt.ueCnt s
  if fbit (Reg.memStatus c) MemStatus.ue s then s1
  else
    let s2 := wr (Reg.memUeAddrLo c) (BitVec.ofNat 32 (64 * w)) s1
    let s3 := fput (Reg.memUeAddrHi c) MemUeAddrHi.ueClass cls
      (fput (Reg.memUeAddrHi c) MemUeAddrHi.ueAddrHi (64 * w / 2 ^ 32) s2)
    raise (128 + 16 * c + 1) (fset (Reg.memStatus c) MemStatus.ue s3)

/-- The reports a read of word `w` makes. -/
def countRead (f : ReadFor) (w : Nat) (s : State) : State :=
  match decodeWord w s with
  | .clean => s
  | .corrected n => countCorrected w n s
  | .bad =>
    match f with
    | .demand cls => countUncorrectable w cls s
    | .subWord => countUncorrectable w 7 s
    | .scrub => bump (Reg.memUeCnt (ctlOf w s)) MemUeCnt.scrubUe s

/-- Store a whole word with new check bytes, or with the poison pattern (R382, R383). -/
def storeWord (w : Nat) (bytes : List Byte) (poisoned : Bool) (s : State) : State :=
  { s with fs := { s.fs with
      mem := memPutList s.fs.mem (64 * w) bytes
      poison := smSet false w poisoned s.fs.poison
      syms := smSet 0 w 0 s.fs.syms } }

/-- Read a word: its bytes and whether it comes back poisoned. -/
def readWord (cls w : Nat) (s : State) : (List Byte × Bool) × State :=
  ((wordBytes w s, decide (decodeWord w s = .bad)), countRead (.demand cls) w s)

/-- Replace the bytes of `old` from index `i` by `new`, where they lie inside. -/
def overlay (old : List Byte) (i : Nat) (new : List Byte) : List Byte :=
  (old.take i ++ new ++ old.drop (i + new.length)).take old.length

/-- A sub-word write (R369): read, correct, merge, write the whole word; a word found uncorrectable keeps the poison
pattern (R382, R390). -/
def writePart (w i : Nat) (bytes : List Byte) (poisoned : Bool) (s : State) : State :=
  storeWord w (overlay (wordBytes w s) i bytes) (poisoned || decide (decodeWord w s = .bad)) (countRead .subWord w s)

/-! ### HDM decoders (R524 to R527) -/

def getHdm (k : Nat) (s : State) : Hdm := smGet Hdm.init k s.cxl.hdm
def setHdm (k : Nat) (x : Hdm) (s : State) : State := { s with cxl := { s.cxl with hdm := smSet Hdm.init k x s.cxl.hdm } }

/-- The exposed carve-out of decoder `k`. -/
def hdmCarve (k : Nat) (s : State) : Option Carve := (s.comp.carves.filter fun c => c.kind != 0xFF && c.hdm != 0)[k]?

/-- The device serves CXL.mem: the link is up in CXL mode. -/
def memServed (s : State) : Bool := s.pwr.linkUp && !s.pwr.linkPcie && !s.pwr.bypass

/-! ### Host bias (R528) -/

/-- The host address of word `w` where it lies in a carve-out in host bias whose decoder is committed. -/
def hostLine (w : Nat) (s : State) : Option Nat :=
  (List.range 8).findSome? fun k =>
    match hdmCarve k s with
    | some c =>
      let h := getHdm k s
      if c.hdm = 1 ∧ h.committed = true ∧ c.base * unitSize ≤ 64 * w ∧ 64 * w < (c.base + c.size) * unitSize then
        some (h.base + (64 * w - c.base * unitSize))
      else none
    | none => none

/-- The device resolves the coherence of word `w` with the host's caches: a line that one of them holds changed comes back first. What they
hold is open (assumption 184). -/
def resolveWord (w : Nat) (s : State) : State :=
  match hostLine w s with
  | none => s
  | some a =>
    let s1 := stepFree (emit (.cacheResolve a) s)
    if Config.hostHolds s.freeCtr w then storeWord w ((List.range 64).map (Config.hostByte s.freeCtr w)) false s1 else s1

/-- Before an engine or a DMA channel accesses the bytes [a, a + n). -/
def resolve (a n : Nat) (s : State) : State :=
  if memServed s && curMode s != 5 && s.comp.carves.any fun c => c.hdm == 1 then
    (List.range' (a / 64) ((a + n + 63) / 64 - a / 64)).foldl (fun b w => resolveWord w b) s
  else s

/-! ### Runs of bytes -/

/-- Write bytes from device address `a`, word by word; `fuel` bounds the words. -/
def writeBytesFuel : Nat → Nat → List Byte → Bool → State → State
  | 0, _, _, _, s => s
  | fuel + 1, a, bytes, poisoned, s =>
    if bytes.isEmpty then s
    else
      let w := a / 64
      let i := a % 64
      let here := bytes.take (64 - i)
      let rest := bytes.drop (64 - i)
      let s1 := if here.length = 64 then storeWord w here poisoned s else writePart w i here poisoned s
      writeBytesFuel fuel (64 * (w + 1)) rest poisoned s1

/-- Write bytes from device address `a`. -/
def putBytes (a : Nat) (bytes : List Byte) (poisoned : Bool) (s : State) : State :=
  writeBytesFuel (bytes.length / 64 + 2) a bytes poisoned s

/-- An engine or a DMA channel writes bytes from device address `a`. -/
def writeBytes (a : Nat) (bytes : List Byte) (poisoned : Bool) (s : State) : State :=
  putBytes a bytes poisoned (resolve a bytes.length s)

/-- Read `n` bytes from device address `a`: the bytes, and whether any word came back poisoned. -/
def readBytesFuel : Nat → Nat → Nat → Nat → State → (List Byte × Bool) × State
  | 0, _, _, _, s => (([], false), s)
  | fuel + 1, cls, a, n, s =>
    if n = 0 then (([], false), s)
    else
      let w := a / 64
      let i := a % 64
      let k := min n (64 - i)
      let r := readWord cls w s
      let t := readBytesFuel fuel cls (64 * (w + 1)) (n - k) r.2
      (((r.1.1.drop i).take k ++ t.1.1, r.1.2 || t.1.2), t.2)

/-- What an engine or a DMA channel reads so. -/
def readBytes (cls a n : Nat) (s : State) : (List Byte × Bool) × State := readBytesFuel (n / 64 + 2) cls a n (resolve a n s)

/-- Read `n` bytes with a mark on each that came from a poisoned word. -/
def readTaggedFuel : Nat → Nat → Nat → Nat → State → List (Byte × Bool) × State
  | 0, _, _, _, s => ([], s)
  | fuel + 1, cls, a, n, s =>
    if n = 0 then ([], s)
    else
      let i := a % 64
      let k := min n (64 - i)
      let r := readWord cls (a / 64) s
      let t := readTaggedFuel fuel cls (64 * (a / 64 + 1)) (n - k) r.2
      (((r.1.1.drop i).take k).map (·, r.1.2) ++ t.1, t.2)

/-- What an engine or a DMA channel reads so. -/
def readTagged (cls a n : Nat) (s : State) : List (Byte × Bool) × State := readTaggedFuel (n / 64 + 2) cls a n (resolve a n s)

/-- Write marked bytes: a word that receives a marked byte gets the poison pattern (R435). -/
def writeTaggedFuel : Nat → Nat → List (Byte × Bool) → State → State
  | 0, _, _, s => s
  | fuel + 1, a, bytes, s =>
    if bytes.isEmpty then s
    else
      let i := a % 64
      let here := bytes.take (64 - i)
      let p := here.any Prod.snd
      let s1 := if here.length = 64 then storeWord (a / 64) (here.map Prod.fst) p s
        else writePart (a / 64) i (here.map Prod.fst) p s
      writeTaggedFuel fuel (64 * (a / 64 + 1)) (bytes.drop (64 - i)) s1

/-- What an engine or a DMA channel writes so. -/
def writeTagged (a : Nat) (bytes : List (Byte × Bool)) (s : State) : State :=
  writeTaggedFuel (bytes.length / 64 + 2) a bytes (resolve a bytes.length s)

/-! ### The controllers' queues (R364 to R369) -/

def getPseudo (c ch p : Nat) (s : State) : Pseudo := smGet Pseudo.init (32 * c + 2 * ch + p) s.fs.pseudos
def setPseudo (c ch p : Nat) (x : Pseudo) (s : State) : State :=
  { s with fs := { s.fs with pseudos := smSet Pseudo.init (32 * c + 2 * ch + p) x s.fs.pseudos } }

def getBank (x : Pseudo) (b : Nat) : Bank := smGet Bank.init b x.banks
def setBank (x : Pseudo) (b : Nat) (v : Bank) : Pseudo := { x with banks := smSet Bank.init b v x.banks }

def getMemChannel (c ch : Nat) (s : State) : MemChannel := smGet MemChannel.init (16 * c + ch) s.fs.channels
def setMemChannel (c ch : Nat) (x : MemChannel) (s : State) : State :=
  { s with fs := { s.fs with channels := smSet MemChannel.init (16 * c + ch) x s.fs.channels } }

def getMemCtl (c : Nat) (s : State) : MemCtl := smGet MemCtl.init c s.fs.ctls
def setMemCtl (c : Nat) (x : MemCtl) (s : State) : State :=
  { s with fs := { s.fs with ctls := smSet MemCtl.init c x s.fs.ctls } }

/-- A request that waits in the input buffer, or in a bank queue, with its bank and row. The queue entry keeps the row in
the request's word address, from which the place is found again. -/
def reqPlace (s : State) (r : MemReq) : Place := placeOf s (64 * r.word)

/-- A controller accepts a request unless one of its channels' input buffers is full (R364). -/
def ctlAccepts (c : Nat) (s : State) : Bool :=
  (List.range 16).all fun ch => decide ((getMemChannel c ch s).input.length < 256)

/-- A request enters its bank queue, or the channel's input buffer where the queue holds 8, or where one for its bank waits there already
(R364, R365). -/
def enqueueReq (r : MemReq) (s : State) : State :=
  let p := reqPlace s r
  let x := getPseudo p.stack p.channel p.pseudo s
  let b := getBank x p.bank
  let ch := getMemChannel p.stack p.channel s
  if b.queue.length < 8 ∧ (ch.input.all fun e => e.1 != p.pseudo || e.2.1 != p.bank) = true then
    setPseudo p.stack p.channel p.pseudo (setBank x p.bank { b with queue := b.queue ++ [r] }) s
  else
    setMemChannel p.stack p.channel { ch with input := ch.input ++ [(p.pseudo, p.bank, p.row, r)] } s

/-- MEM_STATUS.MEM_STATE. -/
def memState (c : Nat) (s : State) : Nat := fget (Reg.memStatus c) MemStatus.memState s

/-! ### The mesh output towards a controller (R33 to R35) -/

def getMesh (c : Nat) (s : State) : MeshOut := smGet MeshOut.init c s.fs.mesh
def setMesh (c : Nat) (x : MeshOut) (s : State) : State := { s with fs := { s.fs with mesh := smSet MeshOut.init c x s.fs.mesh } }

/-- Inputs of a mesh output, in rotating order after the last winner. -/
def inputTurn (last i : Nat) : Nat := (i + 31 - last) % 32

/-- Whether flit `a` goes before flit `b` (R33): the older, then the lower class, then the input next in turn. -/
def flitBefore (last : Nat) (a b : Flit) : Bool :=
  decide (a.injected < b.injected)
    || (decide (a.injected = b.injected) && (decide (a.req.cls < b.req.cls)
      || (decide (a.req.cls = b.req.cls) && decide (inputTurn last a.input < inputTurn last b.input))))

/-- The first flit of a list by `flitBefore`. -/
def firstFlit (last : Nat) : List Flit → Option Flit
  | [] => none
  | f :: l =>
    match firstFlit last l with
    | none => some f
    | some g => some (if flitBefore last g f then g else f)

/-- A class of `x` holds a credit. -/
def hasCredit (n cls : Nat) (x : MeshOut) : Bool := decide (smGet 0 cls x.used < n)

/-- The winner at a mesh output (R33, R34): the first among the flits whose class holds a credit. -/
def meshWinner (n : Nat) (x : MeshOut) : Option Flit :=
  firstFlit x.last (x.asking.filter fun f => hasCredit n f.req.cls x)

/-- The winner crosses the link into its class buffer and takes a credit. -/
def meshGrant (f : Flit) (x : MeshOut) : MeshOut :=
  { asking := x.asking.erase f
    used := smSet 0 f.req.cls (smGet 0 f.req.cls x.used + 1) x.used
    buffers := smSet [] f.req.cls (smGet [] f.req.cls x.buffers ++ [f]) x.buffers
    last := f.input }

/-- The flit that leaves the class buffers next: the first of their heads in the order of the mesh. -/
def bufferHead (x : MeshOut) : Option Flit := firstFlit x.last (x.buffers.filterMap fun e => e.2.head?)

/-- A flit leaves its class buffer, and its credit returns (R35). -/
def bufferTake (f : Flit) (x : MeshOut) : MeshOut :=
  { x with
    used := smSet 0 f.req.cls (smGet 0 f.req.cls x.used - 1) x.used
    buffers := smSet [] f.req.cls (smGet [] f.req.cls x.buffers).tail x.buffers }

/-- A request reaches controller `c` (R374). -/
def hearStack (c : Nat) (s : State) : State := setMemCtl c { getMemCtl c s with heardAt := s.now } s

/-- The controller's port takes a request (R364, R376): in self-refresh the request waits for the exit. -/
def portTake (c : Nat) (r : MemReq) (s0 : State) : State :=
  let s := hearStack c s0
  if memState c s = 2 then setMemCtl c { getMemCtl c s with srWaiting := (getMemCtl c s).srWaiting ++ [r] } s
  else enqueueReq r s

/-- What moves at the mesh output of controller `c`: winners cross while credits last, and the port takes heads of the class
buffers while the controller accepts. `n` bounds the moves. -/
def meshAdvance (c : Nat) : Nat → State → State
  | 0, s => s
  | n + 1, s =>
    let x := getMesh c s
    match meshWinner s.fs.meshCredits x with
    | some f => meshAdvance c n (setMesh c (meshGrant f x) s)
    | none =>
      match bufferHead x with
      | some f => if ctlAccepts c s then meshAdvance c n (portTake c f.req (setMesh c (bufferTake f x) s)) else s
      | none => s

/-- Moves that are enough: each flit crosses once and is taken once. -/
def meshMoves (x : MeshOut) : Nat := 2 * x.asking.length + x.buffers.foldl (fun n e => n + e.2.length) 0 + 1

/-- All that can move now at the mesh output of controller `c` moves. -/
def meshRun (c : Nat) (s : State) : State := meshAdvance c (meshMoves (getMesh c s)) s

/-- A flit asks for the mesh output of the controller of its word. -/
def meshSend (f : Flit) (s : State) : State :=
  let c := (reqPlace s f.req).stack
  let x := getMesh c s
  meshRun c (setMesh c { x with asking := x.asking ++ [f] } s)

/-- Further symbols of word `w` go bad: what a later read of it finds (R378). -/
def corrupt (w n : Nat) (s : State) : State :=
  { s with fs := { s.fs with syms := smSet 0 w (min 72 (smGet 0 w s.fs.syms + n)) s.fs.syms } }

/-- Perform a request that its column command serves (R366, R369, R378). `first` is the byte of the
word where a sub-word write begins. -/
def serveReq (r : MemReq) (s0 : State) : State :=
  let s := if r.cls = 4 then s0 else resolve (64 * r.word) 64 s0
  if r.write then
    (if r.data.length = 64 then storeWord r.word r.data r.poisoned s
     else writePart r.word r.first r.data r.poisoned s)
  else
    let x := readWord r.cls r.word s
    emit (.memData (64 * r.word) x.1.1 x.1.2) x.2

/-- The first bank of `order` whose queue head satisfies `ok`. -/
def firstBank (x : Pseudo) (ok : Nat → MemReq → Bool) : List Nat → Option (Nat × MemReq)
  | [] => none
  | b :: bs =>
    match (getBank x b).queue with
    | r :: _ => if ok b r then some (b, r) else firstBank x ok bs
    | [] => firstBank x ok bs

/-- Banks in rotating order after bank `last`. -/
def bankOrder (last : Nat) : List Nat := (List.range 48).map fun i => (last + 1 + i) % 48

/-- A request of the input buffer moves into its bank queue when there is room (R364). -/
def drainInput (c ch : Nat) (s : State) : State :=
  let mc := getMemChannel c ch s
  match mc.input.find? fun e => decide ((getBank (getPseudo c ch e.1 s) e.2.1).queue.length < 8) with
  | none => s
  | some e =>
    let x := getPseudo c ch e.1 s
    let b := getBank x e.2.1
    setPseudo c ch e.1 (setBank x e.2.1 { b with queue := b.queue ++ [e.2.2.2] })
      (setMemChannel c ch { mc with input := mc.input.erase e } s)

/-- The column command of a memory clock (R366): the first queue head, in rotating order after the bank that last received
one, whose row is open and whose timing allows it. -/
def columnCommand (c ch p : Nat) (ready : List Nat) (s : State) : State :=
  let x := getPseudo c ch p s
  match firstBank x (fun b r => decide (b ∈ ready) && (getBank x b).openRow == (reqPlace s r).row + 1)
      (bankOrder x.lastCol) with
  | none => s
  | some (b, r) =>
    let k := getBank x b
    let closes := fget (Reg.memCtl c) MemCtl.idleTimer s == 0
    let k' := { k with queue := k.queue.drop 1, openRow := if closes then 0 else k.openRow, usedAt := s.now }
    serveReq r (setPseudo c ch p { setBank x b k' with lastCol := b } s)

/-- The activate or precharge of a memory clock (R366, R367): the first queue head whose row is not open. A bank with
another row open is precharged, a closed bank is activated. -/
def activateCommand (c ch p : Nat) (ready : List Nat) (s : State) : State :=
  let x := getPseudo c ch p s
  match firstBank x (fun b r => decide (b ∈ ready) && (getBank x b).openRow != (reqPlace s r).row + 1)
      (bankOrder x.lastAct) with
  | none => s
  | some (b, r) =>
    let k := getBank x b
    if k.openRow = 0 then
      setPseudo c ch p { setBank x b { k with openRow := (reqPlace s r).row + 1 } with lastAct := b } s
    else setPseudo c ch p (setBank x b { k with openRow := 0 }) s

/-- The channel's requests are stalled: it is being retrained, or its stack is not in service (R370, R376). -/
def channelStalled (c ch : Nat) (s : State) : Bool := (getMemCtl c s).training == ch + 1 || memState c s != 1

/-- Symbols of words that lie in a pseudo-channel have gone bad (R378): which and how many, as the operand of the command has it. -/
def upsetWords (c ch p : Nat) (l : List (Nat × Nat)) (s : State) : State :=
  l.foldl (fun a e =>
    let x := placeOf a (64 * e.1)
    if x.stack = c ∧ x.channel = ch ∧ x.pseudo = p then corrupt e.1 e.2 a else a) s

/-- One memory clock of a pseudo-channel. `colReady` and `actReady` name the banks whose timing allows the command. -/
def pseudoIssue (c ch p : Nat) (colReady actReady : List Nat) (s : State) : State :=
  if channelStalled c ch s then s
  else meshRun c (drainInput c ch (activateCommand c ch p actReady (columnCommand c ch p colReady s)))

/-- A bank with an empty queue closes its row once IDLE_TIMER memory clocks have passed since its last column command (R367); the memory
clock is 1.6 GHz, as the mesh clock is (R357). -/
def pageClose (c ch p b : Nat) (s : State) : State :=
  let x := getPseudo c ch p s
  let k := getBank x b
  if k.queue.isEmpty && decide (k.usedAt + fget (Reg.memCtl c) MemCtl.idleTimer s ≤ s.now) then setPseudo c ch p (setBank x b { k with openRow := 0 }) s else s

/-- A refresh falls due, of the next bank in rotating order (R368): a busy bank's may be postponed, up to 8 intervals; else the bank
refreshes. -/
def bankRefresh (c ch p : Nat) (postpone : Bool) (s : State) : State :=
  let b := ((getPseudo c ch p s).lastRef + 1) % 48
  let x : Pseudo := { getPseudo c ch p s with lastRef := b }
  let k := getBank x b
  if postpone && !k.queue.isEmpty && decide (k.postponed < 8) then
    setPseudo c ch p (setBank x b { k with postponed := k.postponed + 1 }) s
  else setPseudo c ch p (setBank x b { k with postponed := 0, openRow := 0 }) s

/-! ### Retraining and self-refresh (R370 to R377) -/

/-- Start retraining a channel, or wait while another of the controller is in progress (R370). -/
def startTraining (c ch : Nat) (auto : Bool) (s : State) : State :=
  let k := getMemCtl c s
  if k.training ≠ 0 then setMemCtl c { k with waiting := k.waiting ++ [ch + (if auto then 16 else 0)] } s
  else setMemCtl c { k with training := ch + 1, autoTraining := auto } s

/-- An HBM_RETRAIN entry reaches controller `c` (R370, R377). -/
def hbmRetrain (c ch : Nat) (s : State) : State :=
  if memState c s = 2 then s
  else startTraining c ch false (bumpWrap (Reg.memRetrainCnt c) MemRetrainCnt.retrainCnt s)

/-- Mesh cycles in a second (R8). -/
def cyclesPerSecond : Nat := 1600000000

/-- Two seconds have passed without a successful retraining of the channel, and since the controller last retrained it by itself (R372). -/
def retrainLate (c ch : Nat) (s : State) : Bool :=
  decide (max (getMemChannel c ch s).goodAt (getMemChannel c ch s).autoAt + 2 * cyclesPerSecond ≤ s.now)

/-- Two seconds without a successful retraining (R372). -/
def autoRetrain (c ch : Nat) (s0 : State) : State :=
  if memState c s0 ≠ 1 ∨ retrainLate c ch s0 = false then s0
  else
    let s := setMemChannel c ch { getMemChannel c ch s0 with autoAt := s0.now } s0
    startTraining c ch true (raise (128 + 16 * c + 3)
    (fset (Reg.memStatus c) MemStatus.autoRetrain (bump (Reg.memRetrainCnt c) MemRetrainCnt.autoCnt s)))

/-- The retraining in progress ends (R370); the next that waits begins. -/
def retrainEnd (c : Nat) (s : State) : State :=
  let k := getMemCtl c s
  match k.waiting with
  | [] => setMemCtl c { k with training := 0, autoTraining := false } s
  | w :: ws => setMemCtl c { k with training := w % 16 + 1, autoTraining := decide (16 ≤ w), waiting := ws } s

/-- A channel has been retrained with success (R372). -/
def channelTrained (c ch : Nat) (s : State) : State := setMemChannel c ch { getMemChannel c ch s with goodAt := s.now } s

/-- All 16 channels of a stack have been. -/
def stackTrained (c : Nat) (s : State) : State := (List.range 16).foldl (fun a ch => channelTrained c ch a) s

/-- A failed retraining leaves the settings; RETRAIN_FAIL is set and its source raised (R373). -/
def retrainFailed (c : Nat) (s : State) : State := raise (128 + 16 * c + 2) (fset (Reg.memStatus c) MemStatus.retrainFail s)

/-- The stack has no request queued. -/
def stackIdle (c : Nat) (s : State) : Bool :=
  (getMesh c s).asking.isEmpty && (getMesh c s).buffers.isEmpty && (s.fs.pseudos.all fun e => e.1 / 32 != c || e.2.banks.all fun b => b.2.queue.isEmpty)
    && (s.fs.channels.all fun e => e.1 / 16 != c || e.2.input.isEmpty)

/-- Close every bank of a stack. -/
def closeStack (c : Nat) (s : State) : State :=
  (List.range 32).foldl (fun a k =>
    let x := getPseudo c (k / 2) (k % 2) a
    setPseudo c (k / 2) (k % 2) ((smKeys x.banks).foldl (fun y b => setBank y b { getBank y b with openRow := 0 }) x) a) s

/-- The stack has received no request for SR_IDLE milliseconds (R374). -/
def quietLong (c : Nat) (s : State) : Bool :=
  decide ((getMemCtl c s).heardAt + 1600000 * fget (Reg.memCtl c) MemCtl.srIdle s ≤ s.now)

/-- Self-refresh entry (R374, R375): a request that arrives before the entry command cancels it, and the idle count starts again. -/
def selfRefreshEntry (c : Nat) (cancelled : Bool) (s : State) : State :=
  if curMode s = 2 ∧ fbit (Reg.memCtl c) MemCtl.srEn s = true ∧ memState c s = 1 ∧ stackIdle c s = true ∧ quietLong c s = true then
    (if cancelled then hearStack c (bump (Reg.memSrCnt c) MemSrCnt.srCancel s)
     else fput (Reg.memStatus c) MemStatus.memState 2 (bump (Reg.memSrCnt c) MemSrCnt.srEntry (closeStack c s)))
  else s

/-- Self-refresh exit (R376): the stack is back in service, its channels retrained, and the requests that waited enter their
queues. -/
def selfRefreshExit (c : Nat) (s : State) : State :=
  if memState c s = 2 then
    let k := getMemCtl c s
    let s1 := stackTrained c (setMemCtl c { k with srWaiting := [] } (fput (Reg.memStatus c) MemStatus.memState 1 s))
    meshRun c (k.srWaiting.foldl (fun a r => enqueueReq r a) s1)
  else s

/-- Every stack leaves self-refresh (R377: before RUN and MAINTAIN). -/
def leaveSelfRefresh (s : State) : State := [0, 1, 2, 3].foldl (fun a c => selfRefreshExit c a) s

/-! ### Bucket and scrub (R381, R386) -/

/-- LEAK_US microseconds have passed since the bucket last leaked. -/
def leakDue (c : Nat) (s : State) : Bool :=
  decide ((getMemCtl c s).leakAt + 1600 * fget (Reg.memEccCtl c) MemEccCtl.leakUs s ≤ s.now)

def bucketLeak (c : Nat) (s : State) : State :=
  if leakDue c s then
    fput (Reg.memStatus c) MemStatus.bucket (fget (Reg.memStatus c) MemStatus.bucket s - 1)
      (setMemCtl c { getMemCtl c s with leakAt := s.now } s)
  else s

/-- A write to MEM_ECC_CTL sets the bucket to 0. -/
def eccCtlWrite (c : Nat) (v : Word) (s : State) : State :=
  fput (Reg.memStatus c) MemStatus.bucket 0 (wr (Reg.memEccCtl c) (v &&& 0xFFFF00FF#32) s)

/-- The words of the 1 KiB page that begins at device address `a` (R360: with a grain below 1 KiB the page's bytes lie 128
grains apart). -/
def pageWords (s : State) (a : Nat) : List Nat :=
  let (e, _, _) := mapParams ((carveAt a s.comp.carves 0).map Prod.snd) (a / unitSize)
  (List.range 16).map fun i => (a + (if e < 1024 then 64 * i / e * (128 * e) + 64 * i % e else 64 * i)) / 64

/-- Scrub one word: a corrected word is rewritten with its corrected data, an uncorrectable one is counted and left. -/
def scrubWord (w : Nat) (s : State) : State :=
  let s1 := countRead .scrub w s
  match decodeWord w s with
  | .corrected _ => storeWord w (wordBytes w s) false s1
  | _ => s1

/-- The pages of one stack that lie in a carve-out: 512 of each 2 MiB unit. -/
def scrubPages (s : State) : Nat :=
  512 * (s.comp.carves.foldl (fun n c => if c.kind = 0xFF then n else n + c.size) 0)

/-- MEMORY_TEST runs, and holds the stacks that its range lies in: units go to every stack in turn (R360, R387). -/
def memTestRuns (s : State) : Bool :=
  fbit Reg.cmdStatus CmdStatus.busy s && fget Reg.cmdStatus CmdStatus.curOp s == 0x22

/-- The device address at which page `j` of stack `c` in a carve-out begins, in rising order of the unit groups (R360 to R362). -/
def carvePage (v : Carve) (c j : Nat) : Nat :=
  let u := v.base + j / 512
  let (e, n, _) := mapParams (some v) u
  let u0 := n * (u / n)
  let k := j - (u0 - v.base) * 512
  u0 * unitSize + (if e < 1024 then (128 * (k / 32 * (1024 / e)) + 4 * (k % 32) + c) * e
    else (4 * (k / (e / 1024)) + c) * e + k % (e / 1024) * 1024)

/-- The page that scrubber position `n` of stack `c` stands at: the carve-outs in rising index. -/
def scrubTarget (c : Nat) : Nat → List Carve → Option Nat
  | _, [] => none
  | n, v :: l =>
    let k := if v.kind = 0xFF then 0 else 512 * v.size
    if n < k then some (carvePage v c n) else scrubTarget c (n - k) l

/-- The next page falls due: the pages of a pass stand evenly in PERIOD_H hours (R386). -/
def scrubDue (c : Nat) (s : State) : Bool :=
  decide (scrubPages s * (getMemCtl c s).scrubAt + 3600 * cyclesPerSecond * fget (Reg.memScrubCtl c) MemScrubCtl.periodH s ≤ scrubPages s * s.now)

/-- The scrubber of controller `c` takes its next page (R386, R387). The order of the pages is the model's (assumption 179). -/
def scrubPage (c : Nat) (s : State) : State :=
  match (if fget (Reg.memScrubCtl c) MemScrubCtl.periodH s = 0 ∨ memState c s ≠ 1 ∨ memTestRuns s = true ∨ scrubDue c s = false then none
    else scrubTarget c (rd (Reg.memScrubPos c) s).toNat s.comp.carves) with
  | none => s
  | some a =>
    let s1 := (pageWords s a).foldl (fun t w => scrubWord w t) (setMemCtl c { getMemCtl c s with scrubAt := s.now } s)
    let n := (rd (Reg.memScrubPos c) s1).toNat + 1
    if n < scrubPages s1 then wr (Reg.memScrubPos c) (BitVec.ofNat 32 n) s1
    else raise (128 + 16 * c + 4) (fset (Reg.memStatus c) MemStatus.scrubDone (wr (Reg.memScrubPos c) 0 s1))

/-! ### Budgets (R392 to R397) -/

/-- The entry of a pipeline in the composition in force. -/
def pipeEntry (p : Nat) (s : State) : Option PipeEntry := s.comp.pipes.find? fun e => e.pipe == p

/-- A pipeline uses a region when one of its blocks lies in it. -/
def usesRegion (e : PipeEntry) (r : Nat) : Bool := e.blocks.any fun b => b / 8 == r

/-- The pipelines that use region `r`, in rising order. -/
def regionPipes (r : Nat) (s : State) : List PipeEntry := s.comp.pipes.filter fun e => usesRegion e r

def pipeEnabled (p : Nat) (s : State) : Bool := fbit (Reg.pipCtl p) PipCtl.enable s

def enabledOn (r : Nat) (s : State) : List PipeEntry := (regionPipes r s).filter fun e => pipeEnabled e.pipe s

def budgetOf (p : Nat) (s : State) : Nat := fget (Reg.pipBudget p) PipBudget.budget s

/-- MA_STATUS.MA_BUDGET_SUM: the total BUDGET of the enabled pipelines of region `r`, as read back. -/
def budgetSum (r : Nat) (s : State) : Nat := (enabledOn r s).foldl (fun n e => n + budgetOf e.pipe s) 0

/-- BUDGET `v` of pipeline `p` beside the enabled pipelines keeps the total of every region it spans within 3,840 (R395, R396). -/
def budgetFits (p v : Nat) (s : State) : Bool :=
  match pipeEntry p s with
  | none => true
  | some e => ((List.range 16).filter (usesRegion e)).all fun r =>
      decide ((enabledOn r s).foldl (fun n e' => if e'.pipe = p then n else n + budgetOf e'.pipe s) v ≤ 3840)

/-- A write to PIP_BUDGET (R396): BUDGET_REJ is W1C; a write to an enabled pipeline of 0, or one that does not fit, is
dropped with BUDGET_REJ. -/
def budgetWrite (p : Nat) (v : Word) (s : State) : State :=
  let n := getF PipBudget.budget v
  let s1 := if getF PipBudget.budgetRej v = 1 then fclr (Reg.pipBudget p) PipBudget.budgetRej s else s
  if pipeEnabled p s = true ∧ (n = 0 ∨ budgetFits p n s = false) then fset (Reg.pipBudget p) PipBudget.budgetRej s1
  else fput (Reg.pipBudget p) PipBudget.budget n s1

/-- A pipeline has work in the region's blocks: it is enabled, or it has not drained yet (R234). -/
def pipeLive (p : Nat) (s : State) : Bool := pipeEnabled p s || fbit (Reg.pipStatus p) PipStatus.running s

/-- One pipeline's share of an arbitration window: pipeline, units of Belay and of other traffic wanted, budget left, weight. -/
structure Share where
  pipe : Nat
  belay : Nat
  other : Nat
  left : Nat
  weight : Nat
  deriving DecidableEq, Repr

/-- `g` units of a share are granted: Belay traffic first (R29). -/
def grantShare (g : Nat) (x : Share) : Share :=
  let b := min g x.belay
  { x with belay := x.belay - b, other := x.other - (g - b), left := x.left - g }

/-- One round of weighted round-robin (R27): each pipeline with requests and budget receives up to its weight. -/
def wrrRound (l : List Share) : List Share := l.map fun x => grantShare (min x.weight (min (x.belay + x.other) x.left)) x

def wrrRounds : Nat → List Share → List Share
  | 0, l => l
  | n + 1, l => wrrRounds n (wrrRound l)

/-- The budget in force for pipeline `p` at region `r`'s memory agent, taken up at the last window boundary. -/
def heldBudget (r p : Nat) (s : State) : Nat := smGet 0 (1024 * r + p) s.fs.budgets

/-- The place of a requester in the agent's tables: a pipeline, or the region's own traffic. -/
def agentKey (r : Nat) (p : Option Nat) : Nat := match p with | some n => 1024 * r + n | none => 16384 + r

/-- The units of every window that serve the region's own traffic (R395). -/
def ownUnits : Nat := 256

/-- What a requester has left of the window; its own traffic's units begin whole. -/
def agentLeft (r : Nat) (p : Option Nat) (s : State) : Nat :=
  smGet (match p with | some _ => 0 | none => ownUnits) (agentKey r p) s.fs.left

def setAgentLeft (r : Nat) (p : Option Nat) (v : Nat) (s : State) : State :=
  { s with fs := { s.fs with left := smSet (match p with | some _ => 0 | none => ownUnits) (agentKey r p) v s.fs.left } }

def agentQueue (r : Nat) (s : State) : List AgentReq := smGet [] r s.fs.agents
def setAgentQueue (r : Nat) (l : List AgentReq) (s : State) : State := { s with fs := { s.fs with agents := smSet [] r l s.fs.agents } }

/-- What a request costs (R392): a whole-word read or write 1, a sub-word write 2. -/
def reqCost (r : MemReq) : Nat := if r.write ∧ r.data.length ≠ 64 then 2 else 1

/-- A request of Belay traffic (R29, R32). -/
def isBelay (r : MemReq) : Bool := r.cls == 1

/-- The next request the agent can grant a requester: the first Belay one, else the first other one, where its budget lasts. -/
def agentNext (r : Nat) (p : Option Nat) (s : State) : Option AgentReq :=
  let l := (agentQueue r s).filter fun x => x.pipe == p
  match l.find? fun x => isBelay x.flit.req with
  | some x => if reqCost x.flit.req ≤ agentLeft r p s then some x else none
  | none =>
    match l with
    | x :: _ => if reqCost x.flit.req ≤ agentLeft r p s then some x else none
    | [] => none

/-- Grant a request: it is charged to its requester, counted, and goes to the mesh. -/
def agentGrant (r : Nat) (x : AgentReq) (s : State) : State :=
  meshSend x.flit (bumpWrapBy (reqCost x.flit.req) (Reg.maGrantCnt r) MaGrantCnt.maGrantCnt
    (setAgentLeft r x.pipe (agentLeft r x.pipe s - reqCost x.flit.req) (setAgentQueue r ((agentQueue r s).erase x) s)))

/-- Grant what a requester's budget allows; `n` bounds the grants. -/
def agentServe (r : Nat) (p : Option Nat) : Nat → State → State
  | 0, s => s
  | n + 1, s =>
    match agentNext r p s with
    | some x => agentServe r p n (agentGrant r x s)
    | none => s

/-- A pipeline still has requests waiting with its budget spent: the window counts once in THROTTLE_CNT, and marks the pictures in progress
(R397, R398). -/
def countThrottle (r p : Nat) (s : State) : State :=
  let k := 1024 * r + p
  if smGet false k s.fs.throttled then s
  else
    let mark := fun y : Pipe => { y with pics := y.pics.map fun q => if q.complete then q else { q with throttled := true } }
    let a := bumpWrap (Reg.pipBudgetStat p) PipBudgetStat.throttleCnt s
    { a with pipes := smSet Pipe.init p (mark (smGet Pipe.init p a.pipes)) a.pipes, fs := { a.fs with throttled := smSet false k true a.fs.throttled } }

/-- Requests of pipeline `p` wait at the agent because what is left of its budget does not cover the next. -/
def outOfBudget (r p : Nat) (s : State) : Bool := ((agentQueue r s).any fun x => x.pipe == some p) && (agentNext r (some p) s).isNone

/-- MEMORY_REQUEST: a request through a region memory agent takes its turn behind its requester's others and within its budget
(R27 to R29, R393); any other goes to the mesh at once. -/
def memoryRequest (via : Option (Nat × Option Nat)) (f : Flit) (s : State) : State :=
  match via with
  | none => meshSend f s
  | some (r, p) =>
    let s1 := agentServe r p ((agentQueue r s).length + 1) (setAgentQueue r (agentQueue r s ++ [⟨p, f⟩]) s)
    match p with
    | some n => if outOfBudget r n s1 then countThrottle r n s1 else s1
    | none => s1

/-- The cost of a pipeline's waiting requests, of Belay traffic or of other traffic. -/
def queuedCost (r p : Nat) (belay : Bool) (s : State) : Nat :=
  ((agentQueue r s).filter fun x => x.pipe == some p && isBelay x.flit.req == belay).foldl (fun n x => n + reqCost x.flit.req) 0

/-- Close one pipeline's part of a window's start: the requests that wait have what was granted, and what is left was asked for in bulk; THROTTLE_CNT
rises when requests still wait with the budget spent (R397). -/
def closeShare (r : Nat) (x0 x : Share) (s : State) : State :=
  let s1 := if 0 < x.belay + x.other ∧ x.left = 0 then countThrottle r x.pipe s else s
  let k := 1024 * r + x.pipe
  let belay := x0.belay - x.belay
  let b := min belay (smGet 0 k s.fs.belayWants)
  let s2 := agentServe r (some x.pipe) (agentQueue r s).length
    (setAgentLeft r (some x.pipe) (belay - b + (x0.other - x.other)) s1)
  let rest := agentLeft r (some x.pipe) s2
  let o := min rest (smGet 0 k s.fs.wants)
  let s3 := bumpWrapBy (b + o) (Reg.maGrantCnt r) MaGrantCnt.maGrantCnt (setAgentLeft r (some x.pipe) (x.left + (rest - o)) s2)
  { s3 with fs := { s3.fs with
      belayWants := smSet 0 k (smGet 0 k s.fs.belayWants - b) s3.fs.belayWants
      wants := smSet 0 k (smGet 0 k s.fs.wants - o) s3.fs.wants } }

/-- Add what the window's demands ask for in bulk: units of Belay traffic and of other traffic. -/
def addDemand (r : Nat) (d : PipeId × Nat × Nat) (s : State) : State :=
  let k := 1024 * r + d.1.val
  { s with fs := { s.fs with
      belayWants := smSet 0 k (smGet 0 k s.fs.belayWants + d.2.1) s.fs.belayWants
      wants := smSet 0 k (smGet 0 k s.fs.wants + d.2.2) s.fs.wants } }

/-- What pipeline `e` has asked for, in bulk and by the requests that wait, with its whole budget. -/
def openShare (r : Nat) (e : PipeEntry) (s : State) : Share :=
  { pipe := e.pipe
    belay := smGet 0 (1024 * r + e.pipe) s.fs.belayWants + queuedCost r e.pipe true s
    other := smGet 0 (1024 * r + e.pipe) s.fs.wants + queuedCost r e.pipe false s
    left := budgetOf e.pipe s
    weight := e.weight }

/-- The region's own units that its requests leave serve what it asks for in bulk: slot-switch state (R395). -/
def ownBulk (r : Nat) (s : State) : State :=
  let k := agentKey r none
  let n := min (agentLeft r none s) (smGet 0 k s.fs.belayWants)
  let s1 := bumpWrapBy n (Reg.maGrantCnt r) MaGrantCnt.maGrantCnt (setAgentLeft r none (agentLeft r none s - n) s)
  { s1 with fs := { s1.fs with belayWants := smSet 0 k (smGet 0 k s.fs.belayWants - n) s1.fs.belayWants } }

/-- A window of region `r`'s memory agent begins (R27 to R29, R396, R397): new BUDGET values are taken up, `demands` lists the units its
pipelines ask for in it in bulk, and each pipeline is granted up to its budget; what is left waits for the next window. -/
def arbitrationWindow (r : Nat) (demands : List (PipeId × Nat × Nat)) (s : State) : State :=
  let es := (regionPipes r s).filter fun e => pipeLive e.pipe s
  let s1 := es.foldl (fun a e => { a with fs := { a.fs with
      budgets := smSet 0 (1024 * r + e.pipe) (budgetOf e.pipe s) a.fs.budgets
      throttled := smSet false (1024 * r + e.pipe) false a.fs.throttled } }) s
  let s2 := demands.foldl (fun a d => if es.any fun e => e.pipe == d.1.val then addDemand r d a else a) s1
  let shares := es.map fun e => openShare r e s2
  let done := wrrRounds 4096 shares
  let s3 := (shares.zip done).foldl (fun a x => closeShare r x.1 x.2 a) s2
  ownBulk r (agentServe r none (agentQueue r s3).length (setAgentLeft r none ownUnits s3))

end Sys2Proof.Machine
end

