-- ==== Sys2Proof/Machine/HostMem.lean ====
section
/-! DEFINITION. Accesses that must wait for their channel, stack or 2 MiB unit, and the host's accesses by CXL.mem, which wait so in their
order (R167, R170, R370, R376, R524 to R529, R626). -/

namespace Sys2Proof.Machine

open Sys2Proof

/-! ### Accesses that wait -/

/-- The unit of 2 MiB that MEMORY_TEST has under test (R626): how far the test has come is open while it runs. -/
def testedUnit (s : State) : Option Nat :=
  if memTestRuns s then some (((s.cmd.args[0]?).getD 0).toNat + freeNat s) else none

/-- An access to device address `a` waits: its channel is being retrained (R370), its stack is in self-refresh (R376), or its unit is
under test (R626). -/
def accessWaits (a : Nat) (s : State) : Bool :=
  let p := placeOf s a
  (getMemCtl p.stack s).training == p.channel + 1 || memState p.stack s == 2 || testedUnit s == some (a / unitSize)

/-- Something can make an access wait. -/
def someWait (s : State) : Bool :=
  memTestRuns s || [0, 1, 2, 3].any fun c => (getMemCtl c s).training != 0 || memState c s == 2

/-- An access to the bytes [a, a + n) waits. -/
def rangeWaits (a n : Nat) (s : State) : Bool :=
  someWait s && (List.range (n / 64 + 2)).any fun i => decide (64 * (a / 64 + i) < a + n) && accessWaits (64 * (a / 64 + i)) s

/-! ### CXL.mem (R520, R526, R529, R615) -/

def countOob (s : State) : State := bumpBy 1 Reg.cxlHdmOob CxlPoisonCnt.count s

/-- The device address of offset `o` of decoder `k`; none past the end of its carve-out and before Memory_Active. -/
def hdmAddress (k o : Nat) (s : State) : Option Nat :=
  match hdmCarve k s with
  | some c => if s.pwr.memActive ∧ o < c.size * unitSize then some (c.base * unitSize + o) else none
  | none => none

/-- A request lies inside a committed decoder's range, or comes before Memory_Active. -/
def hdmHits (k o : Nat) (s : State) : Bool :=
  !s.pwr.memActive || ((getHdm k s).committed && decide (o < (getHdm k s).size))

/-- Serve a read of the 64-byte line that holds offset `o` of decoder `k`. -/
def serveRead (k o : Nat) (s : State) : State :=
  match hdmAddress k o s with
  | none => emit (.cxlData ((getHdm k s).base + o) (List.replicate 64 0xFF#8) true) (countOob s)
  | some a =>
    let r := readWord 4 (a / 64) s
    let s1 := if r.1.2 then bumpBy 1 Reg.cxlPoisonCnt CxlPoisonCnt.count r.2 else r.2
    emit (.cxlData ((getHdm k s).base + o) r.1.1 r.1.2) s1

/-- Serve a write at offset `o` of decoder `k`: a whole line, or the bytes of one from `o` on; in SAFE it is dropped. -/
def serveWrite (k o : Nat) (bytes : List Byte) (poisoned : Bool) (s : State) : State :=
  match hdmAddress k o s with
  | none => countOob s
  | some a => if curMode s = 5 then s else putBytes a (bytes.take (64 - a % 64)) poisoned s

def serveHost (h : HostMem) (s : State) : State :=
  match h with
  | .read k o => serveRead k o s
  | .write k o l p => serveWrite k o l p s

/-- The access waits where it is. -/
def hostWaits (h : HostMem) (s : State) : Bool :=
  let at_ := fun k o => match hdmAddress k o s with | some a => accessWaits a s | none => false
  match h with
  | .read k o => at_ k o
  | .write k o _ _ => at_ k o

/-- The stack of offset `o` of decoder `k` receives a request (R374). -/
def hearLine (k o : Nat) (s : State) : State :=
  match hdmAddress k o s with
  | some a => hearStack (placeOf s a).stack s
  | none => s

def hostHeard (h : HostMem) (s : State) : State :=
  match h with
  | .read k o => hearLine k o s
  | .write k o _ _ => hearLine k o s

/-- A host access that has come is served, or waits (R167, R370, R376, R626). -/
def hostGoes (h : HostMem) (s : State) : State :=
  if hostWaits h s then { s with fs := { s.fs with hostWaiting := s.fs.hostWaiting ++ [h] } } else serveHost h s

def hostAccess (h : HostMem) (s : State) : State := hostGoes h (hostHeard h s)

/-- The host accesses that wait no longer are served, in their order. -/
def hostRun (s : State) : State :=
  s.fs.hostWaiting.foldl (fun a h => hostGoes h a) { s with fs := { s.fs with hostWaiting := [] } }

/-- CXL_MEM_READ of the 64-byte line that holds offset `o` of decoder `k`. -/
def cxlMemRead (k o : Nat) (s : State) : State :=
  if memServed s = false ∨ hdmHits k o s = false then s else hostAccess (.read k o) s

/-- CXL_MEM_WRITE at offset `o` of decoder `k`. -/
def cxlMemWrite (k o : Nat) (bytes : List Byte) (poisoned : Bool) (s : State) : State :=
  if memServed s = false ∨ hdmHits k o s = false then s else hostAccess (.write k o bytes poisoned) s

end Sys2Proof.Machine
end

