-- ==== Sys2Proof/Machine/Pool.lean ====
section
/-! DEFINITION. Buffer pools (chapter "Buffer pools and DMA", R400 to R421): the buffer state table, free lists kept in link
words, ownership and shares, resizing, waiting producers, host operations. -/

namespace Sys2Proof.Machine

open Sys2Proof

/-! ### Pools and owners (R400 to R403) -/

def poolEntry (p : Nat) (s : State) : PoolEntry := (s.comp.pools[p]?).getD ⟨0, 0, 0⟩

def poolDefined (p : Nat) (s : State) : Bool := (poolEntry p s).count != 0

/-- FIRST_p: the sum of the largest counts of the pools before p (R400). -/
def poolFirst (p : Nat) (s : State) : Nat := (s.comp.pools.take p).foldl (fun n e => n + e.count) 0

def poolMax (p : Nat) (s : State) : Nat := (poolEntry p s).count

/-- The pool that buffer `n` belongs to, if any. -/
def poolOfBuf (n : Nat) (s : State) : Option Nat :=
  (List.range 16).find? fun p => decide (poolFirst p s ≤ n ∧ n < poolFirst p s + poolMax p s)

/-- The device address of buffer `n` of pool `p` (R401). -/
def bufAddr (p n : Nat) (s : State) : Nat :=
  let e := poolEntry p s
  let base := match s.comp.carves[e.carve]? with | some c => c.base * unitSize | none => 0
  base + (n - poolFirst p s) * 2 ^ e.log2

/-- Owner IDs that are not reserved (R402). -/
def ownerOk (o : Nat) : Bool := decide (o < 1104) || (decide (2048 ≤ o) && decide (o < 3072))

/-- The Glove domain of an owner ID. -/
def ownerDomain (o : Nat) (s : State) : Nat :=
  if o < 1024 then owner s glvPipe o
  else if o < 1088 then owner s glvDma (o - 1024)
  else if o < 1104 then o - 1088
  else owner s glvPort (o - 2048)

/-- Requesters that the Glove limits (R409, R415): host software and DMA channels. -/
def ownerLimited (o : Nat) : Bool := decide (1024 ≤ o) && decide (o < 1104)

/-- The place of a requester in the rotation of a pool (R407): the 16 region nodes, the 8 MAC complexes, SDI ingress, the ring, the DMA
engine, the 16 register paths. A pipeline asks through the node of its home region, a host ring through the DMA engine (assumption 180). -/
def poolLine (who : Nat) (s : State) : Nat :=
  if who < 1024 then (match s.comp.pipes.find? fun e => e.pipe == who with | some e => e.home | none => 0)
  else if who < 1088 then 26
  else if who < 1104 then 27 + (who - 1088)
  else
    match s.comp.ports.find? fun e => e.port == who - 2048 with
    | some e => if e.kind = 0 then 16 + e.bind % 8 else if e.kind = 1 then 24 else if e.kind = 2 then 25 else 26
    | none => 26

def getArb (p : Nat) (s : State) : PoolArb := smGet PoolArb.init p s.pools.arbs
def setArb (p : Nat) (a : PoolArb) (s : State) : State :=
  { s with pools := { s.pools with arbs := smSet PoolArb.init p a s.pools.arbs } }

/-- Requester `line` has won the arbiter of pool `p` in this mesh cycle. -/
def poolWon (p line : Nat) (s : State) : State :=
  setArb p { getArb p s with turn := (line + 1) % 43, free := s.now + 1 } s

def getGrow (p : Nat) (s : State) : PoolGrow := smGet PoolGrow.init p s.pools.grows
def setGrow (p : Nat) (g : PoolGrow) (s : State) : State :=
  { s with pools := { s.pools with grows := smSet PoolGrow.init p g s.pools.grows } }

def getBuf (n : Nat) (s : State) : Buf := smGet Buf.init n s.pools.bufs
def setBuf (n : Nat) (b : Buf) (s : State) : State :=
  { s with pools := { s.pools with bufs := smSet Buf.init n b s.pools.bufs } }

/-- The IDs the manager keeps on chip from the head of the list (R410). -/
def getHead (p : Nat) (s : State) : List Nat := smGet [] p s.pools.heads
def setHead (p : Nat) (l : List Nat) (s : State) : State :=
  { s with pools := { s.pools with heads := smSet [] p l s.pools.heads } }

def poolHeld (p : Nat) (s : State) : Nat := fget (Reg.bpmPoolHeld p) BpmPoolHeld.count s
def poolFree (p : Nat) (s : State) : Nat := fget (Reg.bpmPoolFree p) BpmPoolHeld.count s
def poolSize (p : Nat) (s : State) : Nat := fget (Reg.bpmPoolSize p) BpmPoolSize.size s
def poolWarn1 (p : Nat) (s : State) : Nat := fget (Reg.bpmPoolWarn1 p) BpmPoolWarn1.warn s
def poolWarn2 (p : Nat) (s : State) : Nat := fget (Reg.bpmPoolWarn2 p) BpmPoolWarn1.warn s
def poolRebuilding (p : Nat) (s : State) : Bool := fbit (Reg.bpmPoolStatus p) BpmPoolStatus.rebuilding s
def setFree (p n : Nat) (s : State) : State := fput (Reg.bpmPoolFree p) BpmPoolHeld.count n s

/-- Set the HELD count; a rise from below WARN1 to WARN1 or above raises the pool's source with k = 0 (R413). -/
def setHeld (p n : Nat) (s : State) : State :=
  let w := poolWarn1 p s
  let crosses := w ≠ 0 ∧ poolHeld p s < w ∧ w ≤ n
  let s1 := fput (Reg.bpmPoolHeld p) BpmPoolHeld.count n s
  if crosses then raise (192 + 4 * p) (fset (Reg.bpmPoolStatus p) BpmPoolStatus.warn1X s1) else s1

/-! ### Codes (R439) -/

def codeEmpty : Nat := 0xC0
def codeOverQuota : Nat := 0xC1
def codeDoubleFree : Nat := 0xC2
def codeNotOwner : Nat := 0xC3
def codeSharedPending : Nat := 0xC4
def codeBadArgument : Nat := 0xC5
def codeShareLimit : Nat := 0xC6
def codePoolUndefined : Nat := 0xC7
def codePoolDisabled : Nat := 0xC8
def codePoolThresh : Nat := 0xC9
def codeDomainMismatch : Nat := 0xCA

/-! ### Link words (R410 to R412) -/

/-- The 64-bit link word (R411) that names `next`, or ends the list. -/
def linkWord (p : Nat) (next : Option Nat) : Nat :=
  let lo := 0xB7 * 2 ^ 24 + p * 2 ^ 20 + (match next with | some n => n | none => 2 ^ 19)
  (2 ^ 32 - 1 - lo) * 2 ^ 32 + lo

/-- The `n` low bytes of a number, little-endian (R7). -/
def leBytes (v : Nat) : Nat → List Byte
  | 0 => []
  | n + 1 => BitVec.ofNat 8 v :: leBytes (v / 256) n

/-- The number little-endian bytes spell. -/
def leNat : List Byte → Nat
  | [] => 0
  | b :: bs => b.toNat + 256 * leNat bs

/-- Write the first word of a freed buffer whole: its link word, then zeros (R410). -/
def writeLink (p n : Nat) (next : Option Nat) (s : State) : State :=
  storeWord (bufAddr p n s / 64) (leBytes (linkWord p next) 64) false s

/-- A link word is good (R412): its tag, check and pool, an end mark that agrees with the count, and a next buffer that is
a FREE buffer of the pool. `last` tells whether the count shows this to be the list's last buffer. -/
def linkGood (p v : Nat) (last : Bool) (s : State) : Bool :=
  let lo := v % 2 ^ 32
  decide (v / 2 ^ 32 = 2 ^ 32 - 1 - lo) && decide (lo / 2 ^ 24 = 0xB7) && decide (lo / 2 ^ 20 % 16 = p)
    && (decide (lo / 2 ^ 19 % 2 = 1) == last)
    && (last || (decide (poolOfBuf (lo % 2 ^ 19) s = some p) && decide ((getBuf (lo % 2 ^ 19) s).state = 0)))

/-- Where buffer `n` is the last of the `k` on the list, its own link word has to end the list (R412). -/
def checkEnd (p n k : Nat) (s : State) : State :=
  if poolFree p s ≠ k then s
  else
    let r := readWord 3 (bufAddr p n s / 64) (resolve (bufAddr p n s) 64 s)
    if r.1.2 = false ∧ linkGood p (leNat (r.1.1.take 8)) true r.2 = true then r.2
    else fset (Reg.bpmPoolStatus p) BpmPoolStatus.rebuilding r.2

/-- Read the link word of the last on-chip ID and append the ID it names; a bad word starts a rebuild (R412). -/
def refillOne (p : Nat) (s : State) : State :=
  let l := getHead p s
  match l.getLast? with
  | none => s
  | some n =>
    if poolRebuilding p s = true ∨ poolFree p s ≤ l.length then s
    else
      let r := readWord 3 (bufAddr p n s / 64) (resolve (bufAddr p n s) 64 s)
      let v := leNat (r.1.1.take 8)
      if r.1.2 = false ∧ linkGood p v false r.2 = true then
        checkEnd p (v % 2 ^ 19) (l.length + 1) (setHead p (l ++ [v % 2 ^ 19]) r.2)
      else fset (Reg.bpmPoolStatus p) BpmPoolStatus.rebuilding r.2

def refillMany : Nat → Nat → State → State
  | 0, _, s => s
  | n + 1, p, s => refillMany n p (refillOne p s)

/-- Refill the on-chip list ahead of demand, up to 64 IDs (R410). -/
def linkRefill (p : Nat) (s : State) : State := refillMany (64 - (getHead p s).length) p s

/-- Push a buffer on the head of the list (R410); during a rebuild only its table entry is marked (R412). -/
def pushFree (p n : Nat) (s : State) : State :=
  let s1 := setBuf n ⟨0, 0, 4095⟩ s
  let s2 := setFree p (poolFree p s + 1) s1
  if poolRebuilding p s then s2
  else setHead p ((n :: getHead p s).take 64) (writeLink p n (getHead p s).head? s2)

/-- Take the head buffer off the list, reading ahead where the on-chip list would run out. -/
def popFree (p : Nat) (s : State) : Option Nat × State :=
  let s1 := if (getHead p s).length ≤ 1 then refillOne p s else s
  match getHead p s1 with
  | [] => (none, s1)
  | n :: l => (some n, setFree p (poolFree p s1 - 1) (setHead p l s1))

/-! ### Results and their records (R414, R416) -/

/-- Record an ownership error in pool `p` (R416). -/
def latchPoolErr (p code buf who : Nat) (s : State) : State :=
  let s1 := bump (Reg.bpmPoolErrCnt p) BpmPoolEmptyCnt.count (fset (Reg.bpmPoolStatus p) BpmPoolStatus.errEv s)
  let s2 := fput (Reg.bpmPoolLastErr p) BpmPoolLastErr.lastErr code
    (fput (Reg.bpmPoolLastErr p) BpmPoolLastErr.lastErrId buf s1)
  raise (192 + 4 * p + 2) (fput (Reg.bpmPoolLastErrOwn p) BpmPoolLastErrOwn.lastErrOwn who s2)

/-- An allocation failure for want of buffers: counted, and raised with k = 1 for live ingress the first time since FAIL_EV
was cleared (R414, R416). -/
def countAllocFail (p code : Nat) (live : Bool) (s : State) : State :=
  let s1 := bump (if code = codeEmpty then Reg.bpmPoolEmptyCnt p else Reg.bpmPoolOverCnt p) BpmPoolEmptyCnt.count s
  if live && !fbit (Reg.bpmPoolStatus p) BpmPoolStatus.failEv s then
    raise (192 + 4 * p + 1) (fset (Reg.bpmPoolStatus p) BpmPoolStatus.failEv s1)
  else s1

/-! ### ALLOC (R409) -/

/-- The result code of ALLOC on pool `p` for requester `who`, with final owner `newOwner`. -/
def allocCode (p who newOwner : Nat) (s : State) : Nat :=
  if !ownerOk who || !ownerOk newOwner then codeBadArgument
  else if ownerLimited who && (owner s glvPool p != ownerDomain who s || ownerDomain newOwner s != ownerDomain who s)
  then codeDomainMismatch
  else if !poolDefined p s then codePoolUndefined
  else if !fbit (Reg.bpmPoolCtl p) BpmPoolCtl.enable s then codePoolDisabled
  else if poolSize p s < poolHeld p s then codeOverQuota
  else if poolFree p s = 0 ∨ poolRebuilding p s = true then codeEmpty
  else 0

/-- ALLOC: the code, the buffer where the code is 0, and the state after. The spec names no buffer ID that a failed ALLOC latches:
it is a free value. -/
def allocBuf (p who newOwner : Nat) (live : Bool) (s0 : State) : (Nat × Nat) × State :=
  let s := poolWon p (poolLine who s0) s0
  let c := allocCode p who newOwner s
  if c = codeEmpty ∨ c = codeOverQuota then ((c, 0), countAllocFail p c live s)
  else if c ≠ 0 then ((c, 0), latchPoolErr p c (freeNat s) who (stepFree s))
  else
    match popFree p s with
    | (none, s1) => ((codeEmpty, 0), countAllocFail p codeEmpty live s1)
    | (some n, s1) => ((0, n), setHeld p (poolHeld p s1 + 1) (setBuf n ⟨1, 1, newOwner⟩ s1))

/-- L of R413: a producer that can wait issues no ALLOC while HELD is at or above it. -/
def waitLevel (p : Nat) (s : State) : Nat :=
  if poolWarn2 p s = 0 then poolSize p s else min (poolWarn2 p s) (poolSize p s)

/-! ### FREE, RELEASE, SHARE, PASS (R415) -/

/-- The result code of an operation on buffer `n` by requester `who` (R415). -/
def bufOpCode (op : BufOp) (n who : Nat) (s : State) : Nat :=
  let b := getBuf n s
  match poolOfBuf n s with
  | none => codeBadArgument
  | some p =>
    let target := match op with | .pass o => o | _ => who
    if !ownerOk who || !ownerOk target then codeBadArgument
    else if ownerLimited who && (owner s glvPool p != ownerDomain who s || ownerDomain target s != ownerDomain who s)
    then codeDomainMismatch
    else if b.state ≠ 1 then codeDoubleFree
    else
      match op with
      | .free => if b.owner ≠ who then codeNotOwner else if 1 < b.share then codeSharedPending else 0
      | .release => if b.owner = who ∨ b.share = 1 then codeNotOwner else 0
      | .share => if b.owner ≠ who then codeNotOwner else if b.share = 63 then codeShareLimit else 0
      | .pass _ => if b.owner ≠ who then codeNotOwner else 0

/-- Give a buffer back: to RESERVE while the pool is above its size, else to the list (R415, R417). -/
def returnBuf (p n : Nat) (s : State) : State :=
  let above := poolSize p s < poolHeld p s + poolFree p s
  let s1 := setHeld p (poolHeld p s - 1) s
  if above then setBuf n ⟨2, 0, 4095⟩ s1 else pushFree p n s1

/-- The action of an operation whose code is 0. -/
def bufOpAct (op : BufOp) (p n : Nat) (s : State) : State :=
  let b := getBuf n s
  match op with
  | .free => returnBuf p n s
  | .release => setBuf n { b with share := b.share - 1 } s
  | .share => setBuf n { b with share := b.share + 1 } s
  | .pass o => setBuf n { b with owner := o } s

/-- An operation on a buffer: its code and the state after (R415, R416). -/
def bufOp (op : BufOp) (n who : Nat) (s0 : State) : Nat × State :=
  let c := bufOpCode op n who s0
  match poolOfBuf n s0 with
  | none => (c, s0)
  | some p =>
    let s := poolWon p (poolLine who s0) s0
    if c = 0 then (0, bufOpAct op p n s)
    else if c = codeSharedPending then (c, s)
    else (c, latchPoolErr p c n who s)

/-- The key of a wait among the times at which waiting parties ask again. -/
def waitKey (w : PoolWait) : Nat :=
  match w with
  | .alloc who p => 16 * who + p
  | .free who n => 65536 + 2 ^ 19 * who + n

/-- A party that waits asks again 256 mesh cycles from now (R413, R416). -/
def askLater (w : PoolWait) (s : State) : State :=
  { s with pools := { s.pools with askAt := smSet 0 (waitKey w) (s.now + 256) s.pools.askAt } }

/-- It may ask again. -/
def mayAsk (w : PoolWait) (s : State) : Bool := decide (smGet 0 (waitKey w) s.pools.askAt ≤ s.now)

/-- A device unit's FREE: with SHARED_PENDING it asks again every 256 mesh cycles until accepted (R416). -/
def unitFree (n who : Nat) (s : State) : State :=
  let r := bufOp .free n who s
  if r.1 = codeSharedPending then
    askLater (.free who n) { r.2 with pools := { r.2.pools with waits := r.2.pools.waits ++ [.free who n] } }
  else r.2

def unitFreeAll (l : List Nat) (who : Nat) (s : State) : State := l.foldl (fun a n => unitFree n who a) s

/-! ### Resize and enable (R417, R419) -/

/-- Move up to `fuel` buffers from the head of the list to RESERVE while HELD + FREE exceeds `n`. -/
def shrinkPool : Nat → Nat → Nat → State → State
  | 0, _, _, s => s
  | fuel + 1, p, n, s =>
    if poolHeld p s + poolFree p s ≤ n then s
    else
      match popFree p s with
      | (none, s1) => s1
      | (some b, s1) => shrinkPool fuel p n (setBuf b ⟨2, 0, 4095⟩ s1)

/-- The buffers of a pool in a given state, in rising order. -/
def poolBufsIn (p st : Nat) (s : State) : List Nat :=
  (List.range' (poolFirst p s) (poolMax p s)).filter fun n => (getBuf n s).state == st

/-- The size of pool `p` becomes `n` (R417): the buffers it gains join one at a time, within 1 ms; those it loses leave the list. -/
def poolSized (p n : Nat) (s : State) : State :=
  let a := poolHeld p s + poolFree p s
  let s1 := setGrow p PoolGrow.init (fput (Reg.bpmPoolSize p) BpmPoolSize.size n s)
  if a < n then setGrow p ⟨((poolBufsIn p 2 s).take (n - a)).reverse, s.now + 1600000⟩ s1
  else shrinkPool (poolFree p s) p n s1

/-- A mesh cycle of a pool that has grown: the next buffer may join; at the end of the time, all have (R417). -/
def growCycle (p : Nat) (s : State) : State :=
  let g := getGrow p s
  if g.by_ ≤ s.now then g.joins.foldl (fun t b => pushFree p b t) (setGrow p PoolGrow.init s)
  else
    match g.joins with
    | [] => setGrow p PoolGrow.init s
    | b :: l => stepFree (if freeNat s % 2 = 1 then pushFree p b (setGrow p { g with joins := l } s) else s)

/-- The check of POOL_ENABLE (R419). -/
def poolCheck (p : Nat) (s : State) : Nat :=
  if !poolDefined p s then codePoolUndefined
  else if poolWarn1 p s ≠ 0 ∧ poolWarn2 p s ≠ 0 ∧ poolWarn2 p s < poolWarn1 p s then codePoolThresh
  else if poolWarn2 p s ≠ 0 ∧ poolSize p s < poolWarn2 p s then codePoolThresh
  else 0

/-- A write to BPM_POOL_CTL (R419). -/
def poolCtlWrite (p : Nat) (v : Word) (s : State) : State :=
  if getF BpmPoolCtl.enable v = 0 then fclr (Reg.bpmPoolCtl p) BpmPoolCtl.enable s
  else if fbit (Reg.bpmPoolCtl p) BpmPoolCtl.enable s then s
  else
    let c := poolCheck p s
    let s1 := fput (Reg.bpmPoolStatus p) BpmPoolStatus.poolRefuse c s
    if c = 0 then fset (Reg.bpmPoolCtl p) BpmPoolCtl.enable s1 else s1

/-- Link every FREE buffer of a list in the order given: each to the next, the last one ending the list. -/
def linkChain (p : Nat) : List Nat → State → State
  | [], s => s
  | n :: l, s => linkChain p l (writeLink p n l.head? s)

/-- A rebuild ends (R412): every FREE buffer is linked in ascending ID; a shrink that the bad word broke off goes on (R417). -/
def rebuildDone (p : Nat) (s : State) : State :=
  if poolRebuilding p s then
    let l := poolBufsIn p 0 s
    let s1 := setFree p l.length (setHead p (l.take 64) (linkChain p l s))
    let s2 := fclr (Reg.bpmPoolStatus p) BpmPoolStatus.rebuilding (fset (Reg.bpmPoolStatus p) BpmPoolStatus.rebuildEv s1)
    shrinkPool (poolFree p s2) p (poolSize p s2)
      (raise (192 + 4 * p + 3) (bump (Reg.bpmPoolLastErrOwn p) BpmPoolLastErrOwn.rebuildCnt s2))
  else s

/-- A pool at release (R112, R419): every buffer on the list in ascending ID, enabled, at its largest size. -/
def poolRelease (p : Nat) (s : State) : State :=
  if poolDefined p s then
    let m := poolMax p s
    let l := List.range' (poolFirst p s) m
    let s1 := fput (Reg.bpmPoolCtl p) BpmPoolCtl.defined 1 (fput (Reg.bpmPoolCtl p) BpmPoolCtl.bufLog2 (poolEntry p s).log2
      (fput (Reg.bpmPoolCtl p) BpmPoolCtl.enable 1 s))
    let s2 := fput (Reg.bpmPoolSize p) BpmPoolSize.size m (fput (Reg.bpmPoolWarn1 p) BpmPoolWarn1.warn (3 * m / 4)
      (fput (Reg.bpmPoolWarn2 p) BpmPoolWarn1.warn (7 * m / 8) s1))
    let s3 := fput (Reg.bpmPoolFirst p) BpmPoolFirst.firstId (poolFirst p s) (fput (Reg.bpmPoolMax p) BpmPoolMax.max m s2)
    setHead p (l.take 64) (setFree p m (linkChain p l s3))
  else s

/-! ### Waiting (R413) and host operations (R420, R421) -/

/-- Whether the pools hold this wait. -/
def waits (w : PoolWait) (s : State) : Bool := s.pools.waits.contains w

def addWait (w : PoolWait) (s : State) : State :=
  if waits w s then s else { s with pools := { s.pools with waits := s.pools.waits ++ [w] } }

/-- A wait after an ALLOC that failed. -/
def waitAgain (w : PoolWait) (s : State) : State := askLater w (addWait w s)

def dropWait (w : PoolWait) (s : State) : State :=
  { s with pools := { s.pools with waits := s.pools.waits.erase w, askAt := smSet 0 (waitKey w) 0 s.pools.askAt } }

/-- The ID of a result word, and its place in HOP_RESULT or HOP_ALLOC. -/
def hopResult (code buf : Nat) : Word := putF HopResult.result (putF HopResult.id 0 buf) code

/-- A producer that can wait asks for a buffer (R413). -/
def producerAlloc (who p : Nat) (s : State) : State :=
  let w := PoolWait.alloc who p
  if waitLevel p s ≤ poolHeld p s then addWait w s
  else
    let r := allocBuf p who who false s
    if r.1.1 = codeEmpty ∨ r.1.1 = codeOverQuota then waitAgain w r.2 else dropWait w r.2

/-- ALLOC for host software of domain `d`, its result in HOP_ALLOC (R421). The ID of a result with a code is a free value. -/
def hostAlloc (p d : Nat) (s : State) : State :=
  let r := allocBuf p (1088 + d) (1088 + d) false s
  if r.1.1 = 0 then wr (Reg.hopAlloc d) (hopResult 0 r.1.2) r.2
  else wr (Reg.hopAlloc d) (hopResult r.1.1 (freeNat r.2)) (stepFree r.2)

/-- An operation on a buffer for host software of domain `d`, its result in HOP_RESULT (R420). -/
def hostBuffer (d : Nat) (op : BufOp) (n : Nat) (s : State) : State :=
  let r := bufOp op n (1088 + d) s
  wr (Reg.hopResult d) (hopResult r.1 n) r.2

/-! ### The arbiter (R407, R408) -/

/-- A request that pool `p` serves. -/
def poolAct (p : Nat) (x : PoolAsk) (s : State) : State :=
  match x.act with
  | .alloc who waits live => if waits then producerAlloc who p s else (allocBuf p who who live s).2
  | .hostAlloc d => hostAlloc p d s
  | .buffer who op n => if op = .free then unitFree n who s else (bufOp op n who s).2
  | .hostBuffer d op n => hostBuffer d op n s
  | .resize n => poolSized p n (poolWon p x.line s)

/-- The request whose requester comes next after the last winner; of one requester's, the oldest. -/
def nextAsk (a : PoolArb) : Option PoolAsk := leastBy (fun x => (x.line + 43 - a.turn) % 43) a.waiting

/-- The arbiter serves one request, where it has served none in this mesh cycle. -/
def poolServe (p : Nat) (s : State) : State :=
  let a := getArb p s
  match (if s.now < a.free then none else nextAsk a) with
  | none => s
  | some x => poolAct p x (setArb p { a with waiting := a.waiting.erase x } s)

/-- A request comes to the arbiter of pool `p`. -/
def poolAsk (p : Nat) (x : PoolAsk) (s : State) : State :=
  let a := getArb p s
  poolServe p (setArb p { a with waiting := a.waiting ++ [x] } s)

/-- A unit's ALLOC. A producer that can wait issues none while the pool is at its level (R413). -/
def unitAlloc (p who : Nat) (waits live : Bool) (s : State) : State :=
  if waits && decide (waitLevel p s ≤ poolHeld p s) then addWait (.alloc who p) s
  else poolAsk p ⟨poolLine who s, .alloc who waits live⟩ s

/-- A unit's operation on a buffer; one beyond every pool belongs to no arbiter, and its result goes to the unit alone (R416). -/
def unitBufOp (op : BufOp) (n who : Nat) (s : State) : State :=
  match poolOfBuf n s with
  | none => s
  | some p => poolAsk p ⟨poolLine who s, .buffer who op n⟩ s

/-- A write of `n` to BPM_POOL_SIZE by domain `d` (R417). -/
def poolResize (d p n : Nat) (s : State) : State :=
  if poolMax p s < n then fset (Reg.bpmPoolStatus p) BpmPoolStatus.sizeRej s else poolAsk p ⟨27 + d, .resize n⟩ s

/-- A write to HOP_CMD in the page of domain `d` (R420). -/
def hopCommand (d : Nat) (v : Word) (s : State) : State :=
  let n := getF HopCmd.id v
  let go := fun (op : BufOp) =>
    match poolOfBuf n s with
    | none => hostBuffer d op n s
    | some p => poolAsk p ⟨27 + d, .hostBuffer d op n⟩ s
  match getF HopCmd.op v with
  | 1 => go .free
  | 2 => go .release
  | 3 => go .share
  | 4 => go (.pass (fget (Reg.hopArg d) HopArg.newOwner s))
  | _ => s

/-- A 32-bit read of HOP_ALLOC in the page of domain `d` asks for a buffer (R421). -/
def hopAlloc (d : Nat) (s : State) : State :=
  poolAsk (fget (Reg.hopArg d) HopArg.pool s) ⟨27 + d, .hostAlloc d⟩ s

/-- Requests of host software of domain `d` that wait at an arbiter. -/
def hopWaiting (d : Nat) (s : State) : Bool :=
  s.pools.arbs.any fun a => a.2.waiting.any fun x =>
    match x.act with
    | .hostAlloc e => e == d
    | .hostBuffer e _ _ => e == d
    | _ => false

/-- A mesh cycle for the pools: each arbiter serves a request, and buffers join a pool that has grown. -/
def poolsCycle (s : State) : State :=
  let s1 := (smKeys s.pools.arbs).foldl (fun a p => poolServe p a) s
  (smKeys s1.pools.grows).foldl (fun a p => growCycle p a) s1

end Sys2Proof.Machine
end

