-- ==== Sys2Proof/Machine/Dma.lean ====
section
/-! DEFINITION. The DMA engine (chapter "Buffer pools and DMA", R422 to R438): descriptors, the four operations, write-back,
halts, stops, doorbells and polls. -/

namespace Sys2Proof.Machine

open Sys2Proof

/-! ### Channels -/

def getChan (c : Nat) (s : State) : Chan := smGet Chan.init c s.chans
def setChan (c : Nat) (x : Chan) (s : State) : State := { s with chans := smSet Chan.init c x s.chans }

def dmaState (c : Nat) (s : State) : Nat := fget (Reg.dmaStatus c) DmaStatus.dmaState s
def setDmaState (c v : Nat) (s : State) : State := fput (Reg.dmaStatus c) DmaStatus.dmaState v s
def dmaEnabled (c : Nat) (s : State) : Bool := fbit (Reg.dmaCtl c) DmaCtl.enable s
def dmaCur (c : Nat) (s : State) : Nat := rd64 (Reg.dmaCurLo c) (Reg.dmaCurHi c) s
def setDmaCur (c v : Nat) (s : State) : State := wr64 (Reg.dmaCurLo c) (Reg.dmaCurHi c) v s

/-- The Glove domain of a channel. -/
def chanDomain (c : Nat) (s : State) : Nat := owner s glvDma c

/-! ### Codes (R439) -/

def codeDescLength : Nat := 0xD0
def codeDescOp : Nat := 0xD1
def codeDescAlign : Nat := 0xD2
def codeAddrDenied : Nat := 0xD3
def codeSrcPoison : Nat := 0xD4
def codeHostErr : Nat := 0xD5
def codeStopped : Nat := 0xD6
def codeDescRead : Nat := 0xD7
def codeDmaHead : Nat := 0xD8
def codeBufferSmall : Nat := 0xD9

/-! ### Descriptors (R422) -/

def descWord (d : Desc) (i : Nat) : Nat := ((d.w[i]?).getD 0).toNat
def descOwn (d : Desc) : Bool := decide (2 ^ 31 ≤ descWord d 0)
def descBarrier (d : Desc) : Bool := decide (descWord d 0 / 2 ^ 30 % 2 = 1)
def descInt (d : Desc) : Bool := decide (descWord d 0 / 2 ^ 29 % 2 = 1)
def descLast (d : Desc) : Bool := decide (descWord d 0 / 2 ^ 28 % 2 = 1)
def descOp (d : Desc) : Nat := descWord d 0 / 2 ^ 24 % 16
def descLength (d : Desc) : Nat := descWord d 0 % 2 ^ 24
def descSrc (d : Desc) : Nat := descWord d 2 + 2 ^ 32 * descWord d 3
def descDst (d : Desc) : Nat := descWord d 4 + 2 ^ 32 * descWord d 5
def descNext (d : Desc) : Nat := descWord d 6 + 2 ^ 32 * descWord d 7

/-- The eight words that 32 bytes spell (R7). -/
def wordsOf : Nat → List Byte → List Word
  | 0, _ => []
  | n + 1, l => BitVec.ofNat 32 (leNat (l.take 4)) :: wordsOf n (l.drop 4)

/-! ### Pointers (R423) -/

def ptrHbm (p : Nat) : Bool := decide (2 ^ 63 ≤ p)
def ptrAddr (p : Nat) : Nat := if 2 ^ 63 ≤ p then p % 2 ^ 38 else p

/-- The bytes [a, a + n) lie wholly in carve-outs of domain `d`; a range may run from one carve-out into the next. -/
def inDomainFuel : Nat → Nat → Nat → Nat → State → Bool
  | 0, _, _, n, _ => decide (n = 0)
  | fuel + 1, d, a, n, s =>
    if n = 0 then true
    else
      match carveAt a s.comp.carves 0 with
      | none => false
      | some (i, c) =>
        if owner s glvCarve i ≠ d then false
        else inDomainFuel fuel d ((c.base + c.size) * unitSize) (n - min n ((c.base + c.size) * unitSize - a)) s

def inDomain (d a n : Nat) (s : State) : Bool := inDomainFuel 257 d a n s

/-- A pointer is admitted for `n` bytes: an HBM pointer has zeros in bits 62:38 and stays in the domain's carve-outs. -/
def ptrOk (c p n : Nat) (s : State) : Bool :=
  !ptrHbm p || (decide (p / 2 ^ 38 % 2 ^ 25 = 0) && inDomain (chanDomain c s) (ptrAddr p) n s)

/-! ### Halts and results -/

/-- Write data at a pointer: to HBM, or over CXL.io to host memory with the identity of the channel's domain (R131, R434), which a
BARRIER later flushes (R428). -/
def ptrWrite (c p : Nat) (bytes : List (Byte × Bool)) (s : State) : State :=
  if ptrHbm p then writeTagged (ptrAddr p) bytes s
  else
    setChan c { getChan c s with lastHost := p + 1 }
      (emit (.hostWrite (chanDomain c s) p (bytes.map Prod.fst) (bytes.any Prod.snd)) s)

/-- Descriptors in host memory go over CXL.cache: those of a channel of domain 0, on a link that trained as CXL (R432, R434). -/
def descCached (c : Nat) (s : State) : Bool := decide (chanDomain c s = 0) && !s.pwr.linkPcie

/-- Write words of a descriptor. -/
def descWrite (c p : Nat) (bytes : List Byte) (s : State) : State :=
  if ptrHbm p then writeTagged (ptrAddr p) (bytes.map (·, false)) s
  else if descCached c s then emit (.cacheWrite p bytes) s
  else emit (.hostWrite (chanDomain c s) p bytes false) s

/-- The status word of the channel's descriptor with result `code` (R422). -/
def statusWord (c code : Nat) (s : State) : Nat :=
  let b := (getChan c s).buf
  code * 2 ^ 24 + (if b = 0 then 0 else 2 ^ 19 + (b - 1))

def writeStatus (c code : Nat) (s : State) : State :=
  descWrite c (dmaCur c s + 4) (leBytes (statusWord c code s) 4) s

/-- A channel halts (R435): ERROR, ENABLE cleared, HALT_EV, LAST_RESULT, the error source, and the status word where it can
be written. The descriptor keeps OWN 1. -/
def dmaHalt (c code : Nat) (status : Bool) (s : State) : State :=
  let s1 := if status then writeStatus c code s else s
  let s2 := setDmaState c 4 (fclr (Reg.dmaCtl c) DmaCtl.enable s1)
  let s3 := fput (Reg.dmaStatus c) DmaStatus.lastResult code (fset (Reg.dmaStatus c) DmaStatus.haltEv s2)
  raise (257 + 2 * c) (setChan c (getChan c s3).fresh s3)

/-- The engine has served channel `c` (R438): `n` bytes more are moved and counted, and with the last of them the data phase ends. -/
def turnDone (c n : Nat) (s : State) : State :=
  let x := getChan c s
  let m := x.moved + n
  let s1 := setChan c { x with moved := m, phase := if descLength x.desc ≤ m then .moved else x.phase } s
  bumpPair n (Reg.dmaBytesLo c) (Reg.dmaBytesHi c) { s1 with dmaTurn := (c + 1) % 64 }

/-- Poisoned source data (R435): the result, and the first time POISON_EV and the error source. -/
def poisonEvent (c : Nat) (s : State) : State :=
  if (getChan c s).result = codeSrcPoison then s
  else raise (257 + 2 * c) (fset (Reg.dmaStatus c) DmaStatus.poisonEv (setChan c { getChan c s with result := codeSrcPoison } s))

/-! ### Reading a descriptor (R430, R431) -/

/-- A channel that enables, is rung or polls reads the descriptor at DMA_CUR. -/
def startRead (c : Nat) (s : State) : State := setChan c { getChan c s with phase := .reading } s

/-- A doorbell (R430, R431). -/
def doorbell (c : Nat) (s : State) : State :=
  if (getChan c s).phase = .reading then fset (Reg.dmaStatus c) DmaStatus.dbPend s
  else if dmaState c s = 1 then
    startRead c (setDmaState c 2 (setDmaCur c (rd64 (Reg.dmaHeadLo c) (Reg.dmaHeadHi c) s) s))
  else if dmaState c s = 3 then startRead c s
  else s

/-- POLL_US microseconds have passed since a WAITING channel last found OWN 0 (R430). -/
def pollDue (c : Nat) (s : State) : Bool :=
  fget (Reg.dmaCtl c) DmaCtl.pollUs s != 0 && decide ((getChan c s).waitAt + 1600 * fget (Reg.dmaCtl c) DmaCtl.pollUs s ≤ s.now)

/-- A poll of a WAITING channel (R430). -/
def dmaPoll (c : Nat) (s : State) : State :=
  if dmaState c s = 3 ∧ pollDue c s = true ∧ (getChan c s).phase = .idle then startRead c s else s

/-- The first check a descriptor with OWN 1 meets, 0 where it passes (R435). -/
def descCheck (d : Desc) : Nat :=
  if descLength d = 0 then codeDescLength else if 3 < descOp d then codeDescOp else 0

/-- The descriptor `d` has been read (R430, R431): OWN 0 waits, or reads again where a doorbell came meanwhile. -/
def descArrived (c : Nat) (d : Desc) (s : State) : State :=
  if descOwn d then
    let x := getChan c s
    let s1 := setDmaState c 2 (setChan c { x.fresh with phase := .ready, desc := d, stopping := x.stopping } s)
    if descCheck d = 0 then s1 else dmaHalt c (descCheck d) true s1
  else if fbit (Reg.dmaStatus c) DmaStatus.dbPend s then fclr (Reg.dmaStatus c) DmaStatus.dbPend s
  else setDmaState c 3 (setChan c { getChan c s with phase := .idle, waitAt := s.now } s)

/-- `n` bytes of host data; bytes the operand does not give are free values. -/
def hostBytes (s : State) (n : Nat) (l : List Byte) : List Byte :=
  (l.take n) ++ (List.range' l.length (n - l.length)).map fun i => Config.freeByte s.freeCtr i

/-- A descriptor read completes. `h` is what host memory returned, used where DMA_CUR is a host pointer. -/
def descFetch (c : Nat) (h : HostRead) (s : State) : State :=
  if (getChan c s).phase ≠ .reading then s
  else
    let p := dmaCur c s
    if p % 32 ≠ 0 then dmaHalt c codeDescAlign false s
    else if ptrOk c p 32 s = false then dmaHalt c codeAddrDenied false s
    else if rangeWaits (ptrAddr p) 32 s ∧ ptrHbm p = true then s
    else if ptrHbm p then
      let r := readBytes 4 (ptrAddr p) 32 s
      if r.1.2 then dmaHalt c codeDescRead false r.2 else descArrived c ⟨wordsOf 8 r.1.1⟩ r.2
    else if !s.pwr.linkUp then setChan c { getChan c s with held := true } s
    else
      let s1 := emit (.hostRead (chanDomain c s) p 32 (descCached c s)) s
      match h with
      | .data l => descArrived c ⟨wordsOf 8 (hostBytes s 32 l)⟩ (stepFree s1)
      | _ => dmaHalt c codeDescRead false s1

/-! ### The operations (R424) -/

/-- Read `n` bytes at a pointer: none where the host completes with an error. -/
def ptrRead (c p n : Nat) (h : HostRead) (s : State) : Option (List (Byte × Bool)) × State :=
  if ptrHbm p then
    let r := readTagged 4 (ptrAddr p) n s
    (some r.1, r.2)
  else
    let s1 := emit (.hostRead (chanDomain c s) p n false) s
    match h with
    | .data l => (some ((hostBytes s n l).map (·, false)), stepFree s1)
    | .poisoned l => (some ((hostBytes s n l).map (·, true)), stepFree s1)
    | .error => (none, s1)

/-- The channel runs an operation of code `op` on the descriptor it holds. -/
def running (c op : Nat) (s : State) : Bool := (getChan c s).phase == .ready && descOp (getChan c s).desc == op

/-- The operation touches host memory while the link is down: it is held (R522). -/
def linkHeld (ps : List Nat) (s : State) : Bool := !s.pwr.linkUp && ps.any fun p => !ptrHbm p

/-- The host completes an access of the operation with an error. -/
def hostError (h : HostRead) : Bool := match h with | .error => true | _ => false

/-- An access of `n` bytes at a pointer waits for its channel, stack or unit under test (R167, R370, R376, R626). -/
def ptrWaits (p n : Nat) (s : State) : Bool := ptrHbm p && rangeWaits (ptrAddr p) n s

/-- The pool a TO_POOL names, and the owner its buffer gets. -/
def toPoolPool (d : Desc) : Nat := descDst d % 16
def toPoolOwner (c : Nat) (d : Desc) : Nat :=
  if descDst d / 2 ^ 32 % 4096 = 4095 then 1024 + c else descDst d / 2 ^ 32 % 4096

/-- The buffer of a FROM_POOL, and the offset in it. -/
def fromPoolBuf (d : Desc) : Nat := descSrc d % 2 ^ 19
def fromPoolOfs (d : Desc) : Nat := descSrc d / 2 ^ 32 % 2 ^ 16

/-- The first check of its operation that a channel's descriptor fails, 0 where it passes (R423, R424, R435). -/
def opCheck (c : Nat) (s : State) : Nat :=
  let d := (getChan c s).desc
  let n := descLength d
  match descOp d with
  | 0 => if !ptrOk c (descSrc d) n s || !ptrOk c (descDst d) n s then codeAddrDenied else 0
  | 1 =>
    if ptrHbm (descDst d) && (ptrAddr (descDst d) % 64 != 0 || n % 64 != 0) then codeDescAlign
    else if !ptrOk c (descDst d) n s then codeAddrDenied else 0
  | 2 =>
    if !ptrOk c (descSrc d) n s then codeAddrDenied
    else if poolDefined (toPoolPool d) s && decide (2 ^ (poolEntry (toPoolPool d) s).log2 < n) then codeBufferSmall else 0
  | _ =>
    match poolOfBuf (fromPoolBuf d) s with
    | none => codeBadArgument
    | some p =>
      if owner s glvPool p ≠ chanDomain c s then codeDomainMismatch
      else if 2 ^ (poolEntry p s).log2 < fromPoolOfs d + n then codeBufferSmall
      else if !ptrOk c (descDst d) n s then codeAddrDenied else 0

/-- Where the bytes of a channel's descriptor come from and go to, as pointers; a FILL has only the second. -/
def moveEnds (c : Nat) (s : State) : Nat × Nat :=
  let x := getChan c s
  let buffer := fun n => 2 ^ 63 + (match poolOfBuf n s with | some p => bufAddr p n s | none => 0)
  match descOp x.desc with
  | 2 => (descSrc x.desc, buffer (x.buf - 1))
  | 3 => (buffer (fromPoolBuf x.desc) + fromPoolOfs x.desc, descDst x.desc)
  | _ => (descSrc x.desc, descDst x.desc)

/-- The pointers that the next bytes of a channel's descriptor touch. -/
def movePtrs (c : Nat) (s : State) : List Nat :=
  let x := getChan c s
  let e := moveEnds c s
  if descOp x.desc = 1 then [e.2 + x.moved] else [e.1 + x.moved, e.2 + x.moved]

/-- `n` bytes, from byte `o` on, of a 64-bit pattern repeated little-endian. -/
def patternBytes (v o n : Nat) : List Byte := (List.range n).map fun i => BitVec.ofNat 8 (v / 256 ^ ((o + i) % 8))

/-- The next `n` bytes of a channel's descriptor move. `h` is what the host answers: its data, or an error for the read or the write
(R435). -/
def moveBytes (c n : Nat) (h : HostRead) (s : State) : State :=
  let x := getChan c s
  let e := moveEnds c s
  let r := if descOp x.desc = 1 then (some ((patternBytes e.1 x.moved n).map (·, false)), s) else ptrRead c (e.1 + x.moved) n h s
  match r with
  | (none, s1) => dmaHalt c codeHostErr true s1
  | (some l, s1) =>
    let s2 := ptrWrite c (e.2 + x.moved) l s1
    if !ptrHbm e.2 && hostError h then dmaHalt c codeHostErr true s2
    else turnDone c n (if l.any Prod.snd then poisonEvent c s2 else s2)

/-! ### Turns (R436, R438) -/

/-- Bytes to the next cairn at or after the one where a channel is: cairns lie every 64 KiB of a descriptor's data. -/
def toCairn (moved : Nat) : Nat := (65536 - moved % 65536) % 65536

/-- Bytes that a channel may still move of its descriptor: those left, or with a stop asked for those up to the next cairn. -/
def bytesLeft (c : Nat) (s : State) : Nat :=
  let x := getChan c s
  let n := descLength x.desc - x.moved
  if x.stopping then min n (toCairn x.moved) else n

/-- A channel has data to move. -/
def hasWork (c : Nat) (s : State) : Bool :=
  let x := getChan c s
  x.phase == .ready && !(descOp x.desc == 2 && x.buf == 0) && bytesLeft c s != 0

/-- The bytes of a channel's turn: channels that have work take turns of 4 KiB in rotating order, and one alone goes on (R438). -/
def turnBytes (c : Nat) (s : State) : Nat :=
  let others := (smKeys s.chans).filter fun k => k != c && hasWork k s
  if others.isEmpty then bytesLeft c s
  else if leastBy (fun k => (k + 64 - s.dmaTurn) % 64) (c :: others) = some c then min 4096 (bytesLeft c s)
  else 0

/-- The channel's turn, where it has one and what it touches does not wait. -/
def moveTurn (c : Nat) (h : HostRead) (s : State) : State :=
  let n := turnBytes c s
  if linkHeld (movePtrs c s) s then setChan c { getChan c s with held := true } s
  else if n = 0 ∨ ((movePtrs c s).any fun p => ptrWaits p n s) = true then s
  else moveBytes c n h s

/-- An operation that needs nothing before its data. -/
def dmaMove (op c : Nat) (h : HostRead) (s : State) : State :=
  if !running c op s then s
  else if opCheck c s ≠ 0 then dmaHalt c (opCheck c s) true s
  else moveTurn c h s

/-- COPY, FILL, FROM_POOL. -/
def dmaCopy (c : Nat) (h : HostRead) (s : State) : State := dmaMove 0 c h s
def dmaFill (c : Nat) (h : HostRead) (s : State) : State := dmaMove 1 c h s
def dmaFromPool (c : Nat) (h : HostRead) (s : State) : State := dmaMove 3 c h s

/-- The channel asks for its TO_POOL buffer as a waiting producer (R413): it waits while HELD is at or above L, and on EMPTY
and OVER_QUOTA; other codes halt it. -/
def toPoolAlloc (c : Nat) (s : State) : State :=
  let d := (getChan c s).desc
  let p := toPoolPool d
  let w := PoolWait.alloc (1024 + c) p
  let k := allocCode p (1024 + c) (toPoolOwner c d) s
  if k ≠ 0 ∧ k ≠ codeEmpty ∧ k ≠ codeOverQuota then
    dmaHalt c k true (allocBuf p (1024 + c) (toPoolOwner c d) false s).2
  else if waitLevel p s ≤ poolHeld p s then addWait w s
  else
    let r := allocBuf p (1024 + c) (toPoolOwner c d) false s
    if r.1.1 = 0 then dropWait w (setChan c { getChan c r.2 with buf := r.1.2 + 1 } r.2) else waitAgain w r.2

/-- TO_POOL: the buffer first, then the data. -/
def dmaToPool (c : Nat) (h : HostRead) (s : State) : State :=
  if !running c 2 s then s
  else if opCheck c s ≠ 0 then dmaHalt c (opCheck c s) true s
  else if linkHeld [descSrc (getChan c s).desc] s then setChan c { getChan c s with held := true } s
  else
    let s1 := if (getChan c s).buf = 0 then toPoolAlloc c s else s
    if (getChan c s1).buf = 0 then s1 else moveTurn c h s1

/-! ### Write-back and stop (R425 to R430, R436) -/

/-- FREE_AFTER of a FROM_POOL that completes: the code of the FREE, where it is not 0, is the descriptor's result. -/
def freeAfter (c : Nat) (s : State) : State :=
  let x := getChan c s
  if descOp x.desc = 3 ∧ descSrc x.desc / 2 ^ 62 % 2 = 1 then
    let n := descSrc x.desc % 2 ^ 19
    let code := bufOpCode .free n (1024 + c) s
    let s1 := unitFree n (1024 + c) s
    if code = 0 then s1 else setChan c { getChan c s1 with result := code } s1
  else s

/-- After a descriptor: IDLE where it was the last, else the next one is read (R430). -/
def nextDesc (c : Nat) (d : Desc) (s : State) : State :=
  let x := getChan c s
  let s1 := setChan c { x.fresh with stopping := x.stopping } s
  if descLast d then setDmaState c 1 s1 else startRead c (setDmaCur c (descNext d) s1)

/-- The host destination that a BARRIER flushes before the write-back (R428): HBM writes are complete. -/
def flushes (c : Nat) (s : State) : List Nat :=
  let x := getChan c s
  if descBarrier x.desc ∧ x.lastHost ≠ 0 then [x.lastHost - 1] else []

/-- Write-back (R426, R429): the status word, then the control word with OWN cleared and its other bits unchanged. Where the host
completes the status word, or before it the flushing read of a BARRIER, with an error, the channel halts and the control word keeps OWN
(R435). -/
def writeback (c : Nat) (h : HostRead) (s0 : State) : State :=
  if (getChan c s0).phase ≠ .moved then s0
  else if linkHeld (dmaCur c s0 :: flushes c s0) s0 then setChan c { getChan c s0 with held := true } s0
  else if ptrHbm (dmaCur c s0) = true ∧ rangeWaits (ptrAddr (dmaCur c s0)) 8 s0 = true then s0
  else
    let s := (flushes c s0).foldl (fun a p => emit (.flushRead (chanDomain c s0) p) a) s0
    if (flushes c s0).isEmpty = false ∧ hostError h = true then dmaHalt c codeHostErr true s
    else
      let s1 := freeAfter c s
      let x := getChan c s1
      let s2 := writeStatus c x.result s1
      if !ptrHbm (dmaCur c s) && hostError h then dmaHalt c codeHostErr false s2
      else
        let s3 := descWrite c (dmaCur c s2) (leBytes (descWord x.desc 0 % 2 ^ 31) 4) s2
        let s4 := fput (Reg.dmaStatus c) DmaStatus.lastResult x.result (bumpWrap (Reg.dmaDescCnt c) DmaDescCnt.descCnt s3)
        nextDesc c x.desc (raiseWhen (descInt x.desc) (256 + 2 * c) s4)

/-- The check of DMA_ENABLE (R437): 0, or DMA_HEAD. -/
def dmaCheck (c : Nat) (s : State) : Nat :=
  let h := rd64 (Reg.dmaHeadLo c) (Reg.dmaHeadHi c) s
  if h % 32 ≠ 0 ∨ ptrOk c h 32 s = false then codeDmaHead else 0

/-- A write to DMA_CTL (R436, R437): POLL_US is kept; ENABLE from 0 runs the check, and restarts a stopped channel at
DMA_CUR; clearing it asks for a stop at the next cairn. -/
def dmaCtlWrite (c : Nat) (v : Word) (s : State) : State :=
  let s0 := fput (Reg.dmaCtl c) DmaCtl.pollUs (getF DmaCtl.pollUs v) s
  if getF DmaCtl.enable v = 0 then
    (if dmaEnabled c s0 then setChan c { getChan c s0 with stopping := true } (fclr (Reg.dmaCtl c) DmaCtl.enable s0) else s0)
  else if dmaEnabled c s0 || !released s0 then s0
  else
    let k := dmaCheck c s0
    let s1 := wr (Reg.dmaRefuse c) (BitVec.ofNat 32 k) s0
    if k ≠ 0 then s1
    else
      let s2 := fset (Reg.dmaCtl c) DmaCtl.enable s1
      let s3 := setChan c (getChan c s2).fresh s2
      if (getChan c s2).restart then startRead c (setDmaState c 2 s3) else setDmaState c 1 s3

/-- The channel stops inside its descriptor after the bytes it has moved (R436): STOPPED with OWN left 1, DMA_DONE_LEN, and a buffer that
TO_POOL had taken is freed. -/
def stopInside (c : Nat) (s : State) : State :=
  let x := getChan c s
  let s2 := writeStatus c codeStopped (fput (Reg.dmaDoneLen c) DmaDoneLen.doneLen x.moved s)
  let s3 := if x.buf = 0 then s2 else unitFree (x.buf - 1) (toPoolOwner c x.desc) s2
  dropWait (.alloc (1024 + c) (toPoolPool x.desc))
    (setDmaState c 0 (setChan c { (getChan c s3).fresh with restart := true } s3))

/-- The channel stops at its next cairn (R436). With a descriptor in hand, that is the first at or after `moved` bytes that lies inside it,
up to which its data moves; where there is none, or the data has all moved, the descriptor completes first. Between descriptors nothing is
reported. -/
def dmaStop (c moved : Nat) (h : HostRead) (s : State) : State :=
  let x := getChan c s
  if !x.stopping ∨ x.phase = .moved then s
  else if x.phase = .ready then
    let first := x.moved + toCairn x.moved
    let n := if opCheck c s = 0 ∧ (descOp x.desc ≠ 2 ∨ x.buf ≠ 0) then max first (moved / 65536 * 65536) else first
    let ptrs := if n = x.moved then [] else movePtrs c s
    if descLength x.desc ≤ n ∨ linkHeld (dmaCur c s :: ptrs) s = true ∨ ptrWaits (dmaCur c s) 8 s = true
        ∨ (ptrs.any fun p => ptrWaits p (n - x.moved) s) = true then s
    else
      let s1 := if n = x.moved then s else moveBytes c (n - x.moved) h s
      if (getChan c s1).phase = .ready then stopInside c s1 else s1
  else
    setDmaState c 0 (setChan c { x.fresh with restart := decide (dmaState c s = 2 ∨ dmaState c s = 3) } s)

end Sys2Proof.Machine
end

