-- ==== Sys2Proof/Machine/BaseCamp.lean ====
section
/-! DEFINITION. Base Camp (chapter "Base Camp: management, power and update"): the log, sensors, region power points, the
power cap, SMBus, the fuses, the flash helpers; and the ring bypass that Base Camp drives (R174 to R180). -/

namespace Sys2Proof.Machine

open Sys2Proof

/-! ### The log (R648 to R650) -/

/-- Append a log entry. -/
def logWrite (kind arg data0 data1 : Nat) (s : State) : State :=
  let n := (rd Reg.bcmLogWr s).toNat
  let e : LogEntry := ⟨s.bc.auxPs / 1000000, kind, arg, data0, data1⟩
  wr Reg.bcmLogWr (BitVec.ofNat 32 (n + 1)) { s with bc := { s.bc with log := smSet LogEntry.init (n % 2048) e s.bc.log } }

/-- Log kinds of R648. -/
def logReset : Nat := 1
def logMode : Nat := 2
def logFault : Nat := 3
def logTrip : Nat := 4
def logCap : Nat := 5
def logTherm : Nat := 6
def logFw : Nat := 7
def logComposition : Nat := 8
def logFlash : Nat := 9
def logPtp : Nat := 10

/-- Entry `k`, counted since auxiliary power-on, is still in the ring (R650). -/
def logHolds (k : Nat) (s : State) : Bool :=
  let n := (rd Reg.bcmLogWr s).toNat
  decide (k < n) && decide (n ≤ k + 2048)

/-- The 32 bytes of a log entry (R648). -/
def logBytes (e : LogEntry) : List Byte :=
  leBytes e.stamp 8 ++ [BitVec.ofNat 8 e.kind, 0, 0, 0] ++ leBytes e.arg 4 ++ leBytes e.data0 8 ++ leBytes e.data1 8

def logEntryAt (k : Nat) (s : State) : LogEntry := smGet LogEntry.init (k % 2048) s.bc.log

/-- Put eight words into BCM_LOG_DATA0 to 7. -/
def putLogData (l : List Word) (s : State) : State :=
  (List.range 8).foldl (fun a i => wr (Reg.bcmLogData i) ((l[i]?).getD 0) a) s

/-- A write of `k` to BCM_LOG_IDX (R650). -/
def logIdxWrite (k : Word) (s : State) : State :=
  let s1 := wr Reg.bcmLogIdx k s
  if logHolds k.toNat s then
    fclr Reg.bcmLogStatus BcmLogStatus.logStale (putLogData (wordsOf 8 (logBytes (logEntryAt k.toNat s))) s1)
  else fset Reg.bcmLogStatus BcmLogStatus.logStale (putLogData [] s1)

/-! ### The ring bypass (R174 to R180) -/

/-- The ring path R175 and R180 give: MITTEN_N's level, and the code of MITTEN_PATH. -/
def mittenPlan (s : State) : Bool × Nat :=
  if !s.pwr.aux then (false, 2)
  else if curMode s = 5 then (false, 2)
  else
    match fget Reg.chipForce ChipForce.mittenForce s with
    | 1 => (false, 2)
    | 2 => (true, 1)
    | _ =>
      if !fbit Reg.bcmStatus BcmStatus.railOk s then (false, 2)
      else if s.pwr.trip then (false, 2)
      else if released s && s.comp.ringEn && s.comp.inForce then (true, 0)
      else (true, 1)

/-- Out of the member path RING_STATE reads OFF (R468); a device that is still ACTIVE joins again when it returns. -/
def ringOff (s : State) : State :=
  let act := fbit Reg.lanRingCtl LanRingCtl.active s
  let s1 := fput Reg.lanRingStatus LanRingStatus.ringState 0 s
  { s1 with ring := { s1.ring with wanted := if act then some true else none, masterSeen := false, returned := none } }

/-- A ring receive lane has no signal (R177): it goes back to step 2, and one that was up loses its lock (R452). -/
def ringLaneDark (l : Nat) (s : State) : State :=
  let r := Reg.lanLaneStatus l
  let k := fget r LanLaneStatus.laneState s
  if k < 3 then s
  else
    let s1 := fclr r LanLaneStatus.cdrLock (fclr r LanLaneStatus.sigDet (fput r LanLaneStatus.laneState 2 s))
    if k = 6 then
      raise (384 + l) (bump (Reg.lanLockLostCnt l) LanLockLostCnt.lockLostCnt (fset r LanLaneStatus.lockLost s1))
    else s1

/-- The ring receivers see no signal: the lanes and the frame lose their lock. -/
def ringDark (s : State) : State :=
  let s1 := [48, 49, 50, 51].foldl (fun a l => ringLaneDark l a) s
  if fbit Reg.lanRingStatus LanRingStatus.frameLock s1 then
    raise 440 (fset Reg.lanRingStatus LanRingStatus.lockChg (fclr Reg.lanRingStatus LanRingStatus.frameLock s1))
  else s1

/-- Drive MITTEN_N and the path as R175 and R180 give. A path other than the internal one loses the pass-through's lock. -/
def applyMitten (s : State) : State :=
  let p := mittenPlan s
  let s0 := if p.2 = 0 then s else if p.2 = 1 then ringOff s else ringDark (ringOff s)
  let s1 := fput Reg.chipMode ChipMode.mittenPath p.2 s0
  { s1 with pwr := { s1.pwr with mittenN := p.1, passThrough := s1.pwr.passThrough && decide (p.2 = 1) } }

/-! ### Resets (R153) -/

/-- Offsets of registers that a reset of the chip keeps: Base Camp's window and CHIP_RESET_CAUSE. -/
def keptByReset (off : Nat) : Bool := decide (off = 0x008) || (decide (0x40000 ≤ off) && decide (off < 0x50000))

/-- The byte the flash holds at each address of [o, o + n) is open from here on (R657): a free value. -/
def flashFree (o : Nat) : Nat → State → State
  | 0, s => s
  | n + 1, s => flashFree o n { s with flash := smSet 0xFF#8 (o + n) (Config.freeByte s.freeCtr n) s.flash }

/-- A reset, trip or hold during a FLASH_WRITE leaves the sector in progress undefined (R657); which sector that is, the
model does not follow, so every byte of the range is a free value. -/
def flashCut (s : State) : State :=
  if fget Reg.cmdStatus CmdStatus.busy s = 1 ∧ fget Reg.cmdStatus CmdStatus.curOp s = 0x10 ∧ s.cmd.finished = false then
    stepFree (flashFree ((s.cmd.args[0]?).getD 0).toNat ((s.cmd.args[4]?).getD 0).toNat s)
  else s

/-- What Base Camp drops with the chip: actions that wait, points asked for or lowered, the hold of R610, and PTP's exchange. -/
def resetRegionActs (b : BaseCamp) : BaseCamp :=
  { b with waiting := [], dvfsAsked := [], capLevel := [], lowered := [], ivrHold := [], capStep := false, thermStep := false,
           ptpGot := 0, announceAt := 0, adjAt := 0 }

/-- A chip reset (R153): every unit but Base Camp returns to its reset state, all fault state is cleared, and the chip is in
BYPASS. The log, CHIP_RESET_CAUSE, the flash and the TAP are kept. -/
def chipReset (cause : Nat) (s0 : State) : State :=
  let s := flashCut s0
  let wasSafe := if curMode s = 5 then 1 else 0
  let wasMaintain := decide (curMode s = 4)
  let s1 : State := { State.reset with
    pending := s.pending, outbox := s.outbox, freeCtr := s.freeCtr, flash := s.flash, bc := resetRegionActs s.bc, tap := s.tap,
    regs := smErase (fun o => !keptByReset o) s.regs,
    snaps := smErase (fun o => !keptByReset o) s.snaps,
    cmd := { Cmd.init with resume := (match s.cmd.resume with
      | some r => if r.op = 0x10 then some r else none
      | none => none) },
    pwr := { s.pwr with bypass := true, boot := .off, trained := [], trainFails := [], linkUp := false, linkPcie := false,
                        memActive := false, passThrough := false, modeTarget := 0, safeAt := none } }
  let s2 := fput Reg.chipResetCause ChipResetCause.causeWasSafe wasSafe
    (fput Reg.chipResetCause ChipResetCause.resetCause cause s1)
  let s3 := if wasMaintain then fclr Reg.bcmFlashCtl BcmFlashCtl.flashWe s2 else s2
  let s4 := fclr Reg.bcmStatus BcmStatus.capActive (fclr Reg.bcmStatus BcmStatus.throttle s3)
  applyMitten (logWrite logReset cause 0 0 s4)

/-- Auxiliary power-on (R143, R153, R670, R680): everything is cleared, the straps are sampled, RAIL_EN goes high. -/
def auxPowerOn (adsel : Nat) (s : State) : State :=
  let s1 : State := { State.reset with
    pending := s.pending, outbox := s.outbox, freeCtr := s.freeCtr, flash := s.flash,
    pwr := { Power.init with aux := true, adsel := adsel, railEn := true, railGood := [.vaux0v8], railSeen := [.vaux0v8] } }
  applyMitten (logWrite logReset 0 0 0 s1)

/-- VAUX_0V8 falls below 0.70 V (R673): all other logic is held in reset and every signal pad goes to high impedance. -/
def vauxBrownout (s : State) : State :=
  { State.reset with
    pending := s.pending, outbox := s.outbox, freeCtr := s.freeCtr, flash := s.flash,
    pwr := { Power.init with padsOff := true } }

/-! ### Rails (R667, R670, R672) -/

def allRails : List Rail := [.vaux0v8, .vfab1v5, .vsoc0v75, .vser0v9, .vser1v2, .vhbm1v1, .vhbm0v4, .vio1v8]

/-- The sensor that measures a rail (R634). -/
def railSensor : Rail → Nat
  | .vfab1v5 => 22
  | .vsoc0v75 => 24
  | .vser0v9 => 25
  | .vser1v2 => 26
  | .vhbm1v1 => 27
  | .vhbm0v4 => 28
  | .vio1v8 => 29
  | .vaux0v8 => 30

/-- The window of a rail in mV (R667). -/
def railWindow : Rail → Nat × Nat
  | .vaux0v8 => (760, 840)
  | .vfab1v5 => (1440, 1560)
  | .vsoc0v75 => (720, 780)
  | .vser0v9 => (870, 930)
  | .vser1v2 => (1160, 1240)
  | .vhbm1v1 => (1067, 1133)
  | .vhbm0v4 => (388, 412)
  | .vio1v8 => (1710, 1890)

def inWindow (r : Rail) (mv : Int) : Bool := decide (((railWindow r).1 : Int) ≤ mv) && decide (mv ≤ (railWindow r).2)

/-- Supplies are good (R144): every rail inside its window and Base Camp firmware running. -/
def suppliesGood (s : State) : Bool :=
  s.pwr.aux && allRails.all (fun r => s.pwr.railGood.contains r) && fget Reg.bcmStatus BcmStatus.fwSlot s != 0

/-- BCM_STATUS.RAIL_OK follows the supplies. -/
def updateRailOk (s : State) : State :=
  applyMitten (fput Reg.bcmStatus BcmStatus.railOk (if suppliesGood s then 1 else 0) s)

/-- A rail first enters its window after RAIL_EN rises and becomes supervised (R672). -/
def railWindowEntry (r : Rail) (s : State) : State :=
  if s.pwr.aux ∧ s.pwr.railEn then
    let good := if s.pwr.railGood.contains r then s.pwr.railGood else s.pwr.railGood ++ [r]
    let seen := if s.pwr.railSeen.contains r then s.pwr.railSeen else s.pwr.railSeen ++ [r]
    updateRailOk { s with pwr := { s.pwr with railGood := good, railSeen := seen } }
  else s

/-- A Base Camp trip (R644): BYPASS with cause BC_TRIP, MITTEN_N low, a log entry, and RAIL_EN low where RAIL_OFF is 1. -/
def bcTrip (sensor : Nat) (s : State) : State :=
  if !s.pwr.aux || s.pwr.trip then s
  else
    let v := fget (Reg.bcmSensor sensor) BcmSensor.value s
    let off := fbit Reg.bcmTripCtl BcmTripCtl.railOff s
    let s1 := chipReset 5 { s with pwr := { s.pwr with trip := true } }
    let s2 := logWrite logTrip sensor v 0 s1
    let s3 : State := if off then
        { s2 with pwr := { s2.pwr with railEn := false, railGood := [.vaux0v8], railSeen := [.vaux0v8] } }
      else s2
    updateRailOk s3

/-- 100 µs in the units of Base Camp's time: how long a rail may be outside its window (R644). -/
def excursionPs : Nat := 100000000

/-- The trip condition of a sensor stands (R644, R672): 110 °C, or while PERST_N is deasserted a supervised rail that has been outside its window
for 100 µs. -/
def tripCondition (sensor : Nat) (s : State) : Bool :=
  if sensor < 22 then
    fbit (Reg.bcmSensor sensor) BcmSensor.valid s && decide (1760 ≤ (BitVec.ofNat 16 (fget (Reg.bcmSensor sensor) BcmSensor.value s)).toInt)
  else
    match smFind sensor s.bc.outSince with
    | none => false
    | some t => !s.pwr.perst && decide (t + excursionPs ≤ s.bc.auxPs)
        && allRails.any fun r => railSensor r == sensor && s.pwr.railSeen.contains r

/-- BASE_CAMP_TRIP (R644). -/
def tripOn (sensor : Nat) (s : State) : State := if tripCondition sensor s then bcTrip sensor s else s

/-- A supervised rail has been outside its window for 100 µs (R672). -/
def railExcursion (r : Rail) (s : State) : State :=
  if s.pwr.railSeen.contains r then
    let s1 := updateRailOk { s with pwr := { s.pwr with railGood := s.pwr.railGood.erase r } }
    if s.pwr.perst then s1 else bcTrip (railSensor r) s1
  else s

/-- 50 ms in ps, the time a rail has to enter its window (R672). -/
def railEntryPs : Nat := 50000000000

/-- A rail has not entered its window within 50 ms of RAIL_EN rising (R672). -/
def railEntryTimeout (r : Rail) (s : State) : State :=
  if s.pwr.railEn ∧ ¬ s.pwr.railSeen.contains r ∧ s.bc.railAt + railEntryPs ≤ s.bc.auxPs then bcTrip (railSensor r) s else s

/-! ### Sensors (R634, R643, R644) -/

/-- A sensor value as a signed number. -/
def sensorInt (n : Nat) (s : State) : Int := (BitVec.ofNat 16 (fget (Reg.bcmSensor n) BcmSensor.value s)).toInt

def sensorValid (n : Nat) (s : State) : Bool := fbit (Reg.bcmSensor n) BcmSensor.valid s

/-- The hottest of sensors 0 to 21 sampled so far: index and value. -/
def hottest (s : State) : Option (Nat × Int) :=
  (List.range 22).foldl (fun best n =>
    if sensorValid n s then
      match best with
      | none => some (n, sensorInt n s)
      | some (m, v) => if v < sensorInt n s then some (n, sensorInt n s) else some (m, v)
    else best) none

/-- WARN_C and THROTTLE_C in force (other values than the tables' ranges act as 95 and 105). -/
def warnC (s : State) : Nat :=
  let v := fget Reg.bcmThermCtl BcmThermCtl.warnC s
  if 50 ≤ v ∧ v ≤ 105 then v else 95
def throttleC (s : State) : Nat :=
  let v := fget Reg.bcmThermCtl BcmThermCtl.throttleC s
  if 60 ≤ v ∧ v ≤ 105 then v else 105

/-- T_max, from BCM_TEMP_MAX. -/
def tMax (s : State) : Int := (BitVec.ofNat 16 (fget Reg.bcmTempMax BcmTempMax.tMax s)).toInt

/-- A second, and a millisecond, in the units of Base Camp's time. -/
def secondPs : Nat := 1000000000000
def msPs : Nat := 1000000000

/-- The warning state after a temperature sample (R643): set at WARN_C; cleared once T_max has stayed below WARN_C - 5 °C for 1 s. -/
def updateWarn (s : State) : State :=
  let t := tMax s
  if 16 * (warnC s : Int) ≤ t then
    let s1 : State := { s with bc := { s.bc with coolSince := none } }
    if fbit Reg.bcmStatus BcmStatus.tempWarn s then s1
    else logWrite logTherm (fget Reg.bcmTempMax BcmTempMax.tSensor s1) (fget Reg.bcmTempMax BcmTempMax.tMax s1) 0
      (raise 8 (fset Reg.bcmStatus BcmStatus.tempWarn s1))
  else if t < 16 * ((warnC s : Int) - 5) then
    match s.bc.coolSince with
    | none => { s with bc := { s.bc with coolSince := some s.bc.auxPs } }
    | some n => if n + secondPs ≤ s.bc.auxPs then fclr Reg.bcmStatus BcmStatus.tempWarn s else s
  else { s with bc := { s.bc with coolSince := none } }

/-- A sample of the package power goes into the average of the window (R641). -/
def powerSample (n : Nat) (v : Int) (s : State) : State :=
  if n = 31 then { s with bc := { s.bc with powerSum := s.bc.powerSum + v, powerCount := s.bc.powerCount + 1 } } else s

/-- A sample of a rail's voltage: the time since which it has been outside its window (R644, R667). -/
def railSample (n : Nat) (v : Int) (s : State) : State :=
  match allRails.find? fun r => railSensor r == n with
  | none => s
  | some r =>
    if inWindow r v then { s with bc := { s.bc with outSince := smDel n s.bc.outSince } }
    else if (smFind n s.bc.outSince).isSome then s
    else { s with bc := { s.bc with outSince := smPut n s.bc.auxPs s.bc.outSince } }

/-- Base Camp samples sensor `n` (R634): the value is kept, T_max follows, and the thresholds are checked. -/
def sensorSample (n : Nat) (v : BitVec 16) (s : State) : State :=
  if !s.pwr.aux || decide (48 ≤ n) then s
  else
    let s1 := fput (Reg.bcmSensor n) BcmSensor.valid 1 (fput (Reg.bcmSensor n) BcmSensor.value v.toNat s)
    if 22 ≤ n then powerSample n v.toInt (railSample n v.toInt s1)
    else
      let s2 := match hottest s1 with
        | some (m, t) => fput Reg.bcmTempMax BcmTempMax.tSensor m
            (fput Reg.bcmTempMax BcmTempMax.tMax (BitVec.ofInt 16 t).toNat s1)
        | none => s1
      let s3 := updateWarn s2
      if 1760 ≤ v.toInt then bcTrip n s3 else s3

/-! ### Region points (R636 to R639) -/

/-- The point of the last REGION_DVFS entry of region `r`, or its POWER-section point (R639). -/
def askedPoint (r : Nat) (s : State) : Nat := smGet (s.comp.dvfsPoints / 4 ^ r % 4) r s.bc.dvfsAsked

/-- The point in force: the lowest clock (highest code) of the asked point, the capping point and the hold of R610. -/
def regionPoint (r : Nat) (s : State) : Nat :=
  max (askedPoint r s) (max (smGet 0 r s.bc.capLevel) (if s.bc.ivrHold.contains r then 2 else 0))

/-- BCM_REGION_DVFS shows the point in force of every region. -/
def updatePoints (s : State) : State :=
  wr Reg.bcmRegionDvfs (BitVec.ofNat 32 ((List.range 16).foldl (fun n r => n + regionPoint r s * 4 ^ r) 0)) s

def rgcState (r : Nat) (s : State) : Nat := fget (Reg.rgcStatus r) RgcStatus.rgcState s
def setRgcState (r v : Nat) (s : State) : State := fput (Reg.rgcStatus r) RgcStatus.rgcState v s

/-- BCM_REGION_OFF holds region `r` (R640). -/
def regionHeld (r : Nat) (s : State) : Bool := (fget Reg.bcmRegionOff BcmRegionOff.off s).testBit r

/-- The effective power cap in W (R641): the lower of CAP_W and the SMBus cap, where one is set. -/
def effectiveCap (s : State) : Nat :=
  let c := fget Reg.bcmPowerCap BcmPowerCap.capW s
  let b := fget Reg.bcmBmcCap BcmBmcCap.bmcCapW s
  if b = 0 then c else min c b

/-- A write to BCM_POWER_CAP (R646): CAP_W is kept within 50 to 400. -/
def powerCapWrite (v : Word) (s : State) : State :=
  let c := min 400 (max 50 (getF BcmPowerCap.capW v))
  fput Reg.bcmPowerCap BcmPowerCap.windowMs (getF BcmPowerCap.windowMs v) (fput Reg.bcmPowerCap BcmPowerCap.capW c s)

/-! ### SMBus (R633, R647) -/

/-- Base Camp's firmware runs: until then it answers only STATUS and FW_INFO (R633). -/
def fwRuns (s : State) : Bool := fget Reg.bcmStatus BcmStatus.fwSlot s != 0

/-- The 7-bit address that Base Camp answers at (R647): the straps give its two lowest bits. -/
def smbAddress (s : State) : Nat := 0x58 + s.pwr.adsel

/-- A command is answered: Base Camp has power, the PEC is good, and firmware runs where the command needs it. -/
def smbAnswers (pec always : Bool) (s : State) : Bool := s.pwr.aux && pec && (always || fwRuns s)

/-- Answer a command, or NACK it; one for another address is none of Base Camp's. -/
def smbReply (addr : Nat) (pec always : Bool) (k : State → State) (s : State) : State :=
  if addr ≠ smbAddress s then s
  else if smbAnswers pec always s then k s else if s.pwr.aux then emit .smbusNack s else s

/-- The STATUS word (R647). -/
def smbStatusWord (s : State) : Nat :=
  let b := fun (x : Bool) (i : Nat) => if x then 2 ^ i else 0
  curMode s + b s.pwr.trip 3 + b (fbit Reg.bcmStatus BcmStatus.held s) 4 + b (fbit Reg.bcmStatus BcmStatus.tempWarn s) 5
    + b (fbit Reg.bcmStatus BcmStatus.capActive s) 6 + b (fbit Reg.bcmStatus BcmStatus.throttle s) 7
    + fget Reg.chipResetCause ChipResetCause.resetCause s * 256

/-- Bytes of a number as an SMBus answer. -/
def smbBytes (v n : Nat) : List Nat := (leBytes v n).map BitVec.toNat

/-- SMBus HOLD (R647, R153): 1 holds the chip in reset with cause BC_HOLD, 0 releases it. -/
def smbHold (on : Bool) (s : State) : State :=
  if on then
    (if s.pwr.hold then s
     else fset Reg.bcmStatus BcmStatus.held (chipReset 4 { s with pwr := { s.pwr with hold := true } }))
  else fclr Reg.bcmStatus BcmStatus.held { s with pwr := { s.pwr with hold := false } }

/-- SMBus BMC_CAP (R641, R646, R647): 50 to 400 W sets the board cap, 0 removes it. For other values the
spec states no cap: an open value of 50 to 400 W. -/
def bmcCap (w : Nat) (s : State) : State :=
  let open_ := decide (w ≠ 0 ∧ (w < 50 ∨ 400 < w))
  let v := if open_ then 50 + freeNat s % 351 else w
  fput Reg.bcmBmcCap BcmBmcCap.bmcCapW v (if open_ then stepFree s else s)

/-- SMBus CLEAR_TRIP (R645): succeeds only while every temperature sensor reads below WARN_C. -/
def clearTrip (s : State) : State :=
  if s.pwr.trip && (List.range 22).all (fun n => decide (sensorInt n s < 16 * (warnC s : Int))) then
    applyMitten { s with pwr := { s.pwr with trip := false, railEn := true }
                         bc := if s.pwr.railEn then s.bc else { s.bc with railAt := s.bc.auxPs } }
  else s

/-- SMBus LOG_READ (R647, R650): the entry at the SMBus log index, which then advances; zeros for an entry the ring does
not hold. -/
def smbLogRead (s : State) : State :=
  let k := s.bc.smbIdx
  let e := if logHolds k s then logEntryAt k s else LogEntry.init
  emit (.smbus ((logBytes e).map BitVec.toNat)) { s with bc := { s.bc with smbIdx := (k + 1) % 2 ^ 32 } }

/-! ### Fuses and flash (R651, R629 to R632) -/

/-- A word of the fuse array (R651): group g holds words 4g to 4g + 3. -/
def fuseWord (i : Nat) : Word :=
  if i = 2 then 0x00B00410#32
  else if i = 3 then 0x051024B0#32
  else if 96 ≤ i then 0
  else Config.fuseWord i

/-- A flash byte; erased flash reads 0xFF. -/
def flashByte (s : State) (a : Nat) : Byte := smGet 0xFF#8 a s.flash

def flashBytes (s : State) (a n : Nat) : List Byte := (List.range n).map fun i => flashByte s (a + i)

/-- A little-endian number of `n` bytes in flash (R7). -/
def flashNat (s : State) (a n : Nat) : Nat := leNat (flashBytes s a n)

/-- One bit of the CRC-32 of IEEE 802.3. -/
def crcBit (c : Nat) : Nat := if c % 2 = 1 then (c / 2) ^^^ 0xEDB88320 else c / 2

def crcByte (c : Nat) (b : Byte) : Nat :=
  crcBit (crcBit (crcBit (crcBit (crcBit (crcBit (crcBit (crcBit (c ^^^ b.toNat))))))))

/-- CRC-32 with the IEEE 802.3 polynomial. -/
def crc32 (l : List Byte) : Nat := (l.foldl crcByte 0xFFFFFFFF) ^^^ 0xFFFFFFFF

/-- The flash header is accepted (R630). -/
def flashHeaderOk (s : State) : Bool :=
  decide (flashBytes s 0 8 = [0x4F#8, 0x53#8, 0x4E#8, 0x46#8, 0x4C#8, 0x53#8, 0x48#8, 0x31#8])
    && decide (flashNat s 0x0A 2 = 1) && decide (flashNat s 0xFC 4 = crc32 (flashBytes s 0 0xFC))

/-- A Base Camp firmware image at `base` is accepted (R632); `sig` is the outcome of its signature and digest checks. -/
def firmwareOk (base : Nat) (sig : Bool) (s : State) : Bool :=
  decide (flashBytes s base 8 = [0x4F#8, 0x53#8, 0x4E#8, 0x42#8, 0x43#8, 0x46#8, 0x57#8, 0x31#8])
    && decide (flashNat s (base + 0xC) 4 ≤ 768 * 1024) && sig
    && decide (0x051024B0 &&& flashNat s (base + 0x14) 4 = flashNat s (base + 0x10) 4 &&& flashNat s (base + 0x14) 4)

/-- Dummy cycles and clock in MHz of 8D-8D-8D reads (R629, R630): the header's, else 20 at 200 MHz. -/
def xspiMode (ok : Bool) (s : State) : Nat × Nat := if ok then (flashNat s 0x0C 1, flashNat s 0x0D 1) else (20, 200)

/-- The flash header is read (R630): a bad one sets HDR_DEFAULT, and BCM_BOARD0 to 7 read 0. -/
def flashHeaderRead (s : State) : State :=
  let ok := flashHeaderOk s
  let s1 := fput Reg.bcmStatus BcmStatus.hdrDefault (if ok then 0 else 1) { s with bc := { s.bc with xspi := xspiMode ok s } }
  (List.range 8).foldl (fun a i =>
    wr (Reg.bcmBoard i) (if ok then BitVec.ofNat 32 (flashNat s (0x10 + 4 * i) 4) else 0) a) s1

/-- Base Camp loads its firmware (R630, R632): the flash header, then slot A, then slot B. -/
def firmwareLoad (sigA sigB : Bool) (s : State) : State :=
  if !s.pwr.aux || !s.pwr.railGood.contains .vio1v8 || fwRuns s then s
  else
    let s2 := flashHeaderRead s
    let slot := if firmwareOk 0x1000000 sigA s then 1 else if firmwareOk 0x2000000 sigB s then 2 else 0
    let ver := if slot = 0 then 0 else flashNat s (0x1000000 * slot + 8) 4
    let s3 := wr Reg.bcmFwVersion (BitVec.ofNat 32 ver) (fput Reg.bcmStatus BcmStatus.fwSlot slot s2)
    updateRailOk (if slot = 0 then s3 else logWrite logFw slot ver 0 s3)

end Sys2Proof.Machine
end

