-- ==== Sys2Proof/Machine/Flags.lean ====
section
/-! DEFINITION. Fault units and flags (chapter "Fault detection, Belay recovery and the safe state"): levels, the history,
acknowledgement, the pipeline fault and status flags, completion of a Command Port operation, and entry into SAFE. -/

namespace Sys2Proof.Machine

open Sys2Proof

/-! ### Units and classes (R584) -/

/-- The base of a unit's fault registers. -/
def faultBase : FaultUnit → Nat
  | .chip => 0x200
  | .region r => 0x400100 + 0x40000 * r
  | .block r b => 0x410100 + 0x40000 * r + 0x4000 * b

/-- The classes of the table of R584, by the unit that records them. -/
def classOf (u : FaultUnit) (c : Nat) : Bool :=
  match u with
  | .block _ _ => decide (1 ≤ c ∧ c ≤ 0x0A)
  | .region _ => decide (0x10 ≤ c ∧ c ≤ 0x13)
  | .chip => decide ((0x20 ≤ c ∧ c ≤ 0x23) ∨ (0x30 ≤ c ∧ c ≤ 0x34) ∨ c = 0x38 ∨ c = 0x3C)

def classCellResidue : Nat := 0x01
def classCellTest : Nat := 0x04
def classRopeMismatch : Nat := 0x05
def classQueuePointer : Nat := 0x06
def classSeqStore : Nat := 0x08
def classStateCopy : Nat := 0x09
def classBlockTest : Nat := 0x0A
def classRgcVote : Nat := 0x10
def classNocParity : Nat := 0x11
def classIvrPhase : Nat := 0x12
def classMaSram : Nat := 0x13
def classPoolTable : Nat := 0x21
def classHbmRetrain : Nat := 0x22
def classUnitSram : Nat := 0x23
def classHbmTrain : Nat := 0x38
def classForced : Nat := 0x3C

/-- A class of the privileged few or a forced entry: L4 whatever the count (R586). -/
def isL4 (c : Nat) : Bool := decide (0x30 ≤ c ∧ c < 0x40)

/-- A cell class (R589). -/
def isCell (c : Nat) : Bool := decide (1 ≤ c ∧ c ≤ 3)

/-- A class whose L2 reaction is a takeover by the standby block (R584). -/
def takesOver (c : Nat) : Bool := decide ((1 ≤ c ∧ c ≤ 3) ∨ (5 ≤ c ∧ c ≤ 8))

/-! ### Unacknowledged counts (R586, R587) -/

/-- The pair of FLT_UNACK that counts class `c`. -/
def unackFld (c : Nat) : Fld := ⟨2 * (c % 16), 2⟩

def unackOf (u : FaultUnit) (c : Nat) (s : State) : Nat := fget (Reg.fltUnack (faultBase u)) (unackFld c) s

/-- FLT_ACK (R587): one class, or every class. -/
def faultAck (u : FaultUnit) (v : Word) (s : State) : State :=
  if getF FltAck.ackAll v = 1 then wr (Reg.fltUnack (faultBase u)) 0 s
  else if classOf u (getF FltAck.ackClass v) then
    fput (Reg.fltUnack (faultBase u)) (unackFld (getF FltAck.ackClass v)) 0 s
  else s

/-- The key of a unit in State. -/
def unitKey : FaultUnit → Nat
  | .chip => 0
  | .region r => 1 + r
  | .block r b => 17 + 8 * r + b

/-- The mesh cycle of the last real fault of class `c` in a unit. -/
def lastFaultAt (u : FaultUnit) (c : Nat) (s : State) : Nat := smGet 0 (64 * unitKey u + c) s.faultAt

/-- AUTO_ACK_S seconds without a further fault of class `c` (R588): the count is cleared where AUTO_ACK_S is not 0 and they have passed. -/
def autoAck (u : FaultUnit) (c : Nat) (s : State) : State :=
  let n := fget (Reg.fltCtl (faultBase u)) FltCtl.autoAckS s
  if n ≠ 0 ∧ classOf u c = true ∧ lastFaultAt u c s + n * cyclesPerSecond ≤ s.now then
    fput (Reg.fltUnack (faultBase u)) (unackFld c) 0 s
  else s

/-! ### The history (R592, R593) -/

/-- The slot running and the CTU row affected, of a fault outside a block or where no row unit is (R592). -/
def noPlace : Nat × Nat := (0, 0x3FF)

/-- The 64 bits of a history entry; `place` is the slot running and the CTU row affected. -/
def historyEntry (stamp : Nat) (injected : Bool) (level : Nat) (f : FaultIn) (place : Nat × Nat) : Nat :=
  stamp % 2 ^ 38 * 2 ^ 26 + (if injected then 2 ^ 25 else 0) + level % 4 * 2 ^ 23 + f.cls % 64 * 2 ^ 17
    + f.unit % 16 * 2 ^ 13 + place.1 % 8 * 2 ^ 10 + place.2 % 1024

/-- The source of a unit (R593). -/
def faultSource : FaultUnit → Nat
  | .chip => 4
  | .region r => 512 + 64 * r + 32
  | .block r b => 512 + 64 * r + 4 * b

/-- LG_ARG of a FAULT entry in Base Camp's log (R648). -/
def faultLogArg : FaultUnit → Nat
  | .chip => 0x100
  | .region r => r + 0xF0
  | .block r b => r + 16 * b

/-- The index of the next history entry: the entry after the newest, and 0 while the history is empty. -/
def nextHist (u : FaultUnit) (s : State) : Nat :=
  let b := faultBase u
  let h := fget (Reg.fltStatus b) FltStatus.histHead s
  if rd (Reg.fltHistLo b h) s = 0 ∧ rd (Reg.fltHistHi b h) s = 0 then 0 else (h + 1) % 8

/-- Record a fault at a level (0 to 3 for L1 to L4) in a unit's registers (R592, R593), and in Base Camp's log from L3 up
(R594). -/
def recordFault (u : FaultUnit) (injected : Bool) (level : Nat) (f : FaultIn) (place : Nat × Nat) (s : State) : State :=
  let b := faultBase u
  let i := nextHist u s
  let e := historyEntry s.now injected level f place
  let s1 := wr64 (Reg.fltHistLo b i) (Reg.fltHistHi b i) e s
  let s2 := fput (Reg.fltStatus b) FltStatus.lastClass f.cls
    (fput (Reg.fltStatus b) FltStatus.lastLevel level
      (fput (Reg.fltStatus b) FltStatus.histHead i (fset (Reg.fltStatus b) FltStatus.fault s1)))
  let s3 := if level = 0 then s2 else fset (Reg.fltStatus b) FltStatus.escalated s2
  let s4 := if injected then bump (Reg.fltInjCnt b) FltEvtCnt.count s3 else bump (Reg.fltEvtCnt b) FltEvtCnt.count s3
  let s5 := if level < 2 then s4 else logWrite logFault (faultLogArg u) e 0 s4
  raiseWhen (decide (fget (Reg.fltCtl b) FltCtl.irqLevel s ≤ level)) (faultSource u) s5

/-- The standby block of a region, if it has one in role STANDBY (R589). -/
def standbyOf (r : Nat) (s : State) : Option Nat :=
  let b := fget (Reg.rgcStatus r) RgcStatus.rgcStandby s
  if b < 8 then (if fget (Reg.blkStatus r b) BlkStatus.blkRole s = 2 then some b else none) else none

/-- Raise a level by R589 and R590: a cell class without a spare enters at L2 at least, a takeover without a standby block
is handled at L3, and a region class at L2 is handled at L3. -/
def raiseLevel (u : FaultUnit) (c level : Nat) (s : State) : Nat :=
  match u with
  | .block r b =>
    let l := if isCell c ∧ fget (Reg.blkStatus r b) BlkStatus.blkSpare s = 0xF then max level 1 else level
    if l = 1 ∧ takesOver c = true ∧ (standbyOf r s).isNone = true then 2 else l
  | .region _ => if level = 1 then 2 else level
  | .chip => level

/-- The level a real fault enters at (R586, R589, R590). -/
def entryLevel (u : FaultUnit) (c : Nat) (s : State) : Nat :=
  if isL4 c then 3 else raiseLevel u c (min 2 (unackOf u c s)) s

/-- Record a real fault and count it as unacknowledged (R586). -/
def enterFault (u : FaultUnit) (f : FaultIn) (place : Nat × Nat) (s : State) : State :=
  let s0 := recordFault u false (entryLevel u f.cls s) f place s
  let s1 : State := { s0 with faultAt := smSet 0 (64 * unitKey u + f.cls) s.now s0.faultAt }
  if isL4 f.cls then s1
  else fput (Reg.fltUnack (faultBase u)) (unackFld f.cls) (min 3 (unackOf u f.cls s + 1)) s1

/-- Faults in ascending class order (R591). -/
def insertFault (f : FaultIn) : List FaultIn → List FaultIn
  | [] => [f]
  | g :: gs => if f.cls ≤ g.cls then f :: g :: gs else g :: insertFault f gs

def sortFaults (l : List FaultIn) : List FaultIn := l.foldr insertFault []

/-! ### Pipeline flags -/

/-- The pipeline interrupt source. -/
def pipeSource (p : Nat) : Nat := 1536 + p

/-- Set a bit of PIP_FAULT and raise the pipeline's source. -/
def pipFault (p : Nat) (f : Fld) (s : State) : State := raise (pipeSource p) (fset (Reg.pipFault p) f s)

/-- Set a bit of PIP_STATUS; bits 2, 4, 6, 7 and 8 raise the pipeline interrupt. -/
def pipEvent (p : Nat) (f : Fld) (s : State) : State :=
  raiseWhen (decide (f.lo = 2 ∨ f.lo = 4 ∨ f.lo = 6 ∨ f.lo = 7 ∨ f.lo = 8)) (pipeSource p) (fset (Reg.pipStatus p) f s)

/-- Put a check's result in PIP_REFUSE: the code and the word offset of the register at fault (R232). -/
def pipRefuse (p : Nat) (r : Nat × Nat) (s : State) : State :=
  fput (Reg.pipRefuse p) PipRefuse.pipRefOfs r.2 (fput (Reg.pipRefuse p) PipRefuse.pipRefCode r.1 s)

/-- Set a bit of DEC_STATUS; the enables of DEC_IRQ_EN raise the pipeline interrupt. -/
def decEvent (p : Nat) (f : Fld) (s : State) : State :=
  raiseWhen ((fget (Reg.decStatus p) DecStatus.decIrqEn s).testBit f.lo) (pipeSource p) (fset (Reg.decStatus p) f s)

/-! ### Records of pipelines, blocks and regions in State -/

def getPipe (p : Nat) (s : State) : Pipe := smGet Pipe.init p s.pipes
def setPipe (p : Nat) (x : Pipe) (s : State) : State := { s with pipes := smSet Pipe.init p x s.pipes }
def onPipe (p : Nat) (f : Pipe → Pipe) (s : State) : State := setPipe p (f (getPipe p s)) s

/-- A register of pipeline `p` as read at its enable, by its offset in the window. -/
def pipLatched (p o : Nat) (s : State) : Word := smGet 0 o (getPipe p s).latched

def getBlock (r b : Nat) (s : State) : Block := smGet Block.init (8 * r + b) s.blocks
def setBlock (r b : Nat) (x : Block) (s : State) : State := { s with blocks := smSet Block.init (8 * r + b) x s.blocks }
def onBlock (r b : Nat) (f : Block → Block) (s : State) : State := setBlock r b (f (getBlock r b s)) s

def getRegion (r : Nat) (s : State) : RegionSt := smGet RegionSt.init r s.regions
def setRegion (r : Nat) (x : RegionSt) (s : State) : State := { s with regions := smSet RegionSt.init r x s.regions }

def blkRole (r b : Nat) (s : State) : Nat := fget (Reg.blkStatus r b) BlkStatus.blkRole s
def setBlkRole (r b v : Nat) (s : State) : State := fput (Reg.blkStatus r b) BlkStatus.blkRole v s

/-- A pipeline's blocks that are in service (R612): not RETIRED, and in no region that BCM_REGION_OFF holds (R640). -/
def blocksInService (e : PipeEntry) (s : State) : List Nat :=
  e.blocks.filter fun k => blkRole (k / 8) (k % 8) s != 3 && !regionHeld (k / 8) s

/-! ### Stopping a pipeline -/

/-- Nothing of the pipeline is left to drain (R234). -/
def pipeDrained (x : Pipe) : Bool := x.pics.all (fun q => q.complete && q.emitDone) && x.recs.isEmpty

/-- Clear ENABLE: the picture in progress completes, and RUNNING clears with the last record (R234). -/
def pipeDisable (p : Nat) (s : State) : State :=
  let s1 := onPipe p (fun x => { x with draining := true }) (fclr (Reg.pipCtl p) PipCtl.enable s)
  if pipeDrained (getPipe p s1) then
    onPipe p (fun x => { x with draining := false }) (fclr (Reg.pipStatus p) PipStatus.running s1)
  else s1

/-! ### Completion of a Command Port operation (R556) -/

/-- An operation ends with `result`: RESULT is written, BUSY and ABORTING clear, DONE is set and source 2 is raised. A held
abort is reported as ABORT_LATE (R557). Flash and fuse operations are logged (R649), and FLASH_WRITE clears FLASH_WE (R655). -/
def cmdFinish (result : Nat) (s : State) : State :=
  let op := fget Reg.cmdStatus CmdStatus.curOp s
  let a := fun i => ((s.cmd.args[i]?).getD 0).toNat
  let held := fbit Reg.cmdStatus CmdStatus.abortHeld s
  let s1 := fput Reg.cmdStatus CmdStatus.result result s
  let s2 := fclr Reg.cmdStatus CmdStatus.aborting (fclr Reg.cmdStatus CmdStatus.busy s1)
  let s3 := if held then fclr Reg.cmdStatus CmdStatus.abortHeld (fput Reg.cmdStatus CmdStatus.cmdRefuse 0x81 s2) else s2
  let s4 := raise 2 (fset Reg.cmdStatus CmdStatus.done s3)
  let s5 := if op = 0x10 ∨ op = 0x11 then logWrite logFlash op (a 0 + 2 ^ 32 * a 4) result s4
    else if op = 0x12 then logWrite logFlash op 0 result s4 else s4
  let s6 := if op = 0x10 then fclr Reg.bcmFlashCtl BcmFlashCtl.flashWe s5 else s5
  { s6 with cmd := { Cmd.init with resume := s6.cmd.resume, enableWait := s6.cmd.enableWait, doneAt := some s.now } }

def cmdBusy (s : State) : Bool := fbit Reg.cmdStatus CmdStatus.busy s

/-! ### Entry into SAFE (R614, R615) -/

/-- Every block sequencer halts (SEQ_STATE HALTED). -/
def haltSequencers (s : State) : State :=
  (List.range 128).foldl (fun a k => fput (Reg.seqStatus (k / 8) (k % 8)) SeqStatus.seqState 4 a) s

/-- Every DMA channel stops: DMA_STATE reads ERROR with LAST_RESULT 0xFF; descriptors keep OWN 1. -/
def haltChannels (s : State) : State :=
  (List.range 64).foldl (fun a c =>
    setChan c Chan.init (fput (Reg.dmaStatus c) DmaStatus.lastResult 0xFF (setDmaState c 4 a))) s

/-- Gate a region: its IVR goes off; cell SRAMs, line stores, decoupling queues and patch memory lose their contents, registers and roles stay
(R637). -/
def gateRegion (r : Nat) (s : State) : State :=
  let s1 := (List.range 8).foldl (fun a b =>
    let x := getBlock r b a
    let q := x.queues.map fun e => (e.1, { Dq.init with segment := e.2.segment })
    setBlock r b { x with queues := q.filter fun e => e.2 != Dq.init, sram := [], lines := [], patch := [], losses := x.losses + 1 } a) s
  let s2 := (List.range 16).foldl (fun a k => fput (Reg.dqStatus r (k / 2) (k % 2)) DqStatus.dqFill 0 a) s1
  setRgcState r 0 { s2 with icu := { s2.icu with wakes := smSet false r false s2.icu.wakes } }

/-- Every region is gated (step 4). -/
def gateAll (s : State) : State := (List.range 16).foldl (fun a r => gateRegion r a) s

/-- TRIG_OUT[3:0] are driven low. -/
def lowTrigOut (s : State) : State := (List.range 4).foldl (fun a n => emit (.pins n false) a) s

/-- Entry into SAFE by a fault of class `c` on unit `unit` (R614 to R617): the first cause is kept, and in SAFE or BYPASS
nothing more is done. A mode request of the same cycle is refused with MODE_ORDER (R164). The interfaces' states in SAFE follow from CUR_MODE 5. -/
def enterSafe (c unit : Nat) (s : State) : State :=
  if curMode s = 5 ∨ s.pwr.bypass = true then s
  else
    let old := curMode s
    let s1 := haltChannels (haltSequencers s)
    let s2 : State := { s1 with
      clock := { s1.clock with running := false, inFlight := [], trigOut := [] }
      bc := { s1.bc with waiting := [] } }
    let done := if cmdBusy s2 then cmdFinish 0x88 (flashCut s2) else s2
    let s3 := done.cmd.enableWait.foldl (fun a p => pipRefuse p (0x4A, 0x3FF) a) { done with cmd := { done.cmd with enableWait := [] } }
    let s4 := fput Reg.chipMode ChipMode.curMode 5 (fclr Reg.chipMode ChipMode.modeBusy s3)
    let s5 := lowTrigOut (gateAll s4)
    let cause : Word := putF FltSafeCause.scUnit (putF FltSafeCause.scClass
      (putF FltSafeCause.forced (putF FltSafeCause.safe 0 1) (if c = 0x3C then 1 else 0)) c) unit
    let s6 := if modeBusy s ∧ s.pwr.modeReqAt = s.bc.auxPs then raise 1 (fput Reg.chipMode ChipMode.modeRefuse 0xE3 s5) else s5
    applyMitten (logWrite logMode (old + 256 * 5) 0 0 (raise 3 (wr (Reg.fltSafeCause 0x200) cause
      { s6 with pwr := { s6.pwr with safeAt := some s.bc.auxPs, modeTarget := 0 } })))

/-- A chip-class fault (R584, R590): recorded at its level; an L4 class takes the chip to SAFE. -/
def chipFault (f : FaultIn) (s : State) : State :=
  let s1 := enterFault .chip f noPlace s
  if isL4 f.cls then enterSafe f.cls f.unit s1 else s1

end Sys2Proof.Machine
end

