-- ==== Sys2Proof/Machine/Raster.lean ====
section
/-! DEFINITION. Raster time (chapter "Raster time and the schedule"): positions, references, loss and holdover, slewing and
steps, domain offsets. -/

namespace Sys2Proof.Machine

open Sys2Proof

/-! ### Positions (R68, R69) -/

def rateNum (d : Nat) (s : State) : Nat := fget (Reg.rckDomRate d) RckDomRate.rateNum s
def rateDen (d : Nat) (s : State) : Nat := fget (Reg.rckDomRate d) RckDomRate.rateDen s
def totalLines (d : Nat) (s : State) : Nat := fget (Reg.rckDomGeom d) RckDomGeom.domTotalLines s
def totalSpl (d : Nat) (s : State) : Nat := fget (Reg.rckDomGeom d) RckDomGeom.domTotalSpl s
def domValid (d : Nat) (s : State) : Bool := fbit (Reg.rckDomCtl d) RckDomCtl.domValid s
def domInterlaced (d : Nat) (s : State) : Bool := fbit (Reg.rckDomCtl d) RckDomCtl.domInterlaced s

/-- Eighth-samples of a line and of a frame. -/
def spl8 (d : Nat) (s : State) : Nat := totalSpl d s * 8
def spf8 (d : Nat) (s : State) : Nat := totalLines d s * spl8 d s

def getRaster (d : Nat) (s : State) : Raster := smGet Raster.init d s.clock.domains
def setRaster (d : Nat) (x : Raster) (s : State) : State :=
  { s with clock := { s.clock with domains := smSet Raster.init d x s.clock.domains } }

/-- `e` of R69 for time `t` of the time base (in 10^-21 s) and an offset. -/
def rasterE (d : Nat) (t ofs : Int) (s : State) : Int :=
  t * (rateNum d s * spf8 d s : Nat) / (rateDen d s * 10 ^ 21 : Nat) + ofs

/-- A step or an offset change waits for the end of the domain's frame (R66, R70). -/
def stepWaits (x : Raster) : Bool := x.stepping || x.newOfs.isSome

/-- The domain's present `e`: the mapping in force, held at the last sample of the frame while a step waits. -/
def domE (d : Nat) (s : State) : Int :=
  let x := getRaster d s
  let e := rasterE d (s.clock.timeBase - x.untaken) x.ofs s
  if stepWaits x then min e ((x.frame + 1) * (spf8 d s : Nat) - 1) else e

/-- The domain's frame number, line and sample in eighths (R69). -/
def domPos (d : Nat) (s : State) : Int × Nat × Nat :=
  let e := domE d s
  let f := e / (spf8 d s : Nat)
  let o := (e - f * (spf8 d s : Nat)).toNat
  (f, o / spl8 d s, o % spl8 d s)

/-- RCK_DOM_POS_LO and RCK_DOM_POS_HI as computed now. -/
def domPosLo (d : Nat) (s : State) : Word :=
  let p := domPos d s
  putF RckDomPosLo.posLine (putF RckDomPosLo.posSample 0 p.2.2) p.2.1

def domPosHi (d : Nat) (s : State) : Word := BitVec.ofInt 32 (domPos d s).1

/-! ### References (R56 to R67) -/

def rckState (s : State) : Nat := fget Reg.rckStatus RckStatus.rckState s
def setRckState (v : Nat) (s : State) : State := fput Reg.rckStatus RckStatus.rckState v s
def refAct (s : State) : Nat := fget Reg.rckStatus RckStatus.rckRefAct s

/-- A source code in force: reserved codes act as FREE, the reset value (R13). -/
def sourceCode (v : Nat) : Nat := if v ≤ 4 then v else 0

/-- Take a source: FREE runs free, any other is acquired (R64, R67, R697). -/
def selectSource (v : Nat) (s : State) : State :=
  let c := s.clock
  let s1 : State := { s with clock := { c with
    tracked := none
    selRate := c.rate
    rate := if v = 0 then 0 else c.rate
    acquiring := decide (v ≠ 0)
    fresh := false
    err := 0
    selAt := s.now
    outAt := s.now
    breaches := 0 } }
  wr Reg.rckPhaseErr 0 (setRckState (if v = 0 then 0 else 1) (fput Reg.rckStatus RckStatus.rckRefAct v s1))

/-- The source in use is lost (R62, R63): HOLDOVER at the rate last tracked, or at the rate held when it was selected. -/
def sourceLost (s : State) : State :=
  if s.clock.running = false ∨ refAct s = 0 ∨ rckState s = 3 then s
  else
    let c := s.clock
    let s1 : State := { s with clock := { c with rate := c.tracked.getD c.selRate, lostAt := s.now } }
    raise 64 (fset Reg.rckStatus RckStatus.rckRefLost (setRckState 3 s1))

/-- The source has stayed lost for RCK_HOLD_MS. -/
def holdoverOver (s : State) : Bool := decide (s.clock.lostAt + 1600000 * fget Reg.rckCtl RckCtl.rckHoldMs s ≤ s.now)

/-- The source stayed lost for RCK_HOLD_MS (R64). -/
def holdoverTimeout (s : State) : State :=
  if rckState s = 3 ∧ fbit Reg.rckCtl RckCtl.rckSecEn s = true ∧ s.clock.running = true ∧ holdoverOver s = true then
    selectSource (sourceCode (fget Reg.rckCtl RckCtl.rckRefSec s)) s
  else s

/-- The domain that is locked under REF (R58). -/
def refDom (s : State) : Nat := fget Reg.rckCtl RckCtl.rckRefDom s

/-- The equivalent of a phase error nearest to zero modulo `p`, half a period counting as plus (R65). -/
def foldErr (p e : Int) : Int :=
  if p ≤ 0 then e
  else
    let m := e % p
    if 2 * m ≤ p then m else m - p

/-- Saturate to a signed 32-bit value. -/
def sat32 (e : Int) : Int := max (-2147483648) (min 2147483647 e)

/-- 100 ns. -/
def lockLimit : Int := 100 * 10 ^ 12

/-- A phase error lies within ±100 ns (R60). -/
def inLock (e : Int) : Bool := decide (- lockLimit ≤ e) && decide (e ≤ lockLimit)

/-- The phase error in 10^-21 s, whole, and in the register in ns, saturating (R697). -/
def setPhaseErr (e : Int) (s : State) : State :=
  wr Reg.rckPhaseErr (BitVec.ofInt 32 (sat32 (e.tdiv (10 ^ 12))))
    { s with clock := { s.clock with err := e, outAt := if inLock e then s.clock.outAt else s.now } }

/-- A phase error of `e` folded where the source fixes phase only modulo the reference domain's frame period or one second (R65). -/
def foldSource (e : Int) (s : State) : Int :=
  if refAct s = 2 then
    foldErr (rateDen (refDom s) s * 10 ^ 21 : Nat) (e * (rateNum (refDom s) s : Nat)) / (rateNum (refDom s) s : Nat)
  else if refAct s = 3 then foldErr (10 ^ 21) e
  else e

/-- How far past the boundary of a unit of `p` eighth-samples the domain stands at time `t` of the time base, folded, in 10^-21 s (R58). -/
def unitErr (d : Nat) (t : Int) (p : Nat) (s : State) : Int :=
  let k : Int := (rateDen d s * 10 ^ 21 : Nat)
  foldErr (k * p) (t * (rateNum d s * spf8 d s : Nat) + (getRaster d s).ofs * k) / (rateNum d s * spf8 d s : Nat)

/-- The phase error that the edges of REF show: line 0 stands at the reference's, and lines start at its REF_H edges (R58). -/
def refErr (t : Int) (s : State) : Int :=
  let d := refDom s
  let v := unitErr d t (spf8 d s) s
  match smFind 1 s.clock.edges with
  | none => v
  | some h =>
    let line : Int := (rateDen d s * 10 ^ 21 : Nat)
    v + foldErr line ((unitErr d h (spl8 d s) s - v) * (rateNum d s * totalLines d s : Nat)) / (rateNum d s * totalLines d s : Nat)

/-- The phase error against the edges and frames of the source in use, the time base minus the source: line 0 under REF, the whole second at
PPS, ring time at the last frame; none where no edge has come (R58, R59). -/
def sourceErr (s : State) : Option Int :=
  match refAct s with
  | 2 => (smFind 0 s.clock.edges).map fun t => refErr t s
  | 3 => (smFind 3 s.clock.edges).map fun t => foldErr (10 ^ 21) t
  | 4 => match s.ring.time, smFind 5 s.clock.edges with
    | some n, some t => some (t - (n : Int) * 10 ^ 12)
    | _, _ => none
  | _ => none

/-- LOCKED, the phase error leaves ±100 ns while the source is valid: acquire afresh (R696). -/
def excursion (s : State) : State :=
  if rckState s = 2 ∧ (lockLimit < s.clock.err ∨ s.clock.err < - lockLimit) then
    setRckState 1 { s with clock := { s.clock with acquiring := true } }
  else s

/-- A phase measurement against the source in use (R697): the error that the source's edges show, else `err` in ns, and the source's rate.
A source that is back in HOLDOVER is acquired afresh (R65). -/
def phaseMeasurement (err rate : Int) (s : State) : State :=
  if s.clock.running = false ∨ refAct s = 0 then s
  else
    let s1 := setPhaseErr ((sourceErr s).getD (foldSource (err * 10 ^ 12) s)) s
    let s2 : State := { s1 with clock := { s1.clock with tracked := some rate, fresh := true } }
    if rckState s = 3 then setRckState 1 { s2 with clock := { s2.clock with acquiring := true } } else excursion s2

/-- RCK_SLEW in force, in 10^-9: 0 acts as 1 and values above 1,000 as 1,000, in units of 0.1 ppm (R65). -/
def slewLimit (s : State) : Int :=
  let v := fget Reg.rckSlew RckSlew.rckSlew s
  (100 * (if v = 0 then 1 else min v 1000) : Nat)

/-- The step threshold in 10^-21 s; 0 acts as 1 µs. -/
def stepThreshold (s : State) : Int := (10 ^ 15 * max 1 (fget Reg.rckSlew RckSlew.rckStepThr s) : Nat)

/-- The valid domains. -/
def validDomains (s : State) : List Nat := (List.range 16).filter fun d => domValid d s

/-- Every domain has taken the step: RCK_STEP_EVENT and source 66 (R66). -/
def stepTaken (s : State) : State :=
  if (validDomains s).all (fun d => !(getRaster d s).stepping) then
    raise 66 (fset Reg.rckStatus RckStatus.rckStepEvent s)
  else s

/-- The time base steps by `delta` (in 10^-21 s), and each domain takes it at the end of its frame (R66). -/
def stepTimeBase (delta : Int) (s : State) : State :=
  let s1 : State := { s with clock := { s.clock with timeBase := s.clock.timeBase + delta, fresh := false } }
  let s2 := (validDomains s).foldl (fun a d =>
    let x := getRaster d a
    setRaster d { x with untaken := x.untaken + delta, stepping := true } a) s1
  stepTaken s2

/-- Re-lock: the phase error is under 100 ns on acquiring (R65). -/
def relock (s : State) : State :=
  if s.clock.acquiring then
    raise 65 (fset Reg.rckStatus RckStatus.rckRelock { s with clock := { s.clock with acquiring := false } })
  else s

/-- A rate that differs from the source's rate `r` against a phase error `e`, by at least `m` and at most the slew limit: how much
is a free value (R65, R696). -/
def slewRate (r e : Int) (m : Nat) (s : State) : Int :=
  let l := (slewLimit s).toNat
  let d : Int := ((l - freeNat s % (l + 1 - m) : Nat) : Int)
  if 0 < e then r - d else r + d

/-- A rate update (R65, R66, R696): step beyond the threshold where steps are allowed, else slew within the limit; with the
phase error under 100 ns the acquisition ends, and from then on the time base is steered. The phase error counts the time base
minus the source. -/
def rateUpdate (s : State) : State :=
  if s.clock.running = false ∨ refAct s = 0 ∨ rckState s = 3 ∨ s.clock.fresh = false then s
  else
    match s.clock.tracked with
    | none => s
    | some r =>
      let t := excursion s
      let e := t.clock.err
      if t.clock.acquiring = false then
        stepFree { t with clock := { t.clock with rate := if e = 0 then r else slewRate r e 0 t } }
      else if fbit Reg.rckCtl RckCtl.rckStepEn t = true ∧ (stepThreshold t < e ∨ e < - stepThreshold t) then
        stepTimeBase (- e) { t with clock := { t.clock with rate := r } }
      else if - lockLimit < e ∧ e < lockLimit then relock { t with clock := { t.clock with rate := r } }
      else stepFree { t with clock := { t.clock with rate := slewRate r e 1 t } }

/-- The phase error stayed within ±100 ns for 1 s (R60). -/
def rckLocked (s : State) : State :=
  if rckState s = 1 ∧ s.clock.acquiring = false ∧ inLock s.clock.err = true ∧ s.clock.outAt + 1600000000 ≤ s.now then setRckState 2 s else s

/-- A write of RCK_CTL: its fields take their values, and an RCK_REF_PRI other than the source in use selects it (R67). -/
def rckCtlWrite (v : Word) (s : State) : State :=
  let s1 := wr Reg.rckCtl (v &&& 0xFFFFF377#32) s
  let p := sourceCode (getF RckCtl.rckRefPri v)
  if p = refAct s ∨ s.clock.running = false then s1 else selectSource p s1

/-- A write of RCK_DOM_OFS waits for the end of the domain's frame (R70). -/
def domOfsWrite (d : Nat) (v : Word) (s : State) : State :=
  let s1 := wr (Reg.rckDomOfs d) v s
  if s.clock.running then setRaster d { getRaster d s with newOfs := some v.toInt } s1
  else setRaster d { getRaster d s with ofs := v.toInt } s1

/-! ### Edges of the references, and loss (R58, R59, R61, R685) -/

/-- Input `k` gave a sound sign of its source in this mesh cycle. -/
def noteValid (k : Nat) (s : State) : State :=
  { s with clock := { s.clock with edges := smPut k s.clock.timeBase s.clock.edges, edgeAt := smPut k s.now s.clock.edgeAt } }

/-- A REF_V period that differs from the reference domain's by more than 0.1 %. -/
def refBreach (t : Int) (s : State) : Bool :=
  match smFind 2 s.clock.edges with
  | none => false
  | some u =>
    let n := (rateNum (refDom s) s : Int)
    let p := (rateDen (refDom s) s * 10 ^ 21 : Nat)
    let x := (t - u) * n - p
    decide ((p : Int) < 1000 * x) || decide ((p : Int) < - (1000 * x))

/-- A falling edge of REF_V, with REF_F low or high: of field 1 it ends a period. Two consecutive periods outside the limit lose the
source. -/
def refVEdge (refF : Bool) (s : State) : State :=
  let t := s.clock.timeBase
  let s1 : State := { s with clock := { s.clock with vEdge := some (t, refF), edgeAt := smPut 0 s.now s.clock.edgeAt } }
  if refF = true ∧ domInterlaced (refDom s) s = true then s1
  else
    let b := if refBreach t s then s.clock.breaches + 1 else 0
    let s2 : State := { s1 with clock := { s1.clock with breaches := b, edges := smPut 2 t s1.clock.edges } }
    if 2 ≤ b ∧ refAct s = 2 then sourceLost s2 else s2

/-- A falling edge of REF_H starts a line: line 0 where it is the first at least 100 ns after a REF_V edge of field 1 (R685). -/
def refHEdge (s : State) : State :=
  let t := s.clock.timeBase
  let s1 : State := { s with clock := { s.clock with edges := smPut 1 t s.clock.edges } }
  match s.clock.vEdge with
  | none => s1
  | some (u, refF) =>
    if t - u < lockLimit then s1
    else
      let c : Clock := { s1.clock with vEdge := none }
      { s1 with clock := if refF = true ∧ domInterlaced (refDom s) s = true then c else { c with edges := smPut 0 t c.edges } }

/-- Periods of the 10 MHz input in one measurement of its frequency: 10 ms (assumption 190). -/
def tenGate : Nat := 100000

/-- An edge of the 10 MHz input. A measurement of its frequency against the 25 MHz reference, which the mesh clock follows, is within 50 ppm of
nominal where its periods took 16,000,000 mesh cycles to within 800. -/
def tenEdge (s : State) : State :=
  let c := s.clock
  let s1 := noteValid 4 s
  if c.tenCount = 0 then { s1 with clock := { s1.clock with tenFrom := s.now, tenCount := 1 } }
  else if c.tenCount < tenGate then { s1 with clock := { s1.clock with tenCount := c.tenCount + 1 } }
  else
    let n := s.now - c.tenFrom
    let good := decide (15999200 ≤ n) && decide (n ≤ 16000800)
    { s1 with clock := { s1.clock with tenGood := if good then s.now else c.tenGood, tenFrom := s.now, tenCount := 1 } }

/-- An edge on a reference input: 0 REF_V, 1 REF_H, 2 REF_F, 3 PPS, 4 10 MHz. The raster clock takes it without the glitch filter (R565,
R685); REF_F, at level `refF`, is sampled at the REF_V edges. -/
def refEdge (input : Nat) (refF : Bool) (s : State) : State :=
  match input with
  | 0 => refVEdge refF s
  | 1 => refHEdge s
  | 3 => noteValid 3 s
  | 4 => tenEdge s
  | _ => s

/-- The mesh cycle from which a delay of `n` cycles has run out: it runs from the last sound sign, or from the source's selection (R61). -/
def runsOut (k n : Nat) (s : State) : Nat := max s.clock.selAt (smGet 0 k s.clock.edgeAt) + n

/-- The mesh cycle at which the source in use is lost if nothing more of it comes (R61, R473). -/
def lossCycle (s : State) : Nat :=
  match refAct s with
  | 1 => runsOut 6 (3 * s.bc.ptpInterval * 8 / 5) s
  | 2 => runsOut 0 (3200000000 * rateDen (refDom s) s / rateNum (refDom s) s) s
  | 3 => min (runsOut 3 2400000000 s) (max s.clock.selAt s.clock.tenGood + 2400000000)
  | _ => runsOut 5 3200000 s

/-- The source in use is lost once its delay has run out (R61). -/
def checkLoss (s : State) : State :=
  if s.clock.running = true ∧ refAct s ≠ 0 ∧ lossCycle s ≤ s.now then sourceLost s else s

/-! ### Passing of time -/

/-- One party that waits on a pool waits `n` mesh cycles more (R413): the pool's WAIT_CNT counts them, and DMA_WAIT_CNT where it is a
channel. -/
def waitCycles (n : Nat) (w : PoolWait) (s : State) : State :=
  match w with
  | .alloc who p =>
    let s1 := bumpWrapBy n (Reg.bpmPoolWaitCnt p) BpmPoolWaitCnt.waitCnt s
    if 1024 ≤ who ∧ who < 1088 then bumpWrapBy n (Reg.dmaWaitCnt (who - 1024)) DmaWaitCnt.waitCnt s1 else s1
  | .free _ _ => s

/-- The chip time base advances by `n` mesh cycles of 625 ps at its present rate (R56, R63). -/
def clockCycles (n : Nat) (s : State) : State :=
  if s.clock.running then
    { s with clock := { s.clock with timeBase := s.clock.timeBase + n * (625 * (1000000000 + s.clock.rate)) } }
  else s

/-- `n` mesh cycles pass: Base Camp's time, the mesh cycle count once the chip has been released, the time base, and the waits. -/
def passCycles (n : Nat) (s : State) : State :=
  if n = 0 then s
  else
    let s1 : State := if s.pwr.aux then { s with bc := { s.bc with auxPs := s.bc.auxPs + 625 * n } } else s
    let s2 : State := if s1.pwr.boot = .done then { s1 with now := s1.now + n } else s1
    s2.pools.waits.foldl (fun a w => waitCycles n w a) (clockCycles n s2)

end Sys2Proof.Machine
end

