-- ==== Sys2Proof/Machine/Operands.lean ====
section
/-! DEFINITION. The operand forms: schedule entries (R71, R78), the actions in flight, and the parameter sets of a pipeline
window as its rules read them (with the values that 0 acts as). -/

namespace Sys2Proof.Machine

open Sys2Proof

/-! ### Schedule entries (R71) -/

/-- Word `k` of schedule entry `i`. -/
def seWord (i k : Nat) (s : State) : Word := rd (0xC00000 + 16 * i + 4 * k) s

/-- Word `k` of an entry without its reserved fields, which read 0 whatever is written (R11, R12, R71). -/
def seClean (k : Nat) (w : Word) : Word :=
  match k with
  | 0 => w &&& 0xFFF3FFFF#32
  | 1 => w &&& 0x8FFFCFFF#32
  | _ => w

def seDomain (w0 : Word) : Nat := w0.toNat / 2 ^ 28
def seAction (w0 : Word) : Nat := w0.toNat / 2 ^ 20 % 256
def seSample (w0 : Word) : Nat := w0.toNat % 2 ^ 18
def seValid (w1 : Word) : Bool := decide (2 ^ 31 ≤ w1.toNat)
def seLine (w1 : Word) : Nat := w1.toNat / 2 ^ 14 % 2 ^ 14
def seTarget (w1 : Word) : Nat := w1.toNat % 2 ^ 12
def seFrameMod (w2 : Word) : Nat := w2.toNat / 2 ^ 16
def seFramePhase (w2 : Word) : Nat := w2.toNat % 2 ^ 16

/-- Action codes (R78). -/
def actNop : Nat := 0x00
def actHandover : Nat := 0x01
def actPicStart : Nat := 0x02
def actMarginMark : Nat := 0x03
def actRowDeadline : Nat := 0x04
def actEmit : Nat := 0x05
def actRelease : Nat := 0x06
def actCaptureArm : Nat := 0x07
def actRegionUp : Nat := 0x10
def actRegionGate : Nat := 0x11
def actRegionDvfs : Nat := 0x12
def actHbmRetrain : Nat := 0x18
def actTrigOut : Nat := 0x20
def actIrq : Nat := 0x21
def actRingMark : Nat := 0x22

/-- Where actions arrive in the order in which they fired (R74): a pipeline, a region, or what one other code names. -/
def actionPlace (code target : Nat) : Nat × Nat :=
  if code ≤ 7 ∧ code ≠ actNop ∧ code ≠ actRelease then (0, target)
  else if 16 ≤ code ∧ code ≤ 18 then (1, target)
  else (2 + code, target)

/-- Take the oldest action in flight for this code's target, where it has this code: an action does not overtake an earlier one. -/
def takeAction (code target : Nat) : List Action → Option (Action × List Action)
  | [] => none
  | a :: l =>
    if a.code = code ∧ a.target = target then some (a, l)
    else if actionPlace a.code a.target = actionPlace code target then none
    else
      match takeAction code target l with
      | some (b, l') => some (b, a :: l')
      | none => none

/-- An action reaches its target 64 mesh cycles after it fired (R74): what is left of them passes, and `k` is what it does. -/
def onAction (code target : Nat) (k : Action → State → State) (s : State) : State :=
  match takeAction code target s.clock.inFlight with
  | none => s
  | some (a, l) =>
    let t := passCycles (a.fired + 64 - s.now) s
    k a { t with clock := { t.clock with inFlight := l } }

/-- The time base at mesh cycle `at_`, some cycles ago. -/
def timeAt (at_ : Nat) (s : State) : Int := s.clock.timeBase - 625 * (1000000000 + s.clock.rate) * (s.now - at_ : Nat)

/-! ### A pipeline's parameters -/

/-- Personality and chroma of the pipeline, from the composition. -/
def pipePers (p : Nat) (s : State) : Nat := match pipeEntry p s with | some e => e.pers | none => 0
def pipeDomain (p : Nat) (s : State) : Nat := match pipeEntry p s with | some e => e.domain | none => 0

/-- A decode personality (R22). -/
def persDecodes (k : Nat) : Bool := decide (8 ≤ k)
def pipeDecodes (p : Nat) (s : State) : Bool := persDecodes (pipePers p s)

/-- The codec of a personality: 1 AVC, 2 HEVC, 3 VVC, 4 AV1, 5 MPEG-2. -/
def codecOf (pers : Nat) : Nat := if 8 ≤ pers then pers - 7 else pers

/-- Bases of the parameter sets of pipeline `p`'s window (R222). -/
def encActive (p : Nat) : Nat := 0x800100 + 0x1000 * p
def encShadow (p : Nat) : Nat := 0x800200 + 0x1000 * p
def rcActive (p : Nat) : Nat := 0x800300 + 0x1000 * p
def rcShadow (p : Nat) : Nat := 0x800400 + 0x1000 * p
def roiActive (p : Nat) : Nat := 0x800500 + 0x1000 * p
def roiShadow (p : Nat) : Nat := 0x800600 + 0x1000 * p

/-- `v`, or `d` where `v` is 0. -/
def orIf0 (d v : Nat) : Nat := if v = 0 then d else v

/-- A parameter set as its rules read it: the word at each set-relative offset. Sets are numbered 1 ENC or DEC, 3 RC and
5 ROI; `sh` is 0 for the active sets and 1 for the shadow sets. -/
structure Params where
  pers : Nat
  word : SMap Word
  deriving DecidableEq, Repr

/-- The words of the sets of pipeline `p`, by their offset in the window of the active sets. -/
def readSets (p sh : Nat) (s : State) : SMap Word :=
  let lo := 0x800000 + 0x1000 * p
  (s.regs.filter fun e => decide (lo + 0x100 ≤ e.1 ∧ e.1 < lo + 0x700)
      && decide ((e.1 - lo) / 0x100 % 2 = 1 - sh) && decide ((e.1 - lo) % 0x100 < 0x8C)
      && !decide (0x340 ≤ e.1 - lo ∧ e.1 - lo < 0x350)).map fun e => (e.1 - lo - 0x100 * sh, e.2)

def paramsOf (p sh : Nat) (s : State) : Params := ⟨pipePers p s, readSets p sh s⟩

/-- The word of a set at its offset in the window of the active sets. -/
def Params.at (q : Params) (off : Nat) : Word := smGet 0 off q.word

def Params.fld (q : Params) (off : Nat) (f : Fld) : Nat := getF f (q.at off)

def Params.codec (q : Params) : Nat := codecOf q.pers
def Params.width (q : Params) : Nat := q.fld 0x104 EncSize.width
def Params.height (q : Params) : Nat := q.fld 0x104 EncSize.height
def Params.ctuLog2 (q : Params) : Nat := q.fld 0x108 EncPart.ctuLog2
def Params.tileCols (q : Params) : Nat := max 1 (q.fld 0x108 EncPart.tileCols)
def Params.tileRows (q : Params) : Nat := max 1 (q.fld 0x108 EncPart.tileRows)
def Params.sliceRows (q : Params) : Nat := q.fld 0x108 EncPart.sliceRows
def Params.wpp (q : Params) : Bool := q.fld 0x108 EncPart.wpp == 1
def Params.fieldMode (q : Params) : Nat := q.fld 0x100 EncCodec.fieldMode
def Params.depth (q : Params) : Nat := if q.fld 0x100 EncCodec.depth10 = 1 then 10 else 8

/-- ⌈a / b⌉. -/
def ceilDiv (a b : Nat) : Nat := (a + b - 1) / b

/-- CTU columns and rows of a picture. -/
def Params.ctuCols (q : Params) : Nat := ceilDiv q.width (2 ^ q.ctuLog2)
def Params.ctuRows (q : Params) : Nat := ceilDiv q.height (2 ^ q.ctuLog2)

/-- The CTU columns of tile column `i` (R204). -/
def tileBound (ctus n i : Nat) : Nat := i * ctus / n

def Params.unitCtus (q : Params) (col : Nat) : Nat :=
  tileBound q.ctuCols q.tileCols (col + 1) - tileBound q.ctuCols q.tileCols col

/-- RC_CTL.MODE in force: reserved codes act as FIXED_QP, the reset value (R13). -/
def Params.rcMode (q : Params) : Nat :=
  let m := q.fld 0x300 RcCtl.mode
  if m ≤ 4 then m else 0

def Params.qpCmax (q : Params) : Nat := match q.codec with | 3 => 63 | 4 => 255 | _ => 51
def Params.rate (q : Params) : Nat := q.fld 0x304 RcRate.rateKbps
def Params.maxRate (q : Params) : Nat := orIf0 q.rate (q.fld 0x308 RcMaxrate.maxrateKbps)
def Params.qpInit (q : Params) : Nat := orIf0 (if q.codec = 4 then 120 else 30) (q.fld 0x310 RcQp.qpInit)
def Params.qpMax (q : Params) : Nat := orIf0 q.qpCmax (q.fld 0x310 RcQp.qpMax)
def Params.qpMin (q : Params) : Nat := q.fld 0x310 RcQp.qpMin
def Params.rowLag (q : Params) : Nat := orIf0 2 (q.fld 0x300 RcCtl.rowLag)
def Params.rowDq (q : Params) : Nat := orIf0 (if q.codec = 4 then 12 else 3) (q.fld 0x300 RcCtl.rowDq)
def Params.intraW (q : Params) : Nat := orIf0 64 (q.fld 0x314 RcWeight.intraW)
def Params.hrdSignal (q : Params) : Bool := q.fld 0x300 RcCtl.hrdSignal == 1

/-- The fill rate of the buffer model in b/s (R254). -/
def Params.fillRate (q : Params) : Nat :=
  1000 * (if q.rcMode = 2 ∨ q.rcMode = 3 then q.maxRate else q.rate)

/-- S, the size of the buffer model in bits: 0 acts as one second at the fill rate (R254). -/
def Params.cpbBits (q : Params) : Nat :=
  let k := q.fld 0x30C RcCpb.cpbKbit
  if k = 0 then q.fillRate else 1000 * k

/-- A model is kept (R254). -/
def Params.modelKept (q : Params) : Bool := !(q.rcMode == 0 && q.rate == 0 && !q.hrdSignal)

/-- Signed reading of an n-bit field value. -/
def signedOf (w v : Nat) : Int := if 2 ^ (w - 1) ≤ v then (v : Int) - 2 ^ w else v

end Sys2Proof.Machine
end

