-- ==== Sys2Proof/Machine/Schedule.lean ====
section
/-! DEFINITION. The schedule walkers (R72 to R81, R699), the ends of frames (R66, R70), triggers (R77, R94), and the
actions that have no target of their own (R78): NOP, TRIG_OUT, IRQ. -/

namespace Sys2Proof.Machine

open Sys2Proof

/-! ### The walk -/

/-- Position of an entry in its frame, in eighth-samples. -/
def entryPos (d i : Nat) (s : State) : Nat := seLine (seWord i 1 s) * spl8 d s + seSample (seWord i 0 s)

/-- The position lies inside the domain's frame (R72, R79). -/
def entryInFrame (d i : Nat) (s : State) : Bool :=
  decide (seLine (seWord i 1 s) < totalLines d s) && decide (seSample (seWord i 0 s) < spl8 d s)

/-- The entry fires in frame `f` (R73, R77): its phase is the frame number's, or it is armed. -/
def entryFires (i : Nat) (x : Raster) (s : State) : Bool :=
  let w := seWord i 2 s
  if seFrameMod w = 0 then x.armed.contains i
  else (x.frame % 2 ^ 48).toNat % seFrameMod w == seFramePhase w

/-- A due entry of a range: its index, the position the walk waits for, and whether the entry is late (R75). -/
structure DueEntry where
  index : Nat
  at_ : Nat
  late : Bool
  deriving DecidableEq, Repr

/-- The next entry of a range that fires (R73, R75, R699), from `i` on over `n` entries; `m` is the latest position of the
valid entries already passed. A valid entry beyond the frame is never reached and holds the walk back (R75, R79). -/
def nextDue (d : Nat) (x : Raster) : Nat → Nat → Nat → State → Option DueEntry
  | 0, _, _, _ => none
  | n + 1, i, m, s =>
    if seValid (seWord i 1 s) then
      let e := entryPos d i s
      if entryInFrame d i s = false then none
      else if x.walkFrom ≤ e ∧ entryFires i x s = true then some ⟨i, max m e, decide (e < m)⟩
      else nextDue d x n (i + 1) (max m e) s
    else nextDue d x n (i + 1) m s

/-- How far the walk of a range has come at position `pos`: the entries it has passed over (R73, R75) and the latest position
among the valid ones. It stands at the first valid entry that fires in this frame or whose position is still ahead. -/
def passed (d : Nat) (x : Raster) (pos : Int) : Nat → Nat → Nat → State → Nat × Nat
  | 0, i, m, _ => (i, m)
  | n + 1, i, m, s =>
    if seValid (seWord i 1 s) = false then passed d x pos n (i + 1) m s
    else if entryInFrame d i s = false then (i, m)
    else
      let e := entryPos d i s
      if (x.walkFrom ≤ e ∧ entryFires i x s = true) ∨ pos < (e : Int) then (i, m) else passed d x pos n (i + 1) (max m e) s

def schedBase (d : Nat) (s : State) : Nat := fget (Reg.rckDomSched d) RckDomSched.domSchedBase s
def schedCount (d : Nat) (s : State) : Nat := fget (Reg.rckDomSched d) RckDomSched.domSchedCount s
def hostBase (s : State) : Nat := fget Reg.rckSchedHost RckSchedHost.hostBase s

/-- Entries of the host range that domain `d`'s walker walks (R79). -/
def hostCount (d : Nat) (s : State) : Nat :=
  if fget Reg.rckSchedHost RckSchedHost.hostDom s = d then fget Reg.rckSchedHost RckSchedHost.hostCount s else 0

def compDue (d : Nat) (s : State) : Option DueEntry :=
  let x := getRaster d s
  nextDue d x (schedCount d s - x.next) (schedBase d s + x.next) x.due s

def hostDue (d : Nat) (s : State) : Option DueEntry :=
  let x := getRaster d s
  nextDue d x (hostCount d s - x.hostNext) (hostBase s + x.hostNext) x.hostDue s

/-- The entry the walker fires next and whether it stands in the host range: the earlier position first, and the
composition range at equal positions (R79). -/
def walkerDue (d : Nat) (s : State) : Option (DueEntry × Bool) :=
  match compDue d s, hostDue d s with
  | none, none => none
  | some c, none => some (c, false)
  | none, some h => some (h, true)
  | some c, some h => if h.at_ < c.at_ then some (h, true) else some (c, false)

/-- Actions in flight reach their targets in the order they fired, those of one cycle in domain order (R74). -/
def insertAction (a : Action) : List Action → List Action
  | [] => [a]
  | b :: l => if b.fired = a.fired ∧ a.dom < b.dom then a :: b :: l else b :: insertAction a l

/-- Send an action on its way (R74). -/
def sendAction (a : Action) (s : State) : State :=
  { s with clock := { s.clock with inFlight := insertAction a s.clock.inFlight } }

/-- The target of an action: TRIG_OUT names its output in two bits, HBM_RETRAIN its channel in six (R78). -/
def actionTarget (code t : Nat) : Nat :=
  if code = actTrigOut then t % 4 else if code = actHbmRetrain then t % 64 else t

/-- What an entry of the host range fires as (R80): only NOP, TRIG_OUT and IRQ of the range's domain take effect. -/
def hostAction (d : Nat) (a : Action) (dom : Nat) (s : State) : State :=
  if dom = d ∧ (a.code = actNop ∨ a.code = actTrigOut ∨ a.code = actIrq) then sendAction a s
  else sendAction ⟨actNop, 0, 0, d, s.now⟩ (raise 68 (fset Reg.rckStatus RckStatus.rckHostActErr s))

/-- Fire an entry (R73 to R75, R80). -/
def fireEntry (d : Nat) (e : DueEntry) (host : Bool) (s : State) : State :=
  let x := getRaster d s
  let x1 : Raster :=
    if host then { x with hostNext := e.index + 1 - hostBase s, hostDue := e.at_, lastFire := s.now + 1 }
    else { x with next := e.index + 1 - schedBase d s, due := e.at_, lastFire := s.now + 1 }
  let s1 := setRaster d { x1 with armed := x1.armed.filter (fun i => i != e.index) } s
  let s2 :=
    if e.late then
      raise 67 (fset Reg.rckStatus RckStatus.rckLateEntry (bumpWrap (Reg.rckDomLate d) RckDomLate.domLateCnt s1))
    else s1
  let w0 := seWord e.index 0 s
  let a : Action := ⟨seAction w0, actionTarget (seAction w0) (seTarget (seWord e.index 1 s)),
    (seWord e.index 3 s).toNat, d, s.now⟩
  if host then hostAction d a (seDomain w0) s2 else sendAction a s2

/-- Where the domain's position stands in the frame being walked, in eighth-samples. -/
def walkPos (d : Nat) (s : State) : Int := domE d s - (getRaster d s).frame * (spf8 d s : Nat)

/-- The walker of domain `d` fires the next entry, when its position is reached and four mesh cycles have passed since its
last firing (R73, R74). -/
def scheduleFire (d : Nat) (s : State) : State :=
  if s.clock.running = false ∨ domValid d s = false then s
  else
    match walkerDue d s with
    | none => s
    | some (e, h) =>
      let x := getRaster d s
      if (e.at_ : Int) ≤ walkPos d s ∧ (x.lastFire = 0 ∨ x.lastFire + 3 ≤ s.now) then fireEntry d e h s else s

/-- The walker of domain `d` deals at once with the entries it passes over: a later change of one of them counts from the next
frame on. -/
def settleWalk (d : Nat) (s : State) : State :=
  if s.clock.running = false ∨ domValid d s = false then s
  else
    let x := getRaster d s
    let c := passed d x (walkPos d s) (schedCount d s - x.next) (schedBase d s + x.next) x.due s
    let h := passed d x (walkPos d s) (hostCount d s - x.hostNext) (hostBase s + x.hostNext) x.hostDue s
    setRaster d { x with next := c.1 - schedBase d s, due := c.2, hostNext := h.1 - hostBase s, hostDue := h.2 } s

/-! ### Ends of frames (R66, R70, R699) -/

/-- Fire what is left of the frame's walk, in order (R66). -/
def fireRest (d : Nat) : Nat → State → State
  | 0, s => s
  | n + 1, s =>
    match walkerDue d s with
    | none => s
    | some (e, h) => fireRest d n (fireEntry d e h s)

/-- The domain follows the mapping with any step or offset taken, from frame `f`. A frame that so begins past line 0, sample 0 raises no frame-start
source (assumption 188). -/
def beginFrame (d : Nat) (s : State) : State :=
  let x := getRaster d s
  let x1 : Raster := { x with ofs := x.newOfs.getD x.ofs, newOfs := none, untaken := 0, stepping := false }
  let e := rasterE d s.clock.timeBase x1.ofs s
  let f := max (x.frame + 1) (e / (spf8 d s : Nat))
  let from_ := if stepWaits x then (max 0 (e - f * (spf8 d s : Nat))).toNat else 0
  let x2 : Raster := { x1 with
    frame := f
    walkFrom := from_
    next := 0
    due := 0
    hostNext := 0
    hostDue := 0
    armed := if f = x.frame + 1 then x.armedNext else []
    armedNext := [] }
  let s1 := setRaster d x2 s
  let s2 := raiseWhen (decide (from_ = 0) && fbit (Reg.rckDomCtl d) RckDomCtl.domFstartIrq s) (80 + d) s1
  if x.stepping then stepTaken s2 else s2

/-- The frame being walked is over: the mapping that the domain follows from its end on has reached that end (R66, R70). -/
def frameOver (d : Nat) (s : State) : Bool :=
  let x := getRaster d s
  decide ((x.frame + 1) * (spf8 d s : Nat) ≤ rasterE d s.clock.timeBase (x.newOfs.getD x.ofs) s)

/-- A domain reaches the end of a frame (R66): what it has not yet fired fires at once, a pending step or offset is
taken, and a new walk begins. -/
def domainFrameEnd (d : Nat) (s : State) : State :=
  if s.clock.running = false ∨ domValid d s = false ∨ frameOver d s = false then s
  else beginFrame d (fireRest d (schedCount d s + hostCount d s) s)

/-- The walk begins part-way through a frame (R699), at release. -/
def startWalk (d : Nat) (s : State) : State :=
  let x := getRaster d s
  let e := rasterE d s.clock.timeBase x.ofs s
  let f := e / (spf8 d s : Nat)
  setRaster d { x with frame := f, walkFrom := (e - f * (spf8 d s : Nat)).toNat } s

/-! ### Triggers (R77, R94) -/

/-- The triggered entries of one range that name input `n`. -/
def triggeredIn (n : Nat) : Nat → Nat → State → List Nat
  | 0, _, _ => []
  | k + 1, i, s =>
    if seFrameMod (seWord i 2 s) = 0 ∧ seFramePhase (seWord i 2 s) % 4 = n then i :: triggeredIn n k (i + 1) s
    else triggeredIn n k (i + 1) s

/-- Entry `i`, armed for the frame being walked, is still to fire in it. -/
def stillArmed (d : Nat) (x : Raster) (i : Nat) (s : State) : Bool :=
  x.armed.contains i &&
    (if schedBase d s ≤ i ∧ i < schedBase d s + schedCount d s then decide (schedBase d s + x.next ≤ i)
     else decide (hostBase s + x.hostNext ≤ i))

/-- Arm the triggered entries of every domain for the next frame that begins (R77); an entry armed already and not yet fired is
not armed again. -/
def armTriggers (n : Nat) (s : State) : State :=
  (validDomains s).foldl (fun a d =>
    let t := settleWalk d a
    let x := getRaster d t
    let l := triggeredIn n (schedCount d t) (schedBase d t) t ++ triggeredIn n (hostCount d t) (hostBase t) t
    setRaster d { x with armedNext := x.armedNext ++ l.filter (fun i => !x.armedNext.contains i && !stillArmed d x i t) } t) s

/-- Latch the position of the domain stamped for input `n` (R94). -/
def latchTrigger (n : Nat) (s : State) : State :=
  if (fget Reg.rckTrigCtl RckTrigCtl.tinEn s).testBit n then
    let d := fget Reg.rckTrigCtl RckTrigCtl.tinDom s / 16 ^ n % 16
    wr (Reg.rckTrigPosHi n) (domPosHi d s) (wr (Reg.rckTrigPosLo n) (domPosLo d s) s)
  else s

/-! ### TRIG_OUT, IRQ (R78, R95) -/

/-- The idle level of a trigger output. -/
def trigIdle (n : Nat) (s : State) : Bool := (fget Reg.rckTrigCtl RckTrigCtl.toutIdle s).testBit n

/-- TRIG_OUT reaches output `n` with argument `arg` of an entry of domain `d`: a pulse of arg[15:0] lines, or a static level in arg[16] until
the next one. What it drives is kept: 0 at rest, 1 a static level, else the width + 1. -/
def trigOut (n d arg : Nat) (s : State) : State :=
  let w := arg % 2 ^ 16
  let lvl := if w = 0 then decide (arg / 2 ^ 16 % 2 = 1) else !trigIdle n s
  emit (.pins n lvl) { s with clock := { s.clock with
    trigOut := smSet 0 n (w + 1) s.clock.trigOut
    trigEnd := smPut n (d, domE d s + w * (spl8 d s : Nat)) s.clock.trigEnd } }

/-- The pulse of output `n` has lasted its lines. -/
def pulseOver (n : Nat) (s : State) : Bool :=
  match smFind n s.clock.trigEnd with
  | some (d, e) => decide (e ≤ domE d s)
  | none => true

/-- A pulse ends and the output returns to its idle level. -/
def trigOutEnd (n : Nat) (s : State) : State :=
  if smGet 0 n s.clock.trigOut < 2 ∨ pulseOver n s = false then s
  else emit (.pins n (trigIdle n s)) { s with clock := { s.clock with trigOut := smSet 0 n 0 s.clock.trigOut } }

/-! ### Schedule table writes (R80, R81) -/

/-- Entry `i` lies in the host range. -/
def inHostRange (i : Nat) (s : State) : Bool :=
  decide (hostBase s ≤ i) && decide (i < hostBase s + fget Reg.rckSchedHost RckSchedHost.hostCount s)

/-- A host write to word `k` of entry `i` by domain `d`: kept inside the host range, else dropped with an access error. -/
def scheduleWrite (d i k : Nat) (v : Word) (s : State) : State :=
  if inHostRange i s then
    wr (0xC00000 + 16 * i + 4 * k) (seClean k v) (settleWalk (fget Reg.rckSchedHost RckSchedHost.hostDom s) s)
  else accessErr d kindState (0xC00000 + 16 * i + 4 * k) s

end Sys2Proof.Machine
end

