-- ==== Sys2Proof/Machine/RateControl.lean ====
section
/-! DEFINITION. Rate control and regions of interest (chapter 06): the buffer model, the picture budget, the CTU rows with
the floor reserve, ROI quantisers, and the impairment generator (R238, R239). -/

namespace Sys2Proof.Machine

open Sys2Proof

def clampInt (lo hi x : Int) : Int := max lo (min hi x)
def sumNat (l : List Nat) : Nat := l.foldl (· + ·) 0
def sumInt (l : List Int) : Int := l.foldl (· + ·) 0

/-- The picture rate as (numerator, denominator): the domain's rate, doubled for field coding (R253, R254). -/
def pictureRate (d fm : Nat) (s : State) : Nat × Nat := (rateNum d s * fm, rateDen d s)

/-- 2 for field coding, else 1. -/
def Params.fm (q : Params) (d : Nat) (s : State) : Nat := if domInterlaced d s ∧ q.fieldMode = 0 then 2 else 1

/-! ### The buffer model (R254 to R257) -/

/-- The increment after picture `n` (R255). -/
def modelInc (q : Params) (n : Nat) (rate : Nat × Nat) : Int :=
  (((n + 1) * q.fillRate * rate.2 / rate.1 : Nat) : Int) - ((n * q.fillRate * rate.2 / rate.1 : Nat) : Int)

/-- The modes in which filler data is added (R256). -/
def Params.fills (q : Params) : Bool := q.rcMode == 1 || q.rcMode == 4 || (q.rcMode == 0 && q.hrdSignal)

/-- B_min of R256; 0 in a mode without filler (assumption 20). -/
def minSize (q : Params) (f inc : Int) : Int := if q.fills then f + inc - q.cpbBits else 0

/-- The level before the next picture (R255). -/
def nextLevel (q : Params) (f b inc : Int) : Int :=
  let n := f - b + inc
  if (q.cpbBits : Int) < n then q.cpbBits else n

/-- F at enable (R254): 0 where no model is kept; INIT 0 acts as 192. -/
def initialLevel (q : Params) : Nat :=
  if q.modelKept then q.cpbBits * orIf0 192 (q.fld 0x30C RcCpb.init) / 256 else 0

/-! ### HRD stress (R268) -/

def isStress (q : Params) (i : Nat) : Bool :=
  let ph := q.fld 0x318 RcStress.phase
  let per := q.fld 0x318 RcStress.period
  q.rcMode == 4 && decide (ph ≤ i) && decide (per ≠ 0) && (i - ph) % per == 0

def stressAmount (q : Params) : Int := (q.cpbBits * q.fld 0x318 RcStress.amount / 100 : Nat)
def stressKind (q : Params) : Nat := q.fld 0x318 RcStress.kind

/-- The floor reserve is on (R266, R268): not in FIXED_QP, not with RESERVE_OFF, not in a stress picture; every other picture of HRD_STRESS
has it on. -/
def reserveOn (q : Params) (i : Nat) : Bool :=
  q.rcMode != 0 && (q.rcMode == 4 || q.fld 0x300 RcCtl.reserveOff != 1) && !isStress q i

/-! ### The picture budget (R259) -/

/-- The weight of a picture in 1/16. -/
def budgetWeight (q : Params) (intra : Bool) (layer : Nat) : Nat :=
  if intra then q.intraW else match layer with | 0 => 16 | 1 => 12 | _ => 10

/-- K of R259. -/
def Params.kLog (q : Params) : Nat := if q.codec = 4 then 24 else 6

def baseBits (q : Params) (rate : Nat × Nat) : Nat := q.rate * 1000 * rate.2 / rate.1

/-- The target before clamping, where there is one. -/
def rawTarget (q : Params) (i w : Nat) (f carry sumD bMin : Int) (rate : Nat × Nat) : Option Int :=
  let base : Int := baseBits q rate
  match q.rcMode with
  | 0 => none
  | 2 => some (base * w / 16 + sumD / 64 - carry)
  | 3 => if reserveOn q i then some f else none
  | _ =>
    if isStress q i ∧ stressKind q = 0 then some (f + stressAmount q)
    else if isStress q i ∧ stressKind q = 1 then some (max 0 (bMin - stressAmount q))
    else some (base * w / 16 + (f - q.cpbBits / 2) / 32 - carry)

/-- The target clamped between B_min and the ceiling; a stress target of R268 stands as it is. -/
def clampTarget (q : Params) (i : Nat) (f bMin t : Int) : Int :=
  if isStress q i ∧ stressKind q ≤ 1 then t
  else if reserveOn q i then clampInt bMin f t
  else max bMin t

/-- The base QP of a picture (R252, R259). `hist` holds the last QP, bits and activity of pictures of its kind. -/
def pictureQp (q : Params) (intra : Bool) (act : Nat) (t : Int) (hist : Option (Nat × Nat × Nat)) : Nat :=
  let raw : Int :=
    if q.rcMode = 0 then
      if intra then (q.qpInit : Int) + signedOf 8 (q.fld 0x314 RcWeight.intraDq) else q.qpInit
    else
      match hist with
      | none => q.qpInit
      | some (qp, b, a) =>
        if q.rcMode = 3 then q.qpInit
        else (qp : Int) + clampInt (-(q.kLog : Int)) q.kLog (Config.log2Round q.kLog ((b : Int) * act) (t * a))
  (clampInt q.qpMin q.qpMax raw).toNat

/-! ### Rows and the floor (R262 to R265) -/

/-- The floor bound of one CTU (R262). -/
def floorBound (q : Params) (intra : Bool) : Nat :=
  if q.codec = 1 then (if intra then 24 else 2)
  else if intra then 48 * 4 ^ q.ctuLog2 / 1024 else 8

def rowBound (q : Params) (intra : Bool) : Nat := q.ctuCols * floorBound q intra

def getRow (r : Nat) (x : Pic) : RowCtl := smGet RowCtl.init r x.rows
def setRow (r : Nat) (v : RowCtl) (x : Pic) : Pic := { x with rows := smSet RowCtl.init r v x.rows }

/-- Start CTU row `r` (R264, R265): latch floor mode, or set the row's allocation, QP and cap; a row whose cap is at most its floor bound is
a floor row. -/
def startRow (q : Params) (r : Nat) (x : Pic) : Pic :=
  let n := q.ctuRows
  let fb : Int := rowBound q x.intra
  let done := (List.range r).filter fun j => decide (j + q.rowLag ≤ r)
  let infl := (List.range r).filter fun j => decide (r < j + q.rowLag)
  let bitsOf := fun j => ((getRow j x).bits : Int)
  let known : Int := x.headerBits + sumInt (done.map bitsOf)
  let res : Int := if x.reserve then fb * ((n - r : Nat) : Int) else 0
  if q.rcMode = 0 then setRow r ⟨true, false, 0, 0, x.qpPic, 0, false⟩ x
  else if x.floorLatched ∨ (x.targetOn ∧ x.target ≤ known + sumInt (infl.map fun j => (getRow j x).alloc) + res) then
    { setRow r ⟨true, true, fb, fb, x.qpPic, 0, true⟩ x with floorLatched := true }
  else
    let a : Int := x.target - x.headerBits - (if x.reserve then fb * (n : Int) else 0)
    let alloc : Int := a * ((x.rowActs[r]?).getD 0 : Nat) / ((max 1 x.act : Nat) : Int)
    let steps : Int :=
      if done.isEmpty then 0
      else Config.log2Round q.kLog (sumInt (done.map bitsOf)) (sumInt (done.map fun j => (getRow j x).alloc))
    let qp := clampInt q.qpMin q.qpMax ((x.qpPic : Int) + clampInt (-(q.rowDq : Int)) q.rowDq steps)
    let cap : Int :=
      match x.ceiling with
      | some h => h - known - sumInt (infl.map fun j => (getRow j x).cap) - fb * ((n - r - 1 : Nat) : Int)
      | none => 0
    if x.reserve = true ∧ cap ≤ fb then setRow r ⟨true, true, fb, fb, qp.toNat, 0, true⟩ x
    else setRow r ⟨true, false, alloc, cap, qp.toNat, 0, false⟩ x

/-! ### Regions of interest (R269 to R274) -/

/-- The lowest-numbered rectangle that covers CTU (x, y): its mode and value. -/
def rectAt (q : Params) (x y : Nat) : Option (Nat × Nat) :=
  ((List.range 16).find? fun n =>
    let wx := q.at (0x500 + 8 * n)
    let wy := q.at (0x504 + 8 * n)
    let m := getF RoiRectX.mode wx
    (m == 1 || m == 2) && decide (getF RoiRectX.x0 wx ≤ x ∧ x ≤ getF RoiRectX.x1 wx)
      && decide (getF RoiRectY.y0 wy ≤ y ∧ y ≤ getF RoiRectY.y1 wy)).map
    fun n => (getF RoiRectX.mode (q.at (0x500 + 8 * n)), getF RoiRectY.value (q.at (0x504 + 8 * n)))

/-- A byte of the delta map as its rules read it: a signed value kept within -64 to 63 (R270). -/
def mapDelta (b : Nat) : Int := clampInt (-64) 63 (signedOf 8 b)

/-- The QP of a CTU coded normally in a row of QP `qpRow`, with map delta `d` (R273). -/
def ctuQp (q : Params) (qpRow : Nat) (x y : Nat) (d : Int) : Nat :=
  let k : Int := if q.codec = 4 then 4 else 1
  let v : Int :=
    match rectAt q x y with
    | some (1, v) => (qpRow : Int) + k * signedOf 7 v + k * d
    | some (_, v) => k * (v : Int) + k * d
    | none => (qpRow : Int) + k * d
  (clampInt q.qpMin q.qpMax v).toNat

/-! ### The impairment generator (R238, R239) -/

/-- One xorshift draw. -/
def xorshift (x : Word) : Word :=
  let a := x ^^^ (x <<< 13)
  let b := a ^^^ (a >>> 17)
  b ^^^ (b <<< 5)

/-- A seed of 0 is taken as 1. -/
def seedOf (w : Word) : Word := if w = 0 then 1 else w

/-- Take `n` draws. -/
def drawN : Nat → Word → List Word × Word
  | 0, x => ([], x)
  | n + 1, x =>
    let y := xorshift x
    let r := drawN n y
    (y :: r.1, r.2)

/-- Draws a fired slot of a code takes (R240). -/
def paramDraws (code : Nat) : Nat := match code with | 4 => 2 | 7 => 1 | _ => 0

def slotCtl (q : Params) (t : Nat) : Word := q.at (0x140 + 8 * t)
def slotMode (q : Params) (t : Nat) : Nat := getF ImpSlotCtl.mode (slotCtl q t)

/-- The firing draws of the slots in MODE 1, in slot order: the slots that fire and the generator after (R239). -/
def firingDraws (q : Params) (i : Nat) : List Nat → Word → List Nat × Word
  | [], x => ([], x)
  | t :: ts, x =>
    if slotMode q t = 1 then
      let y := xorshift x
      let r := firingDraws q i ts y
      (if y.toNat / 65536 < getF ImpSlotCtl.prob (slotCtl q t) then t :: r.1 else r.1, r.2)
    else if slotMode q t = 2 then
      let ph := getF ImpSlotArg.phase (q.at (0x144 + 8 * t))
      let per := getF ImpSlotCtl.prob (slotCtl q t)
      let r := firingDraws q i ts x
      (if ph ≤ i ∧ per ≠ 0 ∧ (i - ph) % per = 0 then t :: r.1 else r.1, r.2)
    else firingDraws q i ts x

/-- The parameter draws of the fired slots, in slot order. -/
def slotDraws (q : Params) : List Nat → Word → List (Nat × List Word) × Word
  | [], x => ([], x)
  | t :: ts, x =>
    let d := drawN (paramDraws (getF ImpSlotCtl.code (slotCtl q t))) x
    let r := slotDraws q ts d.2
    ((t, d.1) :: r.1, r.2)

/-- All impairment draws of picture `i` (R239). -/
def pictureDraws (q : Params) (i : Nat) (x : Word) : List (Nat × List Word) × Word :=
  let f := firingDraws q i (List.range 8) x
  slotDraws q f.1 f.2

/-- The bytes that UNIT_TRUNCATE keeps of a unit of `len` bytes, by draw d2; and the unit d1 picks of `n` (R240). -/
def truncateKeep (len : Nat) (d2 : Word) : Nat := max 1 (len * (d2.toNat % 65536) / 65536)
def truncatePick (n : Nat) (d1 : Word) : Nat := n * d1.toNat / 2 ^ 32

end Sys2Proof.Machine
end

