-- ==== Sys2Proof/Machine/Capture.lean ====
section
/-! DEFINITION. Capture of an encode pipeline (R189 to R197) and the activity of captured pictures (R260): depth and chroma
conversion, the L1 and L2 planes, the two capture pictures, lines given up, the clip store. -/

namespace Sys2Proof.Machine

open Sys2Proof

/-! ### Samples (R189 to R193, R196) -/

/-- Bit depth of an input format (R189). -/
def inputDepth (fmt : Nat) : Nat := match fmt with | 1 => 8 | 2 => 12 | 4 => 8 | _ => 10

/-- The input format carries 4:2:2. -/
def inputIs422 (fmt : Nat) : Bool := decide (fmt ≤ 2)

/-- A sample converted from depth `a` to depth `b` (R191). -/
def convertDepth (a b x : Nat) : Nat :=
  if a ≤ b then x * 2 ^ (b - a) else min (2 ^ b - 1) ((x + 2 ^ (a - b - 1)) / 2 ^ (a - b))

/-- Put a run of samples over a line, from sample `x` on. -/
def putRun : Nat → List Nat → List (Option Nat) → List (Option Nat)
  | _, _, [] => []
  | x + 1, l, a :: b => a :: putRun x l b
  | 0, v :: l, _ :: b => some v :: putRun 0 l b
  | 0, [], b => b

/-- A line `w` wide from the runs (first sample, samples) that arrived; a later run stands over an earlier one. -/
def lineSamples (w : Nat) (runs : List (Nat × List Nat)) : List (Option Nat) :=
  runs.foldl (fun b r => putRun r.1 r.2 b) (List.replicate w none)

/-- The line in groups of `g` samples, at `v` where a group is not whole (R196). -/
def fillGroups (g v : Nat) : Nat → List (Option Nat) → List Nat
  | 0, _ => []
  | n + 1, l =>
    let h := l.take g
    (if h.all Option.isSome then h.map fun x => x.getD v else h.map fun _ => v) ++ fillGroups g v n (l.drop g)

def fillLine (w g v : Nat) (runs : List (Nat × List Nat)) : List Nat := fillGroups g v (ceilDiv w g) (lineSamples w runs)

/-- Black at depth `d`: luma 16 and chroma 128, scaled. -/
def blackY (d : Nat) : Nat := 16 * 2 ^ (d - 8)
def blackC (d : Nat) : Nat := 128 * 2 ^ (d - 8)

/-- The runs of line `y` that a capture picture holds. -/
def lineOf (c : CapPic) (y : Nat) : List (Nat × LineIn) := smGet [] y c.lines

/-- Every sample of line `y` has come: its runs hold `w` luma samples from the first on. -/
def lineWhole (w : Nat) (c : CapPic) (y : Nat) : Bool :=
  (lineSamples w ((lineOf c y).map fun r => (r.1, r.2.y))).all Option.isSome

/-- The format of ENC_SRC in force (reserved codes act as 0, R13). -/
def Params.inFmt (q : Params) : Nat :=
  let f := q.fld 0x11C EncSrc.inFmt
  if f ≤ 4 then f else 0

/-- Luma row `y` of a capture picture at the coded depth. -/
def codedLuma (q : Params) (c : CapPic) (y : Nat) : List Nat :=
  fillLine q.width 32 (blackY q.depth)
    ((lineOf c y).map fun r => (r.1, r.2.y.map (convertDepth (inputDepth q.inFmt) q.depth)))

/-- Row `j` of a plane, with a row outside it taken from the nearest row inside. -/
def rowClamp (rows : Nat → List Nat) (n : Nat) (j : Int) : List Nat := rows (min j.toNat (n - 1))

/-- The vertical filter of R190 on four rows. -/
def chromaTap : List Nat → List Nat → List Nat → List Nat → List Nat
  | a :: as, b :: bs, c :: cs, d :: ds => (a + 3 * b + 3 * c + d + 4) / 8 :: chromaTap as bs cs ds
  | _, _, _, _ => []

/-- The line that input chroma row `k` comes with: the first of the two lines of its field that share it in 4:2:0. -/
def chromaLine (q : Params) (k : Nat) : Nat :=
  if inputIs422 q.inFmt then k else if q.fieldMode = 1 then 4 * (k / 2) + k % 2 else 2 * k

/-- Input chroma row `k`: component 0 is Cb, 1 is Cr. -/
def inputChroma (q : Params) (c : CapPic) (comp k : Nat) : List Nat :=
  fillLine (q.width / 2) 16 (blackC (inputDepth q.inFmt))
    ((lineOf c (chromaLine q k)).map fun r => (r.1 / 2, if comp = 0 then r.2.cb else r.2.cr))

/-- Chroma row `k` of a capture picture at the coded depth: 4:2:2 input to a 4:2:0 pipeline is filtered first, each field of an
interleaved frame by itself (R190, R191). -/
def codedChroma (q : Params) (chroma : Nat) (c : CapPic) (comp k : Nat) : List Nat :=
  let src := inputChroma q c comp
  let n := if q.fieldMode = 1 then 2 else 1
  let raw :=
    if chroma = 0 ∧ inputIs422 q.inFmt = true then
      let j : Int := 2 * (k / n : Nat)
      let at_ := fun i => rowClamp (fun y => src (n * y + k % n)) (q.height / n) i
      chromaTap (at_ (j - 1)) (at_ j) (at_ (j + 1)) (at_ (j + 2))
    else src k
  raw.map (convertDepth (inputDepth q.inFmt) q.depth)

/-- Average 2 x 2 samples of two rows; a missing last column repeats the one before it (R193). -/
def halveRow : List Nat → List Nat → List Nat
  | a :: b :: as, c :: d :: cs => (a + b + c + d + 2) / 4 :: halveRow as cs
  | [a], [c] => [(a + a + c + c + 2) / 4]
  | _, _ => []

/-- Row `y` of the L1 plane, and of the L2 plane; a missing last row repeats the one before it (R193). -/
def l1Row (q : Params) (c : CapPic) (y : Nat) : List Nat :=
  halveRow (codedLuma q c (min (2 * y) (q.height - 1))) (codedLuma q c (min (2 * y + 1) (q.height - 1)))

def l2Row (q : Params) (c : CapPic) (y : Nat) : List Nat :=
  let h := ceilDiv q.height 2
  halveRow (l1Row q c (min (2 * y) (h - 1))) (l1Row q c (min (2 * y + 1) (h - 1)))

/-! ### Activity (R260) -/

def absDiff (a b : Nat) : Nat := if a ≤ b then b - a else a - b

/-- Each sample of a row against the one to its left. -/
def leftDiffs : Option Nat → List Nat → List Nat
  | _, [] => []
  | p, v :: l => (match p with | none => 0 | some u => absDiff v u) :: leftDiffs (some v) l

/-- The differences of each sample of an L2 row to the left and above. -/
def rowDiffs (above cur : List Nat) (hasAbove : Bool) : List Nat :=
  List.zipWith (· + ·) (leftDiffs none cur) (if hasAbove then List.zipWith absDiff cur above else cur.map fun _ => 0)

/-- Sums over groups of `n` values. -/
def groupSums (n : Nat) : Nat → List Nat → List Nat
  | 0, _ => []
  | k + 1, l => sumNat (l.take n) :: groupSums n k (l.drop n)

/-- The activities of the CTUs of CTU row `cy` over their L2 samples. -/
def ctuActivities (q : Params) (c : CapPic) (cy : Nat) : List Nat :=
  let n := 2 ^ (q.ctuLog2 - 2)
  let h2 := ceilDiv (ceilDiv q.height 2) 2
  ((List.range' (cy * n) n).filter fun y => decide (y < h2)).foldl (fun a y =>
    List.zipWith (· + ·) a (groupSums n q.ctuCols (rowDiffs (l2Row q c (y - 1)) (l2Row q c y) (decide (y ≠ 0)))))
    (List.replicate q.ctuCols 1)

/-- The combined ROI delta of the CTU at (cx, cy) of picture `i` as far as it is known at PIC_START (R273): a quality target is taken
against a row QP that the spec does not name. -/
def roiDelta (q : Params) (map : List (Option Nat)) (i cx cy : Nat) : Int :=
  let k : Int := if q.codec = 4 then 4 else 1
  let d : Int := match ((map[cy * q.ctuCols + cx]?).getD none) with | some b => mapDelta b | none => 0
  match rectAt q cx cy with
  | none => k * d
  | some (1, v) => k * signedOf 7 v + k * d
  | some (_, v) => k * v + k * d - Config.rowQpAhead i cy

/-- A CTU's activity `a` weighted by its ROI factor; a delta of 0 keeps it. -/
def weightedActivity (q : Params) (map : List (Option Nat)) (i cx cy a : Nat) : Nat :=
  let d := roiDelta q map i cx cy
  if d = 0 then a else Config.roiWeighted d q.kLog a

/-- The row activities of picture `i`, whose delta map is `map` where it has one. -/
def rowActivities (q : Params) (i : Nat) (c : CapPic) (map : List (Option Nat)) : List Nat :=
  (List.range q.ctuRows).map fun y => sumNat ((ctuActivities q c y).zipIdx.map fun e => weightedActivity q map i e.2 y e.1)

/-! ### The two capture pictures (R194, R195) -/

def getCap (k : Nat) (x : Pipe) : CapPic := smGet CapPic.init k x.caps
def setCap (k : Nat) (c : CapPic) (x : Pipe) : Pipe := { x with caps := smSet CapPic.init k c x.caps }

/-- Capture picture `k` is the source of a picture that is still incomplete. -/
def capBusy (k : Nat) (x : Pipe) : Bool := x.pics.any fun q => q.cap == k && !q.complete

/-- The sets that govern capture picture `k` (R228): those read at the PIC_START of the picture in progress that it is the source of,
before that the active ones. -/
def capParams (p k : Nat) (s : State) : Params :=
  match (getPipe p s).pics.find? fun y => y.cap == k && !y.complete with
  | some y => ⟨pipePers p s, y.sets⟩
  | none => paramsOf p 0 s

/-- Pipeline `p` has entries of action `code` in the composition ranges of the schedule. -/
def hasEntries (code p : Nat) (s : State) : Bool :=
  (validDomains s).any fun d => (List.range (schedCount d s)).any fun i =>
    let k := schedBase d s + i
    seAction (seWord k 0 s) == code && seTarget (seWord k 1 s) == p

/-- The pipeline has CAPTURE_ARM entries in the composition ranges of the schedule. -/
def hasArmEntries (p : Nat) (s : State) : Bool := hasEntries actCaptureArm p s

/-- Capture is running: an encode pipeline, enabled. -/
def captures (p : Nat) (s : State) : Bool := pipeEnabled p s && !pipeDecodes p s && curMode s == 3

/-- Begin to capture a frame, or where fields are coded apart a field, into the next capture picture, or mark CAPTURE_OVERRUN when its picture is incomplete (R195). -/
def beginCapture (p : Nat) (field2 : Bool) (s : State) : State :=
  let x := getPipe p s
  if capBusy x.capNext x then
    pipEvent p PipStatus.captureOverrun (setPipe p { x with capLive := 0, capArmed := false } s)
  else
    let c : CapPic := ⟨x.capCount + 1, [], [], false, s.clock.timeBase, field2⟩
    setPipe p { setCap x.capNext c x with
      capLive := x.capNext + 1, capNext := 1 - x.capNext, capCount := x.capCount + 1, capArmed := false } s

/-- Fields are captured apart: an interlaced domain in FIELD_MODE 0 (R214). -/
def fieldsApart (p : Nat) (s : State) : Bool := (paramsOf p 0 s).fm (pipeDomain p s) s == 2

/-- The second field of a frame that is captured whole. -/
def secondOfFrame (p : Nat) (field2 : Bool) (s : State) : Bool :=
  field2 && !fieldsApart p s && domInterlaced (pipeDomain p s) s

/-- An input frame begins at its first active line (R194), and a field at its own where fields are captured apart; the second field of a
frame captured whole begins nothing. -/
def inputFrameStart (p : Nat) (field2 : Bool) (s : State) : State :=
  if captures p s = false ∨ secondOfFrame p field2 s = true then s
  else if hasArmEntries p s = true ∧ (getPipe p s).capArmed = false then
    onPipe p (fun x => { x with capLive := 0 }) s
  else beginCapture p (field2 && fieldsApart p s) s

/-- Mark the live capture picture whole, once its last line is in. -/
def finishCapture (p k : Nat) (c : CapPic) (s : State) : State :=
  onPipe p (fun x => { setCap k { c with whole := true } x with lastCap := k + 1, capLive := 0 }) s

/-- Samples of line `y`, from sample `i` on, arrive and are written to the live capture picture (R192). A line that was given
up is not written again. -/
def captureLine (p y i : Nat) (l : LineIn) (s : State) : State :=
  let x := getPipe p s
  let q := capParams p (x.capLive - 1) s
  if captures p s = false ∨ x.capLive = 0 ∨ q.height ≤ y then s
  else
    let k := x.capLive - 1
    let c := getCap k x
    if c.gaveUp.contains y then s
    else
      let c1 : CapPic := { c with lines := smPut y (lineOf c y ++ [(i, l)]) c.lines }
      if y + 1 = q.height ∧ lineWhole q.width c1 y = true then finishCapture p k c1 s else setPipe p (setCap k c1 x) s

/-- The lines `lo` to `hi - 1`, each `w` wide, that capture picture `c` has not received whole and not given up. -/
def linesMissing (w : Nat) (c : CapPic) (lo hi : Nat) : List Nat :=
  ((List.range (hi - lo)).map (· + lo)).filter fun y => !lineWhole w c y && !c.gaveUp.contains y

/-- Give up lines `lo` to `hi - 1` of the capture picture of `pic`: black, counted, SRC_INCOMPLETE (R196). -/
def giveUpLines (p : Nat) (k lo hi : Nat) (s : State) : State × Nat :=
  let x := getPipe p s
  let c := getCap k x
  let l := linesMissing (capParams p k s).width c lo hi
  if l.isEmpty then (s, 0)
  else (pipEvent p PipStatus.srcIncomplete (setPipe p (setCap k { c with gaveUp := c.gaveUp ++ l } x) s), l.length)

/-! ### The clip store (R197) -/

/-- Bytes of one clip picture: planar Y, Cb and Cr in 16-bit containers. -/
def clipBytes (q : Params) : Nat :=
  let cw := q.width / 2
  let ch := if inputIs422 q.inFmt then q.height else q.height / 2
  2 * (q.width * q.height + 2 * cw * ch)

/-- 16-bit little-endian samples. -/
def samples16 : List Byte → List Nat
  | a :: b :: l => (a.toNat + 256 * b.toNat) :: samples16 l
  | _ => []

/-- `n` rows of `w` samples from a list. -/
def splitRows (w : Nat) : Nat → List Nat → List (List Nat)
  | 0, _ => []
  | n + 1, l => l.take w :: splitRows w n (l.drop w)

/-- The lines of a clip picture from its bytes. -/
def clipLines (q : Params) (l : List Byte) : SMap (List (Nat × LineIn)) :=
  let v := samples16 l
  let cw := q.width / 2
  let ch := if inputIs422 q.inFmt then q.height else q.height / 2
  let ys := splitRows q.width q.height v
  let cbs := splitRows cw ch (v.drop (q.width * q.height))
  let crs := splitRows cw ch (v.drop (q.width * q.height + cw * ch))
  let row := fun y => (List.range ch).find? fun k => chromaLine q k == y
  (List.range q.height).map fun y =>
    let c := fun l : List (List Nat) => match row y with | some k => (l[k]?).getD [] | none => []
    (y, [(0, ⟨(ys[y]?).getD [], c cbs, c crs⟩)])

/-- Capture reads its next picture, or field, from the clip store and advances CLIP_INDEX (R197). -/
def clipCapture (p : Nat) (field2 : Bool) (s : State) : State :=
  match pipeEntry p s with
  | none => s
  | some e =>
    if captures p s = false ∨ e.flags / 8 % 2 = 0 ∨ secondOfFrame p field2 s = true ∨ (hasArmEntries p s = true ∧ (getPipe p s).capArmed = false) then s
    else
      match s.comp.carves[e.srcCarve]? with
      | none => s
      | some cv =>
        let s1 := beginCapture p (field2 && fieldsApart p s) s
        let x := getPipe p s1
        if x.capLive = 0 then s1
        else
          let q := paramsOf p 0 s1
          let idx := q.fld 0x11C EncSrc.clipIndex
          let n := q.fld 0x11C EncSrc.clipCount
          let r := readBytes 3 (cv.base * unitSize + idx * clipBytes q) (clipBytes q) s1
          let c : CapPic := { getCap (x.capLive - 1) x with lines := clipLines q r.1.1 }
          let s2 := finishCapture p (x.capLive - 1) c r.2
          fput (Reg.encSrc (encActive p)) EncSrc.clipIndex (if n = 0 then 0 else (idx + 1) % n) s2

end Sys2Proof.Machine
end

