-- ==== Sys2Proof/Machine/Units.lean ====
section
/-! DEFINITION. The row units of an encoded picture (R38, R204 to R208): their numbers, the tiles, slices and entropy partitions they lie in, and
their order in the stream. -/

namespace Sys2Proof.Machine

open Sys2Proof

/-- Row units are numbered in raster order: CTU row by CTU row, tile column by tile column. -/
def unitIndex (x : Pic) (row col : Nat) : Nat := row * x.tiles + col

def getUnit (k : Nat) (x : Pic) : UnitSt := smGet UnitSt.init k x.units
def setUnit (k : Nat) (u : UnitSt) (x : Pic) : Pic := { x with units := smSet UnitSt.init k u x.units }

/-- Entropy partitions in one tile of `rows` CTU rows (R205, R206, R208): its WPP rows, or its slices. AV1 has no slices. -/
def tileParts (q : Params) (rows : Nat) : Nat :=
  if q.wpp then rows
  else if q.sliceRows = 0 ∨ q.codec = 4 then 1
  else ceilDiv rows q.sliceRows

def tileRowSize (q : Params) (i : Nat) : Nat := tileBound q.ctuRows q.tileRows (i + 1) - tileBound q.ctuRows q.tileRows i

/-- The tile row of a CTU row. -/
def tileRowOf (q : Params) (row : Nat) : Nat :=
  ((List.range q.tileRows).filter fun i => decide (0 < i ∧ tileBound q.ctuRows q.tileRows i ≤ row)).length

/-- The CTU row's place in its tile. -/
def rowInTile (q : Params) (row : Nat) : Nat := row - tileBound q.ctuRows q.tileRows (tileRowOf q row)

/-- The entropy partition of a row unit of an encoded picture: tiles in raster order, and within a tile its partitions. -/
def encPart (q : Params) (row col : Nat) : Nat :=
  let ti := tileRowOf q row
  let n := tileParts q (tileRowSize q ti)
  let k := rowInTile q row
  let inTile := if q.wpp then k else if q.sliceRows = 0 ∨ q.codec = 4 then 0 else k / q.sliceRows
  sumNat ((List.range ti).map fun i => q.tileCols * tileParts q (tileRowSize q i)) + col * n + inTile

/-- The entropy partitions of an encoded picture (R208). -/
def encParts (q : Params) : Nat :=
  sumNat ((List.range q.tileRows).map fun i => q.tileCols * tileParts q (tileRowSize q i))

/-- The row units of an encoded picture in the order of the stream: tile by tile. -/
def streamOrder (q : Params) (x : Pic) : List Nat :=
  sortBy (fun k => (tileRowOf q (k / x.tiles) * x.tiles + k % x.tiles) * (x.rowCount + 1) + k / x.tiles) (List.range x.unitCount)

/-- A slice, or the tile group of a frame, starts with the unit. -/
def sliceStarts (q : Params) (row col : Nat) : Bool :=
  if q.codec = 4 then row == 0 && col == 0
  else
    let k := rowInTile q row
    k == 0 || (q.sliceRows != 0 && k % q.sliceRows == 0)

/-- Row units in the order of the stream, then the picture's last bytes. -/
def sendOrder (q : Params) (y : Pic) : List Nat := streamOrder q y ++ [y.unitCount]

end Sys2Proof.Machine
end

