-- ==== Sys2Proof/Machine/Record.lean ====
section
/-! DEFINITION. Nuzel records (R244 to R251, R314 to R318): their bytes, the queue of records, and the commit to the ring. -/

namespace Sys2Proof.Machine

open Sys2Proof

/-! ### Fields -/

/-- Bit `n` of a record's flags. -/
def flagBit (n : Nat) : Nat := 2 ^ n

/-- Set bit `n` of the record flags of a picture. -/
def setFlag (n : Nat) (x : Pic) : Pic := if x.flags.testBit n then x else { x with flags := x.flags + flagBit n }

def setFlagWhen (b : Bool) (n : Nat) (x : Pic) : Pic := if b then setFlag n x else x

/-- The low `n` bytes of a signed value. -/
def leInt (v : Int) (n : Nat) : List Byte := leBytes (v % 2 ^ (8 * n)).toNat n

def zeros (n : Nat) : List Byte := List.replicate n 0

/-! ### Queueing (R249) -/

/-- Queue a record of a type with a body after the header; the header takes its sequence number, and the position of the
pipeline's domain. Dropped records are counted by the sequence too. -/
def queueRecord (p type pic : Nat) (body : List Byte) (s : State) : State :=
  let x := getPipe p s
  let pos := domPos (pipeDomain p s) s
  let len := (16 + body.length) / 16
  let head := leBytes type 1 ++ leBytes len 1 ++ leBytes p 2 ++ leBytes pic 4 ++ leBytes x.recSeq 4 ++ leBytes pos.2.1 2
    ++ leInt pos.1 2
  setPipe p { x with recs := x.recs ++ [head ++ body], recSeq := (x.recSeq + 1) % 2 ^ 32 } s

/-- PIP_REC_CTL.REC_LEVEL (R244); 3 is reserved and acts as 0. -/
def recLevel (p : Nat) (s : State) : Nat :=
  let v := getF PipRecCtl.recLevel (pipLatched p 0x20 s)
  if v = 3 then 0 else v

def queueWhen (n p type pic : Nat) (body : List Byte) (s : State) : State :=
  if n ≤ recLevel p s then queueRecord p type pic body s else s

/-! ### Bodies -/

/-- ENC_PICTURE (R250). -/
def encPictureBody (x : Pic) : List Byte :=
  leBytes x.bytes 4 ++ leBytes x.bytesUnimp 4 ++ leInt (x.target / 8) 4 ++ leInt x.cpb 4 ++ leBytes x.picId 4
    ++ leBytes (x.kind + 8 * x.layer + (if x.field2 then 64 else 0)) 1 ++ leBytes x.nref 1
    ++ leBytes (if x.qpCount = 0 then 0 else 16 * x.qpSum / x.qpCount) 2 ++ leBytes x.qpMin 1 ++ leBytes x.qpMax 1
    ++ leBytes (x.rows.filter fun r => r.2.floored).length 2 ++ leBytes x.flags 4 ++ leBytes x.impMask 2
    ++ leBytes x.belayRuns 2 ++ leBytes x.srcLines 4 ++ leBytes x.ctuIntra 4 ++ leBytes x.ctuSkip 4
    ++ leBytes x.sseY 8 ++ leBytes x.sseC 8 ++ leBytes x.doneFrame 4 ++ leBytes x.doneLine 2 ++ zeros 2
    ++ leBytes x.seedState.toNat 4 ++ leBytes (crc32 x.data) 4 ++ zeros 32

/-- ENC_CTU (R251). -/
def encCtuBody (cx cy bits qp type depth : Nat) (roi : Int) (flags : Nat) (v : Int × Int) : List Byte :=
  leBytes cx 2 ++ leBytes cy 2 ++ leBytes bits 4 ++ leBytes qp 1 ++ leBytes (type % 4 + 4 * (depth % 8)) 1 ++ leInt roi 1
    ++ leBytes flags 1 ++ leInt v.1 2 ++ leInt v.2 2

/-- DEC_PICTURE (R315). -/
def decPictureBody (x : Pic) : List Byte :=
  leBytes x.held 4 ++ leBytes x.late 4 ++ leBytes x.picId 4 ++ leBytes x.kind 1 ++ leBytes x.nref 1
    ++ leBytes (if x.qpCount = 0 then 0 else 16 * x.qpSum / x.qpCount) 2 ++ leBytes x.qpMin 1 ++ leBytes x.qpMax 1
    ++ leBytes x.profile 1 ++ leBytes x.level 1 ++ leBytes x.flags 4 ++ leBytes (min x.events 65535) 2
    ++ leBytes (min x.supp 65535) 2 ++ leBytes x.concealed 4 ++ leBytes x.width 2 ++ leBytes x.height 2
    ++ leBytes x.belayRuns 2 ++ leBytes x.missing 1 ++ leBytes x.hash 1 ++ leBytes x.doneFrame 4 ++ leBytes x.doneLine 2
    ++ zeros 2 ++ leBytes x.emitPic 4 ++ leBytes (crc32 x.data) 4 ++ zeros 56

/-- DEC_CONFORM (R316). -/
def decConformBody (pers action : Nat) (e : EventIn) : List Byte :=
  leBytes e.code 2 ++ leBytes pers 1 ++ leBytes action 1 ++ leBytes e.x 2 ++ leBytes e.y 2 ++ leBytes e.bitOfs 8
    ++ leBytes e.value 4 ++ leBytes e.limit 4 ++ leBytes e.picId 4 ++ leBytes e.unit 2 ++ zeros 2

/-- DEC_CONCEAL (R317). -/
def decConcealBody (c : ConcealIn) (method src : Nat) : List Byte :=
  leBytes c.x 2 ++ leBytes c.y 2 ++ leBytes c.count 4 ++ leBytes c.cause 2 ++ leBytes method 1 ++ zeros 1 ++ leBytes src 4

/-- DEC_CTU (R318). -/
def decCtuBody (cx cy : Nat) (c : CtuIn) (qp events : Nat) : List Byte :=
  leBytes cx 2 ++ leBytes cy 2 ++ leBytes c.bits 4 ++ leBytes qp 1 ++ leBytes (c.mode % 32) 1 ++ leBytes (min events 255) 1 ++ zeros 1
    ++ leBytes c.mvx 2 ++ leBytes c.mvy 2

/-! ### The ring (R244 to R247) -/

/-- Size of the record ring; the reserved code 15 acts as 0 (R13). -/
def ringSize (p : Nat) (s : State) : Nat :=
  let n := getF PipRecCtl.recLog2sz (pipLatched p 0x20 s)
  2 ^ (16 + (if n = 15 then 0 else n))

def ringBase (p : Nat) (s : State) : Nat := (pipLatched p 0x24 s).toNat + 2 ^ 32 * (pipLatched p 0x28 s).toNat

/-- The DMA channel that writes a ring in host memory (R244). -/
def ringChan (p : Nat) (s : State) : Nat := getF PipRecCtl.recDma (pipLatched p 0x20 s)

/-- The ring lies in host memory. -/
def hostRing (p : Nat) (s : State) : Bool := (pipeEntry p s).map (·.recCarve) == some 0xFFFF

/-- Put bytes at offset `o` of the ring: in the record carve-out, or in host memory by channel REC_DMA with the identity of that
channel's domain (R131, R244). -/
def ringWrite (p o : Nat) (bytes : List Byte) (s : State) : State :=
  match pipeEntry p s with
  | none => s
  | some e =>
    if e.recCarve = 0xFFFF then emit (.hostWrite (chanDomain (ringChan p s) s) (ringBase p s + o) bytes false) s
    else
      match s.comp.carves[e.recCarve]? with
      | some c => writeBytes (c.base * unitSize + ringBase p s + o) bytes false s
      | none => s

/-- Set GAP (bit 15 of REC_PIPE) in a record. -/
def markGap (l : List Byte) : List Byte := l.mapIdx fun i b => if i = 3 then b ||| 0x80#8 else b

/-- The flushing read of a ring in host memory, behind the record at offset `o` (R245). -/
def ringFlush (p o : Nat) (s : State) : State :=
  if hostRing p s then emit (.flushRead (chanDomain (ringChan p s) s) (ringBase p s + o)) s else s

/-- A PAD record that fills `n` bytes before record `r`: the rest of its header repeats that of `r`, and more than 255 units of 16 B
are shown modulo 256 (assumption 171). -/
def padRecord (p n : Nat) (r : List Byte) : List Byte :=
  (leBytes 0 1 ++ leBytes (n / 16) 1 ++ leBytes p 2 ++ (r.drop 4).take 12 ++ zeros (n - 16)).take n

/-- RUNNING clears when a disabled pipeline has written its last record (R234). -/
def checkDrained (p : Nat) (s : State) : State :=
  let x := getPipe p s
  if x.draining ∧ pipeDrained x = true then
    setPipe p { x with draining := false } (fclr (Reg.pipStatus p) PipStatus.running s)
  else s

/-- A picture record's type: ENC_PICTURE or DEC_PICTURE. -/
def isPictureRecord (r : List Byte) : Bool := r.head? == some 0x01#8 || r.head? == some 0x10#8

/-- The ring lies in the frame store where an access waits (R370). -/
def ringWaits (p : Nat) (s : State) : Bool :=
  match pipeEntry p s with
  | none => false
  | some e =>
    match s.comp.carves[e.recCarve]? with
    | some c => someWait s && rangeWaits (c.base * unitSize + ringBase p s) (ringSize p s) s
    | none => false

/-- The next queued record is committed to the ring, or dropped where it does not fit (R245 to R247). Records bound for host
memory wait while the link is down (R522). -/
def recordCommit (p : Nat) (s : State) : State :=
  let x := getPipe p s
  match x.recs with
  | [] => s
  | r :: rest =>
    if curMode s = 5 ∨ (pipeEntry p s).isNone = true
        ∨ (hostRing p s = true ∧ s.pwr.linkUp = false) ∨ ringWaits p s = true then s
    else
      let size := ringSize p s
      let w := (rd (Reg.pipRecWr p) s).toNat
      let used := (w + 2 ^ 32 - (rd (Reg.pipRecRd p) s).toNat) % 2 ^ 32
      let o := w % size
      let pad := if size < o + r.length then size - o else 0
      let s1 := setPipe p { x with recs := rest } s
      if size < used + pad + r.length then
        checkDrained p (pipEvent p PipStatus.recDrop
          (bump (Reg.pipRecDrop p) PipRecDrop.pipRecDrop (onPipe p (fun y => { y with recGap := true }) s1)))
      else
        let at_ := if pad = 0 then o else 0
        let s2 := if pad = 0 then s1 else ringWrite p o (padRecord p pad r) s1
        let s3 := ringFlush p at_ (ringWrite p at_ (if x.recGap then markGap r else r) s2)
        let s4 := wr (Reg.pipRecWr p) (BitVec.ofNat 32 (w + pad + r.length)) (onPipe p (fun y => { y with recGap := false }) s3)
        checkDrained p (raiseWhen (fbit (Reg.pipCtl p) PipCtl.picIrq s && isPictureRecord r) (pipeSource p) s4)

end Sys2Proof.Machine
end

