-- ==== Sys2Proof/Machine/Video.lean ====
section
/-! DEFINITION. Emitted pictures (R294 to R297, R489, R494): conversion to 4:2:2, placement in the active area, fields, and the pixel groups
of ST 2110-20. -/

namespace Sys2Proof.Machine

open Sys2Proof

/-! ### Conversion (R294, R295) -/

/-- Row `k` of a plane, the nearest edge row outside it. -/
def rowNear (p : List (List Nat)) (k : Int) : List Nat := (p[min k.toNat (p.length - 1)]?).getD []

/-- A row of 4:2:2 chroma from a row of 4:2:0 and the one beside it. -/
def upRow (a b : List Nat) : List Nat := List.zipWith (fun x y => (3 * x + y + 2) / 4) a b

/-- 4:2:0 chroma rows to 4:2:2. -/
def upChroma (c : List (List Nat)) : List (List Nat) :=
  (List.range c.length).flatMap fun k : Nat =>
    [upRow (rowNear c k) (rowNear c (k - 1 : Int)), upRow (rowNear c k) (rowNear c (k + 1))]

/-- The rows of field `f` (0 the first) of a frame. -/
def fieldOf (f : Nat) (p : List (List Nat)) : List (List Nat) := (p.zipIdx.filter fun e => e.2 % 2 == f).map Prod.fst

/-- Two fields row by row. -/
def weave : List (List Nat) → List (List Nat) → List (List Nat)
  | a :: l, b :: m => a :: b :: weave l m
  | l, [] => l
  | [], m => m

/-- Treat each field of a frame by itself where it is interlaced. -/
def byFields (inter : Bool) (f : List (List Nat) → List (List Nat)) (p : List (List Nat)) : List (List Nat) :=
  if inter then weave (f (fieldOf 0 p)) (f (fieldOf 1 p)) else f p

/-- Sample `j` of a row, the nearest edge sample outside it. -/
def sampleNear (r : List Nat) (j : Int) : Nat := (r[min j.toNat (r.length - 1)]?).getD 0

/-- A row of 4:4:4 chroma to 4:2:2. -/
def narrowRow (r : List Nat) : List Nat :=
  (List.range (ceilDiv r.length 2)).map fun j : Nat =>
    (sampleNear r (2 * j - 1 : Int) + 2 * sampleNear r (2 * j) + sampleNear r (2 * j + 1) + 2) / 4

/-- Every sample of a plane. -/
def mapPlane (f : Nat → Nat) (p : List (List Nat)) : List (List Nat) := p.map fun r => r.map f

/-- YUV422_10 (R295) of a picture whose chroma is coded as StreamPic has it: 0 is 4:2:0, 1 is 4:2:2, 2 is 4:4:4, 3 is 4:0:0. Samples of 8 bits
are widened first (assumption 166). -/
def to422 (chroma : Nat) (inter : Bool) (p : Planes) : Planes :=
  let wide := fun q => if p.depth = 8 then mapPlane (· * 4) q else q
  let y := wide p.y
  let half := fun c => match chroma with
    | 0 => byFields inter upChroma (wide c)
    | 2 => (wide c).map narrowRow
    | 3 => y.map fun r => List.replicate (r.length / 2) 512
    | _ => wide c
  ⟨10, y, half p.cb, half p.cr⟩

/-! ### The cropped area and the active area (R296, R297) -/

def cropPlane (x y w h : Nat) (p : List (List Nat)) : List (List Nat) := ((p.drop y).take h).map fun r => (r.drop x).take w

/-- Chroma columns and rows for `n` luma ones. -/
def chromaW (chroma n : Nat) : Nat := match chroma with | 2 => n | 3 => 0 | _ => n / 2
def chromaH (chroma n : Nat) : Nat := match chroma with | 0 => n / 2 | 3 => 0 | _ => n

/-- The part of a picture inside the cropping that its stream signals. -/
def cropped (h : HeldPic) : Planes :=
  let c := cropPlane (chromaW h.chroma h.crop.1) (chromaH h.chroma h.crop.2) (chromaW h.chroma h.area.1) (chromaH h.chroma h.area.2)
  ⟨h.planes.depth, cropPlane h.crop.1 h.crop.2 h.area.1 h.area.2 h.planes.y, c h.planes.cb, c h.planes.cr⟩

/-- The chroma format of the picture as it is emitted. -/
def HeldPic.outChroma (h : HeldPic) : Nat := if h.fmt = 1 then 1 else h.chroma

/-- The samples of a held picture as DEC_OUT.FMT emits them. `inter` tells an interlaced domain. -/
def outPlanes (inter : Bool) (h : HeldPic) : Planes :=
  if h.fmt = 1 then to422 h.chroma (inter && !h.field) (cropped h) else cropped h

/-- A plane at the top left of `w` by `h` samples, `v` where it does not reach. -/
def placePlane (w h v : Nat) (p : List (List Nat)) : List (List Nat) :=
  (List.range h).map fun k =>
    let r := ((p[k]?).getD []).take w
    r ++ List.replicate (w - r.length) v

/-- A picture of chroma format `c` at the top left of an area, black where it does not reach; 4:0:0 has no chroma of its own, and its area takes
4:2:2. -/
def placePic (c w h : Nat) (p : Planes) : Planes :=
  let c' := if c = 3 then 1 else c
  let chroma := placePlane (chromaW c' w) (chromaH c' h) (blackC p.depth)
  ⟨p.depth, placePlane w h (blackY p.depth) p.y, chroma p.cb, chroma p.cr⟩

/-- Field `f` of a frame. -/
def fieldPlanes (f : Nat) (p : Planes) : Planes := ⟨p.depth, fieldOf f p.y, fieldOf f p.cb, fieldOf f p.cr⟩

/-- Active samples per line and lines of a frame, of domain `d`. -/
def activeW (d : Nat) (s : State) : Nat := fget (Reg.rckDomField d) RckDomField.domActSpl s
def activeH (d : Nat) (s : State) : Nat := fget (Reg.rckDomActive d) RckDomActive.domActLines s

/-- What a raster-bound port of domain `d` sends of a held picture: the active area, or on an interlaced domain its field, the second where
`second`. -/
def rasterPlanes (d : Nat) (second : Bool) (h : HeldPic) (s : State) : Planes :=
  let inter := domInterlaced d s
  let p := outPlanes inter h
  let c := h.outChroma
  if inter = false then placePic c (activeW d s) (activeH d s) p
  else if h.field then placePic c (activeW d s) (activeH d s / 2) p
  else fieldPlanes (if second then 1 else 0) (placePic c (activeW d s) (activeH d s) p)

/-- A picture in 16-bit containers, planar Y, Cb and Cr (R494). -/
def planeBytes (p : Planes) : List Byte := ((p.y ++ p.cb ++ p.cr).flatMap id).flatMap fun v => leBytes v 2

/-- A mid-grey picture, 4:2:2 at 10 bits (R293, R309). -/
def greyPlane (w h v : Nat) : List (List Nat) := List.replicate h (List.replicate w v)

/-- A mid-grey picture of a size, chroma format and depth. -/
def greyPlanes (chroma depth w h : Nat) : Planes :=
  let v := 2 ^ (depth - 1)
  let c := greyPlane (chromaW chroma w) (chromaH chroma h) v
  ⟨depth, greyPlane w h v, c, c⟩

/-! ### Lines of an emitted picture -/

/-- Active row `k` of what a raster-bound port sends, with its chroma row. -/
def rowSamples (p : Planes) (k : Nat) : LineIn :=
  let c := fun l : List (List Nat) => (l[k * l.length / max 1 p.y.length]?).getD []
  ⟨(p.y[k]?).getD [], c p.cb, c p.cr⟩

/-- The active row that raster line `line` of domain `d` carries, with whether it is of field 2; none in blanking. The lines of field 2 are laid
out as those of field 1 are (assumption 167). -/
def activeRow (d line : Nat) (s : State) : Option (Nat × Bool) :=
  let first := fget (Reg.rckDomActive d) RckDomActive.domFirstLine s
  let f2 := fget (Reg.rckDomField d) RckDomField.domF2Line s
  if domInterlaced d s = false then
    if first ≤ line ∧ line < first + activeH d s then some (line - first, false) else none
  else
    let o := if f2 ≤ line then line - f2 else line
    if first ≤ o ∧ o < first + activeH d s / 2 then some (o - first, decide (f2 ≤ line)) else none

/-! ### Pixel groups of ST 2110-20 (R489) -/

/-- Samples of `bits` bits one after the other, most significant first. -/
def packSamples (bits : Nat) (l : List Nat) : List Byte :=
  let n := ceilDiv (l.length * bits) 8
  (leBytes (l.foldl (fun a v => a * 2 ^ bits + v) 0 * 2 ^ (8 * n - l.length * bits)) n).reverse

/-- The order of samples in the pixel groups of a 4:2:2 line: Cb, Y0, Cr, Y1. -/
def group422 : List Nat → List Nat → List Nat → List Nat
  | a :: b :: y, u :: cb, v :: cr => u :: a :: v :: b :: group422 y cb cr
  | _, _, _ => []

/-- The order of samples in the pixel groups of two 4:2:0 lines: Y of the upper line, Y of the lower, Cb, Cr. -/
def group420 : List Nat → List Nat → List Nat → List Nat → List Nat
  | a :: b :: y, c :: d :: z, u :: cb, v :: cr => a :: b :: c :: d :: u :: v :: group420 y z cb cr
  | _, _, _, _ => []

/-- The bytes of each sample row of a field or frame in ST 2110-20: a line of 4:2:2, two lines of 4:2:0. -/
def sampleRows (sampling bits : Nat) (p : Planes) : List (List Byte) :=
  let fit := convertDepth p.depth bits
  let row := fun (l : List (List Nat)) k => ((l[k]?).getD []).map fit
  if sampling = 0 then
    (List.range p.y.length).map fun k => packSamples bits (group422 (row p.y k) (row p.cb k) (row p.cr k))
  else
    (List.range (p.y.length / 2)).map fun k =>
      packSamples bits (group420 (row p.y (2 * k)) (row p.y (2 * k + 1)) (row p.cb k) (row p.cr k))

end Sys2Proof.Machine
end

