-- ==== Sys2Proof/Machine/Lane.lean ====
section
/-! DEFINITION. Serial lanes (chapter "Serial lanes and the cascade ring"): MAC ports, SDI lanes, bring-up, forced
recalibration, PRBS generators and checkers. -/

namespace Sys2Proof.Machine

open Sys2Proof

/-! ### Ports of a complex (R442) -/

def macMode (m : Nat) (s : State) : Nat := fget (Reg.lanMacCtl m) LanMacCtl.mode s

/-- The lanes of port `j` of a complex in `mode`, within the complex; empty where the mode does not provide the port. -/
def portLanes (mode : Nat) (narrow : Bool) (j : Nat) : List Nat :=
  match mode, narrow with
  | 1, false => if j = 0 then [0, 1, 2, 3] else []
  | 2, false => if j = 0 then [0, 1] else if j = 1 then [2, 3] else []
  | 2, true => if j = 0 then [0, 1, 2, 3] else []
  | 3, false => if j < 4 then [j] else []
  | 3, true => if j = 0 then [0, 1] else if j = 2 then [2, 3] else []
  | 4, false => if j < 4 then [j] else []
  | _, _ => []

/-- The data rate of a port in Mb/s (R442). -/
def modeRate (mode : Nat) : Nat := match mode with | 1 => 400000 | 2 => 200000 | 3 => 100000 | 4 => 25000 | _ => 0

def portNarrow (m j : Nat) (s : State) : Bool := smGet false (4 * m + j) s.lanes.narrow

def portEn (m : Nat) (s : State) : Nat := fget (Reg.lanMacCtl m) LanMacCtl.portEn s

/-- The enabled port of complex `m` that holds lane `k` of the complex. -/
def portOfLane (m k : Nat) (s : State) : Option Nat :=
  (List.range 4).find? fun j => (portEn m s).testBit j && (portLanes (macMode m s) (portNarrow m j s) j).contains k

def sdiEnabled (l : Nat) (s : State) : Bool := fbit (Reg.lanLaneCtl l) LanLaneCtl.sdiEn s

/-- LAN_SDI_CTL of lane `l` as in use: read at enable. -/
def sdiCtl (l : Nat) (s : State) : Word := if sdiEnabled l s then smGet 0 l s.lanes.sdi else rd (Reg.lanSdiCtl l) s

/-- SDI lane `l` is lane 4g of a quad link (R446). -/
def sdiQuad (l : Nat) (s : State) : Bool := getF LanSdiCtl.quad (sdiCtl l s) == 1

/-- The lanes that come up with lane `l` (R449): its Ethernet port's, its quad link's, or itself. -/
def laneGroup (l : Nat) (s : State) : List Nat :=
  if l < 32 then
    match portOfLane (l / 4) (l % 4) s with
    | some j => (portLanes (macMode (l / 4) s) (portNarrow (l / 4) j s) j).map (· + 4 * (l / 4))
    | none => []
  else if l < 48 then
    let q := l - (l - 32) % 4
    if sdiEnabled q s ∧ sdiQuad q s = true then [q, q + 1, q + 2, q + 3]
    else if sdiEnabled l s then [l] else []
  else [l]

/-- The first lane of the group. -/
def laneHead (l : Nat) (s : State) : Nat := match laneGroup l s with | h :: _ => h | [] => l

def laneState (l : Nat) (s : State) : Nat := fget (Reg.lanLaneStatus l) LanLaneStatus.laneState s
def setLaneState (v l : Nat) (s : State) : State := fput (Reg.lanLaneStatus l) LanLaneStatus.laneState v s
/-- Step 3 begins for the lanes of the group (R449). -/
def adaptFrom (l : Nat) (s : State) : State :=
  { s with lanes := { s.lanes with since := smSet 0 (laneHead l s) s.now s.lanes.since } }
def groupState (v l : Nat) (s : State) : State := (laneGroup l s).foldl (fun a k => setLaneState v k a) s
def laneSource (l : Nat) : Nat := 384 + l
def laneRefuse (l code : Nat) (s : State) : State := fput (Reg.lanLaneStatus l) LanLaneStatus.laneRefuse code s

/-- The rate of an SDI standard in kb/s (R441), before a division by 1.001; AUTO has none of its own. -/
def sdiRate (std : Nat) : Nat :=
  match std with | 1 => 270000 | 2 => 1485000 | 3 => 2970000 | 4 => 5940000 | 5 => 11880000 | _ => 0

/-- The rate of a lane in kb/s (R441, R442), before a division by 1.001. -/
def laneRate (l : Nat) (s : State) : Nat :=
  if 48 ≤ l then 56000000
  else if 32 ≤ l then sdiRate (getF LanSdiCtl.std (sdiCtl l s))
  else
    match macMode (l / 4) s with
    | 0 => 0
    | 4 => 25781250
    | _ =>
      let narrow := match portOfLane (l / 4) (l % 4) s with | some j => portNarrow (l / 4) j s | none => false
      if narrow then 53125000 else 106250000

/-- The reference clock that a lane's rate needs (R441): 0 and 1 the two 156.25 MHz inputs, 2 148.5 MHz, 3 148.5 MHz / 1.001. -/
def laneClock (l : Nat) (s : State) : Nat :=
  if 48 ≤ l then 0
  else if 32 ≤ l then 2 + getF LanSdiCtl.frac (sdiCtl l s)
  else if l < 16 then 0 else 1

/-- A PAM4 lane (R441). -/
def lanePam4 (l : Nat) (s : State) : Bool :=
  let r := laneRate l s
  r == 106250000 || r == 53125000 || r == 56000000

/-- DFE taps in use (R453). -/
def dfeTaps (l : Nat) (s : State) : Nat :=
  match laneRate l s with | 106250000 => 12 | 53125000 => 8 | 56000000 => 8 | 25781250 => 5 | _ => 3

/-! ### Links -/

/-- The stream ports bound to MAC complex `m` (with MAC_PORT `j`), and to SDI lane `l` - 32. -/
def portsOfMac (m j : Nat) (s : State) : List Nat :=
  (s.comp.ports.filter fun e => e.kind == 0 && e.bind == m && fget (Reg.sptEncap e.port) SptEncap.macPort s == j).map (·.port)

def sdiBinds (bind l : Nat) : Bool :=
  if bind < 0x80 then bind == l - 32 else bind % 4 == (l - 32) / 4

def portsOfSdi (l : Nat) (s : State) : List Nat :=
  (s.comp.ports.filter fun e => e.kind == 1 && sdiBinds e.bind l).map (·.port)

def setTargetUp (up : Bool) (l : List Nat) (s : State) : State :=
  l.foldl (fun a n => fput (Reg.sptStatus n) SptStatus.targetUp (if up then 1 else 0) a) s

/-- The link of lane `l`'s port comes up: LINK_UP and its locks, TARGET_UP of the ports bound to it (R449). -/
def linkUpNow (l : Nat) (s : State) : State :=
  if l < 32 then
    match portOfLane (l / 4) (l % 4) s with
    | none => s
    | some j =>
      let m := l / 4
      let r := Reg.lanMacPortStatus m j
      let fec := macMode m s != 4 || (fget (Reg.lanMacCtl m) LanMacCtl.fec25 s).testBit j
      let s1 := fset r LanMacPortStatus.linkUp (fput r LanMacPortStatus.amLock (if macMode m s = 4 then 0 else 1)
        (fput r LanMacPortStatus.fecLock (if fec then 1 else 0) s))
      setTargetUp true (portsOfMac m j s1) s1
  else if l < 48 then setTargetUp true (portsOfSdi l s) s
  else s

/-- The link of lane `l`'s port goes down; where it was up, LINK_DOWN_EV and the first lane's source (R452, R482). -/
def linkDownNow (l : Nat) (s : State) : State :=
  if l < 32 then
    match portOfLane (l / 4) (l % 4) s with
    | none => s
    | some j =>
      let m := l / 4
      let r := Reg.lanMacPortStatus m j
      let s1 := fclr r LanMacPortStatus.amLock (fclr r LanMacPortStatus.fecLock s)
      if fbit r LanMacPortStatus.linkUp s then
        raise (laneSource (laneHead l s))
          (setTargetUp false (portsOfMac m j s) (fset r LanMacPortStatus.linkDownEv (fclr r LanMacPortStatus.linkUp s1)))
      else s1
  else if l < 48 then setTargetUp false (portsOfSdi l s) s
  else s

/-- Stream port `n` is enabled. -/
def sptEnabled (n : Nat) (s : State) : Bool := fbit (Reg.sptCtl n) SptCtl.enable s

/-- A lane is active (R455). -/
def laneActive (l : Nat) (s : State) : Bool :=
  if l < 32 then
    match portOfLane (l / 4) (l % 4) s with
    | none => false
    | some j => fbit (Reg.lanMacPortStatus (l / 4) j) LanMacPortStatus.linkUp s
        && (portsOfMac (l / 4) j s).any fun n => sptEnabled n s
  else if l < 48 then (portsOfSdi l s).any fun n => sptEnabled n s
  else let p := fget Reg.chipMode ChipMode.mittenPath s; p == 0 || p == 1

/-! ### Enables (R462) -/

/-- The modes in which lanes and ports may be enabled (R165). -/
def modeAllowsUnits (s : State) : Bool := released s

/-- A generator of one of these lanes is on. -/
def anyPrbs (l : List Nat) (s : State) : Bool := l.any fun k => fbit (Reg.lanPrbs k) LanPrbs.genEn s

/-- The check of port `j` of complex `m` (R462); `clk` tells which reference clocks run. 0 passes. -/
def macPortCheck (m j : Nat) (narrow : Bool) (clk : BitVec 4) (s : State) : Nat :=
  let mode := macMode m s
  if narrow ∧ (mode = 1 ∨ mode = 4) then 0xB1
  else if (portLanes mode narrow j).isEmpty then 0xB0
  else if !clk.getLsbD (laneClock (4 * m) s) then 0xB2
  else if anyPrbs ((portLanes mode narrow j).map (· + 4 * m)) s then 0xB5
  else if !modeAllowsUnits s then 0xB6
  else 0

/-- A write of PORT_EN bit `j`: set, it runs the check and starts the lanes; cleared, the lanes go off. -/
def macPortSet (m j : Nat) (on : Bool) (clk : BitVec 4) (s : State) : State :=
  let r := Reg.lanMacCtl m
  let en := portEn m s
  let was := en.testBit j
  if on ∧ was = false then
    let narrow := fbit r LanMacCtl.auiNarrow s
    let code := macPortCheck m j narrow clk s
    let s1 := fput (Reg.lanMacPortStatus m j) LanMacPortStatus.portRefuse code s
    if code = 0 then
      let s2 := fput r LanMacCtl.portEn (en + 2 ^ j) s1
      let s3 : State := { s2 with lanes := { s2.lanes with narrow := smSet false (4 * m + j) narrow s2.lanes.narrow } }
      ((portLanes (macMode m s) narrow j).map (· + 4 * m)).foldl (fun a k => setLaneState 1 k a) s3
    else s1
  else if on = false ∧ was = true then
    let ls := (portLanes (macMode m s) (portNarrow m j s) j).map (· + 4 * m)
    let s1 := match ls with | k :: _ => linkDownNow k s | [] => s
    let s2 := fput r LanMacCtl.portEn (en - 2 ^ j) s1
    ls.foldl (fun a k => wr (Reg.lanLaneStatus k)
      (rd (Reg.lanLaneStatus k) a &&& 0xFFF00018#32) a) s2
  else s

/-- A write to LAN_MAC_CTL (R442, R443, R462): FEC25 and AUI_NARROW first, then each port's bit. -/
def macCtlWrite (m : Nat) (v : Word) (clk : BitVec 4) (s : State) : State :=
  let s1 := fput (Reg.lanMacCtl m) LanMacCtl.fec25 (getF LanMacCtl.fec25 v)
    (fput (Reg.lanMacCtl m) LanMacCtl.auiNarrow (getF LanMacCtl.auiNarrow v) s)
  (List.range 4).foldl (fun a j => macPortSet m j ((getF LanMacCtl.portEn v).testBit j) clk a) s1

/-- SDI lane `l` is an output (LANES, R447). -/
def sdiIsOutput (l : Nat) (s : State) : Bool := s.comp.sdiOut.testBit (l - 32)

/-- The check of an SDI lane or quad link (R462). Whether a domain's geometry and rate are those of a standard is the SMPTE
standards' matter. -/
def sdiCheck (l : Nat) (clk : BitVec 4) (s : State) : Nat :=
  let std := fget (Reg.lanSdiCtl l) LanSdiCtl.std s
  let q := sdiQuad l s
  let head := l - (l - 32) % 4
  let d := fget (Reg.lanSdiCtl l) LanSdiCtl.dom s
  if std = 6 ∨ std = 7 ∨ (std = 0 ∧ sdiIsOutput l s = true) ∨ (q = true ∧ l ≠ head)
      ∨ (l ≠ head ∧ sdiEnabled head s = true ∧ sdiQuad head s = true) then 0xB1
  else if !clk.getLsbD (laneClock l s) then 0xB2
  else if sdiIsOutput l s ∧ (domValid d s = false ∨ Config.standardAdmits 0xB3 [std, fget (Reg.lanSdiCtl l) LanSdiCtl.frac s,
      rateNum d s, rateDen d s, totalLines d s, totalSpl d s] = false) then 0xB3
  else if anyPrbs (if q then [l, l + 1, l + 2, l + 3] else [l]) s then 0xB5
  else if !modeAllowsUnits s then 0xB6
  else 0

/-- Set or clear SDI_EN of lane `l`. -/
def sdiSet (l : Nat) (on : Bool) (clk : BitVec 4) (s : State) : State :=
  let was := sdiEnabled l s
  if on ∧ was = false then
    let code := sdiCheck l clk s
    let s1 := laneRefuse l code s
    if code = 0 then
      let s2 := fset (Reg.lanLaneCtl l) LanLaneCtl.sdiEn s1
      groupState 1 l { s2 with lanes := { s2.lanes with sdi := smSet 0 l (rd (Reg.lanSdiCtl l) s2) s2.lanes.sdi } }
    else s1
  else if on = false ∧ was = true then
    let ls := laneGroup l s
    let s1 := fclr (Reg.lanLaneCtl l) LanLaneCtl.sdiEn (linkDownNow l s)
    ls.foldl (fun a k => wr (Reg.lanLaneStatus k) (rd (Reg.lanLaneStatus k) a &&& 0xFFF00018#32) a) s1
  else s

/-- What the receiver of a lane adapts to is open: CTLE and the eye height (R453, R454). -/
def newEqualiser (k : Nat) (s : State) : State :=
  let s1 := stepFree (fput (Reg.lanRxEq k) LanRxEq.ctle (freeNat s) s)
  stepFree (fput (Reg.lanRxEq k) LanRxEq.eyeMv (freeNat s1) s1)

/-- Forced recalibration (R455 to R457): refused on an active lane; else the port's link drops and steps 3 to 6 run again. -/
def recalWrite (l : Nat) (s : State) : State :=
  if laneActive l s then laneRefuse l 0xE1 s
  else if laneState l s = 0 ∨ (laneGroup l s).isEmpty = true then s
  else
    let s1 := adaptFrom l (linkDownNow l (laneRefuse l 0 s))
    let s2 := (laneGroup l s).foldl (fun a k => newEqualiser k (setLaneState 3 k a)) s1
    { s2 with lanes := { s2.lanes with recal := if s2.lanes.recal.contains l then s2.lanes.recal else s2.lanes.recal ++ [l] } }

/-- A write to LAN_LANE_CTL: the polarity fields, then SDI_EN (SDI lanes only), then RECAL (R458 judges activity as it
stands when the RECAL is served). -/
def laneCtlWrite (l : Nat) (v : Word) (clk : BitVec 4) (s : State) : State :=
  let s1 := fput (Reg.lanLaneCtl l) LanLaneCtl.rxPolAuto (getF LanLaneCtl.rxPolAuto v)
    (fput (Reg.lanLaneCtl l) LanLaneCtl.rxInv (getF LanLaneCtl.rxInv v)
      (fput (Reg.lanLaneCtl l) LanLaneCtl.txInv (getF LanLaneCtl.txInv v) s))
  let s2 := if 32 ≤ l ∧ l < 48 then sdiSet l (decide (getF LanLaneCtl.sdiEn v = 1)) clk s1 else s1
  if getF LanLaneCtl.recal v = 1 then recalWrite l s2 else s2

/-! ### Bring-up (R449 to R452) -/

/-- A ring lane is at step 1 with the ring path through the device: the pass-through or the member powers it (R176, R178). -/
def ringLaneStarts (l : Nat) (s : State) : Bool :=
  decide (48 ≤ l) && laneState l s == 0 && decide (fget Reg.chipMode ChipMode.mittenPath s < 2)

/-- The PLLs lock and the group starts sending: step 2. -/
def lanePllLock (l : Nat) (s : State) : State :=
  if laneState l s = 1 ∨ ringLaneStarts l s = true then groupState 2 l s else s

/-- Signal can reach lane `l`: a ring lane sees none in the external path (R177). -/
def ringLaneLit (l : Nat) (s : State) : Bool := decide (l < 48) || decide (fget Reg.chipMode ChipMode.mittenPath s < 2)

/-- Signal on every receive lane: step 3, with clock recovery. -/
def laneSignal (l : Nat) (s : State) : State :=
  if laneState l s = 2 ∧ ringLaneLit l s = true then
    (laneGroup l s).foldl (fun a k => fset (Reg.lanLaneStatus k) LanLaneStatus.sigDet
      (fset (Reg.lanLaneStatus k) LanLaneStatus.cdrLock (setLaneState 3 k a))) (adaptFrom l s)
  else s

/-- Initial adaptation completes, and polarity is corrected in step 4 (R450, R453): the detected inversion, or RX_INV where
RX_POL_AUTO is 0; SDI lanes need none. The group goes on to step 5. -/
def laneAdapted (l : Nat) (inverted : Bool) (s : State) : State :=
  if laneState l s = 3 then
    (laneGroup l s).foldl (fun a k =>
      let auto := fbit (Reg.lanLaneCtl k) LanLaneCtl.rxPolAuto a
      let inv := if 32 ≤ k ∧ k < 48 then false else if auto then inverted else fbit (Reg.lanLaneCtl k) LanLaneCtl.rxInv a
      newEqualiser k (fput (Reg.lanRxEq k) LanRxEq.dfeTaps (dfeTaps k s)
        (fput (Reg.lanLaneStatus k) LanLaneStatus.rxInvDet (if inv then 1 else 0) (setLaneState 5 k a)))) s
  else s

/-- Step 5 locks: `logical` lists the logical lanes that the lanes of the group carry, in their order (R451); LINK_UP is set and the source
raised. -/
def laneAlignLock (l : Nat) (logical : List Nat) (s : State) : State :=
  if laneState l s = 5 then
    let s1 := ((laneGroup l s).zip logical).foldl (fun a e => fput (Reg.lanLaneStatus e.1) LanLaneStatus.logical e.2 a)
      (groupState 6 l s)
    raise (laneSource (laneHead l s)) (linkUpNow l s1)
  else s

/-- 500 ms have passed since step 3 began (R449). -/
def retryDue (l : Nat) (s : State) : Bool := decide (smGet 0 (laneHead l s) s.lanes.since + 800000000 ≤ s.now)

/-- Step 5 has not locked within 500 ms of step 3 beginning: back to step 3 (R449). -/
def laneRetry (l : Nat) (s : State) : State :=
  if 3 ≤ laneState l s ∧ laneState l s ≤ 5 ∧ retryDue l s = true then
    (laneGroup l s).foldl (fun a k => bump (Reg.lanLaneStatus k) LanLaneStatus.retryCnt (setLaneState 3 k a)) (adaptFrom l s)
  else s

/-- A lane loses lock after step 6 (R452). -/
def laneLockLost (l : Nat) (s : State) : State :=
  if laneState l s = 6 then
    let s1 := groupState 2 l (linkDownNow l s)
    let s2 := fclr (Reg.lanLaneStatus l) LanLaneStatus.cdrLock (fclr (Reg.lanLaneStatus l) LanLaneStatus.sigDet s1)
    raise (laneSource l)
      (bump (Reg.lanLockLostCnt l) LanLockLostCnt.lockLostCnt (fset (Reg.lanLaneStatus l) LanLaneStatus.lockLost s2))
  else s

/-- The forced recalibration completes (R457): what is left of steps 3 to 6 has rerun, the polarity as it was. -/
def recalDone (l : Nat) (s : State) : State :=
  if s.lanes.recal.contains l ∧ 3 ≤ laneState l s ∧ laneState l s ≤ 6 then
    let s1 : State := { s with lanes := { s.lanes with recal := s.lanes.recal.filter (· != l) } }
    let s2 := laneAlignLock l [] (laneAdapted l (fbit (Reg.lanLaneStatus l) LanLaneStatus.rxInvDet s) s1)
    raise (laneSource l) (fset (Reg.lanLaneStatus l) LanLaneStatus.recalDone s2)
  else s

/-! ### PRBS (R459 to R461) -/

/-- A pattern code in force: reserved codes act as PRBS7 (R13). -/
def prbsPattern (c : Nat) : Nat := if c ≤ 8 then c else 0

/-- A write to LAN_PRBS by domain `d`; `guarded` tells whether the key guard admits it. GEN_EN on an active lane needs the
key; a PAM4 pattern on an NRZ lane is refused with RATE_INVALID. -/
def prbsWrite (d l : Nat) (v : Word) (guarded : Bool) (s : State) : State :=
  let r := Reg.lanPrbs l
  let gen := decide (getF LanPrbs.genEn v = 1)
  let was := fbit r LanPrbs.genEn s
  if gen ∧ was = false ∧ laneActive l s = true ∧ guarded = false then accessErr d kindKey r s
  else if (6 ≤ prbsPattern (getF LanPrbs.genPat v) ∨ 6 ≤ prbsPattern (getF LanPrbs.chkPat v)) ∧ lanePam4 l s = false then
    laneRefuse l 0xB1 s
  else
    let chk := getF LanPrbs.chkEn v
    let s1 := fput r LanPrbs.chkPat (getF LanPrbs.chkPat v) (fput r LanPrbs.genPat (getF LanPrbs.genPat v)
      (fput r LanPrbs.chkEn chk (fput r LanPrbs.genEn (getF LanPrbs.genEn v) s)))
    let s2 := if chk = 0 then fclr r LanPrbs.chkLock s1 else s1
    if gen then setLaneState 7 l (linkDownNow l s2)
    else if was then setLaneState (if (laneGroup l s2).isEmpty then 0 else 2) l s2
    else s2

/-- The checker has seen `clean` error-free bits of its pattern: it locks after 64. -/
def checkerLock (l clean : Nat) (s : State) : State :=
  if fbit (Reg.lanPrbs l) LanPrbs.chkEn s ∧ 64 ≤ clean then fset (Reg.lanPrbs l) LanPrbs.chkLock s else s

/-- A locked checker has seen `errs` bit errors in 1,024 bits: they are counted, and with 64 it loses lock. -/
def checkerLoss (l errs : Nat) (s : State) : State :=
  if fbit (Reg.lanPrbs l) LanPrbs.chkLock s then
    let s1 := bumpBy errs (Reg.lanPrbsErr l) LanPrbsErr.prbsErr s
    if 64 ≤ errs then fclr (Reg.lanPrbs l) LanPrbs.chkLock s1 else s1
  else s

/-- A mesh cycle of a locked checker: it counts the bits that its lane's rate brings (R461). -/
def checkerCycle (s : State) (l : Nat) : State :=
  if fbit (Reg.lanPrbs l) LanPrbs.chkLock s then
    let r := laneRate l s
    bumpPair (s.now * r * 625 / 10 ^ 9 - (s.now - 1) * r * 625 / 10 ^ 9) (Reg.lanPrbsBitsLo l) (Reg.lanPrbsBitsHi l) s
  else s

/-- Line `line` of domain `d` as a lane sends it of a picture, black where there is none; nothing in blanking. -/
def sdiSamples (d line : Nat) (h : Option HeldPic) (s : State) : LineIn :=
  match activeRow d line s with
  | none => ⟨[], [], []⟩
  | some (k, second) =>
    rowSamples (match h with | some x => rasterPlanes d second x s | none => placePic 1 (activeW d s) (activeH d s) ⟨10, [], [], []⟩) k

/-- The pieces of `n` samples of a line whose place has parity `k`. -/
def everyOther (n k : Nat) : Nat → List Nat → List Nat
  | 0, _ => []
  | f + 1, l => if l.isEmpty then [] else (if k = 0 then l.take n else []) ++ everyOther n (1 - k) f (l.drop n)

/-- The part of a line that one link of a quad link carries: every other pair of luma samples, with its chroma (R446). -/
def pairsOf (k : Nat) (x : LineIn) : LineIn :=
  let n := if x.cb.length = x.y.length then 2 else 1
  ⟨everyOther 2 k x.y.length x.y, everyOther n k x.cb.length x.cb, everyOther n k x.cr.length x.cr⟩

/-- The place of a lane in its quad link, none where it runs alone. -/
def quadPlace (l : Nat) (s : State) : Option Nat := if (laneGroup l s).length = 4 then some ((l - 32) % 4) else none

/-- What lane `l` sends at line `line` of domain `d`: a lane alone the line; a lane of a quad link, of each two lines the one of its link, links 1
and 2 taking the first and 3 and 4 the second, and of it the pairs of its link (R446; two-sample interleave, assumption 181). -/
def sdiLaneSamples (l d line : Nat) (h : Option HeldPic) (s : State) : LineIn :=
  match quadPlace l s with
  | none => sdiSamples d line h s
  | some k => pairsOf (k % 2) (sdiSamples d (line / 2 * 2 + k / 2) h s)

/-- An enabled SDI output lane sends its next line (R448): the emitted picture of the port that feeds it, or black, with the ST 352 payload
identifier of the format (R510). -/
def sdiOutputLine (l : Nat) (s : State) : State :=
  if 32 ≤ l ∧ l < 48 ∧ (laneGroup l s).isEmpty = false ∧ sdiIsOutput l s = true ∧ 2 ≤ laneState l s ∧ curMode s ≠ 5 then
    let ctl := sdiCtl (laneHead l s) s
    let d := getF LanSdiCtl.dom ctl
    let line := (domPos d s).2.1
    let id := Config.payloadId ctl.toNat (match quadPlace l s with | some k => k + 1 | none => 0)
    match (portsOfSdi l s).find? fun n => sptEnabled n s with
    | some n =>
      let x := getPipe (fget (Reg.sptBind2 n) SptBind2.pipe s) s
      emit (.sdiLine l line (decide (x.lastEmit = 0)) (x.lastEmit - 1) id (sdiLaneSamples l d line x.lastOut s)) s
    | none => emit (.sdiLine l line true 0 id (sdiLaneSamples l d line none s)) s
  else s

end Sys2Proof.Machine
end

