-- ==== Sys2Proof/Machine/Depacket.lean ====
section
/-! DEFINITION. What a received frame says: Ethernet, IP, UDP and RTP headers (R496, R497), the payload formats of the codecs (R491), the MPEG-2
transport stream (R492) and ST 2110-20 (R489). The formats are those of the standards that the rules name (assumptions 168 and 183). -/

namespace Sys2Proof.Machine

open Sys2Proof

/-! ### Bytes -/

/-- `n` bytes of a number, most significant first. -/
def beBytes (v n : Nat) : List Byte := (leBytes v n).reverse

/-- The number that bytes spell, most significant first. -/
def beNum (l : List Byte) : Nat := l.foldl (fun a b => 256 * a + b.toNat) 0

/-- The number in `n` bytes from byte `i` on. -/
def numAt (l : List Byte) (i n : Nat) : Nat := beNum ((l.drop i).take n)

def byteAt (l : List Byte) (i : Nat) : Nat := ((l[i]?).getD 0).toNat

/-- Cut bytes into runs of at most `k`. -/
def cutBytes (k : Nat) : Nat → List Byte → List (List Byte)
  | 0, _ => []
  | f + 1, l => if l.isEmpty then [] else l.take k :: cutBytes k f (l.drop k)

/-- Big-endian words of 16 bits, added. -/
def sum16 : List Byte → Nat
  | a :: b :: l => 256 * a.toNat + b.toNat + sum16 l
  | [a] => 256 * a.toNat
  | [] => 0

/-- The Internet checksum of a sum of 16-bit words. -/
def inetSum (n : Nat) : Nat :=
  let f := fun v : Nat => v / 65536 + v % 65536
  65535 - f (f (f n))

/-- One bit of the CRC-32 of MPEG-2 Systems. -/
def mpegBit (c : Nat) : Nat := if c / 2 ^ 31 % 2 = 1 then (2 * c) % 2 ^ 32 ^^^ 0x04C11DB7 else 2 * c

def mpegByte (c : Nat) (b : Byte) : Nat := (List.range 8).foldl (fun v _ => mpegBit v) (c ^^^ (b.toNat * 2 ^ 24))

/-- CRC-32 of MPEG-2 Systems. -/
def mpegCrc (l : List Byte) : Nat := l.foldl mpegByte 0xFFFFFFFF

/-! ### Ethernet, IP, UDP (R496, R497) -/

/-- The IP packet of a frame: its version, protocol, addresses with their bytes, whether it is a fragment, whether its header's checksum holds, and
what it carries. -/
structure IpIn where
  v6 : Bool
  proto : Nat
  src : Nat
  dst : Nat
  pair : List Byte
  fragment : Bool
  sumOk : Bool
  body : List Byte
  deriving DecidableEq, Repr

def parseIp4 (l : List Byte) : Option IpIn :=
  let h := 4 * (byteAt l 0 % 16)
  let total := numAt l 2 2
  if byteAt l 0 / 16 = 4 ∧ 20 ≤ h ∧ h ≤ total ∧ total ≤ l.length then
    some ⟨false, byteAt l 9, numAt l 12 4, numAt l 16 4, (l.drop 12).take 8, decide (numAt l 6 2 % 2 ^ 14 ≠ 0),
      inetSum (sum16 (l.take h)) == 0, (l.take total).drop h⟩
  else none

/-- Past the extension headers of IPv6: the protocol, whether there is a fragment header, and what follows. -/
def skipHeaders : Nat → Nat → List Byte → Nat × Bool × List Byte
  | 0, p, l => (p, false, l)
  | f + 1, p, l =>
    if p = 44 then (byteAt l 0, true, l.drop 8)
    else if p = 0 ∨ p = 43 ∨ p = 60 then skipHeaders f (byteAt l 0) (l.drop (8 * (byteAt l 1 + 1)))
    else (p, false, l)

def parseIp6 (l : List Byte) : Option IpIn :=
  let len := numAt l 4 2
  if byteAt l 0 / 16 = 6 ∧ 40 + len ≤ l.length then
    let r := skipHeaders 8 (byteAt l 6) ((l.drop 40).take len)
    some ⟨true, r.1, numAt l 8 16, numAt l 24 16, (l.drop 8).take 32, r.2.1, true, r.2.2⟩
  else none

/-- The UDP checksum of a datagram holds; over IPv4, 0 stands for none. -/
def udpSumHolds (ip : IpIn) : Bool :=
  let len := numAt ip.body 4 2
  decide (8 ≤ len ∧ len ≤ ip.body.length)
    && ((!ip.v6 && numAt ip.body 6 2 == 0) || inetSum (sum16 ip.pair + 17 + len + sum16 (ip.body.take len)) == 0)

/-- A frame from its destination address up to the FCS. -/
def parseFrame (l : List Byte) : FrameIn :=
  let tagged := numAt l 12 2 == 0x8100
  let o := if tagged then 16 else 12
  let body := l.drop (o + 2)
  let ip := match numAt l o 2 with | 0x0800 => parseIp4 body | 0x86DD => parseIp6 body | _ => none
  let vlan := if tagged then some (numAt l 14 2 % 4096) else none
  match ip with
  | some i =>
    ⟨numAt l 0 6, vlan, i.proto == 17, i.v6, i.fragment, i.sumOk, udpSumHolds i, i.src, i.dst, numAt i.body 0 2, numAt i.body 2 2, l,
      (i.body.take (numAt i.body 4 2)).drop 8⟩
  | none => ⟨numAt l 0 6, vlan, false, false, false, true, true, 0, 0, 0, 0, l, []⟩

/-! ### RTP (R487) -/

/-- The marker, sequence number, timestamp and payload of an RTP packet; none where it is none. -/
def parseRtp (l : List Byte) : Option (Bool × Nat × Nat × List Byte) :=
  let b := byteAt l 0
  let head := 12 + 4 * (b % 16)
  let ext := if b.testBit 4 then 4 + 4 * numAt l (head + 2) 2 else 0
  let pad := if b.testBit 5 then byteAt l (l.length - 1) else 0
  if b / 64 = 2 ∧ head + ext + pad ≤ l.length ∧ (b.testBit 5 = true → pad ≠ 0) then
    some ((byteAt l 1).testBit 7, numAt l 2 2, numAt l 4 4, (l.take (l.length - pad)).drop (head + ext))
  else none

/-! ### Payload formats of the codecs (R491) -/

/-- Bytes that stand before a unit in the byte stream: a start code before a NAL unit, nothing before an OBU. -/
def startCode (codec : Nat) : List Byte := if codec = 4 then [] else [0, 0, 0, 1]

/-- Units of a length of two bytes each, up to the end of a packet; none where the lengths do not agree with it. -/
def aggregated : Nat → List Byte → Option (List (List Byte))
  | 0, _ => none
  | f + 1, l =>
    if l.isEmpty then some []
    else
      let n := numAt l 0 2
      if n = 0 ∨ l.length < 2 + n then none
      else (aggregated f (l.drop (2 + n))).map fun r => (l.drop 2).take n :: r

/-- Runs of bytes with what they are. -/
abbrev Runs := List (List Byte × Piece)

/-- Whole NAL units, each after a start code. -/
def wholeNals (codec : Nat) (l : List (List Byte)) : Runs := [(l.flatMap fun u => startCode codec ++ u, .data)]

/-- A fragment of a NAL unit whose header is `head`, by the fragmentation header's bits. -/
def nalFragment (codec fu : Nat) (head rest : List Byte) : Option Runs :=
  if fu.testBit 7 && fu.testBit 6 then none
  else some [((if fu.testBit 7 then startCode codec ++ head else []) ++ rest, .fragment (fu.testBit 7) (fu.testBit 6))]

/-- An aggregation packet after its header. -/
def nalAggregate (codec : Nat) (l : List Byte) : Option Runs :=
  match aggregated (l.length + 1) l with
  | some (u :: us) => some (wholeNals codec (u :: us))
  | _ => none

/-- RFC 6184: single NAL unit packets, STAP-A and FU-A. -/
def avcPayload (l : List Byte) : Option Runs :=
  let t := byteAt l 0 % 32
  if 1 ≤ t ∧ t ≤ 23 then some (wholeNals 1 [l])
  else if t = 24 then nalAggregate 1 (l.drop 1)
  else if t = 28 ∧ 2 < l.length then
    nalFragment 1 (byteAt l 1) [BitVec.ofNat 8 (byteAt l 0 / 32 * 32 + byteAt l 1 % 32)] (l.drop 2)
  else none

/-- RFC 7798: single NAL unit packets, aggregation packets and fragmentation units. -/
def hevcPayload (l : List Byte) : Option Runs :=
  let t := byteAt l 0 / 2 % 64
  if l.length < 2 then none
  else if t < 48 then some (wholeNals 2 [l])
  else if t = 48 then nalAggregate 2 (l.drop 2)
  else if t = 49 ∧ 3 < l.length then
    nalFragment 2 (byteAt l 2) [BitVec.ofNat 8 (byteAt l 0 / 128 * 128 + byteAt l 2 % 64 * 2 + byteAt l 0 % 2), BitVec.ofNat 8 (byteAt l 1)]
      (l.drop 3)
  else none

/-- RFC 9328: as HEVC, with the type in the second byte. -/
def vvcPayload (l : List Byte) : Option Runs :=
  let t := byteAt l 1 / 8
  if l.length < 2 then none
  else if t < 28 then some (wholeNals 3 [l])
  else if t = 28 then nalAggregate 3 (l.drop 2)
  else if t = 29 ∧ 3 < l.length then
    nalFragment 3 (byteAt l 2) [BitVec.ofNat 8 (byteAt l 0), BitVec.ofNat 8 (byteAt l 2 % 32 * 8 + byteAt l 1 % 8)] (l.drop 3)
  else none

/-- A number in groups of seven bits, the lowest first, with the bytes it takes. -/
def leb128In : Nat → List Byte → Option (Nat × Nat)
  | f + 1, b :: l => if b.toNat < 128 then some (b.toNat, 1) else (leb128In f l).map fun r => (b.toNat % 128 + 128 * r.1, r.2 + 1)
  | _, _ => none

/-- The OBU elements of an AV1 packet; where `w` is not 0, that many are left and the last has no length. -/
def obuElements : Nat → Nat → List Byte → Option (List (List Byte))
  | 0, _, _ => none
  | f + 1, w, l =>
    if w = 1 then some [l]
    else if l.isEmpty then (if w = 0 then some [] else none)
    else
      match leb128In 8 l with
      | none => none
      | some (n, k) => if l.length < k + n then none else (obuElements f (w - 1) (l.drop (k + n))).map fun r => (l.drop k).take n :: r

/-- The AOMedia format: after the aggregation header, elements of which the first and the last may be fragments. -/
def av1Payload (l : List Byte) : Option Runs :=
  let h := byteAt l 0
  match obuElements (l.length + 1) (h / 16 % 4) (l.drop 1) with
  | some (u :: us) =>
    let n := us.length
    if h.testBit 7 && h.testBit 3 then none
    else some ((u :: us).mapIdx fun i e =>
      let first := i != 0 || !h.testBit 7
      let last := i != n || !h.testBit 6
      (e, if first && last then .data else .fragment first last))
  | _ => none

/-- The runs of a codec's RTP payload; none where its header is malformed, or of a mode that is not taken. -/
def codecPayload (codec : Nat) (l : List Byte) : Option Runs :=
  match codec with
  | 1 => avcPayload l
  | 2 => hevcPayload l
  | 3 => vvcPayload l
  | 4 => av1Payload l
  | _ => none

/-! ### The transport stream (R492) -/

/-- A TS packet's payload and head; none where its sync byte or a length is wrong. -/
def tsPacketIn (l : List Byte) : Option (List Byte × Piece) :=
  let c := byteAt l 3
  let a := if c.testBit 5 then 1 + byteAt l 4 else 0
  if byteAt l 0 ≠ 0x47 ∨ l.length ≠ 188 ∨ 184 < a then none
  else
    some (if c.testBit 4 then l.drop (4 + a) else [],
      .ts ⟨numAt l 1 2 % 2 ^ 13, (byteAt l 1).testBit 6, c % 16, decide (2 ≤ a) && (byteAt l 5).testBit 7, c.testBit 4⟩)

/-- The TS packets of a datagram. -/
def tsPayload (l : List Byte) : Option Runs :=
  (cutBytes 188 l.length l).foldr (fun k r => match tsPacketIn k, r with | some a, some b => some (a :: b) | _, _ => none) (some [])

/-! ### ST 2110-20 (R489) -/

/-- Pixel groups of ST 2110-20: bytes of one, by sampling and depth (assumption 22). -/
def pgroupBytes (sampling depth : Nat) : Nat :=
  match sampling, depth with
  | 0, 0 => 4 | 0, 1 => 5 | 0, _ => 6 | _, 0 => 6 | _, 1 => 15 | _, _ => 9

/-- Columns that a pixel group spans. -/
def pgroupPixels (sampling depth : Nat) : Nat := if sampling = 1 ∧ depth = 1 then 4 else 2

/-- Bits of a sample, by the code of SPT_2110.DEPTH. -/
def depthBits (depth : Nat) : Nat := match depth with | 0 => 8 | 1 => 10 | _ => 12

/-- Samples of `bits` bits one after the other, most significant first. -/
def bitSamples (bits : Nat) (l : List Byte) : List Nat :=
  let v := beNum l
  let n := 8 * l.length / bits
  (List.range n).map fun i => v / 2 ^ (8 * l.length - bits * (i + 1)) % 2 ^ bits

/-- Samples of 4:2:2 groups, as a line. -/
def line422 : List Nat → LineIn
  | u :: a :: v :: b :: l => let r := line422 l; ⟨a :: b :: r.y, u :: r.cb, v :: r.cr⟩
  | _ => ⟨[], [], []⟩

/-- Samples of 4:2:0 groups: the upper line with the chroma, and the lower. -/
def line420 : List Nat → LineIn × List Nat
  | a :: b :: c :: d :: u :: v :: l => let r := line420 l; (⟨a :: b :: r.1.y, u :: r.1.cb, v :: r.1.cr⟩, c :: d :: r.2)
  | _ => (⟨[], [], []⟩, [])

/-- The samples of a sample row segment: row, second field, first sample, samples. -/
def segmentLines (sampling depth row : Nat) (second : Bool) (x : Nat) (l : List Byte) : List (Nat × Bool × Nat × LineIn) :=
  let v := ((cutBytes (pgroupBytes sampling depth) l.length l).map (bitSamples (depthBits depth))).flatten
  if sampling = 0 then [(row, second, x, line422 v)]
  else
    let r := line420 v
    [(row, second, x, r.1), (row + 1, second, x, ⟨r.2, [], []⟩)]

/-- The sample row data headers of a packet (length, row, second field, first sample), and what follows them. -/
def rowHeadersIn : Nat → List Byte → Option (List (Nat × Nat × Bool × Nat) × List Byte)
  | 0, _ => none
  | f + 1, l =>
    if l.length < 6 then none
    else
      let h := (numAt l 0 2, numAt l 2 2 % 2 ^ 15, (byteAt l 2).testBit 7, numAt l 4 2 % 2 ^ 15)
      if (byteAt l 4).testBit 7 then (rowHeadersIn f (l.drop 6)).map fun r => (h :: r.1, r.2) else some ([h], l.drop 6)

/-- The segments of a packet from its headers; none where one is not of whole pixel groups of the format, or the packet ends before it. -/
def segmentsIn (sampling depth : Nat) : List (Nat × Nat × Bool × Nat) → List Byte → Option (List (Nat × Bool × Nat × LineIn))
  | [], _ => some []
  | (n, row, second, x) :: hs, l =>
    if l.length < n ∨ n % pgroupBytes sampling depth ≠ 0 ∨ x % pgroupPixels sampling depth ≠ 0 then none
    else (segmentsIn sampling depth hs (l.drop n)).map fun r => segmentLines sampling depth row second x (l.take n) ++ r

/-- The samples of an ST 2110-20 payload after the extended sequence number. -/
def videoPayload (sampling depth : Nat) (l : List Byte) : Option (List (Nat × Bool × Nat × LineIn)) :=
  match rowHeadersIn 4 (l.drop 2) with
  | some (hs, data) => segmentsIn sampling depth hs data
  | none => none

/-! ### A packet (R489, R491, R492) -/

/-- Runs as the bytes of a packet's buffers. -/
def ofRuns (marker : Bool) (ts seq : Nat) (r : Runs) : PacketIn :=
  ⟨marker, ts, seq, (r.map Prod.fst).flatten, r.map fun e => (e.1.length, e.2), [], 0⟩

/-- A packet of an encapsulation: its UDP payload read, by the pipeline's codec and the format of SPT_2110. None where it is no RTP packet. -/
def parsePacket (encap codec sampling depth : Nat) (payload : List Byte) : Option PacketIn :=
  match parseRtp payload with
  | none => none
  | some (marker, seq, ts, body) =>
    if encap = 1 then
      let seq' := numAt body 0 2 * 2 ^ 16 + seq
      match videoPayload sampling depth body with
      | some v => some ⟨marker, ts, seq', body, [], v, 0⟩
      | none => some ⟨marker, ts, seq', body, [], [], 1⟩
    else
      match if encap = 3 then tsPayload body else codecPayload codec body with
      | some r => some (ofRuns marker ts seq r)
      | none => some ⟨marker, ts, seq, body, [], [], if encap = 3 then 0x1004 else 0x1002⟩

/-- The number nearest to `last` that is `v` modulo `m`; the first of all is one modulus up, so that earlier ones have a place. -/
def unwrap (m v : Nat) : Option Nat → Nat
  | none => m + v
  | some last =>
    let d := (v + m - last % m) % m
    if d < m / 2 ∨ last + d < m then last + d else last + d - m

end Sys2Proof.Machine
end

