-- ==== Sys2Proof/Machine/Ingest.lean ====
section
/-! DEFINITION. What stream ports share (R483 to R485, R518), and the ingress side up to the pipelines (R283, R288, R493 to
R501): coded data into pool buffers, video lines into capture, classification, policing, merges, host rings. -/

namespace Sys2Proof.Machine

open Sys2Proof

/-! ### Ports -/

def getPort (n : Nat) (s : State) : Port := smGet Port.init n s.ports
def setPort (n : Nat) (x : Port) (s : State) : State := { s with ports := smSet Port.init n x s.ports }
def onPort (n : Nat) (f : Port → Port) (s : State) : State := setPort n (f (getPort n s)) s

def portEntry (n : Nat) (s : State) : Option PortEntry := s.comp.ports.find? fun e => e.port == n

/-- A register of port `n` as read at its enable (R485), by its offset in the window. -/
def latched (n o : Nat) (s : State) : Word := smGet 0 o (getPort n s).latched

def portEncap (n : Nat) (s : State) : Nat := getF SptEncap.encap (latched n 0x10 s)
def portStream (n : Nat) (s : State) : Nat := getF SptRingHr.ringStream (latched n 0x58 s)

/-- Owner ID of port `n` (R402). -/
def portOwner (n : Nat) : Nat := 2048 + n

/-- The port takes traffic: enabled, or stopping at its next frame boundary (R517), and not in SAFE. -/
def portTakes (n : Nat) (s : State) : Bool := (sptEnabled n s || (getPort n s).stopping) && curMode s != 5

/-- An event bit of SPT_STATUS is set; newly set with its IRQ_EN bit, it raises the group's source (R518). -/
def sptEvent (n : Nat) (f : Fld) (s : State) : State :=
  let new := !fbit (Reg.sptStatus n) f s && (fget (Reg.sptCtl n) SptCtl.irqEn s).testBit f.lo
  raiseWhen new (448 + n / 16) (fset (Reg.sptStatus n) f s)

/-- PEND of group `g`, from the event bits and enables of its ports (R518). -/
def groupPend (g : Nat) (s : State) : Nat :=
  (List.range 16).foldl (fun a k =>
    let n := 16 * g + k
    if (rd (Reg.sptStatus n) s).toNat % 128 &&& fget (Reg.sptCtl n) SptCtl.irqEn s = 0 then a else a + 2 ^ k) 0

def dropOther (n : Nat) (s : State) : State := bump (Reg.sptDropOther n) SptDropPol.count s

/-- Count a packet of `wire` bytes received or sent. -/
def countPacket (n wire : Nat) (s : State) : State :=
  bumpPair wire (Reg.sptBytesLo n) (Reg.sptBytesHi n) (bumpPair 1 (Reg.sptPktsLo n) (Reg.sptPktsHi n) s)

/-! ### Bytes into pool buffers -/

/-- Take buffers of pool `k` for `who` and write `bytes` to them, as many as they need: the buffers with the bytes in each,
or none where an ALLOC fails, with what was taken given back. -/
def placeBytes (k who : Nat) (live : Bool) : Nat → List Byte → State → Option (List (Nat × Nat)) × State
  | 0, _, s => (some [], s)
  | f + 1, bytes, s =>
    if bytes.isEmpty then (some [], s)
    else
      let size := 2 ^ (poolEntry k s).log2
      match allocBuf k who who live s with
      | ((0, n), s1) =>
        let now := bytes.take size
        let s2 := writeBytes (bufAddr k n s1) now false s1
        match placeBytes k who live f (bytes.drop size) s2 with
        | (some l, s3) => (some ((n, now.length) :: l), s3)
        | (none, s3) => (none, unitFree n who s3)
      | (_, s1) => (none, s1)

/-- All of some buffers. -/
def wholeSegs (bufs : List (Nat × Nat)) : List Seg := bufs.map fun b => ⟨b.1, 0, b.2, true⟩

/-- The ranges of buffers, which hold bytes one after the other, that the `len` bytes from `off` on stand in. -/
def segsOf : List (Nat × Nat) → Nat → Nat → List Seg
  | [], _, _ => []
  | (b, n) :: rest, off, len =>
    let k := min len (n - off)
    (if k = 0 then [] else [⟨b, off, k, false⟩]) ++ segsOf rest (off - n) (len - k)

/-- The bytes of such ranges, each with its poison mark. -/
def readParts (parts : List Seg) (s : State) : List (Byte × Bool) × State :=
  parts.foldl (fun a g =>
    match poolOfBuf g.buf a.2 with
    | none => a
    | some k =>
      let r := readTagged 3 (bufAddr k g.buf a.2 + g.off) g.len a.2
      (a.1 ++ r.1, r.2)) ([], s)

def partBufs (parts : List (Nat × Nat)) : List Nat := parts.map Prod.fst

/-- The buffers that go back with such ranges. -/
def segBufs (parts : List Seg) : List Nat := (parts.filter (·.own)).map (·.buf)

/-- The port passes buffers on to pipeline `p` (R405). -/
def passParts (n p : Nat) (bufs : List Nat) (s : State) : State :=
  bufs.foldl (fun a b => (bufOp (.pass p) b (portOwner n) a).2) s

/-! ### Coded pictures at the decoder (R283 to R288) -/

/-- A transport event that names no CTU. -/
def transportEvent (code value : Nat) : EventIn := ⟨code, 0xFFFF, 0xFFFF, 0, value, 0, 0, 0, false⟩

/-- A loss the port reports: it waits for the next byte handed to the decoder (R288). Pool drops in a row are one event with
their count (R499). -/
def reportLoss (p : Nat) (e : EventIn) (s : State) : State :=
  onPipe p (fun x =>
    match x.losses.getLast? with
    | some l =>
      if l.code = 0x1006 ∧ e.code = 0x1006 then
        { x with losses := x.losses.dropLast ++ [{ l with value := l.value + e.value }] }
      else { x with losses := x.losses ++ [e] }
    | none => { x with losses := [e] }) s

/-- PE_FLAGS.SUB_PICTURE. -/
def subPicture (p : Nat) (s : State) : Bool := match pipeEntry p s with | some e => e.flags.testBit 2 | none => false

def updatePic (i : Nat) (f : Pic → Pic) (x : Pipe) : Pipe := { x with pics := x.pics.map fun q => if q.idx = i then f q else q }

/-- More bytes of the coded picture that picture `i` took, among what the decoder was given. -/
def extendStream (i : Nat) (l : List (Byte × Bool)) (ends : Bool) (x : Pipe) : Pipe :=
  match x.pics.find? fun q => q.idx == i with
  | none => x
  | some q => { x with stream := x.stream.mapIdx fun k e =>
      if k + 1 = q.stream then { e with bytes := e.bytes ++ l, whole := ends } else e }

/-- Bytes of picture `i`, taken while incomplete: in sub-picture mode they go on to the decode that waits for them (R287),
otherwise they are discarded and counted (R285). -/
def lateBytes (p i : Nat) (parts : List Seg) (ends : Bool) (s : State) : State :=
  let x := getPipe p s
  let waits := subPicture p s && x.pics.any fun q => q.idx == i && !q.whole
  let r := readParts parts s
  let s1 := unitFreeAll (segBufs parts) p r.2
  let n := r.1.length
  let done := fun y : Pipe => if ends then { y with lateFor := none } else y
  if waits then
    onPipe p (fun y => done (updatePic i (fun q => { q with held := q.held + n, whole := ends }) (extendStream i r.1 ends y))) s1
  else
    let s2 := onPipe p (fun y => done (updatePic i (fun q => { q with late := q.late + n }) y)) s1
    if n = 0 then s2 else decEvent p DecStatus.lateData (bumpBy n (Reg.decLateBytes p) ⟨0, 32⟩ s2)

/-- Append a coded piece to the picture being received, or begin a new one (R283). -/
def appendCoded (parts : List Seg) (ends : Bool) (ts : Option Nat) (x : Pipe) : Pipe :=
  match x.coded.getLast? with
  | some c =>
    if c.whole then { x with coded := x.coded ++ [⟨parts, ends, ts, x.losses⟩], losses := [] }
    else
      { x with
        coded := x.coded.dropLast ++ [{ c with parts := c.parts ++ parts, whole := ends, losses := c.losses ++ x.losses }]
        losses := [] }
  | none => { x with coded := [⟨parts, ends, ts, x.losses⟩], losses := [] }

/-- The picture being received ends where another begins: at a new PES packet, or at a change of RTP timestamp (R283). -/
def delimit (starts : Bool) (ts : Option Nat) (x : Pipe) : Pipe :=
  let ended := fun t : Option Nat => starts || (t.isSome && ts.isSome && t != ts)
  let x1 : Pipe := match x.lateFor with | some (_, t) => if ended t then { x with lateFor := none } else x | none => x
  match x1.coded.getLast? with
  | some c => if !c.whole && ended c.ts then { x1 with coded := x1.coded.dropLast ++ [{ c with whole := true }] } else x1
  | none => x1

/-- Coded bytes in the ranges `parts`, whose buffers pipeline `p` now owns, reach the decoder. -/
def feedCoded (p : Nat) (parts : List Seg) (starts ends : Bool) (ts : Option Nat) (s : State) : State :=
  let s1 := onPipe p (delimit starts ts) s
  match (getPipe p s1).lateFor with
  | some (i, _) => lateBytes p i parts ends s1
  | none => onPipe p (appendCoded parts ends ts) s1

/-- An end mark: the picture being received is whole, and the one taken before its end has no more to come. -/
def endMark (p : Nat) (s : State) : State :=
  match (getPipe p s).lateFor with
  | some (i, _) => lateBytes p i [] true s
  | none => onPipe p (fun x => match x.coded.getLast? with
    | some c => { x with coded := x.coded.dropLast ++ [{ c with whole := true }] }
    | none => x) s

/-- The pool and pipeline of an ingress port, where its pipeline is an enabled decoder. -/
def decodeTarget (n : Nat) (s : State) : Option (Nat × Nat) :=
  match portEntry n s with
  | some e => if e.egress = false ∧ e.pipe < 1024 ∧ pipeDecodes e.pipe s = true ∧ pipeEnabled e.pipe s = true
    then some (e.pool, e.pipe) else none
  | none => none

/-- A fragmented unit is truncated at a gap, and later fragments of it are discarded (R288). -/
def cutUnit (k : Nat) (s : State) : State := onPort k (fun x => if x.unitOpen = 1 then { x with unitOpen := 2 } else x) s

/-- A failed ALLOC of live ingress: the packet is dropped (R499). -/
def poolDrop (n : Nat) (s : State) : State :=
  let s1 := cutUnit n (sptEvent n SptStatus.poolDropEv (bump (Reg.sptDropPool n) SptDropPol.count s))
  match decodeTarget n s with
  | some (_, p) => reportLoss p (transportEvent 0x1006 1) s1
  | none => s1

/-! ### What a packet's runs are (R288, R303, R491, R492) -/

/-- A step of a packet's delivery: a transport event with its value, or ranges of its bytes for the decoder, whether a picture starts with them. -/
inductive InStep
  | event (code value : Nat)
  | bytes (parts : List Seg) (starts : Bool)
  deriving DecidableEq, Repr

/-- A unit ends or begins without its end or start (0x1005). -/
def brokenUnit (l : List Byte) : InStep := .event 0x1005 (Config.foundValue 0x1005 l)

/-- A whole unit, or part of one, in the `len` bytes `l` from `off` on: fragments whose start is not there are discarded. -/
def takeUnit (bufs : List (Nat × Nat)) (off : Nat) (l : List Byte) (first last : Bool) (x : Port) : List InStep × Port :=
  let part := InStep.bytes (segsOf bufs off l.length) false
  let y := fun o : Nat => { x with unitOpen := if last then 0 else o }
  if first then ((if x.unitOpen = 1 then [brokenUnit l] else []) ++ [part], y 1)
  else match x.unitOpen with
    | 1 => ([part], y 1)
    | 2 => ([], y 2)
    | _ => ([brokenUnit l], y 2)

/-- The PID of the PAT's first program, and of the first video stream of a PMT (R492): its stream types, and AV1 by its registration. -/
def patProgram (l : List Byte) : Option Nat :=
  let body := (l.take (l.length - 4)).drop 8
  (((cutBytes 4 body.length body).filter fun e => e.length == 4 && numAt e 0 2 != 0).map fun e => numAt e 2 2 % 2 ^ 13).head?

def hasAv1 : Nat → List Byte → Bool
  | f + 1, l => !l.isEmpty && (numAt l 0 6 == 0x050441563031 || hasAv1 f (l.drop (2 + byteAt l 1)))
  | 0, _ => false

def pmtVideo : Nat → List Byte → Option Nat
  | f + 1, l =>
    let n := numAt l 3 2 % 2 ^ 12
    let t := byteAt l 0
    if l.length < 5 then none
    else if t = 1 ∨ t = 2 ∨ t = 0x1B ∨ t = 0x24 ∨ t = 0x33 ∨ (t = 6 ∧ hasAv1 n ((l.drop 5).take n) = true) then some (numAt l 1 2 % 2 ^ 13)
    else pmtVideo f (l.drop (5 + n))
  | 0, _ => none

/-- A program section is whole: the PIDs that it tells. -/
def readSection (pid : Nat) (l : List Byte) (x : Port) : Port :=
  if mpegCrc l ≠ 0 ∨ (byteAt l 5).testBit 0 = false then x
  else if pid = 0 ∧ byteAt l 0 = 0 then { x with pmt := patProgram l }
  else if x.pmt = some pid ∧ byteAt l 0 = 2 then
    let body := (l.take (l.length - 4)).drop (12 + numAt l 10 2 % 2 ^ 12)
    { x with autoPid := pmtVideo body.length body }
  else x

/-- A TS packet of the program tables: the section goes on, or begins after the pointer. -/
def gatherSection (h : TsHead) (l : List Byte) (x : Port) : Port :=
  if h.pid ≠ 0 ∧ x.pmt ≠ some h.pid then x
  else
    let got := if h.starts then l.drop (1 + byteAt l 0) else smGet [] h.pid x.psi ++ l
    let n := 3 + numAt got 1 2 % 2 ^ 12
    if got.length < 3 ∨ got.length < n then { x with psi := smSet [] h.pid got x.psi }
    else readSection h.pid (got.take n) { x with psi := smSet [] h.pid [] x.psi }

/-- Where the start codes of access unit delimiters begin in `l`, which follows `tail` (0 where one began in the tail). -/
def delimiters (codec : Nat) (tail l : List Byte) : List Nat :=
  let w := tail ++ l
  let o := if codec = 3 then 4 else 3
  let aud := fun i => match codec with
    | 1 => byteAt w (i + 3) % 32 == 9
    | 2 => byteAt w (i + 3) / 2 % 64 == 35
    | 3 => byteAt w (i + 4) / 8 == 20
    | _ => false
  ((List.range w.length).filter fun i => decide (tail.length ≤ i + o ∧ i + o < w.length) && numAt w i 3 == 1 && aud i).map fun i =>
    (if i ≠ 0 ∧ byteAt w (i - 1) = 0 then i - 1 else i) - tail.length

/-- The bytes `i` to `len - 1` after `off`, cut at delimiters; the first run starts a picture where `starts`. -/
def cutPictures (bufs : List (Nat × Nat)) (off len : Nat) : Nat → Bool → List Nat → List InStep
  | i, starts, [] => [.bytes (segsOf bufs (off + i) (len - i)) starts]
  | i, starts, k :: ks =>
    (if k ≤ i then [] else [.bytes (segsOf bufs (off + i) (k - i)) starts]) ++ cutPictures bufs off len k true ks

/-- The bytes of a PES packet's header. -/
def pesLength (l : List Byte) : Nat := if numAt l 0 3 = 1 then 9 + byteAt l 8 else 0

/-- A TS packet of the video stream: its PES header is taken off, and delimiters begin pictures in it. -/
def takePes (codec : Nat) (bufs : List (Nat × Nat)) (off : Nat) (h : TsHead) (l : List Byte) (x : Port) : List InStep × Port :=
  let total := if h.starts then pesLength l else x.pesSkip
  let data := l.drop total
  let tail := if h.starts then [] else x.esTail
  let cuts := (delimiters codec tail data).filter fun k => !(h.starts && (data.take k).all (· == 0))
  let w := tail ++ data
  (if data.isEmpty && !h.starts then [] else cutPictures bufs (off + min total l.length) data.length 0 h.starts cuts,
    { x with pesSkip := total - l.length, esTail := w.drop (w.length - if codec = 3 then 4 else 3), inPic := true })

/-- A TS packet at a port whose video PID is `sel`, 0x1FFF for the first video stream of the first program: its continuity counter is checked, and one
that came twice is taken once. -/
def takeTs (codec sel : Nat) (bufs : List (Nat × Nat)) (off : Nat) (h : TsHead) (l : List Byte) (x : Port) : List InStep × Port :=
  let x1 := if sel = 0x1FFF then gatherSection h l x else x
  if (if sel = 0x1FFF then x1.autoPid else some sel) ≠ some h.pid then ([], x1)
  else
    match smFind h.pid x1.ccIn with
    | none =>
      let r := takePes codec bufs off h l { x1 with ccIn := smPut h.pid (h.cc, false) x1.ccIn }
      (if h.filled then r.1 else [], r.2)
    | some (c, twice) =>
      if h.filled = true ∧ h.cc = c ∧ twice = false ∧ h.jump = false then ([], { x1 with ccIn := smPut h.pid (c, true) x1.ccIn })
      else
        let want := if h.filled then (c + 1) % 16 else c
        let bad := !h.jump && h.cc != want
        let r := takePes codec bufs off h l { x1 with ccIn := smPut h.pid (h.cc, false) x1.ccIn }
        ((if bad then [.event 0x1003 h.pid] else []) ++ if h.filled then r.1 else [], r.2)

/-- The steps of a packet's runs, which follow one another in its buffers. -/
def takePieces (codec sel : Nat) (bufs : List (Nat × Nat)) : List Byte → Nat → List (Nat × Piece) → Port → List InStep × Port
  | _, _, [], x => ([], x)
  | bytes, off, (n, k) :: rest, x =>
    let l := bytes.take n
    let a := match k with
      | .data => takeUnit bufs off l true true x
      | .fragment first last => takeUnit bufs off l first last x
      | .ts h => takeTs codec sel bufs off h l x
    let r := takePieces codec sel bufs (bytes.drop n) (off + n) rest a.2
    (a.1 ++ r.1, r.2)

/-- A buffer goes back with the last range of it. -/
def ownLast (l : List Seg) : List Seg :=
  (l.foldr (fun g a => ({ g with own := !a.2.contains g.buf } :: a.1, g.buf :: a.2)) (([] : List Seg), ([] : List Nat))).1

/-- The same over a packet's steps. -/
def ownSteps : List InStep → List InStep
  | [] => []
  | .bytes g b :: l =>
    let later := l.flatMap fun e => match e with | .bytes k _ => k.map (·.buf) | .event _ _ => []
    .bytes ((ownLast g).map fun k => { k with own := k.own && !later.contains k.buf }) b :: ownSteps l
  | e :: l => e :: ownSteps l

/-! ### Delivery of accepted packets (R489, R499 to R501) -/

/-- The codec of the pipeline of a port. -/
def portCodec (p : Nat) (s : State) : Nat := codecOf (pipePers p s)

/-- An accepted packet at decoder `p`, of port `n` in the flow of port `k`: a packet with no use is reported and given back, other ones' bytes go on to the
decoder in the order in which they stand, and the marker ends the picture. -/
def deliverCoded (n k p : Nat) (r : PacketIn) (bufs : List (Nat × Nat)) (s : State) : State :=
  if r.fault ≠ 0 then reportLoss p (transportEvent r.fault (Config.foundValue r.fault r.bytes)) (unitFreeAll (partBufs bufs) (portOwner n) s)
  else
    let ends := r.marker && portEncap n s != 3
    let ts := if portEncap n s = 3 then none else some r.ts
    let d := takePieces (portCodec p s) (getF SptTs.pid (latched n 0x4C s)) bufs r.bytes 0 r.pieces (getPort k s)
    let steps := ownSteps d.1
    let used := steps.flatMap fun e => match e with | .bytes g _ => segBufs g | .event _ _ => []
    let s1 := unitFreeAll ((partBufs bufs).filter fun b => !used.contains b) (portOwner n)
      (setPort k { d.2 with inPic := if portEncap n s = 3 then d.2.inPic else !r.marker } s)
    let s2 := steps.foldl (fun a e => match e with
      | .event c v => reportLoss p (transportEvent c v) a
      | .bytes g starts => feedCoded p g starts false ts a) (passParts n p used s1)
    if ends then endMark p s2 else s2

/-- Rows of video that pipeline `p`'s domain has in a frame, or in a field where it is interlaced. -/
def videoRows (p : Nat) (s : State) : Nat :=
  let d := pipeDomain p s
  let h := fget (Reg.rckDomActive d) RckDomActive.domActLines s
  if domInterlaced d s then h / 2 else h

/-- The area of video samples agrees with the domain of pipeline `p` (R489). -/
def videoInside (p : Nat) (l : List (Nat × Bool × Nat × LineIn)) (s : State) : Bool :=
  l.all fun e => decide (e.1 < videoRows p s)
    && decide (e.2.2.1 + e.2.2.2.y.length ≤ fget (Reg.rckDomField (pipeDomain p s)) RckDomField.domActSpl s)

/-- The line of the captured picture that row `r` of a field, or frame, is. -/
def videoLine (p r : Nat) (second : Bool) (s : State) : Nat :=
  if domInterlaced (pipeDomain p s) s && !fieldsApart p s then 2 * r + if second then 1 else 0 else r

/-- What tells the input frame or field of a packet: its timestamp, and the field of its samples (R194). -/
def frameMark (r : PacketIn) : Nat := 2 * r.ts + if r.video.any fun e => e.2.1 then 1 else 0

/-- Samples of uncompressed video reach pipeline `p` (R489, R192); a frame or field begins where its mark changes (R194). -/
def deliverVideo (n k p : Nat) (r : PacketIn) (bufs : List (Nat × Nat)) (s : State) : State :=
  let s1 := unitFreeAll (partBufs bufs) (portOwner n) s
  if r.fault ≠ 0 ∨ videoInside p r.video s = false then dropOther n s1
  else
    let fresh := (getPort k s).rtpTs != some (frameMark r)
    let s2 := onPort k (fun x => { x with rtpTs := some (frameMark r) }) s1
    let s3 := if fresh then inputFrameStart p (r.video.any fun e => e.2.1) s2 else s2
    r.video.foldl (fun a e => captureLine p (videoLine p e.1 e.2.1 a) e.2.2.1 e.2.2.2 a) s3

/-- A gap of `lost` packets before the next one of the flow of port `k` (R288, R500, R501), counted and reported. -/
def seqGap (k lost : Nat) (s : State) : State :=
  if lost = 0 then s
  else
    let s1 := cutUnit k (sptEvent k SptStatus.seqLossEv (bumpBy lost (Reg.sptLoss k) SptDropPol.count s))
    match decodeTarget k s with
    | some (_, p) => reportLoss p (transportEvent 0x1001 lost) s1
    | none => s1

/-- Hand an accepted packet of port `n` with its buffers to the pipeline, in the flow of port `k`. -/
def deliverPacket (n k : Nat) (r : PacketIn) (bufs : List (Nat × Nat)) (s : State) : State :=
  match portEntry n s with
  | none => s
  | some e => if portEncap n s = 1 then deliverVideo n k e.pipe r bufs s else deliverCoded n k e.pipe r bufs s

/-! ### Merges (R500) -/

def mergePartner (n : Nat) (s : State) : Option Nat :=
  match portEntry n s with | some e => if e.pair < 1024 then some e.pair else none | none => none

/-- The port whose state the flow of port `n` has: the lower one of partners. -/
def flowPort (n : Nat) (s : State) : Nat := match mergePartner n s with | some m => min n m | none => n

/-- SPT_MERGE.MERGE_US in mesh cycles. -/
def mergeCycles (n : Nat) (s : State) : Nat := 1600 * orIf0 1000 (fget (Reg.sptMerge n) SptMerge.mergeUs s)

/-- Insert by rising sequence number. -/
def mergeInsert (m : MergeIn) : List MergeIn → List MergeIn
  | [] => [m]
  | h :: t => if m.seq < h.seq then m :: h :: t else h :: mergeInsert m t

/-- Deliver what the merge kept at port `k` holds in sequence. -/
def mergeDrain (k : Nat) : Nat → State → State
  | 0, s => s
  | fuel + 1, s =>
    let x := getPort k s
    match x.merge, x.nextSeq with
    | m :: rest, some q =>
      if m.seq = q then
        mergeDrain k fuel
          (deliverPacket m.port k m.packet m.bufs (setPort k { x with merge := rest, nextSeq := some (q + 1) } s))
      else s
    | _, _ => s

/-- A packet of a merge partner: the first arrival of a number is kept, a later copy is freed and counted. -/
def mergeArrive (n k seq : Nat) (r : PacketIn) (bufs : List (Nat × Nat)) (s : State) : State :=
  let x := getPort k s
  let old := (match x.nextSeq with | some q => decide (seq < q) | none => false) || x.merge.any fun m => m.seq == seq
  if old then bump (Reg.sptMergeDup n) SptDropPol.count (unitFreeAll (partBufs bufs) (portOwner n) s)
  else
    let x1 : Port := { x with merge := mergeInsert ⟨seq, r, n, bufs, s.now⟩ x.merge, nextSeq := some (x.nextSeq.getD seq) }
    mergeDrain k (x1.merge.length + 1) (setPort k x1 s)

/-- The merge at port `k` has held a packet MERGE_US since its arrival. -/
def mergeDue (k : Nat) (s : State) : Bool := (getPort k s).merge.any fun m => decide (m.since + mergeCycles m.port s ≤ s.now)

/-- As long as it has, the numbers missing before its first packet are lost, and delivery goes on (R500). -/
def mergeExpire (k : Nat) : Nat → State → State
  | 0, s => s
  | fuel + 1, s =>
    let x := getPort k s
    match x.merge, x.nextSeq with
    | h :: _, some q =>
      if mergeDue k s then
        mergeExpire k fuel (mergeDrain k (x.merge.length + 1) (seqGap k (h.seq - q) (setPort k { x with nextSeq := some h.seq } s)))
      else s
    | _, _ => s

/-- The merge of port `n` gives up what has not come in time (R500). -/
def mergeTimeout (n : Nat) (s : State) : State :=
  if (mergePartner n s).isSome then
    let k := flowPort n s
    mergeExpire k (getPort k s).merge.length s
  else s

/-- A partner that receives no packet for MERGE_US while the other does shows it, once until the next packet (R500). -/
def pathLoss (n : Nat) (s : State) : State :=
  match mergePartner n s with
  | none => s
  | some m =>
    let x := getPort n s
    let t := mergeCycles n s
    if portTakes n s = true ∧ x.silent = false ∧ x.heard + t ≤ s.now ∧ s.now < (getPort m s).heard + t then
      sptEvent n SptStatus.pathLossEv (setPort n { x with silent := true } s)
    else s

/-! ### Policing (R498) -/

/-- Tokens one frame of `len` bytes takes, and the depth of the bucket, in millibits. -/
def frameTokens (len : Nat) : Nat := len * 8000
def bucketDepth (n : Nat) (s : State) : Nat := (rd (Reg.sptPolBurst n) s).toNat % 2 ^ 24 * 8000

/-- The policer's answer for a frame of `len` bytes: whether it is accepted, and the state after. -/
def police (n len : Nat) (s : State) : Bool × State :=
  if rd (Reg.sptPolRate n) s = 0 then (true, s)
  else
    let x := getPort n s
    if frameTokens len ≤ x.tokens then (true, setPort n { x with tokens := x.tokens - frameTokens len } s)
    else (false, sptEvent n SptStatus.polDropEv (bump (Reg.sptDropPol n) SptDropPol.count s))

/-- One microsecond of refill, once it has passed since the last. -/
def policerRefill (n : Nat) (s : State) : State :=
  if s.now < (getPort n s).tokenAt + 1600 then s
  else
    onPort n (fun x => { x with
      tokens := min (x.tokens + (rd (Reg.sptPolRate n) s).toNat) (bucketDepth n s)
      tokenAt := x.tokenAt + 1600 }) s

/-- Fill the bucket, at a write of rate or burst and at enable. -/
def policerFill (n : Nat) (s : State) : State := onPort n (fun x => { x with tokens := bucketDepth n s }) s

/-! ### MAC frames (R496 to R499) -/

/-- The 48-bit address of a pair of words laid out as SPT_DST_MAC. -/
def macAddr (lo hi : Word) : Nat := hi.toNat % 2 ^ 16 * 2 ^ 32 + lo.toNat

/-- A multicast or broadcast address: the lowest bit of its first byte is set. -/
def macGroup (a : Nat) : Bool := a.testBit 40

/-- The address in four latched words at offset `o`: an IPv4 address stands in word 0. -/
def ipAddr (n o : Nat) (v6 : Bool) (s : State) : Nat :=
  let w := fun k => (latched n (o + 4 * k) s).toNat
  if v6 then w 0 * 2 ^ 96 + w 1 * 2 ^ 64 + w 2 * 2 ^ 32 + w 3 else w 0

/-- The VLAN ID a port matches: 0 for untagged. -/
def portVid (n : Nat) (s : State) : Nat :=
  let w := latched n 0x10 s
  if getF SptEncap.vlanEn w = 1 then getF SptEncap.vid w else 0

/-- Frame `f` on port `j` of complex `m` matches ingress port `n` (R496, rule 3). -/
def portMatches (m j n : Nat) (f : FrameIn) (s : State) : Bool :=
  let v6 := fbit (Reg.sptCtl n) SptCtl.ipv6 s
  let udp := latched n 0x14 s
  match portEntry n s with
  | none => false
  | some e =>
    e.kind == 0 && !e.egress && e.bind == m && portTakes n s && f.isUdp && !f.fragment
      && getF SptEncap.macPort (latched n 0x10 s) == j && f.vlan.getD 0 == portVid n s && f.ipv6 == v6
      && f.dstIp == ipAddr n 0x18 v6 s && f.dstPort == getF SptUdp.dstPort udp
      && (!fbit (Reg.sptCtl n) SptCtl.srcFilt s
        || (f.srcIp == ipAddr n 0x28 v6 s && (getF SptUdp.srcPort udp == 0 || f.srcPort == getF SptUdp.srcPort udp)))

/-- The port a frame goes to: one with SRC_FILT 1 first (R496, rule 4). -/
def classify (m j : Nat) (f : FrameIn) (s : State) : Option Nat :=
  let l := (s.comp.ports.map (·.port)).filter fun n => portMatches m j n f s
  match l.find? fun n => fbit (Reg.sptCtl n) SptCtl.srcFilt s with
  | some n => some n
  | none => l.head?

/-- The enabled RAW_ETH port of MAC port (m, j) in a direction (R495). -/
def rawPort (m j : Nat) (egress : Bool) (s : State) : Option Nat :=
  (s.comp.ports.find? fun e => e.kind == 3 && e.egress == egress && portTakes e.port s && portEncap e.port s == 6
    && getF SptEncap.ctrlMac (latched e.port 0x10 s) == m && getF SptEncap.ctrlPort (latched e.port 0x10 s) == j).map (·.port)

/-- The packet that port `n` reads in a frame. -/
def portPacket (n p : Nat) (f : FrameIn) (s : State) : Option PacketIn :=
  let w := latched n 0x54 s
  parsePacket (portEncap n s) (portCodec p s) (getF Spt2110.sampling w) (getF Spt2110.depth w) f.payload

/-- A frame begins a new frame or picture, where a stopping port stops (R517). -/
def frameBoundary (n : Nat) (f : FrameIn) (s : State) : Bool :=
  let x := getPort (flowPort n s) s
  match portEntry n s with
  | none => true
  | some e =>
    if portEncap n s = 1 then match portPacket n e.pipe f s with | some r => x.rtpTs != some (frameMark r) | none => false
    else !x.inPic

/-- A packet of port `n` in its pool buffers: to the merge of its partners, or in order of arrival (R500, R501). -/
def acceptPacket (n : Nat) (r : PacketIn) (bufs : List (Nat × Nat)) (s : State) : State :=
  let m := if portEncap n s = 1 then 2 ^ 32 else 2 ^ 16
  match mergePartner n s with
  | some _ =>
    let k := flowPort n s
    mergeArrive n k (unwrap m r.seq (getPort k s).nextSeq) r bufs s
  | none =>
    let last := (getPort n s).lastSeq
    let q := unwrap m r.seq last
    let lost := match last with | some l => q - (l + 1) | none => 0
    deliverPacket n n r bufs (seqGap n lost (onPort n (fun x => { x with lastSeq := some (max q (last.getD 0)) }) s))

/-- A matched frame at ingress port `n` that the policer has accepted takes pool buffers (R499). One that is no RTP packet is dropped
(assumption 183). -/
def acceptFrame (n : Nat) (f : FrameIn) (s : State) : State :=
  match portEntry n s with
  | none => s
  | some e =>
    if e.pipe ≥ 1024 ∨ pipeEnabled e.pipe s = false then dropOther n s
    else
      match portPacket n e.pipe f s with
      | none => dropOther n s
      | some r =>
        match placeBytes e.pool (portOwner n) true (r.bytes.length + 1) r.bytes s with
        | (none, s1) => poolDrop n s1
        | (some bufs, s1) => acceptPacket n r bufs s1

/-- A frame for ingress port `n`: its checksums (R497), the policer (R498), and acceptance. -/
def portFrame (n : Nat) (f : FrameIn) (s : State) : State :=
  let len := f.bytes.length + 4
  if !sptEnabled n s && frameBoundary n f s then onPort n (fun x => { x with stopping := false }) s
  else
    let s1 := countPacket n (len + 20) (onPort n (fun x => { x with heard := s.now, silent := false }) s)
    let bad := !f.ipSumOk || !f.udpSumOk
    let s2 := if bad then sptEvent n SptStatus.csumEv (bump (Reg.sptCsumBad n) SptDropPol.count s1) else s1
    if !f.ipSumOk || (!f.udpSumOk && !fbit (Reg.sptCtl n) SptCtl.csumIgnore s) then s2
    else
      let r := police n len s2
      if r.1 then acceptFrame n f r.2 else r.2

/-- PTP messages on the PTP complex go to Base Camp (R496, rule 1). -/
def isPtp (m : Nat) (f : FrameIn) (s : State) : Bool :=
  s.comp.ptpMac == m && f.isUdp && !f.fragment && (f.dstPort == 319 || f.dstPort == 320)

/-- A frame received on MAC port (m, j). -/
def macFrame (m j : Nat) (f : FrameIn) (s : State) : State :=
  let t := 4 * m + j
  let unmatched := bump (Reg.schMacUnmatched t) SchMacUnmatched.count
  if isPtp m f s then s
  else if f.dstMac ≠ macAddr (rd (Reg.schMacAddrLo t) s) (rd (Reg.schMacAddrHi t) s) ∧ macGroup f.dstMac = false then unmatched s
  else
    match classify m j f s with
    | some n => portFrame n f s
    | none =>
      let s1 := unmatched s
      match rawPort m j false s with
      | some n => countPacket n (f.bytes.length + 24) (onPort n (fun x => { x with units := x.units ++ [⟨0, true, true, f.bytes, []⟩] }) s1)
      | none => s1

/-- A frame, from its destination address up to the FCS, with the FEC codewords corrected and uncorrectable since the frame before it
(LAN_MAC_PORTj_FEC_CORR, _UNCORR). -/
def macReceive (m j corr uncorr : Nat) (frame : List Byte) (s : State) : State :=
  if curMode s = 5 ∨ fbit (Reg.lanMacPortStatus m j) LanMacPortStatus.linkUp s = false then s
  else
    macFrame m j (parseFrame frame) (bumpBy uncorr (Reg.lanMacPortFecUncorr m j) LanMacPortFecCorr.count
      (bumpBy corr (Reg.lanMacPortFecCorr m j) LanMacPortFecCorr.count s))

/-! ### SDI lines (R445, R192) -/

/-- Line `y` of link `k` of a quad link: its pairs of luma samples, with their chroma, are every other pair of a line of the picture (R446;
two-sample interleave, assumption 181). -/
def linkLine (p y k : Nat) (l : LineIn) (s : State) : State :=
  let n := if l.cb.length = l.y.length then 2 else 1
  (List.range (l.y.length / 2)).foldl (fun a i =>
    captureLine p (2 * y + k / 2) (4 * i + 2 * (k % 2))
      ⟨(l.y.drop (2 * i)).take 2, (l.cb.drop (n * i)).take n, (l.cr.drop (n * i)).take n⟩ a) s

/-- A line received on SDI lane `l`: line `y` of a captured picture, or of the link of a quad link that the lane's payload identifier names,
whatever lane that is; the first of an input frame or of field 2 of it where `first` is set, which of a quad link its link 1 begins. -/
def sdiLine (l y : Nat) (first field2 : Bool) (line : LineIn) (s : State) : State :=
  match (s.comp.ports.find? fun e => e.kind == 1 && !e.egress && sdiBinds e.bind l && portTakes e.port s) with
  | none => s
  | some e =>
    if laneState l s ≠ 6 then s
    else if !sptEnabled e.port s && first then onPort e.port (fun x => { x with stopping := false }) s
    else if e.pipe ≥ 1024 ∨ pipeEnabled e.pipe s = false then dropOther e.port s
    else
      match quadPlace l s with
      | none => captureLine e.pipe y 0 line (if first then inputFrameStart e.pipe field2 s else s)
      | some _ =>
        let k := (Config.payloadLink (rd (Reg.lanSdiPayload l) s)).val
        linkLine e.pipe y k line (if first && k == 0 then inputFrameStart e.pipe field2 s else s)

/-! ### Ring cells (R477, R493) -/

/-- An SDI line with what its link layer tells (R445): an ST 352 payload identifier that it carries, and whether it has a CRC or
EDH error. -/
def sdiReceive (l y : Nat) (first field2 : Bool) (payload : Option Word) (crcBad : Bool) (line : LineIn) (s : State) : State :=
  if laneState l s ≠ 6 ∨ curMode s = 5 then s
  else
    let s1 := match payload with
      | some w => wr (Reg.lanSdiPayload l) w s
      | none => s
    sdiLine l y first field2 line (if crcBad then bump (Reg.lanSdiCrcCnt l) LanSdiCrcCnt.crcCnt s1 else s1)

/-- The ingress ring port of ring stream `v`. -/
def ringPortOf (v : Nat) (s : State) : Option Nat :=
  (s.comp.ports.find? fun e => e.kind == 2 && !e.egress && portTakes e.port s && portStream e.port s == v).map (·.port)

/-- Deliver a ring cell of `lost` cells after the one before to ingress ring port `n`. -/
def ringCellIn (n lost : Nat) (c : RingCell) (s : State) : State :=
  if !sptEnabled n s && !(getPort n s).inPic then onPort n (fun x => { x with stopping := false }) s
  else
    let s1 := countPacket n (c.payload.length + 16) s
    match decodeTarget n s with
    | none => dropOther n s1
    | some (k, p) =>
      let s2 := seqGap n lost s1
      match placeBytes k (portOwner n) true (c.payload.length + 1) c.payload s2 with
      | (none, s3) => poolDrop n s3
      | (some bufs, s3) =>
        onPort n (fun x => { x with inPic := !c.eopic })
          (feedCoded p (wholeSegs bufs) false c.eopic none (passParts n p (partBufs bufs) s3))

/-! ### Host rings (R494) -/

/-- The device produces the units of port `n`: an egress port, or the ingress RAW_ETH port. -/
def deviceProduces (n : Nat) (s : State) : Bool :=
  match portEntry n s with | some e => if portEncap n s = 6 then !e.egress else e.egress | none => false

def hrSize (n : Nat) (s : State) : Nat := 2 ^ (16 + getF SptRingHr.hrLog2sz (latched n 0x58 s))
def hrBase (n : Nat) (s : State) : Nat := (latched n 0x5C s).toNat + 2 ^ 32 * (latched n 0x60 s).toNat

/-- Bytes a unit of `len` data bytes takes in the ring: its header, and the data padded to 16. -/
def hrUnitBytes (len : Nat) : Nat := 16 + ceilDiv len 16 * 16

/-- The field that a picture without a mark of its own is: the other than the one before it. -/
def nextField (p : Nat) (s : State) : Bool :=
  let x := getPipe p s
  decide (x.capCount ≠ 0) && !(getCap (1 - x.capNext) x).field2 && fieldsApart p s

/-- A whole picture, planar Y, Cb and Cr in 16-bit containers, reaches capture (assumption 21). -/
def pictureUnit (p : Nat) (data : List Byte) (s : State) : State :=
  let s1 := inputFrameStart p (nextField p s) s
  (clipLines (paramsOf p 0 s1) data).foldl (fun a l => l.2.foldl (fun b r => captureLine p l.1 r.1 r.2 b) a) s1

/-- A data unit from an ingress host ring: false where the producer must wait for a buffer (R413), and the state after. -/
def hrUnitIn (n : Nat) (u : HrUnitIn) (s : State) : Bool × State :=
  match portEntry n s with
  | none => (true, s)
  | some e =>
    if portEncap n s = 6 then
      (true, onPort n (fun x => { x with queue := x.queue ++ [{ Packet.init with kind := 2, size := u.data.length + 24, since := s.now, marker := true, payload := u.data }] }) s)
    else if e.pipe ≥ 1024 ∨ pipeEnabled e.pipe s = false then (true, dropOther n s)
    else if pipeDecodes e.pipe s then
      if waitLevel e.pool s ≤ poolHeld e.pool s then (false, s)
      else
        match placeBytes e.pool (portOwner n) false (u.data.length + 1) u.data s with
        | (none, s1) => (false, s1)
        | (some bufs, s1) =>
          let ends := u.flags.testBit 1
          (true, onPort n (fun x => { x with inPic := !ends })
            (feedCoded e.pipe (wholeSegs bufs) false ends none (passParts n e.pipe (partBufs bufs) s1)))
    else (true, pictureUnit e.pipe u.data s)

/-- Read the units that wait, from RD up to WR: RD advances after each (R494). -/
def hrReadUnits (n : Nat) : Nat → State → State
  | 0, s => s
  | fuel + 1, s =>
    let x := getPort n s
    let wr_ := (rd (Reg.sptHrWr n) s).toNat
    let rd_ := (rd (Reg.sptHrRd n) s).toNat
    match x.inUnits with
    | [] => s
    | u :: rest =>
      let size := hrUnitBytes u.data.length
      if (wr_ + 2 ^ 32 - rd_) % 2 ^ 32 < size then s
      else
        let next := fun a : State => wr (Reg.sptHrRd n) (BitVec.ofNat 32 (rd_ + size)) (onPort n (fun y => { y with inUnits := rest }) a)
        let s0 := emit (.hostRead (owner s glvPort n) (hrBase n s + rd_ % hrSize n s) size false) s
        if u.kind = 1 then
          match hrUnitIn n u s0 with
          | (true, s1) => hrReadUnits n fuel (next s1)
          | (false, s1) => addWait (.alloc (portOwner n) (match portEntry n s with | some e => e.pool | none => 0)) s1
        else hrReadUnits n fuel (next s0)

/-- Host software of domain `d` writes SPT_HR_WR or SPT_HR_RD: dropped on the count the device owns; an advance of an ingress
ring's WR makes the device read the units. -/
def hrCountWrite (d n : Nat) (isWr : Bool) (v : Word) (units : List HrUnitIn) (s : State) : State :=
  let off := if isWr then Reg.sptHrWr n else Reg.sptHrRd n
  if deviceProduces n s = isWr then accessErr d kindState off s
  else
    let s1 := wr off v s
    if isWr ∧ sptEnabled n s = true ∧ curMode s ≠ 5 then
      hrReadUnits n ((getPort n s).inUnits.length + units.length)
        (onPort n (fun x => { x with inUnits := x.inUnits ++ units }) s1)
    else s1

end Sys2Proof.Machine
end

