-- ==== Sys2Proof/Machine/Wire.lean ====
section
/-! DEFINITION. What an egress port puts on the wire (R487 to R492): Ethernet, IP and UDP, RTP, the payload formats of the codecs, and the MPEG-2
transport stream. The formats are those of the standards that the rules name (assumption 168). -/

namespace Sys2Proof.Machine

open Sys2Proof

/-! ### Targets (R505) -/

/-- The scheduling target of a port: MAC port 4m + j, the ring (32), or none. -/
def targetOf (n : Nat) (s : State) : Option Nat :=
  match portEntry n s with
  | none => none
  | some e =>
    let w := latched n 0x10 s
    if e.kind = 0 then some (4 * e.bind + getF SptEncap.macPort w)
    else if e.kind = 2 then some 32
    else if e.kind = 3 ∧ portEncap n s = 6 then some (4 * getF SptEncap.ctrlMac w + getF SptEncap.ctrlPort w)
    else none

/-! ### Ethernet, IP, UDP (R487) -/

/-- The port sends IPv6. -/
def portV6 (n : Nat) (s : State) : Bool := fbit (Reg.sptCtl n) SptCtl.ipv6 s

/-- What the headers of a UDP packet hold: the sender's MAC address, the VLAN tag, and the IP and UDP fields. `mac` is the destination MAC
address where the IP address is not multicast. -/
structure UdpPath where
  mac : Nat
  source : Nat
  tag : Option Nat
  v6 : Bool
  src : Nat
  dst : Nat
  dscp : Nat
  ttl : Nat
  ident : Nat
  srcPort : Nat
  dstPort : Nat
  deriving DecidableEq, Repr

/-- The destination MAC address: derived from a multicast IP address, else the one given. -/
def destMac (u : UdpPath) : Nat :=
  if u.v6 then if u.dst / 2 ^ 120 = 0xFF then 0x3333 * 2 ^ 32 + u.dst % 2 ^ 32 else u.mac
  else if u.dst / 2 ^ 28 = 0xE then 0x01005E * 2 ^ 24 + u.dst % 2 ^ 23
  else u.mac

/-- The Ethernet header: both addresses, the VLAN tag where there is one, and the type. -/
def etherHeader (u : UdpPath) : List Byte :=
  beBytes (destMac u) 6 ++ beBytes u.source 6 ++ (match u.tag with | some v => beBytes 0x8100 2 ++ beBytes v 2 | none => [])
    ++ beBytes (if u.v6 then 0x86DD else 0x0800) 2

/-- Source and destination address, as both the IP header and the UDP checksum have them. -/
def ipPair (u : UdpPath) : List Byte :=
  let k := if u.v6 then 16 else 4
  beBytes u.src k ++ beBytes u.dst k

/-- The IP header over `len` bytes: DF set in IPv4, protocol UDP. -/
def ipHeader (u : UdpPath) (len : Nat) : List Byte :=
  if u.v6 then beBytes (6 * 2 ^ 28 + u.dscp * 2 ^ 22) 4 ++ beBytes len 2 ++ [17, BitVec.ofNat 8 u.ttl] ++ ipPair u
  else
    let head := [0x45#8] ++ beBytes (4 * u.dscp) 1 ++ beBytes (20 + len) 2 ++ beBytes u.ident 2 ++ beBytes 0x4000 2
      ++ [BitVec.ofNat 8 u.ttl, 17]
    head ++ beBytes (inetSum (sum16 (head ++ ipPair u))) 2 ++ ipPair u

/-- The UDP checksum of a payload: always there, so that 0 is sent as all ones. -/
def udpSum (u : UdpPath) (payload : List Byte) : Nat :=
  let len := 8 + payload.length
  let v := inetSum (sum16 (ipPair u) + 17 + len + u.srcPort + u.dstPort + len + sum16 payload)
  if v = 0 then 65535 else v

/-- The frame of a UDP payload, whose checksum is that of `summed`, up to and with the FCS: at least 64 bytes. -/
def udpFrame (u : UdpPath) (payload summed : List Byte) : List Byte :=
  let len := 8 + payload.length
  let body := etherHeader u ++ ipHeader u len ++ beBytes u.srcPort 2 ++ beBytes u.dstPort 2 ++ beBytes len 2
    ++ beBytes (udpSum u summed) 2 ++ payload
  let full := body ++ List.replicate (60 - body.length) 0
  full ++ leBytes (crc32 full) 4

/-- The MAC address of a scheduling target. -/
def targetMac (t : Nat) (s : State) : Nat := macAddr (rd (Reg.schMacAddrLo t) s) (rd (Reg.schMacAddrHi t) s)

/-- The headers of a port's packet: TTL or hop limit 64 (R487). -/
def portPath (n seq : Nat) (s : State) : UdpPath :=
  let w := latched n 0x10 s
  let udp := latched n 0x14 s
  { mac := macAddr (latched n 0x38 s) (latched n 0x3C s)
    source := targetMac ((targetOf n s).getD 0) s
    tag := if getF SptEncap.vlanEn w = 1 then some (getF SptEncap.pcp w * 2 ^ 13 + getF SptEncap.vid w) else none
    v6 := portV6 n s
    src := ipAddr n 0x28 (portV6 n s) s
    dst := ipAddr n 0x18 (portV6 n s) s
    dscp := getF SptRtp.dscp (latched n 0x40 s)
    ttl := 64
    ident := Config.ipIdent n seq
    srcPort := getF SptUdp.srcPort udp
    dstPort := getF SptUdp.dstPort udp }

/-- Bytes of the frame around a UDP payload: Ethernet, VLAN tag, IP and UDP headers, and the FCS. -/
def headerBytes (n : Nat) (s : State) : Nat :=
  14 + (if getF SptEncap.vlanEn (latched n 0x10 s) = 1 then 4 else 0) + (if portV6 n s then 40 else 20) + 8 + 4

/-- Wire bytes of a frame with a UDP payload of `len` bytes: the frame plus 20. -/
def wireSize (n len : Nat) (s : State) : Nat := max 64 (len + headerBytes n s) + 20

/-! ### RTP (R487, R488, R514) -/

/-- The 12-byte RTP header: version 2, marker, payload type, sequence number, timestamp, SSRC (R487). -/
def rtpHeader (n seq ts : Nat) (marker : Bool) (s : State) : List Byte :=
  [0x80#8] ++ beBytes (getF SptRtp.pt (latched n 0x40 s) + (if marker then 128 else 0)) 1 ++ beBytes seq 2 ++ beBytes ts 4
    ++ beBytes (latched n 0x44 s).toNat 4

/-- ⌊T × 90,000⌋ mod 2^32 for a time of the time base, in 10^-21 s (R488). -/
def rtpTime (t : Int) : Nat := (t * 90000 / 10 ^ 21 % 2 ^ 32).toNat

/-- The timestamp with SPT_IMP_TS_OFS added (R514). -/
def portTime (n : Nat) (t : Int) (s : State) : Nat := (rtpTime t + (rd (Reg.sptImpTsOfs n) s).toNat) % 2 ^ 32

def payloadMax (n : Nat) (s : State) : Nat := max 1 (getF SptRtp.payloadMax (latched n 0x40 s))

/-! ### Payload formats of the codecs (R491) -/

/-- The parts of a row unit's bytes, whose units start at `starts`, without their start codes. -/
def streamParts (codec : Nat) (starts : List Nat) (bytes : List Byte) : List (Bool × List Byte) :=
  let n := bytes.length
  let ends := starts.drop 1 ++ [n]
  let lead := bytes.take (starts.headD n)
  (if lead.isEmpty then [] else [(false, lead)])
    ++ (starts.zip ends).map fun e => (true, ((bytes.drop e.1).take (e.2 - e.1)).drop (startCode codec).length)

/-- Bytes of a unit's header. -/
def unitHeaderLen (codec : Nat) : Nat := match codec with | 1 => 1 | 4 => 0 | _ => 2

/-- A NAL unit carries coded samples (VVC types 0 to 11). -/
def vclHeader (nal : List Byte) : Bool := decide (byteAt nal 1 / 8 ≤ 11)

/-- The payload header of a fragment of a unit with header `nal`: FU-A of AVC (type 28), FU of HEVC (49) and VVC (29), or the aggregation header
of AV1 with one element. `fin` tells the last coded unit of a picture, `fresh` the first packet of a coded video sequence. -/
def fragmentHeader (codec : Nat) (nal : List Byte) (start stop fin fresh : Bool) : List Byte :=
  let bit := fun (b : Bool) (v : Nat) => if b then v else 0
  let b0 := byteAt nal 0
  let b1 := byteAt nal 1
  match codec with
  | 1 => [BitVec.ofNat 8 (b0 / 32 * 32 + 28), BitVec.ofNat 8 (bit start 128 + bit stop 64 + b0 % 32)]
  | 2 => [BitVec.ofNat 8 (b0 / 128 * 128 + 49 * 2 + b0 % 2), BitVec.ofNat 8 b1, BitVec.ofNat 8 (bit start 128 + bit stop 64 + b0 / 2 % 64)]
  | 3 => [BitVec.ofNat 8 b0, BitVec.ofNat 8 (29 * 8 + b1 % 8),
      BitVec.ofNat 8 (bit start 128 + bit stop 64 + bit (fin && stop && vclHeader nal) 32 + b1 / 8 % 32)]
  | _ => [BitVec.ofNat 8 (bit (!start) 128 + bit (!stop) 64 + 16 + bit (fresh && start) 8)]

/-- The RTP payloads of one part of a unit: the unit itself where it fits whole (AV1 always has its header), else fragments of at most `k`
bytes. -/
def partPayloads (codec k : Nat) (nal : List Byte) (start stop fin fresh : Bool) (l : List Byte) : List (List Byte) :=
  if codec ≠ 4 ∧ start = true ∧ stop = true ∧ l.length ≤ k then [l]
  else
    let body := if start then l.drop (unitHeaderLen codec) else l
    let room := max 1 (k - (fragmentHeader codec nal false false false false).length)
    let runs := if body.isEmpty then (if start || stop then [[]] else []) else cutBytes room (body.length + 1) body
    runs.mapIdx fun i r =>
      fragmentHeader codec nal (start && i == 0) (stop && decide (i + 1 = runs.length)) fin fresh ++ r

/-- What a row unit hands the packetiser: its picture and whether that is an IRAP, its bytes and where units of the stream start in them,
whether it is the first and the last of its picture with bytes, whether its last unit ends with it, whether none but filler follows, its
buffers, the time its timestamps stand for, and its codec. -/
structure SendUnit where
  pic : Nat
  irap : Bool
  codec : Nat
  bytes : List Byte
  starts : List Nat
  first : Bool
  last : Bool
  ends : Bool
  final : Bool
  bufs : List Nat
  time : Int
  deriving DecidableEq, Repr

/-- The RTP payloads of a row unit, and the header of the unit that goes on. `nal` is that of the unit that comes on from before. -/
def unitPayloads (k : Nat) (u : SendUnit) (nal : List Byte) : List (List Byte) × List Byte :=
  let parts := streamParts u.codec u.starts u.bytes
  let heads := parts.mapIdx fun i x => if x.1 then x.2.take 2 else if i = 0 then nal else []
  let later := fun i => (parts.drop (i + 1)).zip (heads.drop (i + 1)) |>.any fun e => u.codec != 3 || vclHeader e.2
  ((parts.zip heads).zipIdx.flatMap fun e =>
    partPayloads u.codec k e.1.2 e.1.1.1 (u.ends || decide (e.2 + 1 < parts.length)) (u.final && !later e.2)
      (u.irap && u.first && e.2 == 0) e.1.1.2,
    (heads.getLast?).getD nal)

/-! ### The transport stream (R492) -/

def tsPackets (n : Nat) (s : State) : Nat := orIf0 7 (getF SptTs.pkts (latched n 0x4C s))

/-- The PID of the video stream. -/
def tsPid (n : Nat) (s : State) : Nat := getF SptTs.pid (latched n 0x4C s)

/-- The PID of the PMT. -/
def pmtPid : Nat := 0x20

/-- Cycles between datagrams of a TS multiplex of a set rate; 0 where it is variable (R492). -/
def tsSpacing (n : Nat) (s : State) : Nat :=
  let r := (latched n 0x50 s).toNat
  if r = 0 then 0 else ceilDiv (188 * tsPackets n s * 8 * 1600000) r

/-- A TS packet of up to 184 bytes of payload: `unit` tells that a PES packet or section starts; a shorter payload follows stuffing in an
adaptation field. -/
def tsPacket (pid cc : Nat) (unit : Bool) (l : List Byte) : List Byte :=
  let head := fun c => [0x47#8] ++ beBytes (pid + if unit then 0x4000 else 0) 2 ++ [BitVec.ofNat 8 (16 * c + cc % 16)]
  let room := 184 - l.length
  if room = 0 then head 1 ++ l
  else if room = 1 then head 3 ++ [0] ++ l
  else head 3 ++ [BitVec.ofNat 8 (room - 1), 0] ++ List.replicate (room - 2) 0xFF#8 ++ l

/-- A null TS packet. -/
def nullTs : List Byte := [0x47#8, 0x1F#8, 0xFF#8, 0x10#8] ++ List.replicate 184 0xFF#8

/-- A TS packet with a PCR alone; it is stamped as it leaves. -/
def pcrTs (pid cc : Nat) : List Byte :=
  [0x47#8] ++ beBytes pid 2 ++ [BitVec.ofNat 8 (0x20 + cc % 16), 183, 0x10] ++ List.replicate 6 0 ++ List.replicate 176 0xFF#8

/-- The six bytes of a PCR in 27 MHz ticks: 33 bits of base, 6 reserved, 9 of extension. -/
def pcrBytes (v : Nat) : List Byte := beBytes (v / 300 * 2 ^ 15 + 63 * 2 ^ 9 + v % 300) 6

/-- Where the PCR stands in the payload of a datagram that begins with a PCR packet. -/
def pcrOffset : Nat := 12 + 6

/-- Put the PCR into such a payload. -/
def stampPcr (v : Nat) (l : List Byte) : List Byte := l.take pcrOffset ++ pcrBytes v ++ l.drop (pcrOffset + 6)

/-- A section of a program table with its CRC, as the payload of one TS packet. -/
def sectionBytes (table number : Nat) (body : List Byte) : List Byte :=
  let l := [BitVec.ofNat 8 table] ++ beBytes (0xB000 + body.length + 9) 2 ++ beBytes number 2
    ++ [BitVec.ofNat 8 (0xC1 + 2 * (Config.tableNumber 2 % 32)), 0, 0] ++ body
  let full := 0#8 :: l ++ beBytes (mpegCrc l) 4
  full ++ List.replicate (184 - full.length) 0xFF#8

/-- The program's number, which is not 0. -/
def programNumber : Nat := 1 + Config.tableNumber 1 % 65535

def patBytes : List Byte := sectionBytes 0 (Config.tableNumber 0) (beBytes programNumber 2 ++ beBytes (0xE000 + pmtPid) 2)

/-- The stream type of a codec, with the registration descriptor that AV1 has. -/
def streamType (codec : Nat) : Nat := match codec with | 1 => 0x1B | 2 => 0x24 | 3 => 0x33 | _ => 0x06
def streamDescriptor (codec : Nat) : List Byte := if codec = 4 then [0x05, 0x04, 0x41, 0x56, 0x30, 0x31] else []

def pmtBytes (codec pid : Nat) : List Byte :=
  let d := streamDescriptor codec
  sectionBytes 2 programNumber (beBytes (0xE000 + pid) 2 ++ beBytes 0xF000 2 ++ beBytes (streamType codec) 1 ++ beBytes (0xE000 + pid) 2
    ++ beBytes (0xF000 + d.length) 2 ++ d)

/-- A PTS or DTS with its mark. -/
def ptsBytes (mark t : Nat) : List Byte :=
  [BitVec.ofNat 8 (16 * mark + t / 2 ^ 30 % 8 * 2 + 1)] ++ beBytes (t / 2 ^ 15 % 2 ^ 15 * 2 + 1) 2 ++ beBytes (t % 2 ^ 15 * 2 + 1) 2

/-- The header of a picture's PES packet, whose length is open: PTS and DTS are equal. -/
def pesHeader (pts : Nat) : List Byte := [0, 0, 1, 0xE0, 0, 0, 0x80, 0xC0, 10] ++ ptsBytes 3 pts ++ ptsBytes 1 pts

/-- The PTS of a picture with RTP timestamp `ts`. -/
def picturePts (n ts : Nat) (s : State) : Nat :=
  (ts + 90 * orIf0 100 (getF SptTs.ptsDelayMs (latched n 0x4C s))) % 2 ^ 33

/-- Take the next value of a continuity counter. -/
def takeCc (pid : Nat) (x : Port) : Nat × Port :=
  let c := smGet 0 pid x.cc
  (c, { x with cc := smSet 0 pid ((c + 1) % 16) x.cc })

/-- TS packets of the video stream from payloads, the first of which starts a PES packet where `x.pes`. -/
def videoTs (pid : Nat) : List (List Byte) → Port → List (List Byte) × Port
  | [], x => ([], x)
  | l :: rest, x =>
    let c := takeCc pid x
    let r := videoTs pid rest { c.2 with pes := false }
    (tsPacket pid c.1 x.pes l :: r.1, r.2)

/-- TS packets in datagrams of `k`; with `pad`, null packets fill the last one, and without it the rest waits. -/
def tsGroups (k : Nat) (pad : Bool) : Nat → List (List Byte) → List (List Byte) × List (List Byte)
  | 0, l => ([], l)
  | f + 1, l =>
    if l.isEmpty then ([], [])
    else if l.length < k then
      if pad then ([l.flatten ++ (List.replicate (k - l.length) nullTs).flatten], []) else ([], l)
    else
      let r := tsGroups k pad f (l.drop k)
      ((l.take k).flatten :: r.1, r.2)

end Sys2Proof.Machine
end

