-- ==== Sys2Proof/Machine/Egress.lean ====
section
/-! DEFINITION. The egress side of stream ports (R487 to R495, R502 to R514): packetising, release, impairments, scheduling
targets, deficit round robin, shapers, telemetry, host rings. -/

namespace Sys2Proof.Machine

open Sys2Proof

/-! ### Targets (R505) -/

def getTarget (t : Nat) (s : State) : Target32 := smGet Target32.init t s.targets
def setTarget (t : Nat) (x : Target32) (s : State) : State := { s with targets := smSet Target32.init t x s.targets }

/-- Rate of a target in kb/s: the MAC port's data rate where the complex's mode provides the port; CELL_COUNT x 2.048 Gb/s
for the ring. -/
def targetRate (t : Nat) (s : State) : Nat :=
  if t = 32 then s.ring.count * 2048000
  else
    let m := t / 4
    let narrow := portNarrow m (t % 4) s
    if (portLanes (macMode m s) narrow (t % 4)).isEmpty then 0 else modeRate (macMode m s) * 1000

/-- The ring state (R468). -/
def ringState (s : State) : Nat := fget Reg.lanRingStatus LanRingStatus.ringState s

/-- The target's link is up. -/
def targetUp (t : Nat) (s : State) : Bool :=
  if t = 32 then ringState s == 2 || ringState s == 3
  else fbit (Reg.lanMacPortStatus (t / 4) (t % 4)) LanMacPortStatus.linkUp s

/-- IP MTU of a target: 0 acts as 1,500. -/
def targetMtu (t : Nat) (s : State) : Nat := orIf0 1500 (fget (Reg.schMacCfg t) SchMacCfg.mtu s)

/-! ### Giving buffers back (R503) -/

/-- A port gives back a buffer it holds: FREE as final owner, else RELEASE of its share. -/
def giveBack (n b : Nat) (s : State) : State :=
  if (getBuf b s).owner = portOwner n then unitFree b (portOwner n) s else (bufOp .release b (portOwner n) s).2

def giveBackAll (n : Nat) (l : List Nat) (s : State) : State := l.foldl (fun a b => giveBack n b a) s

/-! ### Queueing -/

/-- The port's egress packets can be sent: its target's link is up. -/
def portLinkUp (n : Nat) (s : State) : Bool := match targetOf n s with | some t => targetUp t s | none => false

/-- Packets that reach the head of the queue while the link is down are discarded (R502). -/
def dropHeads (n : Nat) : Nat → State → State
  | 0, s => s
  | f + 1, s =>
    let x := getPort n s
    match x.queue with
    | [] => s
    | k :: rest =>
      dropHeads n f (giveBackAll n k.bufs (sptEvent n SptStatus.linkDropEv (dropOther n (setPort n { x with queue := rest } s))))

/-- Put packets at the end of the queue; where they come to the head of an empty queue with the link down they are lost. -/
def enqueue (n : Nat) (l : List Packet) (s : State) : State :=
  let x := getPort n s
  let s1 := setPort n { x with queue := x.queue ++ l } s
  if x.queue.isEmpty ∧ portLinkUp n s = false then dropHeads n l.length s1 else s1

/-- Head and eligible ports (R505 to R507). -/
def headReady (n : Nat) (s : State) : Bool := match (getPort n s).queue with | k :: _ => decide (k.since ≤ s.now) | [] => false

def portEligible (n : Nat) (s : State) : Bool :=
  sptEnabled n s && headReady n s && (!fbit (Reg.schPortCtl n) SchPortCtl.shapeEn s || decide (0 ≤ (getPort n s).credit))

def highPrio (n : Nat) (s : State) : Bool := fbit (Reg.schPortCtl n) SchPortCtl.prio s

/-- Bring a port's place in its target's lists up to date (R506): it joins at the tail when it becomes eligible, and leaves
when it no longer is; a port whose queue empties has its deficit set to 0. -/
def refreshPort (n : Nat) (s : State) : State :=
  match targetOf n s with
  | none => s
  | some t =>
    if portEncap n s = 6 then s
    else
      let x := getTarget t s
      let el := portEligible n s
      let hp := highPrio n s
      let keep := fun h : Bool => el && h == hp
      let x1 : Target32 := { x with
        high := if keep true then x.high else x.high.filter (· != n)
        low := if keep false then x.low else x.low.filter (· != n) }
      let joined := x1.high.contains n || x1.low.contains n
      let x2 : Target32 := if el && !joined then (if hp then { x1 with high := x1.high ++ [n] } else { x1 with low := x1.low ++ [n] }) else x1
      let p := getPort n s
      setPort n { p with
        fresh := if joined then p.fresh else true
        deficit := if p.queue.isEmpty then 0 else p.deficit } (setTarget t x2 s)

/-- The egress ports of target `t` (33: of every target). -/
def targetPorts (t : Nat) (s : State) : List Nat :=
  (s.comp.ports.filter fun e => e.egress && (decide (t = 33) || targetOf e.port s == some t)).map (·.port)

def refreshTarget (t : Nat) (s : State) : State := (targetPorts t s).foldl (fun a n => refreshPort n a) s

/-! ### Impairments (R512, R513) -/

/-- Invert bit `b` of a payload, counting from the most significant bit of the first byte. -/
def flipBit (b : Nat) (l : List Byte) : List Byte := l.mapIdx fun i x => if i = b / 8 then x ^^^ BitVec.ofNat 8 (2 ^ (7 - b % 8)) else x

/-- Draw `d` fires at probability `p` / 65,536. -/
def drawFires (d : Word) (p : Nat) : Bool := decide (d.toNat / 65536 < p)

/-- A packet leaves the packetiser: its draws are taken and it is queued, dropped, corrupted, doubled or held. -/
def impairPacket (n : Nat) (k : Packet) (s : State) : State :=
  if fbit (Reg.sptImpCtl n) SptImpCtl.impEn s = false then enqueue n [k] s
  else
    let r := drawN 5 (getPort n s).x
    let d := fun i => (r.1[i]?).getD 0
    let s1 := onPort n (fun x => { x with x := r.2 }) s
    let p0 := Reg.sptImpProb0 n
    let p1 := Reg.sptImpProb1 n
    if drawFires (d 0) (fget p0 SptImpProb0.probA s) then
      giveBackAll n k.bufs (bump (Reg.sptImpCnt0 n) SptImpCnt0.cntA s1)
    else
      let err := drawFires (d 3) (fget p1 SptImpProb0.probB s)
      let k1 : Packet :=
        if err then
          { k with flip := some (8 * k.payload.length * (d 4).toNat / 2 ^ 32), sumOk := fbit (Reg.sptImpCtl n) SptImpCtl.csumAfter s }
        else k
      let s2 := if err then bump (Reg.sptImpCnt1 n) SptImpCnt0.cntB s1 else s1
      let dup := drawFires (d 1) (fget p0 SptImpProb0.probB s)
      let s3 := if dup then bump (Reg.sptImpCnt0 n) SptImpCnt0.cntB s2 else s2
      let l := if dup then [k1, { k1 with bufs := [] }] else [k1]
      if drawFires (d 2) (fget p1 SptImpProb0.probA s) then
        let depth := fget (Reg.sptImpCtl n) SptImpCtl.reorderDepth s
        bump (Reg.sptImpCnt1 n) SptImpCnt0.cntA (onPort n (fun x => { x with held := x.held ++ l.map fun q => (q, depth, s.now) }) s3)
      else enqueue n l s3

def queuePackets (n : Nat) (l : List Packet) (s : State) : State :=
  let s1 := l.foldl (fun a k => impairPacket n k a) s
  refreshPort n s1

/-! ### Packets of coded pictures (R487 to R493, R502) -/

/-- Queue RTP packets with these payloads: the marker on the last one where `marker`, and the buffers go back with it. -/
def queueRtp (n pic ts : Nat) (bodies : List (List Byte)) (marker : Bool) (bufs : List Nat) (s : State) : State :=
  let x := getPort n s
  let l := bodies.mapIdx fun i b =>
    let fin := decide (i + 1 = bodies.length)
    let seq := ((latched n 0x48 s).toNat + x.seq + i) % 2 ^ 16
    { Packet.init with
      size := wireSize n (12 + b.length) s
      pic := pic
      since := s.now
      seq := seq
      ts := ts
      marker := marker && fin
      payload := rtpHeader n seq ts (marker && fin) s ++ b
      bufs := if fin then bufs else [] }
  queuePackets n l (setPort n { x with seq := x.seq + l.length } s)

/-- Queue datagrams of a TS multiplex; those of a set rate are spaced evenly (R492). -/
def queueTs (n kind pic ts : Nat) (groups : List (List Byte)) (marker : Bool) (bufs : List Nat) (s : State) : State :=
  let x := getPort n s
  let gap := tsSpacing n s
  let start := if gap = 0 then s.now else max s.now x.tsNext
  let l := groups.mapIdx fun i g =>
    let fin := decide (i + 1 = groups.length)
    let seq := ((latched n 0x48 s).toNat + x.seq + i) % 2 ^ 16
    { Packet.init with
      kind := kind
      size := wireSize n (12 + g.length) s
      pic := pic
      since := start + i * gap
      seq := seq
      ts := ts
      marker := marker && fin
      payload := rtpHeader n seq ts (marker && fin) s ++ g
      bufs := if fin then bufs else [] }
  queuePackets n l (setPort n { x with
    seq := x.seq + l.length
    tsNext := if gap = 0 then x.tsNext else start + l.length * gap } s)

/-- PAT and PMT go out (R492), each with its continuity counter. -/
def sendPsi (n : Nat) (s : State) : State :=
  let codec := match portEntry n s with | some e => codecOf (pipePers e.pipe s) | none => 0
  let a := takeCc 0 (getPort n s)
  let b := takeCc pmtPid a.2
  let l := [tsPacket 0 a.1 true patBytes, tsPacket pmtPid b.1 true (pmtBytes codec (tsPid n s))]
  queueTs n 4 0 (portTime n s.clock.timeBase s) (tsGroups (tsPackets n s) true 2 l).1 false [] (setPort n { b.2 with psiAt := s.now } s)

/-- A unit's bytes join the PES packet of its picture, and whole TS packets go out in whole datagrams; the picture's last end both. The buffers
of bytes that still wait go back with a later datagram. -/
def sendTs (n : Nat) (u : SendUnit) (s : State) : State :=
  let x := getPort n s
  let ts := portTime n u.time s
  let es := x.es ++ (if u.first then pesHeader (picturePts n ts s) else []) ++ u.bytes
  let cut := if u.last then es.length else es.length / 184 * 184
  let v := videoTs (tsPid n s) (cutBytes 184 (cut + 1) (es.take cut)) { x with es := es.drop cut, pes := x.pes || u.first }
  let pkts := x.tsHold ++ v.1
  let g := tsGroups (tsPackets n s) u.last (pkts.length + 1) pkts
  let whole := g.2.isEmpty && (es.drop cut).isEmpty
  let bufs := x.tsBufs ++ u.bufs
  let now := if g.1.isEmpty then [] else if whole then bufs else x.tsBufs
  queueTs n 0 u.pic ts g.1 u.last now (setPort n { v.2 with
    tsHold := g.2
    tsBufs := if g.1.isEmpty then bufs else if whole then [] else u.bufs } s)

/-- A unit's bytes go out in cells of at most 240 bytes (R493). -/
def sendCells (n : Nat) (u : SendUnit) (s : State) : State :=
  let runs := cutBytes 240 (u.bytes.length + 1) u.bytes
  let l := runs.mapIdx fun i r =>
    let fin := decide (i + 1 = runs.length)
    { Packet.init with
      kind := 5
      size := r.length + 16
      pic := u.pic
      since := s.now
      marker := u.last && fin
      payload := r
      sop := decide (i = 0)
      eop := fin
      bufs := if fin then u.bufs else [] }
  queuePackets n l s

/-- The unit goes to the packetiser of port `n`, or to its host ring. A unit with no bytes only gives its buffers back. -/
def sendUnit (n : Nat) (u : SendUnit) (s : State) : State :=
  match portEntry n s with
  | none => s
  | some e =>
    if u.bytes.isEmpty then giveBackAll n u.bufs s
    else if e.kind = 3 then onPort n (fun x => { x with units := x.units ++ [⟨u.pic, u.first, u.last, u.bytes, u.bufs⟩] }) s
    else
      match portEncap n s with
      | 5 => sendCells n u s
      | 3 => sendTs n u (if u.first && u.irap then sendPsi n s else s)
      | _ =>
        let r := unitPayloads (payloadMax n s) u (getPort n s).nal
        queueRtp n u.pic (portTime n u.time s) r.1 u.last u.bufs (onPort n (fun x => { x with nal := r.2 }) s)

/-- The time a picture's timestamps stand for (R488). -/
def pictureTime (n : Nat) (q : Pic) (s : State) : Int :=
  if portEncap n s = 2 then q.srcTime
  else (smFind q.idx (getPort n s).relTimes).getD s.clock.timeBase

/-- The next picture in start order, at or after `i`. -/
def picFrom (i : Nat) : List Pic → Option Pic
  | [] => none
  | q :: l => if i ≤ q.idx then some q else picFrom i l

/-- What picture `q` hands port `n` of the unit at place `sent` of its stream, whose number is `k`; `holds` tells that the port holds its
buffers. -/
def sendOf (p n sent k : Nat) (q : Pic) (s : State) : SendUnit :=
  let prm : Params := ⟨pipePers p s, q.sets⟩
  let order := sendOrder prm q
  let rest := order.drop (sent + 1)
  let u := getUnit k q
  let spent := fun j => let v := getUnit j q; v.done && v.bytes.isEmpty
  { pic := q.idx
    irap := q.idx == q.irap
    codec := prm.codec
    bytes := u.bytes
    starts := u.starts
    first := (order.take sent).all fun j => (getUnit j q).bytes.isEmpty
    last := rest.all spent
    ends := match rest.find? fun j => !spent j with
      | none => true
      | some j => j == q.unitCount || sliceStarts prm (j / q.tiles) (j % q.tiles)
    final := rest.all fun j => j == q.unitCount || spent j
    bufs := if u.holders.contains n then u.bufs else []
    time := pictureTime n q s }

/-- Port `n` has taken the buffers of unit `k` that it holds. -/
def dropHolder (n k : Nat) (q : Pic) : Pic :=
  let u := getUnit k q
  let left := u.holders.filter (· != n)
  setUnit k { u with holders := left, bufs := if u.holders.contains n && left.isEmpty then [] else u.bufs } q

/-- Send the next released and complete unit of the picture the packetiser is at, in the order of its stream; false where there is
none. In sub-picture mode the units that the last ROW_DEADLINE counted are released (R502). -/
def flushOne (p n : Nat) (s : State) : Bool × State :=
  let y := getPort n s
  match picFrom y.relPic (getPipe p s).pics with
  | none => (false, s)
  | some q =>
    let order := sendOrder ⟨pipePers p s, q.sets⟩ q
    let sent := if q.idx = y.relPic then y.relSent else 0
    let allow := smGet 0 q.idx y.relAllowed
    match order[sent]? with
    | none => (false, s)
    | some k =>
      if (k < allow ∨ q.unitCount ≤ allow) ∧ (getUnit k q).done = true then
        let fin := decide (sent + 1 = order.length)
        let s1 := onPort n (fun z => { z with
          relPic := if fin then q.idx + 1 else q.idx
          relSent := if fin then 0 else sent + 1
          relAllowed := if fin then smDel q.idx z.relAllowed else z.relAllowed
          relTimes := if fin then smDel q.idx z.relTimes else z.relTimes
          picSeq := if sent = 0 then y.seq else z.picSeq
          picCc := if sent = 0 then y.cc else z.picCc }) (onPipe p (updatePic q.idx (dropHolder n k)) s)
        (true, sendUnit n (sendOf p n sent k q s) s1)
      else (false, s)

def flushPort (p n : Nat) : Nat → State → State
  | 0, s => s
  | f + 1, s =>
    match flushOne p n s with
    | (true, s1) => flushPort p n f s1
    | (false, s1) => s1

/-- The units of the pictures a pipeline holds: no flush sends more. -/
def flushBound (x : Pipe) : Nat := sumNat (x.pics.map fun q => q.unitCount + 1)

/-- The enabled egress ports of pipeline `p`, lowest first. -/
def egressPorts (p : Nat) (s : State) : List Nat :=
  sortBy (fun n => n) ((s.comp.ports.filter fun e => e.egress && e.pipe == p && sptEnabled e.port s).map (·.port))

/-- Send what is released and complete on every egress port of `p`. -/
def flushPipe (p : Nat) (s : State) : State :=
  (egressPorts p s).foldl (fun a n => flushPort p n (flushBound (getPipe p s)) a) s

/-- A row unit's chunks pass to the lowest-numbered enabled egress port, with a share for every other (R405, R503). -/
def passChunks (p : Nat) (bufs : List Nat) (s : State) : List Nat × State :=
  let l := egressPorts p s
  match l with
  | [] => ([], s)
  | n :: rest =>
    (l, bufs.foldl (fun a b =>
      (bufOp (.pass (portOwner n)) b p (rest.foldl (fun c _ => (bufOp .share b p c).2) a)).2) s)

/-- Every chunk of a picture that no port holds any more, or that a port never sent, goes back (R503, R517). -/
def freeChunks (p : Nat) (q : Pic) (s : State) : State :=
  q.units.foldl (fun a u =>
    if u.2.holders.isEmpty then unitFreeAll u.2.bufs p a
    else u.2.holders.foldl (fun b n => giveBackAll n u.2.bufs b) a) s

/-- The picture that MARGIN_MARK and ROW_DEADLINE act on (R78): the oldest started one whose full-count deadline has not fired. A picture in
progress at a disable is one still (R234). -/
def openPic (p : Nat) (s : State) : Option Pic := (getPipe p s).pics.find? fun y => !y.fullFired

/-- The picture whose output a RELEASE or EMIT begins or goes on with: the last one past its full-count deadline where its output, as `past` tells, is
not over, for in picture mode output comes at or after that deadline (R89); else the one of R78 (assumption 55). -/
def outPic (p : Nat) (past : Pic → Bool) (s : State) : Option Pic :=
  match ((getPipe p s).pics.filter (·.fullFired)).getLast? with
  | some q => if past q then openPic p s else some q
  | none => openPic p s

/-- Every picture up to `q` that port `n` has not fully released is released now, and `q` as far as R502 lets it. -/
def allowUpTo (n : Nat) (at_ : Int) (l : List Pic) (q : Pic) (sub : Bool) (s : State) : State :=
  let y := getPort n s
  let open_ := l.filter fun z => decide (y.relNext ≤ z.idx ∧ z.idx ≤ q.idx)
  let allow := if sub && !q.fullFired then q.due else q.unitCount
  onPort n (fun z => open_.foldl (fun (w : Port) v => { w with
    relAllowed := smPut v.idx (if v.idx = q.idx then allow else v.unitCount) w.relAllowed
    relTimes := if (smFind v.idx w.relTimes).isSome then w.relTimes else smPut v.idx at_ w.relTimes })
      { z with relNext := if q.unitCount ≤ allow then q.idx + 1 else q.idx }) s

/-- The chunks of a picture that no port holds are freed, and those of its units that complete later will be (R503). -/
def freeUnheld (p : Nat) (q : Pic) (s : State) : State :=
  let s1 := q.units.foldl (fun b u => if u.2.holders.isEmpty then unitFreeAll u.2.bufs p b else b) s
  onPipe p (updatePic q.idx fun r => { r with
    freed := true
    units := r.units.map fun u => if u.2.holders.isEmpty then (u.1, { u.2 with bufs := [] }) else u }) s1

/-- RELEASE on port `n` (R78, R87, R502): the picture's complete units, and those that complete later, go to the scheduler;
in sub-picture mode, the units that its last ROW_DEADLINE counted. `at_` is the time at which the entry fired (R488). With no egress port enabled, the
chunks are freed. -/
def releaseAction (n : Nat) (at_ : Int) (s : State) : State :=
  match portEntry n s with
  | none => s
  | some e =>
    let p := e.pipe
    if e.egress = false ∨ p ≥ 1024 then s
    else
      match outPic p (fun q => decide (q.idx < (getPort n s).relNext)) s with
      | none => s
      | some q =>
        let s1 := allowUpTo n at_ (getPipe p s).pics q (subPicture p s) s
        if sptEnabled n s then flushPort p n (flushBound (getPipe p s1)) s1
        else if (egressPorts p s).isEmpty then freeUnheld p q s1
        else s1

/-! ### Emitted pictures (R489, R494) -/

/-- `n` bytes the spec leaves open. -/
def freeBytes (k n : Nat) : List Byte := (List.range n).map (Config.freeByte k)

/-- Mesh cycles of one line of domain `d`, rounded up. -/
def lineCycles (d : Nat) (s : State) : Nat := ceilDiv (1600000000 * rateDen d s) (rateNum d s * totalLines d s)

/-- Sample rows `lo` to `hi - 1` as the runs (row, first byte, bytes) of each packet of at most `k` bytes: a row at a time, or in block packing
mode one after the other in whole blocks of 180 bytes. -/
def rowRuns (bpm : Bool) (k len lo hi : Nat) : List (List (Nat × Nat × Nat)) :=
  if bpm then
    let total := (hi - lo) * len
    let k' := min (max 180 (k / 180 * 180)) (max 1 len)
    (List.range (ceilDiv total k')).map fun i =>
      let a := i * k'
      let b := min total (a + k')
      if a / len = (b - 1) / len then [(lo + a / len, a % len, b - a)]
      else [(lo + a / len, a % len, len - a % len), (lo + (b - 1) / len, 0, b - (b - 1) / len * len)]
  else (List.range (hi - lo)).flatMap fun r => (List.range (ceilDiv len k)).map fun i => [(lo + r, i * k, min k (len - i * k))]

/-- The sample row data headers of a packet: length, field and line, and whether another follows with the first column. -/
def rowHeaders (step g pix : Nat) (second : Bool) : List (Nat × Nat × Nat) → List Byte
  | [] => []
  | (r, o, n) :: l =>
    beBytes n 2 ++ beBytes (step * r + if second then 2 ^ 15 else 0) 2 ++ beBytes (o / g * pix + if l.isEmpty then 0 else 2 ^ 15) 2
      ++ rowHeaders step g pix second l

/-- Bytes of padding that fill the last block of a packet in block packing mode. -/
def blockPad (bpm : Bool) (n : Nat) : Nat := if bpm then ceilDiv n 180 * 180 - n else 0

/-- The start of line 0 of the frame of domain `d` at mesh cycle `at_`, in 10^-21 s (R488). -/
def frameTime (d at_ : Nat) (s : State) : Int :=
  let pos := domPos d s
  let t := s.clock.timeBase - (pos.2.1 * spl8 d s + pos.2.2 : Nat) * (rateDen d s * 10 ^ 21 : Nat) / (rateNum d s * spf8 d s : Nat)
  if timeAt at_ s < t then t - (rateDen d s * 10 ^ 21 / rateNum d s : Nat) else t

/-- Queue active lines `lo` to `hi - 1` of an emitted picture or field on an ST 2110-20 port: the packets of line k become eligible k line-times
after the EMIT, which fired at mesh cycle `at_`. `fin` tells that they are its last. -/
def queueVideo (n p pic : Nat) (img : Planes) (second : Bool) (lo hi : Nat) (fin : Bool) (at_ : Nat) (s : State) : State :=
  let d := pipeDomain p s
  let w := latched n 0x54 s
  let sm := getF Spt2110.sampling w
  let dp := getF Spt2110.depth w
  let bpm := getF Spt2110.bpm w == 1
  let step := if sm = 0 then 1 else 2
  let rows := sampleRows sm (depthBits dp) img
  let len := (rows.headD []).length
  let g := pgroupBytes sm dp
  let runs := rowRuns bpm (max g (payloadMax n s / g * g)) len (lo / step) (hi / step)
  let ts := portTime n (frameTime d at_ s) s
  let y := getPort n s
  let l := runs.mapIdx fun i r =>
    let seq := ((latched n 0x48 s).toNat + y.seq + i) % 2 ^ 32
    let marker := fin && decide (i + 1 = runs.length)
    let data := r.flatMap fun e => (((rows[e.1]?).getD []).drop e.2.1).take e.2.2
    let body := beBytes (seq / 2 ^ 16) 2 ++ rowHeaders step g (pgroupPixels sm dp) second r ++ data
      ++ List.replicate (blockPad bpm data.length) 0
    let line := step * ((r.getLast?).map (·.1)).getD 0 + (step - 1) - lo
    { Packet.init with
      size := wireSize n (12 + body.length) s
      pic := pic
      since := at_ + line * lineCycles d s
      seq := seq
      ts := ts
      marker := marker
      payload := rtpHeader n (seq % 2 ^ 16) ts marker s ++ body }
  queuePackets n l (setPort n { y with seq := y.seq + l.length } s)

/-- What an EMIT sends of a picture: its index, the picture, whether it sends the second field, the lines of the active area (all where `none`),
whether these are the picture's last, and the mesh cycle at which the entry fired. -/
structure EmitOut where
  pic : Nat
  held : HeldPic
  second : Bool
  lines : Option (Nat × Nat)
  fin : Bool
  fired : Nat
  deriving DecidableEq, Repr

/-- An emitted picture goes to the enabled egress ports of its pipeline: ST 2110-20 packets, or with its last lines of the first field one host-ring
unit; an SDI port sends it line by line under SDI_OUTPUT_LINE. -/
def emitToPorts (p : Nat) (o : EmitOut) (s : State) : State :=
  (egressPorts p s).foldl (fun a n =>
    match portEntry n a with
    | none => a
    | some e =>
      let d := pipeDomain p a
      if e.kind = 0 then
        let img := rasterPlanes d o.second o.held a
        let l := match o.lines with | some r => (min img.y.length r.1, min img.y.length r.2) | none => (0, img.y.length)
        queueVideo n p o.pic img o.second l.1 l.2 o.fin o.fired a
      else if e.kind = 3 ∧ o.fin = true ∧ (o.second = false ∨ o.held.field = true) then
        onPort n (fun x => { x with units := x.units ++ [⟨o.pic, true, true, planeBytes (outPlanes (domInterlaced d a) o.held), []⟩] }) a
      else a) s

/-! ### TS insertions (R492) -/

/-- A TS_RTP port sends: enabled, and not in SAFE. -/
def tsSends (n : Nat) (s : State) : Bool :=
  sptEnabled n s && portEncap n s == 3 && curMode s != 5 && (portEntry n s).any (·.egress)

/-- A datagram that begins with a PCR packet joins the queue; its PCR is stamped as it leaves the MAC. -/
def pcrInsert (n : Nat) (s : State) : State :=
  if tsSends n s then
    let l := [pcrTs (tsPid n s) (smGet 0 (tsPid n s) (getPort n s).cc + 15)]
    queueTs n 3 0 (portTime n s.clock.timeBase s) (tsGroups (tsPackets n s) true 1 l).1 false [] (onPort n (fun x => { x with pcrAt := s.now }) s)
  else s

def psiInsert (n : Nat) (s : State) : State := if tsSends n s then sendPsi n s else s

/-- PCR_MS and the 100 ms of PAT and PMT have passed since the last (R492). -/
def pcrDue (n : Nat) (s : State) : Bool :=
  decide ((getPort n s).pcrAt + 1600000 * orIf0 40 (getF SptTs.pcrMs (latched n 0x4C s)) ≤ s.now)

def psiDue (n : Nat) (s : State) : Bool := decide ((getPort n s).psiAt + 160000000 ≤ s.now)

/-- The insertions that are due at port `n`. -/
def tsInsertions (n : Nat) (s : State) : State :=
  let s1 := if psiDue n s then psiInsert n s else s
  if pcrDue n s1 then pcrInsert n s1 else s1

/-- The PCR of a time: 27 MHz ticks with SPT_IMP_PCR_OFS added, modulo 2^33 x 300 (R492, R514). -/
def pcrOf (n : Nat) (s : State) : Nat :=
  ((s.clock.timeBase * 27000000 / 10 ^ 21 + sint (rd (Reg.sptImpPcrOfs n) s)) % (2 ^ 33 * 300 : Nat)).toNat

/-- Null packets pad a multiplex of a set rate: where its next datagram is due and none waits, port `n` queues one of null
packets (R492). -/
def tsPadPort (n : Nat) (s : State) : State :=
  let x := getPort n s
  if sptEnabled n s = true ∧ portEncap n s = 3 ∧ tsSpacing n s ≠ 0 ∧ x.queue.isEmpty = true ∧ x.tsNext ≤ s.now then
    queueTs n 0 0 (portTime n s.clock.timeBase s) [(List.replicate (tsPackets n s) nullTs).flatten] false [] s
  else s

/-- Padding of every multiplex of target `t`. -/
def tsPad (t : Nat) (s : State) : State :=
  if curMode s = 5 then s else (targetPorts t s).foldl (fun a n => tsPadPort n a) s

/-! ### Transmission (R505 to R508) -/

/-- The mesh cycles that `size` wire bytes take at target `t` (R505). -/
def sendCycles (t size : Nat) (s : State) : Nat := ceilDiv (size * 12800000) (targetRate t s)

/-- Begin to send a packet of port `n`. -/
def startPacket (n t : Nat) (k : Packet) (rest : List Packet) (deficit : Nat) (s : State) : State :=
  let x := getPort n s
  let s1 := setPort n { x with queue := rest, sending := some k, deficit := deficit } s
  let y := getTarget t s1
  refreshPort n (setTarget t { y with busy := n + 1, endAt := s.now + sendCycles t k.size s } s1)

/-- One round after another of deficit round robin, until a packet starts (R506). -/
def drr (t : Nat) (hp : Bool) : Nat → State → State
  | 0, s => s
  | f + 1, s =>
    let y := getTarget t s
    match if hp then y.high else y.low with
    | [] => s
    | n :: rest =>
      let x := getPort n s
      let d := if x.fresh then x.deficit + (fget (Reg.schPortCtl n) SchPortCtl.quantum s + 1) * 64 else x.deficit
      match x.queue with
      | [] => s
      | k :: ks =>
        if k.size ≤ d then startPacket n t k ks (d - k.size) (setPort n { x with deficit := d, fresh := false } s)
        else
          let y1 : Target32 := if hp then { y with high := rest ++ [n] } else { y with low := rest ++ [n] }
          drr t hp f (setPort n { x with deficit := d, fresh := true } (setTarget t y1 s))

/-- Rounds that are enough for the head packets of a list. -/
def drrFuel (l : List Nat) (s : State) : Nat :=
  l.length * (2 + l.foldl (fun a n => match (getPort n s).queue with | k :: _ => max a (k.size / 64) | [] => a) 0)

/-- A transmit opportunity of target `t`, after the padding of its multiplexes: PTP messages, then the egress RAW_ETH port, then PRIO 1, then PRIO 0. -/
def transmit (t : Nat) (s : State) : State :=
  let s0 := refreshTarget t (tsPad t s)
  let y := getTarget t s0
  if y.busy ≠ 0 ∨ targetUp t s0 = false ∨ curMode s0 = 5 then s0
  else
    match y.ptp with
    | k :: rest => emit (.frame 1024 1 k.seq k.ts k.size false true k.payload) (setTarget t { y with ptp := rest, busy := 1025, endAt := s0.now + sendCycles t k.size s0 } s0)
    | [] =>
      let raw := if t < 32 then rawPort (t / 4) (t % 4) true s0 else none
      match raw, (match raw with | some n => (getPort n s0).queue | none => []) with
      | some n, k :: ks => startPacket n t k ks 0 s0
      | _, _ =>
        if y.high.isEmpty then drr t false (drrFuel y.low s0) s0 else drr t true (drrFuel y.high s0) s0

/-- The configuration change of R508: the credit is set to 0 or to HI. -/
def hiCredit (n : Nat) (s : State) : Int :=
  let h := (rd (Reg.schHiCredit n) s).toNat % 2 ^ 24
  let mtu := match targetOf n s with | some t => targetMtu t s | none => 1500
  ((orIf0 (mtu + 42) h * 2 ^ 24 : Nat) : Int)

def applyChange (n : Nat) (l : List (Nat × Word)) (s : State) : State :=
  let s1 := l.foldl (fun a e => wr e.1 e.2 a) s
  let c := if fbit Reg.schCreditOnChange SchCreditOnChange.onChange s1 then hiCredit n s1 else 0
  refreshPort n (onPort n (fun x => { x with credit := c, change := none }) s1)

/-- A write to SCH_PORT_CTL, SCH_IDLE_KBPS or SCH_HI_CREDIT of port `n`: at once, or when the packet being sent ends. -/
def shaperWrite (n off : Nat) (v : Word) (s : State) : State :=
  let x := getPort n s
  if x.sending.isSome then setPort n { x with change := some (x.change.getD [] ++ [(off, v)]) } s
  else applyChange n [(off, v)] s

/-- Reordered packets whose later packets have all been sent come back to the head of the queue (R513). -/
def dueHeld (n : Nat) (s : State) : State :=
  let x := getPort n s
  let out := x.held.filter fun h => h.2.1 == 0
  let out1 := out.map Prod.fst
  setPort n { x with held := x.held.filter fun h => h.2.1 != 0, queue := out1 ++ x.queue } s

/-- The mesh cycles of 1 ms. -/
def holdCycles : Nat := 1600000

/-- The packets held for 1 ms, with their copies, come back (R513). -/
def reorderRelease (n : Nat) (s : State) : State :=
  let x := getPort n s
  let out := x.held.filter fun h => decide (h.2.2 + holdCycles ≤ s.now)
  if out.isEmpty then s
  else
    refreshPort n (setPort n { x with
      held := x.held.filter fun h => !decide (h.2.2 + holdCycles ≤ s.now)
      queue := out.map Prod.fst ++ x.queue } s)

/-- The bytes of a packet as it leaves: a PCR is stamped, an impairment's bit is inverted, and a payload gets its frame; the checksum is that of the
payload before the inversion where `sumOk` is false (R513). A RAW_ETH frame gets its FCS (R495). -/
def frameBytes (n : Nat) (k : Packet) (s : State) : List Byte :=
  if k.kind = 1 then k.payload
  else if k.kind = 2 then k.payload ++ leBytes (crc32 k.payload) 4
  else
    let clean := if k.kind = 3 then stampPcr (pcrOf n s) k.payload else k.payload
    let sent := match k.flip with | some b => flipBit b clean | none => clean
    udpFrame (portPath n k.seq s) sent (if k.sumOk then sent else clean)

/-- Hand a packet to the world, or a cell to the ring's owned cells: CL_SOP and CL_EOP bound a unit, CL_EOPIC a picture (R476,
R493). -/
def leavePacket (n : Nat) (k : Packet) (s : State) : State :=
  if k.kind = 5 then
    let w := latched n 0x58 s
    let v := getF SptRingHr.ringStream w
    let c : RingCell := ⟨0, k.sop, k.eop, k.marker, 0, 0, getF SptRingHr.dest w, v, 0, k.payload⟩
    { s with ring := { s.ring with cells := s.ring.cells ++ [c] } }
  else emit (.frame n k.kind k.seq (if k.kind = 3 then pcrOf n s else k.ts) k.size k.marker k.sumOk (frameBytes n k s)) s

/-- The packet that target `t` sends ends, once its time has passed: it leaves, its buffers go back, a configuration change written during it takes
effect, and reordered packets move on. -/
def packetEnd (t : Nat) (s : State) : State :=
  let y := getTarget t s
  if y.busy = 0 ∨ s.now < y.endAt then s
  else
    let s1 := setTarget t { y with busy := 0 } s
    if y.busy = 1025 then s1
    else
      let n := y.busy - 1
      let x := getPort n s1
      match x.sending with
      | none => s1
      | some k =>
        let s2 := countPacket n k.size (leavePacket n k s1)
        let s3 := onPort n (fun z => { z with sending := none, held := z.held.map fun h => (h.1, h.2.1 - 1, h.2.2) }) s2
        let s4 := dueHeld n (giveBackAll n k.bufs s3)
        let s5 := if portLinkUp n s4 then s4 else dropHeads n (getPort n s4).queue.length s4
        match x.change with
        | some l => applyChange n l s5
        | none => refreshPort n s5

/-- Nanoseconds of the mesh clock. -/
def meshNs (s : State) : Nat := s.now * 5 / 8

/-- One nanosecond of the shaper of port `n` (R507), once it has passed; credit in 2^-24 byte. -/
def creditTick (n : Nat) (s : State) : State :=
  match if meshNs s ≤ (getPort n s).creditAt then none else targetOf n s with
  | none => s
  | some t =>
    let p : Int := targetRate t s
    let i : Int := (rd (Reg.schIdleKbps n) s).toNat
    let up := i * 2 ^ 24 / 8000000
    let x := getPort n s
    let c : Int :=
      if x.sending.isSome then x.credit - (p - i) * 2 ^ 24 / 8000000
      else if headReady n s then min (x.credit + up) (hiCredit n s)
      else if x.credit < 0 then min (x.credit + up) 0
      else 0
    refreshPort n (setPort n { x with credit := c, creditAt := x.creditAt + 1 } s)

def creditTickAll (s : State) : State :=
  ((targetPorts 33 s).filter fun n => sptEnabled n s).foldl (fun a n => creditTick n a) s

/-! ### Telemetry (R511) -/

/-- SAMPLE_US has passed since the last sample; values above 1,000 act as 1,000. -/
def sampleDue (n : Nat) (s : State) : Bool :=
  fget (Reg.schPortCtl n) SchPortCtl.sampleUs s != 0
    && decide ((getPort n s).sampleAt + 1600 * min 1000 (fget (Reg.schPortCtl n) SchPortCtl.sampleUs s) ≤ s.now)

/-- An egress port samples its queue. -/
def queueSample (n : Nat) (s0 : State) : State :=
  if sptEnabled n s0 = false ∨ sampleDue n s0 = false ∨ (portEntry n s0).any (·.egress) = false then s0
  else
    let s := onPort n (fun x => { x with sampleAt := s0.now }) s0
    let q := (getPort n s).queue
    let depth := sumNat ((q.filter fun k => decide (k.since ≤ s.now)).map (·.size))
    let delay := match q with | k :: _ => min (2 ^ 32 - 1) ((s.now - k.since) * 5 / 8) | [] => 0
    let keep := fun (off v : Nat) (a : State) => if (rd off a).toNat < v then wr off (BitVec.ofNat 32 v) a else a
    keep (Reg.sptQMaxDelay n) delay (keep (Reg.sptQMaxDepth n) depth
      (wr (Reg.sptQDelay n) (BitVec.ofNat 32 delay) (wr (Reg.sptQDepth n) (BitVec.ofNat 32 depth) s)))

/-! ### Host rings out (R494) -/


/-- A unit's header. -/
def hrHeader (kind flags len pic seq : Nat) : List Byte :=
  leBytes kind 1 ++ leBytes flags 1 ++ leBytes 0 2 ++ leBytes len 4 ++ leBytes pic 4 ++ leBytes seq 4

/-- Drop the unit at the front: counted, HR_DROP_EV, and the next unit sets GAP. -/
def hrDrop (n : Nat) (s : State) : State :=
  let x := getPort n s
  match x.units with
  | [] => s
  | u :: rest =>
    giveBackAll n u.bufs (sptEvent n SptStatus.hrDropEv (dropOther n
      (setPort n { x with units := rest, hrGap := true, hrSeq := x.hrSeq + 1 } s)))

/-- The next unit of a host ring is written to host memory, a flushing read confirms it and WR advances, or it is dropped where it does not fit.
While the link is down it waits (R522). -/
def hrUnitOut (n : Nat) (s : State) : State :=
  let x := getPort n s
  match x.units with
  | [] => s
  | u :: rest =>
    if curMode s = 5 ∨ s.pwr.linkUp = false then s
    else
      let size := hrSize n s
      let w := (rd (Reg.sptHrWr n) s).toNat
      let used := (w + 2 ^ 32 - (rd (Reg.sptHrRd n) s).toNat) % 2 ^ 32
      let o := w % size
      let len := hrUnitBytes u.data.length
      let pad := if size < o + len then size - o else 0
      if size < used + pad + len then hrDrop n s
      else
        let dom := owner s glvPort n
        let flags := (if u.first then 1 else 0) + (if u.last then 2 else 0) + (if x.hrGap then 4 else 0)
        let bytes := hrHeader 1 flags u.data.length u.pic x.hrSeq ++ u.data
        let fill := List.replicate (len - bytes.length) (0 : Byte)
        let s1 := if pad = 0 then s
          else emit (.hostWrite dom (hrBase n s + o) (hrHeader 0 0 (pad - 16) 0 x.hrSeq) false) s
        let s2 := emit (.hostWrite dom (hrBase n s + (if pad = 0 then o else 0)) (bytes ++ fill) false) s1
        let s3 := setPort n { x with units := rest, hrGap := false, hrSeq := x.hrSeq + 1 } s2
        countPacket n len (giveBackAll n u.bufs (wr (Reg.sptHrWr n) (BitVec.ofNat 32 (w + pad + len))
          (emit (.flushRead dom (hrBase n s + (if pad = 0 then o else 0))) s3)))

/-- Drop every unit that waits for the host (R522). -/
def hrDropAll (n : Nat) : Nat → State → State
  | 0, s => s
  | f + 1, s => if (getPort n s).units.isEmpty then s else hrDropAll n f (hrDrop n s)

/-! ### Enable and disable (R516, R517) -/

/-- A port of the composition with these properties is enabled, other than `n`. -/
def otherPort (n : Nat) (f : PortEntry → Bool) (s : State) : Bool :=
  s.comp.ports.any fun e => e.port != n && sptEnabled e.port s && f e

/-- ENCAP is allowed for the use the composition gives the port (R486). -/
def encapAllowed (e : PortEntry) (enc : Nat) (s : State) : Bool :=
  let has := decide (e.pipe < 1024)
  let dec := has && pipeDecodes e.pipe s
  let coded := has && (dec != e.egress)
  match enc with
  | 0 => e.kind == 1
  | 1 => e.kind == 0 && has && !coded
  | 2 | 3 | 4 => e.kind == 0 && coded
  | 5 => (e.kind == 2 && coded) || (e.kind == 3 && has)
  | 6 => e.kind == 3 && !has
  | _ => false

def ipMulticast (v6 : Bool) (a : Nat) : Bool := if v6 then a / 2 ^ 120 == 0xFF else a / 2 ^ 28 == 0xE

/-- The registers of the port's window as software holds them now. -/
def liveReg (n o : Nat) (s : State) : Word := rd (Reg.sptCtl n + o) s

def liveIp (n o : Nat) (v6 : Bool) (s : State) : Nat :=
  let w := fun k => (liveReg n (o + 4 * k) s).toNat
  if v6 then w 0 * 2 ^ 96 + w 1 * 2 ^ 64 + w 2 * 2 ^ 32 + w 3 else w 0

/-- Payload type, SSRC, SPT_2110 and SPT_TS of a partner, and its encapsulation, agree (R516, 0xA7). -/
def pairAgrees (n m : Nat) (s : State) : Bool :=
  portEncap m s == getF SptEncap.encap (liveReg n 0x10 s)
    && getF SptRtp.pt (latched m 0x40 s) == getF SptRtp.pt (liveReg n 0x40 s)
    && latched m 0x44 s == liveReg n 0x44 s && latched m 0x54 s == liveReg n 0x54 s && latched m 0x4C s == liveReg n 0x4C s

/-- R490: SPT_2110 agrees with the pipeline's formats. A decoder's native output takes the stream's format, which is not known
at enable. -/
def formatAgrees (p sm dp : Nat) (s : State) : Bool :=
  let q := paramsOf p 0 s
  if pipeDecodes p s then
    let fmt := getF DecOut.fmt (rd (Reg.decOut (encActive p)) s)
    fmt != 1 || (sm == 0 && dp == 1)
  else
    let f := q.inFmt
    sm == (if inputIs422 f then 0 else 1) && dp == (match inputDepth f with | 8 => 0 | 10 => 1 | _ => 2)

/-- The check of a port's enable (R516), its codes in ascending order; 0 passes. -/
def portCheck (n : Nat) (s : State) : Nat :=
  match portEntry n s with
  | none => 0xA0
  | some e =>
    let w := liveReg n 0x10 s
    let enc := getF SptEncap.encap w
    let v6 := fbit (Reg.sptCtl n) SptCtl.ipv6 s
    let dst := liveIp n 0x18 v6 s
    let src := liveIp n 0x28 v6 s
    let udp := liveReg n 0x14 s
    let net := e.kind == 0
    let raw := enc == 6
    let m := if raw then getF SptEncap.ctrlMac w else e.bind
    let j := if raw then getF SptEncap.ctrlPort w else getF SptEncap.macPort w
    let t := 4 * m + j
    let mtu := targetMtu t s
    let rtp := liveReg n 0x40 s
    let pmax := getF SptRtp.payloadMax rtp
    let w2110 := liveReg n 0x54 s
    let sm := getF Spt2110.sampling w2110
    let dp := getF Spt2110.depth w2110
    let hdr := (if v6 then 40 else 20) + 8 + (if enc = 1 then (if getF Spt2110.bpm w2110 = 1 then 26 else 20) else 12)
    let pkts := orIf0 7 (getF SptTs.pkts (liveReg n 0x4C s))
    let hr := liveReg n 0x58 s
    let log2 := getF SptRingHr.hrLog2sz hr
    let base := (liveReg n 0x5C s).toNat + 2 ^ 32 * (liveReg n 0x60 s).toNat
    let imp := fbit (Reg.sptImpCtl n) SptImpCtl.impEn s
    let vid := fun x : Word => if getF SptEncap.vlanEn x = 1 then getF SptEncap.vid x else 0
    let filt := fbit (Reg.sptCtl n) SptCtl.srcFilt s
    let sameKey := fun o : PortEntry =>
      o.kind == 0 && !o.egress && o.bind == e.bind
        && getF SptEncap.macPort (latched o.port 0x10 s) == j && vid (latched o.port 0x10 s) == vid w
        && fbit (Reg.sptCtl o.port) SptCtl.ipv6 s == v6 && ipAddr o.port 0x18 v6 s == dst
        && getF SptUdp.dstPort (latched o.port 0x14 s) == getF SptUdp.dstPort udp
        && fbit (Reg.sptCtl o.port) SptCtl.srcFilt s == filt
        && (!filt || (ipAddr o.port 0x28 v6 s == src && getF SptUdp.srcPort (latched o.port 0x14 s) == getF SptUdp.srcPort udp))
    let sameRaw := fun o : PortEntry =>
      o.kind == 3 && o.egress == e.egress && portEncap o.port s == 6
        && getF SptEncap.ctrlMac (latched o.port 0x10 s) == m && getF SptEncap.ctrlPort (latched o.port 0x10 s) == j
    if encapAllowed e enc s = false then 0xA1
    else if net ∧ (dst = 0 ∨ getF SptUdp.dstPort udp = 0 ∨ ipMulticast v6 src = true
        ∨ (v6 = true ∧ Config.standardAdmits 0xA2 [dst, src] = false)) then 0xA2
    else if (net ∧ e.egress = false ∧ otherPort n sameKey s = true) ∨ (raw ∧ otherPort n sameRaw s = true) then 0xA3
    else if (net ∨ raw) ∧ (8 ≤ m ∨ (portLanes (macMode m s) (portNarrow m j s) j).isEmpty = true) then 0xA4
    else if net ∧ e.egress = true ∧ (mtu < (if enc = 3 then 188 * pkts else pmax) + hdr
        ∨ (enc = 1 ∧ pmax < pgroupBytes sm dp) ∨ (enc = 3 ∧ pmax < 188 * pkts)) then 0xA5
    else if (fbit (Reg.schPortCtl n) SchPortCtl.shapeEn s ∧ e.egress = true
          ∧ ((rd (Reg.schIdleKbps n) s).toNat = 0 ∨ targetRate (if e.kind = 2 then 32 else t) s < (rd (Reg.schIdleKbps n) s).toNat))
        ∨ (rd (Reg.sptPolRate n) s ≠ 0 ∧ (rd (Reg.sptPolBurst n) s).toNat % 2 ^ 24 < mtu + 22) then 0xA6
    else if e.pair < 1024 ∧ sptEnabled e.pair s = true ∧ pairAgrees n e.pair s = false then 0xA7
    else if e.kind = 3 ∧ (log2 = 15 ∨ base % 2 ^ (16 + log2) ≠ 0 ∨ fbit (Reg.dmaCtl e.bind) DmaCtl.enable s = true) then 0xA8
    else if enc = 1 ∧ (1 < sm ∨ dp = 3 ∨ formatAgrees e.pipe sm dp s = false) then 0xA9
    else if e.kind = 2 ∧ ((e.egress = false ∧ otherPort n (fun o => o.kind == 2 && !o.egress
        && portStream o.port s == getF SptRingHr.ringStream hr) s = true) ∨ (e.egress = true ∧ getF SptRingHr.dest hr = 0)) then 0xAA
    else if e.kind = 3 ∧ owner s glvDma e.bind ≠ owner s glvPort n then 0xAB
    else if (imp ∧ e.egress = false) ∨ (fget (Reg.sptImpProb1 n) SptImpProb0.probA s ≠ 0
          ∧ fget (Reg.sptImpCtl n) SptImpCtl.reorderDepth s = 0)
        ∨ (rd (Reg.sptImpPcrOfs n) s ≠ 0 ∧ enc ≠ 3) then 0xAC
    else 0

/-- The counters that enable sets to 0 (R517). -/
def portCounters (n : Nat) : List Nat :=
  [Reg.sptPktsLo n, Reg.sptPktsHi n, Reg.sptBytesLo n, Reg.sptBytesHi n, Reg.sptDropPol n, Reg.sptDropPool n,
    Reg.sptDropOther n, Reg.sptMergeDup n, Reg.sptLoss n, Reg.sptCsumBad n, Reg.sptImpCnt0 n, Reg.sptImpCnt1 n,
    Reg.sptHrWr n, Reg.sptHrRd n]

/-- The picture a newly enabled egress port begins with: the last one past its full-count deadline that is still there, else the oldest. -/
def firstRelease (p : Nat) (s : State) : Nat :=
  match outPic p (·.freed) s with
  | some q => q.idx
  | none => (getPipe p s).next

/-- An egress port whose ST 2022-7 partner is enabled goes on from the partner's packets (R504): its RTP registers, and the
sequence number with which the partner begins picture `first`. -/
def joinPartner (n first : Nat) (x : Port) (s : State) : Port :=
  match portEntry n s with
  | some e =>
    if e.egress = true ∧ e.pair < 1024 ∧ sptEnabled e.pair s = true then
      let y := getPort e.pair s
      let l := [0x40, 0x44, 0x48].foldl (fun m o => smSet 0 o (latched e.pair o s) m) x.latched
      let mid := decide (first = y.relPic ∧ y.relSent ≠ 0)
      { x with latched := l, seq := if mid then y.picSeq else y.seq, cc := if mid then y.picCc else y.cc }
    else x
  | none => x

/-- Enable port `n`, in BIVOUAC, RUN or MAINTAIN (R165): its check, its latched registers, counters, credit, bucket and generator. -/
def portEnable (n : Nat) (s : State) : State :=
  if sptEnabled n s ∨ released s = false then s
  else
    let code := portCheck n s
    let s1 := fput (Reg.sptStatus n) SptStatus.sptRefuse code s
    if code ≠ 0 then s1
    else
      let regs : SMap Word := (List.range 21).foldl (fun m k => smSet 0 (0x10 + 4 * k) (liveReg n (0x10 + 4 * k) s) m) []
      let s2 := (portCounters n).foldl (fun a o => wr o 0 a) s1
      let first := match portEntry n s with | some e => if e.pipe < 1024 then firstRelease e.pipe s else 0 | none => 0
      let x : Port := { Port.init with
        latched := regs, x := seedOf (rd (Reg.sptImpSeed n) s), tokens := bucketDepth n s, relNext := first, relPic := first,
        tsNext := s.now, pcrAt := s.now, psiAt := s.now, heard := s.now, tokenAt := s.now, sampleAt := s.now, creditAt := meshNs s }
      let x1 := joinPartner n first x s
      let s3 := (getPort n s).merge.foldl (fun a m => unitFreeAll (partBufs m.bufs) (portOwner m.port) a) s2
      fset (Reg.sptCtl n) SptCtl.enable (setPort n x1 s3)

/-- The row-unit chunks of pipeline `p` that port `n` holds and has not packetised go back. -/
def dropHeldUnits (n p : Nat) (s : State) : State :=
  let x := getPipe p s
  let l := x.pics.flatMap fun q => (q.units.filter fun u => u.2.holders.contains n).flatMap fun u => u.2.bufs
  let s1 := giveBackAll n l s
  onPipe p (fun y => { y with pics := y.pics.map fun q =>
    { q with units := q.units.map fun u =>
      if u.2.holders.contains n then
        let left := u.2.holders.filter (· != n)
        (u.1, { u.2 with holders := left, bufs := if left.isEmpty then [] else u.2.bufs })
      else u } }) s1

/-- Clear ENABLE (R517): an ingress port stops at its next frame boundary; an egress port discards what it has queued. -/
def portDisable (n : Nat) (s : State) : State :=
  if sptEnabled n s = false then s
  else
    let s1 := fclr (Reg.sptCtl n) SptCtl.enable s
    match portEntry n s with
    | none => s1
    | some e =>
      let x := getPort n s
      if e.egress = false then onPort n (fun y => { y with stopping := true }) s1
      else
        let bufs := x.queue.flatMap (·.bufs) ++ x.held.flatMap (·.1.bufs) ++ x.units.flatMap (·.bufs) ++ x.tsBufs
        let s2 := setPort n { x with queue := [], held := [], units := [], es := [], tsHold := [], tsBufs := [] } s1
        let s3 := giveBackAll n bufs s2
        refreshPort n (if e.pipe < 1024 then dropHeldUnits n e.pipe s3 else s3)

/-- A write to SPT_CTL: the plain fields, then ENABLE. -/
def sptCtlWrite (n : Nat) (v : Word) (s : State) : State :=
  let r := Reg.sptCtl n
  let ev := (rd (Reg.sptStatus n) s).toNat % 128
  let was := ev &&& fget r SptCtl.irqEn s
  let now := ev &&& getF SptCtl.irqEn v
  let s1 := fput r SptCtl.irqEn (getF SptCtl.irqEn v) (fput r SptCtl.csumIgnore (getF SptCtl.csumIgnore v)
    (fput r SptCtl.srcFilt (getF SptCtl.srcFilt v) (fput r SptCtl.ipv6 (getF SptCtl.ipv6 v) s)))
  let s2 := raiseWhen (decide (was = 0 ∧ now ≠ 0)) (448 + n / 16) s1
  if getF SptCtl.enable v = 1 then portEnable n s2 else portDisable n s2

/-- A write to SPT_IMP_SEED reseeds the generator (R512). -/
def impSeedWrite (n : Nat) (v : Word) (s : State) : State :=
  onPort n (fun x => { x with x := seedOf v }) (wr (Reg.sptImpSeed n) v s)

/-- A write to SPT_POL_RATE or SPT_POL_BURST fills the bucket (R498). -/
def policerWrite (n off : Nat) (v : Word) (s : State) : State := policerFill n (wr off v s)

end Sys2Proof.Machine
end

