-- ==== Sys2Proof/Machine/Ring.lean ====
section
/-! DEFINITION. The cascade ring (R463 to R480): states and the choice of a master, time, triggers, marks and cells. -/

namespace Sys2Proof.Machine

open Sys2Proof

def onRing (f : RingSt → RingSt) (s : State) : State := { s with ring := f s.ring }

/-! ### Frames as bytes (R465, R467, R475, R476) -/

def ringZeros (n : Nat) : List Byte := List.replicate n 0

/-- A mark record. -/
def markBytes (m : RingMark) : List Byte :=
  leBytes (128 + (if m.pass then 64 else 0) + m.src % 16) 1 ++ leBytes (m.domain % 16) 1 ++ leBytes m.frame 6 ++ leBytes m.line 2
    ++ leBytes m.sample 3 ++ ringZeros 3 ++ leBytes m.arg.toNat 4 ++ leBytes m.sec 6 ++ leBytes m.ns 4 ++ ringZeros 2

/-- The 256-byte frame header. -/
def frameHeader (f : RingFrame) : List Byte :=
  leBytes f.kind 1 ++ leBytes (16 * (f.updId % 16) + f.masterId % 16) 1 ++ leBytes f.masterPri 1 ++ ringZeros 1 ++ leBytes f.seq 4
    ++ leBytes f.sec 6 ++ ringZeros 2 ++ leBytes f.ns 4 ++ leBytes f.acc 4 ++ [f.trigUp, f.trigAll] ++ ringZeros 2
    ++ leBytes f.loop 4 ++ ringZeros 32
    ++ (List.range 4).flatMap (fun k => match f.marks.find? fun m => m.slot == k with | some m => markBytes m | none => ringZeros 32)
    ++ ringZeros 64

/-- A valid cell: its header and its payload. -/
def cellBytes (c : RingCell) : List Byte :=
  leBytes (128 + (if c.sop then 64 else 0) + (if c.eop then 32 else 0) + (if c.eopic then 16 else 0) + c.src % 16) 1
    ++ leBytes (c.age % 4) 1 ++ leBytes c.dest 2 ++ leBytes (c.stream % 1024) 2 ++ leBytes c.payload.length 2 ++ leBytes c.seq 2
    ++ ringZeros 6 ++ c.payload

/-- The frame as it leaves on the RGO balls: its header, and its valid cells by number. -/
def ringOut (f : RingFrame) : Output := .ringFrame (frameHeader f) (f.cells.map fun c => (c.number, cellBytes c))

/-- The codeword that carries byte `i` of a frame after the alignment markers: the markers take 8 bytes of each of the first four codewords
of 660 bytes. -/
def codewordOf (i : Nat) : Nat := if i < 2608 then i / 652 else 4 + (i - 2608) / 660

/-- Codewords that could not be corrected void the header, and cell `k`. -/
def headerVoid (bad : List Nat) : Bool := bad.contains 0
def cellVoid (bad : List Nat) (k : Nat) : Bool :=
  bad.any fun c => decide (codewordOf (256 + 256 * k) ≤ c) && decide (c ≤ codewordOf (511 + 256 * k))

/-- What is left of a frame. -/
def cellsLeft (bad : List Nat) (f : RingFrame) : RingFrame := { f with cells := f.cells.filter fun c => !cellVoid bad c.number }

/-- Codewords of a frame that could not be corrected. -/
def badWords (bad : List Nat) : Nat := ((List.range 40).filter bad.contains).length

/-! ### State -/

/-- The ring ports of the composition show whether the device is a member or master. -/
def setRingState (v : Nat) (s : State) : State :=
  setTargetUp (decide (v = 2 ∨ v = 3)) ((s.comp.ports.filter fun e => e.kind == 2).map (·.port))
    (fput Reg.lanRingStatus LanRingStatus.ringState v s)

def ringFlag (f : Fld) (src : Nat) (s : State) : State := raise src (fset Reg.lanRingStatus f s)

/-- The member path is in use. -/
def memberPath (s : State) : Bool := fget Reg.chipMode ChipMode.mittenPath s == 0 && s.comp.ringEn && curMode s != 0 && curMode s != 5

/-- The check of LAN_RING_CTL.ACTIVE (R462); `clk` tells which reference clocks run. -/
def ringCheck (clk : BitVec 4) (s : State) : Nat :=
  let first := fget Reg.lanRingCells LanRingCells.cellFirst s
  let count := fget Reg.lanRingCells LanRingCells.cellCount s
  if s.comp.ringEn = false then 0xB0
  else if !clk.getLsbD (laneClock 48 s) then 0xB2
  else if 102 < first + count then 0xB4
  else if anyPrbs [48, 49, 50, 51, 52, 53, 54, 55] s then 0xB5
  else if !modeAllowsUnits s then 0xB6
  else 0

/-- A write to LAN_RING_CTL (R469, R470): PRI and RING_ID, then ACTIVE. A change takes effect at the next frame boundary. -/
def ringCtlWrite (v : Word) (clk : BitVec 4) (s : State) : State :=
  let r := Reg.lanRingCtl
  let s1 := fput r LanRingCtl.pri (getF LanRingCtl.pri v) (fput r LanRingCtl.ringId (getF LanRingCtl.ringId v) s)
  let was := fbit r LanRingCtl.active s
  let on := getF LanRingCtl.active v == 1
  if on && !was then
    let code := ringCheck clk s1
    let s2 := fput Reg.lanRingStatus LanRingStatus.ringRefuse code s1
    if code = 0 then
      onRing (fun x => { x with
        pri := getF LanRingCtl.pri v
        id := getF LanRingCtl.ringId v
        first := fget Reg.lanRingCells LanRingCells.cellFirst s
        count := fget Reg.lanRingCells LanRingCells.cellCount s
        heardAt := s.now
        wanted := some true }) (fset r LanRingCtl.active s2)
    else s2
  else if !on && was then onRing (fun x => { x with wanted := some false }) (fclr r LanRingCtl.active s1)
  else s1

/-- A frame boundary: a device that a release or a path change left OFF enters FORWARD, else a change of ACTIVE takes effect. -/
def ringBoundary (s : State) : State :=
  if ringState s = 0 then setRingState 1 s
  else
    match s.ring.wanted with
    | none => s
    | some on => setRingState (if on then 2 else 1) (onRing (fun x => { x with wanted := none, cells := if on then x.cells else [] }) s)

/-- Candidate (pri, id) is better than candidate (pri', id') (R470). -/
def betterCandidate (pri id pri' id' : Nat) : Bool := decide (pri' < pri) || (pri == pri' && decide (id < id'))

/-! ### Time (R472, R473) -/

def frameNs (f : RingFrame) : Nat := f.sec * 1000000000 + f.ns

/-- Time of the chip time base in ns. -/
def chipNs (s : State) : Nat := (s.clock.timeBase / 10 ^ 12).toNat

def cableNs (s : State) : Nat := fget Reg.lanRingCable LanRingCable.cableNs s

/-- Master time at the frame's start on the device's own RGI balls. -/
def reckon (f : RingFrame) (s : State) : Nat := frameNs f + f.acc + cableNs s

/-- Reckon time from a frame, or withhold it while the last updater is not the one expected. -/
def ringTime (f : RingFrame) (s : State) : State :=
  let s1 := fput Reg.lanRingStatus LanRingStatus.updId f.updId s
  if f.updId = fget Reg.lanRingCable LanRingCable.upId s then
    onRing (fun x => { x with told := false, time := if f.kind = 1 then some (reckon f s) else x.time }) s1
  else
    let s2 := onRing (fun x => { x with time := none, told := true }) s1
    if s.ring.told then s2 else ringFlag LanRingStatus.upstreamChg 444 s2

/-- A MASTER frame names the master; another one than before is a change, which the RING source acquires afresh (R473). -/
def ringMaster (f : RingFrame) (s : State) : State :=
  let changed := s.ring.masterSeen && fget Reg.lanRingStatus LanRingStatus.masterId s != f.masterId
  let s1 := fput Reg.lanRingStatus LanRingStatus.masterId f.masterId
    (onRing (fun x => { x with
      heardAt := if x.masterSeen && f.seq == x.lastSeq then x.heardAt else s.now
      masterSeen := true
      lastSeq := f.seq }) s)
  let s2 := if changed then ringFlag LanRingStatus.masterChg 441 s1 else s1
  if changed && refAct s == 4 && s.clock.running then selectSource 4 s2 else s2

/-! ### Triggers (R474) -/

/-- A ring trigger acts as a filtered event on TRIG_IN[t mod 4] for the schedule. -/
def ringTrigger (t : Nat) (s : State) : State := latchTrigger (t % 4) (armTriggers (t % 4) s)

/-- The broadcast triggers of a frame: each enabled one acts 4 µs after the frame's start, or at once where the reckoned arrival
lies past that. -/
def ringTriggers (f : RingFrame) (arrival : Nat) (s : State) : State :=
  let en := fget Reg.lanRingTrig LanRingTrig.rxEn s
  let at_ := frameNs f + 4000
  (List.range 8).foldl (fun a t =>
    if f.trigAll.getLsbD t && en.testBit t then
      if at_ < arrival then ringTrigger t (fset Reg.lanRingStatus LanRingStatus.lateTrig a)
      else onRing (fun x => { x with trigDue := x.trigDue ++ [(t, s.now + ceilDiv (8 * (at_ - arrival)) 5)] }) a
    else a) s

/-- Ring trigger `t` acts once its time has come. -/
def ringTriggerAction (t : Nat) (s : State) : State :=
  match s.ring.trigDue.find? fun d => d.1 == t && decide (d.2 ≤ s.now) with
  | none => s
  | some d => ringTrigger t (onRing (fun x => { x with trigDue := x.trigDue.erase d }) s)

/-- A filtered TRIG_IN[n] event raises the ring trigger that TX_MAP gives it. -/
def ringTrigIn (n : Nat) (s : State) : State :=
  let k := fget Reg.lanRingTrig LanRingTrig.txMap s / 16 ^ n % 16
  if 8 ≤ k ∧ (ringState s = 2 ∨ ringState s = 3) then
    onRing (fun x => { x with trigUp := x.trigUp ||| BitVec.ofNat 8 (2 ^ (k % 8)) }) s
  else s

/-! ### Marks (R475) -/

/-- Position (frame, line, sample) of domain `d` at a time of the time base. -/
def posAt (d : Nat) (t : Int) (s : State) : Int × Nat × Nat :=
  let e := rasterE d t (getRaster d s).ofs s
  let f := e / (spf8 d s : Nat)
  let o := (e - f * (spf8 d s : Nat)).toNat
  (f, o / spl8 d s, o % spl8 d s)

/-- A RING_MARK entry reaches the ring: the mark waits for the next outgoing frame, or is dropped and counted. -/
def ringMarkAction (a : Action) (s : State) : State :=
  if ringState s = 2 ∨ ringState s = 3 then
    onRing (fun x => { x with marks := x.marks ++ [(a.dom, BitVec.ofNat 32 a.arg)] }) s
  else bump Reg.lanRingMark LanRingMark.marksDelayed s

/-- Slots of a frame that hold no mark. -/
def emptySlots (l : List RingMark) : List Nat := (List.range 4).filter fun k => l.all fun m => m.slot != k

/-- The mark of a waiting entry, in a frame that starts at time `t` (10^-21 s). -/
def makeMark (slot id : Nat) (w : Nat × Word) (t : Int) (s : State) : RingMark :=
  let p := posAt w.1 t s
  let ns := (t / 10 ^ 12).toNat
  ⟨slot, false, id, w.1, (p.1 % 2 ^ 48).toNat, p.2.1, p.2.2, w.2, ns / 1000000000, ns % 1000000000⟩

/-- Write waiting marks into the empty slots of a frame; those left over are delayed and counted. -/
def writeMarks (t : Int) (l : List RingMark) (s : State) : List RingMark × State :=
  let slots := emptySlots l
  let new := (slots.zip s.ring.marks).map fun k => makeMark k.1 s.ring.id k.2 t s
  let left := s.ring.marks.drop new.length
  (l ++ new, bumpBy left.length Reg.lanRingMark LanRingMark.marksDelayed
    (onRing (fun x => { x with
      marks := left, sent := (new.map (fun m => (m.slot, m.sec, m.ns)) ++ x.sent).take 64 }) s))

/-- Take a mark of another device, once: the difference of positions at MK_T. -/
def takeMark (m : RingMark) (s : State) : State :=
  let own := (ringState s == 2 || ringState s == 3) && m.src == s.ring.id
  if own then
    if s.ring.sent.contains (m.slot, m.sec, m.ns) then s else ringFlag LanRingStatus.clash 442 s
  else if s.ring.taken.contains (m.src, m.sec, m.ns) then s
  else
    let d := m.domain
    let p := posAt d ((m.sec * 1000000000 + m.ns : Nat) * 10 ^ 12) s
    let e := fun (f : Int) (l smp : Nat) => f * (spf8 d s : Nat) + (l * spl8 d s + smp : Nat)
    let fr : Int := if m.frame < 2 ^ 47 then m.frame else (m.frame : Int) - 2 ^ 48
    let diff := e p.1 p.2.1 p.2.2 - e fr m.line m.sample
    let s1 := fput Reg.lanRingMark LanRingMark.mkDomain d (fput Reg.lanRingMark LanRingMark.mkSrc m.src s)
    raise 443 (onRing (fun x => { x with taken := ((m.src, m.sec, m.ns) :: x.taken).take 64 })
      (wr Reg.lanRingMarkDiff (BitVec.ofInt 32 diff) (wr Reg.lanRingMarkArg m.arg s1)))

/-! ### Cells (R476 to R478) -/

def ownsCell (k : Nat) (s : State) : Bool := decide (s.ring.first ≤ k) && decide (k < s.ring.first + s.ring.count)

/-- Take a valid cell: a clash of owners, and delivery where it names this device. -/
def takeCell (c : RingCell) (s : State) : State :=
  let clash := if ownsCell c.number s then c.src != s.ring.id else c.src == s.ring.id
  let s1 := if clash then ringFlag LanRingStatus.clash 442 s else s
  if c.dest.testBit s.ring.id then
    let key := 1024 * c.src + c.stream
    match ringPortOf c.stream s1 with
    | none => s1
    | some n =>
      let last := smGet 0 key s1.ring.rxSeq
      let skip := if last = 0 then 0 else (c.seq + 2 ^ 16 - last % 2 ^ 16) % 2 ^ 16
      if 2 ^ 15 ≤ skip then s1
      else
        let s2 := onRing (fun x => { x with rxSeq := smPut key (c.seq + 1) x.rxSeq }) s1
        bump Reg.lanRingCellRx LanRingBadfrm.count (ringCellIn n skip c s2)
  else s1

/-- The cells that the device writes into its owned numbers in a frame, taken from its egress ring ports. -/
def writeCells (s : State) : List RingCell × State :=
  let out := s.ring.cells.take s.ring.count
  let r := out.foldl (fun (a : List RingCell × SMap Nat) c =>
    let q := smGet 0 c.stream a.2
    (a.1 ++ [{ c with number := s.ring.first + a.1.length, src := s.ring.id, age := 0, seq := q }],
      smSet 0 c.stream ((q + 1) % 2 ^ 16) a.2)) ([], s.ring.txSeq)
  (r.1, bumpBy r.1.length Reg.lanRingCellTx LanRingBadfrm.count
    (onRing (fun x => { x with cells := x.cells.drop x.count, txSeq := r.2 }) s))

/-! ### Frames -/

/-- A MASTER frame with an advancing sequence under frame lock, whose reckoning is not withheld: the RING source is sound (R473). -/
def ringSound (f : RingFrame) (s : State) : Bool :=
  f.kind == 1 && f.seq != s.ring.lastSeq && fbit Reg.lanRingStatus LanRingStatus.frameLock s
    && f.updId == fget Reg.lanRingCable LanRingCable.upId s

/-- What every device on the ring reads from a frame. -/
def readFrame (f : RingFrame) (s : State) : State :=
  let s0 := if ringSound f s then noteValid 5 s else s
  let s1 := if f.kind = 1 then ringMaster f s0 else s0
  let s2 := wr Reg.lanRingLoop (BitVec.ofNat 32 f.loop) (ringTime f s1)
  f.marks.foldl (fun a m => takeMark m a) (ringTriggers f (reckon f s) s2)

/-- A MEMBER updates the header, writes its marks and its cells, and forwards the frame (R472, R474 to R476). -/
def memberForward (f : RingFrame) (s : State) : State :=
  let s1 := f.cells.foldl (fun a c => takeCell c a) s
  let kept := f.marks.filter fun m => !(m.src == s.ring.id && m.pass && s.ring.sent.contains (m.slot, m.sec, m.ns))
  let m := writeMarks (s1.clock.timeBase + 40 * 10 ^ 12) kept s1
  let c := writeCells m.2
  let out : RingFrame := { f with
    acc := f.acc + cableNs s + 40
    updId := s.ring.id
    trigUp := f.trigUp ||| c.2.ring.trigUp
    marks := m.1
    cells := (f.cells.filter fun k => !ownsCell k.number s) ++ c.1 }
  emit (ringOut out) (onRing (fun x => { x with trigUp := 0 }) c.2)

/-- A frame whose header is void passes a MEMBER: its cells are taken, the device writes its own, and the header goes on as it came
(assumption 182). -/
def memberVoid (f : RingFrame) (s : State) : State :=
  let c := writeCells (f.cells.foldl (fun a c => takeCell c a) s)
  emit (ringOut { f with cells := (f.cells.filter fun k => !ownsCell k.number s) ++ c.1 }) c.2

/-- The device enters MASTER; a RING source of its own is lost from then on (R470, R473). -/
def enterMaster (s : State) : State :=
  let s1 := setRingState 3 (onRing (fun x => { x with returned := none }) s)
  if refAct s = 4 then sourceLost s1 else s1

/-- A frame returns to the master, which strips it: its cells and marks are taken, and it is kept for the next one (R471). -/
def masterReturn (f : RingFrame) (s : State) : State :=
  if f.kind = 1 ∧ f.masterId = s.ring.id then
    let loop := chipNs s - frameNs f
    let s1 := wr Reg.lanRingLoop (BitVec.ofNat 32 loop) (fput Reg.lanRingStatus LanRingStatus.updId f.updId s)
    let s2 := f.marks.foldl (fun a m => takeMark m a) (f.cells.foldl (fun a c => takeCell c a) s1)
    onRing (fun x => { x with returned := some f }) s2
  else s

/-- A frame reaches a candidate (R470). -/
def candidateReceive (f : RingFrame) (s : State) : State :=
  if f.kind = 1 then memberForward f (setRingState 2 (readFrame f s))
  else if f.masterId = s.ring.id ∧ f.masterPri = s.ring.pri then enterMaster s
  else if betterCandidate f.masterPri f.masterId s.ring.pri s.ring.id then memberForward f (setRingState 2 (onRing (fun x => { x with heardAt := s.now }) s))
  else s

/-- Headers lost and found: frame lock (R466). -/
def frameLock (headerBad : Bool) (s : State) : State :=
  let locked := fbit Reg.lanRingStatus LanRingStatus.frameLock s
  if headerBad then
    let s1 := onRing (fun x => { x with badRun := x.badRun + 1 }) s
    if locked && s.ring.badRun + 1 == 64 then
      ringFlag LanRingStatus.lockChg 440 (fclr Reg.lanRingStatus LanRingStatus.frameLock s1)
    else s1
  else
    let s1 := onRing (fun x => { x with badRun := 0 }) s
    if locked then s1 else ringFlag LanRingStatus.lockChg 440 (fset Reg.lanRingStatus LanRingStatus.frameLock s1)

/-- What the member path does with a frame that reaches it. -/
def ringTake (f : RingFrame) (s : State) : State :=
  match ringState s with
  | 1 => emit (ringOut f) (readFrame f s)
  | 2 => memberForward f (readFrame f s)
  | 3 => masterReturn f s
  | 4 => candidateReceive f s
  | _ => s

/-- What it does with one whose header is void: only its cells can be read. A master keeps them for its next frame. -/
def ringVoid (f : RingFrame) (s : State) : State :=
  match ringState s with
  | 1 => emit (ringOut f) s
  | 2 => memberVoid f s
  | 3 =>
    onRing (fun x => { x with returned := some { f with trigUp := 0, marks := [] } }) (f.cells.foldl (fun a c => takeCell c a) s)
  | _ => s

/-- A ring frame arrives, of whose codewords those in `bad` could not be corrected (R465). The pass-through forwards it, and the receivers of a
started chip keep their lock (R178). -/
def ringReceive (f0 : RingFrame) (bad : List Nat) (s : State) : State :=
  let f := cellsLeft bad f0
  if s.pwr.passThrough ∧ fget Reg.chipMode ChipMode.mittenPath s = 1 then
    emit (ringOut f0) (if s.pwr.bypass then s else frameLock (headerVoid bad) s)
  else if memberPath s = false then s
  else
    let s1 := ringBoundary (frameLock (headerVoid bad) (bumpBy (badWords bad) Reg.lanRingBadfrm LanRingBadfrm.count s))
    if headerVoid bad then ringVoid f s1 else ringTake f s1

/-- The master's next frame, from the frame returned (R471). -/
def masterFrame (s : State) : State :=
  let back := s.ring.returned
  let marks := match back with | some f => (f.marks.filter fun m => !m.pass).map fun m => { m with pass := true } | none => []
  let cells := match back with
    | some f => (f.cells.filter fun c => !ownsCell c.number s && decide (c.age + 1 < 2)).map fun c => { c with age := c.age + 1 }
    | none => []
  let up : BitVec 8 := match back with | some f => f.trigUp | none => 0
  let m := writeMarks s.clock.timeBase marks s
  let c := writeCells m.2
  let ns := chipNs s
  let seq := (s.ring.seqOut + 1) % 2 ^ 32
  let f : RingFrame :=
    ⟨1, s.ring.id, s.ring.id, s.ring.pri, seq, ns / 1000000000, ns % 1000000000, 0, 0, up ||| c.2.ring.trigUp,
      (rd Reg.lanRingLoop s).toNat, m.1, cells ++ c.1⟩
  ringTriggers f ns (emit (ringOut f)
    (onRing (fun x => { x with trigUp := 0, returned := none, seqOut := seq, lastSeq := seq, masterSeen := true })
      (fput Reg.lanRingStatus LanRingStatus.masterId s.ring.id c.2)))

/-- A candidate's FORMING frame (R470). -/
def formingFrame (s : State) : State :=
  let ns := chipNs s
  let seq := (s.ring.seqOut + 1) % 2 ^ 32
  emit (ringOut ⟨2, s.ring.id, s.ring.id, s.ring.pri, seq, ns / 1000000000, ns % 1000000000, 0, 0, 0, 0, [], []⟩)
    (onRing (fun x => { x with seqOut := seq }) s)

/-- A microsecond of the chip time base has passed since the device last originated a frame, or the time base has stepped back (R465). -/
def originateDue (s : State) : Bool :=
  decide (s.ring.sentT + 10 ^ 15 ≤ s.clock.timeBase) || decide (s.clock.timeBase < s.ring.sentT)

def originated (s : State) : State := onRing (fun x => { x with sentT := s.clock.timeBase }) s

/-- The master, or a candidate, originates a frame; clearing ACTIVE returns it to FORWARD at this boundary (R469 to R471). -/
def ringOriginate (s : State) : State :=
  if memberPath s = false then s
  else if (ringState s = 3 ∨ ringState s = 4) ∧ s.ring.wanted = some false then ringBoundary s
  else if originateDue s = false then s
  else if ringState s = 3 then originated (masterFrame s)
  else if ringState s = 4 then originated (formingFrame s)
  else s

/-- No advancing MASTER frame for 16 µs: an ACTIVE device with PRI above 0 enters FORMING (R470). -/
def ringMasterTimeout (s : State) : State :=
  if memberPath s ∧ s.ring.heardAt + 25600 ≤ s.now ∧ ringState s ≤ 2 ∧ fbit Reg.lanRingCtl LanRingCtl.active s = true ∧ 0 < s.ring.pri then
    setRingState 4 (onRing (fun x => { x with wanted := none, masterSeen := false, heardAt := s.now, cells := [] }) s)
  else s

/-- A mesh cycle of the ring: what has waited its time acts (R470, R474). -/
def ringCycle (s : State) : State :=
  ringMasterTimeout (s.ring.trigDue.foldl (fun a d => ringTriggerAction d.1 a) s)

end Sys2Proof.Machine
end

