-- ==== Sys2Proof/Machine/Image.lean ====
section
/-! DEFINITION. Composition images (R98 to R108): reading a header, a section table and the sections from bytes, and the
checks 0x01 to 0x0F at the points of R110. -/

namespace Sys2Proof.Machine

open Sys2Proof

/-! ### Reading bytes (R7, R102) -/

/-- An image as its loader reads it: the byte at each offset. -/
abbrev Reader := Nat → Byte

def rdBytes (r : Reader) (o n : Nat) : List Byte := (List.range n).map fun i => r (o + i)
def rdNat (r : Reader) (o n : Nat) : Nat := leNat (rdBytes r o n)
def rdWord (r : Reader) (o : Nat) : Word := BitVec.ofNat 32 (rdNat r o 4)

/-- A refusal of an image (R695): its code, section and object. -/
structure LoadFail where
  code : Nat
  sect : Nat
  obj : Nat
  deriving DecidableEq, Repr

def objNone : Nat := 0xFFFFF
def sectNone : Nat := 0xFF

/-- CHIP_ID of this device. -/
def chipId : Nat := 0x051024B0

/-! ### The header and the section table (R101, R103, R104) -/

def typeVendor : Nat := 0x0001
def typeClock : Nat := 0x0010
def typeDomains : Nat := 0x0011
def typeSchedule : Nat := 0x0012
def typeBlocks : Nat := 0x0013
def typePipelines : Nat := 0x0014
def typePorts : Nat := 0x0015
def typeMemory : Nat := 0x0016
def typePools : Nat := 0x0017
def typeLanes : Nat := 0x0018
def typeGlove : Nat := 0x0019
def typePower : Nat := 0x001A

/-- Section types a full image must have, and those a region image has and may have. -/
def fullTypes : List Nat := [1, 0x10, 0x11, 0x12, 0x13, 0x14, 0x15, 0x16, 0x17, 0x18, 0x19, 0x1A]
def regionTypes : List Nat := [0x12, 0x13, 0x14, 0x15, 0x16]

def sectionCount (r : Reader) : Nat := rdNat r 0x2C 4

/-- Entry `i` of the section table. -/
def sectionEntry (r : Reader) (i : Nat) : Section :=
  ⟨i, rdNat r (0x40 + 64 * i) 2, rdNat r (0x40 + 64 * i + 4) 4, rdNat r (0x40 + 64 * i + 8) 4⟩

def sectionsOf (r : Reader) : List Section := (List.range (min 32 (sectionCount r))).map (sectionEntry r)

def sectionOf (l : List Section) (t : Nat) : Option Section := l.find? fun e => e.type == t

/-- The index of a section type in the table. -/
def sectIndex (l : List Section) (t : Nat) : Nat := match sectionOf l t with | some e => e.index | none => sectNone

def sectionsOverlap (a b : Section) : Bool :=
  decide (0 < a.length) && decide (0 < b.length) && decide (a.offset < b.offset + b.length) && decide (b.offset < a.offset + a.length)

/-- Entry `e` breaks R103 against the entries before it. -/
def sectionBad (len : Nat) (before : List Section) (e : Section) : Bool :=
  decide (len < e.offset + e.length) || decide (e.offset % 4096 ≠ 0) || decide (e.offset < 0x1000)
    || before.any (fun b => sectionsOverlap b e || b.type == e.type)

def firstBadSection (len : Nat) : List Section → List Section → Option Nat
  | _, [] => none
  | before, e :: l => if sectionBad len before e then some e.index else firstBadSection len (before ++ [e]) l

/-- The first table entry beyond IMG_SECTIONS that is not all zero. -/
def firstUsedBeyond (r : Reader) : Option Nat :=
  ((List.range 32).filter fun i => decide (sectionCount r ≤ i)).find? fun i =>
    (rdBytes r (0x40 + 64 * i) 64).any fun b => b != 0

/-- Check 0x06. For a count of 0 or above 32 the spec names no entry (assumption 172). -/
def tableFault (r : Reader) : Option Nat :=
  if sectionCount r = 0 ∨ 32 < sectionCount r then some sectNone
  else
    match firstBadSection (rdNat r 0x0C 4) [] (sectionsOf r) with
    | some i => some i
    | none => firstUsedBeyond r

/-- The kinds of image path: a full image, or a region image for a region. -/
inductive ImagePath
  | full
  | region (r : Nat)
  deriving DecidableEq, Repr

/-- Check 0x07: the section field of R695 where the kind, region or section set is wrong. A VENDOR section that is not at 0x1000
breaks R104 too; its own entry is named (assumption 172). -/
def kindFault (path : ImagePath) (r : Reader) : Option Nat :=
  let l := sectionsOf r
  let must := match path with | .full => fullTypes | .region _ => regionTypes
  let kindOk := match path with
    | .full => rdNat r 0x20 4 == 0 && rdNat r 0x24 4 == 0
    | .region g => rdNat r 0x20 4 == 1 && rdNat r 0x24 4 == g
  if !kindOk then some sectNone
  else
    match l.find? fun e => !must.contains e.type || (e.type == typeVendor && e.offset != 0x1000) with
    | some e => some e.index
    | none => if must.all fun t => (sectionOf l t).isSome then none else some sectNone

/-- The largest image length of a path. -/
def maxLength : ImagePath → Nat
  | .full => 64 * 2 ^ 20
  | .region _ => 8 * 2 ^ 20

def chipMatches (value mask : Nat) : Bool := chipId &&& mask == value &&& mask

/-- Point 1 of R110: codes 0x02 to 0x07. -/
def headerFault (path : ImagePath) (r : Reader) : Option LoadFail :=
  let magic : List Byte := [0x4F, 0x53, 0x4E, 0x43, 0x4F, 0x4D, 0x50, 0x31]
  let len := rdNat r 0x0C 4
  if rdBytes r 0 8 ≠ magic then some ⟨0x02, sectNone, objNone⟩
  else if rdNat r 0x0A 2 ≠ 1 then some ⟨0x03, sectNone, objNone⟩
  else if chipMatches (rdNat r 0x10 4) (rdNat r 0x14 4) = false then some ⟨0x04, sectNone, objNone⟩
  else if len % 4096 ≠ 0 ∨ len < 4096 ∨ maxLength path < len then some ⟨0x05, sectNone, objNone⟩
  else
    match tableFault r with
    | some i => some ⟨0x06, i, objNone⟩
    | none => match kindFault path r with | some i => some ⟨0x07, i, objNone⟩ | none => none

/-! ### Patch records (R347 to R349) -/

/-- A patch word or match register a record writes: kind 1 micro, 2 nano, 3 match; its index; its words, lowest first. -/
structure PatchItem where
  kind : Nat
  index : Nat
  words : List Word
  deriving DecidableEq, Repr

/-- Bytes of one item of a record type, and how many the memory holds. -/
def patchItemBytes (t : Nat) : Nat := match t with | 1 => 4 | 2 => 32 | _ => 8
def patchLimit (t : Nat) : Nat := match t with | 1 => 1024 | 2 => 256 | _ => 64

def rdWords (r : Reader) (o n : Nat) : List Word := (List.range n).map fun i => rdWord r (o + 4 * i)

/-- The items of the records from offset `o` up to `e`: none where a record is malformed or END is missing. -/
def patchItems (r : Reader) (e : Nat) : Nat → Nat → Option (List PatchItem)
  | 0, _ => none
  | f + 1, o =>
    if e < o + 16 then none
    else
      let t := rdNat r o 1
      let n := rdNat r (o + 2) 2
      let a := rdNat r (o + 4) 4
      let headOk := rdNat r (o + 1) 1 == 0 && rdNat r (o + 8) 8 == 0
      if t = 0xFF then if headOk ∧ n = 0 then some [] else none
      else if (t ≠ 1 ∧ t ≠ 2 ∧ t ≠ 3) ∨ headOk = false ∨ patchLimit t < a + n then none
      else
        let size := ceilDiv (n * patchItemBytes t) 16 * 16
        if e < o + 16 + size then none
        else
          let items := (List.range n).map fun i =>
            (⟨t, a + i, rdWords r (o + 16 + i * patchItemBytes t) (patchItemBytes t / 4)⟩ : PatchItem)
          match patchItems r e f (o + 16 + size) with
          | some l => some (items ++ l)
          | none => none

/-- Fields of a match entry. -/
def matchHi (p : PatchItem) : Nat := ((p.words[1]?).getD 0).toNat
def matchLo (p : PatchItem) : Nat := ((p.words[0]?).getD 0).toNat
def matchEn (p : PatchItem) : Bool := p.kind == 3 && (matchHi p).testBit 31
def matchNano (p : PatchItem) : Bool := (matchHi p).testBit 30
def matchRom (p : PatchItem) : Nat := matchHi p % 2 ^ 16

/-- A match entry whose reserved fields are 0 and whose addresses lie in their memories. -/
def matchOk (p : PatchItem) : Bool :=
  p.kind != 3 || (matchHi p / 2 ^ 16 % 2 ^ 14 == 0 && matchLo p / 1024 == 0
    && (!matchNano p || (decide (matchRom p < 2 ^ 13) && decide (matchLo p % 1024 < 256))))

/-- No two items write the same place, and no two enabled entries of a level name one ROM address. -/
def patchesDistinct : List PatchItem → Bool
  | [] => true
  | p :: l => l.all (fun q => !(q.kind == p.kind && q.index == p.index)
      && !(matchEn p && matchEn q && matchNano p == matchNano q && matchRom p == matchRom q)) && patchesDistinct l

/-- The payload of the vendor section that VS_DIGEST covers lies in the section, which starts with VS_MAGIC: 0x09 else (R105, R106;
assumption 172 for the magic). -/
def vendorShape (r : Reader) (base len : Nat) : Bool :=
  rdBytes r base 8 == [0x4F, 0x53, 0x4E, 0x56, 0x45, 0x4E, 0x44, 0x31]
    && decide (0x200 ≤ rdNat r (base + 0x0C) 4) && decide (rdNat r (base + 0x0C) 4 ≤ len)

/-- The firmware area lies within VS_LENGTH (R347). -/
def firmwareInside (r : Reader) (base : Nat) : Bool :=
  decide (0x200 + rdNat r (base + 0x200) 4 + rdNat r (base + 0x204) 4 ≤ rdNat r (base + 0x0C) 4)

/-- The patch items of the vendor section at `base` and `len` (VS_LENGTH) long, where R349 accepts them. -/
def patchesOf (r : Reader) (base len : Nat) : Option (List PatchItem) :=
  let p := base + 0x200
  let ofs := rdNat r (p + 8) 4
  let n := rdNat r (p + 12) 4
  if ofs % 16 ≠ 0 ∨ len < 0x200 + ofs + n then none
  else
    match patchItems r (p + ofs + n) (n / 16 + 1) (p + ofs) with
    | some l => if l.all matchOk && patchesDistinct l then some l else none
    | none => none

/-- What the blocks show of the patches, and the words that SEQ_PATCH_CRC covers (R350): micro words, nano words, match
registers, in address order, with 0 where no record names one. -/
def patchWord (l : List PatchItem) (k i j : Nat) : Word :=
  match l.find? fun p => p.kind == k && p.index == i with | some p => (p.words[j]?).getD 0 | none => 0

def patchImage (l : List PatchItem) : List Word :=
  ((List.range 1024).map fun i => patchWord l 1 i 0)
    ++ ((List.range 256).flatMap fun i => (List.range 8).map fun j => patchWord l 2 i j)
    ++ ((List.range 64).flatMap fun i => (List.range 2).map fun j => patchWord l 3 i j)

/-- Micro words named, nano words named, enabled match registers. -/
def patchTotals (l : List PatchItem) : List Nat :=
  [(l.filter fun p => p.kind == 1).length, (l.filter fun p => p.kind == 2).length, (l.filter matchEn).length]

/-! ### The points of R110 -/

/-- The section being read at image offset `x`. -/
def sectionAt (l : List Section) (x : Nat) : Nat :=
  match l.find? fun e => decide (e.offset ≤ x) && decide (x < e.offset + e.length) with
  | some e => e.index
  | none =>
    match (l.filter fun e => decide (e.offset ≤ x)).getLast? with
    | some e => if x < 0x1000 then sectNone else e.index
    | none => sectNone

/-- Sections by rising offset. -/
def byOffset (l : List Section) : List Section := sortBy (·.offset) l

/-- Check the points in order: each needs the image up to an offset to have been read (code 0x01 otherwise). -/
def runPoints (v : SlotVerdict) (l : List Section) : List (Nat × Option LoadFail) → Option LoadFail
  | [] => none
  | (need, fault) :: rest =>
    match v.readFail with
    | some x =>
      if x < need then some ⟨0x01, if x < 0x1000 then sectNone else sectionAt l x, objNone⟩
      else match fault with | some f => some f | none => runPoints v l rest
    | none => match fault with | some f => some f | none => runPoints v l rest

def failIf (b : Bool) (f : LoadFail) : Option LoadFail := if b then some f else none

/-- The checks 0x01 to 0x0F of an image on a path. The outcomes of the cryptographic checks are the published standards'. -/
def streamFault (path : ImagePath) (v : SlotVerdict) (r : Reader) : Option LoadFail :=
  match runPoints v [] [(0x1000, headerFault path r)] with
  | some f => some f
  | none =>
    let l := sectionsOf r
    let full := path == .full
    let ven := (sectionOf l typeVendor).getD ⟨sectNone, 0, 0x1000, 0⟩
    let vEnd := if full then ven.offset + ven.length else 0x1000
    let vendor : List (Nat × Option LoadFail) :=
      if full then
        [(vEnd, failIf (!v.vendorKey) ⟨0x08, ven.index, objNone⟩),
          (vEnd, failIf (!v.vendorSig || !vendorShape r ven.offset ven.length || !chipMatches (rdNat r (ven.offset + 0x10) 4) (rdNat r (ven.offset + 0x14) 4))
            ⟨0x09, ven.index, objNone⟩)]
      else []
    let cert : List (Nat × Option LoadFail) :=
      [(vEnd, failIf (!v.certSig) ⟨0x0A, sectNone, objNone⟩),
        (vEnd, failIf (!chipMatches (rdNat r 0x848 4) (rdNat r 0x84C 4)) ⟨0x0B, sectNone, objNone⟩),
        (vEnd, failIf (!v.imageSig) ⟨0x0C, sectNone, objNone⟩)]
    let fw : List (Nat × Option LoadFail) :=
      if full then
        [(vEnd, failIf (v.badDigests.contains ven.index) ⟨0x0D, ven.index, objNone⟩),
          (vEnd, failIf (!v.firmwareOk || !firmwareInside r ven.offset) ⟨0x0E, ven.index, objNone⟩),
          (vEnd, failIf (patchesOf r ven.offset (rdNat r (ven.offset + 0x0C) 4)).isNone ⟨0x0F, ven.index, objNone⟩)]
      else []
    let rest := (byOffset (l.filter fun e => !(full && e.type == typeVendor))).map fun e =>
      (e.offset + e.length, failIf (v.badDigests.contains e.index) ⟨0x0D, e.index, objNone⟩)
    runPoints v l (vendor ++ cert ++ fw ++ rest)

/-! ### The sections (R104, R113, R118, R122, R126) -/

/-- Schedule runs: heads and entries. -/
def parseRuns (r : Reader) (e : Nat) : Nat → Nat → List SchedEntry
  | 0, _ => []
  | f + 1, o =>
    if e < o + 8 then []
    else
      let first := rdNat r o 4
      let n := rdNat r (o + 4) 4
      let fits := min n ((e - (o + 8)) / 16)
      ((List.range fits).map fun i =>
        let a := o + 8 + 16 * i
        (⟨first + i, seClean 0 (rdWord r a), seClean 1 (rdWord r (a + 4)), rdWord r (a + 8), rdWord r (a + 12)⟩ : SchedEntry))
        ++ parseRuns r e f (o + 8 + 16 * n)

def parseBlocks (r : Reader) (o len region : Nat) : List (Nat × Nat × Nat) :=
  (List.range (min 16 (len / 8))).map fun i => (region + i, rdNat r (o + 8 * i) 4, rdNat r (o + 8 * i + 4) 4 % 16)

def parsePipe (r : Reader) (o : Nat) : PipeEntry :=
  let b := fun i => rdNat r (o + i) 1
  let h := fun i => rdNat r (o + i) 2
  { pipe := h 0
    domain := b 2 % 16
    home := b 2 / 16
    pers := b 3 % 16
    chroma := b 3 / 16 % 4
    maxW := h 4
    maxH := h 6
    ctuLog2 := b 8
    tileCols := b 9
    maxRefs := b 10
    weight := b 11
    flags := b 12
    subRows := b 13
    fsCarve := h 14
    srcCarve := h 16
    recCarve := h 18
    budget := rdNat r (o + 20) 4
    blocks := ((List.range 32).filter fun i => decide (128 ≤ b (32 + i))).map fun i => b (32 + i) % 128 }

def parsePort (r : Reader) (o : Nat) : PortEntry :=
  let k := rdNat r (o + 2) 1
  ⟨rdNat r o 2, k % 128, decide (128 ≤ k), rdNat r (o + 3) 1, rdNat r (o + 4) 2, rdNat r (o + 6) 1, rdNat r (o + 8) 2⟩

def parseCarve (r : Reader) (o : Nat) : Carve :=
  ⟨rdNat r o 1, rdNat r (o + 1) 1, rdNat r (o + 2) 1, rdNat r (o + 3) 1, rdNat r (o + 4) 4, rdNat r (o + 8) 4⟩

/-- A word as a register with these fields holds it: the reserved bits are ignored (R12). -/
def fieldWord (l : List FieldRow) (w : Word) : Word := l.foldl (fun a f => putF f.fld a (getF f.fld w)) 0

/-- The registers that the words of a DOMAINS entry fill, in their order (R104). -/
def domainRegs : List RegName := [.rckDomCtl, .rckDomRate, .rckDomGeom, .rckDomActive, .rckDomField, .rckDomOfs, .rckDomSched]

def parseDomain (r : Reader) (o : Nat) : List Word :=
  domainRegs.mapIdx fun k n => fieldWord (regFields n) (rdWord r (o + 4 * k))

def parseList {α : Type} (f : Nat → α) (o len size most : Nat) : List α :=
  (List.range (min most (len / size))).map fun i => f (o + size * i)

/-- The contents of an image, as its sections hold them. -/
def parseImage (r : Reader) (region : Nat) : Image :=
  let l := sectionsOf r
  let at_ := fun t => (sectionOf l t).getD ⟨sectNone, 0, 0, 0⟩
  let ven := at_ typeVendor
  let clk := (at_ typeClock).offset
  let dom := (at_ typeDomains).offset
  let sch := at_ typeSchedule
  let blk := at_ typeBlocks
  let lan := (at_ typeLanes).offset
  let pow := (at_ typePower).offset
  let has := fun t => (sectionOf l t).isSome
  { compId := rdNat r 0x18 8
    powerEst := rdNat r 0x28 4
    sections := l
    vsVersion := rdWord r (ven.offset + 8)
    rckCtl := fieldWord (regFields .rckCtl) (rdWord r clk)
    schedHost := fieldWord (regFields .rckSchedHost) (rdWord r (clk + 4))
    domains := if has typeDomains then (List.range 16).map fun d => parseDomain r (dom + 32 * d) else []
    schedule := parseRuns r (sch.offset + sch.length) (sch.length / 8 + 1) sch.offset
    blocks := parseBlocks r blk.offset blk.length region
    pipes := parseList (parsePipe r) (at_ typePipelines).offset (at_ typePipelines).length 64 1024
    ports := parseList (parsePort r) (at_ typePorts).offset (at_ typePorts).length 16 1024
    carves := parseList (parseCarve r) (at_ typeMemory).offset (at_ typeMemory).length 16 256
    pools := if has typePools then
        parseList (fun o => (⟨rdNat r o 1, rdNat r (o + 1) 3, rdNat r (o + 4) 2⟩ : PoolEntry)) (at_ typePools).offset
          (at_ typePools).length 8 16
      else []
    macModes := if has typeLanes then (List.range 8).map fun m => rdNat r lan 4 / 16 ^ m % 16 else []
    sdiOut := rdNat r (lan + 4) 2
    ringEn := rdNat r (lan + 6) 1 % 2 == 1
    ptpMac := rdNat r (lan + 7) 1 % 16
    glove := if has typeGlove then rdWords r (at_ typeGlove).offset (min 256 ((at_ typeGlove).length / 4)) else []
    capW := rdNat r pow 2
    powerRsvd := rdNat r (pow + 2) 2
    dvfsPoints := rdNat r (pow + 4) 4
    patches := match patchesOf r ven.offset (rdNat r (ven.offset + 0x0C) 4) with | some p => patchImage p | none => []
    patchCounts := match patchesOf r ven.offset (rdNat r (ven.offset + 0x0C) 4) with | some p => patchTotals p | none => [] }

end Sys2Proof.Machine
end

