-- ==== Sys2Proof/Machine/LoadCheck.lean ====
section
/-! DEFINITION. The consistency checks of a composition (R134, codes 0x10 to 0x33) over the contents of an image, or of the
composition in force with a region's share replaced. Times are in units of 1/3,456,000,000 s. -/

namespace Sys2Proof.Machine

open Sys2Proof

/-! ### Domains of an image -/

def Image.domW (im : Image) (d k : Nat) : Word := (((im.domains[d]?).getD [])[k]?).getD 0
def Image.domValid (im : Image) (d : Nat) : Bool := getF RckDomCtl.domValid (im.domW d 0) == 1
def Image.interlaced (im : Image) (d : Nat) : Bool := getF RckDomCtl.domInterlaced (im.domW d 0) == 1
def Image.rateNum (im : Image) (d : Nat) : Nat := getF RckDomRate.rateNum (im.domW d 1)
def Image.rateDen (im : Image) (d : Nat) : Nat := getF RckDomRate.rateDen (im.domW d 1)
def Image.lines (im : Image) (d : Nat) : Nat := getF RckDomGeom.domTotalLines (im.domW d 2)
def Image.spl8 (im : Image) (d : Nat) : Nat := getF RckDomGeom.domTotalSpl (im.domW d 2) * 8
def Image.spf8 (im : Image) (d : Nat) : Nat := im.lines d * im.spl8 d
def Image.base (im : Image) (d : Nat) : Nat := getF RckDomSched.domSchedBase (im.domW d 6)
def Image.count (im : Image) (d : Nat) : Nat := if im.domValid d then getF RckDomSched.domSchedCount (im.domW d 6) else 0
def Image.doms (im : Image) : List Nat := (List.range 16).filter im.domValid
def Image.hostBase (im : Image) : Nat := getF RckSchedHost.hostBase im.schedHost
def Image.hostCount (im : Image) : Nat := getF RckSchedHost.hostCount im.schedHost

/-- Eighth-samples of domain `d` in a time of `n` / `k` s, rounded up. -/
def Image.eighths (im : Image) (d n k : Nat) : Nat := ceilDiv (n * im.rateNum d * im.spf8 d) (im.rateDen d * k)

/-- Two ranges that both hold something overlap. -/
def rangesMeet (b1 n1 b2 n2 : Nat) : Bool :=
  decide (0 < n1) && decide (0 < n2) && decide (b1 < b2 + n2) && decide (b2 < b1 + n1)

/-! ### Schedule entries -/

/-- An entry of the table with its index; the zero entry where no run names it. The last run that names an index holds
(assumption 172), which is also the one the install leaves. -/
def Image.entry (im : Image) (i : Nat) : SchedEntry :=
  (im.schedule.reverse.find? fun e => e.index == i).getD ⟨i, 0, 0, 0, 0⟩

/-- The entries of domain `d`'s range, in order. -/
def Image.range (im : Image) (d : Nat) : List SchedEntry := (List.range (im.count d)).map fun i => im.entry (im.base d + i)

/-- The entries of domain `d` that take part in the walk. -/
def Image.live (im : Image) (d : Nat) : List SchedEntry := (im.range d).filter fun e => seValid e.w1

/-- Every live entry of the composition, domain by domain. -/
def Image.allLive (im : Image) : List (Nat × SchedEntry) := im.doms.flatMap fun d => (im.live d).map fun e => (d, e)

/-- Every entry of the domains' ranges, whatever its SE_VALID (R72, R82, R90). -/
def Image.allEntries (im : Image) : List (Nat × SchedEntry) := im.doms.flatMap fun d => (im.range d).map fun e => (d, e)

def Image.pos (im : Image) (d : Nat) (e : SchedEntry) : Nat := seLine e.w1 * im.spl8 d + seSample e.w0

def sePipe (e : SchedEntry) : Nat := seTarget e.w1
def seCount (e : SchedEntry) : Nat := e.w3.toNat % 2 ^ 16
def seTriggered (e : SchedEntry) : Bool := seFrameMod e.w2 == 0

/-- The entry fires in some frame, or on a trigger. -/
def seCanFire (e : SchedEntry) : Bool := seTriggered e || decide (seFramePhase e.w2 < seFrameMod e.w2)

/-- Two entries can fire in the same frame: their phases agree modulo the common divisor of their moduli (R371). -/
def seSameFrame (a b : SchedEntry) : Bool :=
  seCanFire a && seCanFire b && (seTriggered a || seTriggered b
    || seFramePhase a.w2 % Nat.gcd (seFrameMod a.w2) (seFrameMod b.w2)
      == seFramePhase b.w2 % Nat.gcd (seFrameMod a.w2) (seFrameMod b.w2))

/-! ### 0x10 to 0x15 -/

/-- 0x10: the clock. The REF domain counts where a source is REF (assumption 23). -/
def clockFault (im : Image) : Bool :=
  let pri := getF RckCtl.rckRefPri im.rckCtl
  let sec := getF RckCtl.rckRefSec im.rckCtl
  decide (4 < pri) || decide (4 < sec)
    || ((pri == 2 || sec == 2) && !im.domValid (getF RckCtl.rckRefDom im.rckCtl))
    || (im.hostCount != 0 && (decide (65536 < im.hostBase + im.hostCount)
      || im.doms.any fun d => rangesMeet im.hostBase im.hostCount (im.base d) (im.count d)))

/-- 0x11: a domain's rate and geometry. The active lines of field 2 stand as far after its first line as those of field 1 (assumption 167). -/
def domainFault (im : Image) (d : Nat) : Bool :=
  let first := getF RckDomActive.domFirstLine (im.domW d 3)
  let act := getF RckDomActive.domActLines (im.domW d 3)
  let f2 := getF RckDomField.domF2Line (im.domW d 4)
  let spl := getF RckDomField.domActSpl (im.domW d 4)
  let per := if im.interlaced d then act / 2 else act
  im.rateNum d == 0 || im.rateDen d == 0 || im.lines d == 0 || im.spl8 d == 0
    || decide (im.lines d < first + per) || decide (im.spl8 d < 8 * spl)
    || (im.interlaced d && (f2 == 0 || decide (im.lines d ≤ f2) || decide (im.lines d < f2 + first + per)))

/-- 0x12: a domain's range passes the table's end, or overlaps that of a lower domain. -/
def rangeFault (im : Image) (d : Nat) : Bool :=
  decide (65536 < im.base d + im.count d)
    || (im.doms.filter fun k => decide (k < d)).any fun k => rangesMeet (im.base k) (im.count k) (im.base d) (im.count d)

/-- 0x13: an entry that names another domain than its range. -/
def entryDomainFault (im : Image) : Option Nat :=
  im.allEntries.findSome? fun x =>
    if seDomain x.2.w0 ≠ x.1 then some x.2.index else none

/-- 0x14: an entry out of order, or beyond the frame. -/
def orderFault (im : Image) (d : Nat) : Nat → List SchedEntry → Option Nat
  | _, [] => none
  | last, e :: l =>
    if im.lines d ≤ seLine e.w1 ∨ im.spl8 d ≤ seSample e.w0 ∨ im.pos d e < last then some e.index
    else orderFault im d (im.pos d e) l

def Image.pipeOf (im : Image) (p : Nat) : Option PipeEntry := im.pipes.find? fun e => e.pipe == p
def Image.portOf (im : Image) (n : Nat) : Option PortEntry := im.ports.find? fun e => e.port == n

/-- 0x15: the action and its target. -/
def actionBad (im : Image) (e : SchedEntry) : Bool :=
  let a := seAction e.w0
  let t := seTarget e.w1
  let enc := match im.pipeOf t with | some q => !persDecodes q.pers | none => false
  let dec := match im.pipeOf t with | some q => persDecodes q.pers | none => false
  if a = actNop ∨ a = actIrq ∨ a = actRingMark then false
  else if a ≤ 4 then (im.pipeOf t).isNone
  else if a = actEmit then !dec
  else if a = actRelease then (im.portOf t).isNone
  else if a = actCaptureArm then !enc
  else if a = actRegionUp ∨ a = actRegionGate then decide (16 ≤ t)
  else if a = actRegionDvfs then decide (16 ≤ t) || e.w3.toNat % 4 == 3
  else if a = actHbmRetrain then decide (64 ≤ t)
  else if a = actTrigOut then decide (4 ≤ t)
  else true

/-! ### T_row and the margin (R82, R115, R698) -/

/-- Clock factor of a DVFS point: a time at 1.6 GHz counts 3, at 1.2 GHz 4, at 0.8 GHz 6. -/
def pointFactor (v : Nat) : Nat := match v with | 0 => 3 | 1 => 4 | _ => 6

/-- The lowest point the schedule sets for region `r`: its point at release, and that of every REGION_DVFS entry of the composition
that names it, whether or not the entry can fire (R82). -/
def Image.lowPoint (im : Image) (r : Nat) : Nat :=
  (im.allEntries.filter fun x => seAction x.2.w0 == actRegionDvfs && seTarget x.2.w1 == r).foldl
    (fun m x => max m (x.2.w3.toNat % 4)) (im.dvfsPoints / 4 ^ r % 4)

/-- Weight of a luma sample in thirds, by chroma code (R50). -/
def chromaWeight (c : Nat) : Nat := match c with | 0 => 3 | 1 => 4 | _ => 6

def pipeRegions (e : PipeEntry) : List Nat := (List.range 16).filter fun r => e.blocks.any fun b => b / 8 == r

/-- The clock factor of a pipeline: the lowest point of its regions. -/
def Image.pipeFactor (im : Image) (e : PipeEntry) : Nat := (pipeRegions e).foldl (fun m r => max m (pointFactor (im.lowPoint r))) 3

/-- The time of a row unit of `samples` luma samples. -/
def rowTime (decodes : Bool) (samples chroma factor : Nat) : Nat :=
  samples * chromaWeight chroma * factor * (if decodes then 1 else 2)

/-- T_row of a pipeline from its entry (R115). -/
def Image.entryRow (im : Image) (e : PipeEntry) : Nat :=
  let ctus := ceilDiv (ceilDiv e.maxW (2 ^ e.ctuLog2)) e.tileCols
  rowTime (persDecodes e.pers) (ctus * 4 ^ e.ctuLog2) e.chroma (im.pipeFactor e)

/-- Row units of a picture, and the picture rate's factor, from the entry (R115). -/
def Image.entryUnits (im : Image) (e : PipeEntry) : Nat :=
  ceilDiv (if im.interlaced e.domain then ceilDiv e.maxH 2 else e.maxH) (2 ^ e.ctuLog2) * e.tileCols

/-- A mark's firing margin before the deadline's firing in frame `f`: the time back to it, where it lies after the deadline's
previous firing (R698). -/
def markMargin (im : Image) (d : Nat) (dl mk : SchedEntry) (f : Int) : Option Nat :=
  let m : Int := seFrameMod mk.w2
  let md : Int := seFrameMod dl.w2
  let before := fun a b : SchedEntry => im.pos d a < im.pos d b ∨ (im.pos d a = im.pos d b ∧ a.index < b.index)
  let g0 := f - (f - seFramePhase mk.w2) % m
  let g := if g0 = f ∧ ¬ before mk dl then f - m else g0
  let after := f - md < g ∨ (g = f - md ∧ before dl mk)
  if after then some ((f - g) * im.spf8 d + im.pos d dl - im.pos d mk).toNat else none

/-- The latest of the marks' firings. -/
def bestMark (im : Image) (d : Nat) (dl : SchedEntry) (marks : List SchedEntry) (f : Int) : Option Nat :=
  marks.foldl (fun b mk =>
    match markMargin im d dl mk f, b with
    | some x, some y => some (min x y)
    | some x, none => some x
    | none, y => y) none

/-- The marks that may pair with a deadline. -/
def pairMarks (im : Image) (d : Nat) (dl : SchedEntry) : List SchedEntry :=
  (im.live d).filter fun e => seAction e.w0 == actMarginMark && sePipe e == sePipe dl && seCount e == seCount dl
    && seTriggered e == seTriggered dl && (if seTriggered dl then
      seFramePhase e.w2 % 4 == seFramePhase dl.w2 % 4 && decide (e.index < dl.index)
    else seCanFire e)

/-- The least margin of a deadline over one cycle of the moduli: none where a firing is unpaired. -/
def deadlineMargin (im : Image) (d : Nat) (dl : SchedEntry) : Option Nat :=
  let marks := pairMarks im d dl
  if seTriggered dl then
    marks.foldl (fun b mk => match b with
      | none => some (im.pos d dl - im.pos d mk)
      | some y => some (min y (im.pos d dl - im.pos d mk))) none
  else
    let m := seFrameMod dl.w2
    let cyc := marks.foldl (fun l e => Nat.lcm l (seFrameMod e.w2)) m
    (List.range (cyc / m)).foldl (fun b (k : Nat) =>
      match b, bestMark im d dl marks ((seFramePhase dl.w2 + k * m : Nat) : Int) with
      | some x, some y => some (min x y)
      | _, _ => none) (some (2 ^ 64))

/-- The deadlines of the composition that can fire, with their domains. -/
def Image.deadlines (im : Image) : List (Nat × SchedEntry) :=
  im.allLive.filter fun x => seAction x.2.w0 == actRowDeadline && seCanFire x.2

/-- 0x16: a deadline with a firing that has no paired mark. -/
def unpairedFault (im : Image) : Option Nat :=
  im.deadlines.findSome? fun x => if (deadlineMargin im x.1 x.2).isNone then some x.2.index else none

/-- 0x17: a margin below T_row, as rounded up in the range's domain. -/
def marginFault (im : Image) : Option Nat :=
  im.deadlines.findSome? fun x =>
    match im.pipeOf (sePipe x.2), deadlineMargin im x.1 x.2 with
    | some e, some m =>
      if e.flags % 2 = 0 ∧ m < im.eighths x.1 (im.entryRow e) 3456000000 then some x.2.index else none
    | _, _ => none

/-! ### 0x18 to 0x1A -/

/-- Distance forward from `a` to `b` in a frame of `n`. -/
def forward (n a b : Nat) : Nat := if a ≤ b then b - a else b + n - a

def minList : List Nat → Option Nat
  | [] => none
  | x :: l => match minList l with | none => some x | some y => some (min x y)

/-- 0x18: a REGION_UP whose nearest HANDOVER of its domain for the region is less than 200 µs ahead, by positions alone (R90). -/
def leadFault (im : Image) : Option Nat :=
  im.allEntries.findSome? fun x =>
    if seAction x.2.w0 ≠ actRegionUp then none
    else
      let r := seTarget x.2.w1
      let hs := (im.range x.1).filter fun e => seAction e.w0 == actHandover
        && (match im.pipeOf (sePipe e) with | some q => (pipeRegions q).contains r | none => false)
      match minList (hs.map fun e => forward (im.spf8 x.1) (im.pos x.1 x.2) (im.pos x.1 e)) with
      | some lead => if lead < im.eighths x.1 200 1000000 then some x.2.index else none
      | none => none

/-- The entry fires in frame `f`; a triggered one may fire in any. -/
def seFiresIn (f : Nat) (e : SchedEntry) : Bool := seTriggered e || f % seFrameMod e.w2 == seFramePhase e.w2

/-- A walk over the entries of one pipeline: the last HANDOVER that no PIC_START has followed, where the spans of the pictures that
are not yet past their full count begin, and the spans so far. Positions count from frame 0. -/
structure SpanWalk where
  hand : Option Nat := none
  begun : List Nat := []
  spans : List (Nat × Nat) := []
  deriving DecidableEq, Repr

/-- The walk of pipeline `q` comes to entry `e` in frame `f`: a picture's span runs from the HANDOVER before its PIC_START (or from
the PIC_START) to the full-count ROW_DEADLINE that acts on it, the oldest first (R78, R83, R88). -/
def spanStep (im : Image) (d : Nat) (q : PipeEntry) (f : Nat) (x : SpanWalk) (e : SchedEntry) : SpanWalk :=
  let t := f * im.spf8 d + im.pos d e
  let a := seAction e.w0
  if sePipe e ≠ q.pipe ∨ seFiresIn f e = false then x
  else if a = actHandover then { x with hand := some t }
  else if a = actPicStart then { x with hand := none, begun := x.begun ++ [x.hand.getD t] }
  else if a = actRowDeadline ∧ seCount e = im.entryUnits q then
    match x.begun with
    | h :: rest => { x with begun := rest, spans := x.spans ++ [(h, t)] }
    | [] => x
  else x

/-- The spans of pipeline `q` in the first `n` frames of domain `d`. -/
def pipeSpans (im : Image) (d : Nat) (q : PipeEntry) (n : Nat) : List (Nat × Nat) :=
  ((List.range n).foldl (fun x f => (im.live d).foldl (spanStep im d q f) x) {}).spans

/-- The cycle of the frame moduli of entries. -/
def modCycle (l : List SchedEntry) : Nat := l.foldl (fun n e => Nat.lcm n (max 1 (seFrameMod e.w2))) 1

/-- 0x19: a REGION_DVFS with a firing whose 20 µs do not lie in slack on the region's blocks, against the pictures of its own
domain's pipelines (R92). Every firing of one cycle of the moduli is judged, against spans that began up to a cycle before. -/
def slackFault (im : Image) : Option Nat :=
  im.allLive.findSome? fun x =>
    if seAction x.2.w0 ≠ actRegionDvfs ∨ seCanFire x.2 = false then none
    else
      let d := x.1
      let qs := im.pipes.filter fun q => (pipeRegions q).contains (seTarget x.2.w1) && q.domain == d
      let n := modCycle (x.2 :: (im.live d).filter fun e => qs.any fun q => q.pipe == sePipe e)
      let spans := qs.flatMap fun q => pipeSpans im d q (3 * n)
      let pause := im.eighths d 20 1000000
      let hit := (List.range n).any fun k =>
        let t := (n + k) * im.spf8 d + im.pos d x.2
        seFiresIn (n + k) x.2 && spans.any fun sp => decide (sp.1 < t + pause) && decide (t < sp.2)
      if hit then some x.2.index else none

/-- The HBM_RETRAIN entries of a domain. -/
def retrainEntries (im : Image) (d : Nat) : List SchedEntry := (im.live d).filter fun e => seAction e.w0 == actHbmRetrain && seCanFire e

/-- 0x1A: two entries of one controller closer than 5 µs, or a channel that no entry covers within 1.1 s (R371). -/
def retrainFault (im : Image) : Option Nat :=
  let close := im.doms.findSome? fun d =>
    let l := retrainEntries im d
    let gap := im.eighths d 5 1000000
    l.findSome? fun b =>
      if l.any fun a => decide (a.index < b.index) && sePipe a / 16 == sePipe b / 16 && seSameFrame a b
          && decide (im.pos d b - im.pos d a < gap) then some b.index else none
  match close with
  | some i => some i
  | none =>
    ((List.range 64).find? fun k => !(im.doms.any fun d => (retrainEntries im d).any fun e =>
      sePipe e == k && !seTriggered e && decide (10 * seFrameMod e.w2 * im.rateDen d ≤ 11 * im.rateNum d))).map (0xF0000 + ·)

/-! ### 0x1B to 0x25: placement -/

def Image.blockPers (im : Image) (b : Nat) : Nat :=
  match im.blocks.find? fun x => x.1 == b / 8 with | some x => x.2.1 / 16 ^ (b % 8) % 16 | none => 0
def Image.standby (im : Image) (r : Nat) : Nat := match im.blocks.find? fun x => x.1 == r with | some x => x.2.2 | none => 15

def persReserved (k : Nat) : Bool := decide (5 ≤ k ∧ k ≤ 7) || decide (13 ≤ k)

/-- The pipelines on a block, in ascending ID (R114). -/
def sortPipes (l : List PipeEntry) : List PipeEntry := sortBy (·.pipe) l
def Image.slots (im : Image) (b : Nat) : List PipeEntry := (sortPipes im.pipes).filter fun e => e.blocks.contains b

/-- 0x1C. -/
def standbyFault (im : Image) : Option Nat :=
  (List.range 16).findSome? fun r =>
    let k := im.standby r
    if k = 15 then none
    else if 8 ≤ k then some (0x10000 + r)
    else if im.blockPers (8 * r + k) ≠ 0 ∨ (im.slots (8 * r + k)).isEmpty = false then some (8 * r + k)
    else none

def hasDup : List Nat → Bool
  | [] => false
  | x :: l => l.contains x || hasDup l

/-- 0x1D: the pipeline entry itself. -/
def pipeBad (im : Image) (e : PipeEntry) : Bool :=
  decide (1024 ≤ e.pipe) || decide (1 < (im.pipes.filter fun q => q.pipe == e.pipe).length)
    || e.blocks.isEmpty || hasDup e.blocks
    || e.pers == 0 || persReserved e.pers || e.chroma == 3 || e.maxW == 0 || e.maxH == 0
    || decide (e.ctuLog2 < 4) || decide (7 < e.ctuLog2) || e.tileCols == 0 || decide (64 < e.tileCols) || e.weight == 0

/-- The first pipeline, in ascending ID, with property `f`. -/
def Image.firstPipe (im : Image) (f : PipeEntry → Bool) : Option Nat := ((sortPipes im.pipes).find? f).map (·.pipe)

/-- 0x22: the pipeline is beyond the eighth slot of one of its blocks. -/
def slotsOver (im : Image) (e : PipeEntry) : Bool :=
  e.blocks.any fun b => decide (8 ≤ ((im.slots b).filter fun q => decide (q.pipe < e.pipe)).length)

/-- 0x23: the pipeline is beyond the 64th of one of its regions. -/
def regionOver (im : Image) (e : PipeEntry) : Bool :=
  (pipeRegions e).any fun r =>
    decide (64 ≤ (im.pipes.filter fun q => decide (q.pipe < e.pipe) && (pipeRegions q).contains r).length)

/-- Time of a slot switch at a clock factor: 12,800 fabric cycles (R24). -/
def switchTime (factor : Nat) : Nat := 9216 * factor

/-- Rate x time of one slot, as a fraction of a second: (numerator, denominator), R116. -/
def slotTime (num den units blocks row switch : Nat) (waived : Bool) : Nat × Nat :=
  let w := ceilDiv units blocks * row
  (num * (w + (if waived then 0 else row) + switch), den * 3456000000)

/-- The sum of fractions is at most 1. -/
def sumAtMostOne (l : List (Nat × Nat)) : Bool :=
  let r := l.foldl (fun (a : Nat × Nat) x => (a.1 * x.2 + x.1 * a.2, a.2 * x.2)) (0, 1)
  decide (r.1 ≤ r.2)

/-- 0x25: the block's time from the entries. -/
def blockTimeFault (im : Image) (b : Nat) : Bool :=
  let l := im.slots b
  let sw := if l.length < 2 then 0 else switchTime (pointFactor (im.lowPoint (b / 8)))
  !sumAtMostOne (l.map fun e =>
    slotTime (im.rateNum e.domain * (if im.interlaced e.domain then 2 else 1)) (im.rateDen e.domain) (im.entryUnits e)
      e.blocks.length (im.entryRow e) sw (e.flags % 2 == 1))

/-! ### 0x26 to 0x29: ports and lanes -/

/-- 0x26. -/
def portBad (im : Image) (e : PortEntry) : Bool :=
  decide (1024 ≤ e.port) || decide (1 < (im.ports.filter fun q => q.port == e.port).length) || decide (4 ≤ e.kind)

/-- SDI lanes of a port's binding. -/
def sdiLanes (bind : Nat) : List Nat := if bind < 128 then [bind] else (List.range 4).map (· + 4 * (bind % 4))

/-- 0x27: R120, R121. A binding that R118 does not give, SDI 16 to 127 or a host ring from 64 up, is refused alike (assumption 172). -/
def portBindingBad (im : Image) (e : PortEntry) : Bool :=
  let pool := (!e.egress) && ((im.pools[e.pool]?).getD ⟨0, 0, 0⟩).count == 0
  let sdi := e.kind == 1 && ((decide (16 ≤ e.bind) && decide (e.bind < 128))
    || (sdiLanes e.bind).any fun l => im.sdiOut.testBit l != e.egress
      || im.ports.any fun q => q.port != e.port && q.kind == 1 && (sdiLanes q.bind).contains l)
  let mac := e.kind == 0 && (im.macModes[e.bind]?).getD 0 == 0
  let ring := e.kind == 2 && !im.ringEn
  let host := e.kind == 3 && decide (64 ≤ e.bind)
  let pair := e.pair != 0xFFFF && (match im.portOf e.pair with
    | some q => q.pair != e.port || q.egress != e.egress || q.pipe != e.pipe || q.bind == e.bind || q.kind != 0 || e.kind != 0
    | none => true)
  pool || sdi || mac || ring || host || pair

/-- R700: kinds a pipeline's port may have. -/
def portKindOk (decodes egress : Bool) (kind : Nat) : Bool :=
  match decodes, egress with
  | false, false => kind != 2
  | false, true => kind != 1
  | true, false => kind != 1
  | true, true => kind != 2

/-- An ingress port that is a source of its pipeline: of a merged pair, the lower port stands for both. -/
def isSource (p : Nat) (e : PortEntry) : Bool := e.pipe == p && !e.egress && (e.pair == 0xFFFF || decide (e.port < e.pair))

/-- An encoder's port that is one source too many: the clip store or an earlier port of the section is its source (R119). -/
def sourceExtra (im : Image) (q : PipeEntry) (e : PortEntry) : Bool :=
  !persDecodes q.pers && isSource q.pipe e
    && (q.flags.testBit 3 || (im.ports.takeWhile fun o => o.port != e.port).any (isSource q.pipe))

/-- 0x28 on a port: no such pipeline, a kind it cannot use, or a source beyond the one an encoder has. -/
def portPipeBad (im : Image) (e : PortEntry) : Bool :=
  e.pipe != 0xFFFF && (match im.pipeOf e.pipe with
    | none => true
    | some q => !portKindOk (persDecodes q.pers) e.egress e.kind || sourceExtra im q e)

/-- 0x28 on a pipeline that lacks a port (R119, R695): an ingress port, unless the clip store feeds it, or an encoder's egress port. -/
def pipePortBad (im : Image) (q : PipeEntry) : Bool :=
  let source := im.ports.any (isSource q.pipe)
  if persDecodes q.pers then !source
  else !(source || q.flags.testBit 3) || !(im.ports.any fun e => e.pipe == q.pipe && e.egress)

/-- 0x29. The low four bits of LANES byte 7 name the complex, here and in force (assumption 172). -/
def lanesFault (im : Image) : Option Nat :=
  match (List.range 8).find? fun m => decide (4 < (im.macModes[m]?).getD 0) with
  | some m => some m
  | none => if im.ptpMac ≠ 15 ∧ (im.macModes[im.ptpMac]?).getD 0 = 0 then some im.ptpMac else none

/-! ### 0x2A to 0x2F: memory -/

def unused (c : Carve) : Bool := c.kind == 0xFF

/-- Used carve-outs with their indexes. -/
def Image.used (im : Image) : List (Nat × Carve) :=
  ((List.range im.carves.length).zip im.carves).filter fun x => !unused x.2

/-- 0x2A (R134, R123; R363 for a reserved grain). -/
def carveBad (c : Carve) : Bool :=
  decide (5 < c.kind) || decide (8 < c.map % 16) || c.size == 0 || decide (72 * 1024 < c.base + c.size) || (c.kind == 0 && decide (16 ≤ c.region))

/-- 0x2B: a carve-out that overlaps a lower-numbered one. -/
def overlapFault (im : Image) : Option Nat :=
  im.used.findSome? fun x =>
    if im.used.any fun y => decide (y.1 < x.1) && rangesMeet y.2.base y.2.size x.2.base x.2.size then some x.1 else none

/-- Occupied slots on a region's blocks. -/
def regionSlots (im : Image) (r : Nat) : Nat :=
  (List.range 8).foldl (fun n b => n + (im.slots (8 * r + b)).length) 0

/-- 0x2C. -/
def regionMemFault (im : Image) (r : Nat) : Bool :=
  let l := im.used.filter fun x => x.2.kind == 0 && x.2.region == r
  let needs := im.standby r != 15 || (List.range 8).any fun b => im.blockPers (8 * r + b) != 0
  match l with
  | [] => needs
  | [x] => decide (x.2.size * 2 < 32 + 8 * regionSlots im r)
  | _ => true

/-- Bytes of P (R125), twice over to keep c = 1.5 whole. -/
def frameBytes2 (e : PipeEntry) : Nat := e.maxW * e.maxH * 2 * (match e.chroma with | 0 => 3 | 1 => 4 | _ => 6)

/-- The frame store a pipeline needs, in 2 MiB units. -/
def frameStoreUnits (e : PipeEntry) : Nat :=
  let p2 := frameBytes2 e
  let bytes2 :=
    if persDecodes e.pers then (e.maxRefs + 2) * p2
    else (e.maxRefs + 1) * p2 + 2 * p2 + e.maxW * e.maxH * 5 / 2
  ceilDiv bytes2 (2 * unitSize)

def carveKind (im : Image) (i kind : Nat) : Bool := match im.carves[i]? with | some c => c.kind == kind | none => false

/-- 0x2D. -/
def frameStoreBad (im : Image) (e : PipeEntry) : Bool :=
  !carveKind im e.fsCarve 1 || (e.flags.testBit 3 && !carveKind im e.srcCarve 4)
    || (e.recCarve != 0xFFFF && !carveKind im e.recCarve 3)
    || decide (((im.carves[e.fsCarve]?).getD ⟨0, 0, 0, 0, 0, 0⟩).size < frameStoreUnits e)

/-- 0x2E. -/
def hdmFault (im : Image) : Option Nat :=
  let l := im.used.filter fun x => x.2.hdm != 0
  match l.find? fun x => x.2.kind == 0 with
  | some x => some x.1
  | none => (l[8]?).map (·.1)

/-- 0x2F. -/
def poolFault (im : Image) (p : Nat) : Bool :=
  let e := (im.pools[p]?).getD ⟨0, 0, 0⟩
  let upTo : Nat := (im.pools.take (p + 1)).foldl (fun (n : Nat) q => n + q.count) 0
  e.count != 0 && (decide (e.log2 < 11) || decide (16 < e.log2) || decide (524288 < upTo) || !carveKind im e.carve 2
    || decide (((im.carves[e.carve]?).getD ⟨0, 0, 0, 0, 0, 0⟩).size * unitSize < e.count * 2 ^ e.log2))

/-! ### 0x30 to 0x33 -/

/-- 0x30. -/
def budgetFault (im : Image) (r : Nat) : Bool :=
  decide (3840 < (im.pipes.filter fun e => (pipeRegions e).contains r).foldl (fun n e => n + e.budget) 0)

def gloveKind (w : Word) : Nat := w.toNat / 2 ^ 28
def gloveFirst (w : Word) : Nat := w.toNat % 4096
def gloveLast (w : Word) : Nat := w.toNat / 4096 % 4096

/-- The largest ID of a Glove kind. -/
def gloveMax (k : Nat) : Nat := match k with | 1 => 1023 | 2 => 1023 | 3 => 15 | 4 => 63 | 5 => 15 | 6 => 0 | _ => 255

/-- 0x31: an entry, against the entries before it. -/
def gloveBad (before : List Word) (w : Word) : Bool :=
  gloveKind w != 0 && (decide (7 < gloveKind w) || decide (gloveLast w < gloveFirst w) || decide (gloveMax (gloveKind w) < gloveLast w)
    || before.any fun v => gloveKind v == gloveKind w && decide (gloveFirst v ≤ gloveLast w) && decide (gloveFirst w ≤ gloveLast v))

def gloveFault : Nat → List Word → List Word → Option Nat
  | _, _, [] => none
  | i, before, w :: l => if gloveBad before w then some i else gloveFault (i + 1) (before ++ [w]) l

/-- 0x32: a pipeline, its ports, their pools and its carve-outs belong to one domain (R132). -/
def gloveCross (im : Image) (e : PipeEntry) : Bool :=
  let d := gloveOwner im.glove glvPipe e.pipe
  let ports := im.ports.filter fun q => q.pipe == e.pipe
  ports.any (fun q => gloveOwner im.glove glvPort q.port != d || (!q.egress && gloveOwner im.glove glvPool q.pool != d))
    || gloveOwner im.glove glvCarve e.fsCarve != d
    || (e.flags.testBit 3 && gloveOwner im.glove glvCarve e.srcCarve != d)
    || (e.recCarve != 0xFFFF && gloveOwner im.glove glvCarve e.recCarve != d)

/-- 0x33. -/
def powerFault (im : Image) : Bool :=
  decide (400 < im.capW) || decide (im.capW < 50) || decide (10 * im.capW < im.powerEst)
    || (List.range 16).any (fun r => im.dvfsPoints / 4 ^ r % 4 == 3) || im.powerRsvd != 0

/-! ### All of them, in ascending order (R110) -/

/-- The first fault of codes 0x10 to 0x33: its code, the section type and the object. -/
def consistency (im : Image) : Option (Nat × Nat × Nat) :=
  let none_ := objNone
  let checks : List (Nat × Nat × Option Nat) :=
    [(0x10, typeClock, if clockFault im then some none_ else none),
      (0x11, typeDomains, im.doms.find? (domainFault im)),
      (0x12, typeSchedule, im.doms.find? (rangeFault im)),
      (0x13, typeSchedule, entryDomainFault im),
      (0x14, typeSchedule, im.doms.findSome? fun d => orderFault im d 0 (im.range d)),
      (0x15, typeSchedule, im.allLive.findSome? fun x => if actionBad im x.2 then some x.2.index else none),
      (0x16, typeSchedule, unpairedFault im),
      (0x17, typeSchedule, marginFault im),
      (0x18, typeSchedule, leadFault im),
      (0x19, typeSchedule, slackFault im),
      (0x1A, typeSchedule, retrainFault im)]
  let more : List (Nat × Nat × Option Nat) :=
    [(0x1B, typeBlocks, (List.range 128).find? fun b => persReserved (im.blockPers b)),
      (0x1C, typeBlocks, standbyFault im),
      (0x1D, typePipelines, im.firstPipe (pipeBad im)),
      (0x1E, typePipelines, im.firstPipe fun e => !im.domValid e.domain),
      (0x1F, typePipelines, im.firstPipe fun e => decide (4 < (pipeRegions e).length)),
      (0x20, typePipelines, im.firstPipe fun e => e.blocks.any fun b => im.blockPers b != e.pers),
      (0x21, typePipelines, im.firstPipe fun e => decide (1 < e.blocks.length) && e.blocks.any fun b => decide (1 < (im.slots b).length)),
      (0x22, typePipelines, im.firstPipe (slotsOver im)),
      (0x23, typePipelines, im.firstPipe (regionOver im)),
      (0x24, typePipelines, im.firstPipe fun e => !(pipeRegions e).contains e.home),
      (0x25, typePipelines, (List.range 128).find? (blockTimeFault im))]
  let ports : List (Nat × Nat × Option Nat) :=
    [(0x26, typePorts, (im.ports.find? (portBad im)).map (·.port)),
      (0x27, typePorts, (im.ports.find? (portBindingBad im)).map (·.port)),
      (0x28, typePorts, (im.ports.find? (portPipeBad im)).map (·.port)),
      (0x28, typePipelines, im.firstPipe (pipePortBad im)),
      (0x29, typeLanes, lanesFault im)]
  let mem : List (Nat × Nat × Option Nat) :=
    [(0x2A, typeMemory, (im.used.find? fun x => carveBad x.2).map (·.1)),
      (0x2B, typeMemory, overlapFault im),
      (0x2C, typeMemory, (List.range 16).find? (regionMemFault im)),
      (0x2D, typePipelines, im.firstPipe (frameStoreBad im)),
      (0x2E, typeMemory, hdmFault im),
      (0x2F, typePools, (List.range 16).find? (poolFault im)),
      (0x30, typePipelines, (List.range 16).find? (budgetFault im)),
      (0x31, typeGlove, gloveFault 0 [] im.glove),
      (0x32, typePipelines, im.firstPipe (gloveCross im)),
      (0x33, typePower, if powerFault im then some none_ else none)]
  (checks ++ more ++ ports ++ mem).findSome? fun c => c.2.2.map fun o => (c.1, c.2.1, o)

/-- The refusal of the consistency checks, with the section's index in the image's own table. -/
def consistencyFault (secs : List Section) (im : Image) : Option LoadFail :=
  (consistency im).map fun c => ⟨c.1, sectIndex secs c.2.1, c.2.2⟩

end Sys2Proof.Machine
end

