-- ==== Sys2Proof/Machine/Loader.lean ====
section
/-! DEFINITION. The composition loader (chapter "The composition image"): the slots and their refusal, writing a composition
into effect, the fill of R112, and the partial recomposition of one region (R135 to R142). -/

namespace Sys2Proof.Machine

open Sys2Proof

/-! ### The slots (R98 to R100, R109 to R111, R695) -/

/-- A slot, as the loader reads it. -/
def slotReader (base : Nat) (s : State) : Reader := fun o => flashByte s (base + o)

/-- The first failure of a full image (R110). -/
def fullFault (v : SlotVerdict) (r : Reader) : Option LoadFail :=
  match streamFault .full v r with
  | some f => some f
  | none => consistencyFault (sectionsOf r) (parseImage r 0)

/-- The section and object of the most recent refusal (R695). -/
def cfgReport (f : LoadFail) (s : State) : State :=
  fput Reg.cfgRefuse CfgRefuse.cfgRefSect f.sect (fput Reg.cfgRefuseObj CfgRefuseObj.cfgRefObj f.obj s)

/-- A slot is accepted: its identity is shown, and its structures are staged while the stacks train. -/
def slotAccept (code : Nat) (im : Image) (s : State) : State :=
  let s1 := fput Reg.cfgStatus CfgStatus.cfgState code
    (fput Reg.cfgStatus CfgStatus.cfgSections im.sections.length
      (wr64 Reg.cfgCompIdLo Reg.cfgCompIdHi im.compId (wr Reg.cfgVsVersion im.vsVersion s)))
  { s1 with staged := some im, pwr := { s1.pwr with boot := .training } }

/-- The slots are tried in order (R100); if both are refused the device stays in LOAD with no composition (R111). Base Camp
logs the composition load (R649). -/
def loadSlots (vA vB : SlotVerdict) (s : State) : State :=
  let logged := fun (k : Nat) (a : State) => logWrite logComposition (rd Reg.cfgRefuse a).toNat k 0 a
  let ra := slotReader 0x4000000 s
  match fullFault vA ra with
  | none => let im := parseImage ra 0; logged im.compId (slotAccept 2 im s)
  | some fa =>
    let s1 := cfgReport fa (fput Reg.cfgRefuse CfgRefuse.cfgRefA fa.code s)
    let rb := slotReader 0xA000000 s1
    match fullFault vB rb with
    | none => let im := parseImage rb 0; logged im.compId (slotAccept 3 im s1)
    | some fb =>
      let s2 := cfgReport fb (fput Reg.cfgRefuse CfgRefuse.cfgRefB fb.code s1)
      let s3 := fput Reg.cfgStatus CfgStatus.cfgState 4 s2
      logged 0 { s3 with pwr := { s3.pwr with boot := .failed } }

/-! ### Writing structures into effect (R109 step 5) -/

/-- The pipelines on block `k` (8 x region + block), by slot (R114). -/
def blockSlots (pipes : List PipeEntry) (k : Nat) : List Nat := (sortPipes (pipes.filter fun e => e.blocks.contains k)).map (·.pipe)

/-- The registers of block `k` as a composition defines it: personality, role, slots, queue directions. Its current slot is 0 (assumption 187). -/
def writeBlock (k pers role : Nat) (slots : List Nat) (s : State) : State :=
  let r := k / 8
  let b := k % 8
  let st := Reg.blkStatus r b
  let s1 := fput st BlkStatus.blkRole role (fput st BlkStatus.blkPersonality pers
    (fput st BlkStatus.blkSlots slots.length (fput st BlkStatus.blkCurSlot 0 s)))
  let s2 := (List.range 8).foldl (fun a t =>
    wr (Reg.blkSlot r b t) (match slots[t]? with
      | some p => putF BlkSlot.slotValid (putF BlkSlot.slotPipe 0 p) 1
      | none => 0) a) s1
  (List.range 2).foldl (fun a q => fput (Reg.dqStatus r b q) DqStatus.dqDir (if persDecodes pers then 1 else 0) a) s2

/-- The blocks of region `r`: a block in `bad` failed its self-test, keeps personality NONE and stays RETIRED (R613). -/
def writeRegionBlocks (r pers standby : Nat) (pipes : List PipeEntry) (bad : List Nat) (s : State) : State :=
  let s1 := (List.range 8).foldl (fun a b =>
    let k := 8 * r + b
    let p := pers / 16 ^ b % 16
    if bad.contains b then writeBlock k 0 3 [] a
    else writeBlock k p (if standby = b then 2 else if p = 0 then 0 else 1) (blockSlots pipes k) a) s
  let sb := if standby < 8 ∧ bad.contains standby = false then standby else 15
  fput (Reg.rgcStatus r) RgcStatus.rgcStandby sb s1

/-- RGC_STATUS.RGC_PIPES: the pipelines that use at least one of the region's blocks (R43). -/
def writePipeCount (r : Nat) (s : State) : State :=
  fput (Reg.rgcStatus r) RgcStatus.rgcPipes (regionPipes r s).length s

def writePort (e : PortEntry) (s : State) : State :=
  wr (Reg.sptBind2 e.port) (putF SptBind2.pair (putF SptBind2.pipe 0 e.pipe) e.pair)
    (wr (Reg.sptBind e.port) (putF SptBind.defined (putF SptBind.egress (putF SptBind.kind (putF SptBind.bind
      (putF SptBind.pool 0 e.pool) e.bind) e.kind) (if e.egress then 1 else 0)) 1) s)

/-- A port that the composition no longer defines. -/
def unbindPort (n : Nat) (s : State) : State := wr (Reg.sptBind2 n) (regReset (Reg.sptBind2 n)) (wr (Reg.sptBind n) 0 s)

/-- A pipeline as its entry defines it: the initial budget (R395) and its direction. -/
def writePipe (e : PipeEntry) (s : State) : State :=
  fput (Reg.pipStatus e.pipe) PipStatus.encode (if persDecodes e.pers then 0 else 1)
    (fput (Reg.pipBudget e.pipe) PipBudget.budget e.budget s)

/-- Write an entry of the schedule table; a run's entries past the table's end are dropped (assumption 172). -/
def writeEntry (e : SchedEntry) (s : State) : State :=
  let a := 0xC00000 + 16 * e.index
  if e.index < 65536 then wr (a + 12) e.w3 (wr (a + 8) e.w2 (wr (a + 4) e.w1 (wr a e.w0 s))) else s

/-- A defined domain's registers (R104): DOM_FSTART_IRQ reads 0 at release. -/
def writeDomain (d : Nat) (im : Image) (s : State) : State :=
  if im.domValid d then
    let w := im.domW d
    let s1 := wr (Reg.rckDomCtl d) (putF RckDomCtl.domFstartIrq (w 0) 0) (wr (Reg.rckDomRate d) (w 1) (wr (Reg.rckDomGeom d) (w 2) s))
    let s2 := wr (Reg.rckDomActive d) (w 3) (wr (Reg.rckDomField d) (w 4) (wr (Reg.rckDomOfs d) (w 5) (wr (Reg.rckDomSched d) (w 6) s1)))
    setRaster d { Raster.init with ofs := (w 5).toInt } s2
  else s

/-- Patch memory of every block, with what its registers show of it (R350), and the copy that each region keeps (R351). -/
def writePatches (im : Image) (s : State) : State :=
  let n := fun i => (im.patchCounts[i]?).getD 0
  let w : Word := putF SeqPatch.patchValid (putF SeqPatch.patchMatch (putF SeqPatch.patchMicro (putF SeqPatch.patchNano 0 (n 1)) (n 0)) (n 2)) 1
  let crc := BitVec.ofNat 32 (crc32 (im.patches.flatMap fun x => leBytes x.toNat 4))
  let s1 := (List.range 16).foldl (fun a r => setRegion r { getRegion r a with patch := im.patches } a) s
  (List.range 128).foldl (fun a k => wr (Reg.seqPatch (k / 8) (k % 8)) w (wr (Reg.seqPatchCrc (k / 8) (k % 8)) crc
    (onBlock (k / 8) (k % 8) (fun x => { x with patch := im.patches }) a))) s1

/-- CXL_HDM_MAP0 to 7: the exposed carve-outs in ascending index (R524, R527). -/
def writeHdmMaps (s : State) : State :=
  let l := (s.comp.carves.zipIdx.filter fun c => c.1.kind != 0xFF && c.1.hdm != 0)
  (List.range 8).foldl (fun a k =>
    wr (Reg.cxlHdmMap k) (match l[k]? with
      | some (c, i) => putF CxlHdmMap.mapValid (putF CxlHdmMap.mapDom (putF CxlHdmMap.mapBias (putF CxlHdmMap.mapCo 0 i) c.hdm)
          (owner s glvCarve i)) 1
      | none => 0) a) s

/-- Registers that follow the composition: CFG_WAIVED shows a waived margin, and the HDM maps. -/
def updateWaived (s : State) : State :=
  writeHdmMaps (fput Reg.cfgStatus CfgStatus.cfgWaived (if s.comp.pipes.any fun e => e.flags % 2 == 1 then 1 else 0) s)

/-- Zeros to a carve-out (R112). -/
def fillCarve (c : Carve) (s : State) : State :=
  let lo := c.base * unitSize
  let hi := lo + c.size * unitSize
  let inside := fun w => decide (lo ≤ 64 * w) && decide (64 * w < hi)
  { s with fs := { s.fs with
      mem := memZero s.fs.mem lo hi
      poison := smErase inside s.fs.poison
      syms := smErase inside s.fs.syms } }

/-- The carve-outs that the loader fills: REGION_MEM and FRAME_STORE. -/
def filled (c : Carve) : Bool := c.kind == 0 || c.kind == 1
def fillCarves (l : List Carve) (s : State) : State := (l.filter filled).foldl (fun a c => fillCarve c a) s

/-- The free-list link words of every pool (R112). -/
def fillPools (s : State) : State :=
  (List.range 16).foldl (fun a p => if poolDefined p a then linkChain p (List.range' (poolFirst p a) (poolMax p a)) a else a) s

/-- The highest Glove domain that an entry names. -/
def gloveMaxDom (l : List Word) : Nat := l.foldl (fun n w => if gloveKind w = 0 then n else max n (w.toNat / 2 ^ 24 % 16)) 0

/-- The staged structures of a full image take effect (R109 step 5), and the fill of R112 is done. -/
def install (im : Image) (s : State) : State :=
  let s1 : State := { s with comp := ⟨true, im.pipes, im.ports, im.carves, im.pools, im.macModes, im.sdiOut, im.ringEn, im.ptpMac,
    im.glove, im.capW, im.dvfsPoints, im.compId, im.patches⟩ }
  let s2 := (List.range 16).foldl (fun a d => writeDomain d im a) (wr Reg.rckCtl im.rckCtl (wr Reg.rckSchedHost im.schedHost s1))
  let s3 := im.schedule.foldl (fun a e => writeEntry e a) s2
  let s4 := (List.range 16).foldl (fun a r =>
    let x := (im.blocks.find? fun x => x.1 == r).getD (r, 0, 15)
    wr64 (Reg.cfgRgnCompIdLo r) (Reg.cfgRgnCompIdHi r) im.compId
      (writePipeCount r (writeRegionBlocks r x.2.1 x.2.2 im.pipes [] a))) s3
  let s5 := im.ports.foldl (fun a e => writePort e a) (im.pipes.foldl (fun a e => writePipe e a) s4)
  let s6 := (List.range 8).foldl (fun a m => fput (Reg.lanMacCtl m) LanMacCtl.mode ((im.macModes[m]?).getD 0) a) (writePatches im s5)
  let s7 := ((List.range im.glove.length).zip im.glove).foldl (fun a x => wr (Reg.glvEntry x.1) x.2 a) s6
  let s8 := fput Reg.glvSummary GlvSummary.glvEntries im.glove.length (fput Reg.glvSummary GlvSummary.glvMaxDom (gloveMaxDom im.glove) s7)
  fillPools (fillCarves im.carves (updateWaived s8))

/-! ### The composition in force, as an image -/

/-- Indexes of schedule entries that hold something. -/
def scheduleIndexes (s : State) : List Nat :=
  (((smKeys s.regs).filter fun o => decide (0xC00000 ≤ o ∧ o < 0xD00000)).map fun o => (o - 0xC00000) / 16).eraseDups

def entryInForce (i : Nat) (s : State) : SchedEntry := ⟨i, seWord i 0 s, seWord i 1 s, seWord i 2 s, seWord i 3 s⟩

def domainWords (d : Nat) (s : State) : List Word :=
  [Reg.rckDomCtl d, Reg.rckDomRate d, Reg.rckDomGeom d, Reg.rckDomActive d, Reg.rckDomField d, Reg.rckDomOfs d,
    Reg.rckDomSched d].map fun o => rd o s

/-- The personality of a block in the composition in force: that of its pipelines, which a block without service keeps for them
(R613), else what BLK_STATUS shows. -/
def persInForce (r b : Nat) (s : State) : Nat :=
  match s.comp.pipes.find? fun e => e.blocks.contains (8 * r + b) with
  | some e => e.pers
  | none => fget (Reg.blkStatus r b) BlkStatus.blkPersonality s

/-- The personalities of a region's blocks as BLOCKS holds them, and its standby. -/
def regionBlocks (r : Nat) (s : State) : Nat × Nat × Nat :=
  (r, (List.range 8).foldl (fun n b => n + persInForce r b s * 16 ^ b) 0, fget (Reg.rgcStatus r) RgcStatus.rgcStandby s)

/-- The composition in force in the form of an image. -/
def imageInForce (s : State) : Image :=
  let c := s.comp
  { compId := c.compId
    powerEst := 0
    sections := []
    vsVersion := rd Reg.cfgVsVersion s
    rckCtl := rd Reg.rckCtl s
    schedHost := rd Reg.rckSchedHost s
    domains := (List.range 16).map fun d => domainWords d s
    schedule := (scheduleIndexes s).map fun i => entryInForce i s
    blocks := (List.range 16).map fun r => regionBlocks r s
    pipes := c.pipes
    ports := c.ports
    carves := c.carves
    pools := c.pools
    macModes := c.macModes
    sdiOut := c.sdiOut
    ringEn := c.ringEn
    ptpMac := c.ptpMac
    glove := c.glove
    capW := c.capW
    powerRsvd := 0
    dvfsPoints := c.dvfsPoints
    patches := c.patches
    patchCounts := [] }

/-! ### A region's share (R137) -/

/-- A pipeline that uses the region in the composition in force or in the image. -/
def usesEither (r p : Nat) (cur im : Image) : Bool :=
  (cur.pipes ++ im.pipes).any fun e => e.pipe == p && usesRegion e r

/-- The entry's action targets the region itself, a pipeline that uses it, or a port bound to such a pipeline. -/
def entryOfRegion (r : Nat) (cur im : Image) (e : SchedEntry) : Bool :=
  let a := seAction e.w0
  let t := seTarget e.w1
  if a = actRegionUp ∨ a = actRegionGate ∨ a = actRegionDvfs then t == r
  else if a = actRelease then (cur.ports ++ im.ports).any fun q => q.port == t && usesEither r q.pipe cur im
  else if (1 ≤ a ∧ a ≤ 5) ∨ a = actCaptureArm then usesEither r t cur im
  else false

def entryIsNop (e : SchedEntry) : Bool := seAction e.w0 == actNop

/-- An index lies in some domain's range. -/
def inDomainRange (cur : Image) (i : Nat) : Bool :=
  cur.doms.any fun d => decide (cur.base d ≤ i) && decide (i < cur.base d + cur.count d)

/-- A schedule entry of the image breaks R137. -/
def entryOutOfScope (r : Nat) (cur im : Image) (e : SchedEntry) : Bool :=
  let old := cur.entry e.index
  !inDomainRange cur e.index
    || (old != e && !((entryIsNop old || entryOfRegion r cur im old) && (entryIsNop e || entryOfRegion r cur im e)))

def carveOutOfScope (r : Nat) (cur : Image) (i : Nat) (c : Carve) : Bool :=
  !unused c && (c.region != r || match cur.carves[i]? with | some o => !unused o && o.region != r | none => false)

/-- Check 0x34: the section type and the object of the first breach of R137. -/
def scopeFault (r : Nat) (cur im : Image) : Option (Nat × Nat) :=
  let spans := fun (e : PipeEntry) => usesRegion e r && e.blocks.any fun k => k / 8 != r
  let badPipe := (sortPipes (cur.pipes.filter spans ++ im.pipes.filter fun e => e.blocks.any fun k => k / 8 != r)).head?
  match im.blocks.find? fun x => x.1 != r with
  | some x => some (typeBlocks, 8 * x.1 + ((List.range 8).find? fun b => x.2.1 / 16 ^ b % 16 != 0).getD 0)
  | none =>
    match badPipe with
    | some e => some (typePipelines, e.pipe)
    | none =>
      match ((List.range im.carves.length).zip im.carves).find? fun x => carveOutOfScope r cur x.1 x.2 with
      | some x => some (typeMemory, x.1)
      | none => (im.schedule.find? (entryOutOfScope r cur im)).map fun e => (typeSchedule, e.index)

/-- An entry with SE_VALID cleared or set. -/
def invalid (e : SchedEntry) : SchedEntry := { e with w1 := e.w1 &&& 0x7FFFFFFF#32 }

/-- A carve-out entry that is unused. -/
def noCarve : Carve := ⟨0xFF, 0, 0, 0xFF, 0, 0⟩

/-- Carve-outs with the region's replaced by the image's. -/
def mergeCarves (r : Nat) (old new : List Carve) : List Carve :=
  (List.range (max old.length new.length)).map fun i =>
    match old[i]? with
    | some c => if !unused c && c.region != r then c else (new[i]?).getD noCarve
    | none => (new[i]?).getD noCarve

/-- The composition in force with the region's share replaced (R138 step 3). -/
def mergeRegion (r : Nat) (cur im : Image) : Image :=
  let stays := fun (e : PipeEntry) => !usesRegion e r
  let named := fun i => im.schedule.any fun e => e.index == i
  let kept := (cur.schedule.filter fun e => !named e.index).map fun e =>
    if inDomainRange cur e.index && entryOfRegion r cur im e then invalid e else e
  { cur with
    powerEst := im.powerEst
    sections := im.sections
    schedule := kept ++ im.schedule
    blocks := cur.blocks.map fun x => if x.1 = r then (im.blocks.find? fun y => y.1 == r).getD (r, 0, 15) else x
    pipes := cur.pipes.filter stays ++ im.pipes
    ports := cur.ports.filter (fun q => !(cur.pipes.any fun e => e.pipe == q.pipe && usesRegion e r)) ++ im.ports
    carves := mergeCarves r cur.carves im.carves }

/-- Step 3 of R138: 0x34, then 0x10 to 0x33 against the merged composition. -/
def regionFault (r : Nat) (cur im : Image) : Option LoadFail :=
  match scopeFault r cur im with
  | some x => some ⟨0x34, sectIndex im.sections x.1, x.2⟩
  | none => consistencyFault im.sections (mergeRegion r cur im)

/-- Steps 2 and 3 of R138 on the bytes of a region image: the first failure. -/
def regionImageFault (r : Nat) (v : SlotVerdict) (rd_ : Reader) (s : State) : Option LoadFail :=
  match streamFault (.region r) v rd_ with
  | some f => some f
  | none => regionFault r (imageInForce s) (parseImage rd_ r)

/-! ### Steps 4 to 7 of R138 -/

/-- The lowest pipeline of the region that is enabled (0x35). -/
def enabledPipe (r : Nat) (s : State) : Option Nat := ((sortPipes (enabledOn r s)).head?).map (·.pipe)

/-- The ports bound to a pipeline that uses the region. -/
def regionPorts (r : Nat) (s : State) : List PortEntry :=
  s.comp.ports.filter fun q => s.comp.pipes.any fun e => e.pipe == q.pipe && usesRegion e r

/-- The region's old share is gone (the first half of step 5): SE_VALID of its entries cleared, its pipelines, ports and
carve-outs undefined. A port that is still enabled stops (assumption 24). -/
def clearShare (r : Nat) (s : State) : State :=
  let cur := imageInForce s
  let im := s.staged.getD { cur with pipes := [], ports := [], schedule := [] }
  let s1 := (cur.schedule.filter fun e => inDomainRange cur e.index && entryOfRegion r cur im e).foldl
    (fun a e => writeEntry (invalid e) a) s
  let gone := regionPorts r s
  let s2 := gone.foldl (fun a q => unbindPort q.port (setPort q.port Port.init (fclr (Reg.sptCtl q.port) SptCtl.enable (portDisable q.port a)))) s1
  let old := s.comp.pipes.filter fun e => usesRegion e r
  let s3 := old.foldl (fun a e => setPipe e.pipe Pipe.init (fput (Reg.pipBudget e.pipe) PipBudget.budget 0 a)) s2
  { s3 with comp := { s3.comp with
      pipes := s3.comp.pipes.filter fun e => !usesRegion e r
      ports := s3.comp.ports.filter fun q => !gone.any fun g => g.port == q.port
      carves := mergeCarves r s3.comp.carves [] } }

/-- The image's entries that belong to the region (R137), the last of two runs that name one index; the others, which the image cannot
change, keep their SE_VALID. -/
def shareEntries (r : Nat) (im : Image) (s : State) : List SchedEntry :=
  let cur := imageInForce s
  im.schedule.filter fun e => im.entry e.index == e && (entryIsNop e || entryOfRegion r cur im e)

/-- The new share is written, with SE_VALID 0, and filled under R112 (the second half of step 5). -/
def writeShare (r : Nat) (im : Image) (bad : List Nat) (s : State) : State :=
  let s1 := (shareEntries r im s).foldl (fun a e => writeEntry (invalid e) a) s
  let s2 : State := { s1 with comp := { s1.comp with
    pipes := s1.comp.pipes ++ im.pipes
    ports := s1.comp.ports ++ im.ports
    carves := mergeCarves r s1.comp.carves im.carves } }
  let x := (im.blocks.find? fun y => y.1 == r).getD (r, 0, 15)
  let s3 := writePipeCount r (writeRegionBlocks r x.2.1 x.2.2 im.pipes bad s2)
  let s4 := im.ports.foldl (fun a e => writePort e a) (im.pipes.foldl (fun a e => writePipe e a) s3)
  updateWaived (fillCarves im.carves s4)

/-- The region left empty by an abort in step 5 (R141). -/
def emptyRegion (r : Nat) (s : State) : State :=
  let im := s.staged
  let s1 := clearShare r s
  let s2 := match im with
    | some i => (shareEntries r i s).foldl (fun a e => writeEntry (invalid (entryInForce e.index a)) a) s1
    | none => s1
  let s3 := writePipeCount r (writeRegionBlocks r 0 15 [] [] s2)
  setRgcState r 1 (fset Reg.cfgStatus CfgStatus.cfgRgnEmpty (updateWaived s3))

/-- The raster domains in whose ranges the image writes valid entries of the region. -/
def affectedDomains (r : Nat) (im : Image) (s : State) : List Nat :=
  let cur := imageInForce s
  cur.doms.filter fun d => (shareEntries r im s).any fun e =>
    seValid e.w1 && decide (cur.base d ≤ e.index) && decide (e.index < cur.base d + cur.count d)

/-- Step 6 in one domain: its new entries take the SE_VALID that the image gives them (assumption 176). -/
def activateDomain (r d : Nat) (im : Image) (s : State) : State :=
  ((shareEntries r im s).filter fun e => seValid e.w1 && decide (schedBase d s ≤ e.index) && decide (e.index < schedBase d s + schedCount d s)).foldl
    (fun a e => writeEntry e a) s

end Sys2Proof.Machine
end

