-- ==== Sys2Proof/Machine/Check.lean ====
section
/-! DEFINITION. The checks of a pipeline's parameters: at enable (R231, R232), at a hand-over (R224) and at a PIC_START after
direct writes (R229), with the codes of R235, R278 and R319. -/

namespace Sys2Proof.Machine

open Sys2Proof

/-- What a check reads: the pipeline, its entry, its sets (`sh` 0 active, 1 shadow) as parameters. -/
structure Chk where
  p : Nat
  sh : Nat
  e : PipeEntry
  q : Params
  deriving DecidableEq, Repr

/-- The word offset of a register of the sets, from its offset in the window of the active sets (R232). -/
def Chk.ofs (c : Chk) (o : Nat) : Nat := (o + 0x100 * c.sh) / 4

/-- A fault at a register of the sets, at a PIP register, and at none (R232). -/
def Chk.bad (c : Chk) (b : Bool) (o : Nat) : Option Nat := if b then some (c.ofs o) else none
def badPip (b : Bool) (o : Nat) : Option Nat := if b then some (o / 4) else none
def badNone (b : Bool) : Option Nat := if b then some 0x3FF else none

/-! ### Geometry and block time (R82, R116, R263) -/

/-- The size, CTU size, tile columns and pictures per frame that a pipeline's block time rests on. -/
structure Geo where
  width : Nat
  height : Nat
  ctuLog2 : Nat
  tileCols : Nat
  fields : Nat
  deriving DecidableEq, Repr

/-- The geometry in force: the registers' for an encoder, DEC_SIZE and the entry's for a decoder (R319). -/
def Chk.geo (c : Chk) (s : State) : Geo :=
  let inter := domInterlaced c.e.domain s
  if persDecodes c.e.pers then
    let h := orIf0 c.e.maxH c.q.height
    ⟨orIf0 c.e.maxW c.q.width, if inter then ceilDiv h 2 else h, c.e.ctuLog2, c.e.tileCols, if inter then 2 else 1⟩
  else ⟨c.q.width, c.q.height, c.q.ctuLog2, c.q.tileCols, c.q.fm c.e.domain s⟩

/-- The geometry gives row units at all; another code refuses one that does not. -/
def Geo.ok (g : Geo) : Bool :=
  decide (0 < g.width) && decide (0 < g.height) && decide (4 ≤ g.ctuLog2) && decide (g.ctuLog2 ≤ 7) && decide (0 < g.tileCols)

def Geo.ctuCols (g : Geo) : Nat := ceilDiv g.width (2 ^ g.ctuLog2)
def Geo.ctuRows (g : Geo) : Nat := ceilDiv g.height (2 ^ g.ctuLog2)

/-- T_row from the registers (R82, R85), in the units of the loader. -/
def Chk.row (c : Chk) (im : Image) (s : State) : Nat :=
  let g := c.geo s
  rowTime (persDecodes c.e.pers) (ceilDiv g.ctuCols g.tileCols * 4 ^ g.ctuLog2) c.e.chroma (im.pipeFactor c.e)

/-- The blocks that share the pipeline's row units: those in service (R612), and at most LAG x tile columns of them for an
encoder that is not in FIXED_QP (R263). -/
def Chk.blocks (c : Chk) (s : State) : Nat :=
  let n := (blocksInService c.e s).length
  if persDecodes c.e.pers ∨ c.q.rcMode = 0 then n else min n (c.q.rowLag * (c.geo s).tileCols)

/-- Rate x time of the pipeline on one of its blocks. -/
def Chk.slot (c : Chk) (im : Image) (switch : Nat) (s : State) : Nat × Nat :=
  let g := c.geo s
  slotTime (rateNum c.e.domain s * g.fields) (rateDen c.e.domain s) (g.ctuRows * g.tileCols) (max 1 (c.blocks s)) (c.row im s)
    switch (c.e.flags % 2 == 1)

/-- The sum of R116 for block `k`: this pipeline with its parameters, the other enabled slots with their active sets. -/
def Chk.blockFits (c : Chk) (im : Image) (k : Nat) (s : State) : Bool :=
  let l := sortPipes (s.comp.pipes.filter fun e => e.blocks.contains k)
  let sw := if l.length < 2 then 0 else switchTime (pointFactor (im.lowPoint (k / 8)))
  let others := l.filter fun e => e.pipe != c.p && pipeEnabled e.pipe s
  sumAtMostOne (c.slot im sw s :: others.map fun e => (Chk.slot ⟨e.pipe, 0, e, paramsOf e.pipe 0 s⟩ im sw s))

/-! ### Tables -/

/-- A PROFILE of a personality (R183), as a row of its table: the bit depths (8-bit, 10-bit) and the chroma formats
(4:2:0, 4:2:2). -/
def profileRow (pers prof : Nat) : Option ((Bool × Bool) × (Bool × Bool)) :=
  match pers, prof with
  | 1, 0 => some ((true, false), (true, false))
  | 1, 1 => some ((true, true), (true, false))
  | 1, 2 => some ((true, true), (true, true))
  | 2, 0 => some ((true, false), (true, false))
  | 2, 1 => some ((true, true), (true, false))
  | 2, 2 => some ((true, true), (true, true))
  | 3, 0 => some ((true, true), (true, false))
  | 3, 1 => some ((true, true), (false, true))
  | 4, 0 => some ((true, true), (true, false))
  | 4, 2 => some ((true, true), (false, true))
  | _, _ => none

/-- The tools of ENC_TOOLS that a codec has (R185). -/
def toolMask (codec : Nat) : Nat :=
  match codec with
  | 1 => 0x9009
  | 2 => 0xB03B
  | 3 => 0xF7FF
  | _ => 0x9917

/-- The levels of a personality's rows (R183), as ENC_CODEC.LEVEL codes them (R188). -/
def levelRow (codec level : Nat) : Bool := if codec = 4 then decide (level ≤ 19) else decide (10 ≤ level ∧ level ≤ 62)

/-- A codec that has the impairment `code` (R240). -/
def impairmentOf (codec code : Nat) : Bool :=
  decide (code ≤ 9) && !((code == 2 || code == 7) && codec == 4) && !(code == 8 && codec != 4)

/-- The bits of PROFILE_MASK with a row in R279. -/
def decProfiles (pers : Nat) : Nat :=
  match pers with
  | 8 => 0x1F
  | 9 => 0x0F
  | _ => 0x03

/-- The level's verdict for a code, by the codec and the numbers the limits rest on (R188, R207, R220, R278). -/
def Chk.levelAdmits (c : Chk) (code : Nat) (more : List Nat) (s : State) : Bool :=
  let q := c.q
  Config.standardAdmits code ([q.codec, q.fld 0x100 EncCodec.profile, q.fld 0x100 EncCodec.level, q.fld 0x100 EncCodec.highTier,
    q.width, q.height, rateNum c.e.domain s * q.fm c.e.domain s, rateDen c.e.domain s, q.tileCols, q.tileRows] ++ more)

/-! ### The codes -/

/-- 0x49 over the sets: a MAP_DMA channel of another Glove domain. -/
def Chk.c49 (c : Chk) (s : State) : Option Nat :=
  let m := c.q.at 0x580
  c.bad (!persDecodes c.e.pers && getF RoiMapCtl.mapEn m == 1 && getF RoiMapCtl.mapSrc m == 1
    && owner s glvDma (getF RoiMapCtl.mapDma m) != owner s glvPipe c.p) 0x580

/-- 0x49 over the PIP registers: the record DMA channel and the chunk pool (R406). -/
def Chk.c49Pip (c : Chk) (s : State) : Option Nat :=
  let w := rd (Reg.pipRecCtl c.p) s
  let own := owner s glvPipe c.p
  if getF PipRecCtl.recLevel w ≠ 0 ∧ c.e.recCarve = 0xFFFF ∧ owner s glvDma (getF PipRecCtl.recDma w) ≠ own then some 8
  else badPip (!persDecodes c.e.pers && owner s glvPool (fget (Reg.pipOutPool c.p) PipOutPool.outPool s) != own) 0x48

/-- 0x40 PARAM_RANGE over an encoder's sets: reserved codes, and SEL and ARG of a slot in use outside the range of its impairment
(assumption 174). A decoder's sets have no reserved code but FMT's, which is refused with 0x60. -/
def Chk.c40 (c : Chk) : Option Nat :=
  let q := c.q
  let gop := q.at 0x10C
  (c.bad (getF EncCodec.cavlc (q.at 0x100) == 1 && q.codec != 1) 0x100)
    <|> (c.bad (decide (3 < getF EncGop.struct gop) || (getF EncGop.openGop gop == 1 && (q.codec == 1 || q.codec == 4))) 0x10C)
    <|> (c.bad (getF EncSearch.frac (q.at 0x110) == 3) 0x110)
    <|> (c.bad (decide (4 < getF EncSrc.inFmt (q.at 0x11C))) 0x11C)
    <|> ((List.range 8).findSome? fun t =>
      let w := slotCtl q t
      let code := getF ImpSlotCtl.code w
      let arg := getF ImpSlotArg.arg (q.at (0x144 + 8 * t))
      let used := slotMode q t == 1 || slotMode q t == 2
      (c.bad (slotMode q t == 3 || (used && (code == 3 || code == 4 || code == 6) && decide (3 < getF ImpSlotCtl.sel w))) (0x140 + 8 * t))
        <|> (c.bad (used && code == 1 && (arg == 0 || decide (400 < arg))) (0x144 + 8 * t)))

/-- 0x41: profile, chroma format, bit depth, level and tier against the table of R183. -/
def Chk.c41 (c : Chk) : Option Nat :=
  let w := c.q.at 0x100
  let deep := getF EncCodec.depth10 w == 1
  let tier := getF EncCodec.highTier w == 1
  c.bad (match profileRow c.e.pers (getF EncCodec.profile w) with
    | none => true
    | some (d, f) =>
      !(if deep then d.2 else d.1) || !(match c.e.chroma with | 0 => f.1 | 1 => f.2 | _ => false)
        || !levelRow c.q.codec (getF EncCodec.level w)
        || (tier && (c.q.codec == 1 || (c.q.codec != 4 && decide (getF EncCodec.level w < 40))))) 0x100

/-- 0x42: no block in service (R612), or a block's time above 1 s. -/
def Chk.c42 (c : Chk) (im : Image) (s : State) : Option Nat :=
  let l := blocksInService c.e s
  if l.isEmpty then some 0x3FF
  else c.bad ((c.geo s).ok && l.any fun k => !c.blockFits im k s) 0x104

/-- 0x46: a margin below T_row recomputed from the registers (R85), unless it is waived (R117). -/
def Chk.c46 (c : Chk) (im : Image) (s : State) : Option Nat :=
  badNone (c.e.flags % 2 == 0 && (c.geo s).ok && im.deadlines.any fun x => sePipe x.2 == c.p
    && match deadlineMargin im x.1 x.2 with
      | some m => decide (m < im.eighths x.1 (c.row im s) 3456000000)
      | none => false)

/-- 0x48 of an encoder (R187, R189). -/
def Chk.c48 (c : Chk) (s : State) : Option Nat :=
  let q := c.q
  let d := c.e.domain
  let inter := domInterlaced d s
  let w := q.width
  let h := q.height
  let lines := fget (Reg.rckDomActive d) RckDomActive.domActLines s
  let clip := c.e.flags.testBit 3
  let size := w % 8 != 0 || decide (w < 128) || decide (8192 < w) || decide (c.e.maxW < w)
    || h % 2 != 0 || decide (h < 64) || decide ((if q.codec = 4 then 4352 else 4320) < h) || decide (c.e.maxH < h)
    || (inter && c.e.chroma == 0 && h % 4 != 0)
    || (!clip && (w != fget (Reg.rckDomField d) RckDomField.domActSpl s
        || h != (if inter && q.fieldMode == 0 then lines / 2 else lines)))
  let fmt := q.fld 0x11C EncSrc.inFmt
  let sdi := s.comp.ports.any fun e => e.kind == 1 && !e.egress && e.pipe == c.p
  (c.bad size 0x104)
    <|> (c.bad ((c.e.chroma == 1 && (fmt == 3 || fmt == 4)) || (sdi && !clip && fmt != 0)) 0x11C)

/-- 0x4C (R216, R297). -/
def Chk.c4C (c : Chk) (s : State) : Option Nat :=
  let inter := domInterlaced c.e.domain s
  if inter ∧ c.q.codec = 4 then some 0x3FF
  else c.bad (!persDecodes c.e.pers && !inter && c.q.fieldMode == 1) 0x100

/-- 0x4D (R185). -/
def Chk.c4D (c : Chk) : Option Nat :=
  let t := c.q.fld 0x114 EncTools.tools
  c.bad (t &&& toolMask c.q.codec != t || (c.q.codec == 3 && t.testBit 13 && t.testBit 14)) 0x114

/-- 0x4E (R207, and the CTU sizes of ENC_PART). -/
def Chk.c4E (c : Chk) (s : State) : Option Nat :=
  let q := c.q
  let lg := q.ctuLog2
  let size := match q.codec with | 1 => lg == 4 | 2 => decide (4 ≤ lg ∧ lg ≤ 6) | _ => decide (6 ≤ lg ∧ lg ≤ 7)
  c.bad (!size || (q.codec == 1 && (decide (1 < q.tileCols) || decide (1 < q.tileRows)))
    || (q.wpp && (q.codec == 1 || q.codec == 4)) || decide (q.ctuCols < q.tileCols) || decide (q.ctuRows < q.tileRows)
    || (q.codec == 4 && decide (4096 < ceilDiv q.ctuCols q.tileCols * 2 ^ lg)) || !c.levelAdmits 0x4E [q.sliceRows, lg, q.fld 0x108 EncPart.wpp] s) 0x108

/-- 0x4F (R219, R220). -/
def Chk.c4F (c : Chk) (s : State) : Option Nat :=
  let gop := c.q.at 0x10C
  let k := getF EncGop.struct gop
  let n := getF EncGop.refs gop
  c.bad (k != 0 && (n == 0 || decide (4 < n) || decide (c.e.maxRefs < n)
    || (k == 3 && (decide (n < 2) || getF EncGop.ltPeriod gop == 0)) || !c.levelAdmits 0x4F [k, n] s)) 0x10C

/-- The record ring of an enabled pipeline in a carve-out, as latched: base and size. -/
def ringOf (p : Nat) (s : State) : Nat × Nat :=
  let w := pipLatched p 0x20 s
  ((pipLatched p 0x24 s).toNat + 2 ^ 32 * (pipLatched p 0x28 s).toNat, 2 ^ (16 + getF PipRecCtl.recLog2sz w))

/-- 0x51 (R235, R244). -/
def Chk.c51 (c : Chk) (s : State) : Option Nat :=
  let w := rd (Reg.pipRecCtl c.p) s
  let n := getF PipRecCtl.recLog2sz w
  let size := 2 ^ (16 + n)
  let base := rd64 (Reg.pipRecBaseLo c.p) (Reg.pipRecBaseHi c.p) s
  if getF PipRecCtl.recLevel w = 0 then none
  else if n = 15 then some 8
  else if base % size ≠ 0 then some 9
  else if c.e.recCarve = 0xFFFF then none
  else
    match s.comp.carves[c.e.recCarve]? with
    | none => some 9
    | some cv =>
      badPip (decide (cv.size * unitSize < base + size) || s.comp.pipes.any fun o =>
        o.pipe != c.p && o.recCarve == c.e.recCarve && pipeEnabled o.pipe s
          && getF PipRecCtl.recLevel (pipLatched o.pipe 0x20 s) != 0
          && decide (base < (ringOf o.pipe s).1 + (ringOf o.pipe s).2) && decide ((ringOf o.pipe s).1 < base + size)) 0x24

/-- 0x52 (R240): a reserved impairment code, or one that the codec does not have, in any slot. -/
def Chk.c52 (c : Chk) : Option Nat :=
  (List.range 8).findSome? fun t =>
    c.bad (!impairmentOf c.q.codec (getF ImpSlotCtl.code (slotCtl c.q t))) (0x140 + 8 * t)

/-- 0x53: the clip loop (R197). -/
def Chk.c53 (c : Chk) (s : State) : Option Nat :=
  let n := c.q.fld 0x11C EncSrc.clipCount
  c.bad (c.e.flags.testBit 3 && (n == 0 || match s.comp.carves[c.e.srcCarve]? with
    | none => true
    | some cv => decide (cv.size * unitSize < n * clipBytes c.q))) 0x11C

/-- 0x54 (R199). -/
def Chk.c54 (c : Chk) : Option Nat :=
  let w := c.q.at 0x110
  c.bad (decide (512 < getF EncSearch.l2Rx w) || decide (256 < getF EncSearch.l2Ry w)) 0x110

/-- 0x58 to 0x5E (R278). -/
def Chk.c58 (c : Chk) : Option Nat :=
  let w := c.q.at 0x300
  let st := c.q.at 0x318
  let m := getF RcCtl.mode w
  let k := getF RcStress.kind st
  (c.bad (decide (4 < m) || (m == 4 && getF RcCtl.hrdSignal w == 0)) 0x300)
    <|> (c.bad (k == 3 || (m == 4 && (getF RcStress.period st == 0 || (k == 2 && decide (99 < getF RcStress.amount st))))) 0x318)

def Chk.c59 (c : Chk) : Option Nat :=
  let m := c.q.rcMode
  let r := c.q.rate
  let x := c.q.fld 0x308 RcMaxrate.maxrateKbps
  (c.bad (r == 0 && (m == 1 || m == 2 || m == 4 || (m == 0 && c.q.hrdSignal) || (m == 3 && x == 0))) 0x304)
    <|> (c.bad (m == 2 && x != 0 && decide (x < r)) 0x308)

def Chk.c5A (c : Chk) (s : State) : Option Nat :=
  c.bad (c.q.modelKept && !c.levelAdmits 0x5A [c.q.fillRate, c.q.cpbBits] s) 0x304

def Chk.c5B (c : Chk) : Option Nat :=
  let q := c.q
  c.bad (decide (q.qpMax < q.qpMin) || decide (q.qpCmax < q.qpMax) || decide (q.qpCmax < q.qpInit)
    || decide (q.qpInit < q.qpMin) || decide (q.qpMax < q.qpInit)) 0x310

def Chk.c5C (c : Chk) : Option Nat :=
  let q := c.q
  (List.range 16).findSome? fun n =>
    let wx := q.at (0x500 + 8 * n)
    let wy := q.at (0x504 + 8 * n)
    let m := getF RoiRectX.mode wx
    let top := getF RoiRectY.value wy * (if q.codec = 4 then 4 else 1)
    (c.bad (m != 0 && (m == 3 || decide (getF RoiRectX.x1 wx < getF RoiRectX.x0 wx) || decide (q.ctuCols ≤ getF RoiRectX.x1 wx)))
        (0x500 + 8 * n))
      <|> (c.bad (m != 0 && (decide (getF RoiRectY.y1 wy < getF RoiRectY.y0 wy) || decide (q.ctuRows ≤ getF RoiRectY.y1 wy)
        || (m == 2 && decide (q.qpCmax < top)))) (0x504 + 8 * n))

/-- Bytes of a delta map (R270). -/
def mapBytes (q : Params) : Nat := q.ctuRows * (ceilDiv q.ctuCols 64 * 64)
def mapBase (q : Params) : Nat := (q.at 0x584).toNat + 2 ^ 32 * (q.at 0x588).toNat

def Chk.c5D (c : Chk) (s : State) : Option Nat :=
  let q := c.q
  let b := mapBase q
  let inside := ((List.range s.comp.carves.length).zip s.comp.carves).any fun x =>
    !unused x.2 && owner s glvCarve x.1 == owner s glvPipe c.p && decide (x.2.base * unitSize ≤ b)
      && decide (b + mapBytes q ≤ (x.2.base + x.2.size) * unitSize)
  c.bad (q.fld 0x580 RoiMapCtl.mapEn == 1 && (b % 64 != 0 || (q.fld 0x580 RoiMapCtl.mapSrc == 0 && !inside))) 0x584

def Chk.c5E (c : Chk) (s : State) : Option Nat :=
  let q := c.q
  let rate := pictureRate c.e.domain (q.fm c.e.domain s) s
  c.bad (q.rcMode != 0 && decide (q.cpbBits < q.ctuRows * rowBound q true + q.fillRate * rate.2 / rate.1)) 0x30C

/-! ### Codes of a decoder (R319) -/

def Chk.d41 (c : Chk) : Option Nat :=
  let m := c.q.fld 0x100 DecCodec.profileMask
  c.bad (m &&& decProfiles c.e.pers != m) 0x100

def Chk.d48 (c : Chk) : Option Nat :=
  c.bad (decide (c.e.maxW < c.q.width) || decide (c.e.maxH < c.q.height)) 0x104

/-- 0x60: a reserved FMT, or an enabled egress port that cannot carry the output format. An SDI port carries FMT 0 only from
a 4:2:2 pipeline; the stream's depth is not known at enable. -/
def Chk.d60 (c : Chk) (s : State) : Option Nat :=
  let f := c.q.fld 0x108 DecOut.fmt
  c.bad (decide (1 < f) || (f == 0 && c.e.chroma != 1 && s.comp.ports.any fun e =>
    e.kind == 1 && e.egress && e.pipe == c.p && sptEnabled e.port s)) 0x108

def Chk.d61 (c : Chk) : Option Nat :=
  let d := c.q.fld 0x108 DecOut.reorder
  c.bad (d != 15 && decide (c.e.maxRefs < d)) 0x108

/-! ### Codes over PIP registers and ports alone -/

/-- Two enabled egress ports send into one flow: the same MAC port, VLAN, IP version, destination address and UDP ports, or the same
ring stream and destination (assumption 175). -/
def sameFlow (a b : PortEntry) (s : State) : Bool :=
  let w := fun (e : PortEntry) o => latched e.port o s
  let v6 := fbit (Reg.sptCtl a.port) SptCtl.ipv6 s
  let vid := fun e => if getF SptEncap.vlanEn (w e 0x10) = 1 then getF SptEncap.vid (w e 0x10) else 0
  a.kind == b.kind && (
    (a.kind == 0 && a.bind == b.bind && getF SptEncap.macPort (w a 0x10) == getF SptEncap.macPort (w b 0x10) && vid a == vid b
      && fbit (Reg.sptCtl b.port) SptCtl.ipv6 s == v6 && ipAddr a.port 0x18 v6 s == ipAddr b.port 0x18 v6 s
      && w a 0x14 == w b 0x14)
    || (a.kind == 2 && getF SptRingHr.ringStream (w a 0x58) == getF SptRingHr.ringStream (w b 0x58)
      && getF SptRingHr.dest (w a 0x58) == getF SptRingHr.dest (w b 0x58)))

/-- 0x44: an enabled egress port whose encapsulation or format does not fit, or that clashes with another enabled egress port. -/
def Chk.c44 (c : Chk) (s : State) : Option Nat :=
  badNone ((egressPorts c.p s).any fun n =>
    match portEntry n s with
    | none => false
    | some e =>
      let w := latched n 0x54 s
      !encapAllowed e (portEncap n s) s
        || (portEncap n s == 1 && !formatAgrees c.p (getF Spt2110.sampling w) (getF Spt2110.depth w) s)
        || otherPort n (fun o => o.egress && sameFlow e o s) s)

/-- 0x45: the chunk pool (R406), or an ingress port's pool, has current size 0. -/
def Chk.c45 (c : Chk) (s : State) : Option Nat :=
  (badPip (!persDecodes c.e.pers && poolSize (fget (Reg.pipOutPool c.p) PipOutPool.outPool s) s == 0) 0x48)
    <|> (badNone (s.comp.ports.any fun e => !e.egress && e.pipe == c.p && poolSize e.pool s == 0))

/-- 0x47 (R395). -/
def Chk.c47 (c : Chk) (s : State) : Option Nat :=
  badPip (budgetOf c.p s == 0 || !budgetFits c.p (budgetOf c.p s) s) 0x40

/-- 0x40: K of sub-picture mode outside 1 to 255, or below 2 for an encoder (R89; assumption 173). -/
def Chk.c40Latency (c : Chk) (s : State) : Option Nat :=
  let w := rd (Reg.pipLatency c.p) s
  badPip (getF PipLatency.mode w == 1 && decide (getF PipLatency.rows w < (if persDecodes c.e.pers then 1 else 2))) 0x0C

/-- 0x4B: PIP_LATENCY differs from the composition. -/
def Chk.c4B (c : Chk) (s : State) : Option Nat :=
  let w := rd (Reg.pipLatency c.p) s
  badPip ((getF PipLatency.mode w == 1) != c.e.flags.testBit 2 || getF PipLatency.rows w != c.e.subRows) 0x0C

/-! ### The checks -/

/-- The codes over the sets that come before 0x4D, 0x51 and the rest, in order. -/
def Chk.setTests (c : Chk) (im : Image) (s : State) : List (Nat × Option Nat) :=
  if persDecodes c.e.pers then
    [(0x41, c.d41), (0x42, c.c42 im s), (0x46, c.c46 im s), (0x48, c.d48), (0x4C, c.c4C s), (0x60, c.d60 s), (0x61, c.d61)]
  else
    [(0x49, c.c49 s), (0x40, c.c40), (0x41, c.c41), (0x42, c.c42 im s), (0x46, c.c46 im s), (0x48, c.c48 s), (0x4C, c.c4C s),
      (0x4D, c.c4D), (0x4E, c.c4E s), (0x4F, c.c4F s), (0x50, c.bad (!c.levelAdmits 0x50 [] s) 0x100), (0x52, c.c52),
      (0x53, c.c53 s), (0x54, c.c54), (0x58, c.c58), (0x59, c.c59), (0x5A, c.c5A s), (0x5B, c.c5B), (0x5C, c.c5C),
      (0x5D, c.c5D s), (0x5E, c.c5E s)]

/-- The codes over PIP registers. -/
def Chk.pipTests (c : Chk) (s : State) : List (Nat × Option Nat) :=
  [(0x49, c.c49Pip s), (0x40, c.c40Latency s), (0x40, badPip (fget (Reg.pipRecCtl c.p) PipRecCtl.recLevel s == 3) 0x20), (0x44, c.c44 s),
    (0x45, c.c45 s), (0x47, c.c47 s), (0x4B, c.c4B s), (0x51, c.c51 s)]

/-- The place of a code in the order of R232: 0x49 first, then ascending. -/
def codeOrder (k : Nat) : Nat := if k = 0x49 then 0 else k

/-- The first code of a list of tests, in the order of R232; (0, 0x3FF) where all pass. -/
def firstCode (l : List (Nat × Option Nat)) : Nat × Nat :=
  match (sortBy (fun x : Nat × Option Nat => codeOrder x.1) l).findSome? fun x => x.2.map fun o => (x.1, o) with
  | some r => r
  | none => (0, 0x3FF)

/-- The hand-over check (`sh` 1, R224) and the PIC_START check (`sh` 0, R229): the codes whose inputs lie in the sets. -/
def setCheck (p sh : Nat) (s : State) : Nat × Nat :=
  match pipeEntry p s with
  | none => (0x43, 0x3FF)
  | some e => firstCode (Chk.setTests ⟨p, sh, e, paramsOf p sh s⟩ (imageInForce s) s)

/-- The enable check (R231, R232, R165). -/
def enableCheck (p : Nat) (s : State) : Nat × Nat :=
  if curMode s ≠ 3 ∨ modeBusy s = true then (0x4A, 0x3FF)
  else
    match pipeEntry p s with
    | none => (0x43, 0x3FF)
    | some e =>
      if domValid e.domain s = false then (0x43, 0x3FF)
      else
        let c : Chk := ⟨p, 0, e, paramsOf p 0 s⟩
        firstCode (c.pipTests s ++ c.setTests (imageInForce s) s)

end Sys2Proof.Machine
end

