-- ==== Sys2Proof/Machine/Coding.lean ====
section
/-! DEFINITION. Coding one row unit of an encoded picture (chapter "Encoding"): the search for vectors, the choice among ways to code a CTU,
the elements a stream signals, and the impairments of its syntax. The interiors of the codecs are constants of Config. -/

namespace Sys2Proof.Machine

open Sys2Proof

/-! ### Planes (R193, R200) -/

/-- Sample (x, y) of a plane: a place outside it takes the nearest sample inside (R200). -/
def sampleAt (p : List (List Nat)) (x y : Int) : Nat :=
  let row := (p[min y.toNat (p.length - 1)]?).getD []
  (row[min x.toNat (row.length - 1)]?).getD 0

/-- The `w` by `h` block of a plane whose first sample is (x, y). -/
def blockAt (p : List (List Nat)) (x y : Int) (w h : Nat) : List (List Nat) :=
  (List.range h).map fun j : Nat => (List.range w).map fun i : Nat => sampleAt p (x + i) (y + j)

/-- The sum of f over the pairs of samples of two blocks. -/
def sumPairs (f : Nat → Nat → Nat) (a b : List (List Nat)) : Nat :=
  sumNat (List.zipWith (fun r q => sumNat (List.zipWith f r q)) a b)

/-- Sums of absolute and of squared differences. -/
def sad (a b : List (List Nat)) : Nat := sumPairs absDiff a b
def sse (a b : List (List Nat)) : Nat := sumPairs (fun x y => absDiff x y * absDiff x y) a b

/-- SSE over all components (R202). -/
def sseAll (a b : Planes) : Nat := sse a.y b.y + sse a.cb b.cb + sse a.cr b.cr

/-- Half the size of a plane; a missing last column or row repeats the one before it (R193). -/
def halvePlane : List (List Nat) → List (List Nat)
  | a :: b :: l => halveRow a b :: halvePlane l
  | [a] => [halveRow a a]
  | [] => []

/-- The first `n` rows of the coded source of a capture picture, in every component (R190, R191); `chroma` is PE_CHROMA. -/
def sourcePlanes (q : Params) (chroma : Nat) (c : CapPic) (n : Nat) : Planes :=
  let ch := if chroma = 0 then n / 2 else n
  ⟨q.depth, (List.range n).map (codedLuma q c), (List.range ch).map (codedChroma q chroma c 0),
    (List.range ch).map (codedChroma q chroma c 1)⟩

/-- A component block of `p` under the luma area at (x, y) of size `w` by `h`. -/
def areaOf (chroma : Nat) (p : Planes) (x y w h : Nat) : Planes :=
  let hy := if chroma = 0 then 2 else 1
  ⟨p.depth, blockAt p.y x y w h, blockAt p.cb (x / 2 : Nat) (y / hy : Nat) (w / 2) (h / hy),
    blockAt p.cr (x / 2 : Nat) (y / hy : Nat) (w / 2) (h / hy)⟩

/-! ### The job of a row unit (R209, R228) -/

def jobParams (j : UnitJob) : Params := ⟨j.pers, j.sets⟩

/-- The intra kinds of PR_KIND. -/
def kindIntra (k : Nat) : Bool := k != 2 && k != 3

/-- The QP of the CTU at (cx, row) coded normally (R273). -/
def jobQp (j : UnitJob) (cx : Nat) : Nat :=
  let q := jobParams j
  let on := q.fld 0x580 RoiMapCtl.mapEn == 1
  let d : Int := match if on then (j.map[j.row * q.ctuCols + cx]?).getD none else none with | some b => mapDelta b | none => 0
  ctuQp q j.rowQp cx j.row d

/-- The width and height of CTU (cx, row): less at the picture's edges. -/
def ctuSize (q : Params) (cx row : Nat) : Nat × Nat :=
  let n := 2 ^ q.ctuLog2
  (min n (q.width - cx * n), min n (q.height - row * n))

/-! ### Lagrangian cost (R202) -/

/-- The QP that lambda is taken at. -/
def lambdaQp (q : Params) (qp : Nat) : Nat := if q.codec = 4 then Config.av1Qp qp else qp

/-- lambda_sse and lambda_sad, in 32 bits with 8 fractional bits. -/
def lambdaSse (q : Params) (qp : Nat) : Nat :=
  min (2 ^ 32 - 1) (orIf0 256 (q.fld 0x118 EncQuant.lambdaScale) * Config.lambdaTable (lambdaQp q qp) / 256)
def lambdaSad (q : Params) (qp : Nat) : Nat := Nat.sqrt (256 * lambdaSse q qp)

/-- J = D + lambda x R, with 8 fractional bits. -/
def costJ (d lambda r : Nat) : Nat := 256 * d + lambda * r

/-! ### Motion search (R198 to R200) -/

/-- Grid points at multiples of `step` within ±rx and ±ry. -/
def gridPoints (rx ry step : Nat) : List (Int × Int) :=
  let line := fun r : Nat => (List.range (2 * (r / step) + 1)).map fun i : Nat => ((step * i : Nat) : Int) - ((step * (r / step) : Nat) : Int)
  (line ry).flatMap fun y => (line rx).map fun x => (x, y)

/-- The points within ±rx and ±ry of `v`. -/
def around (rx ry : Nat) (v : Int × Int) : List (Int × Int) := (gridPoints rx ry 1).map fun d => (v.1 + d.1, v.2 + d.2)

/-- The nearest vector within limits (R200). -/
def clampVec (lim : (Int × Int) × (Int × Int)) (v : Int × Int) : Int × Int :=
  (clampInt lim.1.1 lim.1.2 v.1, clampInt lim.2.1 lim.2.2 v.2)

/-- Limits in 1/16 samples, taken to a plane whose samples stand for `n` luma samples. -/
def limitsFor (n : Nat) (lim : (Int × Int) × (Int × Int)) : (Int × Int) × (Int × Int) :=
  let k : Int := 16 * n
  ((lim.1.1.tdiv k, lim.1.2.tdiv k), (lim.2.1.tdiv k, lim.2.2.tdiv k))

/-- The `n` vectors of the least cost among those offered, clamped first; of equal costs the one offered first. -/
def bestVectors (n : Nat) (lim : (Int × Int) × (Int × Int)) (cost : Int × Int → Nat) (l : List (Int × Int)) : List (Int × Int) :=
  ((sortBy (fun e : (Int × Int) × Nat => e.2) ((l.map (clampVec lim)).eraseDups.map fun v => (v, cost v))).take n).map Prod.fst

/-- SAD of the 16 x 16 block of unit (ux, uy) against the plane before, displaced by `v`. -/
def planeCost (cur prev : List (List Nat)) (ux uy : Nat) (v : Int × Int) : Nat :=
  let b := blockAt cur (16 * ux : Nat) (16 * uy : Nat) 16 16
  sad b (blockAt prev ((16 * ux : Nat) + v.1) ((16 * uy : Nat) + v.2) 16 16)

/-- The limits of a job's vectors, in 1/16 luma samples. -/
def jobLimits (j : UnitJob) (x y : Nat) : (Int × Int) × (Int × Int) :=
  Config.vectorLimits (jobParams j).codec ((jobParams j).fld 0x100 EncCodec.level) x y

/-- The L2 stage on unit (ux, uy): 8 candidates; `near` are the best vectors of the units to the left and above. -/
def l2Unit (j : UnitJob) (cur prev : List (List Nat)) (ux uy : Nat) (near : List (Int × Int)) : List (Int × Int) :=
  let q := jobParams j
  let w := q.at 0x110
  let lim := limitsFor 4 (jobLimits j (64 * ux) (64 * uy))
  let cost := planeCost cur prev ux uy
  let coarse := bestVectors 16 lim cost (gridPoints (getF EncSearch.l2Rx w) (getF EncSearch.l2Ry w) 4)
  bestVectors 8 lim cost (coarse.flatMap (around 3 3) ++ (0, 0) :: near)

/-- The L2 stage of a picture: the candidates of each unit, in raster order over `cols` columns. -/
def l2Search (j : UnitJob) (cur prev : List (List Nat)) (cols rows : Nat) : List (List (Int × Int)) :=
  (List.range (cols * rows)).foldl (fun done k =>
    let ux := k % cols
    let best := fun i => ((done[i]?).getD []).take 1
    let near := (if ux = 0 then [] else best (k - 1)) ++ (if k < cols then [] else best (k - cols))
    done ++ [l2Unit j cur prev ux (k / cols) near]) []

/-- The L1 stage on unit (ux, uy): 8 candidates around those of its L2 unit, doubled. -/
def l1Unit (j : UnitJob) (cur prev : List (List Nat)) (ux uy : Nat) (parent : List (Int × Int)) : List (Int × Int) :=
  bestVectors 8 (limitsFor 2 (jobLimits j (32 * ux) (32 * uy))) (planeCost cur prev ux uy)
    (parent.flatMap fun v => around 4 4 (2 * v.1, 2 * v.2))

/-- The L1 candidates at luma place (x, y), from the planes of the source and of the source before it (R198). -/
def l1Candidates (j : UnitJob) (x y : Nat) : List (Int × Int) :=
  let c1 := halvePlane j.source.y
  let p1 := halvePlane j.previous.y
  let c2 := halvePlane c1
  let p2 := halvePlane p1
  let cols := ceilDiv (ceilDiv (jobParams j).width 4) 16
  let l2 := l2Search j c2 p2 cols (y / 64 + 1)
  l1Unit j c1 p1 (x / 32) (y / 32) ((l2[y / 64 * cols + x / 64]?).getD [])

def vec16 (v : Int × Int) : MotionVec := ⟨16 * v.1, 16 * v.2⟩

/-- SATD + lambda_sad x vector bits of a vector for block `b` at luma place (x, y), from reference `k`. -/
def vectorCost (j : UnitJob) (qp k : Nat) (ref : Planes) (x y : Nat) (b : CodeBlock) (v : MotionVec) : Nat :=
  let q := jobParams j
  costJ (Config.satd (blockAt j.source.y x y b.w b.h) (Config.predict q.codec ref v x y b.w b.h)) (lambdaSad q qp)
    (Config.vectorBits j k v)

/-- A vector in 1/16 samples kept within the limits (R200). -/
def clampVec16 (j : UnitJob) (x y : Nat) (v : MotionVec) : MotionVec :=
  let r := clampVec (jobLimits j x y) (v.x, v.y)
  ⟨r.1, r.2⟩

/-- The cheapest of some vectors; of equal costs the first. -/
def cheapest (cost : MotionVec → Nat) : MotionVec → List MotionVec → MotionVec
  | v, [] => v
  | v, u :: l => cheapest cost (if cost u < cost v then u else v) l

/-- The eight places around `v` at distance `d`. -/
def eightAround (d : Int) (v : MotionVec) : List MotionVec :=
  [(-1, -1), (0, -1), (1, -1), (-1, 0), (1, 0), (-1, 1), (0, 1), (1, 1)].map fun e : Int × Int => ⟨v.x + d * e.1, v.y + d * e.2⟩

/-- The steps of the fractional stage in 1/16 samples: half, quarter, for AV1 with HPMV eighth, for affine control points 1/16;
ENC_SEARCH.FRAC stops it at half-pel or at full-pel. -/
def fracSteps (q : Params) (affine : Bool) : List Int :=
  match q.fld 0x110 EncSearch.frac with
  | 1 => [8]
  | 2 => []
  | _ => [8, 4] ++ (if q.codec = 4 ∧ (q.fld 0x114 EncTools.tools).testBit 11 = true then [2] else []) ++ (if affine then [1] else [])

/-- The vector that the search finds for block `b` at luma place (x, y) in reference `k` of the job: the full-pel stage around the L1
candidates, scaled by the reference's distance, and the codec's predictors, then the fractional stage (R198 to R200). -/
def searchVector (j : UnitJob) (done : List Choice) (qp k x y : Nat) (affine : Bool) (b : CodeBlock) : Option MotionVec :=
  match j.refs[k]? with
  | none => none
  | some (dist, ref) =>
    let cost := vectorCost j qp k ref x y b
    let full := (l1Candidates j x y).flatMap fun v => around 2 2 (2 * dist * v.1, 2 * dist * v.2)
    let offers := (full.map vec16 ++ Config.predictors j done k b).map (clampVec16 j x y)
    match offers with
    | [] => none
    | v :: l =>
      some ((fracSteps (jobParams j) affine).foldl (fun u d => cheapest cost u ((eightAround d u).map (clampVec16 j x y)))
        (cheapest cost v l))

/-! ### What the encoder may use (R185, R186, R201, R220, R221) -/

/-- The optional tools in the order of ENC_TOOLS. -/
def optionalTools : List CodeTool :=
  [.deblocking, .filter1, .filter2, .part, .temporalMv, .transformSkip, .affine4, .mmvd, .cclm, .lmcs, .dualTree, .highPrecMv, .biPred,
    .signHiding, .dependentQuant, .rdoq]

/-- The tools that the encoder never uses, by codec (R186). -/
def barredTools (codec : Nat) : List CodeTool :=
  match codec with
  | 1 => [.mbaff, .weightedPred, .transquantBypass, .scalingLists, .laterReference]
  | 2 => [.pcm, .weightedPred, .transquantBypass, .scalingLists, .rangeExtension, .laterReference]
  | 3 => [.palette, .intraBlockCopy, .refResampling, .affine6, .gpm, .ciip, .bdof, .dmvr, .sbTmvp, .bcw, .mip, .isp, .multiRefLine,
      .lfnst, .explicitMts, .subpictures, .weightedPred, .gdr, .laterReference]
  | _ => [.intraBlockCopy, .palette, .superres, .sizeChange, .filmGrain, .warpedMotion, .obmc, .interIntra, .wedge, .switchFrame,
      .laterReference]

/-- ENC_TOOLS enables a tool: bit `n` for the n-th. -/
def toolOn (q : Params) (t : CodeTool) : Bool :=
  match optionalTools.idxOf? t with
  | some n => (q.fld 0x114 EncTools.tools).testBit n && (toolMask q.codec).testBit n
  | none => false

/-- A choice uses only tools that are enabled: none of R186. -/
def toolsAllowed (q : Params) (c : Choice) : Bool := c.tools.all (toolOn q)

/-- The number of intra modes that a codec's decision ranges over. -/
def intraModes (codec : Nat) : Nat := match codec with | 1 => 9 | 2 => 35 | 3 => 67 | _ => 61

/-- The sides of transform blocks (R201). -/
def transformSides (codec : Nat) : List Nat := match codec with | 1 => [4, 8] | 2 => [4, 8, 16, 32] | _ => [4, 8, 16, 32, 64]

/-- The shapes of blocks (R201). -/
def shapeAllowed (q : Params) (b : CodeBlock) : Bool :=
  let inter := match b.pred with | .inter _ _ => true | .intra _ => false
  let sides := fun lo hi n : Nat => decide (lo ≤ n ∧ n ≤ hi)
  let square := fun lo hi => b.w == b.h && sides lo hi b.w
  let top := 2 ^ q.ctuLog2
  match q.codec with
  | 1 =>
    if inter then [(16, 16), (16, 8), (8, 16), (8, 8)].contains (b.w, b.h)
    else square 4 16 && (b.w != 8 || toolOn q .part)
  | 2 => if inter then sides 4 top b.w && sides 4 top b.h && (8 < b.w + b.h) else square 4 top
  | 3 => if toolOn q .part then sides 4 top b.w && sides 4 top b.h else square 8 top
  | _ => if inter then sides 8 top b.w && sides 8 top b.h else sides 4 top b.w && sides 4 top b.h

/-- A block lies in a CTU of the size. -/
def blockInside (w h : Nat) (b : CodeBlock) : Bool := decide (b.x + b.w ≤ w) && decide (b.y + b.h ≤ h)

/-- A block's intra mode exists; its references are those of the picture, one, or two where BIPRED is on; and its vectors are those that the
search finds, or predictors of the codec. -/
def predAllowed (j : UnitJob) (done : List Choice) (qp cx : Nat) (affine : Bool) (b : CodeBlock) : Bool :=
  let q := jobParams j
  let n := 2 ^ q.ctuLog2
  match b.pred with
  | .intra m => decide (m < intraModes q.codec)
  | .inter l _ =>
    !kindIntra j.kind && !l.isEmpty && decide (l.length ≤ if toolOn q .biPred then 2 else 1) && l.all fun e =>
      decide (e.1 < j.refs.length) && ((Config.predictors j done e.1 b).contains e.2
        || searchVector j done qp e.1 (cx * n + b.x) (j.row * n + b.y) affine b == some e.2)

/-- A way to code CTU `cx` that the encoder may take. -/
def choiceAllowed (j : UnitJob) (done : List Choice) (cx : Nat) (c : Choice) : Bool :=
  let q := jobParams j
  let size := ctuSize q cx j.row
  toolsAllowed q c && !c.blocks.isEmpty && c.blocks.all fun b =>
    shapeAllowed q b && blockInside size.1 size.2 b && b.transforms.all (fun t => (transformSides q.codec).contains t)
      && predAllowed j done (jobQp j cx) cx (c.tools.contains .affine4) b

/-! ### Floor coding (R262, R267) -/

/-- The side of the blocks of a CTU in floor mode. -/
def floorSide (q : Params) (intra : Bool) : Nat :=
  match q.codec with
  | 1 => 16
  | 2 => if intra then min 32 (2 ^ q.ctuLog2) else 2 ^ q.ctuLog2
  | 3 => if intra then 64 else 2 ^ q.ctuLog2
  | _ => 64

/-- The DC mode of a codec. -/
def dcMode (codec : Nat) : Nat := match codec with | 1 => 2 | 2 => 1 | 3 => 1 | _ => 0

/-- How a CTU is coded in floor mode: DC blocks, or skipped blocks by the first predictor in the first reference. -/
def floorChoice (j : UnitJob) (done : List Choice) (cx : Nat) : Choice :=
  let q := jobParams j
  let intra := kindIntra j.kind
  let n := floorSide q intra
  let size := ctuSize q cx j.row
  let places := (List.range (ceilDiv size.2 n)).flatMap fun y => (List.range (ceilDiv size.1 n)).map fun x => (n * x, n * y)
  let block := fun p : Nat × Nat =>
    let b : CodeBlock := ⟨p.1, p.2, n, n, q.ctuLog2 - Nat.log2 n, .intra (dcMode q.codec), []⟩
    if intra then b else { b with pred := .inter [(0, (Config.predictors j done 0 b).headD ⟨0, 0⟩)] true }
  ⟨places.map block, []⟩

/-- The bits of a CTU in floor mode: never more than its bound (R262). -/
def floorBits (j : UnitJob) (done : List Choice) (cx : Nat) : Nat :=
  min (Config.choiceBits j done (floorChoice j done cx)) (floorBound (jobParams j) (kindIntra j.kind))

/-! ### The mode decision (R202) -/

/-- The cost of a way to code a CTU: SSE of its decoded samples against the source, and its bits. -/
def choiceCost (j : UnitJob) (done : List Choice) (cx : Nat) (c : Choice) : Nat :=
  let q := jobParams j
  let n := 2 ^ q.ctuLog2
  let size := ctuSize q cx j.row
  costJ (sseAll (Config.decodeCtu j done c) (areaOf j.chroma j.source (cx * n) (j.row * n) size.1 size.2)) (lambdaSse q (jobQp j cx))
    (Config.choiceBits j done c)

/-- The allowed choice of the least cost; of equal costs the first. -/
def cheapestChoice (cost : Choice → Nat) : List Choice → Option Choice
  | [] => none
  | c :: l => some (l.foldl (fun b d => if cost d < cost b then d else b) c)

/-- How CTU `n` of the unit, in column `cx`, is coded normally: the cheapest candidate, or the floor coding where none is allowed. -/
def decideCtu (j : UnitJob) (done : List Choice) (n cx : Nat) : Choice :=
  (cheapestChoice (choiceCost j done cx) ((Config.ctuCandidates j done n).filter (choiceAllowed j done cx))).getD (floorChoice j done cx)

/-- One CTU as coded: its column, bits, QP, ROI delta, record flags, whether it went in floor mode, and how. -/
structure CtuOut where
  x : Nat
  bits : Nat
  qp : Nat
  roi : Int
  flags : Nat
  floor : Bool
  how : Choice
  deriving DecidableEq, Repr

/-- CR_MODE's type: 0 intra, 1 inter, 2 skip, 3 floor (R251). -/
def CtuOut.type (u : CtuOut) : Nat :=
  let inter := fun b : CodeBlock => match b.pred with | .inter _ _ => true | .intra _ => false
  let skip := fun b : CodeBlock => match b.pred with | .inter _ s => s | .intra _ => false
  if u.floor then 3 else if u.how.blocks.all skip then 2 else if u.how.blocks.any inter then 1 else 0

/-- The deepest split level used, as three bits hold it. -/
def CtuOut.depth (u : CtuOut) : Nat := min 7 (u.how.blocks.foldl (fun n b => max n b.depth) 0)

/-- The vector of the first prediction unit in 1/4 samples; 0 for intra. -/
def CtuOut.vector (u : CtuOut) : Int × Int :=
  match u.how.blocks with
  | ⟨_, _, _, _, _, .inter (e :: _) _, _⟩ :: _ => (e.2.x / 4, e.2.y / 4)
  | _ => (0, 0)

/-- Code the CTUs of a unit from column `cx` on (R265): `c` bits and the CTUs `done` so far, `m` left. Once what is left at its floor bound
reaches the cap, the rest goes in floor mode. -/
def codeCtus (j : UnitJob) : Nat → Nat → Nat → Bool → List Choice → List CtuOut
  | 0, _, _, _, _ => []
  | m + 1, cx, c, floored, done =>
    let q := jobParams j
    let intra := kindIntra j.kind
    let fl := floored || j.floor || (j.reserve && decide (j.cap ≤ c + (m + 1 : Nat) * (floorBound q intra : Nat)))
    let rect := (rectAt q cx j.row).isSome
    let on := q.fld 0x580 RoiMapCtl.mapEn == 1
    let entry := if on then (j.map[j.row * q.ctuCols + cx]?).getD none else none
    let out : CtuOut :=
      if fl then ⟨cx, floorBits j done cx, if intra then q.qpCmax else j.lastQp, 0, if rect then 1 else 0, true, floorChoice j done cx⟩
      else
        let how := decideCtu j done done.length cx
        let v := jobQp j cx
        ⟨cx, Config.choiceBits j done how, v, (v : Int) - j.rowQp, (if rect then 1 else 0) + (if entry.isSome then 2 else 0), false, how⟩
    out :: codeCtus j m (cx + 1) (c + out.bits) fl (done ++ [out.how])

/-- The coded data of a unit: its first `n` bytes. -/
def unitData (j : UnitJob) (l : List CtuOut) (n : Nat) : List Byte := (List.range n).map (Config.unitByte j (l.map (·.how)))

end Sys2Proof.Machine
end

