-- ==== Sys2Proof/Machine/Bitstream.lean ====
section
/-! DEFINITION. The stream of an encoded picture (chapter "Encoding"): its entropy partitions and slices, the elements that its parameter sets,
SEI messages and headers signal (R186 to R190, R204, R214, R258, R268), filler data, and the impairments of R240 to R242. -/

namespace Sys2Proof.Machine

open Sys2Proof

/-! ### What a stream signals -/

/-- The number that a profile is signalled by. -/
def profileCode (pers prof : Nat) : Int :=
  match pers, prof with
  | 1, 0 => 100 | 1, 1 => 110 | 1, _ => 122
  | 2, 0 => 1 | 2, 1 => 2 | 2, _ => 4
  | 3, 0 => 1 | 3, _ => 33
  | _, n => n

/-- Each codec's own coding of LEVEL (R188). -/
def levelCode (codec level : Nat) : Int :=
  match codec with
  | 2 => 3 * level
  | 3 => 16 * (level / 10) + 3 * (level % 10)
  | _ => level

def flag (b : Bool) : Int := if b then 1 else 0

/-- The tools that a codec has a bit of ENC_TOOLS for. -/
def codecTools (codec : Nat) : List CodeTool := (optionalTools.zipIdx.filter fun e => (toolMask codec).testBit e.2).map Prod.fst

/-- Each optional tool as ENC_TOOLS has it, and each tool of R186 as off. -/
def toolElems (q : Params) : List (Elem × Int) :=
  (codecTools q.codec).map (fun t => (Elem.toolEnable t, flag (toolOn q t))) ++ (barredTools q.codec).map fun t => (Elem.toolEnable t, 0)

/-- The tile grid (R204): uniform in HEVC, its boundaries in VVC and AV1. -/
def gridElems (q : Params) : List (Elem × Int) :=
  match q.codec with
  | 1 => []
  | 2 => [(.tileCols, q.tileCols), (.tileRows, q.tileRows), (.uniformSpacing, 1)]
  | _ => [(.tileCols, (q.tileCols : Int)), (.tileRows, (q.tileRows : Int))]
    ++ (List.range (q.tileCols + 1)).map (fun i => (Elem.columnBoundary i, (tileBound q.ctuCols q.tileCols i : Int)))
    ++ (List.range (q.tileRows + 1)).map fun i => (Elem.rowBoundary i, (tileBound q.ctuRows q.tileRows i : Int))

/-- Samples that the whole CTUs have beyond a size (R187). -/
def cropElems (q : Params) : List (Elem × Int) :=
  let n := 2 ^ q.ctuLog2
  let r := q.ctuCols * n - q.width
  let b := q.ctuRows * n - q.height
  if r = 0 ∧ b = 0 then [] else [(.cropRight, (r : Int)), (.cropBottom, (b : Int))]

/-- The signalled bit rate: less in a stress picture of RATE_SKEW (R268). -/
def signalledRate (q : Params) (stress : Bool) : Nat :=
  if stress ∧ stressKind q = 2 then q.fillRate * (100 - q.fld 0x318 RcStress.amount) / 100 else q.fillRate

/-- A delay of `bits` at the fill rate, in 90 kHz ticks (R258). -/
def delayTicks (q : Params) (bits : Int) : Int := bits * 90000 / (max 1 q.fillRate : Nat)

/-- The buffer model as parameter sets signal it (R258). -/
def modelElems (q : Params) (f : Int) (stress : Bool) : List (Elem × Int) :=
  if q.hrdSignal = false then []
  else if q.codec = 4 then [(.decoderBufferDelay, delayTicks q f), (.encoderBufferDelay, delayTicks q (q.cpbBits - f)),
    (.bitRate, (signalledRate q stress : Int)), (.cpbSize, (q.cpbBits : Int))]
  else [(.bitRate, (signalledRate q stress : Int)), (.cpbSize, (q.cpbBits : Int)), (.cbrFlag, flag (q.rcMode != 2 && q.rcMode != 3))]

/-- What the sets of parameters signal. `inter` is an interlaced domain. -/
def setElems (q : Params) (chroma : Nat) (inter : Bool) (f : Int) (stress : Bool) : List (Elem × Int) :=
  let w := q.at 0x100
  [(.profile, profileCode q.pers (getF EncCodec.profile w)), (.level, levelCode q.codec (getF EncCodec.level w)),
      (.tier, (getF EncCodec.highTier w : Int)), (.bitDepth, (q.depth : Int)), (.chromaFormat, (chroma : Int) + 1),
      (.width, (q.width : Int)), (.height, (q.height : Int))]
    ++ cropElems q
    ++ (if chroma = 0 then [(.chromaLoc, if q.codec = 4 then 1 else 0)] else [])
    ++ gridElems q ++ [(.wpp, flag q.wpp)]
    ++ (if q.codec = 1 then [(.entropyCoding, 1 - (getF EncCodec.cavlc w : Int)), (.frameMbsOnly, flag (!inter)), (.direct8x8, 1)] else [])
    ++ toolElems q ++ modelElems q f stress
    ++ [(.picInitQp, 0), (.numRefIdxDefault, 0), (.log2MaxFrameNum, 4), (.chromaQpOffset, 0), (.cbQpOffset, 0), (.log2MaxPoc, 4),
      (.log2CtuSize, (q.ctuLog2 : Int) - 5), (.maxFrameWidth, (q.width : Int) - 1)]

/-- What the SEI messages of a picture signal: the picture timing and, at an IRAP, the initial removal delay (R258), and of a field coded
in HEVC or VVC which field it is (R214). AV1 has none. -/
def seiElems (q : Params) (y : Pic) (irap : Nat) (fields : Bool) (f : Int) : List (Elem × Int) :=
  if q.codec = 4 then []
  else
    (if q.hrdSignal then [(.removalDelay, (y.idx : Int) - irap)] ++ (if y.idx = irap then [(.initialRemovalDelay, delayTicks q f)] else [])
      else [])
    ++ (if fields ∧ q.codec ≠ 1 then [(.fieldIndication, if y.field2 then 2 else 1)] else [])

/-- What the picture's own headers signal; AVC codes fields as field pictures (R214). -/
def pictureElems (q : Params) (y : Pic) (fields : Bool) : List (Elem × Int) :=
  [(.pictureType, (y.kind : Int)), (.pictureOrder, (y.picId : Int)), (.refCount, (y.refs.length : Int))]
    ++ (if q.codec = 1 then [(.fieldPic, flag fields), (.bottomField, flag (fields && y.field2))] else [])

/-! ### Impairments of elements (R240 to R242) -/

/-- The greatest tile_cols_log2 that the width of an AV1 frame allows. -/
def maxTileColsLog2 (q : Params) : Nat := Nat.log2 (2 * min 64 q.ctuCols - 1)

/-- The list of VALUE_OUT_OF_RANGE (R241). -/
def valueEntry (q : Params) (sel : Nat) : List (Elem × Int) :=
  match q.codec, sel with
  | 1, 0 => [(.picInitQp, 26)]
  | 1, 1 => [(.numRefIdxDefault, 32)]
  | 1, 2 => [(.log2MaxFrameNum, 13)]
  | 1, _ => [(.chromaQpOffset, 13)]
  | 2, 0 => [(.sliceQp, 52)]
  | 2, 1 => [(.log2MaxPoc, 13)]
  | 2, 2 => [(.numRefIdxDefault, 15)]
  | 2, _ => [(.cbQpOffset, 13)]
  | 3, 0 => [(.sliceQp, 64)]
  | 3, 1 => [(.log2MaxPoc, 13)]
  | 3, 2 => [(.log2CtuSize, 3)]
  | 3, _ => [(.cbQpOffset, 13)]
  | _, 0 => [(.tileColsLog2, (maxTileColsLog2 q : Int) + 1)]
  | _, 1 => [(.obuType, 9)]
  | _, 2 => [(.level, 24)]
  | _, _ => [(.frameWidth, (q.width : Int))]

/-- The list of ILLEGAL_COMBO (R242). -/
def comboEntry (q : Params) (sel : Nat) : List (Elem × Int) :=
  if 3 ≤ sel then [(.level, Config.levelBelow q.codec (q.fld 0x100 EncCodec.level))]
  else
    match q.codec, sel with
    | 1, 0 => [(.profile, 66), (.entropyCoding, 1)]
    | 1, 1 => [(.frameMbsOnly, 1), (.fieldPic, 1)]
    | 1, _ => [(.direct8x8, 0), (.frameMbsOnly, 0)]
    | 2, 0 => [(.profile, 1), (.bitDepth, 10)]
    | 2, 1 => [(.tileCols, 2), (.uniformSpacing, 0), (.tileColumnWidth, (q.ctuCols : Int) + 1)]
    | 2, _ => [(.toolEnable .temporalMv, 0), (.sliceTemporalMv, 1)]
    | 3, 0 => [(.profile, 1), (.chromaFormat, 3)]
    | 3, 1 => [(.toolEnable .dependentQuant, 1), (.toolEnable .signHiding, 1), (.bothQuantTools, 1)]
    | 3, _ => [(.toolEnable .filter2, 0), (.phAlf, 1)]
    | _, 0 => [(.reducedStillPicture, 1), (.stillPicture, 0)]
    | _, 1 => [(.seqProfile, 0), (.monoChrome, 0), (.dataChroma, 2)]
    | _, _ => [(.orderHint, 0), (.useRefFrameMvs, 1)]

/-- What a fired slot writes over the elements of the picture: the value or combination list, a changed removal delay, a changed parameter
set, a skewed obu_size (R240). The first value for an element stands. -/
def slotElems (q : Params) (e : List (Elem × Int)) (t : Nat) : List (Elem × Int) :=
  let w := slotCtl q t
  let sel := getF ImpSlotCtl.sel w
  let arg := signedOf 16 (getF ImpSlotArg.arg (q.at (0x144 + 8 * t)))
  let now := fun k : Elem => ((e.find? fun x => x.1 == k).map Prod.snd).getD 0
  match getF ImpSlotCtl.code w with
  | 2 => [(.removalDelay, now .removalDelay + arg)]
  | 3 => comboEntry q sel
  | 6 => valueEntry q sel
  | 8 => [(.obuSizeSkew, arg)]
  | 9 => if q.codec = 4 then [(.maxFrameWidth, now .maxFrameWidth - 8)] else [(.picInitQp, now .picInitQp + 1)]
  | _ => []

/-- The kind of unit that carries an element. -/
def elemHome : Elem → UnitKind
  | .sliceQp | .sliceTemporalMv | .bothQuantTools | .dataChroma | .useRefFrameMvs | .fieldPic | .bottomField | .pictureType | .pictureOrder
  | .refCount | .obuSizeSkew => .slice
  | .phAlf | .tileColsLog2 | .obuType | .frameWidth => .header
  | .removalDelay | .initialRemovalDelay | .fieldIndication => .sei
  | _ => .paramSet

/-- Give an element a value, whether or not it was signalled. -/
def putElem (x : Elem × Int) (l : List (Elem × Int)) : List (Elem × Int) :=
  if l.any fun y => y.1 == x.1 then l.map fun y => if y.1 = x.1 then x else y else l ++ [x]

/-- Write elements into the units that carry them: the picture header where a codec has one, else the slices. -/
def putUnit (codec : Nat) (xs : List (Elem × Int)) (u : StreamUnit) : StreamUnit :=
  let home := fun e => match elemHome e with | .header => if 3 ≤ codec then UnitKind.header else .slice | k => k
  { u with elems := (xs.filter fun x => home x.1 == u.kind).foldl (fun l x => putElem x l) u.elems }

/-- What the fired slots write, in slot order; of two values for an element the first stands. -/
def impairElems (q : Params) (e : List (Elem × Int)) (y : Pic) : List (Elem × Int) :=
  (y.impDraws.flatMap fun d => slotElems q e d.1).foldl (fun l x => if l.any fun z => z.1 == x.1 then l else l ++ [x]) []

/-! ### The units of a picture -/

/-- What a picture's headers rest on beside its sets: chroma, an interlaced domain, the last IRAP, and the buffer level. -/
structure HeadCtx where
  chroma : Nat
  inter : Bool
  irap : Nat
  level : Int
  deriving DecidableEq, Repr

/-- A picture codes one field. -/
def HeadCtx.fields (c : HeadCtx) (q : Params) : Bool := c.inter && q.fieldMode == 0

/-- The units before the coded data of a picture, and the head of each of its slices last: parameter sets at an IRAP and where an impairment or
a skewed rate has them sent again; SEI messages; the picture header of VVC and AV1. `impaired` is the stream as emitted. -/
def headUnits (q : Params) (c : HeadCtx) (y : Pic) (impaired : Bool) : List StreamUnit :=
  let sets := setElems q c.chroma c.inter c.level y.stress
  let sei := seiElems q y c.irap (c.fields q) c.level
  let own := pictureElems q y (c.fields q)
  let xs := if impaired then impairElems q (sets ++ sei ++ own) y else []
  let skew := y.stress && stressKind q == 2
  let resend := y.idx == c.irap || skew || xs.any fun x => elemHome x.1 == .paramSet
  let unit := fun (k : UnitKind) (e : List (Elem × Int)) => (⟨k, e, []⟩ : StreamUnit)
  ((if resend then [unit .paramSet sets] else []) ++ (if sei.isEmpty then [] else [unit .sei sei])
    ++ (if 3 ≤ q.codec then [unit .header own] else []) ++ [unit .slice own]).map (putUnit q.codec xs)

/-- The units that stand before the first slice, and the head of a slice. -/
def leadUnits (l : List StreamUnit) : List StreamUnit := l.filter fun u => u.kind != .slice
def sliceHead (l : List StreamUnit) : StreamUnit := (l.find? fun u => u.kind == .slice).getD ⟨.slice, [], []⟩

/-- A unit of the stream as its bytes stand there: NAL units after a start code (assumption 168). -/
def inStream (codec : Nat) (l : List Byte) : List Byte := startCode codec ++ l

/-- The units that start in a row unit, up to its coded data: the lead at the picture's first unit, the head at a slice's. -/
def unitHeads (q : Params) (l : List StreamUnit) (row col : Nat) : List (List Byte) :=
  ((if row = 0 ∧ col = 0 then leadUnits l else []) ++ (if sliceStarts q row col then [sliceHead l] else [])).map fun u =>
    inStream q.codec (Config.streamBytes q.codec u)

/-- The bytes that stand before the coded data of a unit. -/
def unitHead (q : Params) (l : List StreamUnit) (row col : Nat) : List Byte := (unitHeads q l row col).flatten

/-- Where each of some runs of bytes starts, one after the other from place `o`. -/
def startsOf : Nat → List (List Byte) → List Nat
  | _, [] => []
  | o, l :: ls => o :: startsOf (o + l.length) ls

/-- The row units at which a slice starts. -/
def sliceUnits (q : Params) (x : Pic) : List Nat := (streamOrder q x).filter fun k => sliceStarts q (k / x.tiles) (k % x.tiles)

/-- The header bits h of a picture (R262, R264): all its headers, and what each partition may need to end on a byte. -/
def headBits (q : Params) (l : List StreamUnit) (x : Pic) : Nat :=
  let size := fun u => (inStream q.codec (Config.streamBytes q.codec u)).length
  8 * (sumNat ((leadUnits l).map size) + (sliceUnits q x).length * size (sliceHead l) + encParts q)

/-! ### Filler data (R240, R256) -/

/-- `n` in base 128 on four bytes, least first. -/
def leb128 (n : Nat) : List Byte := (List.range 4).map fun i => BitVec.ofNat 8 (n / 128 ^ i % 128 + (if i < 3 then 128 else 0))

/-- Bytes of filler around its padding, as it stands in the stream. -/
def fillerFrame (codec : Nat) : Nat := match codec with | 2 | 3 => 7 | _ => 6

/-- At least `n` bytes of filler as they stand in the stream: a filler NAL unit (AVC type 12, HEVC type 38, VVC type 25), or a padding OBU (type 15).
Where `n` is less than the smallest one, the smallest one (assumption 169); of no bytes, nothing. -/
def fillerData (codec n : Nat) : List Byte :=
  let pad := n - fillerFrame codec
  let nal := fun h => startCode codec ++ h ++ List.replicate pad 0xFF ++ [0x80]
  if n = 0 then []
  else
    match codec with
    | 4 => 0x7A :: leb128 (pad + 1) ++ List.replicate pad 0 ++ [0x80]
    | 1 => nal [0x0C]
    | 2 => nal [0x4C, 0x01]
    | _ => nal [0x00, 0xC9]

/-! ### Impairments of coded units (R240) -/

/-- Codes that change a picture's coded units once they are all there: UNIT_TRUNCATE and EMULATION_BREAK. -/
def editsUnits (q : Params) (y : Pic) : Bool :=
  y.impDraws.any fun d => getF ImpSlotCtl.code (slotCtl q d.1) == 4 || getF ImpSlotCtl.code (slotCtl q d.1) == 7

/-- Apply `f` to the `n`-th element that satisfies `p`. -/
def onNth {α : Type} (p : α → Bool) (f : α → α) : Nat → List α → List α
  | _, [] => []
  | n, a :: l =>
    if p a then (match n with | 0 => f a :: l | m + 1 => a :: onNth p f m l) else a :: onNth p f n l

/-- The kind of unit that UNIT_TRUNCATE names. -/
def truncates (sel : Nat) (k : UnitKind) : Bool :=
  match sel with | 0 => k == .slice | 1 => k == .paramSet | 2 => k == .sei | _ => true

/-- UNIT_TRUNCATE of selector `sel` with its draws. -/
def truncateUnit (sel : Nat) (d1 d2 : Word) (l : List (UnitKind × List Byte)) : List (UnitKind × List Byte) :=
  let p := fun u : UnitKind × List Byte => truncates sel u.1
  let n := (l.filter p).length
  onNth p (fun u => (u.1, u.2.take (truncateKeep u.2.length d2))) (if sel = 3 then n - 1 else truncatePick n d1) l

/-- The emulation prevention bytes of a unit: how many there are, and the unit without the n-th. -/
def emulations : List Byte → Nat
  | 0 :: 0 :: 3 :: l => emulations l + 1
  | _ :: l => emulations l
  | [] => 0

def dropEmulation : Nat → List Byte → List Byte
  | 0, 0 :: 0 :: 3 :: l => 0 :: 0 :: l
  | n + 1, 0 :: 0 :: 3 :: l => 0 :: 0 :: 3 :: dropEmulation n l
  | n, b :: l => b :: dropEmulation n l
  | _, [] => []

/-- Remove the n-th emulation prevention byte of a picture. -/
def breakEmulation : Nat → List (UnitKind × List Byte) → List (UnitKind × List Byte)
  | _, [] => []
  | n, u :: l => if n < emulations u.2 then (u.1, dropEmulation n u.2) :: l else u :: breakEmulation (n - emulations u.2) l

/-- What a fired slot does to a picture's coded units. -/
def editSlot (q : Params) (l : List (UnitKind × List Byte)) (d : Nat × List Word) : List (UnitKind × List Byte) :=
  let w := slotCtl q d.1
  let draw := fun i => (d.2[i]?).getD 0
  match getF ImpSlotCtl.code w with
  | 4 => truncateUnit (getF ImpSlotCtl.sel w) (draw 0) (draw 1) l
  | 7 => breakEmulation (truncatePick (sumNat (l.map fun u => emulations u.2)) (draw 0)) l
  | _ => l

/-- The bytes of units `ks` of a picture, as one unit of its stream for each slice: a unit's bytes join those before it unless a slice
starts there. -/
def joinSlices (q : Params) (x : Pic) (bytes : Nat → List Byte) : List Nat → List (UnitKind × List Byte)
  | [] => []
  | k :: ks =>
    match joinSlices q x bytes ks, (ks.head?).map fun j => sliceStarts q (j / x.tiles) (j % x.tiles) with
    | u :: l, some false => (.slice, bytes k ++ u.2) :: l
    | l, _ => (.slice, bytes k) :: l

/-- A picture's units once its fired slots have acted on all of them, as they stand in the stream. `bytes` gives the coded data of a row unit, with
the head of its slice. -/
def editedPicture (q : Params) (lead : List StreamUnit) (y : Pic) (bytes : Nat → List Byte) : List (List Byte) :=
  let units := (leadUnits lead).map (fun u => (u.kind, Config.streamBytes q.codec u)) ++ joinSlices q y bytes (streamOrder q y)
  (y.impDraws.foldl (editSlot q) units).map fun u => inStream q.codec u.2

/-- The units of a picture as its stream has them before any impairment. -/
def rawUnits (q : Params) (y : Pic) : List StreamUnit :=
  leadUnits y.rawHeads ++ (streamOrder q y).map fun k =>
    ⟨.slice, if sliceStarts q (k / y.tiles) (k % y.tiles) then (sliceHead y.rawHeads).elems else [], (getUnit k y).raw⟩

/-! ### What follows the last row unit (R240, R256, R268) -/

/-- Bits that CPB_OVERSIZE slots add to a picture. -/
def oversizeBits (q : Params) (y : Pic) : Nat :=
  sumNat (y.impDraws.map fun d =>
    if getF ImpSlotCtl.code (slotCtl q d.1) = 1 then q.cpbBits * getF ImpSlotArg.arg (q.at (0x144 + 8 * d.1)) / 100 else 0)

/-- Filler bytes that take a picture of `n` bytes up to B_min, in the modes that add filler. -/
def fillNeed (q : Params) (y : Pic) (n : Nat) : Nat :=
  let need : Int := y.bMin - 8 * (n : Int)
  if q.fills && !(y.stress && stressKind q == 1) && decide (0 < need) then ((need + 7) / 8).toNat else 0

/-- The picture is withheld from the output (REF_ABSENT). -/
def withheld (y : Pic) : Bool := y.flags.testBit 12

/-- Filler bytes of an emitted picture of `n` bytes: CPB_OVERSIZE, then up to B_min. -/
def fillerBytes (q : Params) (y : Pic) (n : Nat) : Nat :=
  if withheld y then 0 else oversizeBits q y / 8 + fillNeed q y (n + oversizeBits q y / 8)

/-- The bytes that a row unit emits: none of a picture withheld, nor of one whose units are changed once all are there. -/
def ownBytes (q : Params) (y : Pic) (row col : Nat) (raw : List Byte) : List Byte :=
  if withheld y || editsUnits q y then [] else unitHead q y.heads row col ++ raw

/-- Where units of the stream start in the bytes that a row unit emits. -/
def ownStarts (q : Params) (y : Pic) (row col : Nat) : List Nat :=
  if withheld y || editsUnits q y then [] else startsOf 0 (unitHeads q y.heads row col)

/-- The units that follow the row units of picture `y`, which emitted `n` bytes: the changed units of a picture that was kept back, and filler. -/
def tailUnits (q : Params) (y : Pic) (n : Nat) : List (List Byte) :=
  let data := fun k =>
    (if sliceStarts q (k / y.tiles) (k % y.tiles) then Config.streamBytes q.codec (sliceHead y.heads) else []) ++ (getUnit k y).raw
  let kept := if editsUnits q y && !withheld y then editedPicture q y.heads y data else []
  let fill := fillerData q.codec (fillerBytes q y (n + kept.flatten.length))
  kept ++ if fill.isEmpty then [] else [fill]

/-- The emitted bytes of a picture. -/
def picBytes (q : Params) (y : Pic) : List Byte := (sendOrder q y).flatMap fun k => (getUnit k y).bytes

end Sys2Proof.Machine
end

