-- ==== Sys2Proof/Machine/Local.lean ====
section
/-! DEFINITION. Memories inside a block and who is granted them: cell SRAM ports (R20), banks of the block line store (R21), and the arbiter
that the decoupling queues share with them. -/

namespace Sys2Proof.Machine

open Sys2Proof

/-! ### Arbiters -/

/-- Turns until requester `who` is next, of the 13 requesters of R21. -/
def turnsTo (turn who : Nat) : Nat := (who + 13 - turn) % 13

/-- The request that round-robin order grants, and the one that a fixed priority grants. -/
def inTurn (a : Arbiter) : Option LocalWait := leastBy (fun x => turnsTo a.turn x.who) a.waiting
def inPriority (a : Arbiter) : Option LocalWait := leastBy (fun x => x.who) a.waiting

/-- A request is granted: it leaves, and the requester after it is next in turn. -/
def grantTo (x : LocalWait) (a : Arbiter) : Arbiter := ⟨a.waiting.erase x, (x.who + 1) % 13, true⟩

/-- A request joins those that wait. -/
def Arbiter.ask (x : LocalWait) (a : Arbiter) : Arbiter := { a with waiting := a.waiting ++ [x] }

/-- The arbiter as a fabric cycle begins. -/
def Arbiter.fresh (a : Arbiter) : Arbiter := { a with used := false }

/-! ### Bytes of a local memory -/

/-- Bytes that one granted read moves: one 16-bit sample for each of a cell's 256 lanes (assumption 161). -/
def laneBytes : Nat := 512

/-- Bytes of a memory; `lost` gives those that nothing has written since the contents were lost. -/
def localRead (lost : Nat → Byte) (m : SMap (Option Byte)) (a n : Nat) : List Byte :=
  (List.range n).map fun i => (smGet none (a + i) m).getD (lost (a + i))
def localWrite : SMap (Option Byte) → Nat → List Byte → SMap (Option Byte)
  | m, _, [] => m
  | m, a, b :: l => localWrite (smSet none a (some b) m) (a + 1) l

/-! ### Cell SRAM ports (R20) -/

/-- A port of a cell of block `blk` grants its first request in priority order. -/
def portServe (blk cell port : Nat) (x : Block) : Block :=
  let k := 2 * cell + port
  let a := smGet Arbiter.init k x.ports
  match (if a.used then none else inPriority a) with
  | none => x
  | some w =>
    let m := smGet [] cell x.sram
    let y := { x with ports := smSet Arbiter.init k (grantTo w a) x.ports }
    match w.data with
    | some l => { y with sram := smSet [] cell (localWrite m w.addr l) x.sram }
    | none => { y with lanes := smSet [] cell (localRead (Config.lostByte blk x.losses cell) m w.addr laneBytes) x.lanes }

/-! ### Line store banks (R21) -/

/-- A bank grants its next request in round-robin order. -/
def bankServe (blk bank : Nat) (x : Block) : Block :=
  let a := smGet Arbiter.init bank x.banks
  match (if a.used then none else inTurn a) with
  | none => x
  | some w =>
    let m := smGet [] bank x.lines
    let y := { x with banks := smSet Arbiter.init bank (grantTo w a) x.banks }
    match w.data with
    | some l => { y with lines := smSet [] bank (localWrite m w.addr l) x.lines }
    | none => { y with lanes := smSet [] w.who (localRead (Config.lostByte blk x.losses (12 + bank)) m w.addr laneBytes) x.lanes }

/-- The priority of a request of an SRAM port. -/
def sramRank : SramFor → Nat | .belay => 0 | .work => 1 | .prefetch => 2

/-- A request inside a block: granted at once where nothing has been granted in this cycle and none goes before it. -/
def localAsk (blk : Nat) (q : LocalReq) (x : Block) : Block :=
  match q with
  | .sram c p u a d =>
    let k := 2 * c.val + p.val
    portServe blk c p { x with ports := smSet Arbiter.init k ((smGet Arbiter.init k x.ports).ask ⟨sramRank u, a, d⟩) x.ports }
  | .line b w a d =>
    bankServe blk b { x with banks := smSet Arbiter.init b ((smGet Arbiter.init b x.banks).ask ⟨w, a, d⟩) x.banks }

def localAsks (blk : Nat) (l : List LocalReq) (x : Block) : Block := l.foldl (fun y q => localAsk blk q y) x

/-- A fabric cycle begins for a port of a cell, and for a bank: it grants one request. -/
def portCycle (blk : Nat) (x : Block) (k : Nat) : Block :=
  portServe blk (k / 2) (k % 2) { x with ports := smSet Arbiter.init k (smGet Arbiter.init k x.ports).fresh x.ports }
def bankCycle (blk : Nat) (x : Block) (k : Nat) : Block :=
  bankServe blk k { x with banks := smSet Arbiter.init k (smGet Arbiter.init k x.banks).fresh x.banks }

/-- A fabric cycle begins for the ports and banks of a block. -/
def localCycle (blk : Nat) (x : Block) : Block :=
  (smKeys x.banks).foldl (bankCycle blk) ((smKeys x.ports).foldl (portCycle blk) x)

end Sys2Proof.Machine
end

