-- ==== Sys2Proof/Machine/Sequencer.lean ====
section
/-! DEFINITION. Block sequencers, decoupling queues, cells and the reactions to faults of blocks, regions and chip units
(chapters "Rope pairs, the decoupling queue and block sequencers", "Fault detection, Belay recovery and the safe state"). -/

namespace Sys2Proof.Machine

open Sys2Proof

/-! ### Pictures and their units -/

/-- The pictures of pipeline `p`: the one with index `i`. -/
def picAt (p i : Nat) (s : State) : Option Pic := (getPipe p s).pics.find? fun x => x.idx == i

def onPic (p i : Nat) (f : Pic → Pic) (s : State) : State := onPipe p (updatePic i f) s

/-- The sets a picture was started with. -/
def picParams (p : Nat) (x : Pic) (s : State) : Params := ⟨pipePers p s, x.sets⟩

/-- The sets that a row unit is coded with: ENC_SEARCH, ENC_TOOLS and ENC_QUANT as read at its start (R228). -/
def unitParams (p : Nat) (x : Pic) (k : Nat) (s : State) : Params :=
  ⟨pipePers p s, (getUnit k x).sets.foldl (fun m e => smSet 0 e.1 e.2 m) x.sets⟩

/-- The entropy partition of a row unit: an encoder's by its sets, a decoder's as the stream gives it. -/
def unitPart (p : Nat) (x : Pic) (row col : Nat) (s : State) : Nat :=
  if pipeDecodes p s then (x.unitParts[unitIndex x row col]?).getD 0 else encPart (picParams p x s) row col

/-- The units of the partition of a row unit that come before it in the stream are complete: it is the partition's next (R321, R323). -/
def partNext (p : Nat) (x : Pic) (row col : Nat) (s : State) : Bool :=
  (List.range x.unitCount).all fun k =>
    decide (unitIndex x row col ≤ k) || unitPart p x (k / x.tiles) (k % x.tiles) s != unitPart p x row col s || (getUnit k x).done

/-- PE_CHROMA of a pipeline. -/
def pipeChroma (p : Nat) (s : State) : Nat := match pipeEntry p s with | some e => e.chroma | none => 0

/-- The units of an encoded picture before `row`, in the same tile column, that a unit's coding looks at. -/
def unitAbove (x : Pic) (row col : Nat) : List Choice := if row = 0 then [] else (getUnit (unitIndex x (row - 1) col) x).choices

/-- The source lines a row unit of CTU row `row` needs (R190): one more, of each field of an interleaved frame, where chroma is
filtered vertically. -/
def rowLines (q : Params) (chroma row : Nat) : Nat × Nat :=
  let n := 2 ^ q.ctuLog2
  let more := if inputIs422 q.inFmt ∧ chroma = 0 then (if q.fieldMode = 1 then 2 else 1) else 0
  (row * n, min q.height ((row + 1) * n + more))

/-- The QP of the last row coded normally before `row`, the picture's base QP where there is none. -/
def lastRowQp (y : Pic) (row : Nat) : Nat :=
  match ((List.range row).reverse.find? fun r => (getRow r y).started && !(getRow r y).floor) with
  | some r => (getRow r y).qp
  | none => y.qpPic

/-- The cap of a row unit (R265). -/
def unitCap (q : Params) (y : Pic) (row col : Nat) : Int :=
  (getRow row y).cap * (q.unitCtus col : Nat) / ((max 1 q.ctuCols : Nat) : Int)

/-- The job of a row unit of an encoded picture (R209). -/
def encJob (p : Nat) (y : Pic) (row col : Nat) (s : State) : UnitJob :=
  let k := unitIndex y row col
  let q := unitParams p y k s
  let x := getPipe p s
  let rc := getRow row y
  { vs := rd Reg.cfgVsVersion s
    pers := q.pers
    chroma := pipeChroma p s
    sets := q.word
    index := y.idx
    kind := y.kind
    row := row
    col := col
    source := sourcePlanes q (pipeChroma p s) (getCap y.cap x) (rowLines q (pipeChroma p s) row).2
    previous := x.prevSource
    refs := y.refs.map fun i => (y.idx - i, smGet default i x.recon)
    poisoned := (getUnit k y).poisoned
    rowQp := rc.qp
    lastQp := if rc.floor then lastRowQp y row else rc.qp
    floor := rc.floor
    reserve := y.reserve
    cap := unitCap q y row col
    map := y.map
    above := unitAbove y row col }

/-- The job of a row unit of a decoded picture, or of a picture's headers (R298). -/
def decJob (p : Nat) (n : Nat) (unit : Option (Nat × Nat)) (poisoned : List (Nat × Nat)) (s : State) : DecJob :=
  ⟨rd Reg.cfgVsVersion s, pipePers p s, pipeChroma p s, (getPipe p s).stream.take n, unit, poisoned⟩

/-- The job of the row unit at (row, col) of picture `y`. -/
def workJob (p : Nat) (y : Pic) (row col : Nat) (s : State) : WorkJob :=
  if pipeDecodes p s then .decode (decJob p y.stream (some (row, col)) (getUnit (unitIndex y row col) y).poisoned s)
  else .encode (encJob p y row col s)

/-! ### Rope pairs (R327 to R332) -/

def getRope (r b q : Nat) (s : State) : Rope := smGet Rope.init q (getBlock r b s).ropes
def setRope (r b q : Nat) (x : Rope) (s : State) : State := onBlock r b (fun y => { y with ropes := smSet Rope.init q x y.ropes }) s

/-- The number of Rope pair `q` of block `b` of region `r`, + 1. -/
def ropeId (r b q : Nat) : Nat := 2 * (8 * r + b) + q + 1

/-- The Rope pair with a number, + 1. -/
def ropeAt (id : Nat) (s : State) : Rope := getRope ((id - 1) / 16) ((id - 1) / 2 % 8) ((id - 1) % 2) s
def setRopeAt (id : Nat) (x : Rope) (s : State) : State := setRope ((id - 1) / 16) ((id - 1) / 2 % 8) ((id - 1) % 2) x s

/-- Both engines take a state (R330). -/
def loadEngines (e : Engine) : Rope := ⟨e, e, false⟩

/-- An engine after a row unit: its position advances by `n` bytes or bits (R327, R328), and it has one unit more. -/
def engineAfter (j : WorkJob) (n : Nat) (e : Engine) : Engine :=
  { Config.engineUnit j e with position := e.position + n, unitsDone := e.unitsDone + 1 }

/-- The two engines agree in a cycle whose next state of the second is `upset`, where that is what is compared (R330). -/
def enginesAgree (x : Rope) (upset : Option Upset) : Bool :=
  match upset with | some (.engine e) => decide (Config.engineNext x.first = e) | _ => false

/-! ### Checkpoints (R39, R595) -/

/-- The checkpoint of the row unit that a block runs. -/
def takeCkpt (r b p i row col : Nat) (y : Pic) (s : State) : Ckpt :=
  { unit := (p, i, row, col)
    refs := y.refs
    row := getRow row y
    floorLatched := y.floorLatched
    engine := (ropeAt (smGet 0 (unitPart p y row col s) y.parts) s).first
    half := (getBlock r b s).half }

/-- Words of one copy of a checkpoint, and of one copy of a pipeline's block state (assumption 162). -/
def ckptWords : Nat := 512
def slotWords : Nat := 6400

/-- Belay traffic of `n` words of pipeline `p` at the memory agent of region `r` (R29, R32). -/
def belayTraffic (r p n : Nat) (s : State) : State :=
  { s with fs := { s.fs with belayWants := smSet 0 (1024 * r + p) (smGet 0 (1024 * r + p) s.fs.belayWants + n) s.fs.belayWants } }

/-- Slot-switch state of `n` words is the region's own traffic (R395). -/
def ownTraffic (r n : Nat) (s : State) : State :=
  let k := agentKey r none
  { s with fs := { s.fs with belayWants := smSet 0 k (smGet 0 k s.fs.belayWants + n) s.fs.belayWants } }

/-- Write a checkpoint in two copies to region memory (R595). -/
def writeCkpt (r b : Nat) (c : Ckpt) (s : State) : State :=
  let x := getRegion r s
  setRegion r { x with ckpts := smSet none (2 * b) (some c) (smSet none (2 * b + 1) (some c) x.ckpts) } s

/-- The checkpoint of block `b` as it can be read: the second copy where the first is poisoned. -/
def readCkpt (r b : Nat) (s : State) : Option Ckpt :=
  let x := getRegion r s
  smGet none (2 * b) x.ckpts <|> smGet none (2 * b + 1) x.ckpts

/-- Write the checkpoint of the unit that block `b` runs, where it runs one. -/
def saveCkpt (r b : Nat) (s : State) : State :=
  match (getBlock r b s).running with
  | none => s
  | some (p, i, row, col) =>
    match picAt p i s with
    | none => s
    | some y => writeCkpt r b (takeCkpt r b p i row col y s) s

/-- The checkpoints of the units of pipeline `p` that a Rope pair codes are taken again as it comes to them: the pair's state is part of
them. -/
def saveRopeCkpts (p id : Nat) (s : State) : State :=
  match pipeEntry p s with
  | none => s
  | some e => e.blocks.foldl (fun a k =>
      match (getBlock (k / 8) (k % 8) a).running with
      | some (p', i, row, col) =>
        (match picAt p i a with
        | some y => if p' = p ∧ smGet 0 (unitPart p y row col a) y.parts = id then saveCkpt (k / 8) (k % 8) a else a
        | none => a)
      | none => a) s

/-! ### Decoupling queues (R333 to R344) -/

def getDq (r b q : Nat) (s : State) : Dq := smGet Dq.init q (getBlock r b s).queues
def setDq (r b q : Nat) (x : Dq) (s : State) : State :=
  onBlock r b (fun y => { y with queues := smSet Dq.init q x y.queues }) s

def dqDepth : Nat := 8192

/-- Tokens a segment ring of 1 MiB holds (R337). -/
def segmentDepth : Nat := 65536

/-- TK_LAST (R338). -/
def tkLast (t : BitVec 128) : Bool := t.getLsbD 123

/-- DQ_LEVEL as it acts (R340). -/
def dqLevel (r b q : Nat) (s : State) : Nat := min (fget (Reg.dqCtl r b q) DqCtl.dqLevel s) dqDepth

/-- DQ_SEG: the far side is a token segment. -/
def dqSegment (r b q : Nat) (s : State) : Bool := fbit (Reg.dqStatus r b q) DqStatus.dqSeg s

/-- DQ_DIR: from the Rope pair (decode). -/
def dqDecodes (r b q : Nat) (s : State) : Bool := fbit (Reg.dqStatus r b q) DqStatus.dqDir s

/-- Both copies of a queue's pointers agree, where what is compared is the copy `upset` (R343). -/
def pointersAgree (x : Dq) (upset : Option Upset) : Bool :=
  match upset with | some (.pointer w v) => decide (v % 2 ^ 14 = if w then x.wr else x.rd) | _ => false

/-- The block works: its sequencer is not halted and its region is powered. -/
def blockWorks (r b : Nat) (s : State) : Bool :=
  !s.pwr.bypass && fget (Reg.seqStatus r b) SeqStatus.seqState s != 4 && rgcState r s != 0
    && fget (Reg.blkStatus r b) BlkStatus.blkPersonality s != 0

/-- A write of one token (R334), with the fill, the high-water mark and the upward crossing of R340: a cycle with a write and a read makes
none (R341). -/
def dqPush (r b q : Nat) (t : BitVec 128) (s : State) : State :=
  let x := getDq r b q s
  let n := x.tokens.length + 1
  let w := (x.wr + 1) % 2 ^ 14
  let s1 := setDq r b q { x with tokens := x.tokens ++ [t], wr := w, wrCopy := w } s
  let s2 := fput (Reg.dqHiwater r b q) DqHiwater.dqHiwater (max n (fget (Reg.dqHiwater r b q) DqHiwater.dqHiwater s1))
    (fput (Reg.dqStatus r b q) DqStatus.dqFill n s1)
  if n = dqLevel r b q s ∧ x.readSide.used = false then
    raiseWhen (fbit (Reg.dqCtl r b q) DqCtl.dqIrqEn s) (512 + 64 * r + 4 * b + 1 + q)
      (fset (Reg.dqStatus r b q) DqStatus.dqCross s2)
  else s2

/-- A producer that finds the queue full waits for a cycle (R334). -/
def dqStall (r b q : Nat) (s : State) : State :=
  bumpWrap (Reg.dqStallCnt r b q) DqStallCnt.dqStallCnt (fset (Reg.dqStatus r b q) DqStatus.dqStall s)

/-- The consumer takes the oldest token (R334). -/
def dqPop (r b q : Nat) (s : State) : State :=
  let x := getDq r b q s
  match x.tokens with
  | [] => s
  | _ :: l =>
    let v := (x.rd + 1) % 2 ^ 14
    bumpWrap (Reg.dqTokens r b q) DqTokens.dqTokens
      (fput (Reg.dqStatus r b q) DqStatus.dqFill l.length (setDq r b q { x with tokens := l, rd := v, rdCopy := v } s))

/-- A write must wait: the queue is full, or the last token of the row unit before is still in it (R334, R335). -/
def dqHolds (x : Dq) : Bool := decide (dqDepth ≤ x.tokens.length) || (x.tokens.getLast?).any tkLast

/-- The row unit whose tokens pass a queue, with the block that runs it: the next one of the partition that the queue's Rope pair codes. -/
def queueBlock (r b q : Nat) (s : State) : Option (Nat × Nat × Nat × Nat × Nat) :=
  let p := fget (Reg.ropeStatus r b q) RopeStatus.ropePipe s
  match pipeEntry p s with
  | none => none
  | some e => e.blocks.findSome? fun k =>
      match (getBlock (k / 8) (k % 8) s).running with
      | none => none
      | some (p', i, row, col) =>
        if p' = p ∧ ((picAt p i s).any fun x =>
            smGet 0 (unitPart p x row col s) x.parts == ropeId r b q && partNext p x row col s) = true
        then some (k, p', i, row, col) else none

/-- TK_DATA of UNIT_START (R338): first CTU column, CTU row, CTU count and partition index, from the low bits up (assumption 189). The columns of
a decoded unit are as the stream gives them: they are those of the vendor's content `t`. -/
def unitStartData (p : Nat) (y : Pic) (row col : Nat) (t : BitVec 128) (s : State) : Nat :=
  let q := picParams p y s
  let cols := if pipeDecodes p s then (t.toNat % 2 ^ 16, t.toNat / 2 ^ 32 % 2 ^ 16)
    else (tileBound q.ctuCols q.tileCols col, q.unitCtus col)
  cols.1 % 2 ^ 16 + 2 ^ 16 * (row % 2 ^ 16) + 2 ^ 32 * (cols.2 % 2 ^ 16) + 2 ^ 48 * (unitPart p y row col s % 2 ^ 16)

/-- A token in the layout of R338, from the vendor's content `t`: its kind is one of the table and of the direction, its component is none of the
reserved ones, and UNIT_START names unit `k` with the fields `start`. -/
def tokenOf (decodes : Bool) (k start : Nat) (t : BitVec 128) : BitVec 128 :=
  let kind := t.toNat / 2 ^ 124
  let comp := t.toNat / 2 ^ 120 % 8
  let bad := decide (10 < kind) || (!decodes && (kind == 8 || kind == 9))
  let kind' := if bad then 0 else kind
  let comp' := if 3 ≤ comp then 7 else comp
  let arg := if kind' = 1 then k % 2 ^ 24 else t.toNat / 2 ^ 96 % 2 ^ 24
  let data := if kind' = 1 then start % 2 ^ 64 else t.toNat % 2 ^ 96
  BitVec.ofNat 128 (2 ^ 124 * kind' + 2 ^ 123 * (t.toNat / 2 ^ 123 % 2) + 2 ^ 120 * comp' + 2 ^ 96 * arg + data)

/-- The producer of a queue's tokens works: no reaction to a fault is pending on the block that runs the unit, and in decode the Rope
pair's engines run (R331, R354). -/
def producerWorks (r b q k : Nat) (s : State) : Bool :=
  (getBlock (k / 8) (k % 8) s).reactions.isEmpty && !(dqDecodes r b q s && (getRope r b q s).stopped)

/-- Token `n` of a row unit that passes a queue, and whether it has one (R338, R339): none goes after the last. `u` is the block that runs
it with the unit. -/
def tokenAt (r b q : Nat) (u : Nat × Nat × Nat × Nat × Nat) (n : Nat) (s : State) : Option (BitVec 128) :=
  (picAt u.2.1 u.2.2.1 s).bind fun y =>
    let row := u.2.2.2.1
    let col := u.2.2.2.2
    let token := fun n =>
      let t := Config.token (workJob u.2.1 y row col s) n
      tokenOf (dqDecodes r b q s) (unitIndex y row col) (unitStartData u.2.1 y row col t s) t
    if n ≠ 0 ∧ tkLast (token (n - 1)) = true then none else some (token n)

/-- The next token that the producer on a queue has, with the queue that counts it: none where no unit runs, or its last token was made. -/
def nextToken (r b q : Nat) (s : State) : Option (BitVec 128 × Dq) :=
  match queueBlock r b q s with
  | none => none
  | some u =>
    let x := getDq r b q s
    let z := if x.unit = some u.2 then x else { x with unit := some u.2, made := 0 }
    if producerWorks r b q u.1 s then (tokenAt r b q u z.made s).map fun t => (t, { z with made := z.made + 1 }) else none

/-- The row units that other blocks run and whose tokens reach a Rope pair's queue by way of its segments, in the order of their partition
(R336). -/
def farUnits (r b q : Nat) (s : State) : List (Nat × Nat × Nat × Nat × Nat) :=
  let p := fget (Reg.ropeStatus r b q) RopeStatus.ropePipe s
  match pipeEntry p s with
  | none => []
  | some e => sortBy (fun u => u.2.2.2.1) (e.blocks.filterMap fun k =>
      match (getBlock (k / 8) (k % 8) s).running with
      | some (p', i, row, col) =>
        if p' = p ∧ k ≠ 8 * r + b ∧ ((picAt p i s).any fun x => smGet 0 (unitPart p x row col s) x.parts == ropeId r b q) = true
        then some (k, p', i, row, col) else none
      | none => none)

/-- The tokens of a unit are all in the segment: a later one has begun there, or its own last one is made. -/
def farWritten (r b q : Nat) (u : Nat × Nat × Nat × Nat × Nat) (s : State) : Bool :=
  let x := getDq r b q s
  match x.far with
  | none => false
  | some v => decide (u.2.2.2.1 < v.2.2.1) || (decide (v = u.2) && (tokenAt r b q u x.farMade s).isNone)

/-- The next token that another block writes to a segment in encode: the segment holds the units in order, also those of units that are
not yet the partition's next (R336). -/
def farToken (r b q : Nat) (s : State) : Option (BitVec 128 × Dq) :=
  match (farUnits r b q s).find? fun u => !farWritten r b q u s with
  | none => none
  | some u =>
    let x := getDq r b q s
    let z := if x.far = some u.2 then x else { x with far := some u.2, farMade := 0 }
    if producerWorks r b q u.1 s then (tokenAt r b q u z.farMade s).map fun t => (t, { z with farMade := z.farMade + 1 }) else none

/-- A queue and its segments are empty, and its tokens are made again: what it served goes elsewhere, or starts again. -/
def flushQueue (r b q : Nat) (s : State) : State :=
  let x := getDq r b q s
  fput (Reg.dqStatus r b q) DqStatus.dqFill 0 (setDq r b q { x with
    tokens := [], segment := [], rd := x.wr, rdCopy := x.wrCopy, unit := none, made := 0, far := none, farMade := 0, fed := none } s)

/-- Traffic of the token segments is charged to the pipeline in class PIXEL (R337): a word for every four tokens, at the agent of region `m`
(assumption 178). -/
def segmentTraffic (m r b q : Nat) (s : State) : State :=
  let x := getDq r b q s
  let k := 1024 * m + fget (Reg.ropeStatus r b q) RopeStatus.ropePipe s
  let s1 := setDq r b q { x with moved := x.moved + 1 } s
  if x.moved % 4 = 3 then { s1 with fs := { s1.fs with wants := smSet 0 k (smGet 0 k s1.fs.wants + 1) s1.fs.wants } } else s1

/-- The segment's oldest token as the mover brings it to the queue in encode: one of the partition's next unit (R336). -/
def segmentToken (r b q : Nat) (s : State) : Option (BitVec 128 × Dq) :=
  let x := getDq r b q s
  let next := (queueBlock r b q s).map Prod.snd
  if next.isNone ∨ x.fed = next then none
  else
    match x.segment with
    | [] => none
    | t :: l => some (t, { x with segment := l, fed := if tkLast t then next else x.fed })

/-- The producer of a token for the queue's write side: in encode with the far side a segment it is the mover, else the token is new. -/
def offered (r b q : Nat) (s : State) : Option (BitVec 128 × Dq) :=
  if dqDecodes r b q s = false ∧ dqSegment r b q s = true then segmentToken r b q s else nextToken r b q s

/-- The write side grants its next requester (R21), where the queue takes a token (R334, R335). -/
def dqWriteServe (r b q : Nat) (s : State) : State :=
  let x := getDq r b q s
  match (if x.writeSide.used ∨ dqHolds x = true then none else inTurn x.writeSide) with
  | none => s
  | some w =>
    match offered r b q s with
    | none => setDq r b q { x with writeSide := { x.writeSide with waiting := x.writeSide.waiting.erase w } } s
    | some (t, z) => dqPush r b q t (setDq r b q { z with writeSide := grantTo w x.writeSide } s)

/-- Where a read token goes: in decode with the far side a segment, the mover appends it to the segment. -/
def segmentTake (r b q : Nat) (x : Dq) (s : State) : Dq :=
  if dqDecodes r b q s = true ∧ dqSegment r b q s = true then
    match x.tokens with | t :: _ => { x with segment := x.segment ++ [t] } | [] => x
  else x

/-- The reader waits: the queue is empty, or the segment it empties into is full (R334, R337); in encode it is the Rope pair, whose engines may
have stopped (R331). -/
def dqLacks (r b q : Nat) (x : Dq) (s : State) : Bool :=
  x.tokens.isEmpty || (!dqDecodes r b q s && (getRope r b q s).stopped) || (dqDecodes r b q s && dqSegment r b q s && decide (segmentDepth ≤ x.segment.length))

/-- The read side grants its next requester (R21), where there is a token. -/
def dqReadServe (r b q : Nat) (s : State) : State :=
  let x := getDq r b q s
  match (if x.readSide.used ∨ dqLacks r b q x s = true then none else inTurn x.readSide) with
  | none => s
  | some w => dqPop r b q (setDq r b q { segmentTake r b q x s with readSide := grantTo w x.readSide } s)

/-- A requester asks for a side, and is granted at once where nothing goes before it. A write on a full queue counts as a wait. -/
def dqWriteAsk (r b q who : Nat) (s : State) : State :=
  let x := getDq r b q s
  let s1 := dqWriteServe r b q (setDq r b q { x with writeSide := x.writeSide.ask ⟨who, 0, none⟩ } s)
  if dqDepth ≤ x.tokens.length then dqStall r b q s1 else s1
def dqReadAsk (r b q who : Nat) (s : State) : State :=
  let x := getDq r b q s
  dqReadServe r b q (setDq r b q { x with readSide := x.readSide.ask ⟨who, 0, none⟩ } s)

/-- A fabric cycle begins for a queue: each side grants one requester by what the queue held before, so that a write beside a read
makes no crossing (R341), and a producer that waits on a full queue is counted. -/
def dqCycle (r b q : Nat) (s : State) : State :=
  let x := getDq r b q s
  let s1 := dqReadServe r b q (setDq r b q { x with writeSide := x.writeSide.fresh, readSide := x.readSide.fresh } s)
  let s2 := if dqHolds x then s1 else dqWriteServe r b q s1
  if dqDepth ≤ x.tokens.length ∧ x.writeSide.waiting ≠ [] then dqStall r b q s2 else s2

/-- The requester that stands for the sequencer, and for the segment mover in its place (R337). -/
def moverId : Nat := 12

/-- SEGMENT_MOVE: the mover moves one token between the queue and the segment (R336). -/
def segmentMove (r b q : Nat) (s : State) : State :=
  if blockWorks r b s = false ∨ dqSegment r b q s = false then s
  else
    let n := (getDq r b q s).segment.length
    let s1 :=
      if dqDecodes r b q s then dqReadAsk r b q moverId s
      else if (segmentToken r b q s).isNone then s
      else dqWriteAsk r b q moverId s
    if (getDq r b q s1).segment.length = n then s1 else segmentTraffic r r b q s1

/-- The queue resets after its pointer copies disagreed (R344): its tokens are discarded, and counted in DQ_TOKENS. -/
def dqReset (r b q : Nat) (s : State) : State :=
  let x := getDq r b q s
  let s1 := bumpWrapBy x.tokens.length (Reg.dqTokens r b q) DqTokens.dqTokens
    (setDq r b q { x with tokens := [], wr := 0, wrCopy := 0, rd := 0, rdCopy := 0, writeSide := { x.writeSide with waiting := [] } } s)
  bump (Reg.dqResetCnt r b q) DqResetCnt.dqResetCnt
    (fset (Reg.dqStatus r b q) DqStatus.dqResetEv (fput (Reg.dqStatus r b q) DqStatus.dqFill 0 s1))

/-- A write to DQ_CTL (R340, R341): it makes no crossing. -/
def dqLevelWrite (r b q : Nat) (v : Word) (s : State) : State :=
  fput (Reg.dqCtl r b q) DqCtl.dqIrqEn (getF DqCtl.dqIrqEn v) (fput (Reg.dqCtl r b q) DqCtl.dqLevel (getF DqCtl.dqLevel v) s)

/-! ### The block sequencer (R352 to R358) -/

def seqState (r b : Nat) (s : State) : Nat := fget (Reg.seqStatus r b) SeqStatus.seqState s
def setSeq (r b routine st : Nat) (s : State) : State :=
  fput (Reg.seqStatus r b) SeqStatus.seqRoutine routine (fput (Reg.seqStatus r b) SeqStatus.seqState st s)

/-- The routines an abort stops (R355). -/
def abortable (routine : Nat) : Bool := routine == 5 || routine == 6 || routine == 7

/-- Write the resume record of the routine running, and stop (R354, R355). -/
def writeResume (r b cause : Nat) (s : State) : State :=
  let x := getBlock r b s
  let routine := fget (Reg.seqStatus r b) SeqStatus.seqRoutine s
  let w := [routine + 2 ^ 8 * cause + 2 ^ 16 * (x.cairn % 2 ^ 16), x.progress, x.key % 2 ^ 32, x.key / 2 ^ 32, x.cycles, 0xFFFF]
  let s1 := (List.range 8).foldl (fun a i => wr (Reg.seqResume r b i) (BitVec.ofNat 32 ((w[i]?).getD 0)) a) s
  raise (512 + 64 * r + 4 * b + 3)
    (onBlock r b (fun y => { y with selfTest := false })
      (setSeq r b 0 3 (fset (Reg.seqStatus r b) SeqStatus.seqResumeValid s1)))

/-- Take the requests that wait, at a cairn. An abort stops an abortable routine; at one that is not abortable it stays until
the block is idle, and at an idle block it finds nothing to stop (R354, R355, R358). -/
def takeRequests (r b : Nat) (s : State) : State :=
  let x := getBlock r b s
  let routine := fget (Reg.seqStatus r b) SeqStatus.seqRoutine s
  let busy := seqState r b s == 1 || seqState r b s == 2
  let keep := fun q : CairnReq => match q with | .abort _ => busy && !abortable routine | .disable _ => false
  let s1 := setBlock r b { x with requests := x.requests.filter keep } s
  let s2 := x.requests.foldl (fun a q => match q with | .disable p => pipeDisable p a | .abort _ => a) s1
  match x.requests.findSome? fun q => match q with | .abort c => some c | .disable _ => none with
  | some c => if busy && abortable routine then writeResume r b c s2 else s2
  | none => s2

/-- A request to a block sequencer: a block that runs no routine, or waits, takes it at once (R352, R354). -/
def requestCairn (r b : Nat) (q : CairnReq) (s : State) : State :=
  let s1 := onBlock r b (fun x => { x with requests := x.requests ++ [q] }) s
  if seqState r b s = 1 then s1 else takeRequests r b s1

/-- The patch-memory word that a fetch from ROM address `rom` of a level gets instead, where an enabled match register of the level names the
address (R346): words of micro level, eight words of nano level. What the micro program does with them is the vendor's. -/
def patchFetch (nano : Bool) (rom : Nat) (m : List Word) : Option (List Word) :=
  let word := fun i => ((m[i]?).getD 0).toNat
  let names := fun i =>
    let hi := word (3072 + 2 * i + 1)
    hi.testBit 31 && hi.testBit 30 == nano && decide (hi % 2 ^ (if nano then 13 else 16) = rom)
  ((List.range 64).find? names).map fun i =>
    let a := word (3072 + 2 * i) % 1024
    if nano then (List.range 8).map fun j => (m[1024 + 8 * a + j]?).getD 0 else [(m[a]?).getD 0]

/-- The word of the control store that a block fetches: the patch's where a match register names the address, else the ROM's. -/
def seqFetch (r b : Nat) (nano : Bool) (rom : Nat) (s : State) : List Word :=
  (patchFetch nano rom (getBlock r b s).patch).getD (Config.rom nano rom)

/-- A routine starts: with `resume` it continues where a resume record of the same routine and key stopped (R357). -/
def seqStart (r b routine key : Nat) (resume : Bool) (s : State) : State :=
  let w := fun i => (rd (Reg.seqResume r b i) s).toNat
  let same := resume && fbit (Reg.seqStatus r b) SeqStatus.seqResumeValid s && decide (w 0 % 256 = routine)
    && decide (w 2 + 2 ^ 32 * w 3 = key)
  setSeq r b routine 1 (onBlock r b (fun x => { x with
    key := key
    progress := if same then w 1 else 0
    cycles := if same then w 4 else 0
    cairn := if same then w 0 / 2 ^ 16 else 0 }) s)

/-- A self-test goes on from BLOCK_SELFTEST to LINE_STORE_TEST (R608). -/
def lineStoreTest (k : Nat) (s : State) : State :=
  let r := k / 8
  let b := k % 8
  if seqState r b s = 1 ∧ fget (Reg.seqStatus r b) SeqStatus.seqRoutine s = 6 then seqStart r b 7 (getBlock r b s).key false s else s

/-- A routine ends: the block is idle, and takes what waits. -/
def seqEnd (r b : Nat) (s : State) : State :=
  if seqState r b s = 4 then s else takeRequests r b (setSeq r b 0 0 s)

/-- CAIRN: the sequencer reaches a cairn `gap` fabric cycles after the one before, with `progress` units of its work done. -/
def cairn (r b gap progress : Nat) (s : State) : State :=
  if seqState r b s = 1 then
    let off := Reg.seqStatus r b
    let s1 := fput off SeqStatus.seqCairnGap (max gap (fget off SeqStatus.seqCairnGap s)) s
    takeRequests r b (onBlock r b (fun x => { x with
      progress := progress
      cycles := min (x.cycles + gap) (2 ^ 32 - 1)
      cairn := x.cairn + 1 }) s1)
  else s

/-! ### Queue ends that the cells face (R334, R352) -/

/-- The sequencer waits on a queue: it is at a cairn for the whole of the wait. -/
def seqWait (r b : Nat) (s : State) : State :=
  if seqState r b s = 1 then takeRequests r b (fput (Reg.seqStatus r b) SeqStatus.seqState 2 s) else s

/-- The wait is over. -/
def seqGo (r b : Nat) (s : State) : State :=
  if seqState r b s = 2 then fput (Reg.seqStatus r b) SeqStatus.seqState 1 s else s

/-- The region of the block that runs the unit whose tokens pass a queue. -/
def farRegion (r b q : Nat) (s : State) : Nat := match queueBlock r b q s with | some (k, _) => k / 8 | none => r

/-- The region of the block that writes the segment in encode. -/
def writerRegion (r b q : Nat) (s : State) : Nat :=
  match (farUnits r b q s).find? fun u => !farWritten r b q u s with | some u => u.1 / 8 | none => r

/-- DQ_TOKEN_WRITE: requester `who` of the producer's side has a token for the queue, or in encode with `far` another block has one
for the segment. In encode the producer on the queue is the block itself, whose sequencer waits with it, and none where the far side of the
queue is a segment. -/
def dqTokenWrite (r b q who : Nat) (far : Bool) (s : State) : State :=
  if blockWorks r b s = false then s
  else if dqDecodes r b q s then dqWriteAsk r b q who s
  else if far then
    match farToken r b q s with
    | none => s
    | some (t, z) =>
      if segmentDepth ≤ z.segment.length then s
      else segmentTraffic (writerRegion r b q s) r b q (setDq r b q { z with segment := z.segment ++ [t] } s)
  else if dqSegment r b q s then s
  else if dqDepth ≤ (getDq r b q s).tokens.length then seqWait r b (dqWriteAsk r b q who s)
  else seqGo r b (dqWriteAsk r b q who s)

/-- DQ_TOKEN_READ: requester `who` of the consumer's side takes a token from the queue, or in decode from the segment where the far
side is one. In decode the consumer on the queue is the block itself, whose sequencer waits on an empty one. -/
def dqTokenRead (r b q who : Nat) (s : State) : State :=
  if blockWorks r b s = false then s
  else if dqDecodes r b q s = false then dqReadAsk r b q who s
  else if dqSegment r b q s then
    let x := getDq r b q s
    if x.segment.isEmpty then s
    else segmentTraffic (farRegion r b q s) r b q (setDq r b q { x with segment := x.segment.tail } s)
  else if (getDq r b q s).tokens.isEmpty then seqWait r b (dqReadAsk r b q who s)
  else seqGo r b (dqReadAsk r b q who s)

/-! ### Cells (R18, R19, R601 to R604) -/

def cellOk (r b c : Nat) (s : State) : Bool := (fget (Reg.blkStatus r b) BlkStatus.blkCellOk s).testBit c
def blkSpare (r b : Nat) (s : State) : Nat := fget (Reg.blkStatus r b) BlkStatus.blkSpare s
def setSpare (r b c : Nat) (s : State) : State := fput (Reg.blkStatus r b) BlkStatus.blkSpare c s

def cellRoleFld (c : Nat) : Fld := ⟨2 * c, 2⟩
def cellRole (r b c : Nat) (s : State) : Nat := fget (Reg.blkCellRole r b) (cellRoleFld c) s
def setCellRole (r b c v : Nat) (s : State) : State := fput (Reg.blkCellRole r b) (cellRoleFld c) v s

/-- The roles of R18: 1 search, 2 pixel, 3 filter. -/
def roleList (decodes : Bool) : List Nat :=
  if decodes then List.replicate 8 2 ++ List.replicate 3 3
  else List.replicate 3 1 ++ List.replicate 6 2 ++ List.replicate 2 3

/-- Assign the roles at a picture start, to the cells in service but the spare and a cell under test, in rising order. -/
def assignRoles (r b : Nat) (decodes : Bool) (s : State) : State :=
  let sp := blkSpare r b s
  let t := (getBlock r b s).testing
  let works := (List.range 12).filter fun c => cellOk r b c s && c != sp && c + 1 != t
  let s1 := wr (Reg.blkCellRole r b) 0 (onBlock r b (fun x => { x with spareWas := 0 }) s)
  (works.zip (roleList decodes)).foldl (fun a e => setCellRole r b e.1 e.2 a) s1

/-- Cell `c` takes over the role of cell `d`, which then has none. -/
def moveRole (r b c d : Nat) (s : State) : State := setCellRole r b d 0 (setCellRole r b c (cellRole r b d s) s)

/-- Retire a cell (R603, R604): its bit of BLK_CELL_OK reads 0. A retired spare leaves no spare; a working cell's role goes to
the spare, where there is one; a cell without a role leaves the spare as it is. -/
def retireCell (r b c : Nat) (s : State) : State :=
  let sp := blkSpare r b s
  let ok := fget (Reg.blkStatus r b) BlkStatus.blkCellOk s
  let s1 := fput (Reg.blkStatus r b) BlkStatus.blkCellOk (if ok.testBit c then ok - 2 ^ c else ok) s
  let s2 := onBlock r b (fun x => { x with testing := if x.testing = c + 1 then 0 else x.testing, passDone := false }) s1
  if sp = c ∨ sp = 0xF then setSpare r b 0xF (setCellRole r b c 0 s2)
  else if cellRole r b c s2 = 0 then s2
  else setSpare r b 0xF (moveRole r b sp c s2)

/-- A block stands at a picture boundary (R19): it runs no row unit, and no picture in progress of which it has had a unit has one left to
hand out. -/
def atPictureBoundary (r b : Nat) (s : State) : Bool :=
  (getBlock r b s).running.isNone && s.pipes.all fun e => e.2.pics.all fun y =>
    y.complete || (y.units.all fun u => u.2.block != 8 * r + b + 1)
      || (List.range y.unitCount).all fun k => (getUnit k y).block != 0

/-- SPARE_MOVE (R19): at a picture boundary after the spare's pass, the spare role moves to the next cell in service. -/
def spareMove (r b : Nat) (s : State) : State :=
  let x := getBlock r b s
  let sp := blkSpare r b s
  if x.passDone = false ∨ atPictureBoundary r b s = false ∨ 12 ≤ sp then s
  else
    match ((List.range 11).map fun i => (sp + 1 + i) % 12).find? fun c => cellOk r b c s with
    | none => s
    | some c => setSpare r b c (moveRole r b sp c (setBlock r b { x with passDone := false, passAt := s.now } s))

/-! ### Reactions of a block (R584, R589, R597, R605) -/

/-- A block's running row unit goes back to the hand-out. -/
def dropRunning (r b : Nat) (s : State) : State :=
  match (getBlock r b s).running with
  | none => s
  | some (p, i, row, col) =>
    onPic p i (fun x => setUnit (unitIndex x row col) { getUnit (unitIndex x row col) x with block := 0 } x)
      (onBlock r b (fun y => { y with running := none }) s)

/-- The partitions of every picture given to Rope pairs in `from_` go to `to n` (0: back to be assigned). -/
def remapParts (f : Nat → Nat) (s : State) : State :=
  { s with pipes := s.pipes.map fun e => (e.1, { e.2 with pics := e.2.pics.map fun x =>
      { x with parts := (x.parts.map fun k => (k.1, f k.2)).filter fun k => k.2 != 0 } }) }

/-- What is left of a pipeline's pictures is dropped: blocks and Rope pairs fall idle, and buffers go back (assumption 25). -/
def dropWork (p : Nat) (s : State) : State :=
  let x := getPipe p s
  let s1 := (List.range 128).foldl (fun a k =>
    match (getBlock (k / 8) (k % 8) a).running with
    | some (p', _, _, _) =>
      if p' = p then
        seqEnd (k / 8) (k % 8) (fclr (Reg.blkStatus (k / 8) (k % 8)) BlkStatus.blkReplay
          (onBlock (k / 8) (k % 8) (fun y => { y with running := none, reactions := [] }) a))
      else a
    | none => a) s
  let s2 := (List.range 256).foldl (fun a k =>
    let off := Reg.ropeStatus (k / 16) (k / 2 % 8) (k % 2)
    if fbit off RopeStatus.ropeBusy a = true ∧ fget off RopeStatus.ropePipe a = p then
      flushQueue (k / 16) (k / 2 % 8) (k % 2) (fclr off RopeStatus.ropeBusy a)
    else a) s1
  let s3 := x.pics.foldl (fun a q => unitFreeAll q.bufs p (freeChunks p q a)) s2
  x.coded.foldl (fun a c => unitFreeAll (segBufs c.parts) p a) s3

/-- The pipeline is enabled, or still drains. -/
def pipeWorks (p : Nat) (s : State) : Bool := pipeEnabled p s || (getPipe p s).draining

/-- Disable a pipeline at once, with its picture in progress not completed, and set LOST (R609, R611). -/
def pipeLost (p : Nat) (s : State) : State :=
  let s1 := fclr (Reg.pipStatus p) PipStatus.running (fclr (Reg.pipCtl p) PipCtl.enable (dropWork p s))
  pipFault p PipFault.lost (onPipe p (fun x => { x with pics := [], coded := [], draining := false }) s1)

/-- A block is retired without a self-test (R609): its work goes back, and a pipeline with no block in service is lost. -/
def retireBlock (r b : Nat) (s : State) : State :=
  let s1 := setBlkRole r b 3 (dropRunning r b s)
  let s2 := if fget (Reg.rgcStatus r) RgcStatus.rgcStandby s1 = b then fput (Reg.rgcStatus r) RgcStatus.rgcStandby 0xF s1 else s1
  let s3 := remapParts (fun k => if k = ropeId r b 0 ∨ k = ropeId r b 1 then 0 else k) s2
  let s4 := (List.range 2).foldl (fun a q => flushQueue r b q (fclr (Reg.ropeStatus r b q) RopeStatus.ropeBusy a)) s3
  let s5 := seqEnd r b (fclr (Reg.blkStatus r b) BlkStatus.blkReplay
    (onBlock r b (fun x => { x with reactions := [], selfTest := false }) s4))
  (s5.comp.pipes.filter fun e => e.blocks.contains (8 * r + b) && pipeWorks e.pipe s && (blocksInService e s5).isEmpty).foldl
    (fun a e => pipeLost e.pipe a) s5

/-- The region takes state DEGRADED (R609): every enabled pipeline that uses it is told, and those with SHED are disabled at
the end of their picture. -/
def degradeRegion (r : Nat) (s : State) : State :=
  let st := rgcState r s
  let s1 := if st = 1 ∨ st = 2 then raise (512 + 64 * r + 33) (setRgcState r 4 s) else s
  (enabledOn r s).foldl (fun a e =>
    let a1 := pipFault e.pipe PipFault.degraded (fput (Reg.pipFault e.pipe) PipFault.region r a)
    if e.flags.testBit 1 then pipFault e.pipe PipFault.shed (pipeDisable e.pipe a1) else a1) s1

/-- The block that runs the row unit whose entropy work, or whose tokens, a fault of Rope pair or queue `q` strikes (R331, R344). -/
def ropeVictim (r b q : Nat) (s : State) : Option Nat := (queueBlock r b q s).map Prod.fst

def addReaction (k : Nat) (a : Reaction) (s : State) : State :=
  onBlock (k / 8) (k % 8) (fun x => { x with reactions := x.reactions ++ [a] }) s

/-- Rope pair or queue of a fault's unit (R592). -/
def unitQ (f : FaultIn) : Nat := f.unit - 12

/-- What a block does at once for a class, whatever the level. -/
def classEffect (r b : Nat) (f : FaultIn) (s : State) : State :=
  match f.cls with
  | 5 => if f.unit = 12 ∨ f.unit = 13 then
      setRope r b (unitQ f) { getRope r b (unitQ f) s with stopped := true }
        (bump (Reg.ropeStatus r b (unitQ f)) RopeStatus.ropeMismatchCnt s) else s
  | 6 => if f.unit = 12 ∨ f.unit = 13 then dqReset r b (unitQ f) s else s
  | 8 => onBlock r b (fun x => { x with patch := [] }) (bump (Reg.seqEcc r b) SeqEcc.seqUncorr s)
  | 4 => if f.unit < 12 then retireCell r b f.unit s else s
  | 9 =>
    let x := getRegion r s
    setRegion r { x with ckpts := smSet none (2 * b) none x.ckpts } s
  | _ => s

/-- The pipeline in slot `t` of a block. -/
def slotPipe (r b t : Nat) (s : State) : Option Nat :=
  let w := rd (Reg.blkSlot r b t) s
  if getF BlkSlot.slotValid w = 1 then some (getF BlkSlot.slotPipe w) else none

/-- The re-run of a class at L1 (R584): a faulted cell gives way to the spare and goes under test (R604); a Rope pair's or
queue's fault re-runs the row unit it served. -/
def askRerun (r b : Nat) (f : FaultIn) (s : State) : State :=
  let k := 8 * r + b
  if isCell f.cls then
    if f.unit < 12 ∧ blkSpare r b s < 12 ∧ blkSpare r b s ≠ f.unit then
      setSpare r b 0xF (onBlock r b (fun x => { x with
        reactions := x.reactions ++ [.rerun f.cls f.unit], spareWas := blkSpare r b s + 1, testing := f.unit + 1
        passDone := false, passAt := s.now }) s)
    else if f.unit < 12 ∧ blkSpare r b s = f.unit then setSpare r b 0xF (onBlock r b (fun x => { x with testing := f.unit + 1, passAt := s.now }) s)
    else s
  else if f.cls = 5 ∨ f.cls = 6 then
    match ropeVictim r b (unitQ f) s with
    | some v => addReaction v (.rerun f.cls f.unit) s
    | none => s
  else addReaction k (.rerun f.cls f.unit) s

/-- The pipeline that a STATE_COPY fault with both copies poisoned stops (R609): the one in the block's slot. -/
def stateCopyLost (r b : Nat) (s : State) : State :=
  match slotPipe r b (fget (Reg.blkStatus r b) BlkStatus.blkCurSlot s) s with
  | some p => if pipeWorks p s then pipeLost p s else s
  | none => s

/-- React to a block fault handled at level `lvl` (0 L1, 1 L2, 2 L3) (R584, R589, R609). -/
def reactBlock (r b lvl : Nat) (f : FaultIn) (s : State) : State :=
  let s1 := classEffect r b f s
  let both := f.cls == 9 && f.both
  let s2 := if both then stateCopyLost r b s1 else s1
  if 2 ≤ lvl then
    let s3 := degradeRegion r s2
    if both then s3 else retireBlock r b s3
  else if f.cls = 0x0A then retireBlock r b s2
  else if f.cls = 4 ∨ f.cls = 9 ∨ blkRole r b s2 ≠ 1 then s2
  else if lvl = 1 then addReaction (8 * r + b) .takeover s2
  else askRerun r b f s2

/-- What is reported as a ROPE_MISMATCH or a QUEUE_POINTER is none where what is compared agrees (R330, R343). -/
def falseMismatch (r b : Nat) (f : FaultIn) (s : State) : Bool :=
  (f.unit == 12 || f.unit == 13) && ((f.cls == 5 && enginesAgree (getRope r b (unitQ f) s) f.upset)
    || (f.cls == 6 && pointersAgree (getDq r b (unitQ f) s) f.upset))

/-- The slot running and the CTU row of the row unit that a block's fault affects (R592): a Rope pair's or a queue's fault strikes the unit
it serves. -/
def blockPlace (r b : Nat) (f : FaultIn) (s : State) : Nat × Nat :=
  let unit := if (f.cls = 5 ∨ f.cls = 6) ∧ (f.unit = 12 ∨ f.unit = 13) then ropeVictim r b (unitQ f) s else some (8 * r + b)
  let row := unit.bind fun k => (getBlock (k / 8) (k % 8) s).running.map fun x => x.2.2.1
  (if (getBlock r b s).running.isSome then fget (Reg.blkStatus r b) BlkStatus.blkCurSlot s else 0, row.getD 0x3FF)

/-- The place of a fault of any unit. -/
def faultPlace (u : FaultUnit) (f : FaultIn) (s : State) : Nat × Nat :=
  match u with
  | .block r b => blockPlace r b f s
  | _ => noPlace

/-- Faults of a block in one cycle (R586, R591): each recorded in class order at its level, then its reaction. -/
def blockFault (r b : Nat) (fs : List FaultIn) (s : State) : State :=
  if r < 16 ∧ b < 8 ∧ s.pwr.bypass = false then
    let l := (sortFaults fs).filter fun f => classOf (.block (Fin.ofNat 16 r) (Fin.ofNat 8 b)) f.cls && !falseMismatch r b f s
    l.foldl (fun a f =>
      let u : FaultUnit := .block (Fin.ofNat 16 r) (Fin.ofNat 8 b)
      reactBlock r b (entryLevel u f.cls a) f (enterFault u f (blockPlace r b f s) a)) s
  else s

/-- The row unit that a block re-runs is counted. -/
def countRerun (p i row col : Nat) (s : State) : State :=
  onPic p i (fun y =>
    let k := unitIndex y row col
    { setUnit k { getUnit k y with reruns := (getUnit k y).reruns + 1 } y with belayRuns := y.belayRuns + 1 }) s

/-- The Rope pair of a re-run row unit reloads its checkpoint, and its queue starts the unit's tokens again (R329, R331, R344). -/
def restoreRope (id : Nat) (c : Ckpt) (s : State) : State :=
  if id = 0 then s
  else
    let r := (id - 1) / 16
    let b := (id - 1) / 2 % 8
    let q := (id - 1) % 2
    setRope r b q (loadEngines c.engine) (flushQueue r b q s)

/-- Block `b` restores the checkpoint of the row unit it runs (R595): the Rope pair's state where the unit is the partition's next,
the row's in the rate controller, and the half of the line store. Its patch memory is loaded again from the region's copy (R345, R351). -/
def restoreCkpt (r b p i row col : Nat) (s : State) : State :=
  match readCkpt r b s, picAt p i s with
  | some c, some y =>
    let old := getRow row y
    let s1 := if partNext p y row col s then restoreRope (smGet 0 (unitPart p y row col s) y.parts) c s else s
    let s2 := if old.started then
        onPic p i (setRow row { old with alloc := c.row.alloc, cap := c.row.cap, qp := c.row.qp, floor := c.row.floor }) s1 else s1
    onBlock r b (fun x => { x with half := c.half, patch := (getRegion r s).patch }) s2
  | _, _ => s

/-- BELAY_RERUN (R597, R591): the block restores the checkpoint and re-runs its row unit once for every fault pending; a cell's
spare takes its role. `work` are the re-run's requests inside the block, which go first (R20). -/
def belayRerun (r b : Nat) (work : List LocalReq) (s : State) : State :=
  let x := getBlock r b s
  let asks := x.reactions.any fun a => match a with | .rerun _ _ => true | .takeover => false
  if asks = false ∨ x.reactions.contains .takeover = true ∨ blkRole r b s ≠ 1 ∨ seqState r b s = 4 then s
  else
    let s1 := if x.spareWas ≠ 0 ∧ x.testing ≠ 0 then moveRole r b (x.spareWas - 1) (x.testing - 1) s else s
    let s2 := setBlock r b (localAsks (8 * r + b) work { x with reactions := [], spareWas := 0, passAt := s.now }) s1
    match x.running with
    | none => s2
    | some (p, i, row, col) =>
      let s3 := belayTraffic r p ckptWords (restoreCkpt r b p i row col (countRerun p i row col s2))
      setSeq r b 3 1 (fset (Reg.blkStatus r b) BlkStatus.blkReplay s3)

/-- The registers of a block that its standby takes over: slots and Rope pairs (R605), by offset in the block window. -/
def takeoverRegs : List Nat := [0x10, 0x14, 0x18, 0x1C, 0x20, 0x24, 0x28, 0x2C]

/-- What ROPE_STATUS of the standby shows of the Rope pair it takes over: all but its own ROPE_MISMATCH_CNT. -/
def takeoverRope (r b v q : Nat) (s : State) : State :=
  let put := fun (f : Fld) (a : State) => fput (Reg.ropeStatus r v q) f (fget (Reg.ropeStatus r b q) f a) a
  put RopeStatus.ropePipe (put RopeStatus.ropeCoder (put RopeStatus.ropeBusy s))

/-- The standby takes the slots, the Rope pairs' work and the personality of block `b`. The slots and the personality of `b` read 0 from
then on; its current slot and its cell roles keep what they read (assumption 163). -/
def takeoverRegisters (r b v : Nat) (s : State) : State :=
  let base := Reg.blkStatus r b
  let base' := Reg.blkStatus r v
  let copy := fun (a : State) (o : Nat) => wr (base' + o) (rd (base + o) s) a
  let s1 := (List.range 2).foldl (fun a q => takeoverRope r b v q a) (takeoverRegs.foldl copy s)
  let s2 := fput base' BlkStatus.blkPersonality (fget base BlkStatus.blkPersonality s)
    (fput base' BlkStatus.blkSlots (fget base BlkStatus.blkSlots s)
      (fput base' BlkStatus.blkCurSlot (fget base BlkStatus.blkCurSlot s) s1))
  let s3 := (List.range 8).foldl (fun a t => wr (Reg.blkSlot r b t) 0 a) (fput base BlkStatus.blkSlots 0
    (fput base BlkStatus.blkPersonality 0 s2))
  (List.range 2).foldl (fun a q => fclr (Reg.ropeStatus r b q) RopeStatus.ropeBusy a) s3

/-- The spare takes the ropes, the pipelines and the role of block `b`, which retires. -/
def takeoverRoles (r b v : Nat) (x : Block) (s : State) : State :=
  let s5 := remapParts (fun k => if k = ropeId r b 0 then ropeId r v 0 else if k = ropeId r b 1 then ropeId r v 1 else k) s
  let s6 : State := { s5 with comp := { s5.comp with pipes := s5.comp.pipes.map fun e =>
    { e with blocks := e.blocks.map fun k => if k = 8 * r + b then 8 * r + v else k } } }
  let s7 := setBlock r b { x with running := none, reactions := [], queues := [], ropes := [], turn := [], selfTest := true }
    (setBlkRole r b 3 (setBlkRole r v 1 (fput (Reg.rgcStatus r) RgcStatus.rgcStandby 0xF s6)))
  fclr (Reg.blkStatus r b) BlkStatus.blkReplay
    ((List.range 2).foldl (fun a q => fput (Reg.dqStatus r b q) DqStatus.dqFill 0 a) s7)

/-- The mesh cycles that a slot switch of 12,800 fabric cycles takes at the region's point (R24). -/
def switchCycles (r : Nat) (s : State) : Nat := ceilDiv (12800 * pointFactor (regionPoint r s)) 3

/-- The standby runs the unit that block `b` was running, from `b`'s checkpoint, once it has loaded the slot's state (R605). -/
def takeoverUnit (r b v : Nat) (run : Option (Nat × Nat × Nat × Nat)) (s : State) : State :=
  match run with
  | none => s
  | some (p, i, row, col) =>
    let s1 := countRerun p i row col (onPic p i (fun y =>
      let k := unitIndex y row col
      setUnit k { getUnit k y with block := 8 * r + v + 1 } y) s)
    let s2 := match readCkpt r b s1 with
      | some c => writeCkpt r v c s1
      | none => s1
    setSeq r v 4 1 (fset (Reg.blkStatus r v) BlkStatus.blkReplay
      (restoreCkpt r v p i row col (onBlock r v (fun y => { y with running := some (p, i, row, col) })
        (ownTraffic r slotWords (belayTraffic r p ckptWords s2)))))

/-- The standby takes the memories and the turns of block `b`, and what was in its Rope pairs is restored from checkpoints. -/
def takeoverBlock (r v : Nat) (x : Block) (s : State) : State :=
  onBlock r v (fun y => { y with
    lines := x.lines
    half := x.half
    turn := x.turn
    readyAt := s.now + switchCycles r s
    queues := []
    ropes := [] }) s

/-- The blocks whose row unit is coded by a Rope pair of block `b`. -/
def ropeUsers (r b : Nat) (s : State) : List Nat := (List.range 2).filterMap fun q => ropeVictim r b q s

/-- STANDBY_TAKEOVER (R605): standby block S loads block B's slot state, restores the checkpoints of the row units in progress on B or on
its Rope pairs and re-runs them, and carries B's slots from then on; B tests itself (R608). Where no standby block is left, B is
retired as at L3. -/
def standbyTakeover (r b : Nat) (s : State) : State :=
  let x := getBlock r b s
  if x.reactions.contains .takeover = false ∨ blkRole r b s ≠ 1 ∨ seqState r b s = 4 then s
  else
    match standbyOf r s with
    | none => retireBlock r b (degradeRegion r s)
    | some v =>
      let others := (ropeUsers r b s).filter fun k => k != 8 * r + b
      others.foldl (fun a k => addReaction k (.rerun 5 12) a) (takeoverUnit r b v x.running
        (assignRoles r v (persDecodes (fget (Reg.blkStatus r b) BlkStatus.blkPersonality s))
          (seqStart r b 6 0 false (takeoverBlock r v x (takeoverRoles r b v x (takeoverRegisters r b v s))))))

/-- BLOCK_SELFTEST_DONE (R608): the block becomes the standby, or records BLOCK_TEST and stays RETIRED. -/
def blockSelftestDone (r b : Nat) (pass : Bool) (s : State) : State :=
  let x := getBlock r b s
  if x.selfTest = false then s
  else
    let s1 := seqEnd r b (setBlock r b { x with selfTest := false } s)
    if pass then
      let s2 := setBlkRole r b 2 s1
      if fget (Reg.rgcStatus r) RgcStatus.rgcStandby s2 = 0xF then fput (Reg.rgcStatus r) RgcStatus.rgcStandby b s2 else s2
    else blockFault r b [⟨0x0A, 15, false, none⟩] s1

/-- The pass of a block has taken its 1,048,576 fabric cycles since it began, or began again with the region's power or after a re-run
(R601). -/
def passTaken (r b : Nat) (s : State) : Bool :=
  decide (max (getBlock r b s).passAt (getRegion r s).upAt + ceilDiv (1048576 * pointFactor (regionPoint r s)) 3 ≤ s.now)

/-- INSERVICE_PASS_DONE (R601 to R604): the cell under test, or the spare, ends its pass. -/
def inservicePassDone (r b : Nat) (pass : Bool) (s : State) : State :=
  let x := getBlock r b s
  let st := rgcState r s
  let c := if x.testing ≠ 0 then x.testing - 1 else blkSpare r b s
  if (st ≠ 1 ∧ st ≠ 2) ∨ 12 ≤ c ∨ passTaken r b s = false then s
  else if pass then setSpare r b c (setBlock r b { x with testing := 0, passDone := true, passAt := s.now } s)
  else blockFault r b [⟨4, c, false, none⟩] s

/-! ### Regions (R26, R31, R590, R609 to R611) -/

/-- Every pipeline homed on the region is lost (R611). -/
def homedLost (r : Nat) (s : State) : State :=
  (s.comp.pipes.filter fun e => e.home == r).foldl (fun a e => pipeLost e.pipe a) s

/-- The work of a block goes back: its row unit to the hand-out, and the partitions of its Rope pairs to be assigned. -/
def blockGivesUp (r b : Nat) (s : State) : State :=
  let s1 := remapParts (fun k => if k = ropeId r b 0 ∨ k = ropeId r b 1 then 0 else k) (dropRunning r b s)
  let s2 := (List.range 2).foldl (fun a q => flushQueue r b q (fclr (Reg.ropeStatus r b q) RopeStatus.ropeBusy a)) s1
  seqEnd r b (fclr (Reg.blkStatus r b) BlkStatus.blkReplay (onBlock r b (fun x => { x with reactions := [] }) s2))

/-- Picture work stops on the region, and the pipelines homed on it are lost (R611). -/
def pictureWorkStops (r : Nat) (s : State) : State :=
  homedLost r ((List.range 8).foldl (fun a b => blockGivesUp r b a) (setRegion r { getRegion r s with stopped := true } s))

/-- React to a Region Controller disagreement: outvote and resynchronise (R26), or with a core excluded, stop the picture work
of the region (R611). At L3 the outvoted core is excluded. What is shown where no core is resynchronised is the model's (assumption 87). -/
def reactVote (r lvl unit : Nat) (s : State) : State :=
  let x := getRegion r s
  if x.excluded ≠ 0 then pictureWorkStops r s
  else
    let s1 := fset (Reg.rgcStatus r) RgcStatus.rgcVoteEvent s
    let s2 := if unit < 3 then fput (Reg.rgcVote r) RgcVote.rgcLastMinority unit s1 else s1
    let s3 := bump (Reg.rgcVote r) RgcVote.rgcResyncCnt s2
    if unit < 3 then
      if 2 ≤ lvl then setRegion r { x with excluded := unit + 1, resync := 0 } s3 else setRegion r { x with resync := unit + 1 } s3
    else s3

/-- React to a region fault handled at level `lvl`. -/
def reactRegion (r lvl : Nat) (f : FaultIn) (s : State) : State :=
  let s1 := if 2 ≤ lvl then degradeRegion r s else s
  if f.cls = 0x10 then reactVote r lvl f.unit s1
  else if f.cls = 0x12 then
    let s2 := fset (Reg.rgcStatus r) RgcStatus.rgcIvrPhaseLost s1
    if lvl < 2 then s2
    else updatePoints { s2 with bc := { s2.bc with ivrHold := if s2.bc.ivrHold.contains r then s2.bc.ivrHold else s2.bc.ivrHold ++ [r] } }
  else s1

/-- A disagreement among all three cores counts as two RGC_VOTE faults (R591). -/
def voteTwice (f : FaultIn) : List FaultIn := if f.cls = 0x10 ∧ f.unit = 3 then [f, f] else [f]

def regionFaults (r : RegionId) (fs : List FaultIn) (s : State) : State :=
  if s.pwr.bypass then s
  else
    let l := (sortFaults (fs.flatMap voteTwice)).filter fun f => classOf (.region r) f.cls
    l.foldl (fun a f => reactRegion r (entryLevel (.region r) f.cls a) f (enterFault (.region r) f noPlace a)) s

/-- RGC_RESYNC_DONE (R26). -/
def rgcResyncDone (r : Nat) (s : State) : State := setRegion r { getRegion r s with resync := 0 } s

/-! ### Chip units (R404, R584, R590) -/

/-- The buffer whose table entry came back uncorrectable is HELD by owner 4,095 until reset (R404). -/
def quarantine (n : Nat) (s : State) : State :=
  match poolOfBuf n s with
  | none => s
  | some p =>
    let b := getBuf n s
    let s1 := setBuf n ⟨1, 1, 4095⟩ s
    if b.state = 1 then s1
    else if b.state = 0 then
      setHead p ((getHead p s1).filter (· != n)) (setFree p (poolFree p s1 - 1) (setHeld p (poolHeld p s1 + 1) s1))
    else setHeld p (poolHeld p s1 + 1) s1

/-- The L1 reaction of the reported-only chip classes, taken at every level. -/
def reactChip (f : FaultIn) (v : Victim) (s : State) : State :=
  match f.cls, v with
  | 0x21, .buffer n => quarantine n s
  | 0x22, _ => if f.unit < 4 then retrainFailed f.unit s else s
  | 0x23, .channel c => if dmaState c s = 2 ∨ dmaState c s = 3 then dmaHalt c 0xFF true s else s
  | 0x23, .source n => fset (Reg.icuSrcStat n) IcuSrcStat.ovf (fput (Reg.icuSrcStat n) IcuSrcStat.count 1 s)
  | 0x23, .port n => dropOther n s
  | _, _ => s

/-- CHIP_FAULT: a chip-class fault and what it strikes. -/
def chipFaultAt (f : FaultIn) (v : Victim) (s : State) : State :=
  if s.pwr.bypass = true ∨ classOf .chip f.cls = false then s else reactChip f v (chipFault f s)

/-- RETRAIN_DONE: the retraining in progress ends; a failed one is a fault of class 0x22 (R373, R584). -/
def retrainDone (c : Nat) (ok : Bool) (s : State) : State :=
  if (getMemCtl c s).training = 0 then s
  else
    let s1 := hostRun (retrainEnd c s)
    if ok then channelTrained c ((getMemCtl c s).training - 1) s1 else chipFaultAt ⟨0x22, c, false, none⟩ .none s1

/-! ### Fault injection (R619 to R622) -/

/-- The refusal of an injection (R620): 0 where it is allowed. -/
def injCode (u : FaultUnit) (v : Word) (s : State) : Nat :=
  let c := getF FltInject.injClass v
  let n := getF FltInject.injUnit v
  let badCell := match u with
    | .block r b => isCell c && (n == blkSpare r b s || !cellOk r b n s)
    | _ => false
  let noWork := match u with
    | .block r b => blkRole r b s == 2 || fget (Reg.blkStatus r b) BlkStatus.blkSlots s == 0
    | _ => false
  if classOf u c = false ∨ getF FltInject.injLevel v = 3 ∨ badCell = true then 0xEA
  else if noWork then 0xEB
  else 0

/-- A guarded write to FLT_INJECT (R619): its fields are kept, and INJ_GO arms, replaces, disarms or is refused. -/
def injectWrite (u : FaultUnit) (v : Word) (s : State) : State :=
  let b := faultBase u
  let s1 := fput (Reg.fltInject b) FltInject.injLevel (getF FltInject.injLevel v)
    (fput (Reg.fltInject b) FltInject.injClass (getF FltInject.injClass v)
      (fput (Reg.fltInject b) FltInject.injUnit (getF FltInject.injUnit v)
        (fput (Reg.fltInject b) FltInject.injDelay (getF FltInject.injDelay v) s)))
  if getF FltInject.injGo v = 0 then s1
  else if getF FltInject.injClass v = 0 then
    fput (Reg.fltStatus b) FltStatus.injRefuse 0
      (fclr (Reg.fltStatus b) FltStatus.injArmed { s1 with injs := smDel (unitKey u) s1.injs })
  else
    let code := injCode u v s
    let s2 := fput (Reg.fltStatus b) FltStatus.injRefuse code s1
    if code ≠ 0 then s2
    else fset (Reg.fltStatus b) FltStatus.injArmed { s2 with
      injs := smPut (unitKey u) ⟨getF FltInject.injLevel v, getF FltInject.injClass v, getF FltInject.injUnit v,
        getF FltInject.injDelay v, match u with | .block _ _ => none | _ => some s.now⟩ s2.injs }

/-- Faults of a unit that arrive in one cycle. -/
def unitFaults (u : FaultUnit) (fs : List FaultIn) (s : State) : State :=
  match u with
  | .chip => fs.foldl (fun a f => chipFaultAt f .none a) s
  | .region r => regionFaults r fs s
  | .block r b => blockFault r b fs s

/-- The delay of an armed injection has passed (R619): in units of 16 mesh cycles in the chip fault unit, of 16 fabric cycles elsewhere. -/
def injDue (u : FaultUnit) (j : Inj) (s : State) : Bool :=
  match j.since with
  | none => false
  | some t =>
    let fabric := fun (r : Nat) => ceilDiv (16 * j.delay * pointFactor (regionPoint r s)) 3
    let n := match u with | .chip => 16 * j.delay | .region r => fabric r | .block r _ => fabric r
    decide (t + n ≤ s.now)

/-- The delay of an injection armed in a block counts from the start of its row unit, and starts anew with the next one where the row unit ends
first (R619). -/
def injStarts (r b : Nat) (s : State) : State :=
  let k := 17 + 8 * r + b
  match smFind k s.injs with | some j => { s with injs := smPut k { j with since := some s.now } s.injs } | none => s
def injWaits (r b : Nat) (s : State) : State :=
  let k := 17 + 8 * r + b
  match smFind k s.injs with | some j => { s with injs := smPut k { j with since := none } s.injs } | none => s

/-- INJECTION_FIRE (R621, R622): the armed injection is recorded as injected and acts at INJ_LEVEL, raised by R589 and R590; a
real fault of the same cycle is recorded first and has the one reaction. A class from 0x30 is recorded at L4 and has none. -/
def injectionFire (u : FaultUnit) (both : Bool) (real : List FaultIn) (s : State) : State :=
  match smFind (unitKey u) s.injs with
  | none => s
  | some j =>
    if curMode s = 5 ∨ injDue u j s = false then s
    else
      let f : FaultIn := ⟨j.cls, j.unit, both, none⟩
      let b := faultBase u
      let s1 := fset (Reg.fltStatus b) FltStatus.injFired
        (fclr (Reg.fltStatus b) FltStatus.injArmed { s with injs := smDel (unitKey u) s.injs })
      let reals := real.filter fun g => classOf u g.cls
      let s2 := unitFaults u reals s1
      let lvl := if isL4 j.cls then 3 else raiseLevel u j.cls j.level s2
      let s3 := recordFault u true lvl f (faultPlace u f s) s2
      if reals.isEmpty = false ∨ isL4 j.cls = true then s3
      else
        match u with
        | .chip => reactChip f .none s3
        | .region r => reactRegion r lvl f s3
        | .block r c => reactBlock r c lvl f s3

end Sys2Proof.Machine
end

