-- ==== Sys2Proof/Machine/Region.lean ====
section
/-! DEFINITION. Region power and DVFS points, the actions of regions and of the chip (R78, R90 to R96), power capping, and
BCM_REGION_OFF (chapters "Raster time and the schedule", "Start-up ...", "Base Camp ..."). -/

namespace Sys2Proof.Machine

open Sys2Proof

/-! ### Idle blocks and gating (R171, R637) -/

/-- The region's blocks are idle (R354): none codes a row unit and no sequencer is in a routine. -/
def blocksIdle (r : Nat) (s : State) : Bool :=
  (List.range 8).all fun b => (getBlock r b s).running.isNone && seqState r b s != 1 && seqState r b s != 2

/-- In BIVOUAC or MAINTAIN a region woken for its Region Controller is gated again once the last source delivered to it is
acknowledged (R575). -/
def wakeRegate (r : Nat) (s : State) : State :=
  if smGet false r s.icu.wakes && rgcQuiet r s && (curMode s == 2 || curMode s == 4) && rgcState r s == 1 then gateRegion r s else s

/-- A picture started on the region is incomplete, or a pipeline that uses it has unwritten records (R91, R171). -/
def regionWork (r : Nat) (s : State) : Bool := (regionPipes r s).any fun e => !pipeDrained (getPipe e.pipe s)

/-- REGION_IDLE (R171): an ACTIVE region with no work left returns to READY. -/
def regionIdle (r : Nat) (s : State) : State := if rgcState r s = 2 ∧ regionWork r s = false then setRgcState r 1 s else s

/-! ### Region actions (R90 to R92, R166, R172, R637, R638) -/

/-- Take a region action once the blocks are idle. -/
def takeRegionAct (r : Nat) (a : RegionAct) (s : State) : State :=
  match a with
  | .gate => if rgcState r s = 1 then gateRegion r s else s
  | .up => if rgcState r s = 0 ∧ regionHeld r s = false then powerUp r s else s
  | .dvfs v =>
    if v = 3 ∨ s.bc.ivrHold.contains r = true then s
    else updatePoints { s with bc := { s.bc with dvfsAsked := smSet (s.comp.dvfsPoints / 4 ^ r % 4) r v s.bc.dvfsAsked } }

def waitingActs (r : Nat) (s : State) : List RegionAct := smGet [] r s.bc.waiting
def setWaitingActs (r : Nat) (l : List RegionAct) (s : State) : State :=
  { s with bc := { s.bc with waiting := smSet [] r l s.bc.waiting } }

/-- An action can be taken now: the blocks are idle, and a gate finds the region out of ACTIVE. -/
def actReady (r : Nat) (a : RegionAct) (s : State) : Bool :=
  blocksIdle r s && (match a with | .gate => rgcState r s != 2 | _ => true)

/-- The point that the last REGION_DVFS asked for, one that waits included. -/
def lastAsked (r : Nat) (s : State) : Nat :=
  (waitingActs r s).foldl (fun v a => match a with | .dvfs w => w | _ => v) (askedPoint r s)

/-- As it reaches its region an action finds nothing to do (R76, R172): the region is in the state or at the point asked for, or in one that the
action does not apply to. -/
def actMoot (r : Nat) (a : RegionAct) (s : State) : Bool :=
  match a with
  | .up => rgcState r s != 0 || regionHeld r s
  | .gate => rgcState r s != 1 && rgcState r s != 2
  | .dvfs v => v == 3 || s.bc.ivrHold.contains r || lastAsked r s == v

/-- A region action reaches its region (R76, R166): outside RUN it is a NOP. It waits behind an earlier one and for idle. -/
def regionAct (r : Nat) (a : RegionAct) (s : State) : State :=
  if curMode s ≠ 3 ∨ actMoot r a s = true then s
  else if (waitingActs r s).isEmpty ∧ actReady r a s = true then takeRegionAct r a s
  else setWaitingActs r (waitingActs r s ++ [a]) s

/-- REGION_ACTION_AT_IDLE (R638): the oldest deferred action of the region is taken. -/
def regionActAtIdle (r : Nat) (s : State) : State :=
  match waitingActs r s with
  | [] => s
  | a :: l => if actReady r a s then takeRegionAct r a (setWaitingActs r l s) else s

/-- REGION_UP, REGION_GATE and REGION_DVFS reach region `r`. -/
def regionUp (r : Nat) (s : State) : State := onAction actRegionUp r (fun _ t => regionAct r .up t) s
def regionGate (r : Nat) (s : State) : State := onAction actRegionGate r (fun _ t => regionAct r .gate t) s
def regionDvfs (r : Nat) (s : State) : State :=
  onAction actRegionDvfs r (fun a t => regionAct r (.dvfs (a.arg % 4)) t) s

/-- RECOMPOSE_REGATE (R168). -/
def recomposeRegate (r : Nat) (s : State) : State :=
  let x := getRegion r s
  if x.regateDue = true ∧ (curMode s = 2 ∨ curMode s = 4) ∧ rgcState r s = 1 ∧ blocksIdle r s = true then gateRegion r (setRegion r { x with regateDue := false } s) else s

/-! ### Actions of the chip (R93, R95, R96) -/

/-- Modes in which actions of the chip act (R166). -/
def actsInMode (s : State) : Bool := curMode s == 2 || curMode s == 3 || curMode s == 4

def nopAction (n : Nat) (s : State) : State := onAction actNop n (fun _ t => t) s

/-- HBM_RETRAIN: SE_TARGET[5:4] is the controller, [3:0] the channel. -/
def hbmRetrainAction (c ch : Nat) (s : State) : State :=
  onAction actHbmRetrain (16 * c + ch) (fun _ t => if actsInMode t then hbmRetrain c ch t else t) s

def trigOutAction (n : Nat) (s : State) : State :=
  onAction actTrigOut n (fun a t => if actsInMode t then trigOut n a.dom a.arg t else t) s

def irqAction (n : Nat) (s : State) : State :=
  onAction actIrq n (fun a t => if actsInMode t then raise (96 + a.arg % 32) t else t) s

def ringMark (n : Nat) (s : State) : State :=
  onAction actRingMark n (fun a t => if actsInMode t then ringMarkAction a t else t) s

/-! ### BCM_REGION_OFF (R640) -/

/-- A guarded write to BCM_REGION_OFF by domain `d`: dropped where it holds a region that an enabled pipeline uses. READY
regions that it holds are gated, and an ACTIVE one when it is idle. -/
def regionOffWrite (d : Nat) (v : Word) (s : State) : State :=
  let n := getF BcmRegionOff.off v
  let bits := (List.range 16).filter fun r => n.testBit r
  if bits.any fun r => !(enabledOn r s).isEmpty then accessErr d kindState Reg.bcmRegionOff s
  else
    bits.foldl (fun a r =>
      if rgcState r a = 1 then gateRegion r a
      else if rgcState r a = 2 then setWaitingActs r (waitingActs r a ++ [.gate]) a
      else a) (fput Reg.bcmRegionOff BcmRegionOff.off n s)

/-! ### Power capping (R641, R642) -/

def lastOf (l : List Nat) : Option Nat := l.getLast?

/-- Lower region `r` by one point below the one in force. -/
def lowerRegion (r : Nat) (s : State) : State :=
  updatePoints { s with bc := { s.bc with
    capLevel := smSet 0 r (regionPoint r s + 1) s.bc.capLevel, lowered := s.bc.lowered ++ [r] } }

/-- Raise region `r` by the step taken last. -/
def raiseRegion (r : Nat) (s : State) : State :=
  updatePoints { s with bc := { s.bc with
    capLevel := smSet 0 r (smGet 0 r s.bc.capLevel - 1) s.bc.capLevel, lowered := s.bc.lowered.dropLast } }

/-- The pipeline to shed: the highest number among the enabled pipelines with PE_FLAGS.SHED. -/
def shedPipe (s : State) : Option Nat :=
  (sortBy (fun n => n) ((s.comp.pipes.filter fun e => e.flags.testBit 1 && pipeEnabled e.pipe s).map (·.pipe))).getLast?

/-- The powered region above 0.8 GHz that draws the most power (sensors 32 to 47), the lowest on a tie. -/
def hungriest (s : State) : Option Nat :=
  ((List.range 16).filter fun r => rgcState r s != 0 && decide (regionPoint r s < 2)).foldl (fun best r =>
    match best with
    | none => some r
    | some m => if sensorInt (32 + m) s < sensorInt (32 + r) s then some r else best) none

/-- One step down (R641): gate idle READY regions, else shed a pipeline, else lower a region. Nothing is left to do where none
applies. The answer tells whether a step was taken. -/
def stepDown (s : State) : Bool × State :=
  let ready := (List.range 16).filter fun r => rgcState r s == 1 && !regionWork r s && blocksIdle r s
  match ready with
  | r :: _ => (true, logWrite logCap 1 r 0 (ready.foldl (fun a k => gateRegion k a) s))
  | [] =>
    match shedPipe s with
    | some p =>
      (true, logWrite logCap 2 p 0 (raise 11 (bump Reg.bcmShedCnt BcmShedCnt.count (pipFault p PipFault.shed (pipeDisable p s)))))
    | none =>
      match hungriest s with
      | some r => (true, logWrite logCap 3 r 0 (lowerRegion r s))
      | none => (false, s)

/-- CAP_ACTIVE or THROTTLE is set while a step is in force, and its source is raised when it first becomes set (R642). -/
def markStep (cap therm : Bool) (s : State) : State :=
  let s1 := if cap then raiseWhen (!fbit Reg.bcmStatus BcmStatus.capActive s) 10 (fset Reg.bcmStatus BcmStatus.capActive s) else s
  let s2 := if therm then raiseWhen (!fbit Reg.bcmStatus BcmStatus.throttle s1) 9 (fset Reg.bcmStatus BcmStatus.throttle s1) else s1
  { s2 with bc := { s2.bc with capStep := s2.bc.capStep || cap, thermStep := s2.bc.thermStep || therm } }

/-- No step is in force any more. -/
def clearSteps (s : State) : State :=
  fclr Reg.bcmStatus BcmStatus.throttle (fclr Reg.bcmStatus BcmStatus.capActive
    { s with bc := { s.bc with capStep := false, thermStep := false } })

/-- WINDOW_MS in the units of Base Camp's time: 0 acts as 1. -/
def windowPs (s : State) : Nat := max 1 (fget Reg.bcmPowerCap BcmPowerCap.windowMs s) * msPs

/-- The average of sensor 31 over the window, in 0.1 W: the last one where there was no sample. -/
def windowAverage (s : State) : Nat :=
  if s.bc.powerCount = 0 then fget Reg.bcmPower BcmPower.average s else (s.bc.powerSum / s.bc.powerCount).toNat % 2 ^ 16

/-- A new window begins. -/
def newWindow (s : State) : State :=
  { s with bc := { s.bc with windowAt := s.bc.auxPs, powerSum := 0, powerCount := 0 } }

/-- POWER_WINDOW (R641): a window has passed; its average is kept, and one step down, or one raise, is taken. -/
def powerWindow (s0 : State) : State :=
  if fwRuns s0 = false ∨ s0.pwr.bypass = true ∨ s0.bc.auxPs < s0.bc.windowAt + windowPs s0 then s0
  else
    let a := windowAverage s0
    let s := newWindow s0
    let s1 := fput Reg.bcmPower BcmPower.peak (max a (fget Reg.bcmPower BcmPower.peak s)) (fput Reg.bcmPower BcmPower.average a s)
    let capTenths := 10 * effectiveCap s
    let capped := decide (capTenths < a)
    let hot := decide (16 * (throttleC s : Int) ≤ tMax s)
    if capped ∨ hot then
      let r := stepDown { s1 with bc := { s1.bc with lowSince := none } }
      if r.1 then markStep capped hot r.2 else r.2
    else if 20 * a < 19 * capTenths ∧ tMax s < 16 * ((throttleC s : Int) - 5) then
      let n := s1.bc.lowSince.getD s0.bc.windowAt
      let s2 : State := { s1 with bc := { s1.bc with lowSince := some n } }
      if s2.bc.auxPs < n + secondPs then s2
      else
        match lastOf s2.bc.lowered with
        | some r =>
          let s3 := logWrite logCap (3 + 256) r 0 (raiseRegion r s2)
          if s3.bc.lowered.isEmpty then clearSteps s3 else s3
        | none => clearSteps s2
    else { s1 with bc := { s1.bc with lowSince := none } }

end Sys2Proof.Machine
end

