-- ==== Sys2Proof/Machine/Encode.lean ====
section
/-! DEFINITION. Pipelines: enable, disable, hand-over and the writes to their sets; starting an encoded picture and
the budget of a picture (chapters "Encoding" and "Rate control ..."). -/

namespace Sys2Proof.Machine

open Sys2Proof

/-! ### Parameter sets (R222 to R230) -/

/-- Offsets of the shadow sets in the window; an active register lies 0x100 below its shadow. -/
def shadowOffsets : List Nat :=
  ((List.range 32).map fun i => 0x200 + 4 * i) ++ ((List.range 16).map fun i => 0x400 + 4 * i)
    ++ ((List.range 35).map fun i => 0x600 + 4 * i)

def pipWindow (p : Nat) : Nat := 0x800000 + 0x1000 * p

/-- Copy every shadow set to its active set. -/
def copyShadow (p : Nat) (s : State) : State :=
  shadowOffsets.foldl (fun a o => wr (pipWindow p + o - 0x100) (rd (pipWindow p + o) s) a) s

/-- Copy every active set to its shadow set. -/
def copyActive (p : Nat) (s : State) : State :=
  shadowOffsets.foldl (fun a o => wr (pipWindow p + o) (rd (pipWindow p + o - 0x100) s) a) s

def shadowPending (p : Nat) (s : State) : Bool := fbit (Reg.pipShadowPending p) PipShadowPending.pending s
def setPending (p : Nat) (s : State) : State := fset (Reg.pipShadowPending p) PipShadowPending.pending s
def clearPending (p : Nat) (s : State) : State := fclr (Reg.pipShadowPending p) PipShadowPending.pending s

/-- IMP_SEED of the active set, and the generator it seeds (R238). -/
def impSeedOf (p : Nat) (s : State) : Word := seedOf (rd (Reg.impSeed (encActive p)) s)

/-- A write to a shadow register at window offset `o` (R223): the word stands, and PENDING is set. -/
def shadowWrite (p o : Nat) (w : Word) (s : State) : State :=
  let s1 := setPending p (wr (pipWindow p + o) w s)
  if o = 0x220 ∧ pipeDecodes p s = false then onPipe p (fun x => { x with seedWritten := true }) s1 else s1

/-- Writing 1 to DISCARD (R230). -/
def shadowDiscard (p : Nat) (s : State) : State :=
  clearPending p (onPipe p (fun x => { x with seedWritten := false }) (copyActive p s))

/-- The registers that a row unit reads at its start (R228): ENC_SEARCH, ENC_TOOLS and ENC_QUANT. -/
def unitOffsets : List Nat := [0x110, 0x114, 0x118]

/-- A value written directly to a register that row units read stands for those still to start of every picture in progress. A hand-over
leaves those pictures their values (assumption 164). -/
def unitWrite (o : Nat) (w : Word) (x : Pipe) : Pipe :=
  { x with pics := x.pics.map fun y => if y.complete then y else { y with sets := smSet 0 o w y.sets, direct := true } }

/-- A direct write to the active register at window offset `o` by domain `d` (R212, R228, R277): on an enabled pipeline
ACTIVE_WRITE is set and the next PIC_START checks the sets. RC_CUR_QP and RC_FULLNESS replace the state of the rate
controller. `clash` tells that the hardware updates the field in the same cycle: the write wins, with FIELD_OVERRUN. -/
def activeWrite (d p o : Nat) (w : Word) (clash : Bool) (s : State) : State :=
  let s1 := wr (pipWindow p + o) w s
  let s2 := if clash then fieldOverrun d (pipWindow p + o) s1 else s1
  let s3 := if o = 0x340 then onPipe p (fun x => { x with hadIntra := false, hadInter := false }) s2 else s2
  if pipeEnabled p s then
    pipEvent p PipStatus.activeWrite (onPipe p (fun x =>
      if o = 0x340 ∨ o = 0x344 then { x with activeWritten := true, rcWritten := true }
      else
        let y : Pipe := { x with activeWritten := true, directInForce := true }
        if unitOffsets.contains o = true ∧ pipeDecodes p s = false then unitWrite o w y else y) s3)
  else s3

/-! ### Enable and disable (R231 to R234) -/

/-- PIP registers and DEC_CONCEAL.START, which are read at enable. -/
def latchOffsets : List Nat := [0x0C, 0x20, 0x24, 0x28, 0x48, 0x10C]

def latchPip (p : Nat) (s : State) : SMap Word :=
  latchOffsets.foldl (fun m o => smSet 0 o (rd (pipWindow p + o) s) m) []

/-- Registers that enable sets to 0: the picture and record counts and the counts "since enable". -/
def enableCleared (p : Nat) : List Nat :=
  [Reg.pipPicCnt p, Reg.pipRecWr p, Reg.pipRecRd p, Reg.pipRecDrop p, Reg.decEvtCnt p, Reg.decConcealCnt p,
    Reg.decMissingCnt p, Reg.decLateBytes p, Reg.pipBudgetStat p]

/-- The rate controller at enable (R254, R259): F_0, no carry, no history. Only an encoder has one. -/
def rcStart (p : Nat) (s : State) : State :=
  if pipeDecodes p s then s
  else
    let b := rcActive p
    wr (Reg.rcCurQp b) 0 (wr (Reg.rcCarry b) 0 (fput (Reg.rcStatus b) RcStatus.floorCnt 0
      (wr (Reg.rcFullness b) (BitVec.ofNat 32 (initialLevel (paramsOf p 0 s))) s)))

/-- The check has passed: the pipeline runs from picture 0. -/
def startPipe (p : Nat) (s : State) : State :=
  let s1 := (enableCleared p).foldl (fun a o => wr o 0 a) (dropWork p s)
  let s2 := rcStart p (fset (Reg.pipStatus p) PipStatus.running (fset (Reg.pipCtl p) PipCtl.enable (pipRefuse p (0, 0x3FF) s1)))
  setPipe p { Pipe.init with latched := latchPip p s2, x := impSeedOf p s2 } s2

/-- Setting PIP_CTL.ENABLE from 0 (R231): the pending copy stands whether or not the check passes. -/
def pipeEnable (p : Nat) (s : State) : State :=
  let s1 := if shadowPending p s then
      clearPending p (onPipe p (fun x => { x with seedWritten := false }) (copyShadow p s))
    else s
  let r := enableCheck p s1
  if r.1 = 0 then startPipe p s1 else pipRefuse p r s1

/-- A write to PIP_CTL (R231 to R234). While REGION_SELFTEST holds a region of the pipeline, an enable aborts it and waits for
its end (R624); `hold` tells so. -/
def pipCtlWrite (p : Nat) (v : Word) (hold : Bool) (s : State) : State :=
  let s1 := fput (Reg.pipCtl p) PipCtl.picIrq (getF PipCtl.picIrq v) s
  if getF PipCtl.enable v = 1 then
    if pipeEnabled p s then s1
    else if hold then { s1 with cmd := { s1.cmd with enableWait := s1.cmd.enableWait.filter (· != p) ++ [p] } }
    else pipeEnable p s1
  else if pipeEnabled p s then pipeDisable p s1
  else { s1 with cmd := { s1.cmd with enableWait := s1.cmd.enableWait.filter (· != p) } }

/-! ### HANDOVER (R224 to R227, R271, R276) -/

/-- After a copy: F is kept within the new S where S or the fill rate changed, and a change of MODE clears carry and D. -/
def rcHandover (p : Nat) (old new : Params) (s : State) : State :=
  let b := rcActive p
  let f := sint (rd (Reg.rcFullness b) s)
  let s1 := if old.cpbBits ≠ new.cpbBits ∨ old.fillRate ≠ new.fillRate then
      wr (Reg.rcFullness b) (BitVec.ofInt 32 (min f new.cpbBits)) s
    else s
  if old.rcMode ≠ new.rcMode then wr (Reg.rcCarry b) 0 (onPipe p (fun x => { x with sumD := 0 }) s1) else s1

/-- The hand-over of pending shadow sets. -/
def copyHandover (p : Nat) (s : State) : State :=
  let old := paramsOf p 0 s
  let s1 := bumpWrap (Reg.pipHandover p) PipHandover.hoCount (clearPending p (copyShadow p s))
  let seeded := (getPipe p s).seedWritten
  let s2 := onPipe p (fun x => { x with
    x := if seeded then impSeedOf p s1 else x.x
    seedWritten := false
    handedOver := true
    activeWritten := false
    directInForce := false }) (pipRefuse p (0, 0x3FF) s1)
  if pipeDecodes p s then s2 else rcHandover p old (paramsOf p 0 s2) s2

/-- The pipeline's HANDOVER: it copies, or refuses the copy, or with nothing to copy only begins the map read. -/
def handover (p : Nat) (s : State) : State :=
  if pipeEnabled p s = false then s
  else
    let s1 :=
      if shadowPending p s = true ∧ fbit (Reg.pipHandover p) PipHandover.hoHold s = false then
        let r := setCheck p 1 s
        if r.1 = 0 then copyHandover p s
        else onPipe p (fun x => { x with hoRefused := true }) (pipEvent p PipStatus.hoRefused (pipRefuse p r s))
      else s
    if pipeDecodes p s = false ∧ (paramsOf p 0 s1).fld 0x580 RoiMapCtl.mapEn = 1 then
      onPipe p (fun x => { x with mapPending := true }) s1
    else s1

/-- Pipeline and port actions act in RUN alone (R76, R165, R166). -/
def inRun (s : State) : Bool := curMode s == 3

def handoverAction (p : Nat) (s : State) : State := onAction actHandover p (fun _ t => if inRun t then handover p t else t) s

/-! ### The picture budget at PIC_START (R259) -/

/-- The row activities of a picture; those of a picture whose capture is not whole at its start are the model's free values. -/
def picRowActs (p : Nat) (q : Params) (y : Pic) (s : State) : List Nat :=
  let c := getCap y.cap (getPipe p s)
  if (linesMissing q.width c 0 q.height).isEmpty then rowActivities q y.idx c y.map
  else (List.range q.ctuRows).map (Config.earlyActivity y.idx)

/-- The history of pictures of a kind: last base QP, bits and activity. -/
def rcHistory (p : Nat) (intra : Bool) (s : State) : Option (Nat × Nat × Nat) :=
  let x := getPipe p s
  let b := Reg.rcCurQp (rcActive p)
  if intra then if x.hadIntra then some (fget b RcCurQp.qpPrevIntra s, x.bIntra, x.actIntra) else none
  else if x.hadInter then some (fget b RcCurQp.qpPrevInter s, x.bInter, x.actInter) else none

/-! ### Picture types and references (R217 to R221) -/

def isIrap (q : Params) (i : Nat) : Bool :=
  let n := q.fld 0x10C EncGop.intraPeriod
  i == 0 || (n != 0 && i % n == 0)

/-- PR_KIND's type: 0 IDR or key, 1 CRA, 2 P, 3 low-delay B, 4 intra that is no IRAP. -/
def picKind (q : Params) (i : Nat) : Nat :=
  if isIrap q i then
    if i ≠ 0 ∧ q.fld 0x10C EncGop.openGop = 1 ∧ (q.codec = 2 ∨ q.codec = 3) then 1 else 0
  else if q.fld 0x10C EncGop.struct = 0 then 4
  else if (q.fld 0x114 EncTools.tools).testBit 12 then 3
  else 2

/-- The temporal layer in HIER_LD; pictures of other structures are of layer 0 (R219, R259). -/
def picLayer (q : Params) (i : Nat) : Nat :=
  if q.fld 0x10C EncGop.struct = 2 then (match i % 4 with | 0 => 0 | 2 => 1 | _ => 2) else 0

/-- The reference pictures of picture `i` whose last IRAP is `k`, the latest first (R219, R221); the lists of a B picture both draw on
them. -/
def refList (q : Params) (i k : Nat) : List Nat :=
  let n := q.fld 0x10C EncGop.refs
  let earlier := (List.range (i - k)).map fun j => i - 1 - j
  if kindIntra (picKind q i) then []
  else
    match q.fld 0x10C EncGop.struct with
    | 2 =>
      let l := picLayer q i
      (earlier.filter fun j => decide (picLayer q j < l) || (l == 0 && picLayer q j == 0)).take n
    | 3 =>
      let per := q.fld 0x10C EncGop.ltPeriod
      let lt := if per = 0 then i else (i - 1) / per * per
      ((earlier.filter (· != lt)).take (n - 1)) ++ (if earlier.contains lt then [lt] else [])
    | _ => earlier.take n

/-! ### The picture's budget and headers (R258, R259) -/

/-- What a picture's headers rest on. -/
def headCtx (p : Nat) (y : Pic) (f : Int) (s : State) : HeadCtx := ⟨pipeChroma p s, domInterlaced (pipeDomain p s) s, y.irap, f⟩

/-- Set the budget, the ceiling, the base QP and the headers of a picture. -/
def budgetPic (p : Nat) (q : Params) (y : Pic) (s : State) : Pic :=
  let acts := picRowActs p q y s
  let d := pipeDomain p s
  let rate := pictureRate d (q.fm d s) s
  let f := sint (rd (Reg.rcFullness (rcActive p)) s)
  let inc := modelInc q y.idx rate
  let bMin := minSize q f inc
  let carry := sint (rd (Reg.rcCarry (rcActive p)) s)
  let raw := rawTarget q y.idx (budgetWeight q y.intra y.layer) f carry (getPipe p s).sumD bMin rate
  let act := sumNat acts
  let t := match raw with | some v => clampTarget q y.idx f bMin v | none => 0
  let z : Pic := { y with stress := isStress q y.idx }
  let c := headCtx p z f s
  { z with
    rowActs := acts
    act := act
    target := t
    targetOn := raw.isSome
    ceiling := if reserveOn q y.idx then some f else none
    bMin := bMin
    reserve := reserveOn q y.idx
    qpPic := pictureQp q y.intra act t (rcHistory p y.intra s)
    heads := headUnits q c z true
    rawHeads := headUnits q c z false
    headerBits := headBits q (headUnits q c z false) z
    budgeted := true }

/-- The oldest picture in progress gets its budget once it can: its map is in, and no picture is before it, so that the state of the rate
controller is the one before this picture. -/
def tryBudget (p : Nat) (s : State) : State :=
  match (getPipe p s).pics.find? fun y => !y.complete with
  | none => s
  | some y => if y.budgeted = true ∨ y.mapReady = false then s else onPic p y.idx (fun _ => budgetPic p (picParams p y s) y s) s

/-! ### PIC_START, encode (R18, R23, R78, R195, R196, R214, R215, R229, R239) -/

/-- The slot of pipeline `p` on a block. -/
def slotOf (p r b : Nat) (s : State) : Option Nat := (List.range 8).find? fun t => slotPipe r b t s == some p

/-- The pipeline whose slot a block runs. -/
def curSlotPipe (r b : Nat) (s : State) : Option Nat := slotPipe r b (fget (Reg.blkStatus r b) BlkStatus.blkCurSlot s) s

/-- A block may switch from its slot: a picture boundary of the outgoing pipeline, no re-run (R23), and no routine that runs (R354). -/
def maySwitch (r b : Nat) (s : State) : Bool :=
  (getBlock r b s).running.isNone && !fbit (Reg.blkStatus r b) BlkStatus.blkReplay s && (seqState r b s == 0 || seqState r b s == 3)
    && (match curSlotPipe r b s with | some p => (getPipe p s).pics.all (·.complete) | none => true)

/-- The pipeline whose turn it is on a block (R25): that of the oldest picture started on it that is not complete. -/
def turnOf (r b : Nat) (s : State) : Option Nat :=
  ((getBlock r b s).turn.find? fun e => (getPipe e.1 s).pics.any fun y => y.idx == e.2 && !y.complete).map Prod.fst

/-- The state of slot `t` of a block in region memory: the second copy where the first is poisoned. -/
def readSlot (r b t : Nat) (s : State) : Option SlotSt :=
  let x := getRegion r s
  smGet none (2 * (8 * b + t)) x.slots <|> smGet none (2 * (8 * b + t) + 1) x.slots

/-- Write the state of slot `t` of a block to region memory in two copies (R24, R595). -/
def writeSlot (r b t : Nat) (v : SlotSt) (s : State) : State :=
  let x := getRegion r s
  setRegion r { x with slots := smSet none (2 * (8 * b + t)) (some v) (smSet none (2 * (8 * b + t) + 1) (some v) x.slots) } s

/-- Switch a block to the slot of pipeline `p`, where it is another, the block may and it is the pipeline's turn (R23 to R25): the block's state
goes to region memory, the other's comes from there, and the block is taken for 12,800 fabric cycles. -/
def slotSwitch (p r b : Nat) (s : State) : State :=
  let cur := fget (Reg.blkStatus r b) BlkStatus.blkCurSlot s
  match slotOf p r b s with
  | none => s
  | some t =>
    if t = cur ∨ maySwitch r b s = false ∨ ((turnOf r b s).getD p) ≠ p then s
    else
      let x := getBlock r b s
      let s1 := match slotPipe r b cur s with | some o => writeSlot r b cur ⟨o, x.lines, x.half⟩ s | none => s
      let v := (readSlot r b t s1).getD ⟨p, [], false⟩
      let s2 := setSeq r b 2 1 (setBlock r b { x with lines := v.lines, half := v.half, readyAt := s.now + switchCycles r s } s1)
      ownTraffic r (2 * slotWords + slotWords)
        (bumpWrap (Reg.blkSwitchCnt r b) BlkSwitchCnt.blkSwitchCnt (fput (Reg.blkStatus r b) BlkStatus.blkCurSlot t s2))

/-- A slot switch that has taken its time ends. -/
def settleSwitch (r b : Nat) (s : State) : State :=
  if fget (Reg.seqStatus r b) SeqStatus.seqRoutine s = 2 ∧ seqState r b s = 1 ∧ (getBlock r b s).readyAt ≤ s.now then seqEnd r b s else s

/-- Prepare a block of pipeline `p` for picture `i`: its turn, its slot, its cells, and its region becomes ACTIVE. -/
def prepareBlock (p i k : Nat) (s : State) : State :=
  let r := k / 8
  let b := k % 8
  let s0 := onBlock r b (fun x => { x with
    turn := (x.turn.filter fun e => (getPipe e.1 s).pics.any fun y => y.idx == e.2 && !y.complete) ++ [(p, i)] }) s
  let s1 := slotSwitch p r b s0
  let s2 := if (getBlock r b s1).running.isNone then assignRoles r b (pipeDecodes p s1) s1 else s1
  if rgcState r s2 = 1 then setRgcState r 2 s2 else s2

def prepareBlocks (p i : Nat) (s : State) : State :=
  match pipeEntry p s with
  | none => s
  | some e => (blocksInService e s).foldl (fun a k => prepareBlock p i k a) s

/-- The Region Controller of the home region schedules (R44): the region is up. -/
def homeReady (p : Nat) (s : State) : Bool :=
  match pipeEntry p s with
  | none => false
  | some e => rgcState e.home s == 1 || rgcState e.home s == 2 || rgcState e.home s == 4

/-- The capture picture a PIC_START codes: the oldest one not coded yet, of field `field2` where fields are coded apart (R214), and whether
the most recent one is coded again (R195). -/
def pickCapture (x : Pipe) (field2 : Option Bool) : Option (Nat × Bool) :=
  let ours := fun k => match field2 with | some b => (getCap k x).field2 == b | none => true
  let fresh := sortBy (fun k => (getCap k x).count) ((List.range 2).filter fun k => decide (x.lastCoded < (getCap k x).count) && ours k)
  match fresh with
  | k :: _ => some (k, false)
  | [] => if x.lastCap = 0 then none else some (x.lastCap - 1, true)

/-- The source of a picture: where nothing was ever captured, an empty capture picture. -/
def sourceCapture (p : Nat) (field2 : Option Bool) (s : State) : (Nat × Bool) × State :=
  match pickCapture (getPipe p s) field2 with
  | some r => (r, s)
  | none =>
    let s1 := beginCapture p (field2.getD false) s
    (((getPipe p s1).capLive - 1, false), s1)

/-- The source lines of a capture picture are all there, or given up. -/
def wholeSource (p k : Nat) (s : State) : Bool :=
  let q := capParams p k s
  (linesMissing q.width (getCap k (getPipe p s)) 0 q.height).isEmpty

/-- End the live capture of picture `k` once nothing of it is missing. -/
def endCapture (p k : Nat) (s : State) : State :=
  let x := getPipe p s
  if wholeSource p k s = true ∧ (getCap k x).whole = false then
    onPipe p (fun y => { setCap k { getCap k y with whole := true } y with
      lastCap := k + 1, capLive := if y.capLive = k + 1 then 0 else y.capLive }) s
  else s

/-- The record flags that a picture has from its start (R196, R212, R224, R225, R240, R243). `lost` are the lines given up, `again` that its
source was coded before. -/
def startFlags (x : Pipe) (lost : Nat) (again withheld fired : Bool) (y : Pic) : Pic :=
  setFlagWhen withheld 12 (setFlagWhen fired 11 (setFlagWhen x.hoRefused 10 (setFlagWhen x.handedOver 9
    (setFlagWhen (x.directInForce || x.rcWritten) 8 (setFlagWhen again 7 (setFlagWhen (lost != 0) 6 y))))))

/-- An encoded picture as it starts, before its budget: `k` is its capture picture. -/
def newPic (p : Nat) (field2 : Bool) (q : Params) (k lost : Nat) (again : Bool) (s : State) : Pic :=
  let x := getPipe p s
  let i := x.next
  let irap := if isIrap q i then i else x.irap
  let draws := pictureDraws q i x.x
  let withheld := draws.1.any fun d => getF ImpSlotCtl.code (slotCtl q d.1) == 5
  let mapOn := q.fld 0x580 RoiMapCtl.mapEn == 1
  let mapReady := !mapOn || (!x.mapPending && !x.map.isEmpty)
  let refs := refList q i irap
  startFlags x lost again withheld (!draws.1.isEmpty) { Pic.init with
    idx := i
    irap := irap
    kind := picKind q i
    layer := picLayer q i
    field2 := field2
    intra := kindIntra (picKind q i)
    refs := refs
    nref := refs.length
    cap := k
    srcTime := (getCap k x).time
    picId := Config.pictureOrder q.codec i irap
    sets := q.word
    impMask := draws.1.foldl (fun n d => n + 2 ^ d.1) 0
    impDraws := draws.1
    seedState := draws.2
    srcLines := lost
    map := if mapOn && mapReady then x.map else []
    mapReady := mapReady
    budgeted := false
    rowCount := q.ctuRows
    tiles := q.tileCols
    tileRows := q.tileRows
    ctuLog2 := q.ctuLog2
    nparts := encParts q
    emitDone := true }

/-- Start an encoded picture: its budget waits where a map read is pending or a picture before it is in progress. -/
def encStart (p : Nat) (field2 : Bool) (s : State) : State :=
  let q := paramsOf p 0 s
  let src := sourceCapture p (if q.fm (pipeDomain p s) s = 2 then some field2 else none) s
  let k := src.1.1
  let lost := if subPicture p s then (src.2, 0) else giveUpLines p k 0 q.height src.2
  let s1 := endCapture p k lost.1
  let y := newPic p field2 q k lost.2 src.1.2 s1
  let s2 := onPipe p (fun z => { z with
    next := y.idx + 1
    irap := y.irap
    x := y.seedState
    lastCoded := max z.lastCoded (getCap k z).count
    handedOver := false
    hoRefused := false
    rcWritten := false
    activeWritten := false
    mapPending := z.mapPending || !y.mapReady
    pics := z.pics ++ [y] }) s1
  prepareBlocks p y.idx (tryBudget p (bumpWrap (Reg.pipPicCnt p) PipPicCnt.pipPicCnt s2))

/-- The check of R229 at a PIC_START after direct writes: whether the picture may start. -/
def startCheck (p : Nat) (s : State) : Bool × State :=
  if (getPipe p s).activeWritten = false then (true, s)
  else
    let r := setCheck p 0 s
    if r.1 = 0 then (true, pipRefuse p r s)
    else (false, raise (pipeSource p) (pipRefuse p r (pipeDisable p (onPipe p (fun x => { x with activeWritten := false }) s))))

/-- A field-2 PIC_START of a frame-coded interlaced pipeline has no effect (R215). -/
def skipsField (p : Nat) (arg : Nat) (s : State) : Bool :=
  decide (arg % 2 = 1) && (paramsOf p 0 s).fieldMode == 1

def encPicStart (p arg : Nat) (s : State) : State :=
  if pipeEnabled p s = false ∨ skipsField p arg s = true then s
  else
    match startCheck p s with
    | (false, s1) => s1
    | (true, s1) => encStart p (decide (arg % 2 = 1)) s1

end Sys2Proof.Machine
end

