-- ==== Sys2Proof/Machine/RowUnit.lean ====
section
/-! DEFINITION. Row units of encoded pictures: the delta map, handing out, entropy partitions, coding, completing a picture; margins,
deadlines and given-up lines (chapters "Encoding", "Rate control ...", "Raster time and the schedule"). -/

namespace Sys2Proof.Machine

open Sys2Proof

/-! ### The delta map (R271, R272) -/

/-- The map's bytes as one entry for each CTU; none where a byte came back poisoned. -/
def mapEntries (q : Params) (l : List (Byte × Bool)) : List (Option Nat) :=
  let stride := ceilDiv q.ctuCols 64 * 64
  (List.range (q.ctuRows * q.ctuCols)).map fun k =>
    match l[k / q.ctuCols * stride + k % q.ctuCols]? with
    | some (b, false) => some b.toNat
    | _ => none

/-- The bytes of the map: from HBM, by class PIXEL (R32 names no class for them: assumption 159), or what the host's memory answers. -/
def mapData (q : Params) (h : HostRead) (s : State) : List (Byte × Bool) × State :=
  if q.fld 0x580 RoiMapCtl.mapSrc = 0 then readTagged 2 (mapBase q) (mapBytes q) s
  else
    match h with
    | .data l => (l.map fun b => (b, false), s)
    | .poisoned l => (l.map fun b => (b, true), s)
    | .error => ([], s)

/-- DELTA_MAP_READ_DONE: the map is in, for the next picture and for one that waited for it, whose budget may follow. A host map is read
through channel MAP_DMA, and not while the link is down (R522). -/
def mapReadDone (p : Nat) (h : HostRead) (s : State) : State :=
  let x := getPipe p s
  let q := match x.pics.find? fun y => !y.mapReady with | some y => picParams p y s | none => paramsOf p 0 s
  let src := q.fld 0x580 RoiMapCtl.mapSrc
  if x.mapPending = false ∨ (src = 1 ∧ s.pwr.linkUp = false) ∨ (src = 0 ∧ rangeWaits (mapBase q) (mapBytes q) s = true) then s
  else
    let r := mapData q h (if src = 1 then emit (.hostRead (owner s glvDma (q.fld 0x580 RoiMapCtl.mapDma)) (mapBase q) (mapBytes q) false) s else s)
    let m := mapEntries q r.1
    let s1 := if m.any (·.isNone) then fset (Reg.rcStatus (rcActive p)) RcStatus.mapErr r.2 else r.2
    tryBudget p (onPipe p (fun y => { y with
      map := m
      mapPending := false
      pics := y.pics.map fun z => if z.mapReady then z else { z with map := m, mapReady := true } }) s1)

/-! ### Handing out row units (R46, R196, R263, R264) -/

/-- The source lines that row `row` needs are there, or given up. -/
def linesReady (p : Nat) (q : Params) (y : Pic) (row : Nat) (s : State) : Bool :=
  let l := rowLines q (pipeChroma p s) row
  (linesMissing q.width (getCap y.cap (getPipe p s)) l.1 l.2).isEmpty

/-- The rows whose units must be complete before row `row` starts are complete (R263). -/
def lagReady (q : Params) (y : Pic) (row : Nat) : Bool :=
  q.rcMode == 0 || (List.range ((row + 1 - q.rowLag) * y.tiles)).all fun k => (getUnit k y).done

/-- The next row unit to hand out: the first not yet handed out of the oldest picture that has one. -/
def nextUnit (x : Pipe) : Option (Pic × Nat) :=
  x.pics.findSome? fun y =>
    if y.complete then none
    else ((List.range y.unitCount).find? fun k => !(getUnit k y).done && (getUnit k y).block == 0).map fun k => (y, k)

/-- The unit above, in the same tile column, has been handed out. -/
def aboveGiven (y : Pic) (row col : Nat) : Bool := row == 0 || (getUnit (unitIndex y (row - 1) col) y).block != 0

/-- The pictures that a decoded picture refers to are complete (R46, assumption 165). -/
def refsReady (x : Pipe) (y : Pic) : Bool := y.refs.all fun i => x.pics.all fun z => z.idx != i || z.complete

/-- A row unit may start as the codec's dependencies allow (R46): in encode, its picture's budget is set, its lines are there and the rows of
R263 are complete; in decode, its entropy partition has a Rope pair (R323) and its references are complete. -/
def unitReady (p : Nat) (y : Pic) (k : Nat) (s : State) : Bool :=
  let row := k / y.tiles
  let col := k % y.tiles
  let q := picParams p y s
  aboveGiven y row col
    && (if pipeDecodes p s then smGet 0 (unitPart p y row col s) y.parts != 0 && refsReady (getPipe p s) y
      else y.budgeted && linesReady p q y row s && lagReady q y row)

/-- A block can take a row unit of pipeline `p`. -/
def blockFree (p r b : Nat) (s : State) : Bool :=
  let x := getBlock r b s
  let st := rgcState r s
  (match pipeEntry p s with | some e => e.blocks.contains (8 * r + b) | none => false)
    && blkRole r b s == 1 && !(getRegion r s).stopped && x.running.isNone && x.reactions.isEmpty && !x.selfTest && (st == 1 || st == 2 || st == 4)
    && (seqState r b s == 0 || seqState r b s == 3)

/-- The queue of the Rope pair with number `id` faces a token segment while another block runs the row unit (R336). -/
def faceQueue (id : Nat) (s : State) : State :=
  if id = 0 then s
  else
    let k := (id - 1) / 2
    let q := (id - 1) % 2
    let far := match queueBlock (k / 8) (k % 8) q s with | some (v, _) => v != k | none => false
    fput (Reg.dqStatus (k / 8) (k % 8) q) DqStatus.dqSeg (if far then 1 else 0) s

/-- Mark unit `k` of a picture as given to a block: what it reads at its start (R228), and in encode its row in the rate controller. -/
def markUnit (encodes : Bool) (q : Params) (k blk : Nat) (poisoned : List (Nat × Nat)) (y : Pic) : Pic :=
  let row := k / y.tiles
  let sets := if encodes then unitOffsets.map fun o => (o, q.at o) else []
  let z := setFlagWhen (encodes && y.direct) 8 (setUnit k { getUnit k y with block := blk + 1, sets := sets, poisoned := poisoned } y)
  if encodes = true ∧ (getRow row z).started = false then startRow q row z else z

/-- Samples of a source line that came back poisoned: `count` of them from sample `first` of line `line` on (R385). -/
def blackRun (d count : Nat) : LineIn :=
  ⟨List.replicate count (blackY d), List.replicate (count / 2) (blackC d), List.replicate (count / 2) (blackC d)⟩

/-- The source samples of picture `y` that came back poisoned are given up and read as black; their lines are counted (R196, R385). -/
def blackSource (p : Nat) (y : Pic) (l : List (Nat × Nat × Nat)) (s : State) : State :=
  if l.isEmpty ∨ pipeDecodes p s = true then s
  else
    let d := inputDepth (picParams p y s).inFmt
    let put := fun (c : CapPic) (e : Nat × Nat × Nat) => { c with lines := smPut e.1 (lineOf c e.1 ++ [(e.2.1, blackRun d e.2.2)]) c.lines }
    let s1 := onPipe p (fun x => setCap y.cap (l.foldl put (getCap y.cap x)) x) s
    pipEvent p PipStatus.srcIncomplete
      (onPic p y.idx (fun z => setFlag 6 { z with srcLines := z.srcLines + (l.map Prod.fst).eraseDups.length }) s1)

/-- Hand unit `k` of picture `y` to a block: it starts, with the requests `work` of its cells and the reference words `poisoned` that come
back poisoned (R385), and its checkpoint is written in two copies (R595). -/
def giveUnit (p r b : Nat) (y : Pic) (k : Nat) (work : List LocalReq) (poisoned : List (Nat × Nat)) (s : State) : State :=
  let row := k / y.tiles
  let col := k % y.tiles
  let s1 := onPic p y.idx (markUnit (!pipeDecodes p s) (picParams p y s) k (8 * r + b) poisoned) s
  let s2 := setSeq r b 1 1 (onBlock r b (fun x => localAsks (8 * r + b) work { x with
    running := some (p, y.idx, row, col), key := 0, progress := 0, cycles := 0, cairn := 0, half := !x.half }) s1)
  let s3 := injStarts r b (if rgcState r s2 = 1 then setRgcState r 2 s2 else s2)
  faceQueue (smGet 0 (unitPart p y row col s) y.parts) (belayTraffic r p (2 * ckptWords) (saveCkpt r b s3))

/-- ROW_UNIT_HANDOUT: the home Region Controller hands the pipeline's next row unit to block `b` of region `r`, once the block has
switched to the pipeline's slot. -/
def rowUnitHandout (p r b : Nat) (work : List LocalReq) (poisoned : List (Nat × Nat)) (black : List (Nat × Nat × Nat)) (s : State) : State :=
  let s0 := settleSwitch r b s
  if curMode s ≠ 3 ∨ homeReady p s = false ∨ blockFree p r b s0 = false then s0
  else
    let s1 := slotSwitch p r b s0
    if slotOf p r b s1 ≠ some (fget (Reg.blkStatus r b) BlkStatus.blkCurSlot s1) ∨ s1.now < (getBlock r b s1).readyAt then s1
    else
      match nextUnit (getPipe p s1) with
      | none => s1
      | some (y, k) =>
        if unitReady p y k s1 then
          let s2 := blackSource p y black s1
          giveUnit p r b ((picAt p y.idx s2).getD y) k work poisoned s2
        else s1

/-! ### Entropy partitions (R320, R321) -/

/-- ROPE_CODER: CABAC, CAVLC, AV1 or MPEG-2. `cavlc` is the choice of an AVC stream. -/
def ropeCoder (codec : Nat) (cavlc : Bool) : Nat :=
  match codec with | 1 => if cavlc then 1 else 0 | 4 => 2 | 5 => 3 | _ => 0

/-- The next entropy partition of a pipeline that has no Rope pair yet: of the oldest picture that has one (R321). -/
def nextPart (x : Pipe) : Option (Pic × Nat) :=
  x.pics.findSome? fun y =>
    if y.complete then none
    else ((List.range y.nparts).find? fun k => smGet 0 k y.parts == 0).map fun k => (y, k)

/-- PARTITION_ASSIGN: the next partition goes to idle Rope pair `q` of block `b`, whose engines begin it, or go on after its
units that are complete where another Rope pair has given it up. -/
def partitionAssign (p r b q : Nat) (cavlc : Bool) (s : State) : State :=
  let off := Reg.ropeStatus r b q
  match pipeEntry p s with
  | none => s
  | some e =>
    if curMode s ≠ 3 ∨ homeReady p s = false ∨ (blocksInService e s).contains (8 * r + b) = false ∨ blkRole r b s ≠ 1
        ∨ (getRegion r s).stopped = true ∨ fbit off RopeStatus.ropeBusy s = true then s
    else
      match nextPart (getPipe p s) with
      | none => s
      | some (y, k) =>
        let cv := if persDecodes e.pers then cavlc else (picParams p y s).fld 0x100 EncCodec.cavlc == 1
        let coder := ropeCoder (codecOf e.pers) cv
        let id := ropeId r b q
        let engine := (smFind k y.engines).getD (Config.engineStart coder)
        let s1 := onPic p y.idx (fun z => { z with parts := smSet 0 k id z.parts }) s
        let s2 := fset off RopeStatus.ropeBusy (fput off RopeStatus.ropeCoder coder (fput off RopeStatus.ropePipe p s1))
        faceQueue id (saveRopeCkpts p id (setRope r b q (loadEngines engine) s2))

/-- A Rope pair falls idle at the end of its partition. -/
def freeRope (id : Nat) (s : State) : State :=
  if id = 0 then s
  else
    let k := (id - 1) / 2
    fclr (Reg.ropeStatus (k / 8) (k % 8) ((id - 1) % 2)) RopeStatus.ropeBusy s

/-! ### Coding a row unit (R248, R251, R262, R265, R324) -/

/-- Add the coded CTUs of a unit to its picture's figures. -/
def countCtus (y : Pic) (l : List CtuOut) : Pic :=
  let qps := (l.filter fun u => !u.floor || y.intra).map (·.qp)
  let intra := (l.filter fun u => if u.floor then y.intra else u.type == 0).length
  let skip := (l.filter fun u => if u.floor then !y.intra else u.type == 2).length
  { y with
    bits := y.bits + sumNat (l.map (·.bits))
    ctuIntra := y.ctuIntra + intra
    ctuSkip := y.ctuSkip + skip
    qpSum := y.qpSum + sumNat qps
    qpCount := y.qpCount + qps.length
    qpMin := if y.qpCount = 0 then (qps.foldl min (qps.headD 0)) else qps.foldl min y.qpMin
    qpMax := qps.foldl max y.qpMax }

/-- The buffers a byte count needs in pool `k`. -/
def bufsFor (k n : Nat) (s : State) : Nat := ceilDiv n (2 ^ (poolEntry k s).log2)

/-- The pool the pipeline takes its chunks from, as read at enable (R406). -/
def outPool (p : Nat) (s : State) : Nat := getF PipOutPool.outPool (pipLatched p 0x48 s)

/-- The CTU records of a unit (R248, R251). -/
def ctuRecords (p : Nat) (y : Pic) (row : Nat) (l : List CtuOut) (s : State) : State :=
  l.foldl (fun a u => queueWhen 2 p 0x02 y.idx (encCtuBody u.x row u.bits u.qp u.type u.depth u.roi u.flags u.vector) a) s

/-- The buffers that `n` bytes go to lie where an access waits (R370). -/
def bufsWait (k n : Nat) (s : State) : Bool :=
  ((getHead k s).take (bufsFor k n s)).any fun b => rangeWaits (bufAddr k b s) (2 ^ (poolEntry k s).log2) s

/-- Put a unit's bytes in pool buffers and pass them on; none where the pool or the memory makes it wait (R326, R370, R413). -/
def storeUnit (p : Nat) (bytes : List Byte) (s : State) : Option (List Nat × List Nat) × State :=
  let k := outPool p s
  let w := PoolWait.alloc p k
  if bytes.isEmpty then (some ([], []), s)
  else if waitLevel k s < poolHeld k s + bufsFor k bytes.length s then (none, addWait w s)
  else if bufsWait k bytes.length s then (none, s)
  else
    match placeBytes k p false (bytes.length + 1) bytes s with
    | (none, s1) => (none, waitAgain w s1)
    | (some l, s1) =>
      let r := passChunks p (partBufs l) (dropWait w s1)
      (some (partBufs l, r.1), r.2)

/-- Store a unit's own bytes and, of a picture's last unit, those that follow all units; where one must wait, nothing is stored. -/
def storeBoth (p : Nat) (own tail : List Byte) (s : State) : Option ((List Nat × List Nat) × (List Nat × List Nat)) × State :=
  match storeUnit p own s with
  | (none, s1) => (none, s1)
  | (some a, s1) =>
    match storeUnit p tail s1 with
    | (none, _) => (none, addWait (.alloc p (outPool p s)) s)
    | (some c, s2) => (some (a, c), s2)

/-- Every unit of a partition of an encoded picture is complete. -/
def partDone (q : Params) (y : Pic) (k : Nat) : Bool :=
  (List.range y.unitCount).all fun j => encPart q (j / y.tiles) (j % y.tiles) != k || (getUnit j y).done

/-- The block's row unit ends: the block is idle. -/
def endUnit (r b : Nat) (s : State) : State :=
  seqEnd r b (fclr (Reg.blkStatus r b) BlkStatus.blkReplay (onBlock r b (fun x => { x with running := none }) s))

/-- A row unit can complete (R323, R324): its partition has a Rope pair whose engines run, the units before it in the partition and the one
above are complete, and its block has the slot's state. -/
def unitCan (p r b row col : Nat) (y : Pic) (s : State) : Bool :=
  let id := smGet 0 (unitPart p y row col s) y.parts
  id != 0 && !(ropeAt id s).stopped && partNext p y row col s && (row == 0 || (getUnit (unitIndex y (row - 1) col) y).done)
    && decide ((getBlock r b s).readyAt ≤ s.now)

/-- The Rope pair of partition `part` of picture `i` has coded or decoded a row unit of `n` bytes or bits: it falls idle with the partition's
last, or goes on to the next. -/
def ropeDone (p i part n : Nat) (j : WorkJob) (ends : Bool) (s : State) : State :=
  let id := match picAt p i s with | some y => smGet 0 part y.parts | none => 0
  let e := engineAfter j n (ropeAt id s).first
  let s1 := setRopeAt id (loadEngines e) (onPic p i (fun y => { y with engines := smPut part e y.engines }) s)
  if ends then freeRope id s1 else faceQueue id (saveRopeCkpts p id s1)

/-- What coding a row unit gave: its CTUs, their bits, and its data. -/
structure UnitCode where
  ctus : List CtuOut
  bits : Nat
  raw : List Byte
  deriving DecidableEq, Repr

/-- Code a row unit. A partition's data runs from unit to unit without a gap, and ends on a byte. -/
def codeUnit (p : Nat) (y : Pic) (row col : Nat) (s : State) : UnitCode :=
  let j := encJob p y row col s
  let q := jobParams j
  let l := codeCtus j (q.unitCtus col) (tileBound q.ctuCols q.tileCols col) 0 false []
  let n := sumNat (l.map (·.bits))
  let part := encPart q row col
  let before := smGet 0 part y.partBits
  let k := unitIndex y row col
  let ends := partDone q (setUnit k { getUnit k y with done := true } y) part
  ⟨l, n, unitData j l ((if ends then ceilDiv (before + n) 8 else (before + n) / 8) - before / 8)⟩

/-- A picture with a coded row unit counted in: its row, partition and figures. -/
def countUnit (q : Params) (y : Pic) (row col : Nat) (c : UnitCode) : Pic :=
  let k := unitIndex y row col
  let floor := c.ctus.any (·.floor)
  let rc := getRow row y
  let part := encPart q row col
  let z := setUnit k { getUnit k y with done := true, raw := c.raw, choices := c.ctus.map (·.how) }
    (setRow row { rc with bits := rc.bits + c.bits, floored := rc.floored || floor } (countCtus y c.ctus))
  setFlagWhen floor 0 { z with
    unitsDone := z.unitsDone + 1
    partBits := smSet 0 part (smGet 0 part z.partBits + c.bits) z.partBits
    bytesUnimp := z.bytesUnimp + (unitHead q y.rawHeads row col).length + c.raw.length }

/-- What a row unit stores: its own bytes with the starts of stream units in them, and of a picture's last those that follow. -/
structure UnitOut where
  own : List Byte
  starts : List Nat
  tail : List (List Byte)
  last : Bool
  deriving DecidableEq, Repr

/-- A picture with the stored bytes of a unit, and where it was the last those that follow. -/
def keepBytes (q : Params) (z : Pic) (k : Nat) (o : UnitOut) (at_ : (List Nat × List Nat) × (List Nat × List Nat)) : Pic :=
  let hold := fun l : List Nat × List Nat => if z.freed ∧ l.2.isEmpty then [] else l.1
  let z1 := setUnit k { getUnit k z with bytes := o.own, starts := o.starts, bufs := hold at_.1, holders := at_.1.2 } z
  let z2 := { z1 with bytes := z1.bytes + o.own.length + o.tail.flatten.length }
  if o.last then
    { setUnit z.unitCount { UnitSt.init with
        done := true, bytes := o.tail.flatten, starts := startsOf 0 o.tail, bufs := hold at_.2, holders := at_.2.2 } z2 with
      bytesUnimp := z2.bytesUnimp + (fillerData q.codec (fillNeed q z z2.bytesUnimp)).length }
  else z2

/-- The chunks just stored of a picture whose chunks were freed at its RELEASE are freed too (R503). -/
def freeStored (p : Nat) (z : Pic) (at_ : (List Nat × List Nat) × (List Nat × List Nat)) (s : State) : State :=
  let l := (if at_.1.2.isEmpty then at_.1.1 else []) ++ (if at_.2.2.isEmpty then at_.2.1 else [])
  if z.freed then unitFreeAll l p s else s

/-- ROW_UNIT_COMPLETE of an encoded picture: the unit at (row, col) of picture `y` on block `b` of region `r`. -/
def encUnitDone (p r b row col : Nat) (y : Pic) (s : State) : State :=
  if unitCan p r b row col y s = false then s
  else
    let q := picParams p y s
    let c := codeUnit p y row col s
    let z := countUnit q y row col c
    let last := decide (z.unitsDone = z.unitCount)
    let own := ownBytes q y row col c.raw
    let o : UnitOut := ⟨own, ownStarts q y row col, if last then tailUnits q z (z.bytes + own.length) else [], last⟩
    match storeBoth p own o.tail.flatten s with
    | (none, s1) => s1
    | (some at_, s1) =>
      let s2 := freeStored p z at_ (onPic p y.idx (fun _ => keepBytes q z (unitIndex y row col) o at_) s1)
      let s3 := ctuRecords p y row c.ctus (endUnit r b s2)
      flushPipe p (ropeDone p y.idx (encPart q row col) c.raw.length (.encode (encJob p y row col s))
        (partDone q z (encPart q row col)) s3)

/-! ### Completion of an encoded picture (R203, R237, R250, R255 to R261, R277) -/

/-- The picture that decoding an encoded picture's unimpaired stream gives. -/
def reconstruct (q : Params) (y : Pic) (recon : SMap Planes) : Planes :=
  Config.decodeEncoded q.codec (rawUnits q y) (y.refs.map fun i => (y.idx - i, smGet default i recon))

/-- A picture as it completes: its reconstruction with the SSE against the source, its bytes, the level after it and where it completed. -/
def completePic (q : Params) (src rec_ : Planes) (viol : Bool) (cpb : Int) (pos : Int × Nat × Nat) (y : Pic) : Pic :=
  setFlagWhen viol 1 { y with
    complete := true
    planes := rec_
    sseY := sse src.y rec_.y
    sseC := sse src.cb rec_.cb + sse src.cr rec_.cr
    cpb := cpb
    data := picBytes q y
    doneFrame := (pos.1 % 2 ^ 32).toNat
    doneLine := pos.2.1 }

/-- A pipeline after picture `y` of `b` bits: the history of its kind, D, and the planes that later pictures look at. -/
def learnPic (y : Pic) (b : Nat) (base : Int) (src rec_ : Planes) (x : Pipe) : Pipe :=
  let x1 : Pipe := { x with
    sumD := x.sumD + (base - b)
    prevSource := src
    recon := smSet default y.idx rec_ (if y.idx = y.irap then [] else x.recon) }
  if y.intra then { x1 with bIntra := b, actIntra := y.act, hadIntra := true }
  else { x1 with bInter := b, actInter := y.act, hadInter := true }

def encPictureDone (p : Nat) (y : Pic) (s : State) : State :=
  let q := picParams p y s
  let d := pipeDomain p s
  let rc := rcActive p
  let rate := pictureRate d (q.fm d s) s
  let f := sint (rd (Reg.rcFullness rc) s)
  let b : Int := 8 * (y.bytes : Int)
  let inc := modelInc q y.idx rate
  let kept := q.modelKept
  let viol := kept && (decide (f < b) || (q.fills && decide (b < y.bMin)))
  let floor := y.flags.testBit 0
  let x := getPipe p s
  let src := sourcePlanes q (pipeChroma p s) (getCap y.cap x) q.height
  let rec_ := reconstruct q y x.recon
  let y1 := completePic q src rec_ viol (if kept then f - b else 0) (domPos d s) y
  let s1 := onPipe p (fun z => learnPic y b.toNat (baseBits q rate) src rec_ (updatePic y.idx (fun _ => y1) z)) s
  let s2 := fput (Reg.rcCurQp rc) (if y.intra then RcCurQp.qpPrevIntra else RcCurQp.qpPrevInter) y.qpPic s1
  let s3 := wr (Reg.rcFullness rc) (if kept then BitVec.ofInt 32 (nextLevel q f b inc) else 0) s2
  let s4 := wr (Reg.rcCarry rc) (if floor then BitVec.ofInt 32 (max 0 (b - y.target)) else 0) s3
  let s5 := if viol then fset (Reg.rcStatus rc) RcStatus.cpbViol s4 else s4
  let s6 := if floor then bump (Reg.rcStatus rc) RcStatus.floorCnt (fset (Reg.rcStatus rc) RcStatus.floor s5) else s5
  tryBudget p (queueWhen 1 p 0x01 y.idx (encPictureBody y1) s6)

/-! ### Margins, deadlines, given-up lines (R78, R83 to R87, R196) -/

/-- MARGIN_CAUSE (R86): 1 Belay, 2 budget throttling, 3 other delay. -/
def marginCause (y : Pic) : Nat := if y.belayRuns ≠ 0 then 1 else if y.throttled then 2 else 3

/-- Set IN_MARGIN and its cause in the picture's record flags, once. -/
def flagMargin (decodes : Bool) (y : Pic) : Pic :=
  let bit := if decodes then 5 else 2
  if y.flags.testBit bit then y
  else { y with flags := y.flags + 2 ^ bit + marginCause y * 2 ^ (if decodes then 6 else 3) }

/-- MARGIN_MARK with SE_ARG `arg`. -/
def marginMark (p arg : Nat) (s : State) : State :=
  match openPic p s with
  | none => s
  | some y =>
    if min (arg % 2 ^ 16) y.unitCount ≤ y.unitsDone then s
    else pipEvent p PipStatus.inMargin (onPic p y.idx (flagMargin (pipeDecodes p s)) s)

def marginMarkAction (p : Nat) (s : State) : State := onAction actMarginMark p (fun a t => if inRun t then marginMark p a.arg t else t) s

/-- Pictures that nothing needs any more are forgotten: complete, past their last deadline, emitted, and (encode) sent on
every port. -/
def prune (p : Nat) (s : State) : State :=
  let ports := if pipeDecodes p s then [] else egressPorts p s
  onPipe p (fun x => { x with pics := x.pics.filter fun y =>
    !(y.complete && y.fullFired && y.emitDone && (ports.all fun n => decide (y.idx < (getPort n s).relPic))
      && (y.units.all fun u => u.2.bufs.isEmpty)) }) s

/-- ROW_DEADLINE with SE_ARG `arg`. -/
def rowDeadline (p arg : Nat) (s : State) : State :=
  match openPic p s with
  | none => s
  | some y =>
    let n := min (arg % 2 ^ 16) y.unitCount
    let miss := decide (y.unitsDone < n)
    let y1 := setFlagWhen miss (if pipeDecodes p s then 8 else 5) { y with
      due := n, missed := y.missed || miss, fullFired := decide (y.unitCount ≤ arg % 2 ^ 16) }
    let s1 := onPic p y.idx (fun _ => y1) s
    prune p (if miss then pipEvent p PipStatus.deadlineMiss s1 else s1)

def rowDeadlineAction (p : Nat) (s : State) : State := onAction actRowDeadline p (fun a t => if inRun t then rowDeadline p a.arg t else t) s

/-- LINE_GIVE_UP: the lines that CTU row `row` of the picture whose deadlines run needs, and that have not come, are given up. -/
def lineGiveUp (p row : Nat) (s : State) : State :=
  match openPic p s with
  | none => s
  | some y =>
    if subPicture p s = false ∨ pipeDecodes p s = true ∨ y.complete = true then s
    else
      let l := rowLines (picParams p y s) (pipeChroma p s) row
      let r := giveUpLines p y.cap l.1 l.2 s
      if r.2 = 0 then s
      else endCapture p y.cap (onPic p y.idx (fun z => setFlag 6 { z with srcLines := z.srcLines + r.2 }) r.1)

/-- CAPTURE_ARM (R194). -/
def captureArm (p : Nat) (s : State) : State :=
  onAction actCaptureArm p (fun _ t => if captures p t then onPipe p (fun x => { x with capArmed := true }) t else t) s

/-- RELEASE on port `n` (R78). -/
def releaseOn (n : Nat) (s : State) : State :=
  onAction actRelease n (fun a t =>
    if inRun t then
      let t1 := releaseAction n (timeAt a.fired t) t
      match portEntry n t1 with | some e => prune e.pipe t1 | none => t1
    else t) s

end Sys2Proof.Machine
end

