-- ==== Sys2Proof/Machine/DecodePath.lean ====
section
/-! DEFINITION. Decode pipelines: taking a coded picture, conformance events and their actions, references and substitutes,
concealment, taint, the held pictures, emission (chapter "Decoding, conformance tracing and concealment"); and the commands on
pictures that encoders and decoders share. -/

namespace Sys2Proof.Machine

open Sys2Proof

/-! ### Conformance events (R299 to R305) -/

/-- The action of an event (R301 to R303). -/
def eventAction (code : Nat) (remains : Bool) : Nat :=
  match code with
  | 0x1007 => 2
  | 0x2002 => 0
  | 0x2003 => 2
  | 0x2004 => 2
  | 0x2005 => 0
  | 0x2006 => 0
  | 0x2201 => 0
  | 0x2301 => 0
  | 0x2401 => 0
  | 0x3002 => 3
  | 0x4101 => 4
  | 0x4401 => 3
  | 0x4501 => 3
  | 0x5005 => if remains then 0 else 2
  | 0x5006 => 0
  | 0x6002 => 0
  | 0x6003 => 0
  | 0x6004 => 0
  | 0x6005 => 0
  | 0x8001 => 2
  | 0x8002 => 6
  | 0x9002 => 0
  | 0xA001 => 5
  | 0xA002 => 3
  | 0xA003 => 5
  | 0xA004 => 0
  | c =>
    match c / 4096 with
    | 2 => 1
    | 3 => 1
    | 4 => 2
    | 5 => 2
    | 6 => 4
    | 9 => 1
    | _ => 0

/-- DEC_TRACE.MAX_EVT, where 0 acts as 64. -/
def maxEvents (trace : Word) : Nat := orIf0 64 (getF DecTrace.maxEvt trace)

/-- The event is not written as a record: its category is masked, or the picture has `written` records already (R304). -/
def eventSuppressed (trace : Word) (written : Nat) (e : EventIn) : Bool :=
  (getF DecTrace.catMask trace).testBit (e.code / 4096) || decide (maxEvents trace ≤ written)

/-- A conformance event found in picture `i` of pipeline `p` (R304, R316). -/
def recordEvent (p i : Nat) (e : EventIn) (s : State) : State :=
  let y := (picAt p i s).getD Pic.init
  let trace := match picAt p i s with | some z => smGet 0 0x110 z.sets | none => rd (Reg.decTrace (encActive p)) s
  let supp := eventSuppressed trace y.written e
  let s1 := bumpBy 1 (Reg.decEvtCnt p) whole
    (wr (Reg.decLastEvt p) (BitVec.ofNat 32 (i % 2 ^ 16 * 2 ^ 16 + e.code)) (decEvent p DecStatus.event s))
  let s2 := onPic p i (fun z => { z with
    events := z.events + 1
    supp := z.supp + (if supp then 1 else 0)
    written := z.written + (if supp then 0 else 1) }) s1
  if supp then s2
  else queueWhen 1 p 0x11 i (decConformBody (pipePers p s) (eventAction e.code e.remains) e) s2

def recordEvents (p i : Nat) (l : List EventIn) (s : State) : State := l.foldl (fun a e => recordEvent p i e a) s

/-- An event of the TRANSPORT category. -/
def isTransport (e : EventIn) : Bool := e.code / 4096 == 1

/-- Codes that the pipeline itself finds: the operands of a command do not carry them. -/
def ownCodes : List Nat :=
  [0x1007, 0x2005, 0x5006, 0x6001, 0x6002, 0x6005, 0x8001, 0x8002, 0xA001, 0xA002, 0xA003, 0xA004]

def parseEvents (l : List EventIn) : List EventIn := l.filter fun e => !ownCodes.contains e.code

/-! ### References and substitutes (R308 to R310) -/

/-- The held picture nearest before place `order` of the output order, the latest held one where the place is not known; none
where no picture is held. -/
def nearestHeld (order : Option Nat) (x : Pipe) : Option Nat :=
  let last := (x.heldPics.getLast?).map (·.idx)
  match order with
  | none => last
  | some o =>
    match (sortBy (·.order) (x.heldPics.filter fun h => decide (h.order < o))).getLast? with
    | some h => some h.idx
    | none => last

/-- DEC_CONCEAL.MISSING of a picture. -/
def missingNearest (y : Pic) : Bool := getF DecConceal.missing (smGet 0 0x10C y.sets) == 1

/-- The source a substitute takes: none for grey. -/
def substituteSource (y : Pic) (order : Option Nat) (x : Pipe) : Option Nat :=
  if missingNearest y then nearestHeld order x else none

/-- Picture `i` is held, or is being decoded. -/
def holdsPic (i : Nat) (x : Pipe) : Bool :=
  x.heldPics.any (·.idx == i) || x.pics.any fun y => y.idx == i && !y.stored && !y.complete && y.refresh

/-- A named reference is missing. -/
def refMissing (x : Pipe) (f : RefIn) : Bool := match f.pic with | none => true | some i => !holdsPic i x

/-- What tells missing references of one pipeline apart: an evicted picture, an AV1 slot, else the identifier. -/
def subKey (codec : Nat) (f : RefIn) : Nat :=
  match f.pic with | some i => 2 * i + 1 | none => 2 * (if codec = 4 then f.slot else f.picId)

/-- The samples of picture `i` as the decoder holds them, or has just decoded them. -/
def picPlanes (i : Nat) (x : Pipe) : Planes := smGet default i x.recon

/-- The samples of a substitute for picture `y` or one of its references (R309): those of `src`, else mid-grey at the stream's bit depth. -/
def substitutePlanes (y : Pic) (src : Option Nat) (x : Pipe) : Planes :=
  match src with
  | some i => picPlanes i x
  | none => greyPlanes y.chroma y.bitDepth y.coded.1 y.coded.2

/-- A missing reference gets its substitute, once (R309). -/
def substituteRef (p i : Nat) (f : RefIn) (s : State) : State :=
  let x := getPipe p s
  let k := subKey (codecOf (pipePers p s)) f
  if refMissing x f = false ∨ (smFind k x.subs).isSome = true then s
  else
    let y := (picAt p i s).getD Pic.init
    let src := substituteSource y f.order x
    let e : EventIn := ⟨0x6001, 0xFFFF, 0xFFFF, f.bitOfs, f.slot, if src.isSome then 1 else 0, f.picId, f.unit, false⟩
    let s1 := onPipe p (fun z => { z with subs := smPut k (substitutePlanes y src x) z.subs }) (recordEvent p i e s)
    let s2 := onPic p i (fun z => setFlag 2 { z with missing := min 255 (z.missing + 1) }) s1
    bumpBy 1 (Reg.decMissingCnt p) whole (decEvent p DecStatus.missingRef s2)

/-- The references of picture `i` as it is decoded from them: held pictures by their index, and the samples of the substitutes. -/
def bindRefs (p i : Nat) (l : List RefIn) (s : State) : State :=
  let x := getPipe p s
  let codec := codecOf (pipePers p s)
  let held := l.filterMap fun f => match f.pic with | some k => if holdsPic k x then some (f.slot, k) else none | none => none
  let subs := (l.filter (refMissing x)).map fun f => (f.slot, smGet default (subKey codec f) x.subs)
  onPic p i (fun y => { y with refSlots := held, refs := held.map Prod.snd, subRefs := subs }) s

/-- A reference hands its taint on: a substitute does, and a TAINTED picture (R311). -/
def refTaints (x : Pipe) (f : RefIn) : Bool :=
  refMissing x f || (match f.pic with
    | none => true
    | some i => (x.heldPics.any fun h => h.idx == i && h.tainted) || x.pics.any fun y => y.idx == i && y.tainted)

/-! ### PIC_START, decode (R281 to R289, R297) -/

/-- The limits of R281 that a picture breaks, as events with the value and the limit. -/
def limitEvents (e : PipeEntry) (q : Params) (info : StreamPic) : List (Nat × Nat × Nat) :=
  let mask := orIf0 (decProfiles e.pers) (q.fld 0x100 DecCodec.profileMask)
  let maxW := orIf0 e.maxW q.width
  let maxH := orIf0 e.maxH q.height
  (if mask.testBit info.profile then [] else [(0xA001, info.profile, mask)])
    ++ (if info.chroma = 3 ∨ info.chroma ≤ e.chroma then [] else [(0xA003, info.chroma, e.chroma)])
    ++ (if maxW < info.width then [(0xA002, info.width, maxW)]
        else if maxH < info.height then [(0xA002, info.height, maxH)] else [])

/-- Samples of a row unit: its CTUs are at most this many. -/
def rowUnitSamples (width ctuLog2 tileCols : Nat) : Nat :=
  ceilDiv (ceilDiv width (2 ^ ctuLog2)) (max 1 tileCols) * 4 ^ ctuLog2

/-- 0xA004: the stream's row unit is larger than the one T_row assumes. -/
def largerUnit (e : PipeEntry) (q : Params) (info : StreamPic) : List (Nat × Nat × Nat) :=
  let n := rowUnitSamples info.width info.ctuLog2 info.tileCols
  let m := rowUnitSamples (orIf0 e.maxW q.width) e.ctuLog2 e.tileCols
  if m < n then [(0xA004, n, m)] else []

/-- What happens to a coded picture that a PIC_START takes. -/
inductive Take
  | discard | substitute | decode
  deriving DecidableEq, Repr

/-- The picture is discarded before the first random-access point (R289), or until the next one that R281 admits (R302). -/
def discards (start : Bool) (limits : List (Nat × Nat × Nat)) (info : StreamPic) (x : Pipe) : Bool :=
  (!start && !x.sawRap && !info.rap) || (x.resync && !(info.rap && limits.isEmpty))

def takeOf (discarded : Bool) (limits : List (Nat × Nat × Nat)) (info : StreamPic) : Take :=
  if discarded then .discard
  else if limits.any fun l => l.1 == 0xA001 || l.1 == 0xA003 then .discard
  else if (limits.any fun l => l.1 == 0xA002)
      || (parseEvents info.events).any fun e => eventAction e.code e.remains == 3 then .substitute
  else .decode

/-- The reorder depth D (R292), and whether the stream's is clipped. -/
def reorderDepth (e : PipeEntry) (q : Params) (info : StreamPic) : Nat × Bool :=
  let v := q.fld 0x108 DecOut.reorder
  if v = 15 then (min info.reorder e.maxRefs, decide (e.maxRefs < info.reorder)) else (v, false)

/-- Bytes of the decoded picture in 16-bit containers, by chroma format; and as emitted (R294, R295). -/
def pictureBytes (chroma w h : Nat) : Nat :=
  let c := match chroma with | 0 => (w / 2) * (h / 2) | 1 => (w / 2) * h | 2 => w * h | _ => 0
  2 * (w * h + 2 * c)

def emittedBytes (q : Params) (info : StreamPic) : Nat :=
  pictureBytes (if q.fld 0x108 DecOut.fmt = 1 then 1 else info.chroma) info.width info.height

/-- PIC_START found no picture (R286). Where the spec gives the event no value, a free value stands. -/
def noPicture (p : Nat) (info : StreamPic) (s : State) : State :=
  let x := getPipe p s
  let e : EventIn := ⟨0x8002, 0xFFFF, 0xFFFF, Config.free s.freeCtr, Config.free (s.freeCtr + 1), Config.free (s.freeCtr + 2),
    info.picId, info.unit, false⟩
  let s1 := onPipe p (fun z => { z with repeatNext := true, frameCoded := false }) { s with freeCtr := s.freeCtr + 3 }
  recordEvent p x.next e (decEvent p DecStatus.underflow s1)

/-- The event code that makes a picture undecodable: the header's, or that of a picture beyond DEC_SIZE. -/
def substituteCause (info : StreamPic) : Nat :=
  match (parseEvents info.events).find? fun e => eventAction e.code e.remains == 3 with | some e => e.code | none => 0xA002

/-- The picture's record as it is started. -/
def newDecPic (p i : Nat) (field2 : Bool) (e : PipeEntry) (q : Params) (c : CodedPic) (held : Nat) (t : Take) (info : StreamPic)
    (x : Pipe) (s : State) : Pic :=
  let d := pipeDomain p s
  let run := t == Take.decode
  let cols := ceilDiv info.width (2 ^ info.ctuLog2)
  let rows := ceilDiv info.height (2 ^ info.ctuLog2)
  let h := if domInterlaced d s ∧ info.field = true then 2 * info.height else info.height
  let mismatch := !(info.width == fget (Reg.rckDomField d) RckDomField.domActSpl s
    && h == fget (Reg.rckDomActive d) RckDomActive.domActLines s)
  let y : Pic := { Pic.init with
    idx := i
    kind := info.kind % 8 + (if info.field then 8 else 0) + (if field2 then 16 else 0) + (if info.shown then 0 else 32)
    field2 := field2
    intra := info.kind == 0 || info.kind == 4
    nref := info.refs.length
    picId := info.picId
    sets := q.word
    whole := c.whole
    held := held
    profile := info.profile
    level := info.level
    width := info.width
    height := info.height
    coded := (info.codedW, info.codedH)
    chroma := info.chroma
    bitDepth := info.depth
    crop := (info.cropX, info.cropY)
    unitParts := info.unitParts
    stream := x.stream.length + 1
    hash := if info.hash.isSome then 3 else 0
    hashSei := if q.fld 0x110 DecTrace.hashEn = 1 ∧ (codecOf e.pers = 2 ∨ codecOf e.pers = 3) then info.hash else none
    shown := info.shown
    bufs := segBufs c.parts
    rowCount := if run ∧ info.shows.isNone then rows + info.hiddenRows else 0
    tiles := max 1 info.tileCols
    ctuLog2 := info.ctuLog2
    nparts := if run then info.partitions else 0
    order := info.order
    refresh := info.refresh && t != Take.discard
    keep := info.keep
    firstRef := match info.refs with | f :: _ => f.pic | [] => none
    substituted := t == Take.substitute
    depth := (reorderDepth e q info).1
    ctus := cols * rows
    size := emittedBytes q info
    cause := substituteCause info }
  setFlagWhen mismatch 13 (setFlagWhen x.hoRefused 12 (setFlagWhen x.directInForce 11 (setFlagWhen x.handedOver 10
    { y with shown := info.shown && t != Take.discard })))

/-- The parse of the headers of a coded picture: the one that the same inputs gave before, else the operand's, which is kept (R298). -/
def memoParse (j : DecJob) (info : StreamPic) (s : State) : StreamPic × State :=
  match s.parsed.find? fun e => e.1 == j with
  | some e => (e.2, s)
  | none => (info, { s with parsed := s.parsed ++ [(j, info)] })

/-- The outcome of decoding a row unit: the one that the same inputs gave before, else the operand's, which is kept (R298, R305). -/
def memoUnit (j : DecJob) (out : UnitIn) (s : State) : UnitIn × State :=
  match s.decoded.find? fun e => e.1 == j with
  | some e => (e.2, s)
  | none => (out, { s with decoded := s.decoded ++ [(j, out)] })

/-- The marking the stream gives (R291): substitutes end with an IDR or key picture; the earlier pictures that stay references; a held picture that neither waits for output
nor is a reference is let go. A picture that the unit shows again waits for output at the unit's place. -/
def markRefs (info : StreamPic) (x : Pipe) : Pipe :=
  let l := x.heldPics.map fun h =>
    let w := info.shows == some h.idx
    { h with reference := h.reference && info.keep.contains h.idx, waiting := h.waiting || w, order := if w then info.order else h.order }
  { x with
    heldPics := l.filter fun h => h.reference || h.waiting
    subs := if info.kind = 0 then [] else x.subs
    pics := x.pics.map fun y => if y.complete then y else { y with refresh := y.refresh && info.keep.contains y.idx } }

/-- The events of a coded picture as it is taken, each where it is found. `f0` and `f1` are free values. -/
def takeEvents (e : PipeEntry) (q : Params) (c : CodedPic) (held : Nat) (poisoned sub start clip : Bool) (t : Take) (away : Bool)
    (f0 f1 : Nat) (info : StreamPic) (x : Pipe) : List EventIn :=
  let own := fun code v l : Nat => (⟨code, 0xFFFF, 0xFFFF, info.bitOfs, v, l, info.picId, info.unit, false⟩ : EventIn)
  c.losses ++ (if poisoned then [own 0x1007 f0 f1] else [])
    ++ (if !start && !x.sawRap && info.rap && x.discarded != 0 then [own 0x2005 x.discarded f1] else [])
    ++ (if c.whole || sub then [] else [own 0x8001 held f1])
    ++ (if away then [] else (limitEvents e q info).map fun l => own l.1 l.2.1 l.2.2)
    ++ (if t = Take.decode then (largerUnit e q info).map fun l => own l.1 l.2.1 l.2.2 else [])
    ++ (if clip then [own 0x6005 info.reorder e.maxRefs] else []) ++ parseEvents info.events

/-- The decoder after it took coded picture `c` as picture `y`. -/
def tookPicture (c : CodedPic) (bytes : List (Byte × Bool)) (t : Take) (start away resyncs clip gap : Bool) (info : StreamPic)
    (marked : Pipe) (y : Pic) (q : Params) (x : Pipe) : Pipe :=
  { marked with
    next := y.idx + 1
    coded := x.coded.drop 1
    stream := x.stream ++ [⟨q.word, bytes, c.whole, c.losses⟩]
    lateFor := if c.whole then none else some (y.idx, c.ts)
    sawRap := x.sawRap || info.rap || start
    discarded := x.discarded + (if !start && !x.sawRap && !info.rap then 1 else 0)
    rapRecorded := x.rapRecorded || (!start && !x.sawRap && info.rap && x.discarded != 0)
    resync := (x.resync && away) || resyncs
    gapTaint := gap && !(info.rap && t == Take.decode)
    reorderClipped := (x.reorderClipped && !info.newSeq) || clip
    frameCoded := !info.field
    handedOver := false
    hoRefused := false
    activeWritten := false
    pics := marked.pics ++ [y] }

/-- Take coded picture `c` (R284, R285, R287): its bytes are read, its events recorded, its references found. -/
def takePicture (p : Nat) (field2 : Bool) (e : PipeEntry) (c : CodedPic) (operand : StreamPic) (s : State) : State :=
  let q := paramsOf p 0 s
  let x := getPipe p s
  let r := readParts c.parts s
  let job : DecJob := ⟨rd Reg.cfgVsVersion s, e.pers, e.chroma, x.stream ++ [⟨q.word, r.1, c.whole, c.losses⟩], none, []⟩
  let m := memoParse job operand r.2
  let info := m.1
  let held := r.1.length
  let sub := subPicture p s
  let start := (pipLatched p 0x10C s).getLsbD 2
  let limits := limitEvents e q info
  let away := discards start limits info x
  let t := takeOf away limits info
  let clip := (reorderDepth e q info).2 && (info.newSeq || !x.reorderClipped) && t != Take.discard
  let events := takeEvents e q c held (r.1.any Prod.snd) sub start clip t away (Config.free s.freeCtr) (Config.free (s.freeCtr + 1)) info x
  let under := !(c.whole || sub)
  let transport := events.any isTransport
  let gap := x.gapTaint || transport
  let resyncs := !away && limits.any fun l => l.1 == 0xA001 || l.1 == 0xA003
  let marked := if t = Take.discard then x else markRefs info x
  let taint := t == Take.substitute
    || (!info.rap && ((gap && q.fld 0x10C DecConceal.noGapTaint != 1) || (t == Take.decode && info.refs.any (refTaints marked))))
  let y := setFlagWhen under 4 (setFlagWhen transport 14 { newDecPic p x.next field2 e q c held t info x m.2 with tainted := taint })
  let s1 := setPipe p (tookPicture c r.1 t start away resyncs clip gap info marked y q x) { m.2 with freeCtr := m.2.freeCtr + 2 }
  let s2 := recordEvents p y.idx events (bumpWrap (Reg.pipPicCnt p) PipPicCnt.pipPicCnt s1)
  let s3 := if under then decEvent p DecStatus.underflow s2 else s2
  let s4 := if resyncs then decEvent p DecStatus.resync s3 else s3
  if t = Take.decode then
    prepareBlocks p y.idx (bindRefs p y.idx info.refs (info.refs.foldl (fun a f => substituteRef p y.idx f a) s4))
  else s4

/-- PIC_START, decode (R286, R297): on an interlaced domain field 2 of a frame-coded picture takes nothing. -/
def decPicStart (p arg : Nat) (info : StreamPic) (s : State) : State :=
  if pipeEnabled p s = false then s
  else
    match startCheck p s with
    | (false, s1) => s1
    | (true, s1) =>
      let x := getPipe p s1
      let second := decide (arg % 2 = 1) && domInterlaced (pipeDomain p s1) s1
      if second ∧ x.frameCoded = true then s1
      else
        match x.coded, pipeEntry p s1 with
        | c :: _, some e => if second ∧ info.field = false then s1 else takePicture p second e c info s1
        | [], _ => noPicture p info s1
        | _, none => s1

/-- PIC_START on pipeline `p` (R44, R76, R166): pictures start in RUN while the home region is up. The operand gives what the rules of the spec do
not: for a kind of pipeline other than the operand's, nothing starts. -/
def picStart (p : Nat) (info : PicInfo) (s : State) : State :=
  onAction actPicStart p (fun a t =>
    if inRun t = false ∨ homeReady p t = false then t
    else
      match info with
      | .encode => if pipeDecodes p t then t else encPicStart p a.arg t
      | .decode i => if pipeDecodes p t then decPicStart p a.arg i t else t) s

/-! ### Coded pictures and late data -/

/-- CODED_PICTURE_RECEIVED: the last byte of the coded picture being received is in its buffer (R283). -/
def codedPictureReceived (p : Nat) (s : State) : State :=
  onPipe p (fun x =>
    match x.lateFor, x.coded.getLast? with
    | some (i, _), _ => { updatePic i (fun y => { y with whole := true }) (extendStream i [] true x) with lateFor := none }
    | none, some c => { x with coded := x.coded.dropLast ++ [{ c with whole := true }] }
    | none, none => x) s

/-- PARTITION_DATA_TIMEOUT (R287): the rest of the partition is truncated data. -/
def partitionDataTimeout (p : Nat) (s : State) : State :=
  match (getPipe p s).pics.find? fun y => !y.complete && !y.whole with
  | none => s
  | some y =>
    if subPicture p s = false ∨ pipeDecodes p s = false then s
    else
      let e : EventIn := ⟨0x8001, 0xFFFF, 0xFFFF, Config.free s.freeCtr, y.held, Config.free (s.freeCtr + 1), y.picId,
        Config.free (s.freeCtr + 2), false⟩
      let s1 := onPic p y.idx (setFlag 4) { s with freeCtr := s.freeCtr + 3 }
      recordEvent p y.idx e (decEvent p DecStatus.underflow s1)

/-! ### Row units of a decoder (R306, R307, R312, R318, R328) -/

/-- How a concealed run is filled and from which picture (R307, R312, R317). -/
def concealMethod (y : Pic) (c : ConcealIn) (x : Pipe) : Nat × Nat :=
  let inter := !y.intra
  match y.firstRef with
  | some i =>
    if c.poison then (0, 0xFFFFFFFF)
    else if inter && holdsPic i x then (1, i)
    else match substituteSource y (some y.order) x with | some k => (2, k) | none => (0, 0xFFFFFFFF)
  | none =>
    if c.poison then (0, 0xFFFFFFFF)
    else match substituteSource y (some y.order) x with | some k => (2, k) | none => (0, 0xFFFFFFFF)

/-- DEC_CONCEAL.CORRUPT of a picture. -/
def corruptWhole (y : Pic) : Bool := getF DecConceal.corrupt (smGet 0 0x10C y.sets) == 1

/-- The CTUs of a concealed run, in the decoding order of its partition: along its row, then the rows below. The row unit's CTUs are the `n`
from column `x0` on. -/
def concealPlaces (x0 n : Nat) (c : ConcealIn) : List (Nat × Nat) :=
  (List.range c.count).map fun k => (x0 + (c.x - x0 + k) % max 1 n, c.y + (c.x - x0 + k) / max 1 n)

/-- The values that the CTUs of a concealed run take (R307): the same area of the source, or mid-grey. -/
def concealFills (y : Pic) (method src : Nat) (places : List (Nat × Nat)) (x : Pipe) : List (Nat × Nat × Planes) :=
  let n := 2 ^ y.ctuLog2
  let from_ := if method = 0 then greyPlanes y.chroma y.bitDepth y.coded.1 y.coded.2 else picPlanes src x
  places.map fun e =>
    let block := fun (c : Nat × Nat) (p : List (List Nat)) =>
      blockAt p (e.1 * c.1 : Nat) (e.2 * c.2 : Nat) (min c.1 (chromaW y.chroma y.coded.1)) (min c.2 (chromaH y.chroma y.coded.2))
    let c := (chromaW y.chroma n, chromaH y.chroma n)
    (e.1, e.2, ⟨from_.depth, blockAt from_.y (e.1 * n : Nat) (e.2 * n : Nat) (min n (y.coded.1 - e.1 * n)) (min n (y.coded.2 - e.2 * n)),
      block c from_.cb, block c from_.cr⟩)

/-- A concealed run of picture `i`, in a row unit of `n` CTUs from column `x0` on. -/
def concealRun (p i x0 n : Nat) (c : ConcealIn) (s : State) : State :=
  match picAt p i s with
  | none => s
  | some y =>
    let m := concealMethod y c (getPipe p s)
    if c.poison then
      queueWhen 1 p 0x12 i (decConcealBody c m.1 m.2) (onPic p i (fun z => setFlag 15 { z with tainted := true })
        (decEvent p DecStatus.poison s))
    else if corruptWhole y then onPic p i (fun z =>
      { z with substituted := true, tainted := true, cause := if z.substituted then z.cause else c.cause }) s
    else
      let fills := concealFills y m.1 m.2 (concealPlaces x0 n c) (getPipe p s)
      queueWhen 1 p 0x12 i (decConcealBody c m.1 m.2)
        (bumpBy c.count (Reg.decConcealCnt p) DecConcealCnt.decConcealCnt
          (decEvent p DecStatus.concealed
            (onPic p i (fun z => setFlag 0 { z with
              tainted := true, concealed := z.concealed + c.count, fills := z.fills ++ fills }) s)))

/-- The concealed runs of unit `k` in CTU row `row` (R302, R306): those that the decoder gives for a code that conceals, and for an event of such
a code without one, a run from its CTU to the end of the partition, whose later units are as wide as this one. -/
def unitRuns (k row : Nat) (out : UnitIn) (y : Pic) : List ConcealIn :=
  let n := out.ctus.length
  let first := fun e : EventIn => if out.x0 ≤ e.x ∧ e.x < out.x0 + n then e.x else out.x0
  let part := fun i => (y.unitParts[i]?).getD 0
  let later := ((List.range y.unitCount).filter fun i => decide (k < i) && part i == part k).length
  (out.conceals.filter fun c => c.poison || eventAction c.cause false == 2)
    ++ ((parseEvents out.events).filter fun e => eventAction e.code e.remains == 2 && out.conceals.all fun c => c.cause != e.code).map
      fun e => ⟨first e, row, out.x0 + n - first e + later * n, e.code, false⟩

/-- An event in a row unit that makes the whole picture undecodable (R302, R310). -/
def unitSubstitutes (out : UnitIn) (y : Pic) : Pic :=
  match (parseEvents out.events).find? fun e => eventAction e.code e.remains == 3 with
  | some e => if y.substituted then y else { y with substituted := true, tainted := true, cause := e.code }
  | none => y

/-- Events of a unit that are recorded: REF_POISON once per picture (R312). -/
def unitEvents (y : Pic) (l : List EventIn) : List EventIn :=
  let l1 := parseEvents l
  let first := l1.find? fun e => e.code == 0x6004
  (l1.filter fun e => e.code != 0x6004) ++ (match first with | some e => if y.flags.testBit 15 then [] else [e] | none => [])

/-- The CTU records of a unit. -/
def decCtuRecords (p : Nat) (y : Pic) (row : Nat) (out : UnitIn) (s : State) : State :=
  (out.ctus.zipIdx).foldl (fun a u =>
    let cx := out.x0 + u.2
    let n := (out.events.filter fun e => e.x == cx && e.y == row).length
    queueWhen 2 p 0x13 y.idx (decCtuBody cx row u.1 u.1.qp n) a) s

/-- A decoded picture with a row unit counted in; concealed CTUs have no QP (R315). -/
def countDecUnit (k : Nat) (out : UnitIn) (y : Pic) : Pic :=
  let qps := (out.ctus.filter fun c => c.mode % 4 != 3).map (·.qp)
  setUnit k { getUnit k y with done := true } { y with
    unitsDone := y.unitsDone + 1
    bits := y.bits + sumNat (out.ctus.map (·.bits))
    qpSum := y.qpSum + sumNat qps
    qpCount := y.qpCount + qps.length
    qpMin := if y.qpCount = 0 then qps.foldl min (qps.headD 0) else qps.foldl min y.qpMin
    qpMax := qps.foldl max y.qpMax }

/-- Every unit of entropy partition `j` of a decoded picture is complete. -/
def decPartDone (y : Pic) (j : Nat) : Bool :=
  (List.range y.unitCount).all fun k => (y.unitParts[k]?).getD 0 != j || (getUnit k y).done

/-- ROW_UNIT_COMPLETE of a decoded picture. Once every partition is done, the coded picture's buffers go back (R328). -/
def decUnitDone (p r b row col : Nat) (y : Pic) (operand : UnitIn) (s : State) : State :=
  if unitCan p r b row col y s = false then s
  else
    let k := unitIndex y row col
    let j := decJob p y.stream (some (row, col)) (getUnit k y).poisoned s
    let m := memoUnit j operand s
    let out := m.1
    let part := unitPart p y row col s
    let y1 := unitSubstitutes out (countDecUnit k out y)
    let last := decide (y1.unitsDone = y1.unitCount)
    let s1 := endUnit r b (onPic p y.idx (fun _ => if last then { y1 with bufs := [] } else y1) m.2)
    let s2 := (unitRuns k row out y).foldl (fun a c => concealRun p y.idx out.x0 out.ctus.length c a)
      (recordEvents p y.idx (unitEvents y out.events) s1)
    let s3 := if out.events.any isTransport then
        onPipe p (fun x => { x with gapTaint := true }) (onPic p y.idx (setFlag 14) s2)
      else s2
    let s4 := ropeDone p y.idx part (sumNat (out.ctus.map (·.bits))) (.decode j) (decPartDone y1 part)
      (decCtuRecords p y row out s3)
    if last then unitFreeAll y.bufs p s4 else s4

/-- ROW_UNIT_COMPLETE on block `b` of region `r`: the row unit it runs is done, where no re-run waits and its sequencer is not
halted. The operand is the outcome of decoding it; an encoded unit's outcome is the model's own. -/
def rowUnitComplete (r b : Nat) (out : UnitIn) (s : State) : State :=
  let x := getBlock r b s
  match x.running with
  | none => s
  | some (p, i, row, col) =>
    if x.reactions.isEmpty = false ∨ seqState r b s = 4 then s
    else
      match picAt p i s with
      | none => s
      | some y =>
        let s1 := if pipeDecodes p s then decUnitDone p r b row col y out s else encUnitDone p r b row col y s
        if (getBlock r b s1).running.isNone then injWaits r b s1 else s1

/-! ### Held pictures and completion (R291, R310, R311, R314) -/

/-- The references that a picture is decoded from: each slot or list index, whether it is a substitute, and its samples. -/
def refPlanes (y : Pic) (x : Pipe) : List (Nat × Bool × Planes) :=
  (y.refSlots.map fun e => (e.1, false, picPlanes e.2 x)) ++ y.subRefs.map fun e => (e.1, true, e.2)

/-- The samples of a picture as far as it has been decoded (R290, R307, R310, R312). -/
def decodedPlanes (p : Nat) (y : Pic) (s : State) : Planes :=
  let x := getPipe p s
  if y.substituted then substitutePlanes y (substituteSource y (some y.order) x) x
  else Config.decodeStream (decJob p y.stream none ((y.units.flatMap fun u => u.2.poisoned).eraseDups) s) (refPlanes y x) y.fills

/-- The decoded picture hash of picture `i` is checked (R299): DR_HASH is 1 where it matches the samples `img` and else 2, with PICTURE_HASH. -/
def checkHash (p i : Nat) (img : Planes) (s : State) : State :=
  match picAt p i s with
  | none => s
  | some y =>
    match (if y.substituted then none else y.hashSei) with
    | none => s
    | some h =>
      if Config.pictureHash (codecOf (pipePers p s)) h.method img = h.digest then onPic p i (fun z => { z with hash := 1 }) s
      else
        let e : EventIn := ⟨0x5006, 0xFFFF, 0xFFFF, h.bitOfs, Config.free s.freeCtr, Config.free (s.freeCtr + 1), y.picId, h.unit, false⟩
        recordEvent p i e (onPic p i (fun z => { z with hash := 2 }) { s with freeCtr := s.freeCtr + 2 })

/-- A decoded picture as the decoder holds it. -/
def heldOf (y : Pic) (waits : Bool) (img : Planes) : HeldPic :=
  { idx := y.idx
    order := y.order
    waiting := waits
    reference := y.refresh
    tainted := y.tainted
    size := y.size
    planes := img
    crop := y.crop
    area := (y.width, y.height)
    field := y.kind.testBit 3
    chroma := y.chroma
    fmt := getF DecOut.fmt (smGet 0 0x108 y.sets) }

/-- Put a decoded picture among the held ones, where it is a reference or is output. With every buffer held, the oldest one in
decode order is freed (R291). -/
def holdPic (p : Nat) (e : PipeEntry) (y : Pic) (img : Planes) (s : State) : State :=
  let x := getPipe p s
  let waits := y.shown && !y.missed && y.rowCount + (if y.substituted then 1 else 0) != 0
  let new := heldOf y waits img
  let s0 := onPic p y.idx (fun z => { z with stored := true }) s
  if !waits && !y.refresh then s0
  else
    match x.heldPics with
    | old :: rest =>
      if e.maxRefs ≤ x.heldPics.length then
        let ev : EventIn := ⟨0x6002, 0xFFFF, 0xFFFF, Config.free s.freeCtr, Config.free (s.freeCtr + 1),
          Config.free (s.freeCtr + 2), y.picId, Config.free (s.freeCtr + 3), false⟩
        let s1 := onPipe p (fun z => { z with heldPics := rest ++ [new] }) { s0 with freeCtr := s.freeCtr + 4 }
        recordEvent p y.idx ev (onPic p y.idx (setFlagWhen old.waiting 16) s1)
      else onPipe p (fun z => { z with heldPics := z.heldPics ++ [new] }) s0
    | [] => onPipe p (fun z => { z with heldPics := [new] }) s0

def writeDecRecord (p i : Nat) (s : State) : State :=
  match picAt p i s with | some y => queueWhen 1 p 0x10 i (decPictureBody y) s | none => s

/-- The whole picture is replaced by its substitute: its CTUs count as concealed, and one record tells it (R310, R317). -/
def substitutePic (p : Nat) (y : Pic) (s : State) : State :=
  if y.substituted then
    let src := substituteSource y (some y.order) (getPipe p s)
    queueWhen 1 p 0x12 y.idx (decConcealBody ⟨0, 0, y.ctus, y.cause, false⟩ 3 (src.getD 0xFFFFFFFF))
      (bumpBy y.ctus (Reg.decConcealCnt p) DecConcealCnt.decConcealCnt
        (decEvent p DecStatus.substituted (onPic p y.idx (fun z => setFlag 3 { z with tainted := true, concealed := y.ctus }) s)))
  else s

/-- The samples of a picture stand for those that refer to it; those that nothing holds or is decoded from any more go. -/
def keepRecon (i : Nat) (img : Planes) (x : Pipe) : Pipe :=
  let need := fun k => x.heldPics.any (·.idx == k) || x.pics.any fun z => !z.complete && z.refs.contains k
  { x with
    recon := smSet default i img (x.recon.filter fun e => need e.1)
    heldPics := x.heldPics.map fun h => if h.idx = i then { h with planes := img } else h
    lastOut := x.lastOut.map fun h => if h.idx = i then { h with planes := img } else h }

/-- PICTURE_COMPLETE of a decoder. Where the schedule has no EMIT entry for it, its record is written now (R314), and what DR_EMIT_PIC holds is
left open. -/
def decPictureDone (p : Nat) (y : Pic) (s : State) : State :=
  match pipeEntry p s with
  | none => s
  | some e =>
    let s0 := substitutePic p y s
    let s1 := checkHash p y.idx (decodedPlanes p ((picAt p y.idx s0).getD y) s) s0
    let y1 := (picAt p y.idx s1).getD y
    let img := decodedPlanes p y1 s
    let s2 := if y1.stored then s1 else holdPic p e y1 img s1
    let pos := domPos (pipeDomain p s) s
    let emits := hasEntries actEmit p s
    let s3 := onPic p y.idx (fun z => setFlagWhen z.tainted 1 { z with
      complete := true
      planes := img
      data := planeBytes img
      doneFrame := (pos.1 % 2 ^ 32).toNat
      doneLine := pos.2.1
      bufs := []
      emitPic := if emits then z.emitPic else Config.free s2.freeCtr
      emitDone := z.emitDone || !emits }) (unitFreeAll y.bufs p (stepFree s2))
    let s4 := onPipe p (fun x => keepRecon y.idx img { x with heldPics := x.heldPics.map fun h =>
      if h.idx = y.idx then { h with tainted := y1.tainted } else h }) s3
    let s5 := fput (Reg.decStatus p) DecStatus.taintNow (if y1.tainted then 1 else 0) s4
    if y.emitDone || !emits then writeDecRecord p y.idx s5 else s5

/-- PICTURE_COMPLETE: the oldest picture whose row units are all done. -/
def pictureComplete (p : Nat) (s : State) : State :=
  match (getPipe p s).pics.find? fun y => !y.complete with
  | none => s
  | some y =>
    if y.unitsDone ≠ y.unitCount then s
    else prune p (checkDrained p (if pipeDecodes p s then decPictureDone p y s else encPictureDone p y s))

/-! ### EMIT (R78, R89, R293, R296, R297) -/

/-- The format of a mid-grey picture that stands for one never emitted: the active area of the domain, 4:2:2 at 10 bits (assumption 170). -/
def greyOut (p : Nat) (s : State) : HeldPic :=
  let d := pipeDomain p s
  { idx := 0xFFFFFFFF
    order := 0
    waiting := false
    reference := false
    tainted := false
    size := 0
    planes := greyPlanes 1 10 (activeW d s) (activeH d s)
    crop := (0, 0)
    area := (activeW d s, activeH d s)
    field := false
    chroma := 1
    fmt := 0 }

/-- Emission goes on with picture `h`: it is what a repeat sends from then on. -/
def beginOut (p : Nat) (h : HeldPic) (s : State) : State :=
  emit (.picture p h.idx) (onPipe p (fun x => { x with lastEmit := h.idx + 1, lastSize := h.size, outBefore := x.lastOut, lastOut := some h }) s)

/-- The picture that was emitted last, once more, or mid-grey where none was. -/
def repeatPic (p : Nat) (s : State) : HeldPic := ((getPipe p s).lastOut).getD (greyOut p s)

/-- Held pictures that wait for output, among those decoded up to picture `n`. -/
def waitingPics (n : Nat) (x : Pipe) : List HeldPic := sortBy (·.order) (x.heldPics.filter fun h => h.waiting && decide (h.idx ≤ n))

/-- The picture that the EMITs of picture `y` send, as the first of them begins it (R293): the earliest in output order of those that wait, where more than
D do; else the last one once more. -/
def chooseOut (p : Nat) (e : PipeEntry) (y : Pic) (s : State) : State :=
  let s1 := if subPicture p s = true ∧ y.complete = false ∧ y.missed = false ∧ y.stored = false then
      holdPic p e y (decodedPlanes p y s) s
    else s
  let l := waitingPics y.idx (getPipe p s1)
  match (if y.missed = false ∧ y.depth < l.length then l.head? else none) with
  | some h =>
    beginOut p h (onPic p y.idx (fun z => { z with emitPic := h.idx }) (onPipe p (fun x => { x with
      heldPics := (x.heldPics.map fun g => if g.idx = h.idx then { g with waiting := false } else g).filter
        fun g => g.reference || g.waiting }) s1))
  | none => beginOut p (repeatPic p s1) (onPic p y.idx (fun z => setFlag 9 { z with emitPic := 0xFFFFFFFF }) s1)

/-- What is sent now of the picture in emission: in sub-picture mode a picture still being decoded is as far as it has come, and after a missed
deadline the picture before it (R87). -/
def currentOut (p : Nat) (y : Pic) (s : State) : HeldPic :=
  let h := repeatPic p s
  if h.idx ≠ y.idx ∨ y.complete = true then h
  else if y.missed then ((getPipe p s).outBefore).getD (greyOut p s)
  else { h with planes := decodedPlanes p y s }

/-- The EMIT is of a frame on an interlaced domain, which takes two. -/
def emitsFrame (p : Nat) (y : Pic) (s : State) : Bool := domInterlaced (pipeDomain p s) s && !y.kind.testBit 3

/-- The lines up to which an EMIT of picture `y` sends: all, or in sub-picture mode before the full-count deadline the CTU rows that the last
ROW_DEADLINE counted, of one field where a frame's fields go one after the other. -/
def emitUpTo (p : Nat) (y : Pic) (s : State) : Nat :=
  let lines := y.due / max 1 y.tiles * 2 ^ y.ctuLog2
  if subPicture p s = false ∨ y.fullFired = true then 2 ^ 16 else if emitsFrame p y s then lines / 2 else lines

/-- The first field, or the whole picture, has been sent. -/
def firstSent (y : Pic) : Bool := decide (2 ^ 16 ≤ y.sentLines)

/-- One EMIT of picture `y`, whose output has begun: the next lines, or a frame's second field. -/
def emitLines (p at_ : Nat) (y : Pic) (s : State) : State :=
  let h := currentOut p y s
  let second := firstSent y
  let hi := emitUpTo p y s
  let rows := if second then none else some (y.sentLines, hi)
  let done := if second then true else decide (2 ^ 16 ≤ hi)
  emitToPorts p ⟨h.idx, h, second, rows, done, at_⟩ (onPic p y.idx (fun z => { z with
    sentLines := max z.sentLines hi
    emitDone := done && (second || !emitsFrame p y s) }) s)

/-- The output of the pictures before `y` is over: a later picture's has begun. -/
def closeBefore (p : Nat) (y : Pic) (s : State) : State :=
  ((getPipe p s).pics.filter fun z => decide (z.idx < y.idx) && !z.emitDone).foldl (fun a z =>
    let a1 := onPic p z.idx (fun w => { w with emitDone := true }) a
    if z.complete then writeDecRecord p z.idx a1 else a1) s

/-- An EMIT that has no picture of its own: the last picture emitted once more. -/
def emitAgain (p at_ : Nat) (s : State) : State :=
  let h := repeatPic p s
  emitToPorts p ⟨h.idx, h, false, none, true, at_⟩ (beginOut p h s)

/-- EMIT on pipeline `p`, whose entry fired at mesh cycle `at_`. -/
def emitOn (p at_ : Nat) (s : State) : State :=
  let x := getPipe p s
  match pipeEntry p s with
  | none => s
  | some e =>
    if pipeDecodes p s = false ∨ (pipeEnabled p s = false ∧ x.draining = false) then s
    else if x.repeatNext then emitAgain p at_ (onPipe p (fun z => { z with repeatNext := false }) s)
    else
      match outPic p (·.emitDone) s with
      | none => if pipeEnabled p s then emitAgain p at_ s else s
      | some y =>
        let s1 := if y.emitBegun = false then chooseOut p e y (closeBefore p y s) else s
        let s2 := emitLines p at_ ((picAt p y.idx s1).getD y) (onPic p y.idx (fun z => { z with emitBegun := true }) s1)
        let done := (picAt p y.idx s2).any fun z => z.emitDone && z.complete
        prune p (checkDrained p (if done then writeDecRecord p y.idx s2 else s2))

def emitAction (p : Nat) (s : State) : State := onAction actEmit p (fun a t => if inRun t then emitOn p a.fired t else t) s

end Sys2Proof.Machine
end

