-- ==== Sys2Proof/Machine/Startup.lean ====
section
/-! DEFINITION. Start-up, resets, the link's training and the function-level reset of a VF (chapter "Start-up, operating modes
and the Mitten bypass"). -/

namespace Sys2Proof.Machine

open Sys2Proof

/-! ### Start-up (R143 to R151) -/

/-- Write a MODE entry in the log and drive the ring path of the new mode. -/
def modeEntered (old new : Nat) (s : State) : State := applyMitten (logWrite logMode (old + 256 * new) 0 0 s)

/-- CHIP_START: PERST_N is deasserted with supplies good and no reset held by Base Camp; the chip leaves BYPASS, loads its fuses
and checks the slots (R145, R146 steps 1 to 4). The TAP executes BYPASS from here on (R691). The operands are the outcomes of the cryptographic checks of slots A and B. -/
def chipStart (vA vB : SlotVerdict) (s : State) : State :=
  if s.pwr.bypass = false ∨ suppliesGood s = false ∨ s.pwr.hold = true ∨ s.pwr.trip = true then s
  else
    let s1 : State := { s with
      pwr := { s.pwr with bypass := false, perst := false, padsOff := false, boot := .loading }
      tap := { s.tap with instr := .bypass, driving := false, highZ := false } }
    loadSlots vA vB (modeEntered 0 1 (fput Reg.chipMode ChipMode.curMode 1 (flashHeaderRead s1)))

/-- Training outcomes of stack `c`: the third failure enters SAFE with the class of a stack that failed training (R151). When the
last stack has trained, the staged composition is written into effect and its carve-outs are filled (R112). -/
def hbmStackTrained (c : StackId) (ok : Bool) (s : State) : State :=
  if s.pwr.boot ≠ .training ∨ s.pwr.bypass = true ∨ curMode s ≠ 1 ∨ s.pwr.trained.contains c = true then s
  else if ok then
    let l := s.pwr.trained ++ [c]
    let s0 := stackTrained c (fput (Reg.memStatus c) MemStatus.memState 1 (fput (Reg.memStatus c) MemStatus.trainOk 0xFFFF s))
    let s1 : State := { s0 with pwr := { s0.pwr with trained := (List.finRange 4).filter fun k => l.contains k } }
    if (List.finRange 4).all fun k => (s1.pwr.trained).contains k then
      match s1.staged with
      | some im => install im { s1 with pwr := { s1.pwr with boot := .filled } }
      | none => s1
    else s1
  else
    let n := smGet 0 c.val s.pwr.trainFails + 1
    let s1 : State := { s with pwr := { s.pwr with trainFails := smSet 0 c.val n s.pwr.trainFails } }
    if n = 3 then chipFault ⟨classHbmTrain, c.val, false, none⟩ (fput (Reg.memStatus c) MemStatus.memState 3 s1) else s1

/-- A change of PTP_STATE is logged with the master's identity (R648, R653). -/
def setPtpState (v : Nat) (s : State) : State :=
  if fget Reg.bcmPtpStatus BcmPtpStatus.ptpState s = v then s
  else logWrite logPtp v s.bc.ptpMaster 0 (fput Reg.bcmPtpStatus BcmPtpStatus.ptpState v s)

/-- PTP runs where the LANES section names a MAC complex for it (R653). -/
def ptpRuns (s : State) : Bool := decide (s.comp.ptpMac < 8) && s.clock.running

/-- RELEASE_TO_BIVOUAC (R146 step 6). -/
def releaseToBivouac (s : State) : State :=
  if s.pwr.boot ≠ .filled ∨ s.pwr.bypass = true ∨ curMode s ≠ 1 then s
  else
    let s1 : State := { s with
      pwr := { s.pwr with boot := .done, memActive := true }
      staged := none
      now := 0
      clock := { s.clock with running := true } }
    let s2 := (List.range 16).foldl (fun a r => setRgcState r 0 a) s1
    let s3 := selectSource (sourceCode (fget Reg.rckCtl RckCtl.rckRefPri s2)) s2
    let s4 := (validDomains s3).foldl (fun a d => startWalk d a) s3
    let s5 := (List.range 16).foldl (fun a k => poolRelease k a) s4
    let s6 := updatePoints (fput Reg.bcmPowerCap BcmPowerCap.capW (min 400 (max 50 s5.comp.capW)) s5)
    let s7 := fset Reg.glvSummary GlvSummary.glvLocked (fset Reg.chipMode ChipMode.memActive s6)
    let s8 := modeEntered 1 2 (fput Reg.chipMode ChipMode.curMode 2 s7)
    setPtpState (if ptpRuns s8 then 1 else 0) s8

/-! ### The link (R519, R522) -/

/-- CXL_STATUS.WIDTH of a link with a partner of so many lanes: 2 for x8, 1 for x4, and no link below. -/
def linkWidth (lanes : Nat) : Nat := if 8 ≤ lanes then 2 else if 4 ≤ lanes then 1 else 0

/-- CXL_LINK_UP: the link trains at the width of its partner, with the rate code as the register's. -/
def cxlLinkUp (mode : LinkMode) (lanes rate : Nat) (s : State) : State :=
  if s.pwr.bypass = true ∨ s.pwr.linkUp = true ∨ s.cxl.retraining = true ∨ linkWidth lanes = 0 then s
  else
    let pcie := mode == LinkMode.pcie
    let s1 : State := { s with pwr := { s.pwr with linkUp := true, linkPcie := pcie } }
    let s2 := fput Reg.cxlStatus CxlStatus.rate rate (fput Reg.cxlStatus CxlStatus.width (linkWidth lanes)
      (fput Reg.cxlStatus CxlStatus.linkMode (if pcie then 1 else 2) s1))
    fput Reg.chipMode ChipMode.pcieOnly (if pcie then 1 else 0) s2

/-! ### Resets (R152, R153, R176) -/

/-- PERST_ASSERT: a filtered assertion of PERST_N. -/
def perstAssert (s : State) : State :=
  if s.pwr.aux then chipReset 1 { s with pwr := { s.pwr with perst := true } } else s

/-- LINK_RESET: a hot reset or link disable on a link that is up. -/
def linkReset (s : State) : State := if s.pwr.linkUp then chipReset 2 s else s

/-- PASS_THROUGH_LOCK: the internal path is selected and receives signal. -/
def passThroughLock (s : State) : State :=
  if s.pwr.mittenN = true ∧ fget Reg.chipMode ChipMode.mittenPath s = 1 then { s with pwr := { s.pwr with passThrough := true } }
  else s

/-! ### Function-level resets (R153, R154) -/

/-- Disable pipeline `p` at its next cairn, or at once where none of its blocks runs. -/
def flrPipe (p : Nat) (s : State) : State :=
  if pipeEnabled p s = false then s
  else
    match pipeEntry p s with
    | none => s
    | some e =>
      match e.blocks.find? fun k => (match (getBlock (k / 8) (k % 8) s).running with | some (q, _) => q == p | none => false) with
      | some k => requestCairn (k / 8) (k % 8) (.disable p) s
      | none => pipeDisable p s

def flrDma (c : Nat) (s : State) : State :=
  if fbit (Reg.dmaCtl c) DmaCtl.enable s then dmaCtlWrite c (putF DmaCtl.enable (rd (Reg.dmaCtl c) s) 0) s else s

/-- A function-level reset of domain `d`: what it owns is disabled as if host software had cleared its enable, and its routed
sources are masked. -/
def flrDomain (d : Nat) (s : State) : State :=
  let pipes := (s.comp.pipes.filter fun e => owner s glvPipe e.pipe == d).map (·.pipe)
  let ports := (s.comp.ports.filter fun e => owner s glvPort e.port == d).map (·.port)
  let chans := (List.range 64).filter fun c => owner s glvDma c == d
  let s1 := pipes.foldl (fun a p => flrPipe p a) s
  let s2 := ports.foldl (fun a n => portDisable n a) s1
  flrIcu d (chans.foldl (fun a c => flrDma c a) s2)

/-- FLR_VF: VF `d` exists while NumVFs is at least `d`. -/
def flrVf (d : Nat) (s : State) : State :=
  if d = 0 ∨ s.icu.numVfs < d ∨ s.pwr.linkUp = false ∨ s.pwr.bypass = true then s else flrDomain d s

end Sys2Proof.Machine
end

