-- ==== Sys2Proof/Machine/Mode.lean ====
section
/-! DEFINITION. Mode requests and transitions, FORCE_SAFE and the control of Mitten (chapter "Start-up, operating modes and the
Mitten bypass", R157 to R180, and R614). -/

namespace Sys2Proof.Machine

open Sys2Proof

/-- Put the result of a mode request in MODE_REFUSE and raise source 1 (R161). -/
def modeResult (code : Nat) (s : State) : State := raise 1 (fput Reg.chipMode ChipMode.modeRefuse code s)

/-- A maintenance operation runs: every operation of the Command Port that R555 gives to MAINTAIN alone or besides, and that works
on a unit. -/
def maintOpRunning (s : State) : Bool :=
  cmdBusy s && ([0x10, 0x11, 0x12, 0x20, 0x21, 0x22].contains (fget Reg.cmdStatus CmdStatus.curOp s))

/-- Some pipeline is enabled (R163). -/
def anyPipeEnabled (s : State) : Bool := s.comp.pipes.any fun e => pipeEnabled e.pipe s

/-- What a request for mode `k` in mode `cur` meets (R158, R159): a code, or none where the transition starts. -/
def modeRefusal (cur k : Nat) (s : State) : Option Nat :=
  if cur = 3 ∧ k = 2 then (if anyPipeEnabled s then some 0xE2 else none)
  else if cur = 2 ∧ k = 3 then none
  else if cur = 2 ∧ k = 4 then none
  else if cur = 4 ∧ k = 2 then
    (if s.comp.inForce = false then some 0xE4 else if maintOpRunning s then some 0xE5 else none)
  else if cur = 1 ∧ k = 4 ∧ fget Reg.cfgStatus CfgStatus.cfgState s = 4 then none
  else some 0xE3

/-- A write of code `k` to MODE_REQ. -/
def modeRequest (k : Nat) (s : State) : State :=
  if k = 0 then s
  else if modeBusy s then modeResult 0xE6 s
  else if k = curMode s ∧ 2 ≤ k ∧ k ≤ 4 then fput Reg.chipMode ChipMode.modeRefuse 0 s
  else
    match modeRefusal (curMode s) k s with
    | some c => modeResult c s
    | none =>
      let s1 := fset Reg.chipMode ChipMode.modeBusy s
      { s1 with pwr := { s1.pwr with modeTarget := k, modeReqAt := s.bc.auxPs } }

/-- A request for mode `k` falls in the cycle of SAFE entry (R164). -/
def requestMeetsSafe (k : Nat) (s : State) : Bool := decide (k ≠ 0) && s.pwr.safeAt == some s.bc.auxPs

/-- The region has a block with a personality, or a standby block (R159). -/
def regionUsed (r : Nat) (s : State) : Bool :=
  let b := regionBlocks r s
  b.2.1 != 0 || decide (b.2.2 < 8)

/-- RUN entry brings a used region to READY. -/
def regionOnRun (r : Nat) (s : State) : State :=
  if rgcState r s = 0 ∧ regionUsed r s = true ∧ regionHeld r s = false then powerUp r s else s

/-- Entry to BIVOUAC or MAINTAIN gates every READY region, one with a block at work once its blocks are idle (R638); a DEGRADED
region stays so (R171, R173). -/
def regionOnGate (r : Nat) (s : State) : State :=
  let busy := rgcState r s == 1 && !blocksIdle r s
  let s1 := if rgcState r s = 1 ∧ busy = false then gateRegion r s else s
  setWaitingActs r [] (setRegion r { getRegion r s1 with regateDue := busy } s1)

/-- The next four regions that RUN entry brings to READY (R159). -/
def nextRunRegions (s : State) : List Nat :=
  ((List.range 16).filter fun r => rgcState r s == 0 && regionUsed r s && !regionHeld r s).take 4

/-- Four regions at a time become READY while the transition to RUN is in progress (R159). -/
def runGroup (s : State) : State := (nextRunRegions s).foldl (fun a r => regionOnRun r a) s

/-- The effects of entering mode `k` on the regions and on FLASH_WE (R159, R655). -/
def enterMode (k : Nat) (s : State) : State :=
  let s1 := if curMode s = 4 then fclr Reg.bcmFlashCtl BcmFlashCtl.flashWe s else s
  if k = 3 then runGroup (runGroup (runGroup (runGroup s1)))
  else (List.range 16).foldl (fun a r => regionOnGate r a) s1

/-- No region is ACTIVE. -/
def noRegionActive (s : State) : Bool := (List.range 16).all fun r => rgcState r s != 2

/-- MODE_TRANSITION_DONE: the transition that MODE_BUSY shows completes; to BIVOUAC only once no region is ACTIVE. Before CUR_MODE reads RUN or
MAINTAIN every controller has left self-refresh (R377). -/
def modeTransitionDone (s : State) : State :=
  let k := s.pwr.modeTarget
  if modeBusy s = false ∨ (curMode s = 3 ∧ noRegionActive s = false) then s
  else
    let old := curMode s
    let s0 := if k = 2 then s else hostRun (leaveSelfRefresh s)
    let s1 := fclr Reg.chipMode ChipMode.modeBusy (fput Reg.chipMode ChipMode.curMode k (enterMode k s0))
    modeResult 0 (modeEntered old k { s1 with pwr := { s1.pwr with modeTarget := 0 } })

/-- FORCE_SAFE, and the entry to SAFE of R614: a fault of class FORCED (R584), which names no unit. -/
def forceSafe (s : State) : State :=
  if curMode s = 5 ∨ s.pwr.bypass = true then s else chipFault ⟨classForced, 15, false, none⟩ s

/-- SAFE_ENTRY for the causes of R614. An L4 fault is recorded in the chip's history too. -/
def safeEntry (c : SafeCause) (s : State) : State :=
  match c with
  | .fault cls unit => if isL4 cls then chipFault ⟨cls, unit, false, none⟩ s else s
  | .forced => forceSafe s
  | .training k => chipFault ⟨classHbmTrain, k, false, none⟩ s

/-- A write of code `v` to MITTEN_FORCE; 3 is reserved and acts as AUTO (R13, R180). -/
def mittenForceWrite (v : Nat) (s : State) : State := applyMitten (fput Reg.chipForce ChipForce.mittenForce v s)

end Sys2Proof.Machine
end

