-- ==== Sys2Proof/Machine/CommandPort.lean ====
section
/-! DEFINITION. The Command Port and its operations (R552 to R560): flash, fuses, self-tests, the memory test, RECOMPOSE_REGION
(R135 to R142), and the function-level reset of PF0, which aborts a running operation. -/

namespace Sys2Proof.Machine

open Sys2Proof

/-! ### Starting and ending an operation -/

def cmdArg (i : Nat) (s : State) : Nat := ((s.cmd.args[i]?).getD 0).toNat

def curOp (s : State) : Nat := fget Reg.cmdStatus CmdStatus.curOp s

def cmdAborting (s : State) : Bool := fbit Reg.cmdStatus CmdStatus.aborting s

/-- A write to CMD_OP or CMD_ARG while an operation runs (R553). -/
def busyRejected (s : State) : State :=
  bumpBy 1 Reg.cmdRejectCnt whole (fput Reg.cmdStatus CmdStatus.cmdRefuse 0x80 s)

/-- A write to CMD_ARG `n` (R553). -/
def cmdArgWrite (n : Nat) (v : Word) (s : State) : State := if cmdBusy s then busyRejected s else wr (Reg.cmdArg n) v s

/-- Modes in which an operation is allowed (R555). -/
def opModes (op : Nat) : List Nat :=
  match op with
  | 0x01 => [1, 2, 3, 4, 5]
  | 0x02 => [1, 2, 3, 4, 5]
  | 0x10 => [4]
  | 0x11 => [2, 3, 4]
  | 0x12 => [4]
  | 0x20 => [2, 3, 4]
  | 0x21 => [4]
  | 0x22 => [4]
  | 0x31 => [2, 3]
  | _ => []

def opKnown (op : Nat) : Bool := !(opModes op).isEmpty

/-- The arguments that a resume record is matched by (R558, R623, R626, R657). -/
def resumeArgs (op : Nat) : Nat := match op with | 0x10 => 5 | 0x20 => 1 | 0x22 => 2 | _ => 0

/-- Units done by the run that this one continues: 0 where bit 31 of CMD_ARG7 is clear or no record matches. -/
def resumeFrom (op : Nat) (args : List Word) (r : Option Resume) : Nat :=
  match r with
  | some x =>
    if ((args[7]?).getD 0).getLsbD 31 ∧ x.op = op ∧ x.args.take (resumeArgs op) = args.take (resumeArgs op) then x.done else 0
  | none => 0

/-- CMD_OP takes code `op`: the operation copies its arguments, its code, mode and key are checked (R552, R554), and `body` goes
on with its own arguments. From a failed LOAD, MAINTAIN gives only flash update and fuse read-out (R169). `armed` tells that the key guard was armed. -/
def startOp (op : Nat) (armed : Bool) (body : State → State) (s : State) : State :=
  if op = 0 then s
  else if cmdBusy s then busyRejected s
  else
    let args := (List.range 8).map fun n => rd (Reg.cmdArg n) s
    let s1 := wr Reg.cmdProgress 0 (fput Reg.cmdStatus CmdStatus.curOp op (fset Reg.cmdStatus CmdStatus.busy s))
    let s2 : State := { s1 with cmd := { Cmd.init with args := args, resume := s.cmd.resume, enableWait := s.cmd.enableWait } }
    if opKnown op = false then cmdFinish 0x83 s2
    else if (opModes op).contains (curMode s) = false then cmdFinish 0x84 s2
    else if s.comp.inForce = false ∧ (op = 0x20 ∨ op = 0x21 ∨ op = 0x22) then cmdFinish 0x84 s2
    else if op = 0x12 ∧ armed = false then cmdFinish 0x86 s2
    else body s2

/-- The run continues after `n` units. -/
def setStep (n : Nat) (s : State) : State := wr Reg.cmdProgress (BitVec.ofNat 32 n) { s with cmd := { s.cmd with step := n } }

def cmdOut (i v : Nat) (s : State) : State := wr (Reg.cmdOut i) (BitVec.ofNat 32 v) s

/-- Keep a resume record of an aborted run with `n` units done. -/
def keepResume (n : Nat) (s : State) : State :=
  { s with cmd := { s.cmd with resume := some ⟨curOp s, s.cmd.args, n⟩ } }

/-- End an operation that an abort stopped, or that has completed with `result`. -/
def endOp (result : Nat) (s : State) : State := cmdFinish (if cmdAborting s then 0x82 else result) s

/-! ### PING, CHIP_REBOOT, FUSE_READ -/

def ping (s : State) : State :=
  startOp 0x01 false (fun t => (List.range 4).foldl (fun a i => cmdOut i (cmdArg i t) a) t) s

/-- CHIP_REBOOT (R153, R156): no completion is posted. -/
def chipReboot (s : State) : State := startOp 0x02 false (fun t => chipReset 3 t) s

/-- FUSE_READ (R652). -/
def fuseRead (armed : Bool) (s : State) : State :=
  startOp 0x12 armed (fun t =>
    if 32 ≤ cmdArg 0 t then cmdFinish 0x85 t
    else (List.range 4).foldl (fun a i => cmdOut i (fuseWord (4 * cmdArg 0 t + i)).toNat a) t) s

/-! ### Flash (R654 to R658) -/

def sectorSize : Nat := 0x10000

/-- The flash areas that FLASH_WRITE may write: offset and size. -/
def flashAreas : List (Nat × Nat) :=
  [(0, 0x100000), (0x1000000, 0x1000000), (0x2000000, 0x1000000), (0x4000000, 0x6000000), (0xA000000, 0x6000000)]

def flashSize : Nat := 0x10000000

/-- The device or host address in CMD_ARG1 and CMD_ARG2. -/
def cmdAddress (s : State) : Nat := cmdArg 1 s + 2 ^ 32 * cmdArg 2 s

/-- The address arguments are sound: CMD_ARG3 holds bit 0 only, and an HBM range lies in carve-outs of domain 0. -/
def cmdRangeOk (n : Nat) (s : State) : Bool :=
  decide (cmdArg 3 s ≤ 1) && (cmdArg 3 s == 1 || inDomain 0 (cmdAddress s) n s)

/-- Bytes [o, o + n) of the source of an operation: HBM, by class STREAM (R32 names no class for them: assumption 159), or what the host answered;
bytes that no answer gives are free. -/
def cmdSource (o n : Nat) (h : HostRead) (s : State) : List Byte × State :=
  if cmdArg 3 s = 0 then
    let r := readBytes 3 (cmdAddress s + o) n s
    (r.1.1, r.2)
  else
    let l := match h with | .data b => b | .poisoned b => b | .error => []
    (hostBytes s n (l.drop o), stepFree s)

/-- FLASH_WRITE starts (R654, R655, R657). -/
def flashWrite (s : State) : State :=
  startOp 0x10 false (fun t =>
    let o := cmdArg 0 t
    let n := cmdArg 4 t
    if fbit Reg.bcmFlashCtl BcmFlashCtl.flashWe t = false then cmdFinish 0x86 t
    else if o % sectorSize ≠ 0 ∨ n % sectorSize ≠ 0 ∨ cmdRangeOk n t = false
        ∨ (flashAreas.any fun a => decide (a.1 ≤ o) && decide (o + n ≤ a.1 + a.2)) = false then cmdFinish 0x85 t
    else setStep (resumeFrom 0x10 t.cmd.args t.cmd.resume) t) s

/-- Put bytes in flash from offset `o` on. -/
def flashPut (o : Nat) : List Byte → State → State
  | [], s => s
  | b :: l, s => flashPut (o + 1) l { s with flash := smSet 0xFF#8 o b s.flash }

/-- Write sectors `k` to `k + n - 1` of the source; a sector that still fails holds no known bytes. -/
def flashSectors (bad : List Nat) (src : List Byte) : Nat → Nat → State → State
  | _, 0, s => s
  | k, n + 1, s =>
    let bytes := (src.drop (k * sectorSize)).take sectorSize
    let held := if bad.contains k then freeBytes s.freeCtr sectorSize else bytes
    flashSectors bad src (k + 1) n (flashPut (cmdArg 0 s + k * sectorSize) held (stepFree s))

/-- FLASH_WRITE ends (R656), or stops after `units` sectors (R657). The CRC-32 covers the sectors of earlier runs that this one goes on
from too, as the worked example of the chapter has it (assumption 177). -/
def flashWriteEnd (e : OpEnv) (s : State) : State :=
  let total := cmdArg 4 s / sectorSize
  let first := s.cmd.step
  let last := if cmdAborting s then min total (max first e.units) else total
  let src := cmdSource 0 (cmdArg 4 s) e.host s
  let s1 := flashSectors e.sectors src.1 first (last - first) src.2
  let written := src.1.take (last * sectorSize)
  let s2 := cmdOut 1 (e.sectors.filter fun k => decide (first ≤ k) && decide (k < last)).eraseDups.length
    (cmdOut 0 (crc32 written) (setStep last s1))
  endOp 0 (if cmdAborting s then keepResume last s2 else s2)

/-- FLASH_READ starts (R658). -/
def flashRead (s : State) : State :=
  startOp 0x11 false (fun t =>
    let o := cmdArg 0 t
    let n := cmdArg 4 t
    if o % 64 ≠ 0 ∨ n % 64 ≠ 0 ∨ flashSize < o + n ∨ cmdRangeOk n t = false then cmdFinish 0x85 t else t) s

/-- FLASH_READ ends, or stops at the cairn after `units` pieces of 64 KiB. -/
def flashReadEnd (e : OpEnv) (s : State) : State :=
  let n := if cmdAborting s then min (cmdArg 4 s) (e.units * sectorSize) else cmdArg 4 s
  let bytes := flashBytes s (cmdArg 0 s) n
  let s1 := if cmdArg 3 s = 0 then writeBytes (cmdAddress s) bytes false s else emit (.hostWrite 0 (cmdAddress s) bytes false) s
  endOp 0 s1

/-! ### Self-tests and the memory test (R623 to R626) -/

def cellBad (r b : Nat) (e : OpEnv) : List Nat :=
  (e.cells.filter fun x => x.1.val == r && x.2.1.val == b).map fun x => x.2.2.val

def blockBad (r b : Nat) (e : OpEnv) : Bool := e.blocks.any fun x => x.1.val == r && x.2.val == b
def controllerBad (r : Nat) (e : OpEnv) : Bool := e.controllers.any fun x => x.val == r

/-- The results of one block: failed cells are retired with CELL_TEST, any other failure records BLOCK_TEST. -/
def blockResults (r b : Nat) (e : OpEnv) (s : State) : State :=
  let s1 := (cellBad r b e).foldl (fun a c => blockFault r b [⟨classCellTest, c, false, none⟩] a) s
  if blockBad r b e then blockFault r b [⟨classBlockTest, 15, false, none⟩] s1 else s1

/-- The routine that a block's test starts with: LINE_STORE_TEST where a resumed one stopped in it (R357). -/
def firstTest (r b : Nat) (resume : Bool) (s : State) : Nat :=
  if resume && fbit (Reg.seqStatus r b) SeqStatus.seqResumeValid s && decide ((rd (Reg.seqResume r b 0) s).toNat % 256 = 7) then 7 else 6

/-- The test sequencers of a region's blocks start; they end, or stop with a resume record where an abort came (R355). -/
def testsStart (r : Nat) (s : State) : State :=
  let resume := ((s.cmd.args[7]?).getD 0).getLsbD 31
  (List.range 8).foldl (fun a b =>
    if seqState r b a = 0 ∨ seqState r b a = 3 then seqStart r b (firstTest r b resume a) r resume a else a) s

/-- One of the routines of an operation ends on a block, or stops with a resume record. -/
def routineEnds (routines : List Nat) (r b : Nat) (stopped : Bool) (s : State) : State :=
  if routines.contains (fget (Reg.seqStatus r b) SeqStatus.seqRoutine s) = false then s
  else if stopped then writeResume r b (if s.cmd.flrAbort then 2 else 1) s
  else seqEnd r b s

/-- A region goes back to the GATED state it had before a test. -/
def regionBack (r prior : Nat) (s : State) : State :=
  if prior = 0 ∧ rgcState r s = 1 then gateRegion r (setRegion r { getRegion r s with regateDue := false } s) else s

/-- REGION_SELFTEST starts (R623, R640). -/
def regionSelftest (s : State) : State :=
  startOp 0x20 false (fun t =>
    let r := cmdArg 0 t
    if 16 ≤ r then cmdFinish 0x85 t
    else if (enabledOn r t).isEmpty = false then cmdFinish 0xE0 t
    else if rgcState r t = 3 ∨ regionHeld r t = true then cmdFinish 0xE7 t
    else
      let t1 : State := { t with cmd := { t.cmd with prior := rgcState r t } }
      testsStart r (setStep (resumeFrom 0x20 t.cmd.args t.cmd.resume) (if rgcState r t = 0 then powerUp r t1 else t1))) s

/-- Pipelines whose enable waited for the end of the self-test are checked now (R624). -/
def runWaiting (s : State) : State :=
  let l := s.cmd.enableWait
  l.foldl (fun a p => if pipeEnabled p a then a else pipeEnable p a) { s with cmd := { s.cmd with enableWait := [] } }

/-- Failed cells as bits 12 x block + cell. -/
def cellBits (r : Nat) (bs : List Nat) (e : OpEnv) : Nat :=
  bs.foldl (fun n b => n + (List.range 12).foldl (fun m c => m + (if (cellBad r b e).contains c then 2 ^ (12 * b + c) else 0)) 0) 0

/-- REGION_SELFTEST ends, or stops with `units` blocks done. -/
def regionSelftestEnd (e : OpEnv) (s : State) : State :=
  let r := cmdArg 0 s
  let first := s.cmd.step
  let last := if cmdAborting s then min 8 (max first e.units) else 8
  let bs := (List.range 8).filter fun b => decide (first ≤ b) && decide (b < last)
  let bits := cellBits r bs e
  let other := bs.foldl (fun n b => n + (if blockBad r b e then 2 ^ b else 0)) 0
  let ctl := controllerBad r e && !cmdAborting s
  let s1 := bs.foldl (fun a b => blockResults r b e a) s
  let s2 := (List.range 8).foldl (fun a b => routineEnds [6, 7] r b (decide (last ≤ b)) a) s1
  let s3 := cmdOut 3 (bits / 2 ^ 64) (cmdOut 2 (bits / 2 ^ 32) (cmdOut 1 bits
    (cmdOut 0 (other + (if ctl then 2 ^ 16 else 0)) (setStep last s2))))
  let s4 := regionBack r s.cmd.prior (if cmdAborting s then keepResume last s3 else s3)
  runWaiting (endOp (if bits = 0 ∧ other = 0 ∧ ctl = false then 0 else 0xE8) s4)

/-- The test of region `r` starts (R623): a GATED region is brought to READY, but for one that BCM_REGION_OFF holds. -/
def regionTest (r : Nat) (s : State) : State :=
  let s1 := if rgcState r s = 0 ∧ regionHeld r s = false then powerUp r s else s
  testsStart r { s1 with cmd := { s1.cmd with under := s1.cmd.under ++ [(r, rgcState r s)] } }

/-- Four regions are under test at a time, from region `r` on (R625). -/
def testGroup (r : Nat) (s : State) : State :=
  ((List.range 16).drop r |>.take 4).foldl (fun a k => regionTest k a) { s with cmd := { s.cmd with under := [] } }

/-- The regions under test are done, or stop at a cairn, and go back to the states they had. -/
def groupEnds (stopped : Bool) (s : State) : State :=
  s.cmd.under.foldl (fun a x =>
    regionBack x.1 x.2 ((List.range 8).foldl (fun c b => routineEnds [6, 7] x.1 b stopped c) a)) s

/-- CHIP_SELFTEST starts (R625). -/
def chipSelftest (s : State) : State :=
  startOp 0x21 false (fun t =>
    let n := resumeFrom 0x21 t.cmd.args t.cmd.resume
    testGroup n (setStep n t)) s

/-- The first region under test. -/
def groupFirst (s : State) : Nat := match s.cmd.under with | x :: _ => x.1 | [] => s.cmd.step

/-- CHIP_SELFTEST goes on to the next four regions. -/
def nextGroup (s : State) : State :=
  if cmdBusy s = true ∧ curOp s = 0x21 ∧ cmdAborting s = false ∧ groupFirst s + 4 < 16 then
    testGroup (groupFirst s + 4) (groupEnds false s)
  else s

def regionFails (r : Nat) (e : OpEnv) : Bool :=
  controllerBad r e || (e.blocks.any fun x => x.1.val == r) || e.cells.any fun x => x.1.val == r

/-- CHIP_SELFTEST ends, or stops with `units` regions done. -/
def chipSelftestEnd (e : OpEnv) (s : State) : State :=
  let first := s.cmd.step
  let at_ := groupFirst s
  let last := if cmdAborting s then min 16 (max at_ (min e.units (at_ + 4))) else 16
  let rs := (List.range 16).filter fun r => decide (first ≤ r) && decide (r < last)
  let s1 := rs.foldl (fun a r => (List.range 8).foldl (fun c b => blockResults r b e c) a) s
  let s2 := groupEnds (decide (last < at_ + 4)) s1
  let s3 := if cmdAborting s then s2 else e.buffers.foldl (fun a n => quarantine n.val a) s2
  let fails := rs.foldl (fun n r => n + (if regionFails r e then 2 ^ r else 0)) 0
  let units := if cmdAborting s then 0 else e.chipUnits.val
  let s4 := cmdOut 1 units (cmdOut 0 fails (setStep last s3))
  endOp (if fails = 0 ∧ units = 0 then 0 else 0xE8) (if cmdAborting s then keepResume last s4 else s4)

/-- Units of 2 MiB that MEMORY_TEST covers: to the end of the frame store where CMD_ARG1 is 0. -/
def memTestUnits (s : State) : Nat := if cmdArg 1 s = 0 then hbmSize / unitSize - cmdArg 0 s else cmdArg 1 s

/-- MEMORY_TEST starts (R626). -/
def memoryTest (s : State) : State :=
  startOp 0x22 false (fun t =>
    if hbmSize / unitSize ≤ cmdArg 0 t ∨ hbmSize / unitSize < cmdArg 0 t + cmdArg 1 t then cmdFinish 0x85 t
    else setStep (resumeFrom 0x22 t.cmd.args t.cmd.resume) t) s

/-- MEMORY_TEST ends, or stops with `units` units done. Failing words get the poison pattern. -/
def memoryTestEnd (e : OpEnv) (s : State) : State :=
  let first := s.cmd.step
  let total := memTestUnits s
  let last := if cmdAborting s then min total (max first e.units) else total
  let lo := (cmdArg 0 s + first) * unitSize / 64
  let hi := (cmdArg 0 s + last) * unitSize / 64
  let l := sortBy id ((e.words.filter fun w => decide (lo ≤ w) && decide (w < hi)).eraseDups)
  let s1 := l.foldl (fun a w => storeWord w (wordBytes w a) true a) s
  let a0 := match l with | w :: _ => 64 * w | [] => 0
  let s2 := cmdOut 2 (a0 / 2 ^ 32) (cmdOut 1 a0 (cmdOut 0 (min l.length (2 ^ 32 - 1)) (setStep last s1)))
  hostRun (endOp (if l.isEmpty then 0 else 0xE9) (if cmdAborting s then keepResume last s2 else s2))

/-! ### RECOMPOSE_REGION (R135 to R142, R613, R640) -/

/-- The region image's bytes: from HBM, by class STREAM (assumption 159), where a poisoned word is a read that fails, or what the host answered. -/
def imageBytes (h : HostRead) (s : State) : (List Byte × Option Nat) × State :=
  let n := cmdArg 4 s
  if cmdArg 3 s = 0 then
    let r := readTagged 3 (cmdAddress s) n s
    ((r.1.map Prod.fst, r.1.findIdx? (·.2)), r.2)
  else
    match h with
    | .data l => ((l.take n, if l.length < n then some l.length else none), s)
    | .poisoned _ => (([], some 0), s)
    | .error => (([], some 0), s)

/-- The region is ready: under the composition it has now, and gated again where BCM_REGION_OFF holds it. -/
def recomposeReady (r : Nat) (s : State) : State :=
  let id := match s.staged with | some im => im.compId | none => 0
  let s1 := if regionHeld r s then gateRegion r s else if s.cmd.prior = 0 then powerUp r s else setRgcState r 1 s
  let s2 := setRegion r { getRegion r s1 with regateDue := decide (curMode s = 2) } s1
  fclr Reg.cfgStatus CfgStatus.cfgRgnEmpty (wr64 (Reg.cfgRgnCompIdLo r) (Reg.cfgRgnCompIdHi r) id s2)

def setPhase (n : Nat) (s : State) : State := { s with cmd := { s.cmd with step := n } }

/-- RETIRED blocks that stay so after step 4: those of a region that was DEGRADED are tested, and return where they pass (R613). -/
def staysRetired (r : Nat) (passed : List (Fin 8)) (s : State) : List Nat :=
  (List.range 8).filter fun b => blkRole r b s == 3 && !(s.cmd.prior == 4 && passed.any fun x => x.val == b)

/-- Bits of the arguments that R135 leaves reserved are set, or an argument is out of range. -/
def recomposeArgsBad (s : State) : Bool :=
  decide (16 ≤ cmdArg 0 s) || decide (1 < cmdArg 3 s) || [5, 6, 7].any (fun i => cmdArg i s != 0)
    || (cmdArg 3 s == 0 && decide (hbmSize < cmdAddress s + cmdArg 4 s))

/-- The region returns to the state it had before step 4 (R140): GATED again where it was powered up for the operation. -/
def regionReturns (r : Nat) (s : State) : State := if s.cmd.prior = 0 then gateRegion r s else setRgcState r s.cmd.prior s

/-- The blocks of a region load their personalities in step 5; they end, or stop with a resume record (R355). -/
def loadsStart (r : Nat) (s : State) : State :=
  (List.range 8).foldl (fun a b => if seqState r b a = 0 ∨ seqState r b a = 3 then seqStart r b 5 r false a else a) s
def loadsEnd (r : Nat) (stopped : Bool) (s : State) : State := (List.range 8).foldl (fun a b => routineEnds [5] r b stopped a) s

/-- One step boundary onwards: steps 1 to 3 are done (0), the region is RECOMPOSING in step 4 (1), its old share is cleared in step 5
(2), its new share is written and step 6 runs (3). An ACTIVE region is waited for. -/
def recomposeAdvance (passed : List (Fin 8)) (s : State) : State :=
  let r := cmdArg 0 s
  match s.cmd.step with
  | 0 =>
    if s.cmd.fail.isSome then s
    else
      match enabledPipe r s with
      | some p => { s with cmd := { s.cmd with fail := some (0x35, 0xFF, p) } }
      | none =>
        if rgcState r s = 2 then s
        else setPhase 1 (setRgcState r 3 { s with cmd := { s.cmd with prior := rgcState r s } })
  | 1 => loadsStart r (setPhase 2 (clearShare r { s with cmd := { s.cmd with bad := staysRetired r passed s } }))
  | 2 =>
    match s.staged with
    | none => s
    | some im =>
      let s1 := setPhase 3 (writeShare r im s.cmd.bad (loadsEnd r false s))
      let l := affectedDomains r im s1
      let s2 : State := { s1 with cmd := { s1.cmd with left := l } }
      if l.isEmpty then recomposeReady r s2 else s2
  | _ => s

/-- RECOMPOSE_REGION starts, checks its image, and goes on as far as the operand tells. -/
def recomposeRegion (x : RecomposeIn) (s : State) : State :=
  startOp 0x31 false (fun t =>
    if recomposeArgsBad t = true then cmdFinish 0x85 t
    else
      let r := cmdArg 0 t
      let b := imageBytes x.host t
      let v := match x.verdict.readFail, b.1.2 with
        | some n, some m => some (min n m)
        | some n, none => some n
        | none, m => m
      let rd_ : Reader := fun o => (b.1.1[o]?).getD 0
      let t1 := fput Reg.cfgStatus CfgStatus.cfgRgn r (fset Reg.cfgStatus CfgStatus.cfgRgnBusy b.2)
      let fault := regionImageFault r { x.verdict with readFail := v } rd_ t1
      let t2 : State := { t1 with
        staged := some (parseImage rd_ r)
        cmd := { t1.cmd with fail := fault.map fun f => (f.code, f.sect, f.obj) } }
      (List.range x.reached.val).foldl (fun a _ => recomposeAdvance x.passed a) t2) s

/-- The operation holds the region no longer. -/
def recomposeDone (result : Nat) (s : State) : State :=
  cmdFinish result (fclr Reg.cfgStatus CfgStatus.cfgRgnBusy { s with staged := none })

/-- What an abort leaves (R140, R141): the region untouched, returned to its prior state, or empty. -/
def recomposeAborted (r : Nat) (s : State) : State :=
  match s.cmd.step with
  | 0 => s
  | 1 => regionReturns r s
  | _ => setRegion r { getRegion r s with regateDue := decide (curMode s = 2) } (emptyRegion r (loadsEnd r true s))

/-- COMMAND_COMPLETE of RECOMPOSE_REGION: a failed check completes it with its code (R139), an abort stops it, else it completes or goes
on by a step. -/
def recomposeEnd (e : OpEnv) (s : State) : State :=
  let r := cmdArg 0 s
  match s.cmd.fail with
  | some (code, sect, obj) =>
    recomposeDone code (fput Reg.cfgRefuse CfgRefuse.cfgRefRgn code (cfgReport ⟨code, sect, obj⟩ s))
  | none =>
    if cmdAborting s then
      recomposeDone 0x82 (recomposeAborted r s)
    else if s.cmd.step = 3 then
      if s.cmd.left.isEmpty then recomposeDone 0 (fput Reg.cfgRefuse CfgRefuse.cfgRefRgn 0 s) else s
    else recomposeAdvance e.passed s

/-- RECOMPOSE_ACTIVATE: domain `d` ends a frame in step 6; after the last affected domain the region is ready. -/
def recomposeActivate (d : Nat) (s : State) : State :=
  if cmdBusy s = false ∨ curOp s ≠ 0x31 ∨ s.cmd.step ≠ 3 ∨ s.cmd.left.contains d = false then s
  else
    match s.staged with
    | none => s
    | some im =>
      let l := s.cmd.left.filter (· != d)
      let s1 := activateDomain (cmdArg 0 s) d im { s with cmd := { s.cmd with left := l } }
      if l.isEmpty then recomposeReady (cmdArg 0 s) s1 else s1

/-! ### Completion and abort (R556, R557, R559) -/

/-- An abort that found the work complete: completion wins, and reports ABORT_LATE (R358). -/
def lateAbort (late : Bool) (s : State) : State :=
  if late && cmdAborting s then fset Reg.cmdStatus CmdStatus.abortHeld (fclr Reg.cmdStatus CmdStatus.aborting s) else s

/-- COMMAND_COMPLETE: the operation that runs ends, or stops at its cairn where an abort came before its work was complete. -/
def commandComplete (e : OpEnv) (s0 : State) : State :=
  if cmdBusy s0 = false then s0
  else
    let s := lateAbort e.late s0
    match curOp s with
    | 0x10 => flashWriteEnd e s
    | 0x11 => flashReadEnd e s
    | 0x20 => regionSelftestEnd e s
    | 0x21 => chipSelftestEnd e s
    | 0x22 => memoryTestEnd e s
    | 0x31 => recomposeEnd e s
    | _ => cmdFinish 0 s

/-- The operation can be aborted where it stands (R555): not past step 5 of RECOMPOSE_REGION. -/
def opAbortable (s : State) : Bool :=
  match curOp s with
  | 0x10 => true
  | 0x11 => true
  | 0x20 => true
  | 0x21 => true
  | 0x22 => true
  | 0x31 => decide (s.cmd.step < 3)
  | _ => false

/-- A write of 1 to CMD_ABORT. -/
def cmdAbort (s : State) : State :=
  if cmdBusy s = false then fput Reg.cmdStatus CmdStatus.cmdRefuse (if s.cmd.doneAt = some s.now then 0x81 else 0x87) s
  else if opAbortable s = false then fset Reg.cmdStatus CmdStatus.abortHeld s
  else fset Reg.cmdStatus CmdStatus.aborting s

/-- FLR_PF0 (R153, R559). -/
def flrPf0 (s : State) : State :=
  if s.pwr.linkUp = false ∨ s.pwr.bypass = true then s
  else
    let s1 := (List.range 16).foldl (fun a d => flrDomain d a) s
    if cmdBusy s1 then
      let s2 := cmdAbort s1
      { s2 with cmd := { s2.cmd with flrAbort := cmdAborting s2 } }
    else s1

/-- REGION_SELFTEST holds a region that pipeline `p` uses (R624). -/
def selftestHolds (p : Nat) (s : State) : Bool :=
  cmdBusy s && curOp s == 0x20 && (regionPipes (cmdArg 0 s) s).any fun e => e.pipe == p

/-- A write to PIP_CTL (R231, R234, R624). -/
def pipCtlHostWrite (p : Nat) (v : Word) (s : State) : State :=
  if getF PipCtl.enable v = 1 ∧ pipeEnabled p s = false ∧ selftestHolds p s = true then cmdAbort (pipCtlWrite p v true s)
  else pipCtlWrite p v false s

end Sys2Proof.Machine
end

