-- ==== Sys2Proof/Machine/Cxl.lean ====
section
/-! DEFINITION. The link while it is down, HDM decoders, CXL.mem and CXL.cache requests, GPF, AER and RAS, and the triplicated
words (chapter "CXL attachment, address map and register rules"). -/

namespace Sys2Proof.Machine

open Sys2Proof

/-! ### Link down and return (R155, R522) -/

/-- CXL_LINK_DOWN: the device keeps running, and holds what is bound for the host. -/
def cxlLinkDown (s : State) : State :=
  if s.pwr.linkUp = false then s
  else
    let s1 : State := { s with pwr := { s.pwr with linkUp := false }, cxl := { s.cxl with retraining := true, downAt := s.now } }
    let s2 := fput Reg.cxlStatus CxlStatus.width 0 (fput Reg.cxlStatus CxlStatus.linkMode 0 s1)
    bump Reg.cxlStatus CxlStatus.linkDownCnt (fset Reg.cxlStatus CxlStatus.linkDownEv s2)

/-- Held requests of the channels go on. -/
def releaseHeld (s : State) : State :=
  (List.range 64).foldl (fun a c => setChan c { getChan c a with held := false } a) s

/-- CXL_LINK_RETURN: the link is in L0 again, at the width and rate it trained to. -/
def cxlLinkReturn (lanes rate : Nat) (s : State) : State :=
  if s.cxl.retraining = false ∨ linkWidth lanes = 0 then s
  else
    let s1 : State := { s with pwr := { s.pwr with linkUp := true }, cxl := { s.cxl with retraining := false } }
    let s2 := fput Reg.cxlStatus CxlStatus.rate rate (fput Reg.cxlStatus CxlStatus.width (linkWidth lanes)
      (fput Reg.cxlStatus CxlStatus.linkMode (if s.pwr.linkPcie then 1 else 2) s1))
    releaseHeld s2

/-- The status word of a channel's descriptor can be written while the link is down: the descriptor lies in HBM. -/
def statusReach (c : Nat) (s : State) : Bool := decide ((getChan c s).phase ≠ .reading) && ptrHbm (dmaCur c s)

/-- A held DMA request completes as HOST_ERR. -/
def dropHeldDma (c : Nat) (s : State) : State :=
  if (getChan c s).held then dmaHalt c codeHostErr (statusReach c s) s else s

/-- Every record that waits for a ring in host memory is dropped (R247). -/
def dropRecords (p : Nat) (s : State) : State :=
  let x := getPipe p s
  match pipeEntry p s with
  | none => s
  | some e =>
    if e.recCarve ≠ 0xFFFF ∨ x.recs.isEmpty = true then s
    else
      let s1 := setPipe p { x with recs := [], recGap := true } s
      checkDrained p (pipEvent p PipStatus.recDrop (bumpBy x.recs.length (Reg.pipRecDrop p) PipRecDrop.pipRecDrop s1))

/-- CXL_LINK_DOWN_TIMEOUT: one second has passed since the link went down. -/
def cxlLinkDownTimeout (s : State) : State :=
  if s.cxl.retraining = false ∨ s.now < s.cxl.downAt + cyclesPerSecond then s
  else
    let s1 := (List.range 64).foldl (fun a c => dropHeldDma c a) s
    let s2 := s1.comp.pipes.foldl (fun a e => dropRecords e.pipe a) s1
    (s2.comp.ports.filter fun e => e.kind == 3 && e.egress).foldl
      (fun a e => hrDropAll e.port ((getPort e.port a).units.length + 1) a) s2

/-! ### HDM decoders (R524 to R527) -/

/-- A carve-out's size rounded up to 256 MiB, in bytes. -/
def hdmSize (c : Carve) : Nat := ceilDiv c.size 128 * 128 * unitSize

/-- HDM_COMMIT of decoder `k`: `ways` is Interleave Ways (0 for 1-way) and `skip` DPA Skip. A locked decoder takes no commit. -/
def hdmCommit (k base size ways skip : Nat) (lock : Bool) (s : State) : State :=
  if s.pwr.linkUp = false ∨ s.pwr.bypass = true ∨ (getHdm k s).locked = true then s
  else
    match hdmCarve k s with
    | some c =>
      if s.pwr.linkPcie = false ∧ size = hdmSize c ∧ ways = 0 ∧ skip = 0 then setHdm k ⟨base, size, true, lock, false⟩ s
      else setHdm k { getHdm k s with committed := false, error := true } s
    | none => setHdm k { getHdm k s with committed := false, error := true } s

/-! ### CXL.cache (R528, R529) -/

/-- H2D_SNOOP: RspIHitI. -/
def h2dSnoop (s : State) : State := if memServed s then emit .snoopMiss s else s

/-! ### GPF (R523) -/

/-- A write of mesh class HOST. -/
def isHostWrite (r : MemReq) : Bool := r.write && r.cls == 4

/-- Complete the host writes of one pseudo-channel's bank queues. -/
def gpfPseudo (k : Nat) (s : State) : State :=
  let x := smGet Pseudo.init k s.fs.pseudos
  let l := x.banks.flatMap fun b => b.2.queue.filter isHostWrite
  let banks := (x.banks.map fun b => (b.1, { b.2 with queue := b.2.queue.filter fun r => !isHostWrite r })).filter
    fun b => b.2 != Bank.init
  l.foldl (fun a r => serveReq r a)
    { s with fs := { s.fs with pseudos := smSet Pseudo.init k { x with banks := banks } s.fs.pseudos } }

def gpfChannel (k : Nat) (s : State) : State :=
  let x := smGet MemChannel.init k s.fs.channels
  let l := (x.input.filter fun e => isHostWrite e.2.2.2).map fun e => e.2.2.2
  l.foldl (fun a r => serveReq r a)
    { s with fs := { s.fs with channels := smSet MemChannel.init k { x with input := x.input.filter fun e => !isHostWrite e.2.2.2 } s.fs.channels } }

def gpfController (k : Nat) (s : State) : State :=
  let x := smGet MemCtl.init k s.fs.ctls
  (x.srWaiting.filter isHostWrite).foldl (fun a r => serveReq r a)
    { s with fs := { s.fs with
        ctls := smSet MemCtl.init k { x with srWaiting := x.srWaiting.filter fun r => !isHostWrite r } s.fs.ctls } }

/-- The host's writes that wait for their stack or channel are completed too. -/
def isWaitingWrite (h : HostMem) : Bool := match h with | .write _ _ _ _ => true | .read _ _ => false
def gpfHost (s : State) : State :=
  (s.fs.hostWaiting.filter isWaitingWrite).foldl (fun a h => serveHost h a)
    { s with fs := { s.fs with hostWaiting := s.fs.hostWaiting.filter fun h => !isWaitingWrite h } }

/-- GPF_PHASE2: every accepted CXL.mem write is completed into HBM. -/
def gpfPhase2 (s : State) : State :=
  if memServed s then
    let s1 := (smKeys s.fs.pseudos).foldl (fun a k => gpfPseudo k a) s
    let s2 := (smKeys s1.fs.channels).foldl (fun a k => gpfChannel k a) s1
    gpfHost ((smKeys s2.fs.ctls).foldl (fun a k => gpfController k a) s2)
  else s

/-! ### Error reports (R530) -/

/-- POISONED_TLP_WRITE to a BAR of the function of domain `d`. -/
def poisonedTlpWrite (d : Nat) (s : State) : State :=
  if s.pwr.linkUp = false ∨ s.icu.numVfs < d then s
  else emit (.aer d 1) { s with cxl := { s.cxl with aer := smSet false d true s.cxl.aer } }

def linkLayerRetry (s : State) : State := if memServed s then { s with cxl := { s.cxl with rasCorr := true } } else s

/-- FLIT_BUFFER_ERROR: the RAS uncorrectable status, and the Header Log where it holds nothing; the link retrains. -/
def flitBufferError (s : State) : State :=
  if s.pwr.linkUp then
    emit .linkRetrain { s with cxl := { s.cxl with rasInternal := true, headerLog := if s.cxl.headerLog = 0 then 1 else s.cxl.headerLog } }
  else s

/-! ### Triplicated words (R551) -/

def tripClass : TripWord → Nat
  | .chip => 0x34
  | .clock => 0x30
  | .composition => 0x31
  | .glove => 0x32
  | .baseCamp => 0x33

/-- TRIPLICATED_COPY_UPSET: corrected from the majority and counted, or without a majority a fault that enters SAFE. -/
def copyUpset (w : TripWord) (majority : Bool) (s : State) : State :=
  if s.pwr.bypass then s
  else if majority then bumpBy 1 Reg.chipTmr ChipTmr.tmrCorr s
  else chipFault ⟨tripClass w, 15, false, none⟩ s

end Sys2Proof.Machine
end

