-- ==== Sys2Proof/Machine/Ptp.lean ====
section
/-! DEFINITION. PTP (R57, R653): messages, exchanges, and the steering of the raster clock by Base Camp or by host software. -/

namespace Sys2Proof.Machine

open Sys2Proof

/-- The MAC port that carries PTP. -/
def ptpTarget (s : State) : Nat := 4 * s.comp.ptpMac + fget Reg.bcmPtpCtl BcmPtpCtl.ptpPort s

/-- PTP runs and its MAC port is up. -/
def ptpUp (s : State) : Bool :=
  ptpRuns s && fbit (Reg.lanMacPortStatus (ptpTarget s / 4) (ptpTarget s % 4)) LanMacPortStatus.linkUp s

/-- The device's own PTP address, in the words of BCM_PTP_IP0 to 3 as a port's address is. -/
def ptpAddress (v6 : Bool) (s : State) : Nat :=
  let w := fun k => (rd (Reg.bcmPtpIp k) s).toNat
  if v6 then w 0 * 2 ^ 96 + w 1 * 2 ^ 64 + w 2 * 2 ^ 32 + w 3 else w 0

/-- The headers of a Delay_Req: to the multicast group of IEEE 1588, event port 319 (assumption 186). -/
def ptpPath (s : State) : UdpPath :=
  let w := rd Reg.bcmPtpCtl s
  let v6 := getF BcmPtpCtl.ipv6 w == 1
  { mac := 0
    source := targetMac (ptpTarget s) s
    tag := if getF BcmPtpCtl.vlanEn w = 1 then some (getF BcmPtpCtl.vid w) else none
    v6 := v6
    src := ptpAddress v6 s
    dst := if v6 then 0xFF0E * 2 ^ 112 + 0x181 else 0xE0000181
    dscp := Config.delayReq 4 s.bc.ptpSeq % 64
    ttl := Config.delayReq 3 s.bc.ptpSeq % 256
    ident := Config.ipIdent 1024 s.bc.ptpSeq
    srcPort := 319
    dstPort := 319 }

/-- The 44 bytes of a Delay_Req. -/
def delayReqBytes (s : State) : List Byte :=
  let f := fun k => Config.delayReq k s.bc.ptpSeq
  [1#8] ++ beBytes (f 0) 1 ++ beBytes 44 2 ++ beBytes (fget Reg.bcmPtpCtl BcmPtpCtl.ptpDomain s) 1 ++ List.replicate 15 0
    ++ beBytes (f 1) 8 ++ beBytes (f 2) 2 ++ beBytes s.bc.ptpSeq 2 ++ [1#8, 0x7F#8] ++ beBytes (f 5) 10

/-- A Delay_Req waits for the PTP port's next transmit opportunity (R506). -/
def sendDelayReq (s : State) : State :=
  let t := ptpTarget s
  let y := getTarget t s
  let f := udpFrame (ptpPath s) (delayReqBytes s) (delayReqBytes s)
  setTarget t { y with ptp := y.ptp ++ [{ Packet.init with kind := 1, seq := s.bc.ptpSeq, size := f.length + 20, payload := f, since := s.now }] }
    { s with bc := { s.bc with ptpSeq := (s.bc.ptpSeq + 1) % 2 ^ 16 } }

/-- The master's time of a Sync is known: with its own timestamp, a Delay_Req goes out. -/
def syncKnown (t1 : Nat) (s : State) : State := sendDelayReq { s with bc := { s.bc with ptpT1 := t1, ptpGot := 1 } }

/-- An Announce interval of 2 to the power `k` seconds, in ns. -/
def announceNs (k : Int) : Nat := if k < 0 then 1000000000 / 2 ^ (-k).toNat else 1000000000 * 2 ^ k.toNat

/-- PTP_MESSAGE. Without a selected master only an Announce is taken. -/
def ptpMessage (domain : Nat) (m : PtpMsg) (s : State) : State :=
  if ptpUp s = false ∨ domain ≠ fget Reg.bcmPtpCtl BcmPtpCtl.ptpDomain s then s
  else
    let st := fget Reg.bcmPtpStatus BcmPtpStatus.ptpState s
    match m with
    | .announce id k =>
      let s0 : State := { s with bc := { s.bc with ptpInterval := announceNs k, announceAt := s.now } }
      if st ≠ 1 ∧ s.bc.ptpMaster = id then s0
      else setPtpState 2 (fput Reg.bcmPtpStatus BcmPtpStatus.ptpState 1 { s0 with bc := { s0.bc with ptpMaster := id, ptpGot := 0 } })
    | .sync t1 t2 =>
      if st < 2 then s
      else
        let s1 := noteValid 6 { s with bc := { s.bc with ptpT2 := t2, ptpGot := 0 } }
        match t1 with | some t => syncKnown t s1 | none => s1
    | .followUp t1 => if st < 2 then s else syncKnown t1 s
    | .delayResp t3 t4 =>
      if st < 2 ∨ s.bc.ptpGot ≠ 1 then s else { s with bc := { s.bc with ptpT3 := t3, ptpT4 := t4, ptpGot := 3 } }

/-- Three Announce intervals without an Announce of the master: the device listens again (assumption 186). -/
def announceLost (s : State) : State :=
  if 2 ≤ fget Reg.bcmPtpStatus BcmPtpStatus.ptpState s ∧ s.bc.announceAt + 3 * s.bc.ptpInterval * 8 / 5 ≤ s.now then
    setPtpState 1 { s with bc := { s.bc with ptpMaster := 0, ptpGot := 0 } }
  else s

/-- The offset of the device from its master in ns, by the end-to-end delay mechanism. -/
def ptpOffset (b : BaseCamp) : Int :=
  (((b.ptpT2 : Int) - b.ptpT1) - ((b.ptpT4 : Int) - b.ptpT3)) / 2

/-- Post t1 to t4 in BCM_PTP_TS0 to 7. -/
def postTimes (s : State) : State :=
  let l := [s.bc.ptpT1, s.bc.ptpT2, s.bc.ptpT3, s.bc.ptpT4]
  (List.range 4).foldl (fun a j => wr64 (Reg.bcmPtpTs (2 * j)) (Reg.bcmPtpTs (2 * j + 1)) ((l[j]?).getD 0) a) s

/-- PTP_EXCHANGE: the four times of an exchange are known. `rate` is the master's rate as the servo estimates it (10^-9). -/
def ptpExchange (rate : Int) (s : State) : State :=
  if ptpUp s = false ∨ s.bc.ptpGot ≠ 3 then s
  else
    let host := fbit Reg.bcmPtpCtl BcmPtpCtl.servo s
    let since := if host && !s.bc.servoHost then s.now else s.bc.adjAt
    let s1 : State := { s with bc := { s.bc with ptpGot := 0, servoHost := host, adjAt := since } }
    let s2 := setPtpState 3 s1
    if host then raise 12 (postTimes s2)
    else if refAct s2 = 1 then phaseMeasurement (ptpOffset s.bc) rate s2
    else s2

/-- The parts of BCM_PTP_ADJ: frequency in 0.01 ppm and phase in ns, both signed. -/
def adjFreq (v : Word) : Int := (v.extractLsb' 16 16).toInt
def adjPhase (v : Word) : Int := (v.extractLsb' 0 16).toInt

/-- PTP_ADJ_WRITE: with SERVO 1 in force and PTP the source, the frequency changes at once and the phase part is slewed or
stepped from the next rate update on. -/
def ptpAdjWrite (v : Word) (s : State) : State :=
  let s1 := wr Reg.bcmPtpAdj v { s with bc := { s.bc with adjAt := s.now } }
  if s.bc.servoHost = false ∨ ptpRuns s = false ∨ refAct s ≠ 1 then s1
  else
    let r := s.clock.rate + 10 * adjFreq v
    let s2 : State := { s1 with clock := { s1.clock with rate := r, tracked := some r, fresh := true } }
    setPhaseErr (- adjPhase v * 10 ^ 12) s2

/-- PTP_HOST_STALE: two seconds without a write of ADJ; the clock keeps its last frequency. -/
def ptpHostStale (s : State) : State :=
  if s.bc.servoHost = false ∨ ptpRuns s = false ∨ s.now < s.bc.adjAt + 2 * cyclesPerSecond then s
  else
    fset Reg.bcmPtpStatus BcmPtpStatus.hostStale
      { s with clock := { s.clock with rate := s.clock.tracked.getD s.clock.rate, fresh := false } }

end Sys2Proof.Machine
end

