-- ==== Sys2Proof/Machine/Tap.lean ====
section
/-! DEFINITION. The boundary-scan TAP (R153, R690 to R692). -/

namespace Sys2Proof.Machine

open Sys2Proof

def setTap (f : Tap → Tap) (s : State) : State := { s with tap := f s.tap }

/-- The ball with boundary cell `k` in the grid, counted along the rows. -/
def cellBall (k : Nat) : Ball := ballAt (k / 64) (k % 64 + 1)

/-- A list of cell values as a table: only pads in the boundary chain have cells (R692). -/
def cellTable (l : List (Nat × Bool)) : SMap Bool :=
  (l.filter fun e => decide (e.1 < 4096) && scanned (cellBall e.1)).foldl (fun m e => smSet false e.1 e.2 m) []

/-- Compliance-enable: the device has power and PERST_N is asserted (R691). -/
def tapEnabled (s : State) : Bool := s.pwr.aux && s.pwr.perst

def tapBypass (s : State) : State := setTap (fun t => { t with instr := .bypass, driving := false, highZ := false }) s

/-- An instruction: while PERST_N is deasserted, it acts as BYPASS. -/
def tapRun (f : Tap → Tap) (s : State) : State := if tapEnabled s then setTap f s else tapBypass s

/-- EXTEST, EXTEST_PULSE and EXTEST_TRAIN: the cells take the values shifted in and drive them, and capture the pads' levels. -/
def tapExtest (i : TapInstr) (drive pads : List (Nat × Bool)) (s : State) : State :=
  tapRun (fun _ => ⟨i, cellTable drive, cellTable pads, true, false⟩) s

/-- SAMPLE/PRELOAD: the pads are sampled and the cells preloaded; the pads go on as they were. -/
def tapSample (preload pads : List (Nat × Bool)) (s : State) : State :=
  tapRun (fun _ => ⟨.samplePreload, cellTable preload, cellTable pads, false, false⟩) s

def tapHighz (s : State) : State := tapRun (fun t => { t with instr := .highz, driving := false, highZ := true }) s

/-- CLAMP: the cells hold the outputs, with the bypass selected. -/
def tapClamp (s : State) : State := tapRun (fun t => { t with instr := .clamp, driving := true, highZ := false }) s

/-- TRST_ASSERT: only the TAP is reset. -/
def trstAssert (s : State) : State := { s with tap := Tap.init }

end Sys2Proof.Machine
end

