-- ==== Sys2Proof/Machine/HostIf.lean ====
section
/-! DEFINITION. Host access to the device (R533 to R550, R616): the order of the checks, the field classes, the registers with a
rule of their own, and what a read returns. -/

namespace Sys2Proof.Machine

open Sys2Proof

/-! ### Which domain reaches what -/

/-- A function of domain `d` has a host path (R531): the link is up, and a VF is enabled with Memory Space Enable set. -/
def hostPath (d : Nat) (s : State) : Bool :=
  s.pwr.linkUp && !s.pwr.bypass && (d == 0 || (decide (d ≤ s.icu.numVfs) && (getFn d s).memSpace))

/-- The chip area of LOAD (R148). -/
def chipArea (off : Nat) : Bool :=
  decide (off < 0x10000) || (decide (0x20000 ≤ off) && decide (off < 0x30000)) || (decide (0x40000 ≤ off) && decide (off < 0x50000))

/-- The lowest-numbered enabled host-ring port of pipeline `p` in one direction (R535). -/
def hostRingPort (p : Nat) (egress : Bool) (s : State) : Option Nat :=
  ((sortBy (·.port) s.comp.ports).find? fun e =>
    e.kind == 3 && e.pipe == p && e.egress == egress && sptEnabled e.port s).map (·.port)

/-- The BAR0 register that a word of a doorbell page aliases (R535). -/
def doorbellAlias (off : Nat) (s : State) : Option Nat :=
  let p := off / 0x1000
  match off % 0x1000 with
  | 0x000 => if p < 1024 then some (Reg.pipRecRd p) else none
  | 0x008 => (hostRingPort p false s).map Reg.sptHrWr
  | 0x010 => (hostRingPort p true s).map Reg.sptHrRd
  | _ => none

/-- The BAR0 offset that names an access in GLV_DENY and CHIP_ACCESS_ADDR: the word's own, or that of the register it aliases;
a word with none leaves it open. -/
def accessOffset (b : Bar) (off : Nat) (s : State) : Nat :=
  match b with
  | .bar0 => off
  | .bar2 => match doorbellAlias off s with | some o => o | none => freeNat s
  | .bar4 => freeNat s

/-- The open offset of an access outside BAR0 is used once. -/
def offsetUsed (b : Bar) (off : Nat) (s : State) : State :=
  match b with
  | .bar0 => s
  | .bar2 => if (doorbellAlias off s).isSome then s else stepFree s
  | .bar4 => stepFree s

/-- The Glove domain of a word (R130, R535); a function's MSI-X table is its own. -/
def accessOwner (d : Nat) (b : Bar) (off : Nat) (s : State) : Nat :=
  match b with
  | .bar0 => regOwner s off
  | .bar2 => owner s glvPipe (off / 0x1000)
  | .bar4 => d

/-- An access that the Glove denies: a write by another domain than the owner, a read by another than the owner and domain 0, and
in SAFE every access of a VF to BAR0 and BAR2 (R130, R616). -/
def gloveStops (d : Nat) (b : Bar) (off : Nat) (write : Bool) (s : State) : Bool :=
  let own := accessOwner d b off s
  (own != d && (write || d != 0)) || (curMode s == 5 && d != 0 && b != .bar4)

/-- In LOAD, an access outside the chip area is stopped (R148). -/
def loadStops (b : Bar) (off : Nat) (s : State) : Bool := curMode s == 1 && !(b == .bar0 && chipArea off)

/-! ### Field classes (R548) -/

/-- The word that a software write of `v` leaves in one field. -/
def classField (v w : Word) (f : FieldRow) : Word :=
  match f.cls with
  | .ro => w
  | .sc => w
  | .w1c => putF f.fld w (getF f.fld w &&& (2 ^ f.fld.width - 1 - getF f.fld v))
  | .rw => putF f.fld w (getF f.fld v)
  | .cnt => putF f.fld w (getF f.fld v)
  | .hwu => putF f.fld w (getF f.fld v)
  | .hwuShd => putF f.fld w (getF f.fld v)

/-- The word that a software write of `v` leaves in a register that holds `w`. -/
def classWord (l : List FieldRow) (v w : Word) : Word := l.foldl (classField v) w

/-- Only the W1C bits of a write take effect (R616). -/
def w1cWord (l : List FieldRow) (v w : Word) : Word := classWord (l.filter fun f => f.cls == .w1c) v w

def hasClass (l : List FieldRow) (p : FieldClass → Bool) : Bool := l.any fun f => p f.cls

/-- A field that hardware writes too. -/
def isHwu (c : FieldClass) : Bool := c == .hwu || c == .hwuShd

/-! ### Guarded and byte-writable registers (R542, R550) -/

def keyArmed (s : State) : Bool := fbit Reg.chipKeyState ChipKeyState.armed s
def disarm (s : State) : State := fclr Reg.chipKeyState ChipKeyState.armed s

def keyWrite (v : Word) (s : State) : State :=
  fput Reg.chipKeyState ChipKeyState.armed (if v = 0x6D3A#32 then 1 else 0) s

/-- A write of `v` to this register is guarded (FUSE_READ apart, which is refused by its own rule). -/
def guarded (n : RegName) (off : Nat) (v : Word) (s : State) : Bool :=
  match n with
  | .chipForce => true
  | .bcmFlashCtl => true
  | .bcmRegionOff => true
  | .fltInject => true
  | .lanPrbs => getF LanPrbs.genEn v == 1 && laneActive ((off - 0x80000) / 0x100) s
  | _ => false

/-- The registers on which a narrow write takes effect. -/
def byteWritable (off : Nat) (s : State) : Bool :=
  if 0xC00000 ≤ off ∧ off < 0xD00000 then inHostRange ((off - 0xC00000) / 16) s
  else
    match regAt (fun p => pipeDecodes p s) off with
    | some (.cmdArg, _) => true
    | some (.sptDstIp, _) => true
    | some (.sptSrcIp, _) => true
    | some (.sptDstMacLo, _) => true
    | some (.sptDstMacHi, _) => true
    | some (.schMacAddrLo, _) => true
    | some (.schMacAddrHi, _) => true
    | _ => false

/-- The registers that take writes in SAFE (R616). -/
def safeWritable (n : RegName) (off : Nat) : Bool :=
  match n with
  | .chipKey => true
  | .cmdOp => true
  | .cmdArg => true
  | .cmdAbort => true
  | .cmdStatus => true
  | .cmdRejectCnt => true
  | .icuAck => true
  | .icuSrcRoute => decide (off < Reg.icuSrcRoute 64)
  | .fltAck => true
  | _ => false

/-! ### Registers with a rule of their own -/

/-- A write to CMD_OP (R552 to R555): FUSE_READ takes the key guard, and disarms it. -/
def opWrite (x : RegEnv) (op : Nat) (s : State) : State :=
  match op with
  | 0x01 => ping s
  | 0x02 => chipReboot s
  | 0x10 => flashWrite s
  | 0x11 => flashRead s
  | 0x12 => fuseRead (keyArmed s) (disarm s)
  | 0x20 => regionSelftest s
  | 0x21 => chipSelftest s
  | 0x22 => memoryTest s
  | 0x31 => recomposeRegion x.image s
  | _ => startOp op false id s

/-- A write to RCK_TRIG_CTL: an output at rest takes its new idle level at once (R95). -/
def trigCtlWrite (w : Word) (s : State) : State :=
  let s1 := wr Reg.rckTrigCtl w s
  (List.range 4).foldl (fun a n =>
    if trigIdle n s ≠ trigIdle n s1 ∧ smGet 0 n s.clock.trigOut = 0 then emit (.pins n (trigIdle n s1)) a else a) s1

/-- A write to CHIP_FORCE (R180, R614). -/
def forceWrite (v : Word) (s : State) : State :=
  let s1 := mittenForceWrite (getF ChipForce.mittenForce v) s
  if getF ChipForce.forceSafe v = 1 then forceSafe s1 else s1

/-- The unit whose fault registers lie at an offset. -/
def faultUnitAt (off : Nat) : FaultUnit :=
  if off < 0x400000 then .chip
  else
    let r : RegionId := Fin.ofNat 16 ((off - 0x400000) / 0x40000)
    let o := (off - 0x400000) % 0x40000
    if o < 0x10000 then .region r else .block r (Fin.ofNat 8 ((o - 0x10000) / 0x4000))

/-- Region, block and queue of a queue register. -/
def dqPlace (off : Nat) : Nat × Nat × Nat :=
  ((off - 0x400000) / 0x40000, ((off - 0x410000) % 0x40000) / 0x4000, ((off - 0x410400) % 0x4000) / 0x40)

/-- A register of a pipeline's parameter sets: its pipeline and the offset in the window. -/
def setPlace (off : Nat) : Nat × Nat := ((off - 0x800000) / 0x1000, (off - 0x800000) % 0x1000)

/-- A register with no effect beside its fields; a hardware update of the same cycle is lost with FIELD_OVERRUN. -/
def plainWrite (x : RegEnv) (d off : Nat) (l : List FieldRow) (w : Word) (s : State) : State :=
  let s1 := wr off w s
  if x.clash && hasClass l isHwu then fieldOverrun d off s1 else s1

/-- A write to a register of a parameter set (R212, R223): shadow, active, or one that no shadow stands behind, such as RC_STATUS. -/
def setWrite (x : RegEnv) (d off : Nat) (shadow : Bool) (l : List FieldRow) (w : Word) (s : State) : State :=
  let p := setPlace off
  if shadow then shadowWrite p.1 p.2 w s
  else if hasClass l isHwu then activeWrite d p.1 p.2 w x.clash s
  else plainWrite x d off l w s

/-- A write to DMA_HEAD_LO or DMA_HEAD_HI: dropped while the channel is RUNNING or WAITING (R437). -/
def dmaHeadWrite (x : RegEnv) (d off : Nat) (l : List FieldRow) (w : Word) (s : State) : State :=
  let st := dmaState ((off - 0x70000) / 0x100) s
  if st = 2 ∨ st = 3 then accessErr d kindState off s else plainWrite x d off l w s

/-- Step 5 of R540: what a write of `v` to register `n` does, by the register's own rule; `w` is the word by the field classes. -/
def ruleWrite (x : RegEnv) (d off : Nat) (n : RegName) (shadow : Bool) (v w : Word) (s : State) : State :=
  let l := regFields n
  match n with
  | .chipMode => modeRequest (getF ChipMode.modeReq v) s
  | .chipForce => forceWrite v s
  | .chipKey => keyWrite v s
  | .cmdOp => opWrite x (getF CmdOp.op v) s
  | .cmdArg => cmdArgWrite ((off - 0x104) / 4) v s
  | .cmdAbort => if getF CmdAbort.abort v = 1 then cmdAbort s else s
  | .rckCtl => rckCtlWrite v s
  | .rckTrigCtl => trigCtlWrite w s
  | .rckDomOfs => domOfsWrite ((off - 0x11000) / 0x40) v s
  | .icuAck => ackWrite ((off - 0x30100) / 0x10) v s
  | .icuSrcRoute => routeWrite d ((off - 0x34000) / 4) v s
  | .icuVecHold => vecHoldWrite ((off - 0x3C000) / 4) v s
  | .bcmPowerCap => powerCapWrite v s
  | .bcmRegionOff => regionOffWrite d v s
  | .bcmLogIdx => logIdxWrite w s
  | .bcmPtpAdj => ptpAdjWrite v s
  | .memEccCtl => eccCtlWrite ((off - 0x50000) / 0x4000) v s
  | .bpmPoolCtl => poolCtlWrite ((off - 0x60000) / 0x100) v s
  | .bpmPoolSize => poolResize d ((off - 0x60000) / 0x100) (getF BpmPoolSize.size v) s
  | .hopCmd => hopCommand ((off - 0x61000) / 0x20) v s
  | .dmaCtl => dmaCtlWrite ((off - 0x70000) / 0x100) v s
  | .dmaHeadLo => dmaHeadWrite x d off l w s
  | .dmaHeadHi => dmaHeadWrite x d off l w s
  | .dmaDb => if getF DmaDb.db v = 1 then doorbell ((off - 0x70000) / 0x100) s else s
  | .lanLaneCtl => laneCtlWrite ((off - 0x80000) / 0x100) v x.clk s
  | .lanPrbs => prbsWrite d ((off - 0x80000) / 0x100) v true s
  | .lanMacCtl => macCtlWrite ((off - 0x84000) / 0x100) v x.clk s
  | .lanRingCtl => ringCtlWrite v x.clk s
  | .sptCtl => sptCtlWrite ((off - 0x100000) / 0x100) v s
  | .sptHrWr => hrCountWrite d ((off - 0x100000) / 0x100) true v x.units s
  | .sptHrRd => hrCountWrite d ((off - 0x100000) / 0x100) false v [] s
  | .sptPolRate => policerWrite ((off - 0x100000) / 0x100) off w s
  | .sptPolBurst => policerWrite ((off - 0x100000) / 0x100) off w s
  | .sptImpSeed => impSeedWrite ((off - 0x100000) / 0x100) v s
  | .schPortCtl => shaperWrite ((off - 0x100000) / 0x100) off w s
  | .schIdleKbps => shaperWrite ((off - 0x100000) / 0x100) off w s
  | .schHiCredit => shaperWrite ((off - 0x100000) / 0x100) off w s
  | .dqCtl => let k := dqPlace off; dqLevelWrite k.1 k.2.1 k.2.2 v s
  | .pipCtl => pipCtlHostWrite (setPlace off).1 v s
  | .pipShadowPending => if getF PipShadowPending.discard v = 1 then shadowDiscard (setPlace off).1 s else s
  | .pipBudget => budgetWrite (setPlace off).1 v s
  | .fltAck => faultAck (faultUnitAt off) v s
  | .fltInject => injectWrite (faultUnitAt off) v s
  | _ =>
    if 0x800000 ≤ off ∧ 0x100 ≤ (setPlace off).2 then setWrite x d off shadow l w s
    else plainWrite x d off l w s

/-- A write in SAFE that the mode does not let through keeps only its W1C bits (R616). -/
def safeWrite (d off : Nat) (l : List FieldRow) (v : Word) (s : State) : State :=
  if hasClass l (· == .w1c) then wr off (w1cWord l v (rd off s)) s else accessErr d kindState off s

/-- Steps 4 and 5 of R540 for a word of BAR0 that holds a register. -/
def regWrite (x : RegEnv) (d off : Nat) (n : RegName) (shadow : Bool) (v : Word) (s : State) : State :=
  let g := guarded n off v s
  if g && !keyArmed s then accessErr d kindKey off s
  else
    let s1 := if g then disarm s else s
    if curMode s1 = 5 ∧ n = .chipMode ∧ requestMeetsSafe (getF ChipMode.modeReq v) s1 = true then modeResult 0xE3 s1
    else if curMode s1 = 5 ∧ safeWritable n off = false then safeWrite d off (regFields n) v s1
    else ruleWrite x d off n shadow v (classWord (regFields n) v (rd off s1)) s1

/-- A write to a component register, which holds what was last written; it may clear status bits of RAS, and with the uncorrectable one the Header
Log (R530). -/
def componentWrite (o : Nat) (v : Word) (s : State) : State :=
  let k := Config.rasClears o v
  let x := s.cxl
  { s with cxl := { x with
      component := smSet 0 o v x.component
      rasCorr := x.rasCorr && !k.testBit 0
      rasInternal := x.rasInternal && !k.testBit 1
      headerLog := if k.testBit 1 then 0 else x.headerLog } }

/-- A word write to BAR0 after the Glove, the chip area and the width. -/
def bar0Write (x : RegEnv) (d off : Nat) (v : Word) (s : State) : State :=
  match regAt (fun p => pipeDecodes p s) off with
  | some (n, shadow) => regWrite x d off n shadow v s
  | none =>
    if 0xC00000 ≤ off ∧ off < 0xD00000 then
      (if curMode s = 5 then accessErr d kindState off s else scheduleWrite d ((off - 0xC00000) / 16) (off % 16 / 4) v s)
    else if 0xD00000 ≤ off ∧ off < 0xD10000 then
      (if curMode s = 5 then accessErr d kindState off s
       else componentWrite (off - 0xD00000) v s)
    else s

/-! ### The MSI-X table (R533) -/

/-- Word `k` of a table entry. -/
def vecWord (x : Vec) (k : Nat) : Word :=
  match k with
  | 0 => BitVec.ofNat 32 x.addr
  | 1 => BitVec.ofNat 32 (x.addr / 2 ^ 32)
  | 2 => x.data
  | _ => if x.mask then 1 else 0

def vecPut (x : Vec) (k : Nat) (v : Word) : Vec :=
  match k with
  | 0 => { x with addr := x.addr / 2 ^ 32 * 2 ^ 32 + v.toNat }
  | 1 => { x with addr := x.addr % 2 ^ 32 + 2 ^ 32 * v.toNat }
  | 2 => { x with data := v }
  | _ => { x with mask := v.getLsbD 0 }

/-- Where the pending bit array of a function stands. -/
def pbaBase (d : Nat) : Nat := if d = 0 then 0x8000 else 0x1000

def bar4Write (d off : Nat) (v : Word) (s : State) : State :=
  if off < 16 * vecCount d then setVec d (off / 16) (vecPut (getVec d (off / 16) s) (off % 16 / 4) v) s else s

def bar4Read (d off : Nat) (s : State) : Word :=
  if off < 16 * vecCount d then vecWord (getVec d (off / 16) s) (off % 16 / 4)
  else if pbaBase d ≤ off ∧ off < pbaBase d + vecCount d / 8 then
    BitVec.ofNat 32 ((List.range 32).foldl (fun n i =>
      let v := 8 * (off - pbaBase d) + i
      if (getVec d v s).pba && holdsMessage d v s then n + 2 ^ i else n) 0)
  else 0

/-! ### Writes -/

/-- Steps 1 and 2 of R540 for an access from byte `i` of a word on; `k` is the rest. -/
def admitted (d : Nat) (b : Bar) (off i : Nat) (write : Bool) (k : State → State) (s : State) : State :=
  let o := accessOffset b off s
  if gloveStops d b off write s then gloveDeny d o (offsetUsed b off s)
  else if loadStops b off s then accessErr d kindLoadArea (o + i) (offsetUsed b off s)
  else k s

/-- The word with the enabled bytes written over it. -/
def mergeBytes (w : Word) (data : List (Option Byte)) : Word :=
  BitVec.ofNat 32 (leNat ((List.range 4).map fun i =>
    match (data[i]?).getD none with
    | some b => b
    | none => BitVec.ofNat 8 (w.toNat / 256 ^ i)))

/-- A write that lies in one word: four byte lanes, of which some may not be enabled (R541 to R544). -/
def wordWrite (x : RegEnv) (d : Nat) (b : Bar) (off : Nat) (data : List (Option Byte)) (s : State) : State :=
  let all := data.length == 4 && data.all Option.isSome
  if data.all Option.isNone then s
  else
    let i := (data.takeWhile Option.isNone).length
    admitted d b off i true (fun t =>
      let r := match b with
        | .bar0 => some off
        | .bar2 => doorbellAlias off t
        | .bar4 => none
      if !all && !(match r with | some o => byteWritable o t | none => false) then
        accessErr d kindNarrow (accessOffset b off t + i) (offsetUsed b off t)
      else
        match b, r with
        | .bar4, _ => bar4Write d off (mergeBytes 0 data) t
        | _, some o => bar0Write x d o (mergeBytes (rd o t) data) t
        | _, none => t) s

/-- Cut a list in pieces of four. -/
def fours {α : Type} : Nat → List α → List (List α)
  | 0, _ => []
  | fuel + 1, l => if l.isEmpty then [] else l.take 4 :: fours fuel (l.drop 4)

/-- A write of any width (R541 to R544). -/
def memoryWrite (x : RegEnv) (d : Nat) (b : Bar) (off : Nat) (data : List (Option Byte)) (s : State) : State :=
  if hostPath d s = false then s
  else if off % 4 = 0 ∧ data.length % 4 = 0 then
    ((fours data.length data).zipIdx).foldl (fun a e => wordWrite x d b (off + 4 * e.2) e.1 a) s
  else if off % 4 + data.length ≤ 4 then
    wordWrite x d b (off - off % 4) (List.replicate (off % 4) none ++ data) s
  else
    let o := off - off % 4
    admitted d b o (off % 4) true (fun t => accessErr d kindUnaligned (accessOffset b o t + off % 4) (offsetUsed b o t)) s

/-- The configuration fields of a function (R531, R573, R574). NumVFs is PF0's, and stays at most TotalVFs. In LOAD, until the chip area
answers, a request completes with Configuration Request Retry Status (R146). -/
def configWrite (d : Nat) (c : ConfigIn) (s : State) : State :=
  if s.pwr.linkUp = false ∨ s.pwr.bypass = true then s
  else if c.early = true ∧ curMode s = 1 then emit (.configRetry d) s
  else
    let s0 : State := if c.aerClear then { s with cxl := { s.cxl with aer := smSet false d false s.cxl.aer } } else s
    let s1 := setFn d ⟨c.d0, c.pmeEn, c.msixEn, c.fnMask, c.memSpace, (getFn d s).pme && !c.d0⟩ s0
    if d = 0 ∧ c.numVfs ≤ fget Reg.glvSummary GlvSummary.glvMaxDom s then { s1 with icu := { s1.icu with numVfs := c.numVfs } }
    else s1

def hostWrite (x : RegEnv) (d : Nat) (w : HostWrite) (s : State) : State :=
  match w with
  | .memory b off data => memoryWrite x d b off data s
  | .config c => configWrite d c s

/-- A register write meets nothing beside its value. -/
def RegEnv.plain : RegEnv := ⟨15, false, [], ⟨⟨none, false, false, false, false, [], false⟩, .error, 0, []⟩⟩

/-- A 32-bit write of `v` to the register at BAR0 offset `off`. -/
def regPut (x : RegEnv) (d off : Nat) (v : Word) (s : State) : State :=
  memoryWrite x d .bar0 off ((leBytes v.toNat 4).map some) s

/-! ### Reads -/

/-- CMD_PROGRESS counts the work of the operation that runs (R623, R625, R626, R657): what it shows before the end is a free
value. -/
def progressOpen (s : State) : Bool :=
  cmdBusy s && (curOp s == 0x10 || curOp s == 0x20 || curOp s == 0x21 || curOp s == 0x22)

/-- What the register at an offset holds now, the fields that follow other state included. -/
def liveWord (off : Nat) (s : State) : Word :=
  let w := rd off s
  match regAt (fun p => pipeDecodes p s) off with
  | none =>
    if 0xD00000 ≤ off ∧ off < 0xD10000 then Config.componentRead (off - 0xD00000) (smGet 0 (off - 0xD00000) s.cxl.component)
    else if 0xC00000 ≤ off ∧ off < 0xD00000 then w
    else 0
  | some (n, _) =>
    match n with
    | .cmdProgress => if progressOpen s then BitVec.ofNat 32 (freeNat s) else w
    | .rckDomPosLo => domPosLo ((off - 0x11000) / 0x40) s
    | .rckDomPosHi => domPosHi ((off - 0x11000) / 0x40) s
    | .icuStatus => putF IcuStatus.pendCnt w (icuPendCount s)
    | .icuNext => icuNext ((off - 0x30100) / 0x10) s
    | .icuSrcStat => putF IcuSrcStat.pend w (if srcPending ((off - 0x38000) / 4) s then 1 else 0)
    | .icuVecHold =>
      let i := (off - 0x3C000) / 4
      let dv := if i < 2048 then (0, i) else ((i - 2048) / 128 + 1, (i - 2048) % 128)
      putF IcuVecHold.idle w (if vecIdle dv.1 dv.2 s then 1 else 0)
    | .schCredit => BitVec.ofInt 32 ((getPort ((off - 0x100000) / 0x100) s).credit / 2 ^ 24)
    | .schGrpPend => BitVec.ofNat 32 (groupPend ((off - 0x140100) / 4) s)
    | .schMacRate => BitVec.ofNat 32 (targetRate ((off - 0x141000) / 0x40) s / 1000)
    | .maStatus =>
      let r := (off - 0x400000) / 0x40000
      putF MaStatus.maEnabled (putF MaStatus.maBudgetSum w (budgetSum r s)) (enabledOn r s).length
    | .lanLaneStatus => putF LanLaneStatus.active w (if laneActive ((off - 0x80000) / 0x100) s then 1 else 0)
    | .fltNowLo => BitVec.ofNat 32 s.now
    | .fltNowHi => BitVec.ofNat 32 (s.now / 2 ^ 32)
    | _ => w

/-- A low word whose read snapshots the high word after it. -/
def snapshots (n : RegName) : Bool :=
  match n with
  | .rckDomPosLo => true
  | .rckTrigPosLo => true
  | .memCeAddrLo => true
  | .memUeAddrLo => true
  | .dmaCurLo => true
  | .dmaBytesLo => true
  | .lanPrbsBitsLo => true
  | .sptPktsLo => true
  | .sptBytesLo => true
  | .fltHistLo => true
  | .fltNowLo => true
  | _ => false

/-- The high words that read as their snapshot. -/
def snapshotted (n : RegName) : Bool :=
  match n with
  | .rckDomPosHi => true
  | .rckTrigPosHi => true
  | .memCeAddrHi => true
  | .memUeAddrHi => true
  | .dmaCurHi => true
  | .dmaBytesHi => true
  | .lanPrbsBitsHi => true
  | .sptPktsHi => true
  | .sptBytesHi => true
  | .fltHistHi => true
  | .fltNowHi => true
  | _ => false

/-- What a read of a BAR0 word returns. -/
def readWordAt (off : Nat) (s : State) : Word :=
  match regAt (fun p => pipeDecodes p s) off with
  | some (n, _) => if snapshotted n then smGet 0 off s.snaps else liveWord off s
  | none => liveWord off s

/-- The mesh cycles pass until the pools have served what host software of domain `d` asked for before (R420). -/
def hopSettle : Nat → Nat → State → State
  | 0, _, s => s
  | f + 1, d, s => if hopWaiting d s then hopSettle f d (poolsCycle (passCycles 1 s)) else s

/-- Requests that wait at the arbiters of the pools. -/
def asksWaiting (s : State) : Nat := sumNat (s.pools.arbs.map fun a => a.2.waiting.length)

/-- A read of HOP_RESULT follows every HOP_CMD write of its domain (R420). -/
def readOrder (off : Nat) (s : State) : State :=
  match regAt (fun p => pipeDecodes p s) off with
  | some (.hopResult, _) => hopSettle (asksWaiting s) ((off - 0x61000) / 0x20) s
  | _ => s

/-- A 32-bit read of a BAR0 word with its side effect: a low word snapshots its high word, and HOP_ALLOC allocates (R421). -/
def readEffect (off : Nat) (s : State) : State :=
  match regAt (fun p => pipeDecodes p s) off with
  | some (.hopAlloc, _) =>
    let d := (off - 0x61000) / 0x20
    let s1 := hopAlloc d s
    hopSettle (asksWaiting s1) d s1
  | some (n, _) => if snapshots n then { s with snaps := smSet 0 (off + 4) (liveWord (off + 4) s) s.snaps } else s
  | none => s

def allOnes : Word := 0xFFFFFFFF#32

/-- A read of `n` bytes inside one word, from byte `i` on (R541): only a 32-bit read without gaps has a side effect. -/
def wordRead (sparse : Bool) (d : Nat) (b : Bar) (off i n : Nat) (s : State) : State :=
  let full := decide (n = 4) && !sparse
  let answer := fun (w : Word) => emit (.regRead d (off + i) (BitVec.ofNat 32 (w.toNat / 256 ^ i % 256 ^ n)))
  if gloveStops d b off false s || loadStops b off s then answer allOnes (admitted d b off i false id s)
  else
    match b with
    | .bar4 => answer (bar4Read d off s) s
    | .bar0 =>
      let s0 := readOrder off s
      let t := if full then readEffect off s0 else s0
      answer (readWordAt off t) (if off = Reg.cmdProgress ∧ progressOpen t = true then stepFree t else t)
    | .bar2 =>
      match doorbellAlias off s with
      | some o => let t := if full then readEffect o s else s; answer (readWordAt o t) t
      | none => answer 0 s

/-- A read of any width (R541 to R544). -/
def hostRead (sparse : Bool) (d : Nat) (b : Bar) (off n : Nat) (s : State) : State :=
  if hostPath d s = false ∨ n = 0 then s
  else if off % 4 = 0 ∧ n % 4 = 0 then (List.range (n / 4)).foldl (fun a k => wordRead sparse d b (off + 4 * k) 0 4 a) s
  else if off % 4 + n ≤ 4 then wordRead sparse d b (off - off % 4) (off % 4) n s
  else
    let o := off - off % 4
    if gloveStops d b o false s || loadStops b o s then emit (.regRead d off allOnes) (admitted d b o (off % 4) false id s)
    else emit (.regRead d off allOnes) (accessErr d kindUnaligned (accessOffset b o s + off % 4) (offsetUsed b o s))

/-! ### Configuration space (R523, R531) -/

/-- Range 1 of the CXL DVSEC: the exposed carve-outs, each rounded up to 256 MiB. -/
def range1Size (s : State) : Nat :=
  sumNat ((s.comp.carves.filter fun c => c.kind != 0xFF && c.hdm != 0).map hdmSize)

/-- What configuration space of the function of domain `d` holds; none where the function has no such item. The DVSECs and SR-IOV are PF0's. -/
def configItem (d : Nat) (i : ConfigItem) (s : State) : Option Nat :=
  let pf := fun v : Nat => if d = 0 then some v else none
  let bit := fun b : Bool => if b then 1 else 0
  match i with
  | .vendorId => some 0x1F5C
  | .deviceId => some (if d = 0 then 0x0510 else 0x0511)
  | .revisionId => some 0xB0
  | .classCode => some 0x048000
  | .cacheCapable => pf 1
  | .ioCapable => pf 1
  | .memCapable => pf 1
  | .hdmCount => pf 1
  | .memHwInit => pf 0
  | .viralCapable => pf 0
  | .cacheSizeUnit => pf 0
  | .range1Size => pf (range1Size s)
  | .range2Size => pf 0
  | .memInfoValid => pf (bit s.pwr.memActive)
  | .memActive => pf (bit s.pwr.memActive)
  | .memActiveTimeout => pf 1
  | .cxlEnabled => pf (bit !s.pwr.linkPcie)
  | .nonCxl v => pf (bit (decide (0 < v.val ∧ v.val ≤ fget Reg.glvSummary GlvSummary.glvMaxDom s)))
  | .gpfPhase2 => pf 20
  | .portCache => pf 1
  | .portIo => pf 1
  | .portMem => pf 1
  | .flit68 => pf 1
  | .locatorBar => pf 0
  | .locatorOffset => pf 0xD00000
  | .totalVfs => pf (fget Reg.glvSummary GlvSummary.glvMaxDom s)
  | .initialVfs => pf (fget Reg.glvSummary GlvSummary.glvMaxDom s)
  | .firstVfOffset => pf 1
  | .vfStride => pf 1
  | .numVfs => pf s.icu.numVfs
  | .ari => pf 1
  | .ats => some 1
  | .aerPoisoned => some (bit (smGet false d s.cxl.aer))

/-- A read of configuration space; in LOAD, until the chip area answers, it is to be tried again (R146). A VF is there up to NumVFs. -/
def configRead (d : Nat) (early : Bool) (i : ConfigItem) (s : State) : State :=
  if s.pwr.linkUp = false ∨ s.pwr.bypass = true then s
  else if early = true ∧ curMode s = 1 then emit (.configRetry d) s
  else if s.icu.numVfs < d then emit (.configData d none) s
  else emit (.configData d (configItem d i s)) s

def hostLoad (d : Nat) (r : HostLoad) (s : State) : State :=
  match r with
  | .memory b off n sparse => hostRead sparse d b off n s
  | .config early i => configRead d early i s

end Sys2Proof.Machine
end

