-- ==== Sys2Proof/Machine/RowOps.lean ====
section
/-! DEFINITION. Operations that commands of several families share: host writes to one register, external inputs, who asks a pool,
corrected errors, and the SMBus replies that are not plain reads. -/

namespace Sys2Proof.Machine

open Sys2Proof

/-! ### Host writes -/

/-- A host write of a word with byte enables. -/
def bytePut (d off : Nat) (be : BitVec 4) (v : Word) (s : State) : State :=
  memoryWrite RegEnv.plain d .bar0 off
    ((leBytes v.toNat 4).mapIdx fun i b => if be.getLsbD i then some b else none) s

/-- A host write of MODE_REQ. -/
def modeReqPut (d k : Nat) (s : State) : State := regPut RegEnv.plain d Reg.chipMode (putF ChipMode.modeReq 0 k) s

/-- A host write of an operation code to CMD_OP. -/
def opPut (d op : Nat) (s : State) : State := regPut RegEnv.plain d Reg.cmdOp (BitVec.ofNat 32 op) s

/-- Word `o` of a parameter set of pipeline `p` (R222): sets 0 ENC or DEC, 1 RC, 2 ROI; active, then shadow. -/
def setOffset (p set : Nat) (shadow : Bool) (o : Nat) : Nat :=
  0x800100 + 0x1000 * p + 0x200 * set + (if shadow then 0x100 else 0) + 4 * o

/-! ### Requests to the frame store (R27, R33, R364) -/

/-- The region memory agent that passes a request, with the pipeline charged. -/
def memVia (b : MemBy) : Option (Nat × Option Nat) := b.agent.map fun x => (x.1.val, x.2.map fun p => p.val)

/-- The flit of a request: it was injected `age` mesh cycles ago. -/
def memFlit (b : MemBy) (m : MemReqIn) (s : State) : Flit :=
  { req := ⟨m.write, m.word, m.data, m.first, m.cls, m.poisoned⟩, injected := s.now - b.age, input := b.input.val }

/-! ### External inputs (R565 to R567) -/

/-- A filtered TRIG_IN event: it is counted, arms triggered entries, latches the position, and maps to a ring trigger. -/
def trigInEvent (n : Nat) (s : State) : State :=
  if s.pwr.bypass then s
  else ringTrigIn n (latchTrigger n (armTriggers n (raise (2560 + n) s)))

/-- Samples of one level at the glitch filter of input `n`: at the FILT + 1st the filtered level changes. An event of inputs 4 to 7 is
counted here; an event of a TRIG_IN is TRIG_IN_EVENT. -/
def externalInput (n : Nat) (level : Bool) (samples : Nat) (s : State) : State :=
  if s.pwr.bypass then s
  else
    let r := glitchSample n level samples s
    if r.2 && decide (4 ≤ n) && isEvent (extSense n r.1) level then raise (2560 + n) r.1 else r.1

/-! ### Acknowledgement (R580) -/

/-- How a source was last delivered (DEL_KIND). -/
def deliveredAs (src : Nat) (s : State) : Nat := fget (Reg.icuSrcStat src) IcuSrcStat.delKind s

/-- An acknowledgement: host software writes ICU_ACK, firmware acknowledges what was delivered to it. -/
def ackBy (a : AckBy) (src n : Nat) (s : State) : State :=
  match a with
  | .host d => regPut RegEnv.plain d (Reg.icuAck d) (putF IcuAck.ackN (putF IcuAck.ackSrc 0 src) n) s
  | .rgc r =>
    if deliveredAs src s = 2 ∧ fget (Reg.icuSrcRoute src) IcuSrcRoute.rgcRegion s = r then ackFirmware src s else s
  | .baseCamp => if deliveredAs src s = 3 ∨ deliveredAs src s = 5 then ackFirmware src s else s

/-! ### Corrected errors (R585) -/

/-- Errors that a unit corrected in place. -/
def correctedErrors (u : FaultUnit) (n : Nat) (s : State) : State :=
  if s.pwr.bypass then s else bumpBy n (Reg.fltCeCnt (faultBase u)) FltEvtCnt.count s

/-- Patch-memory errors that a block corrected in place. -/
def patchCorrected (r b n : Nat) (s : State) : State :=
  if s.pwr.bypass then s else bumpBy n (Reg.seqEcc r b) SeqEcc.seqCorr s

/-! ### Who asks a pool (R409 to R421) -/

def allocBy (a : AllocBy) (s : State) : State :=
  match a with
  | .host d => hostRead false d .bar0 (Reg.hopAlloc d) 4 s
  | .unit p who waits live => unitAlloc p who waits live s

/-- FREE, RELEASE, SHARE or PASS; `code` is the host's operation code. -/
def bufBy (a : BufBy) (code : Nat) (op : BufOp) (n : Nat) (s : State) : State :=
  match a with
  | .host d => regPut RegEnv.plain d (Reg.hopCmd d) (putF HopCmd.op (putF HopCmd.id 0 n) code) s
  | .unit who => unitBufOp op n who s

/-- The i-th waiting party asks again (R413, R416): a producer, a channel inside TO_POOL, or a unit whose FREE met
SHARED_PENDING. -/
def poolRetry (i : Nat) (s : State) : State :=
  match s.pools.waits[i]?.filter fun w => mayAsk w s with
  | none => s
  | some (.alloc who p) =>
    if 1024 ≤ who ∧ who < 1088 then
      (if running (who - 1024) 2 s && decide ((getChan (who - 1024) s).buf = 0) then toPoolAlloc (who - 1024) s
       else dropWait (.alloc who p) s)
    else unitAlloc p who true false s
  | some (.free who n) => unitBufOp .free n who (dropWait (.free who n) s)

/-! ### SMBus replies (R647) -/

/-- SENSOR: the value of a sensor; an index past the last leaves the value open. -/
def smbSensor (n : Nat) (s : State) : State :=
  if n < 64 then emit (.smbus (smbBytes (fget (Reg.bcmSensor n) BcmSensor.value s) 2)) s
  else emit (.smbus (smbBytes (freeNat s % 65536) 2)) (stepFree s)

/-- HOLD: 1 holds the chip in reset, 0 releases it, and the spec gives other bytes no effect. -/
def smbHoldByte (v : Nat) (s : State) : State := if v = 1 then smbHold true s else if v = 0 then smbHold false s else s

/-- FW_INFO: BF_VERSION, FW_SLOT and the ROM version. -/
def smbFwInfo (s : State) : State :=
  emit (.smbus (smbBytes (rd Reg.bcmFwVersion s).toNat 4 ++ [fget Reg.bcmStatus BcmStatus.fwSlot s]
    ++ (List.range 3).map fun i => (Config.romVersion i).toNat)) s

end Sys2Proof.Machine
end

