-- ==== Sys2Proof/Machine/PowerRows.lean ====
section
/-! DEFINITION. The meanings of the commands: Power, resets, start-up and the host link (chapters 04, 13, 16). -/

namespace Sys2Proof.Machine

open Sys2Proof

/-- AUX_POWER_ON. Base Camp's own power-on reset: the straps are sampled, everything is cleared (R143, R153, R680). -/
def execAuxPowerOn (adsel : Fin 4) (s : State) : Host.Outcome State Fault Refusal :=
  .next (auxPowerOn adsel s)

/-- BASE_CAMP_FIRMWARE_LOAD. The boot ROM checks and loads firmware from slot A, else slot B (R632); the operands are the verdicts of the signature
checks. -/
def execBaseCampFirmwareLoad (sigA sigB : Bool) (s : State) : Host.Outcome State Fault Refusal :=
  .next (firmwareLoad sigA sigB s)

/-- RAIL_WINDOW_ENTRY. A rail first enters its window and is supervised from then on (R672). -/
def execRailWindowEntry (r : Rail) (s : State) : Host.Outcome State Fault Refusal :=
  .next (railWindowEntry r s)

/-- RAIL_ENTRY_TIMEOUT. A rail has not entered its window within 50 ms: a trip (R672). -/
def execRailEntryTimeout (r : Rail) (s : State) : Host.Outcome State Fault Refusal :=
  .next (railEntryTimeout r s)

/-- RAIL_EXCURSION. A supervised rail outside its window for 100 us: a trip, but while PERST_N is asserted only RAIL_OK (R672). -/
def execRailExcursion (r : Rail) (s : State) : Host.Outcome State Fault Refusal :=
  .next (railExcursion r s)

/-- VAUX_BROWNOUT. VAUX_0V8 below 0.70 V holds all other logic in reset and tristates every signal pad (R673). -/
def execVauxBrownout (s : State) : Host.Outcome State Fault Refusal :=
  .next (vauxBrownout s)

/-- CHIP_START. The chip leaves BYPASS and loads slot A, else slot B (R145, R146, R109); the operands are the cryptographic verdicts. -/
def execChipStart (vA vB : SlotVerdict) (s : State) : Host.Outcome State Fault Refusal :=
  .next (chipStart vA vB s)

/-- HBM_STACK_TRAINED. A training of a stack ends; the third failed one enters SAFE (R146). -/
def execHbmStackTrained (c : StackId) (ok : Bool) (s : State) : Host.Outcome State Fault Refusal :=
  .next (hbmStackTrained c ok s)

/-- RELEASE_TO_BIVOUAC. Step 6 of start-up (R146). -/
def execReleaseToBivouac (s : State) : Host.Outcome State Fault Refusal :=
  .next (releaseToBivouac s)

/-- CXL_LINK_UP. The host link trains with a partner that offers so many lanes (R519). -/
def execCxlLinkUp (mode : LinkMode) (lanes rate : Nat) (s : State) : Host.Outcome State Fault Refusal :=
  .next (cxlLinkUp mode lanes rate s)

/-- PERST_ASSERT. A filtered PERST_N assertion (R153). -/
def execPerstAssert (s : State) : Host.Outcome State Fault Refusal :=
  .next (perstAssert s)

/-- LINK_RESET. A hot reset or link disable acts as PERST_N with cause LINK_RESET (R153). -/
def execLinkReset (s : State) : Host.Outcome State Fault Refusal :=
  .next (linkReset s)

/-- PASS_THROUGH_LOCK. The internal pass-through locks (R176). -/
def execPassThroughLock (s : State) : Host.Outcome State Fault Refusal :=
  .next (passThroughLock s)

/-- FLR_VF. A function-level reset of VF d (R153). -/
def execFlrVf (d : DomId) (s : State) : Host.Outcome State Fault Refusal :=
  .next (flrVf d s)

/-- FLR_PF0. A function-level reset of PF0: an FLR of every domain, and a running operation is aborted (R153). -/
def execFlrPf0 (s : State) : Host.Outcome State Fault Refusal :=
  .next (flrPf0 s)

/-- TRST_ASSERT. TRST_N resets only the TAP (R153). -/
def execTrstAssert (s : State) : Host.Outcome State Fault Refusal :=
  .next (trstAssert s)

/-- CXL_LINK_DOWN. The link goes down without a hot reset (R522). -/
def execCxlLinkDown (s : State) : Host.Outcome State Fault Refusal :=
  .next (cxlLinkDown s)

/-- CXL_LINK_RETURN. The link returns to L0 within 1 s (R522). -/
def execCxlLinkReturn (lanes rate : Nat) (s : State) : Host.Outcome State Fault Refusal :=
  .next (cxlLinkReturn lanes rate s)

/-- CXL_LINK_DOWN_TIMEOUT. The link has not returned within 1 s (R522). -/
def execCxlLinkDownTimeout (s : State) : Host.Outcome State Fault Refusal :=
  .next (cxlLinkDownTimeout s)

end Sys2Proof.Machine
end

