-- ==== Sys2Proof/Machine/ModeRows.lean ====
section
/-! DEFINITION. The meanings of the commands: Operating modes and the Mitten path (chapter 04). -/

namespace Sys2Proof.Machine

open Sys2Proof

/-- MODE_REQ_BIVOUAC. A write of 2 to MODE_REQ (R159). -/
def execModeReqBivouac (d : DomId) (s : State) : Host.Outcome State Fault Refusal :=
  .next (modeReqPut d 2 s)

/-- MODE_REQ_RUN. A write of 3 to MODE_REQ (R159). -/
def execModeReqRun (d : DomId) (s : State) : Host.Outcome State Fault Refusal :=
  .next (modeReqPut d 3 s)

/-- MODE_REQ_MAINTAIN. A write of 4 to MODE_REQ (R159). -/
def execModeReqMaintain (d : DomId) (s : State) : Host.Outcome State Fault Refusal :=
  .next (modeReqPut d 4 s)

/-- MODE_TRANSITION_DONE. A requested transition completes (R161). -/
def execModeTransitionDone (s : State) : Host.Outcome State Fault Refusal :=
  .next (modeTransitionDone s)

/-- FORCE_SAFE. A key-guarded write of 1 to FORCE_SAFE (R614); the same word carries MITTEN_FORCE. -/
def execForceSafe (d : DomId) (mitten : Fin 4) (s : State) : Host.Outcome State Fault Refusal :=
  .next (regPut RegEnv.plain d Reg.chipForce (putF ChipForce.forceSafe (putF ChipForce.mittenForce 0 mitten) 1) s)

/-- MITTEN_FORCE_WRITE. A key-guarded write of MITTEN_FORCE (R180). -/
def execMittenForceWrite (d : DomId) (mitten : Fin 4) (s : State) : Host.Outcome State Fault Refusal :=
  .next (regPut RegEnv.plain d Reg.chipForce (putF ChipForce.mittenForce 0 mitten) s)

/-- SAFE_ENTRY. An L4 fault, FORCE_SAFE or a failed stack takes the chip to SAFE (R614). -/
def execSafeEntry (c : SafeCause) (s : State) : Host.Outcome State Fault Refusal :=
  .next (safeEntry c s)

/-- RECOMPOSE_REGATE. A region left READY in BIVOUAC by a recomposition is gated again (R168). -/
def execRecomposeRegate (r : RegionId) (s : State) : Host.Outcome State Fault Refusal :=
  .next (recomposeRegate r s)

end Sys2Proof.Machine
end

