-- ==== Sys2Proof/Machine/RasterRows.lean ====
section
/-! DEFINITION. The meanings of the commands: The raster clock, PTP and the schedule walkers (chapters 02, 16). -/

namespace Sys2Proof.Machine

open Sys2Proof

/-- REF_SOURCE_LOST. The source in use has been invalid for its loss delay (R62). -/
def execRefSourceLost (s : State) : Host.Outcome State Fault Refusal :=
  .next (checkLoss s)

/-- HOLDOVER_TIMEOUT. The source has stayed lost for RCK_HOLD_MS (R64). -/
def execHoldoverTimeout (s : State) : Host.Outcome State Fault Refusal :=
  .next (holdoverTimeout s)

/-- RCK_PHASE_MEASUREMENT. A measurement of the phase error, in ns, and of the source's rate against the time base (R697). -/
def execRckPhaseMeasurement (err rate : Int) (s : State) : Host.Outcome State Fault Refusal :=
  .next (phaseMeasurement err rate s)

/-- RCK_LOCKED. The phase error has stayed within 100 ns for 1 s (R60). -/
def execRckLocked (s : State) : Host.Outcome State Fault Refusal :=
  .next (rckLocked s)

/-- RCK_RATE_UPDATE. A rate update slews the time base, or steps it (R65, R66). -/
def execRckRateUpdate (s : State) : Host.Outcome State Fault Refusal :=
  .next (rateUpdate s)

/-- RCK_REF_PRI_WRITE. A write of RCK_CTL (R67). -/
def execRckRefPriWrite (d : DomId) (v : Word) (s : State) : Host.Outcome State Fault Refusal :=
  .next (regPut RegEnv.plain d Reg.rckCtl v s)

/-- RCK_DOM_OFS_WRITE. A write of RCK_DOM_OFS (R70). -/
def execRckDomOfsWrite (d : DomId) (r : RasterId) (v : Word) (s : State) : Host.Outcome State Fault Refusal :=
  .next (regPut RegEnv.plain d (Reg.rckDomOfs r) v s)

/-- DOMAIN_FRAME_END. A domain's frame ends: a pending step or offset is taken and a new walk begins (R66, R70, R73). -/
def execDomainFrameEnd (r : RasterId) (s : State) : Host.Outcome State Fault Refusal :=
  .next (domainFrameEnd r s)

/-- PTP_MESSAGE. A PTP message is received and timestamped (R57). -/
def execPtpMessage (domain : Nat) (m : PtpMsg) (s : State) : Host.Outcome State Fault Refusal :=
  .next (ptpMessage domain m s)

/-- PTP_EXCHANGE. A PTP exchange completes (R653). -/
def execPtpExchange (rate : Int) (s : State) : Host.Outcome State Fault Refusal :=
  .next (ptpExchange rate s)

/-- PTP_ADJ_WRITE. A write of BCM_PTP_ADJ (R653). -/
def execPtpAdjWrite (d : DomId) (v : Word) (s : State) : Host.Outcome State Fault Refusal :=
  .next (regPut RegEnv.plain d Reg.bcmPtpAdj v s)

/-- PTP_HOST_STALE. With SERVO 1, no ADJ has been written for 2 s (R653). -/
def execPtpHostStale (s : State) : Host.Outcome State Fault Refusal :=
  .next (ptpHostStale s)

/-- REF_V_EDGE. A falling edge of REF_V, REF_H or REF_F, or an edge of PPS or the 10 MHz input, with the level of REF_F, is taken without the
glitch filter (R685). -/
def execRefVEdge (input : Fin 5) (refF : Bool) (s : State) : Host.Outcome State Fault Refusal :=
  .next (refEdge input refF s)

/-- SCHEDULE_ENTRY_FIRE. The walkers of a domain fire the next entry that is due (R73). -/
def execScheduleEntryFire (r : RasterId) (s : State) : Host.Outcome State Fault Refusal :=
  .next (scheduleFire r s)

/-- HOST_SCHEDULE_WRITE. A host write to word k of schedule entry e, with its byte enables (R80, R542). -/
def execHostScheduleWrite (d : DomId) (e : Fin 65536) (k : Fin 4) (be : BitVec 4) (v : Word) (s : State) : Host.Outcome State Fault Refusal :=
  .next (bytePut d (0xC00000 + 16 * e.val + 4 * k.val) be v s)

end Sys2Proof.Machine
end

