-- ==== Sys2Proof/Machine/ActionRows.lean ====
section
/-! DEFINITION. The meanings of the commands: Scheduled actions at their targets, and external inputs (chapters 02, 14). -/

namespace Sys2Proof.Machine

open Sys2Proof

/-- NOP. A NOP action reaches its target (R78). -/
def execNop (n : Fin 4096) (s : State) : Host.Outcome State Fault Refusal :=
  .next (nopAction n s)

/-- HANDOVER. HANDOVER reaches the pipeline (R224). -/
def execHandover (p : PipeId) (s : State) : Host.Outcome State Fault Refusal :=
  .next (handoverAction p s)

/-- PIC_START. PIC_START reaches the pipeline (R78). -/
def execPicStart (p : PipeId) (info : PicInfo) (s : State) : Host.Outcome State Fault Refusal :=
  .next (picStart p info s)

/-- MARGIN_MARK. MARGIN_MARK reaches the pipeline (R86). -/
def execMarginMark (p : PipeId) (s : State) : Host.Outcome State Fault Refusal :=
  .next (marginMarkAction p s)

/-- ROW_DEADLINE. ROW_DEADLINE reaches the pipeline (R87). -/
def execRowDeadline (p : PipeId) (s : State) : Host.Outcome State Fault Refusal :=
  .next (rowDeadlineAction p s)

/-- EMIT. EMIT reaches the decode pipeline (R293). -/
def execEmit (p : PipeId) (s : State) : Host.Outcome State Fault Refusal :=
  .next (emitAction p s)

/-- RELEASE. RELEASE reaches the egress port (R502). -/
def execRelease (n : PortId) (s : State) : Host.Outcome State Fault Refusal :=
  .next (releaseOn n s)

/-- CAPTURE_ARM. CAPTURE_ARM reaches capture (R194). -/
def execCaptureArm (p : PipeId) (s : State) : Host.Outcome State Fault Refusal :=
  .next (captureArm p s)

/-- REGION_UP. REGION_UP reaches the region (R90). -/
def execRegionUp (r : RegionId) (s : State) : Host.Outcome State Fault Refusal :=
  .next (regionUp r s)

/-- REGION_GATE. REGION_GATE reaches the region (R91). -/
def execRegionGate (r : RegionId) (s : State) : Host.Outcome State Fault Refusal :=
  .next (regionGate r s)

/-- REGION_DVFS. REGION_DVFS reaches the region (R92). -/
def execRegionDvfs (r : RegionId) (s : State) : Host.Outcome State Fault Refusal :=
  .next (regionDvfs r s)

/-- HBM_RETRAIN. HBM_RETRAIN reaches the controller (R370). -/
def execHbmRetrain (c : StackId) (ch : Fin 16) (s : State) : Host.Outcome State Fault Refusal :=
  .next (hbmRetrainAction c ch s)

/-- TRIG_OUT. TRIG_OUT reaches the output (R95). -/
def execTrigOut (n : Fin 4) (s : State) : Host.Outcome State Fault Refusal :=
  .next (trigOutAction n s)

/-- TRIG_OUT_PULSE_END. The pulse of an output expires (R78). -/
def execTrigOutPulseEnd (n : Fin 4) (s : State) : Host.Outcome State Fault Refusal :=
  .next (trigOutEnd n s)

/-- IRQ_ACTION. IRQ raises source 96 + SE_ARG[4:0] (R96). -/
def execIrqAction (n : Fin 4096) (s : State) : Host.Outcome State Fault Refusal :=
  .next (irqAction n s)

/-- RING_MARK. RING_MARK reaches the ring (R475). -/
def execRingMark (n : Fin 4096) (s : State) : Host.Outcome State Fault Refusal :=
  .next (ringMark n s)

/-- REGION_ACTION_AT_IDLE. A deferred region action is taken once the region is idle (R638). -/
def execRegionActionAtIdle (r : RegionId) (s : State) : Host.Outcome State Fault Refusal :=
  .next (regionActAtIdle r s)

/-- REGION_IDLE. An ACTIVE region has no work left (R171). -/
def execRegionIdle (r : RegionId) (s : State) : Host.Outcome State Fault Refusal :=
  .next (regionIdle r s)

/-- TRIG_IN_EVENT. A filtered TRIG_IN event (R567, R77, R94, R474). -/
def execTrigInEvent (n : Fin 4) (s : State) : Host.Outcome State Fault Refusal :=
  .next (trigInEvent n s)

/-- EXTERNAL_INPUT_EDGE. The glitch filter of an external input takes a run of samples of one level (R565, R566). -/
def execExternalInputEdge (n : Fin 8) (level : Bool) (samples : Nat) (s : State) : Host.Outcome State Fault Refusal :=
  .next (externalInput n level samples s)

end Sys2Proof.Machine
end

