-- ==== Sys2Proof/Machine/BlockRows.lean ====
section
/-! DEFINITION. The meanings of the commands: Reads, blocks, faults and decoupling queues (chapters 01, 08, 13, 15). -/

namespace Sys2Proof.Machine

open Sys2Proof

/-- LOW_WORD_SNAPSHOT_READ. A read by the host: a 32-bit read of a low word snapshots its high word (R541, R543), or of configuration space (R523). -/
def execLowWordSnapshotRead (d : DomId) (r : HostLoad) (s : State) : Host.Outcome State Fault Refusal :=
  .next (hostLoad d r s)

/-- SPARE_MOVE. The spare role moves at a picture boundary after a test pass (R19). -/
def execSpareMove (r : RegionId) (b : BlockId) (s : State) : Host.Outcome State Fault Refusal :=
  .next (spareMove r b s)

/-- INSERVICE_PASS_DONE. An in-service test pass on the spare cell completes (R601). -/
def execInservicePassDone (r : RegionId) (b : BlockId) (pass : Bool) (s : State) : Host.Outcome State Fault Refusal :=
  .next (inservicePassDone r b pass s)

/-- ROW_UNIT_HANDOUT. The Region Controller hands a row unit to an idle block (R46). -/
def execRowUnitHandout (p : PipeId) (r : RegionId) (b : BlockId) (work : List LocalReq) (poisoned : List (Nat × Nat)) (black : List (Nat × Nat × Nat)) (s : State) : Host.Outcome State Fault Refusal :=
  .next (rowUnitHandout p r b work poisoned black s)

/-- PARTITION_ASSIGN. The next entropy partition goes to a Rope pair that falls idle (R321). -/
def execPartitionAssign (p : PipeId) (r : RegionId) (b : BlockId) (q : Fin 2) (cavlc : Bool) (s : State) : Host.Outcome State Fault Refusal :=
  .next (partitionAssign p r b q cavlc s)

/-- ROW_UNIT_COMPLETE. The row unit on a block is complete (R324). -/
def execRowUnitComplete (r : RegionId) (b : BlockId) (out : UnitIn) (s : State) : Host.Outcome State Fault Refusal :=
  .next (rowUnitComplete r b out s)

/-- PICTURE_COMPLETE. A picture of the pipeline completes (R277). -/
def execPictureComplete (p : PipeId) (s : State) : Host.Outcome State Fault Refusal :=
  .next (pictureComplete p s)

/-- BLOCK_FAULT. A block detects faults of one cycle (R586); errors corrected in place beside them are only counted (R585). -/
def execBlockFault (r : RegionId) (b : BlockId) (fs : List FaultIn) (corrected patch : Nat) (s : State) : Host.Outcome State Fault Refusal :=
  .next (blockFault r b fs (correctedErrors (.block r b) corrected (patchCorrected r b patch s)))

/-- BELAY_RERUN. The block re-runs the row unit from its checkpoint (R597). -/
def execBelayRerun (r : RegionId) (b : BlockId) (work : List LocalReq) (s : State) : Host.Outcome State Fault Refusal :=
  .next (belayRerun r b work s)

/-- STANDBY_TAKEOVER. The standby block takes over (R605). -/
def execStandbyTakeover (r : RegionId) (b : BlockId) (s : State) : Host.Outcome State Fault Refusal :=
  .next (standbyTakeover r b s)

/-- BLOCK_SELFTEST_DONE. A retired block's self-test ends (R608). -/
def execBlockSelftestDone (r : RegionId) (b : BlockId) (pass : Bool) (s : State) : Host.Outcome State Fault Refusal :=
  .next (blockSelftestDone r b pass s)

/-- REGION_FAULT. A region detects faults of one cycle (R586), and corrected errors (R585). -/
def execRegionFault (r : RegionId) (fs : List FaultIn) (corrected : Nat) (s : State) : Host.Outcome State Fault Refusal :=
  .next (regionFaults r fs (correctedErrors (.region r) corrected s))

/-- RGC_RESYNC_DONE. The outvoted core has resynchronised (R26). -/
def execRgcResyncDone (r : RegionId) (s : State) : Host.Outcome State Fault Refusal :=
  .next (rgcResyncDone r s)

/-- CHIP_FAULT. Chip-class faults of one cycle (R590), with what they strike, and corrected errors (R585). -/
def execChipFault (fs : List FaultIn) (v : Victim) (corrected : Nat) (s : State) : Host.Outcome State Fault Refusal :=
  .next (fs.foldl (fun a f => chipFaultAt f v a) (correctedErrors .chip corrected s))

/-- FAULT_ACK. A write to FLT_ACK (R587). -/
def execFaultAck (d : DomId) (u : FaultUnit) (v : Word) (s : State) : Host.Outcome State Fault Refusal :=
  .next (regPut RegEnv.plain d (Reg.fltAck (faultBase u)) v s)

/-- AUTO_ACK. AUTO_ACK_S seconds have passed without a further fault of a class (R588). -/
def execAutoAck (u : FaultUnit) (cls : Fin 64) (s : State) : Host.Outcome State Fault Refusal :=
  .next (autoAck u cls s)

/-- FAULT_INJECT. A key-guarded write to FLT_INJECT (R619). -/
def execFaultInject (d : DomId) (u : FaultUnit) (v : Word) (s : State) : Host.Outcome State Fault Refusal :=
  .next (regPut RegEnv.plain d (Reg.fltInject (faultBase u)) v s)

/-- INJECTION_FIRE. The delay of the armed injection expires (R621). -/
def execInjectionFire (u : FaultUnit) (both : Bool) (real : List FaultIn) (s : State) : Host.Outcome State Fault Refusal :=
  .next (injectionFire u both real s)

/-- CAIRN. A block sequencer reaches a cairn (R354). -/
def execCairn (r : RegionId) (b : BlockId) (gap progress : Nat) (s : State) : Host.Outcome State Fault Refusal :=
  .next (cairn r b gap progress s)

/-- DQ_TOKEN_WRITE. A producer writes a token (R334, R340). -/
def execDqTokenWrite (r : RegionId) (b : BlockId) (q : Fin 2) (who : Fin 13) (far : Bool) (s : State) : Host.Outcome State Fault Refusal :=
  .next (dqTokenWrite r b q who far s)

/-- DQ_TOKEN_READ. A consumer reads a token (R334). -/
def execDqTokenRead (r : RegionId) (b : BlockId) (q : Fin 2) (who : Fin 13) (s : State) : Host.Outcome State Fault Refusal :=
  .next (dqTokenRead r b q who s)

/-- DQ_LEVEL_WRITE. A write of DQ_CTL (R341). -/
def execDqLevelWrite (d : DomId) (r : RegionId) (b : BlockId) (q : Fin 2) (v : Word) (s : State) : Host.Outcome State Fault Refusal :=
  .next (regPut RegEnv.plain d (Reg.dqCtl r b q) v s)

/-- SEGMENT_MOVE. The segment mover moves a token (R336). -/
def execSegmentMove (r : RegionId) (b : BlockId) (q : Fin 2) (s : State) : Host.Outcome State Fault Refusal :=
  .next (segmentMove r b q s)

end Sys2Proof.Machine
end

