-- ==== Sys2Proof/Machine/PipeRows.lean ====
section
/-! DEFINITION. The meanings of the commands: Capture, parameters, enable and coded pictures of a pipeline (chapters 05, 06, 07). -/

namespace Sys2Proof.Machine

open Sys2Proof

/-- CAPTURE_LINE. A run of samples of line y from sample x on arrives (R192). -/
def execCaptureLine (p : PipeId) (y x : Nat) (l : LineIn) (s : State) : Host.Outcome State Fault Refusal :=
  .next (captureLine p y x l s)

/-- INPUT_FRAME_START. An input frame, or a field of it, begins (R194). -/
def execInputFrameStart (p : PipeId) (field2 : Bool) (s : State) : Host.Outcome State Fault Refusal :=
  .next (inputFrameStart p field2 s)

/-- LINE_GIVE_UP. Lines not received by the row's give-up time are written as black (R196). -/
def execLineGiveUp (p : PipeId) (row : Nat) (s : State) : Host.Outcome State Fault Refusal :=
  .next (lineGiveUp p row s)

/-- CLIP_CAPTURE. Capture reads a picture from the clip store (R197). -/
def execClipCapture (p : PipeId) (field2 : Bool) (s : State) : Host.Outcome State Fault Refusal :=
  .next (clipCapture p field2 s)

/-- SHADOW_WRITE. A write to a word of a shadow set (R223). -/
def execShadowWrite (d : DomId) (p : PipeId) (set : Fin 3) (o : Fin 64) (v : Word) (s : State) : Host.Outcome State Fault Refusal :=
  .next (regPut RegEnv.plain d (setOffset p set true o) v s)

/-- SHADOW_DISCARD. A write of 1 to DISCARD (R230). -/
def execShadowDiscard (d : DomId) (p : PipeId) (s : State) : Host.Outcome State Fault Refusal :=
  .next (regPut RegEnv.plain d (Reg.pipShadowPending p) (putF PipShadowPending.discard 0 1) s)

/-- ACTIVE_WRITE. A direct write to a word of an active set (R212, R548). -/
def execActiveWrite (d : DomId) (p : PipeId) (set : Fin 3) (o : Fin 64) (v : Word) (clash : Bool) (s : State) : Host.Outcome State Fault Refusal :=
  .next (regPut { RegEnv.plain with clash := clash } d (setOffset p set false o) v s)

/-- PIPELINE_ENABLE. A write of PIP_CTL with ENABLE 1 (R231). -/
def execPipelineEnable (d : DomId) (p : PipeId) (v : Word) (s : State) : Host.Outcome State Fault Refusal :=
  .next (regPut RegEnv.plain d (Reg.pipCtl p) (putF PipCtl.enable v 1) s)

/-- PIPELINE_DISABLE. A write of PIP_CTL with ENABLE 0 (R234). -/
def execPipelineDisable (d : DomId) (p : PipeId) (v : Word) (s : State) : Host.Outcome State Fault Refusal :=
  .next (regPut RegEnv.plain d (Reg.pipCtl p) (putF PipCtl.enable v 0) s)

/-- RECORD_COMMIT. A Nuzel record's bytes are in place (R245). -/
def execRecordCommit (p : PipeId) (s : State) : Host.Outcome State Fault Refusal :=
  .next (recordCommit p s)

/-- DELTA_MAP_READ_DONE. The ROI delta map read completes (R271). -/
def execDeltaMapReadDone (p : PipeId) (h : HostRead) (s : State) : Host.Outcome State Fault Refusal :=
  .next (mapReadDone p h s)

/-- CODED_PICTURE_RECEIVED. The last byte of a coded picture is in a pool buffer (R283). -/
def execCodedPictureReceived (p : PipeId) (s : State) : Host.Outcome State Fault Refusal :=
  .next (codedPictureReceived p s)

/-- PARTITION_DATA_TIMEOUT. In sub-picture mode the rest of an incomplete partition is given up (R287). -/
def execPartitionDataTimeout (p : PipeId) (s : State) : Host.Outcome State Fault Refusal :=
  .next (partitionDataTimeout p s)

end Sys2Proof.Machine
end

