-- ==== Sys2Proof/Machine/MemoryRows.lean ====
section
/-! DEFINITION. The meanings of the commands: Frame store memory (chapter 09). -/

namespace Sys2Proof.Machine

open Sys2Proof

/-- MEMORY_REQUEST. A request goes to an HBM controller, through a region memory agent where it has one (R27 to R29, R33 to R35, R364). A word at
or above 144 GiB does not exist (R359). -/
def execMemoryRequest (by_ : MemBy) (m : MemReqIn) (s : State) : Host.Outcome State Fault Refusal :=
  if hbmSize / 64 ≤ m.word then
    .fault (.noSuchAddress (64 * m.word))
  else .next (memoryRequest (memVia by_) (memFlit by_ m s) s)

/-- PSEUDO_CHANNEL_ISSUE. A memory clock of a pseudo-channel: a column command and an activate or precharge among the banks that are ready (R366);
symbols of words of it may have gone bad (R378). -/
def execPseudoChannelIssue (c : StackId) (ch : Fin 16) (p : Fin 2) (colReady actReady : List Nat) (upsets : List (Nat × Nat)) (s : State) : Host.Outcome State Fault Refusal :=
  .next (pseudoIssue c ch p colReady actReady (upsetWords c ch p upsets s))

/-- PAGE_IDLE_CLOSE. A bank with an empty queue closes its row (R367). -/
def execPageIdleClose (c : StackId) (ch : Fin 16) (p : Fin 2) (b : Fin 48) (s : State) : Host.Outcome State Fault Refusal :=
  .next (pageClose c ch p b s)

/-- BANK_REFRESH. The next bank's refresh falls due (R368). -/
def execBankRefresh (c : StackId) (ch : Fin 16) (p : Fin 2) (postpone : Bool) (s : State) : Host.Outcome State Fault Refusal :=
  .next (bankRefresh c ch p postpone s)

/-- RETRAIN_DONE. A channel's retraining ends (R373). -/
def execRetrainDone (c : StackId) (ok : Bool) (s : State) : Host.Outcome State Fault Refusal :=
  .next (retrainDone c ok s)

/-- AUTO_RETRAIN. A channel has gone 2.0 s without a successful retraining (R372). -/
def execAutoRetrain (c : StackId) (ch : Fin 16) (s : State) : Host.Outcome State Fault Refusal :=
  .next (autoRetrain c ch s)

/-- SELF_REFRESH_ENTRY. An idle stack enters self-refresh (R374). -/
def execSelfRefreshEntry (c : StackId) (cancelled : Bool) (s : State) : Host.Outcome State Fault Refusal :=
  .next (selfRefreshEntry c cancelled s)

/-- SELF_REFRESH_EXIT. A request makes the controller leave self-refresh (R376). -/
def execSelfRefreshExit (c : StackId) (s : State) : Host.Outcome State Fault Refusal :=
  .next (hostRun (selfRefreshExit c s))

/-- CE_BUCKET_LEAK. The correctable-error bucket leaks (R381). -/
def execCeBucketLeak (c : StackId) (s : State) : Host.Outcome State Fault Refusal :=
  .next (bucketLeak c s)

/-- MEM_ECC_CTL_WRITE. A write of MEM_ECC_CTL (R381). -/
def execMemEccCtlWrite (d : DomId) (c : StackId) (v : Word) (s : State) : Host.Outcome State Fault Refusal :=
  .next (regPut RegEnv.plain d (Reg.memEccCtl c) v s)

/-- SCRUB_PAGE. The patrol scrubber reads its next page (R386). -/
def execScrubPage (c : StackId) (s : State) : Host.Outcome State Fault Refusal :=
  .next (scrubPage c s)

/-- ARBITRATION_WINDOW. A window of the region memory agent begins (R27, R395). -/
def execArbitrationWindow (r : RegionId) (demands : List (PipeId × Nat × Nat)) (s : State) : Host.Outcome State Fault Refusal :=
  .next (arbitrationWindow r demands s)

/-- BUDGET_WRITE. A write of PIP_BUDGET (R396). -/
def execBudgetWrite (d : DomId) (p : PipeId) (v : Word) (s : State) : Host.Outcome State Fault Refusal :=
  .next (regPut RegEnv.plain d (Reg.pipBudget p) v s)

end Sys2Proof.Machine
end

