-- ==== Sys2Proof/Machine/PoolRows.lean ====
section
/-! DEFINITION. The meanings of the commands: Buffer pools and DMA (chapter 10). -/

namespace Sys2Proof.Machine

open Sys2Proof

/-- ALLOC. ALLOC by a unit, or by a 32-bit read of HOP_ALLOC (R409, R421). -/
def execAlloc (a : AllocBy) (s : State) : Host.Outcome State Fault Refusal :=
  .next (allocBy a s)

/-- FREE. FREE by a unit, or by a write of HOP_CMD (R415, R420). -/
def execFree (a : BufBy) (n : BufId) (s : State) : Host.Outcome State Fault Refusal :=
  .next (bufBy a 1 .free n s)

/-- RELEASE_SHARE. RELEASE by a holder (R415). -/
def execReleaseShare (a : BufBy) (n : BufId) (s : State) : Host.Outcome State Fault Refusal :=
  .next (bufBy a 2 .release n s)

/-- SHARE. SHARE by the final owner (R415). -/
def execShare (a : BufBy) (n : BufId) (s : State) : Host.Outcome State Fault Refusal :=
  .next (bufBy a 3 .share n s)

/-- PASS. PASS by the final owner (R415); the host's new owner stands in HOP_ARG. -/
def execPass (a : BufBy) (n : BufId) (newOwner : Fin 4096) (s : State) : Host.Outcome State Fault Refusal :=
  .next (bufBy a 4 (.pass newOwner) n s)

/-- POOL_RETRY. The k-th party that waits on a pool asks again (R413, R416). -/
def execPoolRetry (k : Nat) (s : State) : Host.Outcome State Fault Refusal :=
  .next (poolRetry k s)

/-- LINK_WORD_REFILL. The manager reads link words ahead (R412). -/
def execLinkWordRefill (p : PoolId) (s : State) : Host.Outcome State Fault Refusal :=
  .next (linkRefill p s)

/-- REBUILD_DONE. A pool list rebuild ends (R412). -/
def execRebuildDone (p : PoolId) (s : State) : Host.Outcome State Fault Refusal :=
  .next (rebuildDone p s)

/-- POOL_RESIZE. A write of BPM_POOL_SIZE (R417). -/
def execPoolResize (d : DomId) (p : PoolId) (v : Word) (s : State) : Host.Outcome State Fault Refusal :=
  .next (regPut RegEnv.plain d (Reg.bpmPoolSize p) v s)

/-- POOL_ENABLE. A write of BPM_POOL_CTL.ENABLE (R419). -/
def execPoolEnable (d : DomId) (p : PoolId) (on : Bool) (s : State) : Host.Outcome State Fault Refusal :=
  .next (regPut RegEnv.plain d (Reg.bpmPoolCtl p) (putF BpmPoolCtl.enable 0 (if on then 1 else 0)) s)

/-- DMA_DOORBELL. A doorbell (R430). -/
def execDmaDoorbell (d : DomId) (c : ChanId) (s : State) : Host.Outcome State Fault Refusal :=
  .next (regPut RegEnv.plain d (Reg.dmaDb c) 1 s)

/-- DMA_POLL. A WAITING channel polls its descriptor (R430). -/
def execDmaPoll (c : ChanId) (s : State) : Host.Outcome State Fault Refusal :=
  .next (dmaPoll c s)

/-- DESCRIPTOR_FETCH. A descriptor read completes (R430). -/
def execDescriptorFetch (c : ChanId) (h : HostRead) (s : State) : Host.Outcome State Fault Refusal :=
  .next (descFetch c h s)

/-- COPY. A COPY descriptor moves its bytes (R424). -/
def execCopy (c : ChanId) (h : HostRead) (s : State) : Host.Outcome State Fault Refusal :=
  .next (dmaCopy c h s)

/-- FILL. A FILL descriptor writes its pattern (R424). -/
def execFill (c : ChanId) (h : HostRead) (s : State) : Host.Outcome State Fault Refusal :=
  .next (dmaFill c h s)

/-- TO_POOL. A TO_POOL descriptor takes a buffer and copies into it (R424). -/
def execToPool (c : ChanId) (h : HostRead) (s : State) : Host.Outcome State Fault Refusal :=
  .next (dmaToPool c h s)

/-- FROM_POOL. A FROM_POOL descriptor copies from a buffer (R424). -/
def execFromPool (c : ChanId) (h : HostRead) (s : State) : Host.Outcome State Fault Refusal :=
  .next (dmaFromPool c h s)

/-- DESCRIPTOR_WRITEBACK. The channel writes status and control back (R426). -/
def execDescriptorWriteback (c : ChanId) (h : HostRead) (s : State) : Host.Outcome State Fault Refusal :=
  .next (writeback c h s)

/-- DMA_ENABLE. A write of DMA_CTL with ENABLE 1 (R437). -/
def execDmaEnable (d : DomId) (c : ChanId) (v : Word) (s : State) : Host.Outcome State Fault Refusal :=
  .next (regPut RegEnv.plain d (Reg.dmaCtl c) (putF DmaCtl.enable v 1) s)

/-- DMA_STOP. A channel that is to stop reaches its cairn (R436). -/
def execDmaStop (c : ChanId) (moved : Nat) (h : HostRead) (s : State) : Host.Outcome State Fault Refusal :=
  .next (dmaStop c moved h s)

end Sys2Proof.Machine
end

