-- ==== Sys2Proof/Machine/LaneRows.lean ====
section
/-! DEFINITION. The meanings of the commands: Serial lanes and the ring (chapter 11). -/

namespace Sys2Proof.Machine

open Sys2Proof

/-- MAC_PORT_ENABLE. A write of LAN_MAC_CTL that sets PORT_EN bit j (R462). -/
def execMacPortEnable (d : DomId) (m : MacId) (j : Fin 4) (v : Word) (clk : BitVec 4) (s : State) : Host.Outcome State Fault Refusal :=
  .next (regPut { RegEnv.plain with clk := clk } d (Reg.lanMacCtl m) (v ||| BitVec.ofNat 32 (2 ^ j.val)) s)

/-- SDI_LANE_ENABLE. A write of LAN_LANE_CTL that sets SDI_EN (R462). -/
def execSdiLaneEnable (d : DomId) (l : Fin 16) (v : Word) (clk : BitVec 4) (s : State) : Host.Outcome State Fault Refusal :=
  .next (regPut { RegEnv.plain with clk := clk } d (Reg.lanLaneCtl (32 + l.val)) (putF LanLaneCtl.sdiEn v 1) s)

/-- LANE_PLL_LOCK. Step 1 of bring-up ends (R449). -/
def execLanePllLock (l : LaneId) (s : State) : Host.Outcome State Fault Refusal :=
  .next (lanePllLock l s)

/-- LANE_SIGNAL_DETECT. Signal appears (R449). -/
def execLaneSignalDetect (l : LaneId) (s : State) : Host.Outcome State Fault Refusal :=
  .next (laneSignal l s)

/-- LANE_ADAPTED. Initial adaptation completes and polarity is corrected (R449, R450). -/
def execLaneAdapted (l : LaneId) (inverted : Bool) (s : State) : Host.Outcome State Fault Refusal :=
  .next (laneAdapted l inverted s)

/-- LANE_ALIGN_LOCK. Framing locks: LINK_UP (R449). -/
def execLaneAlignLock (l : LaneId) (logical : List (Fin 16)) (s : State) : Host.Outcome State Fault Refusal :=
  .next (laneAlignLock l (logical.map Fin.val) s)

/-- LANE_RETRY_TIMEOUT. Step 5 has not locked within 500 ms (R449). -/
def execLaneRetryTimeout (l : LaneId) (s : State) : Host.Outcome State Fault Refusal :=
  .next (laneRetry l s)

/-- LANE_LOCK_LOST. A lane loses lock (R452). -/
def execLaneLockLost (l : LaneId) (s : State) : Host.Outcome State Fault Refusal :=
  .next (laneLockLost l s)

/-- RECAL. A write of 1 to RECAL (R456). -/
def execRecal (d : DomId) (l : LaneId) (v : Word) (s : State) : Host.Outcome State Fault Refusal :=
  .next (regPut RegEnv.plain d (Reg.lanLaneCtl l) (putF LanLaneCtl.recal v 1) s)

/-- RECAL_DONE. The forced recalibration completes (R457). -/
def execRecalDone (l : LaneId) (s : State) : Host.Outcome State Fault Refusal :=
  .next (recalDone l s)

/-- PRBS_GENERATOR_WRITE. A write of LAN_PRBS (R460). -/
def execPrbsGeneratorWrite (d : DomId) (l : LaneId) (v : Word) (s : State) : Host.Outcome State Fault Refusal :=
  .next (regPut RegEnv.plain d (Reg.lanPrbs l) v s)

/-- RING_ACTIVATE. A write of LAN_RING_CTL (R469). -/
def execRingActivate (d : DomId) (v : Word) (clk : BitVec 4) (s : State) : Host.Outcome State Fault Refusal :=
  .next (regPut { RegEnv.plain with clk := clk } d Reg.lanRingCtl v s)

/-- RING_FRAME_RECEIVE. A ring frame arrives (R472). -/
def execRingFrameReceive (f : RingFrame) (bad : List (Fin 40)) (s : State) : Host.Outcome State Fault Refusal :=
  .next (ringReceive f (bad.map Fin.val) s)

/-- RING_FRAME_ORIGINATE. A microsecond of the master or a FORMING candidate (R471). -/
def execRingFrameOriginate (s : State) : Host.Outcome State Fault Refusal :=
  .next (ringOriginate s)

/-- RING_MASTER_TIMEOUT. No advancing MASTER frame for 16 us (R470). -/
def execRingMasterTimeout (s : State) : Host.Outcome State Fault Refusal :=
  .next (ringMasterTimeout s)

/-- RING_TRIGGER_ACTION. A ring trigger's time has come (R474). -/
def execRingTriggerAction (t : Fin 8) (s : State) : Host.Outcome State Fault Refusal :=
  .next (ringTriggerAction t s)

/-- SDI_OUTPUT_LINE. An SDI output lane sends its next line (R448). -/
def execSdiOutputLine (l : Fin 16) (s : State) : Host.Outcome State Fault Refusal :=
  .next (sdiOutputLine (32 + l.val) s)

/-- PRBS_CHECKER_LOCK. A PRBS checker has seen error-free bits (R461). -/
def execPrbsCheckerLock (l : LaneId) (clean : Nat) (s : State) : Host.Outcome State Fault Refusal :=
  .next (checkerLock l clean s)

/-- PRBS_CHECKER_LOCK_LOSS. A locked PRBS checker has seen bit errors in 1,024 bits (R461). -/
def execPrbsCheckerLockLoss (l : LaneId) (errs : Nat) (s : State) : Host.Outcome State Fault Refusal :=
  .next (checkerLoss l errs s)

end Sys2Proof.Machine
end

