-- ==== Sys2Proof/Machine/StreamRows.lean ====
section
/-! DEFINITION. The meanings of the commands: Stream ports, scheduling, shaping and policing (chapter 12). -/

namespace Sys2Proof.Machine

open Sys2Proof

/-- MAC_FRAME_RECEIVE. A received Ethernet frame (R496), with the FEC codewords corrected and uncorrectable before it. -/
def execMacFrameReceive (m : MacId) (j : Fin 4) (corr uncorr : Nat) (frame : List Byte) (s : State) : Host.Outcome State Fault Refusal :=
  .next (macReceive m j corr uncorr frame s)

/-- SDI_LINE_RECEIVE. A received SDI line (R445). -/
def execSdiLineReceive (l : Fin 16) (y : Nat) (first field2 : Bool) (payload : Option Word) (crcBad : Bool) (line : LineIn) (s : State) : Host.Outcome State Fault Refusal :=
  .next (sdiReceive (32 + l.val) y first field2 payload crcBad line s)

/-- POLICER_REFILL. A microsecond of the policer (R498). -/
def execPolicerRefill (n : PortId) (s : State) : Host.Outcome State Fault Refusal :=
  .next (policerRefill n s)

/-- POLICER_WRITE. A write of SPT_POL_RATE or SPT_POL_BURST (R498). -/
def execPolicerWrite (d : DomId) (n : PortId) (burst : Bool) (v : Word) (s : State) : Host.Outcome State Fault Refusal :=
  .next (regPut RegEnv.plain d (if burst then Reg.sptPolBurst n else Reg.sptPolRate n) v s)

/-- MERGE_TIMEOUT. A merge gives a missing packet up (R500). -/
def execMergeTimeout (n : PortId) (s : State) : Host.Outcome State Fault Refusal :=
  .next (mergeTimeout n s)

/-- PATH_LOSS. A partner receives no packet while the other does (R500). -/
def execPathLoss (n : PortId) (s : State) : Host.Outcome State Fault Refusal :=
  .next (pathLoss n s)

/-- HOST_RING_WR_WRITE. A write of an ingress host ring's WR, with the units written up to it (R494). -/
def execHostRingWrWrite (d : DomId) (n : PortId) (v : Word) (units : List HrUnitIn) (s : State) : Host.Outcome State Fault Refusal :=
  .next (regPut { RegEnv.plain with units := units } d (Reg.sptHrWr n) v s)

/-- HOST_RING_UNIT_OUT. An egress host-ring unit is written, or dropped (R494). -/
def execHostRingUnitOut (n : PortId) (s : State) : Host.Outcome State Fault Refusal :=
  .next (hrUnitOut n s)

/-- TRANSMIT_OPPORTUNITY. A scheduling target starts a packet (R505). -/
def execTransmitOpportunity (t : Fin 33) (s : State) : Host.Outcome State Fault Refusal :=
  .next (transmit t s)

/-- PACKET_END. A packet finishes sending (R508). -/
def execPacketEnd (t : Fin 33) (s : State) : Host.Outcome State Fault Refusal :=
  .next (packetEnd t s)

/-- SHAPER_CREDIT_TICK. A nanosecond of every shaper (R507). -/
def execShaperCreditTick (s : State) : Host.Outcome State Fault Refusal :=
  .next (creditTickAll s)

/-- SHAPER_CONFIG_WRITE. A write of SCH_PORT_CTL, SCH_IDLE_KBPS or SCH_HI_CREDIT (R508). -/
def execShaperConfigWrite (d : DomId) (n : PortId) (which : Fin 3) (v : Word) (s : State) : Host.Outcome State Fault Refusal :=
  .next (regPut RegEnv.plain d (Reg.schPortCtl n + 4 * which.val) v s)

/-- QUEUE_SAMPLE. An egress port samples its queue (R511). -/
def execQueueSample (n : PortId) (s : State) : Host.Outcome State Fault Refusal :=
  .next (queueSample n s)

/-- REORDER_RELEASE. A reordered packet is released after 1 ms (R513). -/
def execReorderRelease (n : PortId) (s : State) : Host.Outcome State Fault Refusal :=
  .next (reorderRelease n s)

/-- SPT_IMP_SEED_WRITE. A write of SPT_IMP_SEED (R512). -/
def execSptImpSeedWrite (d : DomId) (n : PortId) (v : Word) (s : State) : Host.Outcome State Fault Refusal :=
  .next (regPut RegEnv.plain d (Reg.sptImpSeed n) v s)

/-- PCR_INSERT. A TS_RTP port inserts a PCR (R492). -/
def execPcrInsert (n : PortId) (s : State) : Host.Outcome State Fault Refusal :=
  .next (pcrInsert n s)

/-- PSI_INSERT. A TS_RTP port sends PAT and PMT (R492). -/
def execPsiInsert (n : PortId) (s : State) : Host.Outcome State Fault Refusal :=
  .next (psiInsert n s)

/-- PORT_ENABLE. A write of SPT_CTL with ENABLE 1 (R516). -/
def execPortEnable (d : DomId) (n : PortId) (v : Word) (s : State) : Host.Outcome State Fault Refusal :=
  .next (regPut RegEnv.plain d (Reg.sptCtl n) (putF SptCtl.enable v 1) s)

/-- PORT_DISABLE. A write of SPT_CTL with ENABLE 0 (R517). -/
def execPortDisable (d : DomId) (n : PortId) (v : Word) (s : State) : Host.Outcome State Fault Refusal :=
  .next (regPut RegEnv.plain d (Reg.sptCtl n) (putF SptCtl.enable v 0) s)

end Sys2Proof.Machine
end

