-- ==== Sys2Proof/Machine/HostRows.lean ====
section
/-! DEFINITION. The meanings of the commands: Register writes, the Command Port and CXL (chapter 13). -/

namespace Sys2Proof.Machine

open Sys2Proof

/-- CHIP_KEY_WRITE. A write of CHIP_KEY (R549). -/
def execChipKeyWrite (d : DomId) (v : Word) (s : State) : Host.Outcome State Fault Refusal :=
  .next (regPut RegEnv.plain d Reg.chipKey v s)

/-- REGISTER_WRITE. A write of any width to a BAR, or of the configuration fields (R540 to R544). -/
def execRegisterWrite (d : DomId) (x : RegEnv) (w : HostWrite) (s : State) : Host.Outcome State Fault Refusal :=
  .next (hostWrite x d w s)

/-- CMD_ARG_WRITE. A write of CMD_ARGn, with its byte enables (R553, R542). -/
def execCmdArgWrite (d : DomId) (n : Fin 8) (be : BitVec 4) (v : Word) (s : State) : Host.Outcome State Fault Refusal :=
  .next (bytePut d (Reg.cmdArg n) be v s)

/-- PING. A write of PING to CMD_OP (R555). -/
def execPing (d : DomId) (s : State) : Host.Outcome State Fault Refusal :=
  .next (opPut d 0x01 s)

/-- CHIP_REBOOT. A write of CHIP_REBOOT to CMD_OP (R156). -/
def execChipReboot (d : DomId) (s : State) : Host.Outcome State Fault Refusal :=
  .next (opPut d 0x02 s)

/-- FLASH_WRITE. A write of FLASH_WRITE to CMD_OP (R656). -/
def execFlashWrite (d : DomId) (s : State) : Host.Outcome State Fault Refusal :=
  .next (opPut d 0x10 s)

/-- FLASH_READ. A write of FLASH_READ to CMD_OP (R658). -/
def execFlashRead (d : DomId) (s : State) : Host.Outcome State Fault Refusal :=
  .next (opPut d 0x11 s)

/-- FUSE_READ. A write of FUSE_READ to CMD_OP (R652). -/
def execFuseRead (d : DomId) (s : State) : Host.Outcome State Fault Refusal :=
  .next (opPut d 0x12 s)

/-- REGION_SELFTEST. A write of REGION_SELFTEST to CMD_OP (R623). -/
def execRegionSelftest (d : DomId) (s : State) : Host.Outcome State Fault Refusal :=
  .next (opPut d 0x20 s)

/-- CHIP_SELFTEST. A write of CHIP_SELFTEST to CMD_OP (R625). -/
def execChipSelftest (d : DomId) (s : State) : Host.Outcome State Fault Refusal :=
  .next (opPut d 0x21 s)

/-- MEMORY_TEST. A write of MEMORY_TEST to CMD_OP (R626). -/
def execMemoryTest (d : DomId) (s : State) : Host.Outcome State Fault Refusal :=
  .next (opPut d 0x22 s)

/-- RECOMPOSE_REGION. A write of RECOMPOSE_REGION to CMD_OP, with what it meets as it runs (R138). -/
def execRecomposeRegion (d : DomId) (x : RecomposeIn) (s : State) : Host.Outcome State Fault Refusal :=
  .next (regPut { RegEnv.plain with image := x } d Reg.cmdOp 0x31 s)

/-- RECOMPOSE_ACTIVATE. An affected domain's next frame ends: its new entries get SE_VALID (R138). -/
def execRecomposeActivate (r : RasterId) (s : State) : Host.Outcome State Fault Refusal :=
  .next (recomposeActivate r s)

/-- COMMAND_COMPLETE. The running operation ends (R556). -/
def execCommandComplete (e : OpEnv) (s : State) : Host.Outcome State Fault Refusal :=
  .next (commandComplete e s)

/-- CMD_ABORT. A write of 1 to CMD_ABORT (R557). -/
def execCmdAbort (d : DomId) (s : State) : Host.Outcome State Fault Refusal :=
  .next (regPut RegEnv.plain d Reg.cmdAbort 1 s)

/-- HDM_COMMIT. Host software commits an HDM decoder (R525). -/
def execHdmCommit (k : Fin 8) (base size ways skip : Nat) (lock : Bool) (s : State) : Host.Outcome State Fault Refusal :=
  .next (hdmCommit k base size ways skip lock s)

/-- CXL_MEM_READ. A CXL.mem read of the 64 bytes at offset o of decoder k's range (R526). -/
def execCxlMemRead (k : Fin 8) (o : Nat) (s : State) : Host.Outcome State Fault Refusal :=
  .next (cxlMemRead k o s)

/-- CXL_MEM_WRITE. A CXL.mem write (R526). -/
def execCxlMemWrite (k : Fin 8) (o : Nat) (bytes : List Byte) (poisoned : Bool) (s : State) : Host.Outcome State Fault Refusal :=
  .next (cxlMemWrite k o bytes poisoned s)

/-- H2D_SNOOP. A host snoop is answered RspIHitI (R520). -/
def execH2dSnoop (s : State) : Host.Outcome State Fault Refusal :=
  .next (h2dSnoop s)

/-- GPF_PHASE2. Phase 2 of a global persistent flush (R523). -/
def execGpfPhase2 (s : State) : Host.Outcome State Fault Refusal :=
  .next (gpfPhase2 s)

/-- POISONED_TLP_WRITE. A poisoned write to a BAR is dropped and reported (R530). -/
def execPoisonedTlpWrite (d : DomId) (s : State) : Host.Outcome State Fault Refusal :=
  .next (poisonedTlpWrite d s)

/-- LINK_LAYER_RETRY. The link-layer retry count passes its threshold (R530). -/
def execLinkLayerRetry (s : State) : Host.Outcome State Fault Refusal :=
  .next (linkLayerRetry s)

/-- FLIT_BUFFER_ERROR. An uncorrectable error in the port's flit buffers (R530). -/
def execFlitBufferError (s : State) : Host.Outcome State Fault Refusal :=
  .next (flitBufferError s)

/-- TRIPLICATED_COPY_UPSET. A copy of a triplicated word disagrees (R551). -/
def execTriplicatedCopyUpset (w : TripWord) (majority : Bool) (s : State) : Host.Outcome State Fault Refusal :=
  .next (copyUpset w majority s)

end Sys2Proof.Machine
end

