-- ==== Sys2Proof/Machine/IcuRows.lean ====
section
/-! DEFINITION. The meanings of the commands: The interrupt controller (chapter 14). -/

namespace Sys2Proof.Machine

open Sys2Proof

/-- DELIVERY_DECISION. The delivery decision of a target (R572). -/
def execDeliveryDecision (t : Target) (s : State) : Host.Outcome State Fault Refusal :=
  .next (deliveryDecision t s)

/-- WAKE_REGATE. A woken region is gated again (R575). -/
def execWakeRegate (r : RegionId) (s : State) : Host.Outcome State Fault Refusal :=
  .next (wakeRegate r s)

/-- HOLDOFF_EXPIRY. A host vector's hold-off ends (R578). -/
def execHoldoffExpiry (d : DomId) (v : Fin 2048) (s : State) : Host.Outcome State Fault Refusal :=
  .next (holdoffExpiry d v s)

/-- INTERRUPT_ACK. An acknowledgement by host software, a Region Controller or Base Camp (R580). -/
def execInterruptAck (a : AckBy) (src : SrcId) (n : Fin 256) (s : State) : Host.Outcome State Fault Refusal :=
  .next (ackBy a src n s)

/-- ROUTE_WRITE. A write of ICU_SRC_ROUTE (R569). -/
def execRouteWrite (d : DomId) (src : SrcId) (v : Word) (s : State) : Host.Outcome State Fault Refusal :=
  .next (regPut RegEnv.plain d (Reg.icuSrcRoute src) v s)

/-- FUNCTION_D0_RETURN. A function returns to D0, or a vector wakes (R574). -/
def execFunctionD0Return (w : Awake) (s : State) : Host.Outcome State Fault Refusal :=
  .next (awake w s)

end Sys2Proof.Machine
end

