-- ==== Sys2Proof/Machine/BaseCampRows.lean ====
section
/-! DEFINITION. The meanings of the commands: Base Camp (chapter 16). -/

namespace Sys2Proof.Machine

open Sys2Proof

/-- SENSOR_SAMPLE. Base Camp samples a sensor (R634). -/
def execSensorSample (n : Fin 48) (v : BitVec 16) (s : State) : Host.Outcome State Fault Refusal :=
  .next (sensorSample n v s)

/-- POWER_WINDOW. A window of the power limiter ends (R641). -/
def execPowerWindow (s : State) : Host.Outcome State Fault Refusal :=
  .next (powerWindow s)

/-- BASE_CAMP_TRIP. An over-temperature or rail trip (R644). -/
def execBaseCampTrip (sensor : Fin 32) (s : State) : Host.Outcome State Fault Refusal :=
  .next (tripOn sensor s)

/-- BCM_POWER_CAP_WRITE. A write of BCM_POWER_CAP (R646). -/
def execBcmPowerCapWrite (d : DomId) (v : Word) (s : State) : Host.Outcome State Fault Refusal :=
  .next (regPut RegEnv.plain d Reg.bcmPowerCap v s)

/-- BCM_REGION_OFF_WRITE. A key-guarded write of BCM_REGION_OFF (R640). -/
def execBcmRegionOffWrite (d : DomId) (v : Word) (s : State) : Host.Outcome State Fault Refusal :=
  .next (regPut RegEnv.plain d Reg.bcmRegionOff v s)

/-- FLASH_WE_WRITE. A key-guarded write of BCM_FLASH_CTL (R655). -/
def execFlashWeWrite (d : DomId) (v : Word) (s : State) : Host.Outcome State Fault Refusal :=
  .next (regPut RegEnv.plain d Reg.bcmFlashCtl v s)

/-- LOG_IDX_WRITE. A write of BCM_LOG_IDX (R650). -/
def execLogIdxWrite (d : DomId) (v : Word) (s : State) : Host.Outcome State Fault Refusal :=
  .next (regPut RegEnv.plain d Reg.bcmLogIdx v s)

/-- SMB_STATUS. SMBus STATUS (R647). -/
def execSmbStatus (addr : Fin 128) (pec : Bool) (s : State) : Host.Outcome State Fault Refusal :=
  .next (smbReply addr pec true (fun t => emit (.smbus (smbBytes (smbStatusWord t) 2)) t) s)

/-- SMB_TEMP_MAX. SMBus TEMP_MAX (R647). -/
def execSmbTempMax (addr : Fin 128) (pec : Bool) (s : State) : Host.Outcome State Fault Refusal :=
  .next (smbReply addr pec false (fun t => emit (.smbus (smbBytes (fget Reg.bcmTempMax BcmTempMax.tMax t) 2)) t) s)

/-- SMB_POWER. SMBus POWER (R647). -/
def execSmbPower (addr : Fin 128) (pec : Bool) (s : State) : Host.Outcome State Fault Refusal :=
  .next (smbReply addr pec false (fun t => emit (.smbus (smbBytes (fget Reg.bcmPower BcmPower.average t) 2)) t) s)

/-- SMB_SENSOR. SMBus SENSOR (R647). -/
def execSmbSensor (addr : Fin 128) (pec : Bool) (n : Fin 256) (s : State) : Host.Outcome State Fault Refusal :=
  .next (smbReply addr pec false (smbSensor n) s)

/-- LOG_SEEK. SMBus LOG_SEEK (R647). -/
def execLogSeek (addr : Fin 128) (pec : Bool) (k : Word) (s : State) : Host.Outcome State Fault Refusal :=
  .next (smbReply addr pec false (fun t => { t with bc := { t.bc with smbIdx := k.toNat } }) s)

/-- LOG_READ. SMBus LOG_READ (R647, R650). -/
def execLogRead (addr : Fin 128) (pec : Bool) (s : State) : Host.Outcome State Fault Refusal :=
  .next (smbReply addr pec false smbLogRead s)

/-- SMB_HOLD. SMBus HOLD (R647). -/
def execSmbHold (addr : Fin 128) (pec : Bool) (v : Fin 256) (s : State) : Host.Outcome State Fault Refusal :=
  .next (smbReply addr pec false (smbHoldByte v) s)

/-- BMC_CAP. SMBus BMC_CAP (R647). -/
def execBmcCap (addr : Fin 128) (pec : Bool) (w : BitVec 16) (s : State) : Host.Outcome State Fault Refusal :=
  .next (smbReply addr pec false (bmcCap w.toNat) s)

/-- CLEAR_TRIP. SMBus CLEAR_TRIP (R645). -/
def execClearTrip (addr : Fin 128) (pec : Bool) (s : State) : Host.Outcome State Fault Refusal :=
  .next (smbReply addr pec false clearTrip s)

/-- FW_INFO. SMBus FW_INFO (R647). -/
def execFwInfo (addr : Fin 128) (pec : Bool) (s : State) : Host.Outcome State Fault Refusal :=
  .next (smbReply addr pec true smbFwInfo s)

end Sys2Proof.Machine
end

