-- ==== Sys2Proof/Machine/TapRows.lean ====
section
/-! DEFINITION. The meanings of the commands: Boundary scan (chapter 17). -/

namespace Sys2Proof.Machine

open Sys2Proof

/-- EXTEST. EXTEST (R690). -/
def execExtest (drive pads : List (Nat × Bool)) (s : State) : Host.Outcome State Fault Refusal :=
  .next (tapExtest .extest drive pads s)

/-- SAMPLE_PRELOAD. SAMPLE/PRELOAD (R690). -/
def execSamplePreload (preload pads : List (Nat × Bool)) (s : State) : Host.Outcome State Fault Refusal :=
  .next (tapSample preload pads s)

/-- HIGHZ. HIGHZ (R690). -/
def execHighz (s : State) : Host.Outcome State Fault Refusal :=
  .next (tapHighz s)

/-- CLAMP. CLAMP (R690). -/
def execClamp (s : State) : Host.Outcome State Fault Refusal :=
  .next (tapClamp s)

/-- EXTEST_PULSE. EXTEST_PULSE of IEEE 1149.6 (R690). -/
def execExtestPulse (drive pads : List (Nat × Bool)) (s : State) : Host.Outcome State Fault Refusal :=
  .next (tapExtest .extestPulse drive pads s)

/-- EXTEST_TRAIN. EXTEST_TRAIN of IEEE 1149.6 (R690). -/
def execExtestTrain (drive pads : List (Nat × Bool)) (s : State) : Host.Outcome State Fault Refusal :=
  .next (tapExtest .extestTrain drive pads s)

/-- BYPASS. BYPASS (R691). -/
def execBypass (s : State) : Host.Outcome State Fault Refusal :=
  .next (tapBypass s)

end Sys2Proof.Machine
end

