-- ==== Sys2Proof/Machine/Dispatch.lean ====
section
/-! DEFINITION. Which meaning each command has: one arm per constructor of Instr. -/

namespace Sys2Proof.Machine

open Sys2Proof

def exec (i : Instr) (s : State) : Host.Outcome State Fault Refusal :=
  match i with
  | .auxPowerOn adsel => Sys2Proof.Machine.execAuxPowerOn adsel s
  | .baseCampFirmwareLoad sigA sigB => Sys2Proof.Machine.execBaseCampFirmwareLoad sigA sigB s
  | .railWindowEntry r => Sys2Proof.Machine.execRailWindowEntry r s
  | .railEntryTimeout r => Sys2Proof.Machine.execRailEntryTimeout r s
  | .railExcursion r => Sys2Proof.Machine.execRailExcursion r s
  | .vauxBrownout => Sys2Proof.Machine.execVauxBrownout s
  | .chipStart vA vB => Sys2Proof.Machine.execChipStart vA vB s
  | .hbmStackTrained c ok => Sys2Proof.Machine.execHbmStackTrained c ok s
  | .releaseToBivouac => Sys2Proof.Machine.execReleaseToBivouac s
  | .cxlLinkUp mode lanes rate => Sys2Proof.Machine.execCxlLinkUp mode lanes rate s
  | .perstAssert => Sys2Proof.Machine.execPerstAssert s
  | .linkReset => Sys2Proof.Machine.execLinkReset s
  | .passThroughLock => Sys2Proof.Machine.execPassThroughLock s
  | .flrVf d => Sys2Proof.Machine.execFlrVf d s
  | .flrPf0 => Sys2Proof.Machine.execFlrPf0 s
  | .trstAssert => Sys2Proof.Machine.execTrstAssert s
  | .cxlLinkDown => Sys2Proof.Machine.execCxlLinkDown s
  | .cxlLinkReturn lanes rate => Sys2Proof.Machine.execCxlLinkReturn lanes rate s
  | .cxlLinkDownTimeout => Sys2Proof.Machine.execCxlLinkDownTimeout s
  | .modeReqBivouac d => Sys2Proof.Machine.execModeReqBivouac d s
  | .modeReqRun d => Sys2Proof.Machine.execModeReqRun d s
  | .modeReqMaintain d => Sys2Proof.Machine.execModeReqMaintain d s
  | .modeTransitionDone => Sys2Proof.Machine.execModeTransitionDone s
  | .forceSafe d mitten => Sys2Proof.Machine.execForceSafe d mitten s
  | .mittenForceWrite d mitten => Sys2Proof.Machine.execMittenForceWrite d mitten s
  | .safeEntry c => Sys2Proof.Machine.execSafeEntry c s
  | .recomposeRegate r => Sys2Proof.Machine.execRecomposeRegate r s
  | .refSourceLost => Sys2Proof.Machine.execRefSourceLost s
  | .holdoverTimeout => Sys2Proof.Machine.execHoldoverTimeout s
  | .rckPhaseMeasurement err rate => Sys2Proof.Machine.execRckPhaseMeasurement err rate s
  | .rckLocked => Sys2Proof.Machine.execRckLocked s
  | .rckRateUpdate => Sys2Proof.Machine.execRckRateUpdate s
  | .rckRefPriWrite d v => Sys2Proof.Machine.execRckRefPriWrite d v s
  | .rckDomOfsWrite d r v => Sys2Proof.Machine.execRckDomOfsWrite d r v s
  | .domainFrameEnd r => Sys2Proof.Machine.execDomainFrameEnd r s
  | .ptpMessage domain m => Sys2Proof.Machine.execPtpMessage domain m s
  | .ptpExchange rate => Sys2Proof.Machine.execPtpExchange rate s
  | .ptpAdjWrite d v => Sys2Proof.Machine.execPtpAdjWrite d v s
  | .ptpHostStale => Sys2Proof.Machine.execPtpHostStale s
  | .refVEdge input refF => Sys2Proof.Machine.execRefVEdge input refF s
  | .scheduleEntryFire r => Sys2Proof.Machine.execScheduleEntryFire r s
  | .hostScheduleWrite d e k be v => Sys2Proof.Machine.execHostScheduleWrite d e k be v s
  | .nop n => Sys2Proof.Machine.execNop n s
  | .handover p => Sys2Proof.Machine.execHandover p s
  | .picStart p info => Sys2Proof.Machine.execPicStart p info s
  | .marginMark p => Sys2Proof.Machine.execMarginMark p s
  | .rowDeadline p => Sys2Proof.Machine.execRowDeadline p s
  | .emit p => Sys2Proof.Machine.execEmit p s
  | .release n => Sys2Proof.Machine.execRelease n s
  | .captureArm p => Sys2Proof.Machine.execCaptureArm p s
  | .regionUp r => Sys2Proof.Machine.execRegionUp r s
  | .regionGate r => Sys2Proof.Machine.execRegionGate r s
  | .regionDvfs r => Sys2Proof.Machine.execRegionDvfs r s
  | .hbmRetrain c ch => Sys2Proof.Machine.execHbmRetrain c ch s
  | .trigOut n => Sys2Proof.Machine.execTrigOut n s
  | .trigOutPulseEnd n => Sys2Proof.Machine.execTrigOutPulseEnd n s
  | .irqAction n => Sys2Proof.Machine.execIrqAction n s
  | .ringMark n => Sys2Proof.Machine.execRingMark n s
  | .regionActionAtIdle r => Sys2Proof.Machine.execRegionActionAtIdle r s
  | .regionIdle r => Sys2Proof.Machine.execRegionIdle r s
  | .trigInEvent n => Sys2Proof.Machine.execTrigInEvent n s
  | .externalInputEdge n level samples => Sys2Proof.Machine.execExternalInputEdge n level samples s
  | .lowWordSnapshotRead d r => Sys2Proof.Machine.execLowWordSnapshotRead d r s
  | .spareMove r b => Sys2Proof.Machine.execSpareMove r b s
  | .inservicePassDone r b pass => Sys2Proof.Machine.execInservicePassDone r b pass s
  | .rowUnitHandout p r b work poisoned black => Sys2Proof.Machine.execRowUnitHandout p r b work poisoned black s
  | .partitionAssign p r b q cavlc => Sys2Proof.Machine.execPartitionAssign p r b q cavlc s
  | .rowUnitComplete r b out => Sys2Proof.Machine.execRowUnitComplete r b out s
  | .pictureComplete p => Sys2Proof.Machine.execPictureComplete p s
  | .blockFault r b fs corrected patch => Sys2Proof.Machine.execBlockFault r b fs corrected patch s
  | .belayRerun r b work => Sys2Proof.Machine.execBelayRerun r b work s
  | .standbyTakeover r b => Sys2Proof.Machine.execStandbyTakeover r b s
  | .blockSelftestDone r b pass => Sys2Proof.Machine.execBlockSelftestDone r b pass s
  | .regionFault r fs corrected => Sys2Proof.Machine.execRegionFault r fs corrected s
  | .rgcResyncDone r => Sys2Proof.Machine.execRgcResyncDone r s
  | .chipFault fs v corrected => Sys2Proof.Machine.execChipFault fs v corrected s
  | .faultAck d u v => Sys2Proof.Machine.execFaultAck d u v s
  | .autoAck u cls => Sys2Proof.Machine.execAutoAck u cls s
  | .faultInject d u v => Sys2Proof.Machine.execFaultInject d u v s
  | .injectionFire u both real => Sys2Proof.Machine.execInjectionFire u both real s
  | .cairn r b gap progress => Sys2Proof.Machine.execCairn r b gap progress s
  | .dqTokenWrite r b q who far => Sys2Proof.Machine.execDqTokenWrite r b q who far s
  | .dqTokenRead r b q who => Sys2Proof.Machine.execDqTokenRead r b q who s
  | .dqLevelWrite d r b q v => Sys2Proof.Machine.execDqLevelWrite d r b q v s
  | .segmentMove r b q => Sys2Proof.Machine.execSegmentMove r b q s
  | .captureLine p y x l => Sys2Proof.Machine.execCaptureLine p y x l s
  | .inputFrameStart p field2 => Sys2Proof.Machine.execInputFrameStart p field2 s
  | .lineGiveUp p row => Sys2Proof.Machine.execLineGiveUp p row s
  | .clipCapture p field2 => Sys2Proof.Machine.execClipCapture p field2 s
  | .shadowWrite d p set o v => Sys2Proof.Machine.execShadowWrite d p set o v s
  | .shadowDiscard d p => Sys2Proof.Machine.execShadowDiscard d p s
  | .activeWrite d p set o v clash => Sys2Proof.Machine.execActiveWrite d p set o v clash s
  | .pipelineEnable d p v => Sys2Proof.Machine.execPipelineEnable d p v s
  | .pipelineDisable d p v => Sys2Proof.Machine.execPipelineDisable d p v s
  | .recordCommit p => Sys2Proof.Machine.execRecordCommit p s
  | .deltaMapReadDone p h => Sys2Proof.Machine.execDeltaMapReadDone p h s
  | .codedPictureReceived p => Sys2Proof.Machine.execCodedPictureReceived p s
  | .partitionDataTimeout p => Sys2Proof.Machine.execPartitionDataTimeout p s
  | .memoryRequest by_ m => Sys2Proof.Machine.execMemoryRequest by_ m s
  | .pseudoChannelIssue c ch p colReady actReady upsets => Sys2Proof.Machine.execPseudoChannelIssue c ch p colReady actReady upsets s
  | .pageIdleClose c ch p b => Sys2Proof.Machine.execPageIdleClose c ch p b s
  | .bankRefresh c ch p postpone => Sys2Proof.Machine.execBankRefresh c ch p postpone s
  | .retrainDone c ok => Sys2Proof.Machine.execRetrainDone c ok s
  | .autoRetrain c ch => Sys2Proof.Machine.execAutoRetrain c ch s
  | .selfRefreshEntry c cancelled => Sys2Proof.Machine.execSelfRefreshEntry c cancelled s
  | .selfRefreshExit c => Sys2Proof.Machine.execSelfRefreshExit c s
  | .ceBucketLeak c => Sys2Proof.Machine.execCeBucketLeak c s
  | .memEccCtlWrite d c v => Sys2Proof.Machine.execMemEccCtlWrite d c v s
  | .scrubPage c => Sys2Proof.Machine.execScrubPage c s
  | .arbitrationWindow r demands => Sys2Proof.Machine.execArbitrationWindow r demands s
  | .budgetWrite d p v => Sys2Proof.Machine.execBudgetWrite d p v s
  | .alloc a => Sys2Proof.Machine.execAlloc a s
  | .free a n => Sys2Proof.Machine.execFree a n s
  | .releaseShare a n => Sys2Proof.Machine.execReleaseShare a n s
  | .share a n => Sys2Proof.Machine.execShare a n s
  | .pass a n newOwner => Sys2Proof.Machine.execPass a n newOwner s
  | .poolRetry k => Sys2Proof.Machine.execPoolRetry k s
  | .linkWordRefill p => Sys2Proof.Machine.execLinkWordRefill p s
  | .rebuildDone p => Sys2Proof.Machine.execRebuildDone p s
  | .poolResize d p v => Sys2Proof.Machine.execPoolResize d p v s
  | .poolEnable d p on => Sys2Proof.Machine.execPoolEnable d p on s
  | .dmaDoorbell d c => Sys2Proof.Machine.execDmaDoorbell d c s
  | .dmaPoll c => Sys2Proof.Machine.execDmaPoll c s
  | .descriptorFetch c h => Sys2Proof.Machine.execDescriptorFetch c h s
  | .copy c h => Sys2Proof.Machine.execCopy c h s
  | .fill c h => Sys2Proof.Machine.execFill c h s
  | .toPool c h => Sys2Proof.Machine.execToPool c h s
  | .fromPool c h => Sys2Proof.Machine.execFromPool c h s
  | .descriptorWriteback c h => Sys2Proof.Machine.execDescriptorWriteback c h s
  | .dmaEnable d c v => Sys2Proof.Machine.execDmaEnable d c v s
  | .dmaStop c moved h => Sys2Proof.Machine.execDmaStop c moved h s
  | .macPortEnable d m j v clk => Sys2Proof.Machine.execMacPortEnable d m j v clk s
  | .sdiLaneEnable d l v clk => Sys2Proof.Machine.execSdiLaneEnable d l v clk s
  | .lanePllLock l => Sys2Proof.Machine.execLanePllLock l s
  | .laneSignalDetect l => Sys2Proof.Machine.execLaneSignalDetect l s
  | .laneAdapted l inverted => Sys2Proof.Machine.execLaneAdapted l inverted s
  | .laneAlignLock l logical => Sys2Proof.Machine.execLaneAlignLock l logical s
  | .laneRetryTimeout l => Sys2Proof.Machine.execLaneRetryTimeout l s
  | .laneLockLost l => Sys2Proof.Machine.execLaneLockLost l s
  | .recal d l v => Sys2Proof.Machine.execRecal d l v s
  | .recalDone l => Sys2Proof.Machine.execRecalDone l s
  | .prbsGeneratorWrite d l v => Sys2Proof.Machine.execPrbsGeneratorWrite d l v s
  | .ringActivate d v clk => Sys2Proof.Machine.execRingActivate d v clk s
  | .ringFrameReceive f bad => Sys2Proof.Machine.execRingFrameReceive f bad s
  | .ringFrameOriginate => Sys2Proof.Machine.execRingFrameOriginate s
  | .ringMasterTimeout => Sys2Proof.Machine.execRingMasterTimeout s
  | .ringTriggerAction t => Sys2Proof.Machine.execRingTriggerAction t s
  | .macFrameReceive m j corr uncorr frame => Sys2Proof.Machine.execMacFrameReceive m j corr uncorr frame s
  | .sdiLineReceive l y first field2 payload crcBad line => Sys2Proof.Machine.execSdiLineReceive l y first field2 payload crcBad line s
  | .policerRefill n => Sys2Proof.Machine.execPolicerRefill n s
  | .policerWrite d n burst v => Sys2Proof.Machine.execPolicerWrite d n burst v s
  | .mergeTimeout n => Sys2Proof.Machine.execMergeTimeout n s
  | .pathLoss n => Sys2Proof.Machine.execPathLoss n s
  | .hostRingWrWrite d n v units => Sys2Proof.Machine.execHostRingWrWrite d n v units s
  | .hostRingUnitOut n => Sys2Proof.Machine.execHostRingUnitOut n s
  | .transmitOpportunity t => Sys2Proof.Machine.execTransmitOpportunity t s
  | .packetEnd t => Sys2Proof.Machine.execPacketEnd t s
  | .shaperCreditTick => Sys2Proof.Machine.execShaperCreditTick s
  | .shaperConfigWrite d n which v => Sys2Proof.Machine.execShaperConfigWrite d n which v s
  | .queueSample n => Sys2Proof.Machine.execQueueSample n s
  | .reorderRelease n => Sys2Proof.Machine.execReorderRelease n s
  | .sptImpSeedWrite d n v => Sys2Proof.Machine.execSptImpSeedWrite d n v s
  | .pcrInsert n => Sys2Proof.Machine.execPcrInsert n s
  | .psiInsert n => Sys2Proof.Machine.execPsiInsert n s
  | .portEnable d n v => Sys2Proof.Machine.execPortEnable d n v s
  | .portDisable d n v => Sys2Proof.Machine.execPortDisable d n v s
  | .chipKeyWrite d v => Sys2Proof.Machine.execChipKeyWrite d v s
  | .registerWrite d x w => Sys2Proof.Machine.execRegisterWrite d x w s
  | .cmdArgWrite d n be v => Sys2Proof.Machine.execCmdArgWrite d n be v s
  | .ping d => Sys2Proof.Machine.execPing d s
  | .chipReboot d => Sys2Proof.Machine.execChipReboot d s
  | .flashWrite d => Sys2Proof.Machine.execFlashWrite d s
  | .flashRead d => Sys2Proof.Machine.execFlashRead d s
  | .fuseRead d => Sys2Proof.Machine.execFuseRead d s
  | .regionSelftest d => Sys2Proof.Machine.execRegionSelftest d s
  | .chipSelftest d => Sys2Proof.Machine.execChipSelftest d s
  | .memoryTest d => Sys2Proof.Machine.execMemoryTest d s
  | .recomposeRegion d x => Sys2Proof.Machine.execRecomposeRegion d x s
  | .recomposeActivate r => Sys2Proof.Machine.execRecomposeActivate r s
  | .commandComplete e => Sys2Proof.Machine.execCommandComplete e s
  | .cmdAbort d => Sys2Proof.Machine.execCmdAbort d s
  | .hdmCommit k base size ways skip lock => Sys2Proof.Machine.execHdmCommit k base size ways skip lock s
  | .cxlMemRead k o => Sys2Proof.Machine.execCxlMemRead k o s
  | .cxlMemWrite k o bytes poisoned => Sys2Proof.Machine.execCxlMemWrite k o bytes poisoned s
  | .h2dSnoop => Sys2Proof.Machine.execH2dSnoop s
  | .gpfPhase2 => Sys2Proof.Machine.execGpfPhase2 s
  | .poisonedTlpWrite d => Sys2Proof.Machine.execPoisonedTlpWrite d s
  | .deliveryDecision t => Sys2Proof.Machine.execDeliveryDecision t s
  | .wakeRegate r => Sys2Proof.Machine.execWakeRegate r s
  | .holdoffExpiry d v => Sys2Proof.Machine.execHoldoffExpiry d v s
  | .interruptAck a src n => Sys2Proof.Machine.execInterruptAck a src n s
  | .routeWrite d src v => Sys2Proof.Machine.execRouteWrite d src v s
  | .functionD0Return w => Sys2Proof.Machine.execFunctionD0Return w s
  | .sensorSample n v => Sys2Proof.Machine.execSensorSample n v s
  | .powerWindow => Sys2Proof.Machine.execPowerWindow s
  | .baseCampTrip sensor => Sys2Proof.Machine.execBaseCampTrip sensor s
  | .bcmPowerCapWrite d v => Sys2Proof.Machine.execBcmPowerCapWrite d v s
  | .bcmRegionOffWrite d v => Sys2Proof.Machine.execBcmRegionOffWrite d v s
  | .flashWeWrite d v => Sys2Proof.Machine.execFlashWeWrite d v s
  | .logIdxWrite d v => Sys2Proof.Machine.execLogIdxWrite d v s
  | .smbStatus addr pec => Sys2Proof.Machine.execSmbStatus addr pec s
  | .smbTempMax addr pec => Sys2Proof.Machine.execSmbTempMax addr pec s
  | .smbPower addr pec => Sys2Proof.Machine.execSmbPower addr pec s
  | .smbSensor addr pec n => Sys2Proof.Machine.execSmbSensor addr pec n s
  | .logSeek addr pec k => Sys2Proof.Machine.execLogSeek addr pec k s
  | .logRead addr pec => Sys2Proof.Machine.execLogRead addr pec s
  | .smbHold addr pec v => Sys2Proof.Machine.execSmbHold addr pec v s
  | .bmcCap addr pec w => Sys2Proof.Machine.execBmcCap addr pec w s
  | .clearTrip addr pec => Sys2Proof.Machine.execClearTrip addr pec s
  | .fwInfo addr pec => Sys2Proof.Machine.execFwInfo addr pec s
  | .extest drive pads => Sys2Proof.Machine.execExtest drive pads s
  | .samplePreload preload pads => Sys2Proof.Machine.execSamplePreload preload pads s
  | .highz => Sys2Proof.Machine.execHighz s
  | .clamp => Sys2Proof.Machine.execClamp s
  | .extestPulse drive pads => Sys2Proof.Machine.execExtestPulse drive pads s
  | .extestTrain drive pads => Sys2Proof.Machine.execExtestTrain drive pads s
  | .bypass => Sys2Proof.Machine.execBypass s
  | .sdiOutputLine l => Sys2Proof.Machine.execSdiOutputLine l s
  | .prbsCheckerLock l clean => Sys2Proof.Machine.execPrbsCheckerLock l clean s
  | .prbsCheckerLockLoss l errs => Sys2Proof.Machine.execPrbsCheckerLockLoss l errs s
  | .linkLayerRetry => Sys2Proof.Machine.execLinkLayerRetry s
  | .flitBufferError => Sys2Proof.Machine.execFlitBufferError s
  | .triplicatedCopyUpset w majority => Sys2Proof.Machine.execTriplicatedCopyUpset w majority s

end Sys2Proof.Machine
end

