-- ==== Sys2Proof/Machine/Tick.lean ====
section
/-! DEFINITION. What passes on its own while no command waits: one mesh cycle of time (assumption 4). -/

namespace Sys2Proof.Machine

open Sys2Proof

/-- The fabric clock of a region in MHz: three quarters of the mesh clock at MID, half of it at LOW (R8, R639). -/
def fabricMHz (r : Nat) (s : State) : Nat :=
  match regionPoint r s with
  | 0 => 1600
  | 1 => 1200
  | _ => 800

/-- A fabric cycle of region `r` begins at mesh cycle `t`. -/
def fabricBegins (r t : Nat) (s : State) : Bool := decide (t * fabricMHz r s / 1600 ≠ (t - 1) * fabricMHz r s / 1600)

/-- A fabric cycle begins in a block: every port, bank and queue side grants one request (R20, R21), and a slot switch may end. -/
def blockCycle (k : Nat) (s : State) : State :=
  if rgcState (k / 8) s = 0 ∨ fabricBegins (k / 8) s.now s = false then s
  else
    let s1 := onBlock (k / 8) (k % 8) (localCycle k) (settleSwitch (k / 8) (k % 8) s)
    (smKeys (getBlock (k / 8) (k % 8) s1).queues).foldl (fun a q => dqCycle (k / 8) (k % 8) q a) s1

/-- What takes an open time may have come about in this cycle. -/
def perhaps (f : State → State) (s : State) : State := stepFree (if freeNat s % 2 = 1 then f s else s)

/-- A block goes on to the next part of its self-test. -/
def testsGoOn (s : State) : State :=
  if (List.range 128).any fun k => fget (Reg.seqStatus (k / 8) (k % 8)) SeqStatus.seqRoutine s == 6 then
    perhaps (lineStoreTest (freeNat s / 2 % 128)) s
  else s

/-- What goes on at its own pace: the next regions come up on the way to RUN (R159), CHIP_SELFTEST takes the next four regions (R625), self-tests go on,
and host accesses that wait for the unit under test ask again (R626). -/
def unitsGoOn (s : State) : State :=
  let s1 := if modeBusy s = true ∧ s.pwr.modeTarget = 3 then perhaps runGroup s else s
  let s2 := if cmdBusy s1 = true ∧ curOp s1 = 0x21 then perhaps nextGroup s1 else s1
  let s3 := testsGoOn s2
  if s3.fs.hostWaiting.isEmpty then s3 else perhaps hostRun s3

/-- A mesh cycle of the lanes and the ring. -/
def linksCycle (s : State) : State := (List.range 56).foldl checkerCycle (if memberPath s then ringCycle s else s)

/-- What comes due at a stream port: its merge gives up what has not come, a path shows its loss, reordered packets come back, and a transport stream
gets its insertions (R492, R500, R513). -/
def streamPortCycle (n : Nat) (s : State) : State :=
  let s1 := pathLoss n (if mergeDue (flowPort n s) s then mergeTimeout n s else s)
  tsInsertions n (reorderRelease n s1)

def portsCycle (s : State) : State :=
  if curMode s = 5 then s else (s.comp.ports.map (·.port)).foldl (fun a n => streamPortCycle n a) s

/-- One mesh cycle: time passes, and once the chip has been released its blocks and what goes on by itself; a source whose delay has run
out is lost (R61). -/
def tick (s : State) : State :=
  let s1 := passCycles 1 s
  if s1.pwr.boot = .done then checkLoss (announceLost (unitsGoOn (portsCycle (linksCycle (poolsCycle ((smKeys s1.blocks).foldl (fun a k => blockCycle k a) s1)))))) else s1

end Sys2Proof.Machine
end

