-- ==== Sys2Proof/Safety.lean ====
section
/-! DEFINITION. What claims call a good state and a good step: the tables and the memory in canonical form, and a step that ends in a
next state. -/

namespace Sys2Proof

open Sys2Proof.Machine

/-- The register table holds no register at its reset value, and its offsets rise; the memory is in its canonical form. -/
def Canonical (s : State) : Prop := smWf regReset s.regs = true ∧ Mem.wf s.fs.mem

/-- A step answers a next state. -/
def Completes (o : Host.Outcome State Fault Refusal) : Prop := ∃ t, o = .next t

/-- The next state of an outcome, or `d` where it has none. -/
def nextOr (d : State) : Host.Outcome State Fault Refusal → State
  | .next t => t
  | .fault _ => d
  | .refused _ => d

/-- All of the state but the registers listed is as it was. -/
def OnlyRegs (l : List Nat) (s t : State) : Prop := t = { s with regs := t.regs } ∧ ∀ o, o ∉ l → rd o t = rd o s

/-- Every byte of the frame store reads as it did. -/
def SameBytes (s t : State) : Prop := ∀ a, memGet t.fs.mem a = memGet s.fs.mem a

/-- The bytes stand at device address `a`, and every byte outside the 64-byte words they lie in reads as it did: a write of part of a
word writes the whole word back (R369). -/
def StoredAt (a : Nat) (bytes : List Byte) (s t : State) : Prop :=
  (∀ i b, bytes[i]? = some b → memGet t.fs.mem (a + i) = some b)
    ∧ ∀ c, (c / 64 < a / 64 ∨ (a + bytes.length - 1) / 64 < c / 64) → memGet t.fs.mem c = memGet s.fs.mem c

/-- A host write by domain `d` to the register at `off` reaches it: the function has a host path, the Glove admits the domain, and
the register is open in the current mode (R130, R148, R531, R616). -/
def HostMayWrite (d off : Nat) (s : State) : Prop :=
  hostPath d s = true ∧ gloveStops d .bar0 off true s = false ∧ loadStops .bar0 off s = false

/-- Nothing stands at the mesh output towards controller `c`, and a class has a credit there. -/
def MeshIdle (c : Nat) (s : State) : Prop :=
  (getMesh c s).asking = [] ∧ (getMesh c s).buffers = [] ∧ (getMesh c s).used = [] ∧ 0 < s.fs.meshCredits

/-- The arbiter of pool `p` serves a request at once: none waits, and it has served none in this mesh cycle. -/
def PoolIdle (p : Nat) (s : State) : Prop := (getArb p s).waiting = [] ∧ (getArb p s).free ≤ s.now

/-- The state in which action `a` reaches its target, 64 mesh cycles after it fired, with `l` the actions still in flight. -/
def arrived (a : Action) (l : List Action) (s : State) : State :=
  let t := passCycles (a.fired + 64 - s.now) s
  { t with clock := { t.clock with inFlight := l } }

/-- Every register outside the window of pipeline `p`, and but for its interrupt source, is as it was. -/
def BesidePipe (p : Nat) (s t : State) : Prop :=
  ∀ o, (o < pipWindow p ∨ pipWindow p + 0x1000 ≤ o) → o ≠ Reg.icuSrcStat (pipeSource p) → rd o t = rd o s

/-- The registers that a change of the ring's path may write (R175 to R177): the path, the ring's state, and the states and sources of the ring's
receive lanes. -/
def ringPathRegs : List Nat :=
  [Reg.chipMode, Reg.lanRingStatus, Reg.icuSrcStat 440]
    ++ [48, 49, 50, 51].flatMap fun l => [Reg.lanLaneStatus l, Reg.lanLockLostCnt l, Reg.icuSrcStat (384 + l)]

/-- The frame store, the composition and the tables of pipelines, ports and pools are as they were. -/
def SameStreams (s t : State) : Prop :=
  t.fs = s.fs ∧ t.pools = s.pools ∧ t.pipes = s.pipes ∧ t.ports = s.ports ∧ t.comp = s.comp ∧ t.pending = s.pending

end Sys2Proof
end

