-- ==== Sys2Proof/Certificates/Slice0/Obligations.lean ====
section
/-! DEFINITION. The statements for the provers. -/

open Sys2Proof Sys2Proof.Machine

/-- A step runs the command at the front of the queue with the queue's rest. -/
def Obligations.StepRunsTheFrontCommand : Prop :=
  ∀ (c : Instr) (s : State), step { s with pending := c :: s.pending } = exec c s

/-- On an empty queue a step is one mesh cycle and answers a next state (the model's choice, assumption 4): the count of mesh cycles moves
on by one after release and stands before it, Base Camp's time moves on where it has power, and the queue stays empty. Before release only
the time base, where the clock runs, and waits move beside. -/
def Obligations.EmptyQueueIsOneMeshCycle : Prop :=
  (∀ s : State, s.pending = [] →
    ∃ t, step s = .next t ∧ t.now = (if s.pwr.boot = .done then s.now + 1 else s.now) ∧ t.pending = []
      ∧ t.bc.auxPs = (if s.pwr.aux then s.bc.auxPs + 625 else s.bc.auxPs))
  ∧ ∀ s : State, s.pending = [] → s.pwr.boot ≠ .done → s.pools.waits = [] →
    ∃ t, step s = .next t ∧ t = { s with
      bc := { s.bc with auxPs := if s.pwr.aux then s.bc.auxPs + 625 else s.bc.auxPs }
      clock := { s.clock with timeBase := if s.clock.running then s.clock.timeBase + 625 * (1000000000 + s.clock.rate) else s.clock.timeBase } }

/-- The state after reset has its registers and its memory in canonical form. -/
def Obligations.ResetIsCanonical : Prop :=
 Canonical State.reset

/-- Every step that answers a next state keeps the canonical form: no register is listed at its reset value, listed offsets and addresses
rise, and each written byte stands in one place. -/
def Obligations.EveryStepKeepsCanonicalForm : Prop :=
  ∀ s t : State, Canonical s → step s = .next t → Canonical t

/-- What the spec's reset values leave: CHIP_ID, CHIP_MODE in LOAD with the internal path, empty key guard, credit and configuration
registers, and no interrupt source pending. -/
def Obligations.ResetLeavesTheStatedRegisters : Prop :=
  rd Reg.chipId State.reset = 0x051024B0#32
    ∧ fget Reg.chipMode ChipMode.curMode State.reset = 1 ∧ fget Reg.chipMode ChipMode.modeBusy State.reset = 0
    ∧ fget Reg.chipKeyState ChipKeyState.armed State.reset = 0 ∧ rd Reg.chipResetCause State.reset = 0
    ∧ (∀ src < 4096, fget (Reg.icuSrcStat src) IcuSrcStat.count State.reset = 0)
    ∧ (∀ c < 64, dmaState c State.reset = 0) ∧ (∀ r < 16, rgcState r State.reset = 0)

/-- PERST_ASSERT with auxiliary power, and LINK_RESET on a link that is up, reset the chip: it is in BYPASS with the cause of R153, every
unit but Base Camp and the TAP is in its reset state, and every register outside Base Camp's window is at its reset value but for the
cause and the ring path. Base Camp keeps its registers but for the log count, the capping bits and, from MAINTAIN, FLASH_WE, and what it
holds but for the chip's own; the log has one entry more. The resume record of a FLASH_WRITE, the queue, the outputs and, where no
FLASH_WRITE is cut, the flash stay. VAUX_BROWNOUT and AUX_POWER_ON clear everything but the flash, the queue and the outputs: every
register and every unit is in its reset state. A power-on samples ADSEL, raises RAIL_EN, supervises VAUX_0V8, drives the ring path and
writes the first log entry; a brown-out tristates the pads. -/
def Obligations.ResetsClearTheChip : Prop :=
  (∀ s : State, ∀ c cause,
      (c = Instr.perstAssert ∧ s.pwr.aux = true ∧ cause = 1 ∨ c = Instr.linkReset ∧ s.pwr.linkUp = true ∧ cause = 2) →
      ∃ t, exec c s = .next t
        ∧ t = { State.reset with
            pending := s.pending, outbox := s.outbox, freeCtr := t.freeCtr, flash := t.flash, tap := s.tap, regs := t.regs
            snaps := smErase (fun o => !keptByReset o) s.snaps
            cmd := { State.reset.cmd with resume := s.cmd.resume.filter fun r => r.op == 0x10 }
            bc := { resetRegionActs s.bc with log := t.bc.log }
            pwr := { s.pwr with
              bypass := true, boot := .off, trained := [], trainFails := [], linkUp := false, linkPcie := false, memActive := false
              passThrough := false, modeTarget := 0, safeAt := none, mittenN := (mittenPlan t).1
              perst := s.pwr.perst || cause == 1 } }
        ∧ fget Reg.chipResetCause ChipResetCause.resetCause t = cause
        ∧ fget Reg.chipResetCause ChipResetCause.causeWasSafe t = (if curMode s = 5 then 1 else 0)
        ∧ fget Reg.chipMode ChipMode.mittenPath t = (mittenPlan t).2
        ∧ (∀ o, keptByReset o = false → o ∉ [Reg.chipMode, Reg.lanRingStatus] → rd o t = regReset o)
        ∧ (∀ o, 0x40000 ≤ o → o < 0x50000 → o ∉ [Reg.bcmLogWr, Reg.bcmStatus, Reg.bcmFlashCtl] → rd o t = rd o s)
        ∧ fget Reg.bcmStatus BcmStatus.throttle t = 0 ∧ fget Reg.bcmStatus BcmStatus.capActive t = 0
        ∧ fget Reg.bcmStatus BcmStatus.tempWarn t = fget Reg.bcmStatus BcmStatus.tempWarn s
        ∧ fget Reg.bcmStatus BcmStatus.fwSlot t = fget Reg.bcmStatus BcmStatus.fwSlot s
        ∧ fget Reg.bcmFlashCtl BcmFlashCtl.flashWe t
            = (if curMode s = 4 then 0 else fget Reg.bcmFlashCtl BcmFlashCtl.flashWe s)
        ∧ rd Reg.bcmLogWr t = BitVec.ofNat 32 ((rd Reg.bcmLogWr s).toNat + 1)
        ∧ t.bc.log = smSet LogEntry.init ((rd Reg.bcmLogWr s).toNat % 2048) ⟨s.bc.auxPs / 1000000, 1, cause, 0, 0⟩ s.bc.log
        ∧ (fget Reg.cmdStatus CmdStatus.busy s = 0 → t.flash = s.flash))
  ∧ (∀ s : State,
      (exec .vauxBrownout s = .next { State.reset with
        pending := s.pending, outbox := s.outbox, freeCtr := s.freeCtr, flash := s.flash, pwr := { State.reset.pwr with padsOff := true } })
      ∧ ∀ adsel : Fin 4, ∃ t, exec (.auxPowerOn adsel) s = .next t
        ∧ t = { State.reset with
            pending := s.pending, outbox := s.outbox, freeCtr := s.freeCtr, flash := s.flash, regs := t.regs
            bc := { State.reset.bc with log := [(0, ⟨0, 1, 0, 0, 0⟩)] }
            pwr := { State.reset.pwr with
              aux := true, adsel := adsel.val, railEn := true, railGood := [Rail.vaux0v8], railSeen := [Rail.vaux0v8] } }
        ∧ (∀ o, o ∉ [Reg.chipMode, Reg.bcmLogWr] → rd o t = regReset o) ∧ rd Reg.bcmLogWr t = 1#32
        ∧ fget Reg.chipMode ChipMode.mittenPath t = 2 ∧ t.pwr.mittenN = false)

/-- A rail that enters its window is supervised from then on, and RAIL_OK follows the supplies; an excursion while PERST_N is asserted
only clears RAIL_OK. The ring path follows, and nothing else changes. A sensor whose trip condition stands (110 °C, or a rail out of its
window for 100 µs), a supervised rail outside its window while PERST_N is high, and a rail that has not entered its window 50 ms after
RAIL_EN rose put the chip in BYPASS with cause BC_TRIP; MITTEN_N goes low, and RAIL_EN too where RAIL_OFF is 1. -/
def Obligations.RailsAndTrips : Prop :=
  ((∀ (s : State) (r : Rail), s.pwr.aux = true → s.pwr.railEn = true →
      ∃ t, exec (.railWindowEntry r) s = .next t ∧ t.pwr.railGood.contains r = true ∧ t.pwr.railSeen.contains r = true
        ∧ fget Reg.bcmStatus BcmStatus.railOk t = (if suppliesGood t then 1 else 0)
        ∧ (∀ o, o ∉ Reg.bcmStatus :: ringPathRegs → rd o t = rd o s) ∧ SameStreams s t ∧ t.bc = s.bc ∧ t.pwr.trip = s.pwr.trip)
    ∧ ∀ (s : State) (r : Rail), s.pwr.railSeen.contains r = true → (s.pwr.railGood.erase r).contains r = false →
      s.pwr.perst = true →
      ∃ t, exec (.railExcursion r) s = .next t ∧ t.pwr.railGood = s.pwr.railGood.erase r
        ∧ fget Reg.bcmStatus BcmStatus.railOk t = 0 ∧ t.pwr.trip = s.pwr.trip
        ∧ (∀ o, o ∉ Reg.bcmStatus :: ringPathRegs → rd o t = rd o s) ∧ SameStreams s t ∧ t.bc = s.bc)
  ∧ (∀ s : State, s.pwr.aux = true → s.pwr.trip = false → ∀ c,
      ((∃ n : Fin 32, c = Instr.baseCampTrip n ∧ tripCondition n s = true)
        ∨ (∃ r, c = Instr.railExcursion r ∧ s.pwr.railSeen.contains r = true ∧ s.pwr.perst = false)
        ∨ (∃ r, c = Instr.railEntryTimeout r ∧ s.pwr.railEn = true ∧ s.pwr.railSeen.contains r = false
            ∧ s.bc.railAt + railEntryPs ≤ s.bc.auxPs)) →
      ∃ t, exec c s = .next t ∧ t.pwr.trip = true ∧ t.pwr.bypass = true ∧ t.pwr.mittenN = false
        ∧ fget Reg.chipResetCause ChipResetCause.resetCause t = 5
        ∧ (fget Reg.bcmTripCtl BcmTripCtl.railOff s = 1 → t.pwr.railEn = false)
        ∧ (fget Reg.bcmTripCtl BcmTripCtl.railOff s = 0 → t.pwr.railEn = s.pwr.railEn)
        ∧ t.fs = State.reset.fs ∧ t.comp = State.reset.comp ∧ t.tap = s.tap ∧ t.pending = s.pending)

/-- With VIO_1V8 good and no firmware running, Base Camp's boot ROM reads the flash header and loads slot A where it is accepted, else
slot B, else none: FW_SLOT, the version, HDR_DEFAULT, BCM_BOARD0 to 7 and the mode of flash reads say which, a load is logged, RAIL_OK
follows, and with it the ring path; nothing else changes. CHIP_START with supplies good and neither a hold nor a trip leaves BYPASS for
LOAD and tries slot A, then slot B. An accepted slot is staged and its stacks begin to train; a refused one shows its code; with both
refused the device stays in LOAD with no composition. The TAP executes BYPASS. Beside the configuration registers, the board identifier,
the log, CUR_MODE and the ring path nothing changes. -/
def Obligations.FirmwareLoadsAndChipStarts : Prop :=
  (∀ (s : State) (a b : Bool), s.pwr.aux = true → s.pwr.railGood.contains .vio1v8 = true →
      fget Reg.bcmStatus BcmStatus.fwSlot s = 0 →
      ∃ t, exec (.baseCampFirmwareLoad a b) s = .next t
        ∧ fget Reg.bcmStatus BcmStatus.fwSlot t
            = (if firmwareOk 0x1000000 a s then 1 else if firmwareOk 0x2000000 b s then 2 else 0)
        ∧ rd Reg.bcmFwVersion t
            = (if firmwareOk 0x1000000 a s then BitVec.ofNat 32 (flashNat s 0x1000008 4)
               else if firmwareOk 0x2000000 b s then BitVec.ofNat 32 (flashNat s 0x2000008 4) else 0#32)
        ∧ fget Reg.bcmStatus BcmStatus.hdrDefault t = (if flashHeaderOk s then 0 else 1)
        ∧ (∀ i < 8, rd (Reg.bcmBoard i) t = (if flashHeaderOk s then BitVec.ofNat 32 (flashNat s (0x10 + 4 * i) 4) else 0#32))
        ∧ fget Reg.bcmStatus BcmStatus.railOk t = (if suppliesGood t then 1 else 0)
        ∧ rd Reg.bcmLogWr t = (if firmwareOk 0x1000000 a s = true ∨ firmwareOk 0x2000000 b s = true
            then BitVec.ofNat 32 ((rd Reg.bcmLogWr s).toNat + 1) else rd Reg.bcmLogWr s)
        ∧ (∀ o, o ∉ [Reg.bcmStatus, Reg.bcmFwVersion, Reg.bcmLogWr] ++ (List.range 8).map Reg.bcmBoard ++ ringPathRegs → rd o t = rd o s)
        ∧ t = { s with
            regs := t.regs, ring := t.ring, bc := { s.bc with log := t.bc.log, xspi := xspiMode (flashHeaderOk s) s }
            pwr := { s.pwr with mittenN := t.pwr.mittenN, passThrough := t.pwr.passThrough } })
  ∧ (∀ (s : State) (vA vB : SlotVerdict), s.pwr.bypass = true → suppliesGood s = true → s.pwr.hold = false →
      s.pwr.trip = false →
      ∃ t, exec (.chipStart vA vB) s = .next t ∧ t.pwr.bypass = false ∧ t.pwr.perst = false ∧ curMode t = 1
        ∧ t.tap.instr = .bypass ∧ t.tap.driving = false ∧ t.tap.highZ = false
        ∧ (fullFault vA (slotReader 0x4000000 s) = none → t.pwr.boot = .training
            ∧ t.staged = some (parseImage (slotReader 0x4000000 s) 0) ∧ fget Reg.cfgStatus CfgStatus.cfgState t = 2)
        ∧ (∀ f, fullFault vA (slotReader 0x4000000 s) = some f → fget Reg.cfgRefuse CfgRefuse.cfgRefA t = f.code % 256)
        ∧ (∀ f, fullFault vA (slotReader 0x4000000 s) = some f → fullFault vB (slotReader 0xA000000 s) = none →
            t.pwr.boot = .training ∧ t.staged = some (parseImage (slotReader 0xA000000 s) 0)
              ∧ fget Reg.cfgStatus CfgStatus.cfgState t = 3)
        ∧ (∀ f g, fullFault vA (slotReader 0x4000000 s) = some f → fullFault vB (slotReader 0xA000000 s) = some g →
            t.pwr.boot = .failed ∧ t.staged = s.staged ∧ fget Reg.cfgStatus CfgStatus.cfgState t = 4
              ∧ fget Reg.cfgRefuse CfgRefuse.cfgRefB t = g.code % 256)
        ∧ (∀ o, o ∉ [Reg.bcmStatus, Reg.bcmLogWr, Reg.cfgStatus, Reg.cfgRefuse, Reg.cfgRefuseObj, Reg.cfgCompIdLo, Reg.cfgCompIdHi, Reg.cfgVsVersion]
            ++ (List.range 8).map Reg.bcmBoard ++ ringPathRegs → rd o t = rd o s)
        ∧ SameStreams s t ∧ t.flash = s.flash ∧ t.cmd = s.cmd)

/-- The commands of power-up and start-up complete (R143 to R153, R632): a brown-out leaves no power, a power-on raises RAIL_EN, PERST_N
asserted and a link reset leave the chip in BYPASS, the firmware's slot is chosen, a start enters LOAD, a stack trains, and the release
enters BIVOUAC. -/
def Obligations.StartUpCommandsComplete : Prop :=
  ∀ s : State,
    (∃ t, exec .vauxBrownout s = .next t ∧ t.pwr.aux = false ∧ t.pwr.padsOff = true)
    ∧ (∀ adsel : Fin 4, ∃ t, exec (.auxPowerOn adsel) s = .next t ∧ t.pwr.aux = true ∧ t.pwr.railEn = true ∧ t.pwr.adsel = adsel.val)
    ∧ (s.pwr.aux = true → ∃ t, exec .perstAssert s = .next t ∧ t.pwr.bypass = true ∧ t.pwr.perst = true)
    ∧ (s.pwr.linkUp = true → ∃ t, exec .linkReset s = .next t ∧ t.pwr.bypass = true ∧ t.pwr.linkUp = false)
    ∧ (∀ a b : Bool, s.pwr.aux = true → s.pwr.railGood.contains .vio1v8 = true → fget Reg.bcmStatus BcmStatus.fwSlot s = 0 →
      ∃ t, exec (.baseCampFirmwareLoad a b) s = .next t ∧ fget Reg.bcmStatus BcmStatus.fwSlot t
        = (if firmwareOk 0x1000000 a s then 1 else if firmwareOk 0x2000000 b s then 2 else 0))
    ∧ (∀ vA vB : SlotVerdict, s.pwr.bypass = true → suppliesGood s = true → s.pwr.hold = false → s.pwr.trip = false →
      ∃ t, exec (.chipStart vA vB) s = .next t ∧ t.pwr.bypass = false ∧ t.pwr.perst = false ∧ curMode t = 1)
    ∧ (∀ c : StackId, s.pwr.boot = .training → s.pwr.bypass = false → curMode s = 1 → s.pwr.trained.contains c = false →
      ∃ t, exec (.hbmStackTrained c true) s = .next t ∧ t.pwr.trained.contains c = true
        ∧ fget (Reg.memStatus c) MemStatus.memState t = 1)
    ∧ (s.pwr.boot = .filled → s.pwr.bypass = false → curMode s = 1 →
      ∃ t, exec .releaseToBivouac s = .next t ∧ curMode t = 2 ∧ t.pwr.boot = .done ∧ t.pwr.memActive = true)

/-- A stack that trains is ready with every channel trained; with the last of the four the staged composition takes effect. A failed
training is counted, and the third failure of a stack takes the chip to SAFE. Step 6 of start-up: the chip enters BIVOUAC with memory
active, the Glove locked, every region GATED, the cap of the POWER section, the clock running and the count of mesh cycles at 0; PTP
listens where the composition names a complex for it. What it has in flash, the TAP, the composition and the tables of pipelines and ports
is as it was. -/
def Obligations.TrainingEndsAndReleaseEntersBivouac : Prop :=
  ((∀ (s : State) (c : StackId), s.pwr.boot = .training → s.pwr.bypass = false → curMode s = 1 →
      s.pwr.trained.contains c = false → (∃ k : StackId, k ≠ c ∧ s.pwr.trained.contains k = false) →
      ∃ t, exec (.hbmStackTrained c true) s = .next t ∧ t.pwr.trained.contains c = true
        ∧ fget (Reg.memStatus c) MemStatus.trainOk t = 0xFFFF ∧ fget (Reg.memStatus c) MemStatus.memState t = 1
        ∧ (∀ o, o ≠ Reg.memStatus c → rd o t = rd o s) ∧ (∀ ch < 16, (getMemChannel c ch t).goodAt = s.now)
        ∧ t = { s with regs := t.regs, pwr := { s.pwr with trained := t.pwr.trained }, fs := { s.fs with channels := t.fs.channels } })
    ∧ (∀ (s : State) (c : StackId) (im : Image), s.pwr.boot = .training → s.pwr.bypass = false → curMode s = 1 →
      s.pwr.trained.contains c = false → (∀ k : StackId, k ≠ c → s.pwr.trained.contains k = true) → s.staged = some im →
      ∃ t, exec (.hbmStackTrained c true) s = .next t ∧ t.pwr.boot = .filled ∧ (∀ k : StackId, t.pwr.trained.contains k = true)
        ∧ t.comp = ⟨true, im.pipes, im.ports, im.carves, im.pools, im.macModes, im.sdiOut, im.ringEn, im.ptpMac, im.glove, im.capW, im.dvfsPoints,
            im.compId, im.patches⟩
        ∧ fget (Reg.memStatus c) MemStatus.memState t = 1 ∧ curMode t = 1 ∧ t.staged = s.staged ∧ t.pipes = s.pipes
        ∧ t.flash = s.flash ∧ t.bc = s.bc ∧ t.tap = s.tap ∧ t.pending = s.pending)
    ∧ (∀ (s : State) (c : StackId), s.pwr.boot = .training → s.pwr.bypass = false → curMode s = 1 →
      s.pwr.trained.contains c = false → smGet 0 c.val s.pwr.trainFails ≠ 2 →
      exec (.hbmStackTrained c false) s = .next { s with pwr := { s.pwr with
        trainFails := smSet 0 c.val (smGet 0 c.val s.pwr.trainFails + 1) s.pwr.trainFails } })
    ∧ ∀ (s : State) (c : StackId), s.pwr.boot = .training → s.pwr.bypass = false → curMode s = 1 →
      s.pwr.trained.contains c = false → smGet 0 c.val s.pwr.trainFails = 2 →
      ∃ t, exec (.hbmStackTrained c false) s = .next t ∧ curMode t = 5
        ∧ fget (Reg.memStatus c) MemStatus.memState t = 3
        ∧ fget (Reg.fltSafeCause 0x200) FltSafeCause.scClass t = 0x38 ∧ fget (Reg.fltSafeCause 0x200) FltSafeCause.scUnit t = c.val
        ∧ t.fs = s.fs ∧ t.comp = s.comp ∧ t.flash = s.flash ∧ t.tap = s.tap ∧ t.pending = s.pending)
  ∧ (∀ s : State, s.pwr.boot = .filled → s.pwr.bypass = false → curMode s = 1 →
      ∃ t, exec .releaseToBivouac s = .next t ∧ curMode t = 2 ∧ t.now = 0 ∧ t.pwr.boot = .done ∧ t.pwr.memActive = true
        ∧ fget Reg.chipMode ChipMode.memActive t = 1 ∧ fget Reg.glvSummary GlvSummary.glvLocked t = 1 ∧ t.staged = none
        ∧ (∀ r < 16, rgcState r t = 0) ∧ t.clock.running = true
        ∧ fget Reg.bcmPowerCap BcmPowerCap.capW t = min 400 (max 50 s.comp.capW)
        ∧ fget Reg.bcmPtpStatus BcmPtpStatus.ptpState t = (if s.comp.ptpMac < 8 then 1 else 0)
        ∧ t.comp = s.comp ∧ t.pipes = s.pipes ∧ t.ports = s.ports ∧ t.cmd = s.cmd ∧ t.flash = s.flash ∧ t.tap = s.tap ∧ t.pending = s.pending)

/-- The host link trains with a partner of at least four lanes: training sets the mode, the width and the rate; a link that goes down
shows no mode and no width, is counted and latches its event, and leaves the device running; a link that returns shows what it trained to.
A link that stays down for its second completes the held requests as errors: each channel with a held request stands in ERROR. -/
def Obligations.HostLinkComesGoesAndTimesOut : Prop :=
  ((∀ (s : State) (mode : LinkMode) (lanes rate : Nat), s.pwr.bypass = false → s.pwr.linkUp = false →
      s.cxl.retraining = false → 4 ≤ lanes → rate < 4 →
      ∃ t, exec (.cxlLinkUp mode lanes rate) s = .next t
        ∧ t = { s with regs := t.regs, pwr := { s.pwr with linkUp := true, linkPcie := mode == LinkMode.pcie } }
        ∧ fget Reg.cxlStatus CxlStatus.rate t = rate ∧ fget Reg.cxlStatus CxlStatus.width t = (if 8 ≤ lanes then 2 else 1)
        ∧ fget Reg.cxlStatus CxlStatus.linkMode t = (if mode == LinkMode.pcie then 1 else 2)
        ∧ fget Reg.chipMode ChipMode.pcieOnly t = (if mode == LinkMode.pcie then 1 else 0)
        ∧ ∀ o, o ∉ [Reg.cxlStatus, Reg.chipMode] → rd o t = rd o s)
    ∧ (∀ s : State, s.pwr.linkUp = true →
      ∃ t, exec .cxlLinkDown s = .next t
        ∧ t = { s with regs := t.regs, pwr := { s.pwr with linkUp := false }, cxl := { s.cxl with retraining := true, downAt := s.now } }
        ∧ fget Reg.cxlStatus CxlStatus.width t = 0 ∧ fget Reg.cxlStatus CxlStatus.linkMode t = 0
        ∧ fget Reg.cxlStatus CxlStatus.linkDownEv t = 1
        ∧ fget Reg.cxlStatus CxlStatus.linkDownCnt t
            = min (fget Reg.cxlStatus CxlStatus.linkDownCnt s + 1) (2 ^ CxlStatus.linkDownCnt.width - 1)
        ∧ ∀ o, o ≠ Reg.cxlStatus → rd o t = rd o s)
    ∧ ∀ (s : State) (lanes rate : Nat), s.cxl.retraining = true → 4 ≤ lanes → rate < 4 →
      ∃ t, exec (.cxlLinkReturn lanes rate) s = .next t ∧ t.pwr.linkUp = true ∧ t.cxl.retraining = false
        ∧ fget Reg.cxlStatus CxlStatus.rate t = rate ∧ fget Reg.cxlStatus CxlStatus.width t = (if 8 ≤ lanes then 2 else 1)
        ∧ fget Reg.cxlStatus CxlStatus.linkMode t = (if s.pwr.linkPcie then 1 else 2)
        ∧ (∀ o, o ≠ Reg.cxlStatus → rd o t = rd o s) ∧ (∀ c < 64, (getChan c t).held = false) ∧ SameStreams s t)
  ∧ (∀ s : State, s.cxl.retraining = true → s.cxl.downAt + cyclesPerSecond ≤ s.now → s.comp.pipes = [] → s.comp.ports = [] →
      ∃ t, exec .cxlLinkDownTimeout s = .next t
        ∧ (∀ c < 64, (getChan c s).held = true → dmaState c t = 4 ∧ fget (Reg.dmaCtl c) DmaCtl.enable t = 0
            ∧ fget (Reg.dmaStatus c) DmaStatus.haltEv t = 1)
        ∧ (∀ c < 64, (getChan c s).held = false → dmaState c t = dmaState c s)
        ∧ t.pwr = s.pwr ∧ t.cxl = s.cxl ∧ t.comp = s.comp ∧ t.pending = s.pending)

/-- PASS_THROUGH_LOCK on the internal path is remembered, TRST_ASSERT resets the TAP, and neither touches anything else. A function-level
reset clears the enable of every DMA channel that the domain owns; one of PF0 those of every domain. -/
def Obligations.PassThroughLockTrstAndFunctionResets : Prop :=
  (∀ s : State,
      (s.pwr.mittenN = true → fget Reg.chipMode ChipMode.mittenPath s = 1 →
        exec .passThroughLock s = .next { s with pwr := { s.pwr with passThrough := true } })
      ∧ exec .trstAssert s = .next { s with tap := State.reset.tap })
  ∧ (∀ s : State, s.pwr.linkUp = true → s.pwr.bypass = false →
      (∀ d : DomId, d.val ≠ 0 → d.val ≤ s.icu.numVfs →
        ∃ t, exec (.flrVf d) s = .next t
          ∧ (∀ c < 64, owner s glvDma c = d.val → fget (Reg.dmaCtl c) DmaCtl.enable t = 0)
          ∧ t.comp = s.comp ∧ t.pwr = s.pwr ∧ t.tap = s.tap ∧ t.pending = s.pending)
      ∧ ∃ t, exec .flrPf0 s = .next t
          ∧ (∀ c < 64, owner s glvDma c < 16 → fget (Reg.dmaCtl c) DmaCtl.enable t = 0)
          ∧ t.comp = s.comp ∧ t.pwr = s.pwr ∧ t.tap = s.tap ∧ t.pending = s.pending)

/-- An admitted mode request starts its transition: MODE_BUSY is set, and the target is remembered (R158, R159). A refused mode request
leaves the mode and puts the code of R158 in MODE_REFUSE: a pipeline still enabled, no composition in force, a maintenance operation
running, a transition under way, and every transition the table does not have. -/
def Obligations.ModeRequestsStartOrAreRefused : Prop :=
  (∀ (s : State) (d : DomId) (c : Instr) (k : Nat), HostMayWrite d Reg.chipMode s → modeBusy s = false →
      (c = .modeReqRun d ∧ k = 3 ∧ curMode s = 2
        ∨ c = .modeReqMaintain d ∧ k = 4 ∧ curMode s = 2
        ∨ c = .modeReqBivouac d ∧ k = 2 ∧ curMode s = 3 ∧ anyPipeEnabled s = false
        ∨ c = .modeReqBivouac d ∧ k = 2 ∧ curMode s = 4 ∧ s.comp.inForce = true ∧ maintOpRunning s = false) →
      ∃ t, exec c s = .next t ∧ t = { s with regs := t.regs, pwr := { s.pwr with modeTarget := k, modeReqAt := s.bc.auxPs } } ∧ modeBusy t = true
        ∧ curMode t = curMode s ∧ ∀ o, o ≠ Reg.chipMode → rd o t = rd o s)
  ∧ (∀ (s : State) (d : DomId) (c : Instr) (code : Nat), HostMayWrite d Reg.chipMode s →
      (c = .modeReqBivouac d ∧ code = 0xE2 ∧ curMode s = 3 ∧ modeBusy s = false ∧ anyPipeEnabled s = true
        ∨ c = .modeReqBivouac d ∧ code = 0xE4 ∧ curMode s = 4 ∧ modeBusy s = false ∧ s.comp.inForce = false
        ∨ c = .modeReqBivouac d ∧ code = 0xE5 ∧ curMode s = 4 ∧ modeBusy s = false ∧ s.comp.inForce = true ∧ maintOpRunning s = true
        ∨ c = .modeReqRun d ∧ code = 0xE3 ∧ curMode s = 4 ∧ modeBusy s = false
        ∨ c = .modeReqMaintain d ∧ code = 0xE3 ∧ curMode s = 3 ∧ modeBusy s = false
        ∨ (c = .modeReqBivouac d ∨ c = .modeReqRun d ∨ c = .modeReqMaintain d) ∧ code = 0xE6 ∧ curMode s ≠ 5 ∧ modeBusy s = true) →
      ∃ t, exec c s = .next t ∧ OnlyRegs [Reg.chipMode, Reg.icuSrcStat 1] s t ∧ curMode t = curMode s ∧ modeBusy t = modeBusy s
        ∧ fget Reg.chipMode ChipMode.modeRefuse t = code)

/-- A transition completes in the mode asked for, with MODE_BUSY 0 and MODE_REFUSE 0; out of RUN only once no region is ACTIVE. -/
def Obligations.TransitionsCompleteInTheirTarget : Prop :=
  ∀ s : State, modeBusy s = true → s.pwr.bypass = false → s.pwr.modeTarget < 8 →
    (curMode s = 3 → noRegionActive s = true) →
    ∃ t, exec .modeTransitionDone s = .next t ∧ curMode t = s.pwr.modeTarget ∧ modeBusy t = false
      ∧ fget Reg.chipMode ChipMode.modeRefuse t = 0 ∧ t.pwr.modeTarget = 0
      ∧ t.fs = s.fs ∧ t.comp = s.comp ∧ t.pools = s.pools ∧ t.pipes = s.pipes ∧ t.ports = s.ports ∧ t.pending = s.pending

/-- FORCE_SAFE with the key armed, an L4 fault, the cause FORCED and a stack that fails to train take the chip to SAFE: CUR_MODE is 5 and
FLT_SAFE_CAUSE holds SAFE, FORCED and the class. A key-guarded write of MITTEN_FORCE disarms the key and drives the ring path at once;
without the key it is an access error of kind KEY and changes nothing else. -/
def Obligations.SafeEntryAndMittenForce : Prop :=
  (∀ (s : State) (c : Instr) (cls unit : Nat), curMode s ≠ 5 → s.pwr.bypass = false →
      ((∃ (d : DomId) (m : Fin 4), c = .forceSafe d m ∧ HostMayWrite d Reg.chipForce s ∧ keyArmed s = true) ∧ cls = 0x3C ∧ unit = 15
        ∨ c = .safeEntry .forced ∧ cls = 0x3C ∧ unit = 15
        ∨ c = .safeEntry (.fault cls unit) ∧ 0x30 ≤ cls ∧ cls < 0x40 ∧ unit < 16
        ∨ (∃ k : StackId, c = .safeEntry (.training k) ∧ unit = k.val) ∧ cls = 0x38) →
      ∃ t, exec c s = .next t ∧ curMode t = 5 ∧ modeBusy t = false
        ∧ fget (Reg.fltSafeCause 0x200) FltSafeCause.safe t = 1
        ∧ fget (Reg.fltSafeCause 0x200) FltSafeCause.forced t = (if cls = 0x3C then 1 else 0)
        ∧ fget (Reg.fltSafeCause 0x200) FltSafeCause.scClass t = cls
        ∧ fget (Reg.fltSafeCause 0x200) FltSafeCause.scUnit t = unit
        ∧ t.fs = s.fs ∧ t.comp = s.comp ∧ t.flash = s.flash ∧ t.pending = s.pending)
  ∧ (∀ (s : State) (d : DomId) (m : Fin 4), HostMayWrite d Reg.chipForce s → curMode s ≠ 5 →
      (keyArmed s = true →
        ∃ t, exec (.mittenForceWrite d m) s = .next t ∧ keyArmed t = false
          ∧ fget Reg.chipForce ChipForce.mittenForce t = m.val ∧ fget Reg.chipMode ChipMode.mittenPath t = (mittenPlan t).2
          ∧ t.pwr.mittenN = (mittenPlan t).1
          ∧ (∀ o, o ∉ [Reg.chipForce, Reg.chipKeyState] ++ ringPathRegs → rd o t = rd o s) ∧ SameStreams s t)
      ∧ (keyArmed s = false →
        ∃ t, exec (.mittenForceWrite d m) s = .next t
          ∧ OnlyRegs [Reg.chipAccessErr d, Reg.chipAccessAddr d, Reg.chipAccessCnt d] s t
          ∧ fget (Reg.chipAccessErr d) ChipAccessErr.accessErr t = 1 ∧ fget (Reg.chipAccessErr d) ChipAccessErr.accKind t = 4))

/-- The states of the raster clock: a source whose loss delay has run out holds over and raises REF_LOST, the holdover's end selects the
secondary source, a measurement is kept and ends a holdover, and a phase error within 100 ns for one second locks. A rate update with no
phase error takes the rate measured, where no acquisition is under way (R63, R65). -/
def Obligations.RasterClockFollowsItsSource : Prop :=
  ((∀ s : State, s.clock.running = true → refAct s ≠ 0 → rckState s ≠ 3 → lossCycle s ≤ s.now →
      ∃ t, exec .refSourceLost s = .next t ∧ rckState t = 3 ∧ fget Reg.rckStatus RckStatus.rckRefLost t = 1
        ∧ t = { s with regs := t.regs, clock := { s.clock with rate := s.clock.tracked.getD s.clock.selRate, lostAt := s.now } }
        ∧ ∀ o, o ∉ [Reg.rckStatus, Reg.icuSrcStat 64] → rd o t = rd o s)
    ∧ (∀ s : State, rckState s = 3 → fget Reg.rckCtl RckCtl.rckSecEn s = 1 → s.clock.running = true →
      s.clock.lostAt + 1600000 * fget Reg.rckCtl RckCtl.rckHoldMs s ≤ s.now →
      ∃ t, exec .holdoverTimeout s = .next t ∧ refAct t = sourceCode (fget Reg.rckCtl RckCtl.rckRefSec s)
        ∧ rckState t = (if sourceCode (fget Reg.rckCtl RckCtl.rckRefSec s) = 0 then 0 else 1) ∧ t.clock.tracked = none
        ∧ rd Reg.rckPhaseErr t = 0 ∧ t = { s with regs := t.regs, clock := t.clock }
        ∧ ∀ o, o ∉ [Reg.rckStatus, Reg.rckPhaseErr] → rd o t = rd o s)
    ∧ (∀ (s : State) (err rate e : Int), s.clock.running = true → refAct s ≠ 0 → rckState s = 3 →
      e = (sourceErr s).getD (foldSource (err * 10 ^ 12) s) →
      ∃ t, exec (.rckPhaseMeasurement err rate) s = .next t ∧ rckState t = 1
        ∧ rd Reg.rckPhaseErr t = BitVec.ofInt 32 (sat32 (e.tdiv (10 ^ 12)))
        ∧ t = { s with regs := t.regs, clock := { s.clock with
            err := e, outAt := if inLock e then s.clock.outAt else s.now, tracked := some rate, fresh := true, acquiring := true } }
        ∧ ∀ o, o ∉ [Reg.rckStatus, Reg.rckPhaseErr] → rd o t = rd o s)
    ∧ ∀ s : State, rckState s = 1 → s.clock.acquiring = false → - lockLimit ≤ s.clock.err → s.clock.err ≤ lockLimit →
      s.clock.outAt + 1600000000 ≤ s.now →
      ∃ t, exec .rckLocked s = .next t ∧ rckState t = 2 ∧ OnlyRegs [Reg.rckStatus] s t)
  ∧ (∀ (s : State) (r : Int), s.clock.running = true → refAct s ≠ 0 → rckState s = 2 → s.clock.fresh = true →
      s.clock.tracked = some r → s.clock.acquiring = false → s.clock.err = 0 →
      ∃ t, exec .rckRateUpdate s = .next t ∧ t.clock.rate = r ∧ rckState t = 2 ∧ t.clock.timeBase = s.clock.timeBase
        ∧ t.fs = s.fs ∧ t.comp = s.comp ∧ t.pending = s.pending)

/-- Host writes of RCK_CTL, RCK_DOM_OFS, BCM_PTP_ADJ and a word of the host schedule range. The control word and an entry's word stand but
for their reserved bits and a new primary source is selected; an offset waits for the frame's end while the clock runs; an entry outside
the host range is dropped with an access error of kind STATE. PTP: an announcement selects its master, a finished exchange under Base
Camp's servo enters state 3, a host servo that falls silent for two seconds is marked stale. A PPS edge and a REF_V edge latch the time
base; a second REF_V period beyond its limit loses REF; and the first REF_H edge at least 100 ns after a REF_V edge of field 1 is the
reference's line 0. -/
def Obligations.RasterRegistersAndEdges : Prop :=
  ((∀ (s : State) (d : DomId) (v : Word), HostMayWrite d Reg.rckCtl s → curMode s ≠ 5 →
      ∃ t, exec (.rckRefPriWrite d v) s = .next t ∧ rd Reg.rckCtl t = v &&& 0xFFFFF377#32
        ∧ (s.clock.running = true → refAct t = sourceCode (getF RckCtl.rckRefPri v))
        ∧ t = { s with regs := t.regs, clock := t.clock }
        ∧ ∀ o, o ∉ [Reg.rckCtl, Reg.rckStatus, Reg.rckPhaseErr] → rd o t = rd o s)
    ∧ (∀ (s : State) (d : DomId) (r : RasterId) (v : Word), HostMayWrite d (Reg.rckDomOfs r) s → curMode s ≠ 5 →
      ∃ t, exec (.rckDomOfsWrite d r v) s = .next t ∧ rd (Reg.rckDomOfs r) t = v
        ∧ (s.clock.running = true → (getRaster r t).newOfs = some v.toInt ∧ (getRaster r t).ofs = (getRaster r s).ofs)
        ∧ (s.clock.running = false → (getRaster r t).ofs = v.toInt)
        ∧ t = { s with regs := t.regs, clock := t.clock } ∧ ∀ o, o ≠ Reg.rckDomOfs r → rd o t = rd o s)
    ∧ (∀ (s : State) (d : DomId) (v : Word), HostMayWrite d Reg.bcmPtpAdj s → curMode s ≠ 5 → s.bc.servoHost = false →
      ∃ t, exec (.ptpAdjWrite d v) s = .next t ∧ rd Reg.bcmPtpAdj t = v ∧ OnlyRegs [Reg.bcmPtpAdj] s t)
    ∧ (∀ (s : State) (d : DomId) (e : Fin 65536) (k : Fin 4) (v : Word),
      HostMayWrite d (0xC00000 + 16 * e.val + 4 * k.val) s → curMode s ≠ 5 → inHostRange e.val s = true →
      ∃ t, exec (.hostScheduleWrite d e k 0xF#4 v) s = .next t ∧ seWord e.val k.val t = seClean k.val v
        ∧ t = { s with regs := t.regs, clock := t.clock }
        ∧ ∀ o, o ≠ 0xC00000 + 16 * e.val + 4 * k.val → rd o t = rd o s)
    ∧ ∀ (s : State) (d : DomId) (e : Fin 65536) (k : Fin 4) (v : Word),
      HostMayWrite d (0xC00000 + 16 * e.val + 4 * k.val) s → curMode s ≠ 5 → inHostRange e.val s = false →
      ∃ t, exec (.hostScheduleWrite d e k 0xF#4 v) s = .next t
        ∧ OnlyRegs [Reg.chipAccessErr d, Reg.chipAccessAddr d, Reg.chipAccessCnt d] s t
        ∧ fget (Reg.chipAccessErr d) ChipAccessErr.accKind t = 5)
  ∧ ((∀ (s : State) (domain id : Nat) (k : Int), ptpUp s = true → domain = fget Reg.bcmPtpCtl BcmPtpCtl.ptpDomain s →
      fget Reg.bcmPtpStatus BcmPtpStatus.ptpState s = 1 →
      ∃ t, exec (.ptpMessage domain (.announce id k)) s = .next t ∧ t.bc.ptpMaster = id ∧ t.bc.ptpGot = 0
        ∧ t.bc.ptpInterval = announceNs k ∧ t.bc.announceAt = s.now
        ∧ fget Reg.bcmPtpStatus BcmPtpStatus.ptpState t = 2
        ∧ (∀ o, o ∉ [Reg.bcmPtpStatus, Reg.bcmLogWr] → rd o t = rd o s) ∧ SameStreams s t)
    ∧ (∀ (s : State) (rate : Int), ptpUp s = true → s.bc.ptpGot = 3 → fget Reg.bcmPtpCtl BcmPtpCtl.servo s = 0 →
      refAct s ≠ 1 →
      ∃ t, exec (.ptpExchange rate) s = .next t ∧ fget Reg.bcmPtpStatus BcmPtpStatus.ptpState t = 3 ∧ t.bc.ptpGot = 0
        ∧ t.bc.servoHost = false ∧ (∀ o, o ∉ [Reg.bcmPtpStatus, Reg.bcmLogWr] → rd o t = rd o s) ∧ SameStreams s t)
    ∧ (∀ s : State, s.bc.servoHost = true → ptpRuns s = true → s.bc.adjAt + 2 * cyclesPerSecond ≤ s.now →
      ∃ t, exec .ptpHostStale s = .next t ∧ fget Reg.bcmPtpStatus BcmPtpStatus.hostStale t = 1
        ∧ t = { s with regs := t.regs, clock := { s.clock with rate := s.clock.tracked.getD s.clock.rate, fresh := false } }
        ∧ ∀ o, o ≠ Reg.bcmPtpStatus → rd o t = rd o s)
    ∧ (∀ (s : State) (f : Bool), exec (.refVEdge 3 f) s = .next { s with clock := { s.clock with
        edges := smPut 3 s.clock.timeBase s.clock.edges, edgeAt := smPut 3 s.now s.clock.edgeAt } })
    ∧ (∀ (s : State) (f : Bool), refBreach s.clock.timeBase s = false → (f = false ∨ domInterlaced (refDom s) s = false) →
      exec (.refVEdge 0 f) s = .next { s with clock := { s.clock with
        edges := smPut 2 s.clock.timeBase s.clock.edges, edgeAt := smPut 0 s.now s.clock.edgeAt, breaches := 0
        vEdge := some (s.clock.timeBase, f) } })
    ∧ (∀ s : State, refBreach s.clock.timeBase s = true → 1 ≤ s.clock.breaches → refAct s = 2 → s.clock.running = true →
      rckState s ≠ 3 →
      ∃ t, exec (.refVEdge 0 false) s = .next t ∧ rckState t = 3 ∧ fget Reg.rckStatus RckStatus.rckRefLost t = 1
        ∧ t = { s with regs := t.regs, clock := t.clock } ∧ ∀ o, o ∉ [Reg.rckStatus, Reg.icuSrcStat 64] → rd o t = rd o s)
    ∧ ∀ (s : State) (u : Int) (f g : Bool), s.clock.vEdge = some (u, f) → u + lockLimit ≤ s.clock.timeBase →
      (f = false ∨ domInterlaced (refDom s) s = false) →
      exec (.refVEdge 1 g) s = .next { s with clock := { s.clock with
        edges := smPut 0 s.clock.timeBase (smPut 1 s.clock.timeBase s.clock.edges), vEdge := none } })

/-- A domain's frame ends: a pending offset is taken and the walk begins anew, one frame on at least. The walker fires the entry that is
due: its action goes on its way to the target the entry names, and the walk moves on. -/
def Obligations.FramesEndAndWalkersSend : Prop :=
  (∀ (s : State) (r : RasterId), s.clock.running = true → domValid r s = true →
      walkerDue r s = none → frameOver r s = true →
      ∃ t, exec (.domainFrameEnd r) s = .next t ∧ (getRaster r t).ofs = (getRaster r s).newOfs.getD (getRaster r s).ofs
        ∧ (getRaster r t).newOfs = none ∧ (getRaster r t).stepping = false ∧ (getRaster r s).frame < (getRaster r t).frame
        ∧ (getRaster r t).next = 0 ∧ t.fs = s.fs ∧ t.comp = s.comp ∧ t.pending = s.pending)
  ∧ (∀ (s : State) (r : RasterId) (e : DueEntry), s.clock.running = true → domValid r s = true →
      walkerDue r s = some (e, false) → e.late = false → (e.at_ : Int) ≤ walkPos r s →
      ((getRaster r s).lastFire = 0 ∨ (getRaster r s).lastFire + 3 ≤ s.now) →
      ∃ t, exec (.scheduleEntryFire r) s = .next t
        ∧ (⟨seAction (seWord e.index 0 s), actionTarget (seAction (seWord e.index 0 s)) (seTarget (seWord e.index 1 s)),
            (seWord e.index 3 s).toNat, r.val, s.now⟩ : Action) ∈ t.clock.inFlight
        ∧ (∀ a ∈ s.clock.inFlight, a ∈ t.clock.inFlight) ∧ (getRaster r t).lastFire = s.now + 1
        ∧ t = { s with clock := t.clock })

/-- Actions reach their targets 64 mesh cycles after they fired (R74), and those of the chip take effect in BIVOUAC, RUN and MAINTAIN
(R166): NOP does nothing, TRIG_OUT drives a level or starts a pulse that its end takes back to the idle level, IRQ counts an event of
source 96 + SE_ARG[4:0], RING_MARK waits for a frame or is counted as delayed, and HBM_RETRAIN starts a retraining on an idle controller. -/
def Obligations.ChipActionsTakeEffect : Prop :=
  (∀ (s : State) (a : Action) (l : List Action) (u : State), u = arrived a l s →
    (∀ n : Fin 4096, takeAction actNop n s.clock.inFlight = some (a, l) → exec (.nop n) s = .next u)
    ∧ (∀ n : Fin 4, actsInMode u = true → takeAction actTrigOut n s.clock.inFlight = some (a, l) →
      ∃ t, exec (.trigOut n) s = .next t ∧ t = { u with clock := { u.clock with trigOut := t.clock.trigOut, trigEnd := t.clock.trigEnd }, outbox := t.outbox }
        ∧ smGet 0 n.val t.clock.trigOut = a.arg % 65536 + 1
        ∧ smFind n.val t.clock.trigEnd = some (a.dom, domE a.dom u + a.arg % 65536 * (spl8 a.dom u : Nat))
        ∧ (a.arg % 65536 = 0 → t.outbox = u.outbox ++ [.pins n.val (decide (a.arg / 65536 % 2 = 1))])
        ∧ (a.arg % 65536 ≠ 0 → t.outbox = u.outbox ++ [.pins n.val (!trigIdle n u)])
        ∧ ∀ k, k ≠ n.val → smGet 0 k t.clock.trigOut = smGet 0 k u.clock.trigOut)
    ∧ (∀ n : Fin 4096, actsInMode u = true → takeAction actIrq n s.clock.inFlight = some (a, l) →
      ∃ t, exec (.irqAction n) s = .next t ∧ OnlyRegs [Reg.icuSrcStat (96 + a.arg % 32)] u t
        ∧ fget (Reg.icuSrcStat (96 + a.arg % 32)) IcuSrcStat.count t
            = min 255 (fget (Reg.icuSrcStat (96 + a.arg % 32)) IcuSrcStat.count u + 1)
        ∧ (fget (Reg.icuSrcStat (96 + a.arg % 32)) IcuSrcStat.count u = 255 →
            fget (Reg.icuSrcStat (96 + a.arg % 32)) IcuSrcStat.ovf t = 1))
    ∧ (∀ n : Fin 4096, actsInMode u = true → takeAction actRingMark n s.clock.inFlight = some (a, l) →
      ∃ t, exec (.ringMark n) s = .next t
        ∧ (ringState u = 2 ∨ ringState u = 3 →
            t = { u with ring := { u.ring with marks := u.ring.marks ++ [(a.dom, BitVec.ofNat 32 a.arg)] } })
        ∧ (ringState u ≠ 2 → ringState u ≠ 3 → OnlyRegs [Reg.lanRingMark] u t
          ∧ fget Reg.lanRingMark LanRingMark.marksDelayed t
              = min (fget Reg.lanRingMark LanRingMark.marksDelayed u + 1) (2 ^ LanRingMark.marksDelayed.width - 1)))
    ∧ ∀ (c : StackId) (ch : Fin 16), actsInMode u = true →
      takeAction actHbmRetrain (16 * c + ch) s.clock.inFlight = some (a, l) → memState c u ≠ 2 → (getMemCtl c u).training = 0 →
      ∃ t, exec (.hbmRetrain c ch) s = .next t ∧ (getMemCtl c t).training = ch.val + 1 ∧ (getMemCtl c t).autoTraining = false
        ∧ fget (Reg.memRetrainCnt c) MemRetrainCnt.retrainCnt t
            = (fget (Reg.memRetrainCnt c) MemRetrainCnt.retrainCnt u + 1) % 2 ^ MemRetrainCnt.retrainCnt.width
        ∧ t = { u with regs := t.regs, fs := { u.fs with ctls := t.fs.ctls } }
        ∧ ∀ o, o ≠ Reg.memRetrainCnt c → rd o t = rd o u)
  ∧ ∀ (s : State) (n : Fin 4), 2 ≤ smGet 0 n.val s.clock.trigOut → pulseOver n s = true →
      ∃ t, exec (.trigOutPulseEnd n) s = .next t
        ∧ t = { s with clock := { s.clock with trigOut := t.clock.trigOut }, outbox := t.outbox }
        ∧ smGet 0 n.val t.clock.trigOut = 0 ∧ t.outbox = s.outbox ++ [.pins n.val (trigIdle n s)]
        ∧ ∀ k, k ≠ n.val → smGet 0 k t.clock.trigOut = smGet 0 k s.clock.trigOut

/-- In RUN, HANDOVER of a pending set that passes its check copies every shadow register to its active one, counts the copy and clears
PENDING (R224, R225); CAPTURE_ARM arms the next frame of a capturing pipeline (R194). PIC_START in RUN on an enabled pipeline whose home
region is up: an encoder starts the next picture index with its kind, references and sets (R215, R217, R219, R228), and a decoder takes
the oldest coded picture (R284). -/
def Obligations.HandoverAndPictureStart : Prop :=
  (∀ (s : State) (p : PipeId) (a : Action) (l : List Action) (u : State), u = arrived a l s →
      (takeAction actHandover p s.clock.inFlight = some (a, l) → curMode u = 3 → pipeEnabled p u = true → shadowPending p u = true →
        fbit (Reg.pipHandover p) PipHandover.hoHold u = false → (setCheck p 1 u).1 = 0 →
        ∃ t, exec (.handover p) s = .next t
          ∧ (∀ o ∈ shadowOffsets, rd (pipWindow p + o - 0x100) t = rd (pipWindow p + o) u)
          ∧ shadowPending p t = false ∧ (getPipe p t).handedOver = true ∧ (getPipe p t).seedWritten = false
          ∧ fget (Reg.pipHandover p) PipHandover.hoCount t
              = (fget (Reg.pipHandover p) PipHandover.hoCount u + 1) % 2 ^ PipHandover.hoCount.width
          ∧ t = { u with regs := t.regs, pipes := t.pipes } ∧ BesidePipe p u t ∧ ∀ q, q ≠ p.val → getPipe q t = getPipe q u)
      ∧ (takeAction actCaptureArm p s.clock.inFlight = some (a, l) → captures p u = true →
        ∃ t, exec (.captureArm p) s = .next t ∧ t = { u with pipes := t.pipes }
          ∧ getPipe p t = { getPipe p u with capArmed := true } ∧ ∀ q, q ≠ p.val → getPipe q t = getPipe q u))
  ∧ (∀ (s : State) (p : PipeId) (a : Action) (l : List Action) (u : State), u = arrived a l s →
      takeAction actPicStart p s.clock.inFlight = some (a, l) → curMode u = 3 → homeReady p u = true →
      pipeEnabled p u = true → (getPipe p u).activeWritten = false →
      (pipeDecodes p u = false → skipsField p a.arg u = false →
        (∀ z ∈ (getPipe p u).pics, z.idx ≠ (getPipe p u).next ∧ (z.complete = true ∨ z.budgeted = true)) →
        ∃ t y, exec (.picStart p .encode) s = .next t ∧ (getPipe p t).next = (getPipe p u).next + 1
          ∧ (getPipe p t).pics = (getPipe p u).pics ++ [y] ∧ y.idx = (getPipe p u).next
          ∧ y.kind = picKind (paramsOf p 0 u) (getPipe p u).next ∧ y.refs = refList (paramsOf p 0 u) y.idx y.irap
          ∧ y.sets = (paramsOf p 0 u).word ∧ y.field2 = decide (a.arg % 2 = 1)
          ∧ y.complete = false ∧ t.clock = u.clock ∧ t.fs.mem = u.fs.mem ∧ t.comp = u.comp ∧ t.ports = u.ports
          ∧ ∀ q, q ≠ p.val → getPipe q t = getPipe q u)
      ∧ ∀ (i : StreamPic) (c : CodedPic) (cs : List CodedPic), pipeDecodes p u = true → a.arg % 2 = 0 →
        (getPipe p u).coded = c :: cs → (∀ w, hostLine w u = none) →
        ∃ t, exec (.picStart p (.decode i)) s = .next t ∧ (getPipe p t).next = (getPipe p u).next + 1 ∧ (getPipe p t).coded = cs
          ∧ t.clock = u.clock ∧ t.fs.mem = u.fs.mem ∧ t.comp = u.comp ∧ t.ports = u.ports
          ∧ ∀ q, q ≠ p.val → getPipe q t = getPipe q u)

/-- In RUN, MARGIN_MARK flags a picture that is behind, and ROW_DEADLINE takes its count as due and flags a miss (R86, R87). EMIT sends
the held picture that is next in output order, or repeats the last one after a picture that did not come (R293, R296); RELEASE hands a
picture, with those before it, to the scheduler of a port (R78, R502). -/
def Obligations.MarksDeadlinesEmitAndRelease : Prop :=
  (∀ (s : State) (p : PipeId) (y : Pic) (a : Action) (l : List Action) (u : State), u = arrived a l s → curMode u = 3 →
      openPic p u = some y →
      (takeAction actMarginMark p s.clock.inFlight = some (a, l) → y.unitsDone < min (a.arg % 65536) y.unitCount →
        ∃ t, exec (.marginMark p) s = .next t ∧ fget (Reg.pipStatus p) PipStatus.inMargin t = 1
          ∧ (∃ z ∈ (getPipe p t).pics, z.idx = y.idx ∧ z.flags.testBit (if pipeDecodes p u then 5 else 2) = true)
          ∧ t = { u with regs := t.regs, pipes := t.pipes } ∧ BesidePipe p u t
          ∧ ∀ q, q ≠ p.val → getPipe q t = getPipe q u)
      ∧ (takeAction actRowDeadline p s.clock.inFlight = some (a, l) → y.complete = false →
        ∃ t, exec (.rowDeadline p) s = .next t
          ∧ (∃ z ∈ (getPipe p t).pics, z.idx = y.idx ∧ z.due = min (a.arg % 65536) y.unitCount
              ∧ z.fullFired = decide (y.unitCount ≤ a.arg % 65536)
              ∧ z.missed = (y.missed || decide (y.unitsDone < min (a.arg % 65536) y.unitCount)))
          ∧ (y.unitsDone < min (a.arg % 65536) y.unitCount → fget (Reg.pipStatus p) PipStatus.deadlineMiss t = 1)
          ∧ t = { u with regs := t.regs, pipes := t.pipes } ∧ BesidePipe p u t
          ∧ ∀ q, q ≠ p.val → getPipe q t = getPipe q u))
  ∧ (∀ (s : State) (a : Action) (l : List Action) (u : State), u = arrived a l s → curMode u = 3 →
      (∀ (p : PipeId) (e : PipeEntry) (y : Pic) (h : HeldPic) (rest : List HeldPic),
        takeAction actEmit p s.clock.inFlight = some (a, l) → pipeEntry p u = some e → pipeDecodes p u = true →
        pipeEnabled p u = true → subPicture p u = false → (getPipe p u).repeatNext = false →
        outPic p (·.emitDone) u = some y → (∀ z ∈ (getPipe p u).pics, z.idx < y.idx → z.emitDone = true) →
        y.emitBegun = false → y.missed = false → waitingPics y.idx (getPipe p u) = h :: rest → y.depth ≤ rest.length →
        ∃ t, exec (.emit p) s = .next t ∧ t.outbox = u.outbox ++ [.picture p h.idx] ∧ (getPipe p t).lastEmit = h.idx + 1
          ∧ t.clock = u.clock ∧ t.comp = u.comp ∧ t.pwr = u.pwr)
      ∧ (∀ p : PipeId, takeAction actEmit p s.clock.inFlight = some (a, l) → (pipeEntry p u).isSome = true →
        pipeDecodes p u = true → pipeEnabled p u = true → (getPipe p u).repeatNext = true →
        ∃ t, exec (.emit p) s = .next t ∧ (getPipe p t).repeatNext = false
          ∧ t.outbox = u.outbox ++ [.picture p (((getPipe p u).lastOut.map (·.idx)).getD 0xFFFFFFFF)]
          ∧ t.clock = u.clock ∧ t.comp = u.comp ∧ t.pwr = u.pwr)
      ∧ ∀ (n : PortId) (e : PortEntry) (q : Pic) (allow : Nat), takeAction actRelease n s.clock.inFlight = some (a, l) →
        portEntry n u = some e → e.egress = true → e.pipe < 1024 → sptEnabled n u = true →
        outPic e.pipe (fun z => decide (z.idx < (getPort n u).relNext)) u = some q → (getPort n u).relNext ≤ q.idx →
        (∀ z ∈ (getPipe e.pipe u).pics, z.units = []) →
        allow = (if subPicture e.pipe u && !q.fullFired then q.due else q.unitCount) →
        ∃ t, exec (.release n) s = .next t ∧ smFind q.idx (getPort n t).relAllowed = some allow
          ∧ (getPort n t).relNext = (if q.unitCount ≤ allow then q.idx + 1 else q.idx)
          ∧ t = { u with pipes := t.pipes, ports := t.ports } ∧ ∀ k, k ≠ n.val → getPort k t = getPort k u)

/-- Region actions in RUN: a gated region comes up, a READY one is gated and a point is asked for once the blocks are idle; else the
action waits, and is taken when the region is idle (R90 to R92, R637, R638). A gated region's cells lose what they hold, and its patch
memory is reloaded as it comes up (R637); an ACTIVE region with no work returns to READY (R171). A region left READY in BIVOUAC or
MAINTAIN is gated once its blocks are idle. -/
def Obligations.RegionActionsMovePowerStates : Prop :=
  ((∀ (s : State) (r : RegionId) (a : Action) (l : List Action) (u : State), u = arrived a l s → curMode u = 3 →
      (∀ c code, (c = Instr.regionUp r ∧ code = actRegionUp ∧ rgcState r u = 0 ∧ regionHeld r u = false
          ∨ c = .regionGate r ∧ code = actRegionGate ∧ rgcState r u = 1
          ∨ c = .regionDvfs r ∧ code = actRegionDvfs ∧ a.arg % 4 ≠ 3 ∧ u.bc.ivrHold.contains r.val = false) →
        takeAction code r s.clock.inFlight = some (a, l) → waitingActs r u = [] → blocksIdle r u = true →
        ∃ t, exec c s = .next t
          ∧ rgcState r t = (if code = actRegionUp then 1 else if code = actRegionGate then 0 else rgcState r u)
          ∧ (code = actRegionUp → ∀ b < 8, (getBlock r b t).patch = (getRegion r u).patch)
          ∧ (code = actRegionGate → ∀ b < 8, (getBlock r b t).sram = [] ∧ (getBlock r b t).lines = [] ∧ (getBlock r b t).patch = []
            ∧ (getBlock r b t).ropes = (getBlock r b u).ropes)
          ∧ (code = actRegionDvfs → askedPoint r t = a.arg % 4) ∧ (∀ q < 16, q ≠ r.val → rgcState q t = rgcState q u)
          ∧ t.clock = u.clock ∧ t.fs = u.fs ∧ t.comp = u.comp ∧ t.pipes = u.pipes ∧ t.pwr = u.pwr)
      ∧ (takeAction actRegionUp r s.clock.inFlight = some (a, l) → blocksIdle r u = false → rgcState r u = 0 → regionHeld r u = false →
        ∃ t, exec (.regionUp r) s = .next t ∧ waitingActs r t = waitingActs r u ++ [.up]
          ∧ (∀ q, q ≠ r.val → waitingActs q t = waitingActs q u) ∧ t = { u with bc := { u.bc with waiting := t.bc.waiting } }))
    ∧ ∀ (s : State) (r : RegionId),
      (∀ acts, waitingActs r s = .up :: acts → blocksIdle r s = true → rgcState r s = 0 → regionHeld r s = false →
        ∃ t, exec (.regionActionAtIdle r) s = .next t ∧ rgcState r t = 1 ∧ waitingActs r t = acts ∧ (getRegion r t).upAt = s.now
          ∧ OnlyRegs [Reg.rgcStatus r] { s with bc := t.bc, blocks := t.blocks, regions := t.regions } t)
      ∧ (rgcState r s = 2 → regionWork r s = false →
        ∃ t, exec (.regionIdle r) s = .next t ∧ rgcState r t = 1 ∧ OnlyRegs [Reg.rgcStatus r] s t))
  ∧ (∀ (s : State) (r : RegionId), (getRegion r s).regateDue = true → (curMode s = 2 ∨ curMode s = 4) →
      rgcState r s = 1 → blocksIdle r s = true →
      ∃ t, exec (.recomposeRegate r) s = .next t ∧ rgcState r t = 0 ∧ (∀ q < 16, q ≠ r.val → rgcState q t = rgcState q s)
        ∧ (getRegion r t).regateDue = false ∧ t.fs = s.fs ∧ t.comp = s.comp ∧ t.pwr = s.pwr ∧ t.pipes = s.pipes ∧ t.pending = s.pending)

/-- The decoupling queues (R334 to R341): with no other requester, a token of the row unit joins the queue, or another block's the
segment, and one read leaves from its front; a producer on a full queue stalls and is counted; SEGMENT_MOVE moves one token between queue
and segment; and a host write sets the level. The requester granted goes to the end of the turn (R21). A cairn counts its work and keeps
the largest gap; with an abort waiting, an abortable routine stops there and leaves a resume record (R353 to R355). -/
def Obligations.QueuesMoveTokensAndCairnsTakeAborts : Prop :=
  (∀ (s : State) (r : RegionId) (b : BlockId) (q : Fin 2) (who : Fin 13) (x : Dq), x = getDq r b q s → blockWorks r b s = true →
      (∀ (k : BitVec 128) (z : Dq),
        (∀ far : Bool, nextToken r b q s = some (k, z) → (dqDecodes r b q s = true ∨ dqSegment r b q s = false ∧ far = false) →
          x.writeSide.used = false → x.writeSide.waiting = [] → dqHolds x = false →
          ∃ t, exec (.dqTokenWrite r b q who far) s = .next t
            ∧ getDq r b q t = { z with
                tokens := z.tokens ++ [k], wr := (z.wr + 1) % 16384, wrCopy := (z.wr + 1) % 16384
                writeSide := ⟨[], (who.val + 1) % 13, true⟩ }
            ∧ fget (Reg.dqStatus r b q) DqStatus.dqFill t = x.tokens.length + 1
            ∧ OnlyRegs [Reg.dqStatus r b q, Reg.dqHiwater r b q, Reg.seqStatus r b, Reg.icuSrcStat (512 + 64 * r + 4 * b + 1 + q)]
                { s with blocks := t.blocks } t)
        ∧ (farToken r b q s = some (k, z) → dqDecodes r b q s = false → z.segment.length < 65536 →
          ∃ t, exec (.dqTokenWrite r b q who true) s = .next t
            ∧ getDq r b q t = { z with segment := z.segment ++ [k], moved := z.moved + 1 }
            ∧ t = { s with blocks := t.blocks, fs := { s.fs with wants := t.fs.wants } }))
      ∧ (∀ far : Bool, dqDecodes r b q s = true → 8192 ≤ x.tokens.length →
        ∃ t, exec (.dqTokenWrite r b q who far) s = .next t
          ∧ getDq r b q t = { x with writeSide := x.writeSide.ask ⟨who, 0, none⟩ }
          ∧ OnlyRegs [Reg.dqStatus r b q, Reg.dqStallCnt r b q] { s with blocks := t.blocks } t
          ∧ fget (Reg.dqStatus r b q) DqStatus.dqStall t = 1
          ∧ fget (Reg.dqStallCnt r b q) DqStallCnt.dqStallCnt t
              = (fget (Reg.dqStallCnt r b q) DqStallCnt.dqStallCnt s + 1) % 2 ^ DqStallCnt.dqStallCnt.width)
      ∧ (∀ (k : BitVec 128) (l : List (BitVec 128)), x.tokens = k :: l → x.readSide.used = false → x.readSide.waiting = [] →
        ((dqDecodes r b q s = false ∧ (getRope r b q s).stopped = false ∨ dqDecodes r b q s = true ∧ dqSegment r b q s = false) →
          ∃ t, exec (.dqTokenRead r b q who) s = .next t
            ∧ getDq r b q t = { x with
                tokens := l, rd := (x.rd + 1) % 16384, rdCopy := (x.rd + 1) % 16384
                readSide := ⟨[], (who.val + 1) % 13, true⟩ }
            ∧ fget (Reg.dqTokens r b q) DqTokens.dqTokens t
                = (fget (Reg.dqTokens r b q) DqTokens.dqTokens s + 1) % 2 ^ DqTokens.dqTokens.width
            ∧ OnlyRegs [Reg.dqStatus r b q, Reg.dqTokens r b q, Reg.seqStatus r b] { s with blocks := t.blocks } t)
        ∧ (dqSegment r b q s = true → dqDecodes r b q s = true → x.segment.length < 65536 →
          ∃ t, exec (.segmentMove r b q) s = .next t ∧ (getDq r b q t).tokens = l
            ∧ (getDq r b q t).segment = x.segment ++ [k]
            ∧ OnlyRegs [Reg.dqStatus r b q, Reg.dqTokens r b q]
                { s with blocks := t.blocks, fs := { s.fs with wants := t.fs.wants } } t))
      ∧ (∀ (k : BitVec 128) (l : List (BitVec 128)), x.segment = k :: l → dqSegment r b q s = true →
        (dqDecodes r b q s = true →
          ∃ t, exec (.dqTokenRead r b q who) s = .next t ∧ getDq r b q t = { x with segment := l, moved := x.moved + 1 }
            ∧ t = { s with blocks := t.blocks, fs := { s.fs with wants := t.fs.wants } })
        ∧ (∀ z : Dq, segmentToken r b q s = some (k, z) → dqDecodes r b q s = false → dqHolds x = false → x.writeSide.used = false →
          x.writeSide.waiting = [] →
          ∃ t, exec (.segmentMove r b q) s = .next t ∧ (getDq r b q t).tokens = x.tokens ++ [k]
            ∧ (getDq r b q t).segment = l ∧ (getDq r b q t).fed = z.fed
            ∧ OnlyRegs [Reg.dqStatus r b q, Reg.dqHiwater r b q, Reg.icuSrcStat (512 + 64 * r + 4 * b + 1 + q)]
                { s with blocks := t.blocks, fs := { s.fs with wants := t.fs.wants } } t))
      ∧ ∀ (d : DomId) (v : Word), HostMayWrite d (Reg.dqCtl r b q) s → curMode s ≠ 5 →
        ∃ t, exec (.dqLevelWrite d r b q v) s = .next t ∧ OnlyRegs [Reg.dqCtl r b q] s t
          ∧ fget (Reg.dqCtl r b q) DqCtl.dqLevel t = getF DqCtl.dqLevel v
          ∧ fget (Reg.dqCtl r b q) DqCtl.dqIrqEn t = getF DqCtl.dqIrqEn v)
  ∧ (∀ (s : State) (r : RegionId) (b : BlockId) (gap progress : Nat), seqState r b s = 1 →
      ((getBlock r b s).requests = [] → gap < 2 ^ SeqStatus.seqCairnGap.width →
        ∃ t, exec (.cairn r b gap progress) s = .next t ∧ (getBlock r b t).progress = progress
          ∧ (getBlock r b t).cairn = (getBlock r b s).cairn + 1 ∧ seqState r b t = 1
          ∧ fget (Reg.seqStatus r b) SeqStatus.seqCairnGap t = max gap (fget (Reg.seqStatus r b) SeqStatus.seqCairnGap s)
          ∧ OnlyRegs [Reg.seqStatus r b] { s with blocks := t.blocks } t)
      ∧ (∀ cause, (getBlock r b s).requests = [.abort cause] → abortable (fget (Reg.seqStatus r b) SeqStatus.seqRoutine s) = true →
        ∃ t, exec (.cairn r b gap progress) s = .next t ∧ seqState r b t = 3 ∧ (getBlock r b t).requests = []
          ∧ fget (Reg.seqStatus r b) SeqStatus.seqResumeValid t = 1
          ∧ rd (Reg.seqResume r b 1) t = BitVec.ofNat 32 progress
          ∧ (∀ o, o ∉ [Reg.seqStatus r b, Reg.icuSrcStat (512 + 64 * r.val + 4 * b.val + 3)] → (∀ i < 8, o ≠ Reg.seqResume r b i) →
              rd o t = rd o s)
          ∧ t = { s with regs := t.regs, blocks := t.blocks }))

/-- Row units and Rope pairs: a free block in its pipeline's slot takes the next row unit, once it may start, and writes its checkpoint in
two copies (R46, R196, R263, R595); an idle Rope pair takes the next entropy partition (R320); and a row unit that can complete leaves its
block idle (R46, R323), an encoded one once its bytes have found their buffers (R326). -/
def Obligations.RowUnitsAreHandedOutAndDone : Prop :=
  (∀ (s : State) (p : PipeId) (r : RegionId) (b : BlockId) (y : Pic),
    (∀ (k : Nat) (work : List LocalReq) (poisoned : List (Nat × Nat)) (black : List (Nat × Nat × Nat)),
      curMode s = 3 → homeReady p s = true → blockFree p r b s = true →
      slotOf p r b s = some (fget (Reg.blkStatus r b) BlkStatus.blkCurSlot s) → (getBlock r b s).readyAt ≤ s.now →
      nextUnit (getPipe p s) = some (y, k) → picAt p y.idx s = some y → unitReady p y k s = true →
      ∃ t c, exec (.rowUnitHandout p r b work poisoned black) s = .next t
        ∧ (getBlock r b t).running = some (p.val, y.idx, k / y.tiles, k % y.tiles)
        ∧ seqState r b t = 1 ∧ fget (Reg.seqStatus r b) SeqStatus.seqRoutine t = 1
        ∧ rgcState r t = (if rgcState r s = 1 then 2 else rgcState r s)
        ∧ (∃ z ∈ (getPipe p t).pics, z.idx = y.idx ∧ (getUnit k z).block = 8 * r.val + b.val + 1)
        ∧ c.unit = (p.val, y.idx, k / y.tiles, k % y.tiles) ∧ smGet none (2 * b.val) (getRegion r t).ckpts = some c
        ∧ smGet none (2 * b.val + 1) (getRegion r t).ckpts = some c
        ∧ t = { s with regs := t.regs, blocks := t.blocks, pipes := t.pipes, regions := t.regions, injs := t.injs
                       fs := { s.fs with belayWants := t.fs.belayWants } }
        ∧ (∀ o, o ∉ [Reg.seqStatus r b, Reg.rgcStatus r, Reg.pipStatus p, Reg.icuSrcStat (pipeSource p)] →
            (∀ i j q, o ≠ Reg.dqStatus i j q) → rd o t = rd o s)
        ∧ ∀ g, g ≠ p.val → getPipe g t = getPipe g s)
    ∧ ∀ (q : Fin 2) (cavlc : Bool) (e : PipeEntry) (k coder : Nat), curMode s = 3 → homeReady p s = true → pipeEntry p s = some e →
      (blocksInService e s).contains (8 * r.val + b.val) = true → blkRole r b s = 1 → (getRegion r s).stopped = false →
      fbit (Reg.ropeStatus r b q) RopeStatus.ropeBusy s = false → nextPart (getPipe p s) = some (y, k) →
      coder = ropeCoder (codecOf e.pers)
        (if persDecodes e.pers then cavlc else (picParams p y s).fld 0x100 EncCodec.cavlc == 1) →
      ∃ t, exec (.partitionAssign p r b q cavlc) s = .next t
        ∧ fbit (Reg.ropeStatus r b q) RopeStatus.ropeBusy t = true
        ∧ fget (Reg.ropeStatus r b q) RopeStatus.ropePipe t = p.val
        ∧ fget (Reg.ropeStatus r b q) RopeStatus.ropeCoder t = coder
        ∧ getRope r b q t = loadEngines (Config.engineStart coder)
        ∧ (∃ z ∈ (getPipe p t).pics, z.idx = y.idx ∧ smGet 0 k z.parts = ropeId r b q)
        ∧ t = { s with regs := t.regs, pipes := t.pipes, blocks := t.blocks, regions := t.regions }
        ∧ ∀ g, g ≠ p.val → getPipe g t = getPipe g s)
  ∧ ∀ (s : State) (r : RegionId) (b : BlockId) (out : UnitIn) (y : Pic) (g i row col : Nat),
      (getBlock r b s).running = some (g, i, row, col) → (getBlock r b s).reactions = [] →
      (getBlock r b s).requests = [] → seqState r b s ≠ 4 → picAt g i s = some y → unitCan g r b row col y s = true →
      (pipeDecodes g s = true ∨ pipeDecodes g s = false ∧ ∀ q c z own, q = picParams g y s → c = codeUnit g y row col s →
        z = countUnit q y row col c → own = ownBytes q y row col c.raw →
        (storeBoth g own (if z.unitsDone = z.unitCount then tailUnits q z (z.bytes + own.length) else []).flatten s).1.isSome = true) →
      ∃ t, exec (.rowUnitComplete r b out) s = .next t ∧ (getBlock r b t).running = none
        ∧ (∃ z ∈ (getPipe g t).pics, z.idx = i ∧ z.unitsDone = y.unitsDone + 1 ∧ (getUnit (unitIndex y row col) z).done = true)
        ∧ t.comp = s.comp ∧ t.pwr = s.pwr ∧ t.chans = s.chans ∧ t.cmd = s.cmd

/-- PICTURE_COMPLETE: an encoded picture moves the rate controller's buffer level on and is the history of its kind (R255, R259, R260); a
decoded one that is held shows in TAINT_NOW whether it is tainted (R311). -/
def Obligations.PictureCompletionUpdatesItsPipeline : Prop :=
  ∀ (s : State) (p : PipeId) (y : Pic), (getPipe p s).pics.find? (fun z => !z.complete) = some y → y.unitsDone = y.unitCount →
    (pipeDecodes p s = false →
      ∃ t, exec (.pictureComplete p) s = .next t
        ∧ ((picParams p y s).modelKept = false → rd (Reg.rcFullness (rcActive p)) t = 0)
        ∧ ((picParams p y s).modelKept = true → rd (Reg.rcFullness (rcActive p)) t
            = BitVec.ofInt 32 (nextLevel (picParams p y s) (sint (rd (Reg.rcFullness (rcActive p)) s)) (8 * (y.bytes : Int))
                (modelInc (picParams p y s) y.idx
                  (pictureRate (pipeDomain p s) ((picParams p y s).fm (pipeDomain p s) s) s))))
        ∧ (y.intra = true → (getPipe p t).hadIntra = true ∧ (getPipe p t).bIntra = 8 * y.bytes ∧ (getPipe p t).actIntra = y.act)
        ∧ (y.intra = false → (getPipe p t).hadInter = true ∧ (getPipe p t).bInter = 8 * y.bytes ∧ (getPipe p t).actInter = y.act)
        ∧ t = { s with regs := t.regs, pipes := t.pipes } ∧ BesidePipe p s t ∧ ∀ g, g ≠ p.val → getPipe g t = getPipe g s)
    ∧ (pipeDecodes p s = true → (pipeEntry p s).isSome = true → picAt p y.idx s = some y → y.substituted = false →
      y.stored = true → y.bufs = [] →
      ∃ t, exec (.pictureComplete p) s = .next t ∧ fget (Reg.decStatus p) DecStatus.taintNow t = (if y.tainted then 1 else 0)
        ∧ t = { s with regs := t.regs, pipes := t.pipes, freeCtr := t.freeCtr } ∧ BesidePipe p s t
        ∧ ∀ g, g ≠ p.val → getPipe g t = getPipe g s)

/-- The spare cell: a cell whose pass has taken its time and passed is the spare (R601), the spare role moves on at a picture boundary
(R19), a cell that fails its test is retired (R603), and a block that passes its self-test is on standby (R608). -/
def Obligations.SparesTestAndMove : Prop :=
  ∀ (s : State) (r : RegionId) (b : BlockId),
    (∀ c : Nat, (getBlock r b s).passDone = true → atPictureBoundary r b s = true → blkSpare r b s < 12 →
      ((List.range 11).map fun i => (blkSpare r b s + 1 + i) % 12).find? (fun c => cellOk r b c s) = some c →
      ∃ t, exec (.spareMove r b) s = .next t ∧ blkSpare r b t = c
        ∧ cellRole r b (blkSpare r b s) t = cellRole r b c s ∧ cellRole r b c t = 0
        ∧ (∀ k < 12, k ≠ c → k ≠ blkSpare r b s → cellRole r b k t = cellRole r b k s)
        ∧ OnlyRegs [Reg.blkStatus r b, Reg.blkCellRole r b] { s with blocks := t.blocks } t)
    ∧ (∀ c : Nat, (rgcState r s = 1 ∨ rgcState r s = 2) → passTaken r b s = true →
      c = (if (getBlock r b s).testing ≠ 0 then (getBlock r b s).testing - 1 else blkSpare r b s) → c < 12 →
      (∃ t, exec (.inservicePassDone r b true) s = .next t ∧ blkSpare r b t = c
        ∧ getBlock r b t = { getBlock r b s with testing := 0, passDone := true, passAt := s.now }
        ∧ OnlyRegs [Reg.blkStatus r b] { s with blocks := t.blocks } t)
      ∧ (s.pwr.bypass = false → entryLevel (.block r b) 4 s < 2 →
        ∃ t, exec (.inservicePassDone r b false) s = .next t ∧ cellOk r b c t = false
          ∧ fget (Reg.fltStatus (faultBase (.block r b))) FltStatus.lastClass t = 4
          ∧ t = { s with regs := t.regs, blocks := t.blocks, faultAt := t.faultAt }))
    ∧ ((getBlock r b s).selfTest = true → (getBlock r b s).requests = [] → seqState r b s ≠ 4 →
      (∃ t, exec (.blockSelftestDone r b true) s = .next t ∧ blkRole r b t = 2 ∧ (getBlock r b t).selfTest = false
        ∧ seqState r b t = 0
        ∧ (fget (Reg.rgcStatus r) RgcStatus.rgcStandby s = 0xF → fget (Reg.rgcStatus r) RgcStatus.rgcStandby t = b.val)
        ∧ OnlyRegs [Reg.blkStatus r b, Reg.seqStatus r b, Reg.rgcStatus r] { s with blocks := t.blocks } t)
      ∧ ∃ t, exec (.blockSelftestDone r b false) s = .next t ∧ (getBlock r b t).selfTest = false ∧ t.comp = s.comp)

/-- A fault of a block, a region or the chip below L3 is recorded in its unit's registers at the level of R586: the status, the newest
history entry, the event count and the unacknowledged count (R586, R592, R593). Acknowledging clears the unacknowledged count of a class,
or of every class, and AUTO_ACK_S seconds do (R587, R588); an admitted injection is armed, a refused one says why (R619, R620), and one
below L3 whose delay has passed is recorded as injected (R621). -/
def Obligations.FaultsAreRecordedAckedAndInjected : Prop :=
  (∀ (s : State) (c : Instr) (u : FaultUnit) (f : FaultIn), s.pwr.bypass = false →
      ((∃ r b, c = .blockFault r b [f] 0 0 ∧ u = .block r b ∧ f.cls ≠ 10 ∧ falseMismatch r b f s = false)
        ∨ (∃ r, c = .regionFault r [f] 0 ∧ u = .region r ∧ f.unit ≠ 3 ∧ (getRegion r s).excluded = 0)
        ∨ c = .chipFault [f] .none 0 ∧ u = .chip) →
      classOf u f.cls = true → isL4 f.cls = false → f.both = false → entryLevel u f.cls s < 2 →
      ∃ t, exec c s = .next t
        ∧ fget (Reg.fltStatus (faultBase u)) FltStatus.fault t = 1
        ∧ fget (Reg.fltStatus (faultBase u)) FltStatus.lastClass t = f.cls
        ∧ fget (Reg.fltStatus (faultBase u)) FltStatus.lastLevel t = entryLevel u f.cls s
        ∧ fget (Reg.fltStatus (faultBase u)) FltStatus.histHead t = nextHist u s
        ∧ rd64 (Reg.fltHistLo (faultBase u) (nextHist u s)) (Reg.fltHistHi (faultBase u) (nextHist u s)) t
            = historyEntry s.now false (entryLevel u f.cls s) f (faultPlace u f s)
        ∧ fget (Reg.fltEvtCnt (faultBase u)) FltEvtCnt.count t
            = min (fget (Reg.fltEvtCnt (faultBase u)) FltEvtCnt.count s + 1) (2 ^ FltEvtCnt.count.width - 1)
        ∧ unackOf u f.cls t = min 3 (unackOf u f.cls s + 1) ∧ lastFaultAt u f.cls t = s.now
        ∧ t.fs = s.fs ∧ t.pools = s.pools ∧ t.pipes = s.pipes ∧ t.comp = s.comp ∧ t.pwr = s.pwr ∧ t.now = s.now)
  ∧ (∀ (s : State) (u : FaultUnit),
      (∀ (d : DomId) (v : Word), HostMayWrite d (Reg.fltAck (faultBase u)) s →
        ∃ t, exec (.faultAck d u v) s = .next t ∧ OnlyRegs [Reg.fltUnack (faultBase u)] s t
          ∧ (getF FltAck.ackAll v = 1 → rd (Reg.fltUnack (faultBase u)) t = 0)
          ∧ (classOf u (getF FltAck.ackClass v) = true → unackOf u (getF FltAck.ackClass v) t = 0))
      ∧ (∀ c : Fin 64, fget (Reg.fltCtl (faultBase u)) FltCtl.autoAckS s ≠ 0 → classOf u c = true →
        lastFaultAt u c s + fget (Reg.fltCtl (faultBase u)) FltCtl.autoAckS s * cyclesPerSecond ≤ s.now →
        ∃ t, exec (.autoAck u c) s = .next t ∧ OnlyRegs [Reg.fltUnack (faultBase u)] s t ∧ unackOf u c t = 0)
      ∧ (∀ (d : DomId) (v : Word), HostMayWrite d (Reg.fltInject (faultBase u)) s → curMode s ≠ 5 → keyArmed s = true →
        getF FltInject.injGo v = 1 → getF FltInject.injClass v ≠ 0 →
        ∃ t, exec (.faultInject d u v) s = .next t ∧ keyArmed t = false
          ∧ fget (Reg.fltStatus (faultBase u)) FltStatus.injRefuse t = injCode u v s
          ∧ (injCode u v s = 0 → fget (Reg.fltStatus (faultBase u)) FltStatus.injArmed t = 1
            ∧ smFind (unitKey u) t.injs = some ⟨getF FltInject.injLevel v, getF FltInject.injClass v, getF FltInject.injUnit v,
                getF FltInject.injDelay v, match u with | .block _ _ => none | _ => some s.now⟩)
          ∧ (injCode u v s ≠ 0 → t.injs = s.injs)
          ∧ OnlyRegs [Reg.chipKeyState, Reg.fltInject (faultBase u), Reg.fltStatus (faultBase u)] { s with injs := t.injs } t)
      ∧ ∀ (j : Inj), smFind (unitKey u) s.injs = some j → injDue u j s = true → curMode s ≠ 5 → classOf u j.cls = true →
        isL4 j.cls = false → j.cls ≠ 10 → raiseLevel u j.cls j.level s < 2 →
        (∀ r, u = .region r → (getRegion r s).excluded = 0) →
        ∃ t, exec (.injectionFire u false []) s = .next t ∧ smFind (unitKey u) t.injs = none
          ∧ fget (Reg.fltStatus (faultBase u)) FltStatus.injFired t = 1
          ∧ fget (Reg.fltStatus (faultBase u)) FltStatus.injArmed t = 0
          ∧ fget (Reg.fltStatus (faultBase u)) FltStatus.lastClass t = j.cls
          ∧ fget (Reg.fltInjCnt (faultBase u)) FltEvtCnt.count t
              = min (fget (Reg.fltInjCnt (faultBase u)) FltEvtCnt.count s + 1) (2 ^ FltEvtCnt.count.width - 1)
          ∧ t.fs = s.fs ∧ t.pools = s.pools ∧ t.pipes = s.pipes ∧ t.comp = s.comp)

/-- Recovery: BELAY_RERUN reloads the checkpoint and re-runs the row unit with BLK_REPLAY (R595, R597), the standby block takes the role,
the personality, the slots and the work of the faulted one, which retires and tests itself (R605), and a resynchronised core is in step
(R26). -/
def Obligations.BelayAndStandbyKeepTheWork : Prop :=
  ∀ (s : State) (r : RegionId) (b : BlockId),
    (∀ (work : List LocalReq) (p i row col : Nat),
      (getBlock r b s).reactions.any (fun a => match a with | .rerun _ _ => true | .takeover => false) = true →
      (getBlock r b s).reactions.contains .takeover = false → blkRole r b s = 1 → seqState r b s ≠ 4 →
      (getBlock r b s).running = some (p, i, row, col) →
      ∃ t, exec (.belayRerun r b work) s = .next t ∧ (getBlock r b t).reactions = [] ∧ (getBlock r b t).running = (getBlock r b s).running
        ∧ fget (Reg.blkStatus r b) BlkStatus.blkReplay t = 1 ∧ seqState r b t = 1
        ∧ fget (Reg.seqStatus r b) SeqStatus.seqRoutine t = 3
        ∧ (∀ z ∈ (getPipe p s).pics, z.idx = i → ∃ w ∈ (getPipe p t).pics, w.idx = i ∧ w.belayRuns = z.belayRuns + 1
            ∧ (getUnit (unitIndex z row col) w).reruns = (getUnit (unitIndex z row col) z).reruns + 1)
        ∧ (∀ c y id, readCkpt r b s = some c → picAt p i s = some y → id = smGet 0 (unitPart p y row col s) y.parts →
            (id ≠ 0 → ropeAt id t = if partNext p y row col s then loadEngines c.engine else ropeAt id s) ∧ (getBlock r b t).half = c.half
            ∧ (getBlock r b t).patch = (getRegion r s).patch)
        ∧ t = { s with regs := t.regs, blocks := t.blocks, pipes := t.pipes, fs := { s.fs with belayWants := t.fs.belayWants } }
        ∧ ∀ o, o ∉ [Reg.blkStatus r b, Reg.blkCellRole r b, Reg.seqStatus r b] → (∀ i j q, o ≠ Reg.dqStatus i j q) → rd o t = rd o s)
    ∧ (∀ v, (getBlock r b s).reactions.contains .takeover = true → blkRole r b s = 1 → seqState r b s ≠ 4 →
      standbyOf r s = some v →
      ∃ t, exec (.standbyTakeover r b) s = .next t ∧ blkRole r v t = 1 ∧ blkRole r b t = 3
        ∧ fget (Reg.rgcStatus r) RgcStatus.rgcStandby t = 0xF
        ∧ fget (Reg.blkStatus r v) BlkStatus.blkPersonality t = fget (Reg.blkStatus r b) BlkStatus.blkPersonality s
        ∧ (∀ k < 8, rd (Reg.blkSlot r v k) t = rd (Reg.blkSlot r b k) s ∧ rd (Reg.blkSlot r b k) t = 0)
        ∧ (getBlock r b t).selfTest = true ∧ (getBlock r b t).running = none
        ∧ ((getBlock r b s).running.isSome = true → (getBlock r v t).running = (getBlock r b s).running)
        ∧ t.fs.mem = s.fs.mem ∧ t.pools = s.pools ∧ t.ports = s.ports ∧ t.pwr = s.pwr)
    ∧ exec (.rgcResyncDone r) s = .next (setRegion r { getRegion r s with resync := 0 } s)

/-- Capture (R192 to R197): an input frame opens the next capture picture or overruns, samples join their line, lines that did not come
are given up, and a clip source reads its next picture from the clip store; where the frame is captured whole, its second field begins
nothing. Data for pictures: a delta map, from host memory or HBM, is in force at once and for each picture that waited for it (R271,
R272), a coded picture is whole with its last byte (R283), and a partition that does not come is truncated data with UNDERFLOW (R287). -/
def Obligations.CaptureAndPictureData : Prop :=
  (∀ (s : State) (p : PipeId) (f2 : Bool),
      (captures p s = true → secondOfFrame p f2 s = false → (hasArmEntries p s = false ∨ (getPipe p s).capArmed = true) →
        ∃ t, exec (.inputFrameStart p f2) s = .next t ∧ t = { s with regs := t.regs, pipes := t.pipes } ∧ BesidePipe p s t
          ∧ (∀ g, g ≠ p.val → getPipe g t = getPipe g s)
          ∧ (capBusy (getPipe p s).capNext (getPipe p s) = true → fget (Reg.pipStatus p) PipStatus.captureOverrun t = 1
            ∧ (getPipe p t).capLive = 0 ∧ (getPipe p t).capCount = (getPipe p s).capCount)
          ∧ (capBusy (getPipe p s).capNext (getPipe p s) = false → (∀ o, rd o t = rd o s)
            ∧ (getPipe p t).capLive = (getPipe p s).capNext + 1 ∧ (getPipe p t).capCount = (getPipe p s).capCount + 1
            ∧ getCap (getPipe p s).capNext (getPipe p t) = ⟨(getPipe p s).capCount + 1, [], [], false, s.clock.timeBase, f2 && fieldsApart p s⟩))
      ∧ (secondOfFrame p f2 s = true → exec (.inputFrameStart p f2) s = .next s)
      ∧ (∀ (y x : Nat) (l : LineIn), captures p s = true → (getPipe p s).capLive ≠ 0 →
        y < (capParams p ((getPipe p s).capLive - 1) s).height →
        (getCap ((getPipe p s).capLive - 1) (getPipe p s)).gaveUp.contains y = false →
        ∃ t, exec (.captureLine p y x l) s = .next t ∧ t = { s with pipes := t.pipes }
          ∧ smFind y (getCap ((getPipe p s).capLive - 1) (getPipe p t)).lines
              = some (lineOf (getCap ((getPipe p s).capLive - 1) (getPipe p s)) y ++ [(x, l)])
          ∧ ∀ g, g ≠ p.val → getPipe g t = getPipe g s)
      ∧ (∀ (row : Nat) (y : Pic) (l : List Nat), openPic p s = some y → subPicture p s = true → pipeDecodes p s = false →
        y.complete = false →
        l = linesMissing (capParams p y.cap s).width (getCap y.cap (getPipe p s)) (rowLines (picParams p y s) (pipeChroma p s) row).1
          (rowLines (picParams p y s) (pipeChroma p s) row).2 → l ≠ [] →
        ∃ t, exec (.lineGiveUp p row) s = .next t ∧ fget (Reg.pipStatus p) PipStatus.srcIncomplete t = 1
          ∧ (∀ k ∈ l, k ∈ (getCap y.cap (getPipe p t)).gaveUp)
          ∧ (∃ z ∈ (getPipe p t).pics, z.idx = y.idx ∧ z.flags.testBit 6 = true)
          ∧ t = { s with regs := t.regs, pipes := t.pipes } ∧ BesidePipe p s t)
      ∧ ∀ (e : PipeEntry) (cv : Carve), pipeEntry p s = some e → captures p s = true → e.flags / 8 % 2 = 1 →
        secondOfFrame p f2 s = false → (∀ w, hostLine w s = none) →
        (hasArmEntries p s = false ∨ (getPipe p s).capArmed = true) → s.comp.carves[e.srcCarve]? = some cv →
        capBusy (getPipe p s).capNext (getPipe p s) = false →
        ∃ t, exec (.clipCapture p f2) s = .next t ∧ (getPipe p t).lastCap = (getPipe p s).capNext + 1 ∧ (getPipe p t).capLive = 0
          ∧ (getCap (getPipe p s).capNext (getPipe p t)).whole = true
          ∧ fget (Reg.encSrc (encActive p)) EncSrc.clipIndex t
              = (if (paramsOf p 0 s).fld 0x11C EncSrc.clipCount = 0 then 0
                 else ((paramsOf p 0 s).fld 0x11C EncSrc.clipIndex + 1) % (paramsOf p 0 s).fld 0x11C EncSrc.clipCount)
                % 2 ^ EncSrc.clipIndex.width
          ∧ t = { s with regs := t.regs, pipes := t.pipes })
  ∧ (∀ (s : State) (p : PipeId),
      (∀ (h : HostRead) (q : Params) (u : State), (getPipe p s).mapPending = true →
        q = (match (getPipe p s).pics.find? fun y => !y.mapReady with | some y => picParams p y s | none => paramsOf p 0 s) →
        (q.fld 0x580 RoiMapCtl.mapSrc = 1 → s.pwr.linkUp = true) →
        (q.fld 0x580 RoiMapCtl.mapSrc = 0 → rangeWaits (mapBase q) (mapBytes q) s = false) →
        u = (if q.fld 0x580 RoiMapCtl.mapSrc = 1 then { s with outbox := s.outbox ++
          [.hostRead (owner s glvDma (q.fld 0x580 RoiMapCtl.mapDma)) (mapBase q) (mapBytes q) false] } else s) →
        ∃ t, exec (.deltaMapReadDone p h) s = .next t ∧ (getPipe p t).mapPending = false
          ∧ (getPipe p t).map = mapEntries q (mapData q h u).1
          ∧ (∀ z ∈ (getPipe p t).pics, z.mapReady = true)
          ∧ (((getPipe p t).map.any fun m => m.isNone) = true → fget (Reg.rcStatus (rcActive p)) RcStatus.mapErr t = 1)
          ∧ OnlyRegs [Reg.rcStatus (rcActive p)] { (mapData q h u).2 with pipes := t.pipes } t)
      ∧ (∀ c : CodedPic, (getPipe p s).lateFor = none → (getPipe p s).coded.getLast? = some c →
        ∃ t, exec (.codedPictureReceived p) s = .next t ∧ t = { s with pipes := t.pipes }
          ∧ getPipe p t = { getPipe p s with coded := (getPipe p s).coded.dropLast ++ [{ c with whole := true }] }
          ∧ ∀ g, g ≠ p.val → getPipe g t = getPipe g s)
      ∧ (∀ y : Pic, (getPipe p s).pics.find? (fun z => !z.complete && !z.whole) = some y → subPicture p s = true →
        pipeDecodes p s = true →
        ∃ t, exec (.partitionDataTimeout p) s = .next t ∧ fget (Reg.decStatus p) DecStatus.underflow t = 1
          ∧ fget (Reg.decStatus p) DecStatus.event t = 1
          ∧ rd (Reg.decLastEvt p) t = BitVec.ofNat 32 (y.idx % 65536 * 65536 + 0x8001)
          ∧ (∃ z ∈ (getPipe p t).pics, z.idx = y.idx ∧ z.flags.testBit 4 = true)
          ∧ t = { s with regs := t.regs, pipes := t.pipes, freeCtr := t.freeCtr } ∧ BesidePipe p s t))

/-- Host writes to the parameter sets: a shadow register takes the word and sets PENDING (R223), DISCARD copies every active register back
(R230), and an active one takes the word at once, on an enabled pipeline with ACTIVE_WRITE (R228). Nuzel records: the oldest queued record
goes to its ring and REC_WR moves past it, to HBM byte for byte or, by channel REC_DMA and with the flushing read behind it, to host
memory (R244 to R246); one that does not fit is dropped and counted (R247). -/
def Obligations.ParametersAndRecords : Prop :=
  (∀ (s : State) (d : DomId) (p : PipeId), curMode s ≠ 5 →
      (∀ (set : Fin 3) (o : Fin 64) (v : Word) (n : RegName), HostMayWrite d (setOffset p set true o) s →
        regAt (fun g => pipeDecodes g s) (setOffset p set true o) = some (n, true) →
        ∃ t, exec (.shadowWrite d p set o v) s = .next t
          ∧ rd (setOffset p set true o) t = classWord (regFields n) v (rd (setOffset p set true o) s)
          ∧ shadowPending p t = true ∧ OnlyRegs [setOffset p set true o, Reg.pipShadowPending p] { s with pipes := t.pipes } t)
      ∧ (∀ (set : Fin 3) (o : Fin 64) (v : Word) (n : RegName), HostMayWrite d (setOffset p set false o) s →
        regAt (fun g => pipeDecodes g s) (setOffset p set false o) = some (n, false) → hasClass (regFields n) isHwu = true →
        ∃ t, exec (.activeWrite d p set o v false) s = .next t
          ∧ rd (setOffset p set false o) t = classWord (regFields n) v (rd (setOffset p set false o) s)
          ∧ (pipeEnabled p s = true → fget (Reg.pipStatus p) PipStatus.activeWrite t = 1)
          ∧ (∀ q, q ≠ setOffset p set false o → q ≠ Reg.pipStatus p → q ≠ Reg.icuSrcStat (pipeSource p) → rd q t = rd q s)
          ∧ t = { s with regs := t.regs, pipes := t.pipes })
      ∧ (HostMayWrite d (Reg.pipShadowPending p) s →
        ∃ t, exec (.shadowDiscard d p) s = .next t ∧ shadowPending p t = false ∧ (getPipe p t).seedWritten = false
          ∧ (∀ o ∈ shadowOffsets, rd (pipWindow p + o) t = rd (pipWindow p + o - 0x100) s)
          ∧ t = { s with regs := t.regs, pipes := t.pipes } ∧ BesidePipe p s t))
  ∧ (∀ (s : State) (p : PipeId) (e : PipeEntry) (r : List Byte) (rest : List (List Byte)), (getPipe p s).recs = r :: rest →
      pipeEntry p s = some e → curMode s ≠ 5 →
      (∀ w o used : Nat, w = (rd (Reg.pipRecWr p) s).toNat → o = w % ringSize p s →
        used = (w + 2 ^ 32 - (rd (Reg.pipRecRd p) s).toNat) % 2 ^ 32 → o + r.length ≤ ringSize p s →
        (used + r.length ≤ ringSize p s → (getPipe p s).recGap = false →
          (∀ c : Carve, e.recCarve ≠ 0xFFFF → s.comp.carves[e.recCarve]? = some c → ringWaits p s = false → Canonical s →
            ∃ t, exec (.recordCommit p) s = .next t ∧ (getPipe p t).recs = rest
              ∧ rd (Reg.pipRecWr p) t = BitVec.ofNat 32 (w + r.length)
              ∧ StoredAt (c.base * unitSize + ringBase p s + o) r s t ∧ t.comp = s.comp
              ∧ t.outbox = (resolve (c.base * unitSize + ringBase p s + o) r.length s).outbox)
          ∧ (e.recCarve = 0xFFFF → s.pwr.linkUp = true →
            ∃ t, exec (.recordCommit p) s = .next t ∧ (getPipe p t).recs = rest
              ∧ rd (Reg.pipRecWr p) t = BitVec.ofNat 32 (w + r.length)
              ∧ t.outbox = s.outbox ++ [.hostWrite (chanDomain (ringChan p s) s) (ringBase p s + o) r false,
                  .flushRead (chanDomain (ringChan p s) s) (ringBase p s + o)] ∧ t.fs = s.fs))
        ∧ (ringSize p s < used + r.length → (e.recCarve ≠ 0xFFFF ∨ s.pwr.linkUp = true) → ringWaits p s = false →
          ∃ t, exec (.recordCommit p) s = .next t ∧ (getPipe p t).recs = rest ∧ (getPipe p t).recGap = true
            ∧ fget (Reg.pipRecDrop p) PipRecDrop.pipRecDrop t
                = min (fget (Reg.pipRecDrop p) PipRecDrop.pipRecDrop s + 1) (2 ^ PipRecDrop.pipRecDrop.width - 1)
            ∧ fget (Reg.pipStatus p) PipStatus.recDrop t = 1 ∧ rd (Reg.pipRecWr p) t = rd (Reg.pipRecWr p) s
            ∧ t = { s with regs := t.regs, pipes := t.pipes } ∧ BesidePipe p s t)))

/-- A pipeline whose enable check passes runs from picture 0 (R231), one whose check fails stays disabled with the code in PIP_REFUSE
(R232), and a disabled one stops at once where no picture is left, or drains (R233, R234). Budgets: a write is taken unless the pipeline
runs and it is 0 or does not fit its regions (R395, R396), and a region's window takes the values up and grants a pipeline alone on it
what it wants up to its budget, Belay traffic first (R27, R29, R396). -/
def Obligations.PipelinesAndBudgets : Prop :=
  (∀ (s : State) (d : DomId) (p : PipeId) (v : Word), HostMayWrite d (Reg.pipCtl p) s → curMode s ≠ 5 →
      (pipeEnabled p s = false → selftestHolds p s = false → shadowPending p s = false →
        ((enableCheck p (fput (Reg.pipCtl p) PipCtl.picIrq (getF PipCtl.picIrq (putF PipCtl.enable v 1)) s)).1 = 0 →
          ∃ t, exec (.pipelineEnable d p v) s = .next t ∧ pipeEnabled p t = true ∧ fget (Reg.pipStatus p) PipStatus.running t = 1
            ∧ fget (Reg.pipRefuse p) PipRefuse.pipRefCode t = 0 ∧ (getPipe p t).next = 0 ∧ (getPipe p t).pics = []
            ∧ (getPipe p t).draining = false ∧ t.comp = s.comp ∧ t.clock = s.clock ∧ t.pwr = s.pwr ∧ t.ports = s.ports)
        ∧ ((enableCheck p (fput (Reg.pipCtl p) PipCtl.picIrq (getF PipCtl.picIrq (putF PipCtl.enable v 1)) s)).1 ≠ 0 →
          ∃ t, exec (.pipelineEnable d p v) s = .next t ∧ pipeEnabled p t = false ∧ OnlyRegs [Reg.pipCtl p, Reg.pipRefuse p] s t
            ∧ fget (Reg.pipRefuse p) PipRefuse.pipRefCode t
              = (enableCheck p (fput (Reg.pipCtl p) PipCtl.picIrq (getF PipCtl.picIrq (putF PipCtl.enable v 1)) s)).1
                  % 2 ^ PipRefuse.pipRefCode.width))
      ∧ (pipeEnabled p s = true →
        ∃ t, exec (.pipelineDisable d p v) s = .next t ∧ pipeEnabled p t = false
          ∧ (pipeDrained { getPipe p s with draining := true } = true →
              fget (Reg.pipStatus p) PipStatus.running t = 0 ∧ (getPipe p t).draining = false)
          ∧ (pipeDrained { getPipe p s with draining := true } = false →
              fget (Reg.pipStatus p) PipStatus.running t = fget (Reg.pipStatus p) PipStatus.running s
              ∧ (getPipe p t).draining = true)
          ∧ (getPipe p t).pics = (getPipe p s).pics ∧ OnlyRegs [Reg.pipCtl p, Reg.pipStatus p] { s with pipes := t.pipes } t))
  ∧ (∀ s : State,
      (∀ (d : DomId) (p : PipeId) (v : Word), HostMayWrite d (Reg.pipBudget p) s → curMode s ≠ 5 →
        ∃ t, exec (.budgetWrite d p v) s = .next t ∧ OnlyRegs [Reg.pipBudget p] s t
          ∧ ((pipeEnabled p s = false ∨ getF PipBudget.budget v ≠ 0 ∧ budgetFits p (getF PipBudget.budget v) s = true) →
              budgetOf p t = getF PipBudget.budget v)
          ∧ (pipeEnabled p s = true → (getF PipBudget.budget v = 0 ∨ budgetFits p (getF PipBudget.budget v) s = false) →
              budgetOf p t = budgetOf p s ∧ fget (Reg.pipBudget p) PipBudget.budgetRej t = 1))
      ∧ ∀ (r : RegionId) (demands : List (PipeId × Nat × Nat)) (e : PipeEntry) (want belay k n : Nat), k = 1024 * r.val + e.pipe →
        (regionPipes r s).filter (fun e => pipeLive e.pipe s) = [e] → 0 < e.weight → e.pipe < 1024 → agentQueue r s = [] →
        belay = smGet 0 k s.fs.belayWants + demands.foldl (fun n d => if d.1.val = e.pipe then n + d.2.1 else n) 0 →
        want = smGet 0 k s.fs.wants + demands.foldl (fun n d => if d.1.val = e.pipe then n + d.2.2 else n) 0 →
        smGet 0 (agentKey r none) s.fs.belayWants = 0 → n = min belay (budgetOf e.pipe s) →
        ∃ t, exec (.arbitrationWindow r demands) s = .next t ∧ heldBudget r e.pipe t = budgetOf e.pipe s
          ∧ smGet 0 k t.fs.belayWants = belay - n ∧ smGet 0 k t.fs.wants = want - min want (budgetOf e.pipe s - n)
          ∧ agentLeft r (some e.pipe) t = budgetOf e.pipe s - min (belay + want) (budgetOf e.pipe s)
          ∧ fget (Reg.maGrantCnt r) MaGrantCnt.maGrantCnt t
              = (fget (Reg.maGrantCnt r) MaGrantCnt.maGrantCnt s + min (belay + want) (budgetOf e.pipe s)) % 2 ^ MaGrantCnt.maGrantCnt.width
          ∧ t = { s with regs := t.regs, pipes := t.pipes, fs := { s.fs with
              budgets := t.fs.budgets, left := t.fs.left, belayWants := t.fs.belayWants, wants := t.fs.wants
              throttled := t.fs.throttled } })

/-- The controllers' queues: a request below the end of HBM passes the mesh to its bank's queue, waits at the mesh while its class has no
credit there or at its region memory agent while its budget is spent, or waits out self-refresh, and one beyond the end is refused by name
(R28, R33 to R35, R364, R376, R393, R397); a column command serves the request at the head (R366), a page closes once idle for IDLE_TIMER
clocks (R367) and a refresh of the next bank closes its row or is postponed (R368). -/
def Obligations.MemoryRequestsAreQueuedAndServed : Prop :=
  ∀ s : State,
    (∀ (by_ : MemBy) (m : MemReqIn) (g : Place) (f : Flit), g = placeOf s (64 * m.word) → f = memFlit by_ m s →
      (m.word < hbmSize / 64 → by_.agent = none → MeshIdle g.stack s → ctlAccepts g.stack s = true →
        (memState g.stack s ≠ 2 → (getBank (getPseudo g.stack g.channel g.pseudo s) g.bank).queue.length < 8 →
          (∀ e ∈ (getMemChannel g.stack g.channel s).input, e.1 ≠ g.pseudo ∨ e.2.1 ≠ g.bank) →
          ∃ t, exec (.memoryRequest by_ m) s = .next t
            ∧ (getBank (getPseudo g.stack g.channel g.pseudo t) g.bank).queue
                = (getBank (getPseudo g.stack g.channel g.pseudo s) g.bank).queue ++ [f.req]
            ∧ getMesh g.stack t = { getMesh g.stack s with last := f.input }
            ∧ (getMemCtl g.stack t).heardAt = s.now
            ∧ t = { s with fs := { s.fs with pseudos := t.fs.pseudos, mesh := t.fs.mesh, ctls := t.fs.ctls } })
        ∧ (memState g.stack s = 2 →
          ∃ t, exec (.memoryRequest by_ m) s = .next t
            ∧ (getMemCtl g.stack t).srWaiting = (getMemCtl g.stack s).srWaiting ++ [f.req]
            ∧ getMesh g.stack t = { getMesh g.stack s with last := f.input }
            ∧ t = { s with fs := { s.fs with ctls := t.fs.ctls, mesh := t.fs.mesh } }))
      ∧ (m.word < hbmSize / 64 → by_.agent = none → (getMesh g.stack s).asking = [] → ctlAccepts g.stack s = false →
        s.fs.meshCredits ≤ smGet 0 m.cls (getMesh g.stack s).used →
        ∃ t, exec (.memoryRequest by_ m) s = .next t ∧ getMesh g.stack t = { getMesh g.stack s with asking := [f] }
          ∧ t = { s with fs := { s.fs with mesh := t.fs.mesh } })
      ∧ (∀ (r : RegionId) (p : PipeId), m.word < hbmSize / 64 → by_.agent = some (r, some p) →
        (∀ x ∈ agentQueue r s, x.pipe ≠ some p.val) →
        (reqCost f.req ≤ agentLeft r (some p) s →
          ∃ t, exec (.memoryRequest by_ m) s = .next t ∧ agentQueue r t = agentQueue r s
            ∧ agentLeft r (some p) t = agentLeft r (some p) s - reqCost f.req
            ∧ fget (Reg.maGrantCnt r) MaGrantCnt.maGrantCnt t
                = (fget (Reg.maGrantCnt r) MaGrantCnt.maGrantCnt s + reqCost f.req) % 2 ^ MaGrantCnt.maGrantCnt.width
            ∧ OnlyRegs [Reg.maGrantCnt r] { s with fs := t.fs } t ∧ t.fs.mem = s.fs.mem)
        ∧ (agentLeft r (some p) s < reqCost f.req →
          ∃ t, exec (.memoryRequest by_ m) s = .next t ∧ agentQueue r t = agentQueue r s ++ [⟨some p.val, f⟩]
            ∧ agentLeft r (some p) t = agentLeft r (some p) s
            ∧ OnlyRegs [Reg.pipBudgetStat p] { s with pipes := t.pipes, fs := t.fs } t ∧ t.fs.mem = s.fs.mem))
      ∧ (hbmSize / 64 ≤ m.word → exec (.memoryRequest by_ m) s = .fault (.noSuchAddress (64 * m.word))))
    ∧ (∀ (c : StackId) (ch : Fin 16) (p : Fin 2) (ready : List Nat) (b : Nat) (r : MemReq) (u : State), channelStalled c ch s = false →
      (getMemChannel c ch s).input = [] → MeshIdle c s → u = (if r.cls = 4 then s else resolve (64 * r.word) 64 s) →
      firstBank (getPseudo c ch p s)
        (fun b r => decide (b ∈ ready) && (getBank (getPseudo c ch p s) b).openRow == (reqPlace s r).row + 1)
        (bankOrder (getPseudo c ch p s).lastCol) = some (b, r) →
      ∃ t, exec (.pseudoChannelIssue c ch p ready [] []) s = .next t ∧ (getPseudo c ch p t).lastCol = b
        ∧ (getBank (getPseudo c ch p t) b).queue = (getBank (getPseudo c ch p s) b).queue.drop 1
        ∧ (getBank (getPseudo c ch p t) b).usedAt = s.now
        ∧ (r.write = true → r.data.length = 64 → Canonical s → StoredAt (64 * r.word) r.data u t ∧ t.outbox = u.outbox)
        ∧ (r.write = false → t.fs.mem = u.fs.mem
          ∧ t.outbox = u.outbox ++ [.memData (64 * r.word) (wordBytes r.word u) (decide (decodeWord r.word u = .bad))])
        ∧ t.comp = s.comp ∧ t.pools = s.pools ∧ t.pipes = s.pipes)
    ∧ (∀ (c : StackId) (ch : Fin 16) (p : Fin 2) (b : Fin 48),
      (getBank (getPseudo c ch p s) b).queue = [] →
      (getBank (getPseudo c ch p s) b).usedAt + fget (Reg.memCtl c) MemCtl.idleTimer s ≤ s.now →
        ∃ t, exec (.pageIdleClose c ch p b) s = .next t
          ∧ getBank (getPseudo c ch p t) b = { getBank (getPseudo c ch p s) b with openRow := 0 }
          ∧ t = { s with fs := { s.fs with pseudos := t.fs.pseudos } })
    ∧ ∀ (c : StackId) (ch : Fin 16) (p : Fin 2) (b : Nat) (postpone : Bool), b = ((getPseudo c ch p s).lastRef + 1) % 48 →
      ∃ t, exec (.bankRefresh c ch p postpone) s = .next t ∧ t = { s with fs := { s.fs with pseudos := t.fs.pseudos } }
        ∧ (getPseudo c ch p t).lastRef = b
        ∧ getBank (getPseudo c ch p t) b
            = (if postpone = true ∧ (getBank (getPseudo c ch p s) b).queue ≠ [] ∧ (getBank (getPseudo c ch p s) b).postponed < 8
               then { getBank (getPseudo c ch p s) b with postponed := (getBank (getPseudo c ch p s) b).postponed + 1 }
               else { getBank (getPseudo c ch p s) b with postponed := 0, openRow := 0 })

/-- Retraining and self-refresh: a retraining ends and the next that waits begins, a failed one is flagged (R370, R373), two seconds
without one start one (R372), an idle stack enters self-refresh in BIVOUAC and returns from it with its requests (R374 to R376). The
correction bucket leaks one each LEAK_US and a write of MEM_ECC_CTL empties it (R381); the scrubber takes its page when due and moves on,
back to the first with SCRUB_DONE after the last (R386). -/
def Obligations.StacksRetrainLeakAndScrub : Prop :=
  (∀ (s : State) (c : StackId),
      ((getMemCtl c s).training ≠ 0 → s.fs.hostWaiting = [] →
        (∃ t, exec (.retrainDone c true) s = .next t
          ∧ ((getMemCtl c s).waiting = [] → (getMemCtl c t).training = 0 ∧ (getMemCtl c t).autoTraining = false)
          ∧ (∀ w ws, (getMemCtl c s).waiting = w :: ws →
              (getMemCtl c t).training = w % 16 + 1 ∧ (getMemCtl c t).waiting = ws ∧ (getMemCtl c t).autoTraining = decide (16 ≤ w))
          ∧ (∀ ch < 16, (getMemCtl c s).training = ch + 1 → (getMemChannel c ch t).goodAt = s.now)
          ∧ t = { s with fs := { s.fs with ctls := t.fs.ctls, channels := t.fs.channels } })
        ∧ (s.pwr.bypass = false →
          ∃ t, exec (.retrainDone c false) s = .next t ∧ fget (Reg.memStatus c) MemStatus.retrainFail t = 1
            ∧ fget (Reg.fltStatus 0x200) FltStatus.fault t = 1 ∧ fget (Reg.fltStatus 0x200) FltStatus.lastClass t = 0x22
            ∧ t.fs.mem = s.fs.mem ∧ t.comp = s.comp ∧ t.pipes = s.pipes))
      ∧ (∀ ch : Fin 16, memState c s = 1 → retrainLate c ch s = true → (getMemCtl c s).training = 0 →
        ∃ t, exec (.autoRetrain c ch) s = .next t ∧ (getMemCtl c t).training = ch.val + 1 ∧ (getMemCtl c t).autoTraining = true
          ∧ fget (Reg.memStatus c) MemStatus.autoRetrain t = 1
          ∧ fget (Reg.memRetrainCnt c) MemRetrainCnt.autoCnt t
              = min (fget (Reg.memRetrainCnt c) MemRetrainCnt.autoCnt s + 1) (2 ^ MemRetrainCnt.autoCnt.width - 1)
          ∧ OnlyRegs [Reg.memStatus c, Reg.memRetrainCnt c, Reg.icuSrcStat (128 + 16 * c + 3)]
              { s with fs := { s.fs with ctls := t.fs.ctls, channels := t.fs.channels } } t
          ∧ retrainLate c ch t = false)
      ∧ (∀ cancelled : Bool, curMode s = 2 → fbit (Reg.memCtl c) MemCtl.srEn s = true → memState c s = 1 → stackIdle c s = true →
        quietLong c s = true →
        ∃ t, exec (.selfRefreshEntry c cancelled) s = .next t
          ∧ (cancelled = false → memState c t = 2 ∧ (∀ ch < 16, ∀ p < 2, ∀ b, (getBank (getPseudo c ch p t) b).openRow = 0)
            ∧ fget (Reg.memSrCnt c) MemSrCnt.srEntry t
                = min (fget (Reg.memSrCnt c) MemSrCnt.srEntry s + 1) (2 ^ MemSrCnt.srEntry.width - 1))
          ∧ (cancelled = true → memState c t = 1
            ∧ fget (Reg.memSrCnt c) MemSrCnt.srCancel t
                = min (fget (Reg.memSrCnt c) MemSrCnt.srCancel s + 1) (2 ^ MemSrCnt.srCancel.width - 1))
          ∧ OnlyRegs [Reg.memStatus c, Reg.memSrCnt c] { s with fs := { s.fs with pseudos := t.fs.pseudos, ctls := t.fs.ctls } } t)
      ∧ (memState c s = 2 → MeshIdle c s → s.fs.hostWaiting = [] →
        ∃ t, exec (.selfRefreshExit c) s = .next t ∧ memState c t = 1 ∧ (getMemCtl c t).srWaiting = []
          ∧ ((getMemCtl c s).srWaiting = [] → t.fs.pseudos = s.fs.pseudos) ∧ (∀ ch < 16, (getMemChannel c ch t).goodAt = s.now)
          ∧ OnlyRegs [Reg.memStatus c]
              { s with fs := { s.fs with ctls := t.fs.ctls, pseudos := t.fs.pseudos, channels := t.fs.channels } } t))
  ∧ (∀ (s : State) (c : StackId),
      (leakDue c s = true →
        ∃ t, exec (.ceBucketLeak c) s = .next t ∧ OnlyRegs [Reg.memStatus c] { s with fs := { s.fs with ctls := t.fs.ctls } } t
        ∧ (getMemCtl c t).leakAt = s.now
        ∧ fget (Reg.memStatus c) MemStatus.bucket t = fget (Reg.memStatus c) MemStatus.bucket s - 1)
      ∧ (∀ (d : DomId) (v : Word), HostMayWrite d (Reg.memEccCtl c) s → curMode s ≠ 5 →
        ∃ t, exec (.memEccCtlWrite d c v) s = .next t ∧ OnlyRegs [Reg.memStatus c, Reg.memEccCtl c] s t
          ∧ rd (Reg.memEccCtl c) t = v &&& 0xFFFF00FF#32 ∧ fget (Reg.memStatus c) MemStatus.bucket t = 0)
      ∧ ∀ a : Nat, Canonical s → fget (Reg.memScrubCtl c) MemScrubCtl.periodH s ≠ 0 → memState c s = 1 → memTestRuns s = false →
        scrubDue c s = true → scrubTarget c (rd (Reg.memScrubPos c) s).toNat s.comp.carves = some a →
        ∃ t, exec (.scrubPage c) s = .next t
          ∧ ((rd (Reg.memScrubPos c) s).toNat + 1 < scrubPages s →
              rd (Reg.memScrubPos c) t = BitVec.ofNat 32 ((rd (Reg.memScrubPos c) s).toNat + 1))
          ∧ (scrubPages s ≤ (rd (Reg.memScrubPos c) s).toNat + 1 →
              rd (Reg.memScrubPos c) t = 0 ∧ fget (Reg.memStatus c) MemStatus.scrubDone t = 1)
          ∧ (∀ k, k / 64 ∉ pageWords s a → memGet t.fs.mem k = memGet s.fs.mem k) ∧ t.comp = s.comp ∧ t.pools = s.pools)

/-- ALLOC takes the head of the free list for the requester and counts it HELD (R409, R410), with the waiting producers of POOL_RETRY too
(R413); for want of buffers it is counted and fails, and an ownership error is latched (R414, R416). A request that comes in a mesh cycle
in which the pool has served one, or behind others, waits its turn (R407). -/
def Obligations.AllocTakesTheHeadBuffer : Prop :=
  ∀ (s : State) (p : PoolId) (who : Fin 4096) (n m : Nat) (l : List Nat) (c : Instr) (live : Bool), PoolIdle p s →
    (allocCode p who who s = 0 → getHead p s = n :: m :: l →
      (c = .alloc (.unit p who false live)
        ∨ c = .alloc (.unit p who true live) ∧ poolHeld p s < waitLevel p s
        ∨ (∃ k : Nat, c = .poolRetry k ∧ s.pools.waits[k]? = some (.alloc who p) ∧ mayAsk (.alloc who p) s = true
            ∧ (who.val < 1024 ∨ 1088 ≤ who.val)
            ∧ poolHeld p s < waitLevel p s)) →
      ∃ t, exec c s = .next t ∧ getBuf n t = ⟨1, 1, who⟩ ∧ getHead p t = m :: l
        ∧ poolHeld p t = (poolHeld p s + 1) % 2 ^ 20 ∧ poolFree p t = poolFree p s - 1
        ∧ (∀ k, k ≠ n → getBuf k t = getBuf k s)
        ∧ getArb p t = ⟨[], (poolLine who s + 1) % 43, s.now + 1⟩
        ∧ ((∃ k, c = .poolRetry k) → t.pools.waits = s.pools.waits.erase (.alloc who p))
        ∧ OnlyRegs [Reg.bpmPoolHeld p, Reg.bpmPoolFree p, Reg.bpmPoolStatus p, Reg.icuSrcStat (192 + 4 * p.val)]
            { s with pools := t.pools } t)
    ∧ (allocCode p who who s = codeEmpty →
      ∃ t, exec (.alloc (.unit p who false live)) s = .next t ∧ t.pools = { s.pools with arbs := t.pools.arbs }
        ∧ fget (Reg.bpmPoolEmptyCnt p) BpmPoolEmptyCnt.count t
            = min (fget (Reg.bpmPoolEmptyCnt p) BpmPoolEmptyCnt.count s + 1) (2 ^ 32 - 1)
        ∧ OnlyRegs [Reg.bpmPoolEmptyCnt p, Reg.bpmPoolStatus p, Reg.icuSrcStat (192 + 4 * p.val + 1)]
            { s with pools := t.pools } t)
    ∧ (allocCode p who who s ≠ 0 → allocCode p who who s ≠ codeEmpty → allocCode p who who s ≠ codeOverQuota →
      ∃ t, exec (.alloc (.unit p who false live)) s = .next t ∧ t.pools = { s.pools with arbs := t.pools.arbs }
        ∧ fget (Reg.bpmPoolLastErr p) BpmPoolLastErr.lastErr t = allocCode p who who s
        ∧ fget (Reg.bpmPoolLastErrOwn p) BpmPoolLastErrOwn.lastErrOwn t = who.val
        ∧ fget (Reg.bpmPoolStatus p) BpmPoolStatus.errEv t = 1)
    ∧ ∀ d : DomId, hostPath d s = true → gloveStops d .bar0 (Reg.hopAlloc d) false s = false →
      loadStops .bar0 (Reg.hopAlloc d) s = false → fget (Reg.hopArg d) HopArg.pool s = p.val →
      allocCode p (1088 + d.val) (1088 + d.val) s = 0 → getHead p s = n :: m :: l →
      ∃ t, exec (.alloc (.host d)) s = .next t ∧ getBuf n t = ⟨1, 1, 1088 + d.val⟩
        ∧ rd (Reg.hopAlloc d) t = hopResult 0 n ∧ t.fs = s.fs ∧ t.comp = s.comp

/-- FREE gives a buffer back to the head of the list with its link word, RELEASE, SHARE and PASS change its shares or its owner (R410,
R415); host software finds the result in its page (R420), a FREE with shares out asks again by POOL_RETRY every 256 mesh cycles (R416). -/
def Obligations.BufferOperationsFollowTheTable : Prop :=
  ∀ (s : State) (n : BufId) (who : Fin 4096) (p : Nat), poolOfBuf n s = some p → PoolIdle p s →
    (bufOpCode .free n who s = 0 → poolHeld p s + poolFree p s ≤ poolSize p s → poolRebuilding p s = false → Canonical s →
      (∃ t, exec (.free (.unit who) n) s = .next t ∧ getBuf n t = ⟨0, 0, 4095⟩
        ∧ getHead p t = (n.val :: getHead p s).take 64 ∧ poolHeld p t = poolHeld p s - 1
        ∧ poolFree p t = (poolFree p s + 1) % 2 ^ 20 ∧ (∀ k, k ≠ n.val → getBuf k t = getBuf k s)
        ∧ StoredAt (64 * (bufAddr p n s / 64)) (leBytes (linkWord p (getHead p s).head?) 64) s t)
      ∧ ∀ k : Nat, s.pools.waits[k]? = some (.free who n) → mayAsk (.free who n) s = true →
        ∃ t, exec (.poolRetry k) s = .next t ∧ getBuf n t = ⟨0, 0, 4095⟩ ∧ t.pools.waits = s.pools.waits.erase (.free who n))
    ∧ (bufOpCode .free n who s = codeSharedPending →
      ∃ t, exec (.free (.unit who) n) s = .next t
        ∧ t = { s with pools := { s.pools with
            arbs := t.pools.arbs, waits := s.pools.waits ++ [.free who n], askAt := t.pools.askAt } }
        ∧ smGet 0 (waitKey (.free who n)) t.pools.askAt = s.now + 256)
    ∧ (∀ (op : BufOp) (c : Instr) (b : Buf), b = getBuf n s →
      (op = .release ∧ c = .releaseShare (.unit who) n ∨ op = .share ∧ c = .share (.unit who) n
        ∨ ∃ o : Fin 4096, op = .pass o ∧ c = .pass (.unit who) n o) →
      bufOpCode op n who s = 0 →
      ∃ t, exec c s = .next t
        ∧ getBuf n t = (match op with
            | .release => { b with share := b.share - 1 } | .share => { b with share := b.share + 1 }
            | .pass o => { b with owner := o } | .free => b)
        ∧ (∀ k, k ≠ n.val → getBuf k t = getBuf k s)
        ∧ t = { s with pools := { s.pools with arbs := t.pools.arbs, bufs := t.pools.bufs } })
    ∧ (∀ (op : BufOp) (c : Instr), (op = .free ∧ c = .free (.unit who) n ∨ op = .release ∧ c = .releaseShare (.unit who) n
        ∨ op = .share ∧ c = .share (.unit who) n ∨ ∃ o : Fin 4096, op = .pass o ∧ c = .pass (.unit who) n o) →
      bufOpCode op n who s ≠ 0 → bufOpCode op n who s ≠ codeSharedPending →
      ∃ t, exec c s = .next t ∧ t.pools = { s.pools with arbs := t.pools.arbs }
        ∧ fget (Reg.bpmPoolLastErr p) BpmPoolLastErr.lastErr t = bufOpCode op n who s
        ∧ fget (Reg.bpmPoolLastErr p) BpmPoolLastErr.lastErrId t = n.val
        ∧ fget (Reg.bpmPoolLastErrOwn p) BpmPoolLastErrOwn.lastErrOwn t = who.val
        ∧ fget (Reg.bpmPoolStatus p) BpmPoolStatus.errEv t = 1 ∧ t.fs = s.fs ∧ t.comp = s.comp)
    ∧ ∀ d : DomId, HostMayWrite d (Reg.hopCmd d) s → curMode s ≠ 5 → bufOpCode .share n (1088 + d.val) s = 0 →
      ∃ t, exec (.share (.host d) n) s = .next t ∧ rd (Reg.hopResult d) t = hopResult 0 n
        ∧ getBuf n t = { getBuf n s with share := (getBuf n s).share + 1 }
        ∧ OnlyRegs [Reg.hopResult d] { s with pools := t.pools } t

/-- Pools: the manager reads link words ahead of demand and takes a bad one for a broken list (R410, R412), a rebuild links every FREE
buffer (R412), a size within the largest one is taken, and the buffers of a larger one join within 1 ms (R417), and a pool is enabled once
its check passes (R419). -/
def Obligations.PoolsRefillRebuildAndResize : Prop :=
  ∀ (s : State) (p : PoolId),
    (∀ (l : List Nat) (n v w e : Nat), getHead p s = l ++ [n] → (getHead p s).length < 64 → poolRebuilding p s = false →
      poolFree p s = (getHead p s).length + 1 → v = leNat ((wordBytes (bufAddr p n s / 64) s).take 8) →
      w = bufAddr p (v % 2 ^ 19) s / 64 → e = leNat ((wordBytes w s).take 8) → (∀ w, hostLine w s = none) →
      ∃ t, exec (.linkWordRefill p) s = .next t ∧ t.fs = s.fs
        ∧ (decodeWord (bufAddr p n s / 64) s ≠ .bad → linkGood p v false s = true →
            getHead p t = getHead p s ++ [v % 2 ^ 19]
            ∧ (decodeWord w s ≠ .bad → linkGood p e true s = true → poolRebuilding p t = false)
            ∧ (decodeWord w s = .bad ∨ linkGood p e true s = false → poolRebuilding p t = true))
        ∧ (decodeWord (bufAddr p n s / 64) s = .bad ∨ linkGood p v false s = false →
            getHead p t = getHead p s ∧ poolRebuilding p t = true))
    ∧ (poolRebuilding p s = true → poolHeld p s + (poolBufsIn p 0 s).length ≤ poolSize p s →
      ∃ t, exec (.rebuildDone p) s = .next t ∧ poolRebuilding p t = false
        ∧ fget (Reg.bpmPoolStatus p) BpmPoolStatus.rebuildEv t = 1 ∧ poolFree p t = (poolBufsIn p 0 s).length % 2 ^ 20
        ∧ getHead p t = (poolBufsIn p 0 s).take 64 ∧ t.pools.bufs = s.pools.bufs
        ∧ OnlyRegs [Reg.bpmPoolStatus p, Reg.bpmPoolFree p, Reg.bpmPoolLastErrOwn p, Reg.icuSrcStat (192 + 4 * p.val + 3)]
            { s with pools := t.pools, fs := t.fs } t)
    ∧ (∀ (d : DomId) (v : Word), HostMayWrite d (Reg.bpmPoolSize p) s → curMode s ≠ 5 →
      (poolMax p s < getF BpmPoolSize.size v →
        ∃ t, exec (.poolResize d p v) s = .next t ∧ OnlyRegs [Reg.bpmPoolStatus p] s t
          ∧ fget (Reg.bpmPoolStatus p) BpmPoolStatus.sizeRej t = 1)
      ∧ (getF BpmPoolSize.size v ≤ poolMax p s → PoolIdle p s →
        ∃ t, exec (.poolResize d p v) s = .next t ∧ poolSize p t = getF BpmPoolSize.size v ∧ poolHeld p t = poolHeld p s
          ∧ (poolHeld p s + poolFree p s < getF BpmPoolSize.size v → poolFree p t = poolFree p s ∧ getGrow p t
            = ⟨((poolBufsIn p 2 s).take (getF BpmPoolSize.size v - (poolHeld p s + poolFree p s))).reverse, s.now + 1600000⟩)
          ∧ t.comp = s.comp))
    ∧ ∀ d : DomId, HostMayWrite d (Reg.bpmPoolCtl p) s → curMode s ≠ 5 →
      (∃ t, exec (.poolEnable d p false) s = .next t ∧ OnlyRegs [Reg.bpmPoolCtl p] s t
        ∧ fget (Reg.bpmPoolCtl p) BpmPoolCtl.enable t = 0)
      ∧ (fget (Reg.bpmPoolCtl p) BpmPoolCtl.enable s = 0 →
        ∃ t, exec (.poolEnable d p true) s = .next t ∧ OnlyRegs [Reg.bpmPoolCtl p, Reg.bpmPoolStatus p] s t
          ∧ fget (Reg.bpmPoolStatus p) BpmPoolStatus.poolRefuse t = poolCheck p s
          ∧ fget (Reg.bpmPoolCtl p) BpmPoolCtl.enable t = (if poolCheck p s = 0 then 1 else 0))

/-- A DMA channel enables in IDLE or resumes where it stopped (R436, R437), a doorbell and a poll make it read its descriptor (R430,
R431), and a stop leaves it DISABLED with the bytes moved in DMA_DONE_LEN (R436). -/
def Obligations.ChannelsEnableRunAndStop : Prop :=
  ∀ (s : State) (c : ChanId),
    (∀ (d : DomId) (v : Word), HostMayWrite d (Reg.dmaCtl c) s → curMode s ≠ 5 → dmaEnabled c s = false → released s = true →
      (dmaCheck c s = 0 →
        ∃ t, exec (.dmaEnable d c v) s = .next t ∧ dmaEnabled c t = true ∧ rd (Reg.dmaRefuse c) t = 0
          ∧ ((getChan c s).restart = false → dmaState c t = 1 ∧ getChan c t = (getChan c s).fresh)
          ∧ ((getChan c s).restart = true → dmaState c t = 2 ∧ getChan c t = { getChan c s with
              phase := .reading, desc := ⟨[]⟩, moved := 0, buf := 0, result := 0, stopping := false, held := false, restart := false })
          ∧ OnlyRegs [Reg.dmaCtl c, Reg.dmaRefuse c, Reg.dmaStatus c] { s with chans := t.chans } t)
      ∧ (dmaCheck c s ≠ 0 →
        ∃ t, exec (.dmaEnable d c v) s = .next t ∧ dmaEnabled c t = false ∧ OnlyRegs [Reg.dmaCtl c, Reg.dmaRefuse c] s t
          ∧ rd (Reg.dmaRefuse c) t = BitVec.ofNat 32 (dmaCheck c s)))
    ∧ (∀ d : DomId, HostMayWrite d (Reg.dmaDb c) s → curMode s ≠ 5 →
      ∃ t, exec (.dmaDoorbell d c) s = .next t
        ∧ ((getChan c s).phase = .reading → fget (Reg.dmaStatus c) DmaStatus.dbPend t = 1 ∧ OnlyRegs [Reg.dmaStatus c] s t)
        ∧ ((getChan c s).phase ≠ .reading → dmaState c s = 1 → dmaState c t = 2 ∧ (getChan c t).phase = .reading
            ∧ dmaCur c t = rd64 (Reg.dmaHeadLo c) (Reg.dmaHeadHi c) s)
        ∧ ((getChan c s).phase ≠ .reading → dmaState c s = 3 → (getChan c t).phase = .reading)
        ∧ OnlyRegs [Reg.dmaStatus c, Reg.dmaCurLo c, Reg.dmaCurHi c] { s with chans := t.chans } t)
    ∧ (dmaState c s = 3 → pollDue c s = true → (getChan c s).phase = .idle →
      ∃ t, exec (.dmaPoll c) s = .next t ∧ t = { s with chans := t.chans }
        ∧ getChan c t = { getChan c s with phase := .reading })
    ∧ ∀ (moved : Nat) (h : HostRead), (getChan c s).stopping = true →
      (∀ (n : Nat) (ptrs : List Nat) (u : State), (getChan c s).phase = .ready →
        n = max ((getChan c s).moved + toCairn (getChan c s).moved)
          (if opCheck c s = 0 ∧ (descOp (getChan c s).desc ≠ 2 ∨ (getChan c s).buf ≠ 0) then moved / 65536 * 65536 else 0) →
        n < descLength (getChan c s).desc → ptrs = (if n = (getChan c s).moved then [] else movePtrs c s) →
        linkHeld (dmaCur c s :: ptrs) s = false → ptrWaits (dmaCur c s) 8 s = false →
        (∀ q ∈ ptrs, ptrWaits q (n - (getChan c s).moved) s = false) →
        u = (if n = (getChan c s).moved then s else moveBytes c (n - (getChan c s).moved) h s) → (getChan c u).phase = .ready →
        ∃ t, exec (.dmaStop c moved h) s = .next t ∧ dmaState c t = 0 ∧ (getChan c t).phase = .idle ∧ (getChan c t).restart = true
          ∧ fget (Reg.dmaDoneLen c) DmaDoneLen.doneLen t = (getChan c u).moved % 2 ^ DmaDoneLen.doneLen.width
          ∧ (∀ k, k ≠ c.val → getChan k t = getChan k s) ∧ t.comp = s.comp ∧ t.pipes = s.pipes ∧ t.pwr = s.pwr)
      ∧ ((getChan c s).phase = .moved → exec (.dmaStop c moved h) s = .next s)
      ∧ ((getChan c s).phase = .idle ∨ (getChan c s).phase = .reading →
        ∃ t, exec (.dmaStop c moved h) s = .next t ∧ dmaState c t = 0 ∧ (getChan c t).phase = .idle
          ∧ (getChan c t).restart = decide (dmaState c s = 2 ∨ dmaState c s = 3)
          ∧ (∀ k, k ≠ c.val → getChan k t = getChan k s) ∧ OnlyRegs [Reg.dmaStatus c] { s with chans := t.chans } t)

/-- A descriptor that is read is checked and held, or waits with OWN 0 (R430, R431, R435); in the channel's turns its data goes where it
says and DMA_BYTES counts it, a TO_POOL taking its buffer first (R413, R424, R438); one that fails its check, as with an address outside
the domain, halts the channel (R435), and the write-back reports and goes on (R426, R429). -/
def Obligations.DescriptorsMoveData : Prop :=
  ∀ (s : State) (c : ChanId) (x : Chan), x = getChan c s →
    (∀ (h : HostRead) (l : List Byte), x.phase = .reading → dmaCur c s % 32 = 0 → ptrOk c (dmaCur c s) 32 s = true →
      ptrWaits (dmaCur c s) 32 s = false → (∀ w, hostLine w s = none) →
      (ptrHbm (dmaCur c s) = true ∧ (readBytes 4 (ptrAddr (dmaCur c s)) 32 s).1 = (l, false)
        ∨ ptrHbm (dmaCur c s) = false ∧ s.pwr.linkUp = true ∧ h = .data l ∧ 32 ≤ l.length) →
      ∃ t, exec (.descriptorFetch c h) s = .next t ∧ t.pools = s.pools ∧ t.comp = s.comp
        ∧ (descOwn ⟨wordsOf 8 l⟩ = true → descCheck ⟨wordsOf 8 l⟩ = 0 → t.fs = s.fs ∧ dmaState c t = 2
          ∧ getChan c t = { Chan.init with
              phase := .ready, desc := ⟨wordsOf 8 l⟩, stopping := x.stopping, lastHost := x.lastHost })
        ∧ (descOwn ⟨wordsOf 8 l⟩ = false → fbit (Reg.dmaStatus c) DmaStatus.dbPend s = false → t.fs = s.fs ∧ dmaState c t = 3
          ∧ (getChan c t).phase = .idle ∧ (getChan c t).waitAt = s.now))
    ∧ (∀ (i : Instr) (h : HostRead),
      (i = .copy c h ∧ running c 0 s = true ∨ i = .fill c h ∧ running c 1 s = true ∨ i = .toPool c h ∧ running c 2 s = true
        ∨ i = .fromPool c h ∧ running c 3 s = true) →
      (∀ (n d : Nat) (u : State) (l : List (Byte × Bool)), opCheck c s = 0 →
        (i = .toPool c h → x.buf ≠ 0 ∧ linkHeld [descSrc x.desc] s = false) → n = turnBytes c s → n ≠ 0 →
        linkHeld (movePtrs c s) s = false → (∀ q ∈ movePtrs c s, ptrWaits q n s = false) → d = (moveEnds c s).2 + x.moved →
        (if i = .fill c h then (some ((patternBytes (descSrc x.desc) x.moved n).map (·, false)), s)
          else ptrRead c ((moveEnds c s).1 + x.moved) n h s) = (some l, u) →
        (ptrHbm (moveEnds c s).2 = true ∨ hostError h = false) → Canonical s →
        ∃ t, exec i s = .next t ∧ (getChan c t).moved = x.moved + n
          ∧ (getChan c t).phase = (if descLength x.desc ≤ x.moved + n then .moved else .ready)
          ∧ (getChan c t).result = (if l.any Prod.snd then codeSrcPoison else x.result)
          ∧ rd64 (Reg.dmaBytesLo c) (Reg.dmaBytesHi c) t = (rd64 (Reg.dmaBytesLo c) (Reg.dmaBytesHi c) s + n) % 2 ^ 64
          ∧ (ptrHbm d = true → StoredAt (ptrAddr d) (l.map Prod.fst) u t ∧ t.outbox = (resolve (ptrAddr d) l.length u).outbox)
          ∧ (ptrHbm d = false → t.fs = u.fs
            ∧ t.outbox = u.outbox ++ [.hostWrite (chanDomain c s) d (l.map Prod.fst) (l.any Prod.snd)])
          ∧ t.pools = s.pools ∧ t.comp = s.comp)
      ∧ (opCheck c s ≠ 0 →
        ∃ t, exec i s = .next t ∧ dmaState c t = 4 ∧ dmaEnabled c t = false
          ∧ fget (Reg.dmaStatus c) DmaStatus.lastResult t = opCheck c s ∧ fget (Reg.dmaStatus c) DmaStatus.haltEv t = 1
          ∧ getChan c t = x.fresh))
    ∧ (∀ (h : HostRead) (n m : Nat) (l : List Nat), running c 2 s = true → opCheck c s = 0 → x.buf = 0 →
      linkHeld [descSrc x.desc] s = false → allocCode (toPoolPool x.desc) (1024 + c) (toPoolOwner c x.desc) s = 0 →
      poolHeld (toPoolPool x.desc) s < waitLevel (toPoolPool x.desc) s → getHead (toPoolPool x.desc) s = n :: m :: l →
      ∃ t, exec (.toPool c h) s = .next t ∧ getBuf n t = ⟨1, 1, toPoolOwner c x.desc⟩)
    ∧ ∀ h : HostRead, x.phase = .moved → linkHeld (dmaCur c s :: flushes c s) s = false → ptrWaits (dmaCur c s) 8 s = false →
      (descOp x.desc = 3 → descSrc x.desc / 2 ^ 62 % 2 = 0) → dmaCur c s % 32 = 0 → hostLine (ptrAddr (dmaCur c s) / 64) s = none →
      (ptrHbm (dmaCur c s) = true ∧ flushes c s = [] ∨ hostError h = false) → Canonical s →
      ∃ t, exec (.descriptorWriteback c h) s = .next t
        ∧ (ptrHbm (dmaCur c s) = true → StoredAt (ptrAddr (dmaCur c s))
            (leBytes (descWord x.desc 0 % 2 ^ 31) 4 ++ leBytes (statusWord c x.result s) 4) s t)
        ∧ fget (Reg.dmaDescCnt c) DmaDescCnt.descCnt t = (fget (Reg.dmaDescCnt c) DmaDescCnt.descCnt s + 1) % 2 ^ 32
        ∧ fget (Reg.dmaStatus c) DmaStatus.lastResult t = x.result % 256
        ∧ (descLast x.desc = true → dmaState c t = 1 ∧ (getChan c t).phase = .idle)
        ∧ (descLast x.desc = false → dmaCur c t = descNext x.desc ∧ (getChan c t).phase = .reading)
        ∧ t.pools = s.pools ∧ t.comp = s.comp

/-- Bring-up (R449 to R452): the lanes of a port, of a quad link or of the lane alone go from step to step together, a link that comes up
shows LINK_UP and TARGET_UP, a step 5 that does not lock within 500 ms of step 3 is retried, and a lock that is lost takes the link down. -/
def Obligations.LanesComeUpStepByStep : Prop :=
  ∀ (s : State) (l : LaneId), l.val ∈ laneGroup l s →
    ((laneState l s = 1 ∨ ringLaneStarts l s = true) →
      ∃ t, exec (.lanePllLock l) s = .next t ∧ OnlyRegs ((laneGroup l s).map Reg.lanLaneStatus) s t
        ∧ ∀ k ∈ laneGroup l s, laneState k t = 2)
    ∧ (laneState l s = 2 → ringLaneLit l s = true →
      ∃ t, exec (.laneSignalDetect l) s = .next t
        ∧ OnlyRegs ((laneGroup l s).map Reg.lanLaneStatus) { s with lanes := t.lanes } t
        ∧ smGet 0 (laneHead l s) t.lanes.since = s.now
        ∧ ∀ k ∈ laneGroup l s, laneState k t = 3 ∧ fget (Reg.lanLaneStatus k) LanLaneStatus.sigDet t = 1
          ∧ fget (Reg.lanLaneStatus k) LanLaneStatus.cdrLock t = 1)
    ∧ (∀ inverted : Bool, laneState l s = 3 →
      ∃ t, exec (.laneAdapted l inverted) s = .next t
        ∧ OnlyRegs ((laneGroup l s).map Reg.lanLaneStatus ++ (laneGroup l s).map Reg.lanRxEq) { s with freeCtr := t.freeCtr } t
        ∧ ∀ k ∈ laneGroup l s, laneState k t = 5 ∧ fget (Reg.lanRxEq k) LanRxEq.dfeTaps t = dfeTaps k s
          ∧ fbit (Reg.lanLaneStatus k) LanLaneStatus.rxInvDet t
            = (if 32 ≤ k ∧ k < 48 then false
               else if fbit (Reg.lanLaneCtl k) LanLaneCtl.rxPolAuto s then inverted
               else fbit (Reg.lanLaneCtl k) LanLaneCtl.rxInv s))
    ∧ (∀ n : List (Fin 16), laneState l s = 5 →
      ∃ t, exec (.laneAlignLock l n) s = .next t ∧ (∀ k ∈ laneGroup l s, laneState k t = 6)
        ∧ (∀ (i k : Nat) (v : Fin 16), (laneGroup l s)[i]? = some k → n[i]? = some v →
            fget (Reg.lanLaneStatus k) LanLaneStatus.logical t = v.val)
        ∧ (∀ j, l.val < 32 → portOfLane (l / 4) (l % 4) s = some j →
            fbit (Reg.lanMacPortStatus (l / 4) j) LanMacPortStatus.linkUp t = true
            ∧ ∀ i ∈ portsOfMac (l / 4) j s, fbit (Reg.sptStatus i) SptStatus.targetUp t = true)
        ∧ (32 ≤ l.val → l.val < 48 → ∀ i ∈ portsOfSdi l s, fbit (Reg.sptStatus i) SptStatus.targetUp t = true)
        ∧ fget (Reg.icuSrcStat (laneSource (laneHead l s))) IcuSrcStat.count t
            = min 255 (fget (Reg.icuSrcStat (laneSource (laneHead l s))) IcuSrcStat.count s + 1)
        ∧ t = { s with regs := t.regs })
    ∧ (3 ≤ laneState l s → laneState l s ≤ 5 → retryDue l s = true →
      ∃ t, exec (.laneRetryTimeout l) s = .next t
        ∧ OnlyRegs ((laneGroup l s).map Reg.lanLaneStatus) { s with lanes := t.lanes } t
        ∧ smGet 0 (laneHead l s) t.lanes.since = s.now
        ∧ ∀ k ∈ laneGroup l s, laneState k t = 3
          ∧ fget (Reg.lanLaneStatus k) LanLaneStatus.retryCnt t
              = min 15 (fget (Reg.lanLaneStatus k) LanLaneStatus.retryCnt s + 1))
    ∧ (laneState l s = 6 →
      ∃ t, exec (.laneLockLost l) s = .next t ∧ (∀ k ∈ laneGroup l s, laneState k t = 2)
        ∧ fget (Reg.lanLaneStatus l) LanLaneStatus.lockLost t = 1 ∧ fget (Reg.lanLaneStatus l) LanLaneStatus.sigDet t = 0
        ∧ fget (Reg.lanLaneStatus l) LanLaneStatus.cdrLock t = 0
        ∧ fget (Reg.lanLockLostCnt l) LanLockLostCnt.lockLostCnt t
            = min (fget (Reg.lanLockLostCnt l) LanLockLostCnt.lockLostCnt s + 1) (2 ^ LanLockLostCnt.lockLostCnt.width - 1)
        ∧ (∀ j, l.val < 32 → portOfLane (l / 4) (l % 4) s = some j →
            fbit (Reg.lanMacPortStatus (l / 4) j) LanMacPortStatus.linkUp t = false
            ∧ (fbit (Reg.lanMacPortStatus (l / 4) j) LanMacPortStatus.linkUp s = true →
                fbit (Reg.lanMacPortStatus (l / 4) j) LanMacPortStatus.linkDownEv t = true))
        ∧ t = { s with regs := t.regs })
    ∧ (s.lanes.recal.contains l.val = true →
      (laneState l s = 3 ∨ laneState l s = 5 ∨ ∀ k ∈ laneGroup l s, laneState k s = 6) →
      ∃ t, exec (.recalDone l) s = .next t ∧ (∀ k ∈ laneGroup l s, laneState k t = 6)
        ∧ fget (Reg.lanLaneStatus l) LanLaneStatus.recalDone t = 1 ∧ t.lanes.recal.contains l.val = false
        ∧ t = { s with regs := t.regs, lanes := t.lanes, freeCtr := t.freeCtr })

/-- A MAC port, an SDI lane or quad link is enabled once its check passes, and a refused one says why (R462); a forced recalibration is
refused on an active lane (R455 to R457). PRBS generators and checkers (R459 to R461): an active lane needs the key, an NRZ lane takes no
PAM4 pattern, a checker locks on 64 clean bits, counts its errors and loses lock with 64 of them; an SDI output lane sends the line of its
port's picture, or black (R448). -/
def Obligations.LanesAreEnabledAndTested : Prop :=
  (∀ (s : State) (d : DomId) (v : Word), curMode s ≠ 5 →
      (∀ (m : MacId) (j : Fin 4) (clk : BitVec 4), HostMayWrite d (Reg.lanMacCtl m) s → (portEn m s).testBit j = false →
        (∀ k < 4, k ≠ j.val → (getF LanMacCtl.portEn v).testBit k = (portEn m s).testBit k) →
        ∃ t, exec (.macPortEnable d m j v clk) s = .next t
          ∧ fget (Reg.lanMacPortStatus m j) LanMacPortStatus.portRefuse t
              = macPortCheck m j (decide (getF LanMacCtl.auiNarrow v = 1)) clk s
          ∧ (macPortCheck m j (decide (getF LanMacCtl.auiNarrow v = 1)) clk s = 0 → portEn m t = portEn m s + 2 ^ j.val
              ∧ portNarrow m j t = decide (getF LanMacCtl.auiNarrow v = 1)
              ∧ ∀ k ∈ portLanes (macMode m s) (decide (getF LanMacCtl.auiNarrow v = 1)) j, laneState (4 * m + k) t = 1)
          ∧ (macPortCheck m j (decide (getF LanMacCtl.auiNarrow v = 1)) clk s ≠ 0 → portEn m t = portEn m s
              ∧ OnlyRegs [Reg.lanMacCtl m, Reg.lanMacPortStatus m j] s t)
          ∧ OnlyRegs (Reg.lanMacCtl m :: Reg.lanMacPortStatus m j :: (List.range 4).map fun k => Reg.lanLaneStatus (4 * m + k))
              { s with lanes := t.lanes } t)
      ∧ (∀ (l : Fin 16) (clk : BitVec 4), HostMayWrite d (Reg.lanLaneCtl (32 + l.val)) s → sdiEnabled (32 + l.val) s = false →
        getF LanLaneCtl.recal v = 0 →
        ∃ t, exec (.sdiLaneEnable d l v clk) s = .next t
          ∧ fget (Reg.lanLaneStatus (32 + l.val)) LanLaneStatus.laneRefuse t = sdiCheck (32 + l.val) clk s
          ∧ (sdiCheck (32 + l.val) clk s = 0 → sdiEnabled (32 + l.val) t = true ∧ laneState (32 + l.val) t = 1
              ∧ sdiCtl (32 + l.val) t = rd (Reg.lanSdiCtl (32 + l.val)) s
              ∧ OnlyRegs (Reg.lanLaneCtl (32 + l.val) :: (laneGroup (32 + l.val) t).map Reg.lanLaneStatus)
                  { s with lanes := t.lanes } t)
          ∧ (sdiCheck (32 + l.val) clk s ≠ 0 → sdiEnabled (32 + l.val) t = false
              ∧ OnlyRegs [Reg.lanLaneCtl (32 + l.val), Reg.lanLaneStatus (32 + l.val)] s t))
      ∧ ∀ l : LaneId, HostMayWrite d (Reg.lanLaneCtl l) s →
        (32 ≤ l.val → l.val < 48 → sdiEnabled l s = true ∧ getF LanLaneCtl.sdiEn v = 1) →
        (laneActive l s = true →
          ∃ t, exec (.recal d l v) s = .next t ∧ fget (Reg.lanLaneStatus l) LanLaneStatus.laneRefuse t = 0xE1
            ∧ laneState l t = laneState l s ∧ OnlyRegs [Reg.lanLaneCtl l, Reg.lanLaneStatus l] s t)
        ∧ (laneActive l s = false → laneState l s ≠ 0 → l.val ∈ laneGroup l s →
          ∃ t, exec (.recal d l v) s = .next t ∧ (∀ k ∈ laneGroup l s, laneState k t = 3) ∧ t.lanes.recal.contains l.val = true
            ∧ fget (Reg.lanLaneStatus l) LanLaneStatus.laneRefuse t = 0
            ∧ t = { s with regs := t.regs, lanes := t.lanes, freeCtr := t.freeCtr }))
  ∧ (∀ (s : State) (l : LaneId),
      (∀ (d : DomId) (v : Word), HostMayWrite d (Reg.lanPrbs l) s → curMode s ≠ 5 →
        (getF LanPrbs.genEn v = 1 → laneActive l s = true → keyArmed s = false →
          exec (.prbsGeneratorWrite d l v) s = .next (accessErr d kindKey (Reg.lanPrbs l) s))
        ∧ ((getF LanPrbs.genEn v = 0 ∨ laneActive l s = false ∨ keyArmed s = true) →
          ((6 ≤ prbsPattern (getF LanPrbs.genPat v) ∨ 6 ≤ prbsPattern (getF LanPrbs.chkPat v)) → lanePam4 l s = false →
            ∃ t, exec (.prbsGeneratorWrite d l v) s = .next t ∧ fget (Reg.lanLaneStatus l) LanLaneStatus.laneRefuse t = 0xB1
              ∧ OnlyRegs [Reg.lanLaneStatus l, Reg.chipKeyState] s t)
          ∧ ((prbsPattern (getF LanPrbs.genPat v) < 6 ∧ prbsPattern (getF LanPrbs.chkPat v) < 6 ∨ lanePam4 l s = true) →
            ∃ t, exec (.prbsGeneratorWrite d l v) s = .next t ∧ t = { s with regs := t.regs }
              ∧ fget (Reg.lanPrbs l) LanPrbs.genEn t = getF LanPrbs.genEn v ∧ fget (Reg.lanPrbs l) LanPrbs.chkEn t = getF LanPrbs.chkEn v
              ∧ fget (Reg.lanPrbs l) LanPrbs.genPat t = getF LanPrbs.genPat v
              ∧ fget (Reg.lanPrbs l) LanPrbs.chkPat t = getF LanPrbs.chkPat v
              ∧ (getF LanPrbs.chkEn v = 0 → fget (Reg.lanPrbs l) LanPrbs.chkLock t = 0)
              ∧ (getF LanPrbs.genEn v = 1 → laneState l t = 7)
              ∧ (getF LanPrbs.genEn v = 0 → fbit (Reg.lanPrbs l) LanPrbs.genEn s = true →
                  laneState l t = if (laneGroup l s).isEmpty then 0 else 2))))
      ∧ (∀ clean : Nat, fbit (Reg.lanPrbs l) LanPrbs.chkEn s = true →
        ∃ t, exec (.prbsCheckerLock l clean) s = .next t ∧ OnlyRegs [Reg.lanPrbs l] s t
          ∧ fbit (Reg.lanPrbs l) LanPrbs.chkLock t = (fbit (Reg.lanPrbs l) LanPrbs.chkLock s || decide (64 ≤ clean)))
      ∧ (∀ errs : Nat, fbit (Reg.lanPrbs l) LanPrbs.chkLock s = true →
        ∃ t, exec (.prbsCheckerLockLoss l errs) s = .next t ∧ fbit (Reg.lanPrbs l) LanPrbs.chkLock t = decide (errs < 64)
          ∧ fget (Reg.lanPrbsErr l) LanPrbsErr.prbsErr t = min (fget (Reg.lanPrbsErr l) LanPrbsErr.prbsErr s + errs) (2 ^ 32 - 1)
          ∧ OnlyRegs [Reg.lanPrbs l, Reg.lanPrbsErr l] s t)
      ∧ ∀ (k : Fin 16) (ctl : Word) (d line : Nat), laneGroup (32 + k.val) s ≠ [] → sdiIsOutput (32 + k.val) s = true →
        2 ≤ laneState (32 + k.val) s → curMode s ≠ 5 → ctl = sdiCtl (laneHead (32 + k.val) s) s → d = getF LanSdiCtl.dom ctl →
        line = (domPos d s).2.1 →
        ∃ (black : Bool) (y : Nat) (h : Option HeldPic), exec (.sdiOutputLine k) s = .next { s with
              outbox := s.outbox ++ [.sdiLine (32 + k.val) line black y
                (Config.payloadId ctl.toNat (match quadPlace (32 + k.val) s with | some i => i + 1 | none => 0))
                (sdiLaneSamples (32 + k.val) d line h s)] }
          ∧ ((portsOfSdi (32 + k.val) s).find? (fun n => sptEnabled n s) = none → black = true ∧ h = none)
          ∧ ∀ n, (portsOfSdi (32 + k.val) s).find? (fun n => sptEnabled n s) = some n →
            black = decide ((getPipe (fget (Reg.sptBind2 n) SptBind2.pipe s) s).lastEmit = 0)
            ∧ h = (getPipe (fget (Reg.sptBind2 n) SptBind2.pipe s) s).lastOut
            ∧ y = (getPipe (fget (Reg.sptBind2 n) SptBind2.pipe s) s).lastEmit - 1)

/-- The ring (R462, R466, R469 to R474): ACTIVE is taken once its check passes; a FORWARD device passes a frame on as it came and reckons
time from it, a MEMBER updates ACC and UPD_ID, the master keeps its own frame and originates the next one each microsecond (R465); 64 bad
headers lose the frame lock; a master that is silent for 16 µs starts the choice of a new one; a ring trigger whose time has come latches
the position of its domain. The pass-through of a chip in BYPASS forwards every frame (R178). -/
def Obligations.RingDevicesForwardAndOriginate : Prop :=
  ∀ s : State,
    (∀ (d : DomId) (v : Word) (clk : BitVec 4), HostMayWrite d Reg.lanRingCtl s → curMode s ≠ 5 →
      fbit Reg.lanRingCtl LanRingCtl.active s = false → getF LanRingCtl.active v = 1 →
      ∃ t, exec (.ringActivate d v clk) s = .next t ∧ fget Reg.lanRingStatus LanRingStatus.ringRefuse t = ringCheck clk s
        ∧ fbit Reg.lanRingCtl LanRingCtl.active t = decide (ringCheck clk s = 0)
        ∧ (ringCheck clk s = 0 → t.ring.wanted = some true ∧ t.ring.id = getF LanRingCtl.ringId v)
        ∧ OnlyRegs [Reg.lanRingCtl, Reg.lanRingStatus] { s with ring := t.ring } t)
    ∧ (∀ (f g : RingFrame) (bad : List (Fin 40)), memberPath s = true → s.ring.wanted = none → g = cellsLeft (bad.map Fin.val) f →
      (headerVoid (bad.map Fin.val) = false →
        (ringState s = 1 →
          ∃ t, exec (.ringFrameReceive f bad) s = .next t ∧ t.outbox = s.outbox ++ [ringOut g]
            ∧ rd Reg.lanRingLoop t = BitVec.ofNat 32 f.loop ∧ fbit Reg.lanRingStatus LanRingStatus.frameLock t = true
            ∧ (f.kind = 1 → f.updId = fget Reg.lanRingCable LanRingCable.upId s →
                t.ring.time = some (f.sec * 1000000000 + f.ns + f.acc + cableNs s))
            ∧ t.comp = s.comp ∧ t.pwr = s.pwr ∧ t.pipes = s.pipes)
        ∧ (ringState s = 2 →
          ∃ t h, exec (.ringFrameReceive f bad) s = .next t ∧ t.outbox = s.outbox ++ [ringOut h]
            ∧ h = { g with
                acc := f.acc + cableNs s + 40
                updId := s.ring.id
                trigUp := h.trigUp
                marks := h.marks
                cells := h.cells } ∧ t.comp = s.comp ∧ t.pwr = s.pwr)
        ∧ (ringState s = 3 → f.kind = 1 → f.masterId = s.ring.id →
          ∃ t, exec (.ringFrameReceive f bad) s = .next t ∧ t.ring.returned = some g ∧ t.comp = s.comp ∧ t.pwr = s.pwr))
      ∧ (headerVoid (bad.map Fin.val) = true → ringState s ≠ 0 → s.ring.badRun = 63 →
        fbit Reg.lanRingStatus LanRingStatus.frameLock s = true →
        ∃ t, exec (.ringFrameReceive f bad) s = .next t ∧ fbit Reg.lanRingStatus LanRingStatus.frameLock t = false
          ∧ fbit Reg.lanRingStatus LanRingStatus.lockChg t = true ∧ t.comp = s.comp ∧ t.pwr = s.pwr
          ∧ (ringState s = 1 → OnlyRegs [Reg.lanRingStatus, Reg.lanRingBadfrm, Reg.icuSrcStat 440]
              { s with ring := t.ring, outbox := s.outbox ++ [ringOut g] } t)))
    ∧ (∀ (f : RingFrame) (bad : List (Fin 40)), s.pwr.passThrough = true → s.pwr.bypass = true →
      fget Reg.chipMode ChipMode.mittenPath s = 1 →
      exec (.ringFrameReceive f bad) s = .next { s with outbox := s.outbox ++ [ringOut f] })
    ∧ (memberPath s = true → ringState s = 3 → s.ring.wanted ≠ some false → originateDue s = true →
      ∃ t g, exec .ringFrameOriginate s = .next t ∧ t.outbox = s.outbox ++ [ringOut g] ∧ g.kind = 1 ∧ g.masterId = s.ring.id
        ∧ g.masterPri = s.ring.pri ∧ g.seq = (s.ring.seqOut + 1) % 2 ^ 32 ∧ t.ring.seqOut = g.seq ∧ g.acc = 0
        ∧ 1000000000 * g.sec + g.ns = chipNs s ∧ t.ring.returned = none ∧ t.ring.sentT = s.clock.timeBase
        ∧ t.comp = s.comp ∧ t.pwr = s.pwr ∧ t.pipes = s.pipes)
    ∧ (memberPath s = true → ringState s = 4 → s.ring.wanted ≠ some false → originateDue s = true →
      ∃ t g, exec .ringFrameOriginate s = .next t
        ∧ t = { s with outbox := s.outbox ++ [ringOut g], ring := { s.ring with seqOut := g.seq, sentT := s.clock.timeBase } }
        ∧ g.kind = 2 ∧ g.masterId = s.ring.id ∧ g.masterPri = s.ring.pri ∧ g.seq = (s.ring.seqOut + 1) % 2 ^ 32)
    ∧ (memberPath s = true → s.ring.heardAt + 25600 ≤ s.now → ringState s ≤ 2 →
      fbit Reg.lanRingCtl LanRingCtl.active s = true → 0 < s.ring.pri →
      ∃ t, exec .ringMasterTimeout s = .next t ∧ ringState t = 4 ∧ t = { s with regs := t.regs, ring := t.ring }
        ∧ ∀ o, (∀ n, o ≠ Reg.sptStatus n) → o ≠ Reg.lanRingStatus → rd o t = rd o s)
    ∧ ∀ (k : Fin 8) (e : Nat × Nat), s.ring.trigDue.find? (fun x => x.1 == k.val && decide (x.2 ≤ s.now)) = some e →
      ∃ t, exec (.ringTriggerAction k) s = .next t
        ∧ ((fget Reg.rckTrigCtl RckTrigCtl.tinEn s).testBit (k % 4) = true →
            rd (Reg.rckTrigPosLo (k % 4)) t = domPosLo (fget Reg.rckTrigCtl RckTrigCtl.tinDom s / 16 ^ (k.val % 4) % 16) s
            ∧ rd (Reg.rckTrigPosHi (k % 4)) t = domPosHi (fget Reg.rckTrigCtl RckTrigCtl.tinDom s / 16 ^ (k.val % 4) % 16) s)
        ∧ OnlyRegs [Reg.rckTrigPosLo (k % 4), Reg.rckTrigPosHi (k % 4)]
            { s with clock := t.clock, ring := { s.ring with trigDue := s.ring.trigDue.erase e } } t

/-- Frames at the ingress (R496 to R500): one that no port takes counts as unmatched, one with a bad IP checksum or beyond the policer's
tokens is dropped and counted, and a coded one reaches its decoder in a pool buffer; SDI lines reach capture (R445). Policing and merging
(R498, R500): a microsecond adds SPT_POL_RATE tokens up to the depth, a write fills the bucket; a merge that has waited MERGE_US gives the
missing numbers up, and a partner that receives nothing shows PATH_LOSS_EV. -/
def Obligations.IngressAndPolicing : Prop :=
  (∀ s : State, curMode s ≠ 5 →
      (∀ (m : MacId) (j : Fin 4) (corr uncorr : Nat) (frame : List Byte) (f : FrameIn), f = parseFrame frame → fbit (Reg.lanMacPortStatus m j) LanMacPortStatus.linkUp s = true →
        isPtp m f s = false →
        ((f.dstMac ≠ macAddr (rd (Reg.schMacAddrLo (4 * m.val + j.val)) s) (rd (Reg.schMacAddrHi (4 * m.val + j.val)) s)
              ∧ macGroup f.dstMac = false ∨ classify m j f s = none ∧ rawPort m j false s = none) →
          ∃ t, exec (.macFrameReceive m j corr uncorr frame) s = .next t
            ∧ fget (Reg.schMacUnmatched (4 * m.val + j.val)) SchMacUnmatched.count t
                = min (fget (Reg.schMacUnmatched (4 * m.val + j.val)) SchMacUnmatched.count s + 1) (2 ^ 32 - 1)
            ∧ fget (Reg.lanMacPortFecCorr m j) LanMacPortFecCorr.count t
                = min (fget (Reg.lanMacPortFecCorr m j) LanMacPortFecCorr.count s + corr) (2 ^ LanMacPortFecCorr.count.width - 1)
            ∧ OnlyRegs [Reg.schMacUnmatched (4 * m.val + j.val), Reg.lanMacPortFecCorr m j, Reg.lanMacPortFecUncorr m j] s t)
        ∧ ∀ n : PortId, (macGroup f.dstMac = true
              ∨ f.dstMac = macAddr (rd (Reg.schMacAddrLo (4 * m.val + j.val)) s) (rd (Reg.schMacAddrHi (4 * m.val + j.val)) s)) →
          classify m j f s = some n.val → sptEnabled n s = true →
          ∃ t, exec (.macFrameReceive m j corr uncorr frame) s = .next t
            ∧ rd64 (Reg.sptPktsLo n) (Reg.sptPktsHi n) t = (rd64 (Reg.sptPktsLo n) (Reg.sptPktsHi n) s + 1) % 2 ^ 64
            ∧ rd64 (Reg.sptBytesLo n) (Reg.sptBytesHi n) t
                = (rd64 (Reg.sptBytesLo n) (Reg.sptBytesHi n) s + (f.bytes.length + 24)) % 2 ^ 64
            ∧ (f.ipSumOk = false → fbit (Reg.sptStatus n) SptStatus.csumEv t = true
                ∧ fget (Reg.sptCsumBad n) SptDropPol.count t = min (fget (Reg.sptCsumBad n) SptDropPol.count s + 1) (2 ^ 32 - 1)
                ∧ t = { s with regs := t.regs, ports := t.ports })
            ∧ (f.ipSumOk = true → f.udpSumOk = true → rd (Reg.sptPolRate n) s ≠ 0 →
                (getPort n s).tokens < frameTokens (f.bytes.length + 4) →
                fbit (Reg.sptStatus n) SptStatus.polDropEv t = true
                ∧ fget (Reg.sptDropPol n) SptDropPol.count t = min (fget (Reg.sptDropPol n) SptDropPol.count s + 1) (2 ^ 32 - 1)
                ∧ t = { s with regs := t.regs, ports := t.ports })
            ∧ ∀ (e : PortEntry) (r : PacketIn) (b b' : Nat) (l : List Nat), f.ipSumOk = true → f.udpSumOk = true →
                rd (Reg.sptPolRate n) s = 0 → portEntry n s = some e → e.pipe < 1024 → e.pool < 16 → 1024 ≤ e.pair →
                pipeEnabled e.pipe s = true → portEncap n s ≠ 3 → portEncap n s ≠ 1 → portPacket n e.pipe f s = some r → r.fault = 0 →
                r.pieces = [(r.bytes.length, .data)] → r.bytes ≠ [] →
                r.bytes.length ≤ 2 ^ (poolEntry e.pool s).log2 → allocCode e.pool (portOwner n) (portOwner n) s = 0 →
                getHead e.pool s = b :: b' :: l → (getPort n s).lastSeq = none → (getPort n s).unitOpen ≠ 1 →
                (getPipe e.pipe s).lateFor = none → (getPipe e.pipe s).coded = [] →
                (getPipe e.pipe t).coded = [⟨[⟨b, 0, r.bytes.length, true⟩], r.marker, some r.ts, (getPipe e.pipe s).losses⟩]
                ∧ (getPort n t).lastSeq = some (2 ^ 16 + r.seq) ∧ (getPort n t).inPic = !r.marker
                ∧ poolFree e.pool t = poolFree e.pool s - 1 ∧ ∀ k, k ≠ b → getBuf k t = getBuf k s)
      ∧ ∀ (l : Fin 16) (y : Nat) (first f2 : Bool) (payload : Option Word) (crcBad : Bool) (line : LineIn),
        laneState (32 + l.val) s = 6 →
        ∃ t, exec (.sdiLineReceive l y first f2 payload crcBad line) s = .next t
          ∧ (∀ w, payload = some w → rd (Reg.lanSdiPayload (32 + l.val)) t = w)
          ∧ fget (Reg.lanSdiCrcCnt (32 + l.val)) LanSdiCrcCnt.crcCnt t
              = min (fget (Reg.lanSdiCrcCnt (32 + l.val)) LanSdiCrcCnt.crcCnt s + (if crcBad then 1 else 0))
                  (2 ^ LanSdiCrcCnt.crcCnt.width - 1)
          ∧ ∀ e : PortEntry, payload = none → crcBad = false → first = false → e.pipe < 1024 → quadPlace (32 + l.val) s = none →
            s.comp.ports.find? (fun e => e.kind == 1 && !e.egress && sdiBinds e.bind (32 + l.val) && portTakes e.port s) = some e →
            pipeEnabled e.pipe s = true → t = captureLine e.pipe y 0 line s)
  ∧ (∀ (s : State) (n : PortId),
      ((getPort n s).tokenAt + 1600 ≤ s.now →
        ∃ t, exec (.policerRefill n) s = .next t ∧ t = { s with ports := t.ports }
        ∧ getPort n t = { getPort n s with
            tokens := min ((getPort n s).tokens + (rd (Reg.sptPolRate n) s).toNat)
              ((rd (Reg.sptPolBurst n) s).toNat % 2 ^ 24 * 8000)
            tokenAt := (getPort n s).tokenAt + 1600 }
        ∧ ∀ k, k ≠ n.val → getPort k t = getPort k s)
      ∧ (∀ (d : DomId) (burst : Bool) (v : Word) (o : Nat), o = (if burst then Reg.sptPolBurst n else Reg.sptPolRate n) →
        HostMayWrite d o s → curMode s ≠ 5 →
        ∃ t, exec (.policerWrite d n burst v) s = .next t ∧ (getPort n t).tokens = (rd (Reg.sptPolBurst n) t).toNat % 2 ^ 24 * 8000
          ∧ (rd o t).toNat % 2 ^ 24 = v.toNat % 2 ^ 24 ∧ OnlyRegs [o] { s with ports := t.ports } t
          ∧ ∀ k, k ≠ n.val → getPort k t = getPort k s)
      ∧ (∀ (m k q : Nat) (h : MergeIn), mergePartner n s = some m → k = min n.val m → (getPort k s).merge = [h] →
        (getPort k s).nextSeq = some q → q < h.seq →
        (h.since + mergeCycles h.port s ≤ s.now →
          ∃ t, exec (.mergeTimeout n) s = .next t ∧ (getPort k t).merge = [] ∧ (getPort k t).nextSeq = some (h.seq + 1)
            ∧ fget (Reg.sptLoss k) SptDropPol.count t = min (fget (Reg.sptLoss k) SptDropPol.count s + (h.seq - q)) (2 ^ 32 - 1)
            ∧ t.comp = s.comp ∧ t.pwr = s.pwr)
        ∧ (s.now < h.since + mergeCycles h.port s → exec (.mergeTimeout n) s = .next s))
      ∧ ∀ m : Nat, portTakes n s = true → mergePartner n s = some m → (getPort n s).silent = false →
        (getPort n s).heard + mergeCycles n s ≤ s.now → s.now < (getPort m s).heard + mergeCycles n s →
        ∃ t, exec (.pathLoss n) s = .next t ∧ fbit (Reg.sptStatus n) SptStatus.pathLossEv t = true ∧ (getPort n t).silent = true
          ∧ OnlyRegs [Reg.sptStatus n, Reg.icuSrcStat (448 + n.val / 16)] { s with ports := t.ports } t)

/-- Scheduling targets (R505 to R508): PTP first, then RAW_ETH, then PRIO 1 and PRIO 0 by deficit round robin, with null packets where a
constant-rate multiplex has none waiting (R492, tsPad); a packet that ends leaves and is counted, and a nanosecond moves the credit of
every enabled shaper. Shaper settings and telemetry (R508, R511): a write during a packet waits for its end and another takes effect at
once with the credit at 0 or at HI; a sample shows the queued bytes and the age of the head. -/
def Obligations.TargetsAndShapers : Prop :=
  (∀ s : State,
      (∀ (k : Fin 33) (p : State), p = refreshTarget k (tsPad k s) → (getTarget k p).busy = 0 → targetUp k p = true → curMode p ≠ 5 →
        (∀ (q : Packet) (l : List Packet), (getTarget k p).ptp = q :: l →
          ∃ t, exec (.transmitOpportunity k) s = .next t
            ∧ t.outbox = p.outbox ++ [.frame 1024 1 q.seq q.ts q.size false true q.payload]
            ∧ (getTarget k t).ptp = l ∧ (getTarget k t).busy = 1025 ∧ (getTarget k t).endAt = s.now + sendCycles k q.size s
            ∧ t = { p with outbox := t.outbox, targets := t.targets })
        ∧ (∀ (n : Nat) (q : Packet) (l : List Packet), (getTarget k p).ptp = [] → k.val < 32 → rawPort (k / 4) (k % 4) true p = some n →
          (getPort n p).queue = q :: l →
          ∃ t, exec (.transmitOpportunity k) s = .next t ∧ (getTarget k t).busy = n + 1 ∧ (getPort n t).sending = some q
            ∧ (getPort n t).queue = l ∧ (getTarget k t).endAt = s.now + sendCycles k q.size s ∧ t = { p with ports := t.ports, targets := t.targets })
        ∧ ∀ (n : Nat) (l : List Nat) (q : Packet) (qs : List Packet) (a : Nat), (getTarget k p).ptp = [] →
          (if k.val < 32 then rawPort (k / 4) (k % 4) true p else none) = none →
          ((getTarget k p).high = n :: l ∨ (getTarget k p).high = [] ∧ (getTarget k p).low = n :: l) →
          (getPort n p).queue = q :: qs →
          a = (getPort n p).deficit
            + (if (getPort n p).fresh then (fget (Reg.schPortCtl n) SchPortCtl.quantum p + 1) * 64 else 0) →
          q.size ≤ a →
          ∃ t, exec (.transmitOpportunity k) s = .next t ∧ (getTarget k t).busy = n + 1 ∧ (getPort n t).sending = some q
            ∧ (getPort n t).queue = qs ∧ (getTarget k t).endAt = s.now + sendCycles k q.size s ∧ (qs ≠ [] → (getPort n t).deficit = a - q.size)
            ∧ t = { p with ports := t.ports, targets := t.targets })
      ∧ (∀ (k : Fin 33) (n : PortId), curMode s ≠ 5 → targetPorts k s = [n.val] → sptEnabled n s = true → portEncap n s = 3 →
        tsSpacing n s ≠ 0 → (getPort n s).queue = [] → (getPort n s).tsNext ≤ s.now → (getTarget k s).busy ≠ 0 →
        portLinkUp n s = true → fbit (Reg.sptImpCtl n) SptImpCtl.impEn s = false →
        ∃ t q, exec (.transmitOpportunity k) s = .next t ∧ (getPort n t).queue = [q] ∧ q.since = s.now
          ∧ q.size = wireSize n (12 + 188 * tsPackets n s) s ∧ (getPort n t).tsNext = s.now + tsSpacing n s
          ∧ (getPort n t).seq = (getPort n s).seq + 1 ∧ t = { s with ports := t.ports, targets := t.targets })
      ∧ (∀ (k : Fin 33) (n : PortId) (q : Packet), (getTarget k s).busy = n.val + 1 → (getPort n s).sending = some q → q.kind ≠ 5 →
        (getPort n s).change = none → (getTarget k s).endAt ≤ s.now →
        ∃ t, exec (.packetEnd k) s = .next t ∧ (getTarget k t).busy = 0 ∧ (getPort n t).sending = none
          ∧ t.outbox = s.outbox ++ [.frame n q.kind q.seq (if q.kind = 3 then pcrOf n s else q.ts) q.size q.marker q.sumOk
              (frameBytes n q s)]
          ∧ rd64 (Reg.sptPktsLo n) (Reg.sptPktsHi n) t = (rd64 (Reg.sptPktsLo n) (Reg.sptPktsHi n) s + 1) % 2 ^ 64
          ∧ rd64 (Reg.sptBytesLo n) (Reg.sptBytesHi n) t = (rd64 (Reg.sptBytesLo n) (Reg.sptBytesHi n) s + q.size) % 2 ^ 64
          ∧ t.comp = s.comp ∧ t.pwr = s.pwr ∧ t.pipes = s.pipes)
      ∧ ((s.comp.ports.map (·.port)).Nodup →
        ∃ t, exec .shaperCreditTick s = .next t ∧ t = { s with ports := t.ports, targets := t.targets }
          ∧ ∀ n k i r, n ∈ targetPorts 33 s → sptEnabled n s = true → targetOf n s = some k → (getPort n s).creditAt < meshNs s →
            i = ((rd (Reg.schIdleKbps n) s).toNat : Int) → r = ((targetRate k s : Nat) : Int) →
            (getPort n t).creditAt = (getPort n s).creditAt + 1 ∧ (getPort n t).credit
              = (if (getPort n s).sending.isSome then (getPort n s).credit - (r - i) * 2 ^ 24 / 8000000
                 else if headReady n s then min ((getPort n s).credit + i * 2 ^ 24 / 8000000) (hiCredit n s)
                 else if (getPort n s).credit < 0 then min ((getPort n s).credit + i * 2 ^ 24 / 8000000) 0
                 else 0)))
  ∧ (∀ (s : State) (n : PortId),
      (∀ (d : DomId) (k : Fin 3) (v : Word), HostMayWrite d (Reg.schPortCtl n + 4 * k.val) s → curMode s ≠ 5 →
        ((getPort n s).sending.isSome = true →
          ∃ t w, exec (.shaperConfigWrite d n k v) s = .next t ∧ t = { s with ports := t.ports }
            ∧ getPort n t = { getPort n s with
                change := some ((getPort n s).change.getD [] ++ [(Reg.schPortCtl n + 4 * k.val, w)]) })
        ∧ ((getPort n s).sending = none →
          ∃ t, exec (.shaperConfigWrite d n k v) s = .next t
            ∧ (getPort n t).credit = (if fbit Reg.schCreditOnChange SchCreditOnChange.onChange s then hiCredit n t else 0)
            ∧ (k = 0 → fget (Reg.schPortCtl n) SchPortCtl.shapeEn t = getF SchPortCtl.shapeEn v
                ∧ fget (Reg.schPortCtl n) SchPortCtl.quantum t = getF SchPortCtl.quantum v)
            ∧ (k = 1 → rd (Reg.schIdleKbps n) t = v)
            ∧ OnlyRegs [Reg.schPortCtl n + 4 * k.val] { s with ports := t.ports, targets := t.targets } t))
      ∧ (sptEnabled n s = true → sampleDue n s = true → (portEntry n s).any (·.egress) = true →
        ∃ t, exec (.queueSample n) s = .next t ∧ (getPort n t).sampleAt = s.now
          ∧ rd (Reg.sptQDepth n) t
              = BitVec.ofNat 32 (sumNat (((getPort n s).queue.filter fun k => decide (k.since ≤ s.now)).map (·.size)))
          ∧ (rd (Reg.sptQMaxDepth n) s).toNat ≤ (rd (Reg.sptQMaxDepth n) t).toNat
          ∧ ((getPort n s).queue = [] → rd (Reg.sptQDelay n) t = 0)
          ∧ (∀ q l, (getPort n s).queue = q :: l →
              rd (Reg.sptQDelay n) t = BitVec.ofNat 32 (min (2 ^ 32 - 1) ((s.now - q.since) * 5 / 8)))
          ∧ OnlyRegs [Reg.sptQDepth n, Reg.sptQDelay n, Reg.sptQMaxDepth n, Reg.sptQMaxDelay n] { s with ports := t.ports } t))

/-- A port is enabled once its check passes, with its registers latched and its counters at 0, and a refused one says why (R485, R516,
R517); an egress port that is disabled discards its queue, an ingress one stops at its next frame boundary (R517). Transport streams queue
datagrams with a PCR packet, and with PAT and PMT (R492); reordered packets come back to the head once held for 1 ms (R513), and a written
seed starts the generator again (R512). -/
def Obligations.PortsAndInsertions : Prop :=
  (∀ (s : State) (d : DomId) (n : PortId) (v : Word), HostMayWrite d (Reg.sptCtl n) s → curMode s ≠ 5 →
      (sptEnabled n s = false → released s = true → (getPort n s).merge = [] → getF SptCtl.ipv6 v = fget (Reg.sptCtl n) SptCtl.ipv6 s →
        getF SptCtl.srcFilt v = fget (Reg.sptCtl n) SptCtl.srcFilt s →
        ∃ t, exec (.portEnable d n v) s = .next t ∧ fget (Reg.sptStatus n) SptStatus.sptRefuse t = portCheck n s
          ∧ sptEnabled n t = decide (portCheck n s = 0)
          ∧ (portCheck n s = 0 → (∀ o ∈ portCounters n, rd o t = 0) ∧ (getPort n t).queue = [] ∧ (getPort n t).credit = 0
              ∧ (getPort n t).tokens = bucketDepth n s
              ∧ (∀ k < 21, 0x10 + 4 * k ∉ [0x40, 0x44, 0x48] → latched n (0x10 + 4 * k) t = rd (Reg.sptCtl n + (0x10 + 4 * k)) s))
          ∧ (portCheck n s ≠ 0 → t.ports = s.ports)
          ∧ OnlyRegs (Reg.sptCtl n :: Reg.sptStatus n :: Reg.icuSrcStat (448 + n.val / 16) :: portCounters n)
              { s with ports := t.ports } t
          ∧ ∀ k, k ≠ n.val → getPort k t = getPort k s)
      ∧ ∀ e : PortEntry, sptEnabled n s = true → portEntry n s = some e →
        ∃ t, exec (.portDisable d n v) s = .next t ∧ sptEnabled n t = false ∧ t.comp = s.comp ∧ t.pwr = s.pwr
          ∧ (e.egress = false → (getPort n t).stopping = true ∧ (getPort n t).queue = (getPort n s).queue
              ∧ OnlyRegs [Reg.sptCtl n, Reg.icuSrcStat (448 + n.val / 16)] { s with ports := t.ports } t)
          ∧ (e.egress = true → (getPort n t).queue = [] ∧ (getPort n t).held = [] ∧ (getPort n t).units = []))
  ∧ (∀ (s : State) (n : PortId),
      (sptEnabled n s = true → portEncap n s = 3 → curMode s ≠ 5 → (portEntry n s).any (·.egress) = true →
        fbit (Reg.sptImpCtl n) SptImpCtl.impEn s = false → ((getPort n s).queue ≠ [] ∨ portLinkUp n s = true) →
        (∃ t k, exec (.pcrInsert n) s = .next t ∧ (getPort n t).queue = (getPort n s).queue ++ [k] ∧ k.kind = 3 ∧ s.now ≤ k.since
          ∧ (getPort n t).pcrAt = s.now ∧ (getPort n t).seq = (getPort n s).seq + 1
          ∧ t = { s with ports := t.ports, targets := t.targets })
        ∧ ∃ t l, exec (.psiInsert n) s = .next t ∧ (getPort n t).queue = (getPort n s).queue ++ l ∧ l ≠ [] ∧ (∀ k ∈ l, k.kind = 4)
          ∧ (getPort n t).psiAt = s.now ∧ (getPort n t).seq = (getPort n s).seq + l.length
          ∧ t = { s with ports := t.ports, targets := t.targets })
      ∧ (∀ l : List (Packet × Nat × Nat), l = (getPort n s).held.filter (fun h => decide (h.2.2 + holdCycles ≤ s.now)) → l ≠ [] →
        ∃ t, exec (.reorderRelease n) s = .next t ∧ (getPort n t).queue = l.map Prod.fst ++ (getPort n s).queue
          ∧ (getPort n t).held = (getPort n s).held.filter (fun h => !decide (h.2.2 + holdCycles ≤ s.now))
          ∧ t = { s with ports := t.ports, targets := t.targets })
      ∧ ∀ (d : DomId) (v : Word), HostMayWrite d (Reg.sptImpSeed n) s → curMode s ≠ 5 →
        ∃ t, exec (.sptImpSeedWrite d n v) s = .next t ∧ rd (Reg.sptImpSeed n) t = v
          ∧ getPort n t = { getPort n s with x := seedOf v } ∧ OnlyRegs [Reg.sptImpSeed n] { s with ports := t.ports } t)

/-- Host rings (R494): the device writes its units to host memory, confirms them by a flushing read and advances WR, or drops one that
does not fit; host software may only write the count that it owns, and a unit behind the WR it writes is read. -/
def Obligations.HostRingsCarryUnits : Prop :=
  ∀ (s : State) (n : PortId),
    (∀ (d : DomId) (v : Word) (l : List HrUnitIn), HostMayWrite d (Reg.sptHrWr n) s → curMode s ≠ 5 →
      (deviceProduces n s = true → exec (.hostRingWrWrite d n v l) s = .next (accessErr d kindState (Reg.sptHrWr n) s))
      ∧ (deviceProduces n s = false → sptEnabled n s = false →
        ∃ t, exec (.hostRingWrWrite d n v l) s = .next t ∧ rd (Reg.sptHrWr n) t = v ∧ OnlyRegs [Reg.sptHrWr n] s t)
      ∧ ∀ u : HrUnitIn, deviceProduces n s = false → sptEnabled n s = true → (portEntry n s).isSome = true → portEncap n s = 6 →
        (getPort n s).inUnits = [] → l = [u] → u.kind = 1 → hrUnitBytes u.data.length < 2 ^ 32 →
        v = rd (Reg.sptHrRd n) s + BitVec.ofNat 32 (hrUnitBytes u.data.length) →
        ∃ t k, exec (.hostRingWrWrite d n v l) s = .next t ∧ rd (Reg.sptHrRd n) t = v ∧ (getPort n t).inUnits = []
          ∧ (getPort n t).queue = (getPort n s).queue ++ [k] ∧ k.payload = u.data ∧ k.kind = 2
          ∧ OnlyRegs [Reg.sptHrWr n, Reg.sptHrRd n] { s with
              ports := t.ports
              outbox := s.outbox ++ [.hostRead (owner s glvPort n) (hrBase n s + (rd (Reg.sptHrRd n) s).toNat % hrSize n s)
                (hrUnitBytes u.data.length) false] } t)
    ∧ ∀ (u : HrUnit) (l : List HrUnit) (w len pad : Nat), (getPort n s).units = u :: l → curMode s ≠ 5 → s.pwr.linkUp = true →
      w = (rd (Reg.sptHrWr n) s).toNat → len = hrUnitBytes u.data.length →
      pad = (if hrSize n s < w % hrSize n s + len then hrSize n s - w % hrSize n s else 0) →
      ∃ t, exec (.hostRingUnitOut n) s = .next t ∧ (getPort n t).units = l ∧ (getPort n t).hrSeq = (getPort n s).hrSeq + 1
        ∧ ((w + 2 ^ 32 - (rd (Reg.sptHrRd n) s).toNat) % 2 ^ 32 + pad + len ≤ hrSize n s →
          rd (Reg.sptHrWr n) t = BitVec.ofNat 32 (w + pad + len) ∧ (getPort n t).hrGap = false
          ∧ ∃ pre bytes, t.outbox = s.outbox ++ pre ++ [.hostWrite (owner s glvPort n)
                (hrBase n s + (if pad = 0 then w % hrSize n s else 0)) bytes false,
              .flushRead (owner s glvPort n) (hrBase n s + (if pad = 0 then w % hrSize n s else 0))]
            ∧ (pad = 0 → pre = []) ∧ u.data <+: bytes.drop 16)
        ∧ (hrSize n s < (w + 2 ^ 32 - (rd (Reg.sptHrRd n) s).toNat) % 2 ^ 32 + pad + len →
          rd (Reg.sptHrWr n) t = rd (Reg.sptHrWr n) s ∧ (getPort n t).hrGap = true
          ∧ fbit (Reg.sptStatus n) SptStatus.hrDropEv t = true ∧ t.outbox = s.outbox)

/-- Writes (R540 to R548): one without a host path changes nothing, one the Glove stops is recorded, a field is written by its class, a
narrow write of a register that takes none is dropped with NARROW. A function's configuration fields are kept (R531), but in LOAD, until
the chip area answers, the write is to be tried again (R146). A CMD_ARG takes the bytes that are enabled and is refused while an operation
runs (R542, R553), and a 32-bit read of a low word snapshots its high word (R543); a read of another width snapshots nothing, and
configuration space answers its item (R531, R146). -/
def Obligations.WritesArgumentsAndSnapshots : Prop :=
  (∀ (s : State) (d : DomId) (x : RegEnv) (v : Word),
      (∀ (b : Bar) (off : Nat) (l : List (Option Byte)), hostPath d s = false → exec (.registerWrite d x (.memory b off l)) s = .next s)
      ∧ (∀ off : Nat, off % 4 = 0 → hostPath d s = true → gloveStops d .bar0 off true s = true →
        ∃ t, exec (.registerWrite d x (.memory .bar0 off ((leBytes v.toNat 4).map some))) s = .next t
          ∧ fget Reg.glvDeny GlvDeny.denyDom t = d.val ∧ fget Reg.glvDeny GlvDeny.denyOfs t = off % 2 ^ GlvDeny.denyOfs.width
          ∧ fget Reg.glvDenyCnt GlvDenyCnt.glvDenyCnt t
              = (fget Reg.glvDenyCnt GlvDenyCnt.glvDenyCnt s + 1) % 2 ^ GlvDenyCnt.glvDenyCnt.width
          ∧ OnlyRegs [Reg.glvDeny, Reg.glvDenyCnt] s t)
      ∧ (HostMayWrite d Reg.lanRingCable s → curMode s ≠ 5 → x.clash = false →
        (∃ t, exec (.registerWrite d x (.memory .bar0 Reg.lanRingCable ((leBytes v.toNat 4).map some))) s = .next t
          ∧ fget Reg.lanRingCable LanRingCable.upId t = getF LanRingCable.upId v
          ∧ fget Reg.lanRingCable LanRingCable.cableNs t = getF LanRingCable.cableNs v ∧ OnlyRegs [Reg.lanRingCable] s t)
        ∧ ∀ b : Byte, exec (.registerWrite d x (.memory .bar0 (Reg.lanRingCable + 1) [some b])) s
            = .next (accessErr d kindNarrow (Reg.lanRingCable + 1) s))
      ∧ (∀ n : PortId, HostMayWrite d (Reg.sptStatus n) s → curMode s ≠ 5 → x.clash = false →
        ∃ t, exec (.registerWrite d x (.memory .bar0 (Reg.sptStatus n) ((leBytes v.toNat 4).map some))) s = .next t
          ∧ rd (Reg.sptStatus n) t = rd (Reg.sptStatus n) s &&& ~~~ (v &&& 0x7F#32) ∧ OnlyRegs [Reg.sptStatus n] s t)
      ∧ ∀ c : ConfigIn, s.pwr.linkUp = true → s.pwr.bypass = false →
        (c.early = true → curMode s = 1 →
          exec (.registerWrite d x (.config c)) s = .next { s with outbox := s.outbox ++ [.configRetry d] })
        ∧ ((c.early = false ∨ curMode s ≠ 1) →
        ∃ t, exec (.registerWrite d x (.config c)) s = .next t ∧ t = { s with icu := t.icu, cxl := t.cxl }
          ∧ t.cxl = { s.cxl with aer := t.cxl.aer }
          ∧ (∀ k, smGet false k t.cxl.aer = (smGet false k s.cxl.aer && !(c.aerClear && decide (k = d.val))))
          ∧ getFn d t = ⟨c.d0, c.pmeEn, c.msixEn, c.fnMask, c.memSpace, (getFn d s).pme && !c.d0⟩
          ∧ (d = 0 → c.numVfs ≤ fget Reg.glvSummary GlvSummary.glvMaxDom s → t.icu.numVfs = c.numVfs)
          ∧ (d ≠ 0 → t.icu.numVfs = s.icu.numVfs)))
  ∧ (∀ (s : State) (d : DomId) (v : Word),
      (∀ (n : Fin 8) (be : BitVec 4), HostMayWrite d (Reg.cmdArg n) s → be ≠ 0 →
        (cmdBusy s = false →
          ∃ t, exec (.cmdArgWrite d n be v) s = .next t ∧ OnlyRegs [Reg.cmdArg n] s t
            ∧ ∀ i < 4, (rd (Reg.cmdArg n) t).toNat / 256 ^ i % 256
                = (if be.getLsbD i then v.toNat else (rd (Reg.cmdArg n) s).toNat) / 256 ^ i % 256)
        ∧ (cmdBusy s = true →
          ∃ t, exec (.cmdArgWrite d n be v) s = .next t ∧ fget Reg.cmdStatus CmdStatus.cmdRefuse t = 0x80
            ∧ fget Reg.cmdRejectCnt whole t = min (fget Reg.cmdRejectCnt whole s + 1) (2 ^ 32 - 1)
            ∧ OnlyRegs [Reg.cmdStatus, Reg.cmdRejectCnt] s t))
      ∧ (∀ n : PortId, hostPath d s = true → gloveStops d .bar0 (Reg.sptPktsLo n) false s = false →
        loadStops .bar0 (Reg.sptPktsLo n) s = false →
        (∀ i k : Nat, 0 < k → i + k ≤ 4 → k ≠ 4 →
          exec (.lowWordSnapshotRead d (.memory .bar0 (Reg.sptPktsLo n + i) k false)) s
            = .next { s with outbox := s.outbox
                ++ [.regRead d (Reg.sptPktsLo n + i) (BitVec.ofNat 32 ((rd (Reg.sptPktsLo n) s).toNat / 256 ^ i % 256 ^ k))] })
        ∧ ∃ t, exec (.lowWordSnapshotRead d (.memory .bar0 (Reg.sptPktsLo n) 4 false)) s = .next t
          ∧ t = { s with outbox := s.outbox ++ [.regRead d (Reg.sptPktsLo n) (rd (Reg.sptPktsLo n) s)], snaps := t.snaps }
          ∧ smGet 0 (Reg.sptPktsHi n) t.snaps = rd (Reg.sptPktsHi n) s
          ∧ ∀ o, o ≠ Reg.sptPktsHi n → smGet 0 o t.snaps = smGet 0 o s.snaps)
      ∧ ∀ (early : Bool) (i : ConfigItem), s.pwr.linkUp = true → s.pwr.bypass = false →
        (early = true → curMode s = 1 →
          exec (.lowWordSnapshotRead d (.config early i)) s = .next { s with outbox := s.outbox ++ [.configRetry d] })
        ∧ ((early = false ∨ curMode s ≠ 1) →
          exec (.lowWordSnapshotRead d (.config early i)) s
            = .next { s with outbox := s.outbox
                ++ [.configData d (if s.icu.numVfs < d then none else configItem d i s)] }))

/-- The key guard (R549): CHIP_KEY arms it with its key and disarms it with any other value; while it is armed the next write that reaches
a guarded register takes effect and disarms it whatever the write does, while it is disarmed such a write is dropped with KEY, and no read
changes it. -/
def Obligations.KeyGuardTakesOneWrite : Prop :=
  ∀ (s : State) (d : DomId) (v : Word),
    (HostMayWrite d Reg.chipKey s →
      ∃ t, exec (.chipKeyWrite d v) s = .next t ∧ keyArmed t = decide (v = 0x6D3A#32) ∧ OnlyRegs [Reg.chipKeyState] s t)
    ∧ (∀ (x : RegEnv) (off : Nat), HostMayWrite d off s →
      (off ∈ [Reg.chipForce, Reg.bcmFlashCtl, Reg.bcmRegionOff] ∨ (∃ u, off = Reg.fltInject (faultBase u))
        ∨ ∃ l : LaneId, off = Reg.lanPrbs l ∧ getF LanPrbs.genEn v = 1 ∧ laneActive l s = true) →
      (keyArmed s = true →
        (∃ t, exec (.registerWrite d x (.memory .bar0 off ((leBytes v.toNat 4).map some))) s = .next t ∧ keyArmed t = false)
        ∧ ∀ n shadow, curMode s ≠ 5 → regAt (fun p => pipeDecodes p s) off = some (n, shadow) →
          exec (.registerWrite d x (.memory .bar0 off ((leBytes v.toNat 4).map some))) s
            = .next (ruleWrite x d off n shadow v (classWord (regFields n) v (rd off s)) (disarm s)))
      ∧ (keyArmed s = false →
        exec (.registerWrite d x (.memory .bar0 off ((leBytes v.toNat 4).map some))) s = .next (accessErr d kindKey off s)))
    ∧ ∀ r : HostLoad, ∃ t, exec (.lowWordSnapshotRead d r) s = .next t ∧ keyArmed t = keyArmed s

/-- CMD_OP (R552 to R555): an operation that is allowed in the mode and whose arguments are sound copies CMD_ARG0 to 7 and runs with BUSY
1, and in another mode, or for a test with no composition in force (R169), completes with OP_MODE; while one runs the write is refused;
CMD_ABORT stops one that can be aborted (R557); CHIP_REBOOT puts the chip in BYPASS (R153). -/
def Obligations.CommandPortStartsOperations : Prop :=
  ∀ (s : State) (d : DomId) (arg : Nat → Nat), (∀ n, arg n = (rd (Reg.cmdArg n) s).toNat) →
    (∀ (c : Instr) (op : Nat), HostMayWrite d Reg.cmdOp s → cmdBusy s = false → (opModes op).contains (curMode s) = true →
      (op ∈ [0x20, 0x21, 0x22] → s.comp.inForce = true) →
      (c = .ping d ∧ op = 0x01
        ∨ c = .flashWrite d ∧ op = 0x10 ∧ fbit Reg.bcmFlashCtl BcmFlashCtl.flashWe s = true ∧ arg 0 % 0x10000 = 0
          ∧ arg 4 % 0x10000 = 0 ∧ (arg 3 = 1 ∨ arg 3 = 0 ∧ inDomain 0 (arg 1 + 2 ^ 32 * arg 2) (arg 4) s = true)
          ∧ (∃ a ∈ flashAreas, a.1 ≤ arg 0 ∧ arg 0 + arg 4 ≤ a.1 + a.2)
        ∨ c = .flashRead d ∧ op = 0x11 ∧ arg 0 % 64 = 0 ∧ arg 4 % 64 = 0 ∧ arg 0 + arg 4 ≤ flashSize
          ∧ (arg 3 = 1 ∨ arg 3 = 0 ∧ inDomain 0 (arg 1 + 2 ^ 32 * arg 2) (arg 4) s = true)
        ∨ c = .fuseRead d ∧ op = 0x12 ∧ keyArmed s = true ∧ arg 0 < 32
        ∨ c = .regionSelftest d ∧ op = 0x20 ∧ arg 0 < 16 ∧ enabledOn (arg 0) s = [] ∧ rgcState (arg 0) s ≠ 3
          ∧ regionHeld (arg 0) s = false
        ∨ c = .chipSelftest d ∧ op = 0x21
        ∨ c = .memoryTest d ∧ op = 0x22 ∧ arg 0 < hbmSize / unitSize ∧ arg 0 + arg 1 ≤ hbmSize / unitSize) →
      ∃ t, exec c s = .next t ∧ cmdBusy t = true ∧ curOp t = op ∧ t.cmd.args = (List.range 8).map (fun n => rd (Reg.cmdArg n) s)
        ∧ rd Reg.cmdProgress t = BitVec.ofNat 32 (if op ∈ [0x10, 0x20, 0x21, 0x22] then
            resumeFrom op ((List.range 8).map fun n => rd (Reg.cmdArg n) s) s.cmd.resume else 0)
        ∧ (op = 0x01 → ∀ i < 4, rd (Reg.cmdOut i) t = rd (Reg.cmdArg i) s)
        ∧ (op = 0x12 → keyArmed t = false ∧ ∀ i < 4, rd (Reg.cmdOut i) t = fuseWord (4 * arg 0 + i))
        ∧ (op = 0x20 → rgcState (arg 0) t = (if rgcState (arg 0) s = 0 then 1 else rgcState (arg 0) s))
        ∧ (op = 0x21 → ∀ r < 16, resumeFrom op t.cmd.args s.cmd.resume ≤ r → r < resumeFrom op t.cmd.args s.cmd.resume + 4 →
            rgcState r t = (if rgcState r s = 0 ∧ regionHeld r s = false then 1 else rgcState r s))
        ∧ t.fs = s.fs ∧ t.flash = s.flash ∧ t.comp = s.comp ∧ t.pwr = s.pwr ∧ t.pipes = s.pipes)
    ∧ (∀ (c : Instr) (op : Nat), HostMayWrite d Reg.cmdOp s →
      (c, op) ∈ [(Instr.ping d, 0x01), (.chipReboot d, 0x02), (.flashWrite d, 0x10), (.flashRead d, 0x11), (.fuseRead d, 0x12),
        (.regionSelftest d, 0x20), (.chipSelftest d, 0x21), (.memoryTest d, 0x22)] →
      (cmdBusy s = false → ((opModes op).contains (curMode s) = false ∨ op ∈ [0x20, 0x21, 0x22] ∧ s.comp.inForce = false) →
        ∃ t, exec c s = .next t ∧ cmdBusy t = false ∧ fget Reg.cmdStatus CmdStatus.done t = 1
          ∧ fget Reg.cmdStatus CmdStatus.result t = 0x84 ∧ t.fs = s.fs ∧ t.flash = s.flash ∧ t.comp = s.comp)
      ∧ (cmdBusy s = true →
        ∃ t, exec c s = .next t ∧ fget Reg.cmdStatus CmdStatus.cmdRefuse t = 0x80
          ∧ OnlyRegs [Reg.cmdStatus, Reg.cmdRejectCnt, Reg.chipKeyState] s t))
    ∧ (HostMayWrite d Reg.cmdOp s → cmdBusy s = false → (opModes 0x02).contains (curMode s) = true →
      ∃ t, exec (.chipReboot d) s = .next t ∧ t.pwr.bypass = true ∧ t.pwr.linkUp = false
        ∧ fget Reg.chipResetCause ChipResetCause.resetCause t = 3 ∧ t.fs = State.reset.fs ∧ t.comp = State.reset.comp
        ∧ t.flash = s.flash ∧ t.tap = s.tap ∧ t.pending = s.pending)
    ∧ (HostMayWrite d Reg.cmdAbort s →
      ∃ t, exec (.cmdAbort d) s = .next t ∧ OnlyRegs [Reg.cmdStatus] s t
        ∧ (cmdBusy s = false → fget Reg.cmdStatus CmdStatus.cmdRefuse t = (if s.cmd.doneAt = some s.now then 0x81 else 0x87))
        ∧ (cmdBusy s = true → opAbortable s = true → fget Reg.cmdStatus CmdStatus.aborting t = 1)
        ∧ (cmdBusy s = true → opAbortable s = false → fget Reg.cmdStatus CmdStatus.abortHeld t = 1))

/-- COMMAND_COMPLETE (R556, R557, R623, R625, R626, R656, R658): the operation ends with DONE 1 and its result and outputs, or with
OP_ABORTED at its cairn, where it keeps a resume record (R558); an abort that finds the work complete loses (R358). -/
def Obligations.OperationsEndWithTheirResults : Prop :=
  ∀ (s : State) (e : OpEnv), cmdBusy s = true →
    ((curOp s ∈ [0x01, 0x12] →
      ∃ t, exec (.commandComplete e) s = .next t ∧ cmdBusy t = false ∧ fget Reg.cmdStatus CmdStatus.done t = 1
        ∧ fget Reg.cmdStatus CmdStatus.result t = 0 ∧ t.fs = s.fs ∧ t.flash = s.flash ∧ t.comp = s.comp)
    ∧ (∀ x : List Byte × State, curOp s = 0x10 → cmdAborting s = false → x = cmdSource 0 (cmdArg 4 s) e.host s →
      cmdArg 4 s % 0x10000 = 0 → 0x10000 * s.cmd.step ≤ cmdArg 4 s →
      ∃ t, exec (.commandComplete e) s = .next t ∧ cmdBusy t = false ∧ fget Reg.cmdStatus CmdStatus.result t = 0
        ∧ rd (Reg.cmdOut 0) t = BitVec.ofNat 32 (crc32 x.1)
        ∧ (e.sectors = [] → rd (Reg.cmdOut 1) t = 0)
        ∧ fget Reg.bcmFlashCtl BcmFlashCtl.flashWe t = 0
        ∧ (∀ i b, x.1[i]? = some b → 0x10000 * s.cmd.step ≤ i → e.sectors.contains (i / 0x10000) = false →
            flashByte t (cmdArg 0 s + i) = b)
        ∧ (∀ a, (a < cmdArg 0 s + 0x10000 * s.cmd.step ∨ cmdArg 0 s + cmdArg 4 s ≤ a) → flashByte t a = flashByte s a)
        ∧ t.fs = x.2.fs ∧ t.comp = s.comp)
    ∧ (curOp s = 0x11 → cmdAborting s = false →
      ∃ t, exec (.commandComplete e) s = .next t ∧ cmdBusy t = false ∧ fget Reg.cmdStatus CmdStatus.result t = 0
        ∧ t.flash = s.flash ∧ t.comp = s.comp
        ∧ (cmdArg 3 s ≠ 0 → t.fs = s.fs
          ∧ t.outbox = s.outbox ++ [.hostWrite 0 (cmdAddress s) (flashBytes s (cmdArg 0 s) (cmdArg 4 s)) false])
        ∧ (cmdArg 3 s = 0 → Canonical s →
            StoredAt (cmdAddress s) (flashBytes s (cmdArg 0 s) (cmdArg 4 s)) (resolve (cmdAddress s) (cmdArg 4 s) s) t))
    ∧ (curOp s = 0x20 ∨ curOp s = 0x21 → cmdAborting s = false →
      ∃ t, exec (.commandComplete e) s = .next t ∧ cmdBusy t = false ∧ fget Reg.cmdStatus CmdStatus.done t = 1
        ∧ t.flash = s.flash ∧ t.comp.carves = s.comp.carves
        ∧ (e.cells = [] → e.blocks = [] → e.controllers = [] → e.chipUnits.val = 0 → e.buffers = [] →
            fget Reg.cmdStatus CmdStatus.result t = 0 ∧ rd (Reg.cmdOut 0) t = 0 ∧ rd (Reg.cmdOut 1) t = 0 ∧ t.comp = s.comp)
        ∧ (∀ b : BlockId, (∃ r : RegionId, (r, b) ∈ e.blocks ∧ (curOp s = 0x20 → cmdArg 0 s = r ∧ s.cmd.step ≤ b)
              ∧ (curOp s = 0x21 → s.cmd.step ≤ r)) →
            fget Reg.cmdStatus CmdStatus.result t = 0xE8 ∧ rd (Reg.cmdOut 0) t ≠ 0))
    ∧ (curOp s = 0x22 → cmdAborting s = false → s.fs.hostWaiting = [] →
      ∃ t, exec (.commandComplete e) s = .next t ∧ cmdBusy t = false ∧ t.flash = s.flash ∧ t.comp = s.comp
        ∧ (e.words = [] → fget Reg.cmdStatus CmdStatus.result t = 0 ∧ rd (Reg.cmdOut 0) t = 0 ∧ t.fs = s.fs)
        ∧ (∀ w ∈ e.words, (cmdArg 0 s + s.cmd.step) * unitSize / 64 ≤ w → w < (cmdArg 0 s + memTestUnits s) * unitSize / 64 →
            fget Reg.cmdStatus CmdStatus.result t = 0xE9 ∧ smGet false w t.fs.poison = true))
    ∧ (curOp s ∈ [0x10, 0x11, 0x20, 0x21, 0x22] → cmdAborting s = true → e.late = false →
      ∃ t, exec (.commandComplete e) s = .next t ∧ cmdBusy t = false ∧ fget Reg.cmdStatus CmdStatus.result t = 0x82
        ∧ fget Reg.cmdStatus CmdStatus.done t = 1
        ∧ (curOp s = 0x10 → t.cmd.resume = some ⟨0x10, s.cmd.args, min (cmdArg 4 s / 0x10000) (max s.cmd.step e.units)⟩)
        ∧ (curOp s = 0x20 → t.cmd.resume = some ⟨0x20, s.cmd.args, min 8 (max s.cmd.step e.units)⟩)
        ∧ (curOp s = 0x22 → t.cmd.resume = some ⟨0x22, s.cmd.args, min (memTestUnits s) (max s.cmd.step e.units)⟩))
    ∧ (curOp s ∈ [0x10, 0x11, 0x20, 0x21, 0x22] → cmdAborting s = true → e.late = true →
      ∃ t, exec (.commandComplete e) s = .next t ∧ cmdBusy t = false ∧ fget Reg.cmdStatus CmdStatus.result t ≠ 0x82
        ∧ fget Reg.cmdStatus CmdStatus.done t = 1 ∧ fget Reg.cmdStatus CmdStatus.cmdRefuse t = 0x81))

/-- RECOMPOSE_REGION (R135 to R142): with reserved argument bits it is refused; else it holds the region, goes on where no pipeline of the
region is enabled, in step 4 makes it RECOMPOSING, in step 5 clears its old share and writes the new one, and ends with the region at
READY once the last domain has taken its entries. A refused image completes it with its code. An abort leaves the region untouched, as it
was before step 4, or empty. -/
def Obligations.RegionsAreRecomposed : Prop :=
  ∀ s : State,
    (∀ (d : DomId) (x : RecomposeIn) (arg : Nat → Nat), (∀ n, arg n = (rd (Reg.cmdArg n) s).toNat) →
      HostMayWrite d Reg.cmdOp s → cmdBusy s = false → (curMode s = 2 ∨ curMode s = 3) →
      ((16 ≤ arg 0 ∨ 1 < arg 3 ∨ arg 5 ≠ 0 ∨ arg 6 ≠ 0 ∨ arg 7 ≠ 0) →
        ∃ t, exec (.recomposeRegion d x) s = .next t ∧ cmdBusy t = false ∧ fget Reg.cmdStatus CmdStatus.result t = 0x85
          ∧ t.comp = s.comp ∧ t.staged = s.staged ∧ t.regions = s.regions)
      ∧ (arg 0 < 16 → arg 3 ≤ 1 → arg 5 = 0 → arg 6 = 0 → arg 7 = 0 → (arg 3 = 1 ∨ arg 1 + 2 ^ 32 * arg 2 + arg 4 ≤ hbmSize) →
        x.reached.val = 0 →
        ∃ t, exec (.recomposeRegion d x) s = .next t ∧ cmdBusy t = true ∧ curOp t = 0x31 ∧ t.cmd.step = 0 ∧ t.staged.isSome = true
          ∧ fbit Reg.cfgStatus CfgStatus.cfgRgnBusy t = true ∧ fget Reg.cfgStatus CfgStatus.cfgRgn t = arg 0
          ∧ t.comp = s.comp ∧ t.regions = s.regions ∧ t.pipes = s.pipes
          ∧ (∀ l, arg 3 = 1 → x.host = .data l →
              OnlyRegs [Reg.cmdStatus, Reg.cmdProgress, Reg.cfgStatus] { s with cmd := t.cmd, staged := t.staged } t)))
    ∧ (∀ (e : OpEnv) (r : Nat), cmdBusy s = true → curOp s = 0x31 → r = cmdArg 0 s → r < 16 →
      (∀ code sect obj : Nat, s.cmd.fail = some (code, sect, obj) → code < 256 →
        ∃ t, exec (.commandComplete e) s = .next t ∧ cmdBusy t = false ∧ fget Reg.cmdStatus CmdStatus.result t = code
          ∧ fget Reg.cfgRefuse CfgRefuse.cfgRefRgn t = code ∧ t.staged = none
          ∧ fbit Reg.cfgStatus CfgStatus.cfgRgnBusy t = false ∧ t.comp = s.comp ∧ rgcState r t = rgcState r s)
      ∧ (s.cmd.fail = none → (cmdAborting s = false ∨ e.late = true) →
        (s.cmd.step = 0 →
          (∀ p, enabledPipe r s = some p →
            ∃ t, exec (.commandComplete e) s = .next t ∧ t.cmd.fail = some (0x35, 0xFF, p) ∧ t.cmd.step = 0 ∧ t.comp = s.comp)
          ∧ (enabledPipe r s = none → rgcState r s ≠ 2 →
            ∃ t, exec (.commandComplete e) s = .next t ∧ t.cmd.step = 1 ∧ t.cmd.prior = rgcState r s ∧ rgcState r t = 3
              ∧ OnlyRegs [Reg.cmdStatus, Reg.rgcStatus r] { s with cmd := t.cmd } t))
        ∧ (s.cmd.step = 1 →
          ∃ t, exec (.commandComplete e) s = .next t ∧ t.cmd.step = 2 ∧ cmdBusy t = true ∧ t.staged = s.staged
            ∧ t.comp.pipes = s.comp.pipes.filter (fun q => !usesRegion q r))
        ∧ (∀ im : Image, s.cmd.step = 2 → s.staged = some im →
          ∃ t, exec (.commandComplete e) s = .next t ∧ t.cmd.step = 3 ∧ cmdBusy t = true ∧ t.staged = s.staged
            ∧ t.comp.pipes = s.comp.pipes ++ im.pipes ∧ t.comp.ports = s.comp.ports ++ im.ports
            ∧ (t.cmd.left = [] → regionHeld r s = false → rgcState r t = 1))
        ∧ (s.cmd.step = 3 → s.cmd.left = [] →
          ∃ t, exec (.commandComplete e) s = .next t ∧ cmdBusy t = false ∧ fget Reg.cmdStatus CmdStatus.result t = 0
            ∧ t.staged = none ∧ fget Reg.cfgRefuse CfgRefuse.cfgRefRgn t = 0 ∧ t.comp = s.comp ∧ rgcState r t = rgcState r s))
      ∧ (s.cmd.fail = none → cmdAborting s = true → e.late = false → s.cmd.step < 3 →
        ∃ t, exec (.commandComplete e) s = .next t ∧ cmdBusy t = false ∧ fget Reg.cmdStatus CmdStatus.result t = 0x82 ∧ t.staged = none
          ∧ (s.cmd.step = 0 → t.comp = s.comp ∧ rgcState r t = rgcState r s)
          ∧ (s.cmd.step = 1 → s.cmd.prior ≤ 4 → t.comp = s.comp ∧ rgcState r t = s.cmd.prior)
          ∧ (s.cmd.step = 2 → rgcState r t = 1 ∧ fbit Reg.cfgStatus CfgStatus.cfgRgnEmpty t = true
              ∧ ∀ q ∈ t.comp.pipes, usesRegion q r = false)))
    ∧ ∀ (r : RasterId) (l : List Nat), cmdBusy s = true → curOp s = 0x31 → s.cmd.step = 3 → s.cmd.left.contains r.val = true →
      l = s.cmd.left.filter (fun k => k != r.val) → s.staged.isSome = true → cmdArg 0 s < 16 →
      ∃ t, exec (.recomposeActivate r) s = .next t ∧ t.cmd.left = l ∧ cmdBusy t = true ∧ t.comp.pipes = s.comp.pipes
        ∧ (l = [] → regionHeld (cmdArg 0 s) s = false → rgcState (cmdArg 0 s) t = 1)
        ∧ (l ≠ [] → rgcState (cmdArg 0 s) t = rgcState (cmdArg 0 s) s)

/-- CXL.mem (R525, R526): a committed decoder covers its carve-out, a read returns its line, a write reaches the frame store, an address
past the carve-out is counted; while its channel retrains, its stack is in self-refresh or its unit is under test a request waits (R170,
R370, R376, R626); a snoop misses (R520), and a flush leaves no host write waiting (R523). Errors on the link (R530): a poisoned write is
reported by AER, and retries and flit buffers set the RAS status; a copy of a triplicated word that disagrees is corrected and counted, or
without a majority takes the chip to SAFE (R551). -/
def Obligations.CxlRequestsAndLinkErrors : Prop :=
  (∀ s : State,
      (∀ (k : Fin 8) (base size ways skip : Nat) (lock : Bool) (c : Carve), s.pwr.linkUp = true → s.pwr.bypass = false →
        (getHdm k s).locked = false → hdmCarve k s = some c →
        (s.pwr.linkPcie = false → size = hdmSize c → ways = 0 → skip = 0 →
          exec (.hdmCommit k base size ways skip lock) s = .next (setHdm k ⟨base, size, true, lock, false⟩ s))
        ∧ ((s.pwr.linkPcie = true ∨ size ≠ hdmSize c ∨ ways ≠ 0 ∨ skip ≠ 0) →
          ∃ t, exec (.hdmCommit k base size ways skip lock) s = .next t ∧ t = { s with cxl := t.cxl }
            ∧ (getHdm k t).committed = false ∧ (getHdm k t).error = true))
      ∧ (∀ (k : Fin 8) (o : Nat), memServed s = true → hdmHits k o s = true →
        (hdmAddress k o s = none →
          (∃ t, exec (.cxlMemRead k o) s = .next t
            ∧ t.outbox = s.outbox ++ [.cxlData ((getHdm k s).base + o) (List.replicate 64 0xFF#8) true]
            ∧ fget Reg.cxlHdmOob CxlPoisonCnt.count t = min (fget Reg.cxlHdmOob CxlPoisonCnt.count s + 1) (2 ^ 32 - 1)
            ∧ OnlyRegs [Reg.cxlHdmOob] { s with outbox := t.outbox } t)
          ∧ ∀ (l : List Byte) (poisoned : Bool), ∃ t, exec (.cxlMemWrite k o l poisoned) s = .next t
            ∧ fget Reg.cxlHdmOob CxlPoisonCnt.count t = min (fget Reg.cxlHdmOob CxlPoisonCnt.count s + 1) (2 ^ 32 - 1)
            ∧ OnlyRegs [Reg.cxlHdmOob] s t)
        ∧ (∀ a : Nat, hdmAddress k o s = some a → accessWaits a s = true →
          exec (.cxlMemRead k o) s = .next { s with fs := { s.fs with hostWaiting := s.fs.hostWaiting ++ [.read k o] } }
          ∧ ∀ (l : List Byte) (poisoned : Bool), exec (.cxlMemWrite k o l poisoned) s
              = .next { s with fs := { s.fs with hostWaiting := s.fs.hostWaiting ++ [.write k o l poisoned] } })
        ∧ ∀ a : Nat, hdmAddress k o s = some a → accessWaits a s = false →
          (∃ t, exec (.cxlMemRead k o) s = .next t
            ∧ fget Reg.cxlPoisonCnt CxlPoisonCnt.count t
                = (if decodeWord (a / 64) s = .bad then min (fget Reg.cxlPoisonCnt CxlPoisonCnt.count s + 1) (2 ^ 32 - 1)
                   else fget Reg.cxlPoisonCnt CxlPoisonCnt.count s)
            ∧ t.outbox = s.outbox ++ [.cxlData ((getHdm k s).base + o) (wordBytes (a / 64) s)
                (decide (decodeWord (a / 64) s = .bad))] ∧ SameBytes s t ∧ t.comp = s.comp)
          ∧ ∀ (l : List Byte) (poisoned : Bool),
            (curMode s = 5 → exec (.cxlMemWrite k o l poisoned) s = .next s)
            ∧ (curMode s ≠ 5 → l ≠ [] → Canonical s →
              ∃ t, exec (.cxlMemWrite k o l poisoned) s = .next t ∧ StoredAt a (l.take (64 - a % 64)) s t
                ∧ t.pools = s.pools ∧ t.comp = s.comp))
      ∧ (memServed s = true → exec .h2dSnoop s = .next { s with outbox := s.outbox ++ [.snoopMiss] })
      ∧ (memServed s = true →
        ∃ t, exec .gpfPhase2 s = .next t ∧ t.comp = s.comp ∧ t.pools = s.pools
          ∧ (∀ k, ∀ b ∈ (smGet Pseudo.init k t.fs.pseudos).banks, ∀ r ∈ b.2.queue, isHostWrite r = false)
          ∧ ∀ h ∈ t.fs.hostWaiting, isWaitingWrite h = false))
  ∧ (∀ s : State,
      (∀ d : DomId, s.pwr.linkUp = true → d.val ≤ s.icu.numVfs →
        ∃ t, exec (.poisonedTlpWrite d) s = .next t ∧ t = { s with outbox := s.outbox ++ [.aer d 1], cxl := t.cxl }
          ∧ smGet false d.val t.cxl.aer = true)
      ∧ (memServed s = true → exec .linkLayerRetry s = .next { s with cxl := { s.cxl with rasCorr := true } })
      ∧ (s.pwr.linkUp = true →
        ∃ t, exec .flitBufferError s = .next t ∧ t = { s with outbox := s.outbox ++ [.linkRetrain], cxl := t.cxl }
          ∧ t.cxl.rasInternal = true ∧ t.cxl.headerLog ≠ 0 ∧ (s.cxl.headerLog ≠ 0 → t.cxl.headerLog = s.cxl.headerLog))
      ∧ ∀ w : TripWord, s.pwr.bypass = false →
        (∃ t, exec (.triplicatedCopyUpset w true) s = .next t ∧ OnlyRegs [Reg.chipTmr] s t
          ∧ fget Reg.chipTmr ChipTmr.tmrCorr t
              = min (fget Reg.chipTmr ChipTmr.tmrCorr s + 1) (2 ^ ChipTmr.tmrCorr.width - 1))
        ∧ (curMode s ≠ 5 →
          ∃ t, exec (.triplicatedCopyUpset w false) s = .next t ∧ curMode t = 5
            ∧ fget (Reg.fltStatus 0x200) FltStatus.lastClass t = tripClass w
            ∧ fget (Reg.fltSafeCause 0x200) FltSafeCause.scClass t = tripClass w ∧ t.fs = s.fs ∧ t.comp = s.comp))

/-- A delivery decision (R572 to R579): every eligible source that goes to the target becomes in flight, a host vector sends one message
and starts its hold-off, a gated region that may be woken comes up; a vector whose hold-off runs and that is not idle waits. A host vector
that covers nothing shows an event that its mask holds in the PBA (R576), and one for a function out of D0 signals PME once (R574). -/
def Obligations.DecisionsDeliverTheCoveredSources : Prop :=
  ∀ (s : State) (g : Target),
    (covered g s ≠ [] → (∀ d v, g = .host d v → holdRuns d v s = false ∨ vecIdle d v s = true) →
      ∃ t, exec (.deliveryDecision g) s = .next t
        ∧ (∀ n ∈ covered g s, srcInflight n t = true ∧ srcCount n t = srcCount n s
            ∧ getDelivered n t = ⟨targetVec g, srcCount n s⟩)
        ∧ (∀ n, n ∉ covered g s → rd (Reg.icuSrcStat n) t = rd (Reg.icuSrcStat n) s ∧ getDelivered n t = getDelivered n s)
        ∧ (∀ d v, g = .host d v → t.outbox = s.outbox ++ [.msix d v (getVec d v s).addr (getVec d v s).data]
            ∧ (getVec d v t).pba = false
            ∧ (getVec d v t).sent = some s.now
            ∧ holdRuns d v t = decide (fget (Reg.icuVecHold (vecIndex d v)) IcuVecHold.holdUs s ≠ 0))
        ∧ ((∀ d v, g ≠ .host d v) → t.outbox = s.outbox)
        ∧ (∀ r, g = .rgc r → rgcAsleep r s = true → rgcState r t = 1)
        ∧ t.fs = s.fs ∧ t.comp = s.comp ∧ t.pwr = s.pwr ∧ t.pipes = s.pipes ∧ t.bc = s.bc)
    ∧ (∀ d v, g = .host d v → covered g s ≠ [] → holdRuns d v s = true → vecIdle d v s = false →
      ∃ t, exec (.deliveryDecision g) s = .next t
        ∧ fget (Reg.icuVecHold (vecIndex d v)) IcuVecHold.held t = 1
        ∧ OnlyRegs [Reg.icuVecHold (vecIndex d v)] { s with icu := t.icu } t)
    ∧ ∀ d v, g = .host d v → covered g s = [] →
      ∃ t, exec (.deliveryDecision g) s = .next t ∧ t = { s with outbox := t.outbox, icu := t.icu }
        ∧ (getVec d v t).pba = ((getVec d v s).pba || holdsMessage d v s)
        ∧ (∀ src : SrcId, src.val ∈ candidates s → eligible src s = true → routeKind src s = 1 → srcOwner s src = d.val →
            (getFn d s).d0 = false → (getFn d s).pmeEn = true → s.pwr.linkUp = true →
            t.outbox = s.outbox ++ (if (getFn d s).pme then [] else [.pme d]) ∧ (getFn d t).pme = true)
        ∧ ((getFn d s).d0 = true → t.outbox = s.outbox ∧ getFn d t = getFn d s)

/-- An event of a TRIG_IN is counted and latches the position of its domain (R94, R567); at FILT + 1 samples of a new level the filtered
level of an external input changes, and an event of inputs 4 to 7 is counted (R565, R566); fewer samples change nothing. The end of a
hold-off (R578), acknowledgement (R580), routing (R569), the return of a function to D0 (R574) and the gating of a woken region (R575). -/
def Obligations.InputsAcksRoutesAndWakes : Prop :=
  ((∀ (s : State) (n : Fin 4), s.pwr.bypass = false →
      ∃ t, exec (.trigInEvent n) s = .next t
        ∧ fget (Reg.icuSrcStat (2560 + n)) IcuSrcStat.count t
            = min 255 (fget (Reg.icuSrcStat (2560 + n)) IcuSrcStat.count s + 1)
        ∧ ((fget Reg.rckTrigCtl RckTrigCtl.tinEn s).testBit n = true →
            rd (Reg.rckTrigPosLo n) t = domPosLo (fget Reg.rckTrigCtl RckTrigCtl.tinDom s / 16 ^ n.val % 16) s
            ∧ rd (Reg.rckTrigPosHi n) t = domPosHi (fget Reg.rckTrigCtl RckTrigCtl.tinDom s / 16 ^ n.val % 16) s)
        ∧ OnlyRegs [Reg.icuSrcStat (2560 + n), Reg.rckTrigPosLo n, Reg.rckTrigPosHi n]
            { s with clock := t.clock, ring := t.ring } t)
    ∧ ∀ (s : State) (n : Fin 8) (level : Bool) (samples : Nat), s.pwr.bypass = false →
      ∃ t, exec (.externalInputEdge n level samples) s = .next t
        ∧ OnlyRegs [Reg.icuExtCtl n, Reg.icuSrcStat (2560 + n)] { s with icu := t.icu } t
        ∧ (filtLen n s + 1 ≤ (if (smGet Glitch.init n.val s.icu.glitch).level = level
              then (smGet Glitch.init n.val s.icu.glitch).run + samples else samples) →
            fbit (Reg.icuExtCtl n) IcuExtCtl.level t = level
            ∧ (4 ≤ n.val → fbit (Reg.icuExtCtl n) IcuExtCtl.level s ≠ level → isEvent (extSense n s) level = true →
                fget (Reg.icuSrcStat (2560 + n)) IcuSrcStat.count t
                  = min 255 (fget (Reg.icuSrcStat (2560 + n)) IcuSrcStat.count s + 1)))
        ∧ ((if (smGet Glitch.init n.val s.icu.glitch).level = level
              then (smGet Glitch.init n.val s.icu.glitch).run + samples else samples) ≤ filtLen n s → ∀ o, rd o t = rd o s))
  ∧ (∀ s : State,
      (∀ (d : DomId) (v : Fin 2048), v.val < vecCount d → holdRuns d v s = false →
        ∃ t, exec (.holdoffExpiry d v) s = .next t ∧ fget (Reg.icuVecHold (vecIndex d v)) IcuVecHold.held t = 0
          ∧ (covered (.host d v) s = [] → OnlyRegs [Reg.icuVecHold (vecIndex d v)] s t)
          ∧ (covered (.host d v) s ≠ [] → t.outbox = s.outbox ++ [.msix d v (getVec d v s).addr (getVec d v s).data]
              ∧ ∀ n ∈ covered (.host d v) s, srcInflight n t = true))
      ∧ (∀ (d : DomId) (src : SrcId) (n : Fin 256), HostMayWrite d (Reg.icuAck d) s →
        (srcOwner s src = d.val →
          ∃ t, exec (.interruptAck (.host d) src n) s = .next t ∧ srcCount src t = srcCount src s - min n.val (srcCount src s)
            ∧ srcInflight src t = false ∧ OnlyRegs [Reg.icuSrcStat src] s t)
        ∧ (srcOwner s src ≠ d.val →
          exec (.interruptAck (.host d) src n) s = .next (accessErr d kindState (Reg.icuAck d) s)))
      ∧ (∀ (a : AckBy) (src : SrcId) (n : Fin 256), srcInflight src s = true → levelActive src s = false →
        ((∃ r : RegionId, a = .rgc r ∧ deliveredAs src s = 2 ∧ fget (Reg.icuSrcRoute src) IcuSrcRoute.rgcRegion s = r.val)
          ∨ a = .baseCamp ∧ (deliveredAs src s = 3 ∨ deliveredAs src s = 5)) →
        ∃ t, exec (.interruptAck a src n) s = .next t ∧ srcInflight src t = false
          ∧ srcCount src t = srcCount src s - min (getDelivered src s).count (srcCount src s)
          ∧ OnlyRegs [Reg.icuSrcStat src] s t)
      ∧ (∀ (d : DomId) (src : SrcId) (v : Word), HostMayWrite d (Reg.icuSrcRoute src) s → (curMode s ≠ 5 ∨ src.val < 64) →
        ((d.val ≠ 0 ∧ (getF IcuSrcRoute.kind v = 2 ∨ getF IcuSrcRoute.kind v = 3))
            ∨ vecCount (srcOwner s src) ≤ getF IcuSrcRoute.vector v →
          exec (.routeWrite d src v) s = .next (accessErr d kindState (Reg.icuSrcRoute src) s))
        ∧ ((d.val = 0 ∨ getF IcuSrcRoute.kind v = 0 ∨ getF IcuSrcRoute.kind v = 1) →
          getF IcuSrcRoute.vector v < vecCount (srcOwner s src) →
          ∃ t, exec (.routeWrite d src v) s = .next t ∧ routeKind src t = getF IcuSrcRoute.kind v
            ∧ routeVector src t = getF IcuSrcRoute.vector v ∧ OnlyRegs [Reg.icuSrcRoute src] s t))
      ∧ (∀ d : DomId, exec (.functionD0Return (.function d)) s = .next (setFn d { getFn d s with d0 := true, pme := false } s))
      ∧ (∀ (d : DomId) (v : Fin 2048) (a : Nat) (data : Word), v.val < vecCount d →
        exec (.functionD0Return (.vector d v a data)) s = .next (setVec d v { getVec d v s with addr := a, data := data } s))
      ∧ ∀ r : RegionId, smGet false r.val s.icu.wakes = true → rgcQuiet r s = true → (curMode s = 2 ∨ curMode s = 4) →
        rgcState r s = 1 →
        ∃ t, exec (.wakeRegate r) s = .next t ∧ rgcState r t = 0 ∧ smGet false r.val t.icu.wakes = false
          ∧ (∀ b < 8, ∀ q < 2, fget (Reg.dqStatus r b q) DqStatus.dqFill t = 0)
          ∧ OnlyRegs (Reg.rgcStatus r :: (List.range 16).map fun k => Reg.dqStatus r (k / 2) (k % 2)) { s with icu := t.icu, blocks := t.blocks } t)

/-- Sensors and the power limiter (R634, R641 to R644): a sample is kept and warns from WARN_C up, until T_max has stayed 5 °C below it
for a second; 110 °C trips; samples of package power make the window's average, and those of a rail tell since when it is outside its
window. A window keeps its average and peak, one above the cap gates the regions that are READY and idle, and after a second of low
windows the last step is undone. Base Camp's registers (R640, R646, R655): CAP_W stays within 50 to 400 W, BCM_REGION_OFF and FLASH_WE
need the key, and a region with an enabled pipeline is not held. -/
def Obligations.SensorsAndBaseCampRegisters : Prop :=
  (∀ s : State,
      (∀ (n : Fin 48) (v : BitVec 16), s.pwr.aux = true →
        (22 ≤ n.val → ∃ t, exec (.sensorSample n v) s = .next t ∧ OnlyRegs [Reg.bcmSensor n] { s with bc := t.bc } t
          ∧ fget (Reg.bcmSensor n) BcmSensor.value t = v.toNat ∧ sensorValid n t = true
          ∧ (n.val = 31 → t.bc = { s.bc with powerSum := s.bc.powerSum + v.toInt, powerCount := s.bc.powerCount + 1 })
          ∧ (∀ r : Rail, railSensor r = n.val → inWindow r v.toInt = false →
              smFind n.val t.bc.outSince = some ((smFind n.val s.bc.outSince).getD s.bc.auxPs))
          ∧ (n.val ≠ 31 → (∀ r : Rail, railSensor r ≠ n.val) → t.bc = s.bc))
        ∧ (n.val < 22 → v.toInt < 1760 → ∃ t, exec (.sensorSample n v) s = .next t ∧ t = { s with regs := t.regs, bc := t.bc }
          ∧ fget (Reg.bcmSensor n) BcmSensor.value t = v.toNat ∧ sensorValid n t = true ∧ v.toInt ≤ tMax t
          ∧ (16 * (warnC s : Int) ≤ v.toInt → fbit Reg.bcmStatus BcmStatus.tempWarn t = true)
          ∧ (∀ k, tMax t < 16 * ((warnC s : Int) - 5) → s.bc.coolSince = some k → k + secondPs ≤ s.bc.auxPs →
              fbit Reg.bcmStatus BcmStatus.tempWarn t = false))
        ∧ (n.val < 22 → 1760 ≤ v.toInt → s.pwr.trip = false → ∃ t, exec (.sensorSample n v) s = .next t ∧ t.pwr.trip = true
          ∧ t.pwr.bypass = true ∧ fget Reg.chipResetCause ChipResetCause.resetCause t = 5))
      ∧ (s.bc.auxPs < s.bc.windowAt + windowPs s → exec .powerWindow s = .next s)
      ∧ ∀ average n : Nat, fwRuns s = true → s.pwr.bypass = false → s.bc.windowAt + windowPs s ≤ s.bc.auxPs →
        average = windowAverage s → n = s.bc.lowSince.getD s.bc.windowAt →
        (average ≤ 10 * effectiveCap s → tMax s < 16 * (throttleC s : Int) →
          (19 * (10 * effectiveCap s) ≤ 20 * average ∨ 16 * ((throttleC s : Int) - 5) ≤ tMax s) →
          ∃ t, exec .powerWindow s = .next t
            ∧ OnlyRegs [Reg.bcmPower]
                { s with bc := { s.bc with windowAt := s.bc.auxPs, powerSum := 0, powerCount := 0, lowSince := none } } t
            ∧ fget Reg.bcmPower BcmPower.average t = average
            ∧ fget Reg.bcmPower BcmPower.peak t = max average (fget Reg.bcmPower BcmPower.peak s))
        ∧ (20 * average < 19 * (10 * effectiveCap s) → tMax s < 16 * ((throttleC s : Int) - 5) →
          (s.bc.auxPs < n + secondPs →
            ∃ t, exec .powerWindow s = .next t ∧ t.bc.lowSince = some n ∧ t.bc.lowered = s.bc.lowered
              ∧ OnlyRegs [Reg.bcmPower] { s with bc := t.bc } t)
          ∧ ∀ (r : Nat) (l : List Nat), n + secondPs ≤ s.bc.auxPs → s.bc.lowered = l ++ [r] →
            ∃ t, exec .powerWindow s = .next t ∧ t.bc.lowered = l
              ∧ smGet 0 r t.bc.capLevel = smGet 0 r s.bc.capLevel - 1
              ∧ (l = [] → fbit Reg.bcmStatus BcmStatus.capActive t = false)
              ∧ fget Reg.bcmPower BcmPower.average t = average ∧ t.comp = s.comp ∧ t.pipes = s.pipes)
        ∧ ∀ r < 16, 10 * effectiveCap s < average → rgcState r s = 1 → regionWork r s = false → blocksIdle r s = true →
          ∃ t, exec .powerWindow s = .next t ∧ rgcState r t = 0 ∧ fbit Reg.bcmStatus BcmStatus.capActive t = true
            ∧ fget Reg.bcmPower BcmPower.average t = average ∧ t.comp = s.comp ∧ t.pipes = s.pipes)
  ∧ (∀ (s : State) (d : DomId) (v : Word), curMode s ≠ 5 →
      (HostMayWrite d Reg.bcmPowerCap s →
        ∃ t, exec (.bcmPowerCapWrite d v) s = .next t ∧ OnlyRegs [Reg.bcmPowerCap] s t
          ∧ fget Reg.bcmPowerCap BcmPowerCap.capW t = min 400 (max 50 (getF BcmPowerCap.capW v))
          ∧ fget Reg.bcmPowerCap BcmPowerCap.windowMs t = getF BcmPowerCap.windowMs v)
      ∧ (HostMayWrite d Reg.bcmRegionOff s →
        (keyArmed s = false → exec (.bcmRegionOffWrite d v) s = .next (accessErr d kindKey Reg.bcmRegionOff s))
        ∧ (keyArmed s = true → (∃ r < 16, (getF BcmRegionOff.off v).testBit r = true ∧ enabledOn r s ≠ []) →
          exec (.bcmRegionOffWrite d v) s = .next (accessErr d kindState Reg.bcmRegionOff (disarm s)))
        ∧ (keyArmed s = true → (∀ r < 16, (getF BcmRegionOff.off v).testBit r = true → enabledOn r s = []) →
          ∃ t, exec (.bcmRegionOffWrite d v) s = .next t ∧ keyArmed t = false
            ∧ fget Reg.bcmRegionOff BcmRegionOff.off t = getF BcmRegionOff.off v
            ∧ (∀ r < 16, (getF BcmRegionOff.off v).testBit r = true → rgcState r s = 1 → rgcState r t = 0)
            ∧ (∀ r < 16, (getF BcmRegionOff.off v).testBit r = false → rgcState r t = rgcState r s)
            ∧ t.comp = s.comp ∧ t.pipes = s.pipes ∧ t.fs = s.fs))
      ∧ (HostMayWrite d Reg.bcmFlashCtl s →
        (keyArmed s = false → exec (.flashWeWrite d v) s = .next (accessErr d kindKey Reg.bcmFlashCtl s))
        ∧ (keyArmed s = true → ∃ t, exec (.flashWeWrite d v) s = .next t ∧ keyArmed t = false
          ∧ fget Reg.bcmFlashCtl BcmFlashCtl.flashWe t = getF BcmFlashCtl.flashWe v
          ∧ OnlyRegs [Reg.bcmFlashCtl, Reg.chipKeyState] s t)))

/-- A write of k to BCM_LOG_IDX (R650) copies entry k of the log; where k is at or above BCM_LOG_WR, or below BCM_LOG_WR − 2,048, the DATA
registers read 0 and LOG_STALE is set; the SMBus index is separate. -/
def Obligations.LogIndexCopiesAnEntry : Prop :=
  ∀ (s : State) (d : DomId) (v : Word), HostMayWrite d Reg.bcmLogIdx s → curMode s ≠ 5 →
    ∃ t, exec (.logIdxWrite d v) s = .next t ∧ rd Reg.bcmLogIdx t = v ∧ t.bc.smbIdx = s.bc.smbIdx
      ∧ (v.toNat < (rd Reg.bcmLogWr s).toNat → (rd Reg.bcmLogWr s).toNat ≤ v.toNat + 2048 →
          fget Reg.bcmLogStatus BcmLogStatus.logStale t = 0
          ∧ ∀ i < 8, rd (Reg.bcmLogData i) t = ((wordsOf 8 (logBytes (logEntryAt v.toNat s)))[i]?).getD 0)
      ∧ ((rd Reg.bcmLogWr s).toNat ≤ v.toNat ∨ v.toNat + 2048 < (rd Reg.bcmLogWr s).toNat →
          fget Reg.bcmLogStatus BcmLogStatus.logStale t = 1 ∧ ∀ i < 8, rd (Reg.bcmLogData i) t = 0)
      ∧ OnlyRegs (Reg.bcmLogIdx :: Reg.bcmLogStatus :: (List.range 8).map Reg.bcmLogData) s t

/-- Until its firmware runs, Base Camp answers only STATUS and FW_INFO and NACKs every other command (R633). -/
def Obligations.UntilFirmwareRunsOnlyTwoCommandsAreAnswered : Prop :=
  ∀ (s : State) (a : Fin 128), s.pwr.aux = true → fwRuns s = false → a.val = smbAddress s →
    (∃ l, exec (.smbStatus a true) s = .next { s with outbox := s.outbox ++ [.smbus l] })
    ∧ (∃ l, exec (.fwInfo a true) s = .next { s with outbox := s.outbox ++ [.smbus l] })
    ∧ ∀ (c : Instr) (pec : Bool), (c = .smbTempMax a pec ∨ c = .smbPower a pec ∨ (∃ n, c = .smbSensor a pec n)
        ∨ (∃ k, c = .logSeek a pec k) ∨ c = .logRead a pec ∨ (∃ n, c = .smbHold a pec n) ∨ (∃ w, c = .bmcCap a pec w)
        ∨ c = .clearTrip a pec) →
      exec c s = .next { s with outbox := s.outbox ++ [.smbusNack] }

/-- SMBus (R645, R647): a command for another address is none of Base Camp's, and one with a bad PEC is not acknowledged; a good one is
answered, holds or releases the chip, sets the board's cap, clears a trip once every sensor is cool, or moves the log index. Where the
spec gives a sensor index or a cap no value, the value is open (assumption 144). -/
def Obligations.SmbusCommandsAreAnswered : Prop :=
  ∀ (s : State) (a : Fin 128), s.pwr.aux = true →
    (∀ (c : Instr) (pec : Bool), (c = .smbStatus a pec ∨ c = .fwInfo a pec ∨ c = .smbTempMax a pec ∨ c = .smbPower a pec
        ∨ (∃ n, c = .smbSensor a pec n) ∨ (∃ k, c = .logSeek a pec k) ∨ c = .logRead a pec ∨ (∃ n, c = .smbHold a pec n)
        ∨ (∃ w, c = .bmcCap a pec w) ∨ c = .clearTrip a pec) →
      (a.val ≠ smbAddress s → exec c s = .next s)
      ∧ (a.val = smbAddress s → pec = false → exec c s = .next { s with outbox := s.outbox ++ [.smbusNack] }))
    ∧ (a.val = smbAddress s →
      exec (.smbStatus a true) s = .next { s with outbox := s.outbox ++ [.smbus (smbBytes (smbStatusWord s) 2)] }
      ∧ (∃ l, exec (.fwInfo a true) s = .next { s with outbox := s.outbox ++ [.smbus l] }
        ∧ l.take 5 = smbBytes (rd Reg.bcmFwVersion s).toNat 4 ++ [fget Reg.bcmStatus BcmStatus.fwSlot s])
      ∧ (fwRuns s = true →
        exec (.smbTempMax a true) s
          = .next { s with outbox := s.outbox ++ [.smbus (smbBytes (fget Reg.bcmTempMax BcmTempMax.tMax s) 2)] }
        ∧ exec (.smbPower a true) s
          = .next { s with outbox := s.outbox ++ [.smbus (smbBytes (fget Reg.bcmPower BcmPower.average s) 2)] }
        ∧ (∀ n : Fin 256, n.val < 64 → exec (.smbSensor a true n) s
            = .next { s with outbox := s.outbox ++ [.smbus (smbBytes (fget (Reg.bcmSensor n) BcmSensor.value s) 2)] })
        ∧ (∀ n : Fin 256, 64 ≤ n.val → ∃ l, l.length = 2 ∧ exec (.smbSensor a true n) s
            = .next { s with outbox := s.outbox ++ [.smbus l], freeCtr := s.freeCtr + 1 })
        ∧ (∀ k : Word, exec (.logSeek a true k) s = .next { s with bc := { s.bc with smbIdx := k.toNat } })
        ∧ (∃ t l, exec (.logRead a true) s = .next t
          ∧ t = { s with
              outbox := s.outbox ++ [.smbus l]
              bc := { s.bc with smbIdx := (s.bc.smbIdx + 1) % 2 ^ 32 } }
          ∧ (logHolds s.bc.smbIdx s = true → l = (logBytes (logEntryAt s.bc.smbIdx s)).map BitVec.toNat)
          ∧ (logHolds s.bc.smbIdx s = false → l = List.replicate 32 0))
        ∧ (s.pwr.hold = false → ∃ t, exec (.smbHold a true 1) s = .next t ∧ t.pwr.hold = true ∧ t.pwr.bypass = true
          ∧ fget Reg.chipResetCause ChipResetCause.resetCause t = 4 ∧ fget Reg.bcmStatus BcmStatus.held t = 1)
        ∧ (∃ t, exec (.smbHold a true 0) s = .next t ∧ t.pwr.hold = false ∧ fget Reg.bcmStatus BcmStatus.held t = 0
          ∧ OnlyRegs [Reg.bcmStatus] { s with pwr := t.pwr } t)
        ∧ (∀ n : Fin 256, 2 ≤ n.val → exec (.smbHold a true n) s = .next s)
        ∧ (∀ w : BitVec 16, ∃ t, exec (.bmcCap a true w) s = .next t
          ∧ ((w.toNat = 0 ∨ 50 ≤ w.toNat ∧ w.toNat ≤ 400) →
              fget Reg.bcmBmcCap BcmBmcCap.bmcCapW t = w.toNat ∧ OnlyRegs [Reg.bcmBmcCap] s t)
          ∧ ((0 < w.toNat ∧ w.toNat < 50 ∨ 400 < w.toNat) →
              50 ≤ fget Reg.bcmBmcCap BcmBmcCap.bmcCapW t ∧ fget Reg.bcmBmcCap BcmBmcCap.bmcCapW t ≤ 400
              ∧ OnlyRegs [Reg.bcmBmcCap] { s with freeCtr := s.freeCtr + 1 } t))
        ∧ (s.pwr.trip = true → (∀ n < 22, sensorInt n s < 16 * (warnC s : Int)) →
          ∃ t, exec (.clearTrip a true) s = .next t ∧ t.pwr.trip = false ∧ t.pwr.railEn = true)
        ∧ (s.pwr.trip = true → (∃ n < 22, 16 * (warnC s : Int) ≤ sensorInt n s) → exec (.clearTrip a true) s = .next s)))

/-- The TAP (R690, R691): with PERST_N asserted the boundary instructions drive, sample, hold or release the pads; otherwise each acts as
BYPASS; they touch nothing but the TAP. -/
def Obligations.BoundaryScanTouchesTheTapOnly : Prop :=
  ∀ (s : State) (drive pads : List (Nat × Bool)),
    (∀ c i, (c, i) ∈ [(Instr.extest drive pads, TapInstr.extest), (.extestPulse drive pads, .extestPulse),
        (.extestTrain drive pads, .extestTrain)] → s.pwr.aux = true → s.pwr.perst = true →
      exec c s = .next { s with tap := ⟨i, cellTable drive, cellTable pads, true, false⟩ })
    ∧ (s.pwr.aux = true → s.pwr.perst = true →
      exec (.samplePreload drive pads) s
          = .next { s with tap := ⟨.samplePreload, cellTable drive, cellTable pads, false, false⟩ }
      ∧ exec .highz s = .next { s with tap := { s.tap with instr := .highz, driving := false, highZ := true } }
      ∧ exec .clamp s = .next { s with tap := { s.tap with instr := .clamp, driving := true, highZ := false } })
    ∧ (∀ c, (s.pwr.aux = false ∨ s.pwr.perst = false) ∧ c ∈ [Instr.extest drive pads, .extestPulse drive pads, .extestTrain drive pads,
          .samplePreload drive pads, .highz, .clamp] ∨ c = .bypass →
      exec c s = .next { s with tap := { s.tap with instr := .bypass, driving := false, highZ := false } })
end

