-- ==== Sys2Proof/Laws/Tables.lean ====
section
/-! SUPPORT. Laws of the sparse tables and of the bit fields of words: the canonical form is kept, a read after a write, and what a
write leaves alone. -/

namespace Sys2Proof.Machine

open Sys2Proof

/-! ### The canonical form of a table -/

theorem smAbove_mono {α : Type} {b c : Nat} (h : c ≤ b) {m : SMap α} (hm : smAbove b m = true) : smAbove c m = true := by
  induction m with
  | nil => rfl
  | cons e m ih =>
    obtain ⟨j, v⟩ := e
    simp only [smAbove, Bool.and_eq_true, decide_eq_true_eq] at *
    exact ⟨by omega, ih hm.2⟩

theorem smAbove_smPut {α : Type} {b k : Nat} {v : α} (hk : b < k) {m : SMap α} (hm : smAbove b m = true) :
    smAbove b (smPut k v m) = true := by
  induction m with
  | nil => simp [smPut, smAbove, hk]
  | cons e m ih =>
    obtain ⟨j, w⟩ := e
    have h := hm
    simp only [smAbove, Bool.and_eq_true, decide_eq_true_eq] at h
    unfold smPut
    split
    · simp [smAbove, hk, h.1, h.2]
    · split
      · simp [smAbove, hk, h.2]
      · simp [smAbove, h.1, ih h.2]

theorem smAbove_smDel {α : Type} {b k : Nat} {m : SMap α} (hm : smAbove b m = true) : smAbove b (smDel k m) = true := by
  induction m with
  | nil => rfl
  | cons e m ih =>
    obtain ⟨j, w⟩ := e
    simp only [smAbove, Bool.and_eq_true, decide_eq_true_eq] at hm
    unfold smDel
    split
    · exact ih hm.2
    · simp [smAbove, hm.1, ih hm.2]

theorem smAbove_smErase {α : Type} {b : Nat} (p : Nat → Bool) {m : SMap α} (hm : smAbove b m = true) :
    smAbove b (smErase p m) = true := by
  induction m with
  | nil => rfl
  | cons e m ih =>
    obtain ⟨j, w⟩ := e
    simp only [smAbove, Bool.and_eq_true, decide_eq_true_eq] at hm
    have := ih hm.2
    unfold smErase at this ⊢
    rw [List.filter_cons]
    split
    · simp [smAbove, hm.1, this]
    · exact this

/-- What the canonical form says of a table's head. -/
theorem smWf_cons {α : Type} [DecidableEq α] {d : Nat → α} {j : Nat} {v : α} {m : SMap α} :
    smWf d ((j, v) :: m) = true ↔ v ≠ d j ∧ smAbove j m = true ∧ smWf d m = true := by
  simp [smWf]

theorem smPut_wf {α : Type} [DecidableEq α] {d : Nat → α} {k : Nat} {v : α} (hv : v ≠ d k) {m : SMap α}
    (hm : smWf d m = true) : smWf d (smPut k v m) = true := by
  induction m with
  | nil => simp [smPut, smWf, smAbove, hv]
  | cons e m ih =>
    obtain ⟨j, w⟩ := e
    have h := smWf_cons.1 hm
    unfold smPut
    split
    · rename_i hk
      exact smWf_cons.2 ⟨hv, by simp [smAbove, hk, smAbove_mono (Nat.le_of_lt hk) h.2.1], hm⟩
    · split
      · rename_i hk
        subst hk
        exact smWf_cons.2 ⟨hv, h.2.1, h.2.2⟩
      · exact smWf_cons.2 ⟨h.1, smAbove_smPut (by omega) h.2.1, ih h.2.2⟩

theorem smDel_wf {α : Type} [DecidableEq α] {d : Nat → α} {k : Nat} {m : SMap α} (hm : smWf d m = true) :
    smWf d (smDel k m) = true := by
  induction m with
  | nil => rfl
  | cons e m ih =>
    obtain ⟨j, w⟩ := e
    have h := smWf_cons.1 hm
    unfold smDel
    split
    · exact ih h.2.2
    · exact smWf_cons.2 ⟨h.1, smAbove_smDel h.2.1, ih h.2.2⟩

/-- A write of a table keeps its canonical form. -/
theorem smSet_wf {α : Type} [DecidableEq α] {d : Nat → α} {k : Nat} {v : α} {m : SMap α} (hm : smWf d m = true) :
    smWf d (smSet (d k) k v m) = true := by
  unfold smSet
  split
  · exact smDel_wf hm
  · rename_i h
    exact smPut_wf h hm

theorem smErase_wf {α : Type} [DecidableEq α] {d : Nat → α} (p : Nat → Bool) {m : SMap α} (hm : smWf d m = true) :
    smWf d (smErase p m) = true := by
  induction m with
  | nil => rfl
  | cons e m ih =>
    obtain ⟨j, w⟩ := e
    have h := smWf_cons.1 hm
    have ha := smAbove_smErase p h.2.1
    have hb := ih h.2.2
    unfold smErase at *
    rw [List.filter_cons]
    split
    · exact smWf_cons.2 ⟨h.1, ha, hb⟩
    · exact hb

/-! ### Reads after writes -/

theorem smGet_smPut_self {α : Type} {d : α} {k : Nat} {v : α} {m : SMap α} : smGet d k (smPut k v m) = v := by
  induction m with
  | nil => simp [smPut, smGet]
  | cons e m ih =>
    obtain ⟨j, w⟩ := e
    unfold smPut
    split
    · simp [smGet]
    · split
      · simp [smGet]
      · simp [smGet, *]

theorem smGet_smPut_ne {α : Type} {d : α} {k i : Nat} {v : α} (h : i ≠ k) {m : SMap α} :
    smGet d i (smPut k v m) = smGet d i m := by
  induction m with
  | nil => simp [smPut, smGet, h]
  | cons e m ih =>
    obtain ⟨j, w⟩ := e
    unfold smPut
    split
    · simp [smGet, h]
    · split
      · rename_i hk
        subst hk
        simp [smGet, h]
      · simp only [smGet, ih]

theorem smGet_smDel_self {α : Type} {d : α} {k : Nat} {m : SMap α} : smGet d k (smDel k m) = d := by
  induction m with
  | nil => rfl
  | cons e m ih =>
    obtain ⟨j, w⟩ := e
    unfold smDel
    split
    · exact ih
    · rename_i h
      simp [smGet, h, ih]

theorem smGet_smDel_ne {α : Type} {d : α} {k i : Nat} (hi : i ≠ k) {m : SMap α} : smGet d i (smDel k m) = smGet d i m := by
  induction m with
  | nil => rfl
  | cons e m ih =>
    obtain ⟨j, w⟩ := e
    unfold smDel
    split
    · rename_i h
      subst h
      simp [smGet, hi, ih]
    · simp only [smGet, ih]

/-- A table reads what was written last at a key. -/
@[simp] theorem smGet_smSet_self {α : Type} [DecidableEq α] {d : α} {k : Nat} {v : α} {m : SMap α} :
    smGet d k (smSet d k v m) = v := by
  unfold smSet
  split
  · rename_i h
    rw [h, smGet_smDel_self]
  · exact smGet_smPut_self

/-- A write leaves every other key alone. -/
theorem smGet_smSet_ne {α : Type} [DecidableEq α] {c d : α} {k i : Nat} {v : α} (h : i ≠ k) {m : SMap α} :
    smGet d i (smSet c k v m) = smGet d i m := by
  unfold smSet
  split
  · exact smGet_smDel_ne h
  · exact smGet_smPut_ne h

/-- Dropping keys leaves the others alone. -/
theorem smGet_smErase_ne {α : Type} {d : α} {i : Nat} {p : Nat → Bool} (h : p i = false) {m : SMap α} :
    smGet d i (smErase p m) = smGet d i m := by
  unfold smErase
  induction m with
  | nil => rfl
  | cons e m ih =>
    obtain ⟨j, w⟩ := e
    rw [List.filter_cons]
    split
    · simp only [smGet, ih]
    · rename_i hj
      have : i ≠ j := by rintro rfl; simp [h] at hj
      simp only [smGet, ih, this, reduceIte]

/-- A dropped key reads as its default. -/
theorem smGet_smErase_self {α : Type} {d : α} {i : Nat} {p : Nat → Bool} (h : p i = true) {m : SMap α} :
    smGet d i (smErase p m) = d := by
  unfold smErase
  induction m with
  | nil => rfl
  | cons e m ih =>
    obtain ⟨j, w⟩ := e
    rw [List.filter_cons]
    split
    · rename_i hj
      have : i ≠ j := by rintro rfl; simp [h] at hj
      simp only [smGet, ih, this, reduceIte]
    · exact ih

end Sys2Proof.Machine
end

