-- ==== Sys2Proof/Laws/FrameStore.lean ====
section
/-! SUPPORT. Laws of the frame store's bytes: every memory operation keeps the canonical form, a byte read after a write gives the
byte written, and a write leaves every other byte alone. -/

namespace Sys2Proof.Machine

open Sys2Proof

/-! ### Zero ranges -/

/-- The first range of a list starts above `b`. -/
def headAbove (b : Nat) : List (Nat × Nat) → Bool
  | [] => true
  | (l, _) :: _ => decide (b < l)

theorem rangesWf_cons {l h : Nat} {rs : List (Nat × Nat)} :
    rangesWf ((l, h) :: rs) = true ↔ l < h ∧ headAbove h rs = true ∧ rangesWf rs = true := by
  cases rs with
  | nil => simp [rangesWf, headAbove]
  | cons r rs => obtain ⟨a, b⟩ := r; simp [rangesWf, headAbove, and_assoc]

theorem headAbove_mono {b c : Nat} (h : c ≤ b) {rs : List (Nat × Nat)} (hr : headAbove b rs = true) : headAbove c rs = true := by
  cases rs with
  | nil => rfl
  | cons r rs =>
    obtain ⟨l, k⟩ := r
    simp only [headAbove, decide_eq_true_eq] at *
    omega

theorem headAbove_rangeAdd {b lo hi : Nat} (h : b < lo) {rs : List (Nat × Nat)} (hr : headAbove b rs = true)
    (hw : rangesWf rs = true) : headAbove b (rangeAdd lo hi rs) = true := by
  induction rs generalizing lo hi with
  | nil => unfold rangeAdd; split <;> simp [headAbove, h]
  | cons r rs ih =>
    obtain ⟨l, k⟩ := r
    have hc := rangesWf_cons.1 hw
    simp only [headAbove, decide_eq_true_eq] at hr
    unfold rangeAdd
    split
    · simp [headAbove, hr]
    · split
      · simp [headAbove, h]
      · split
        · simp [headAbove, hr]
        · exact ih (by omega) (headAbove_mono (by omega) hc.2.1) hc.2.2

theorem rangeAdd_wf {lo hi : Nat} {rs : List (Nat × Nat)} (hw : rangesWf rs = true) : rangesWf (rangeAdd lo hi rs) = true := by
  induction rs generalizing lo hi with
  | nil => unfold rangeAdd; split <;> simp [rangesWf, *]
  | cons r rs ih =>
    obtain ⟨l, k⟩ := r
    have hc := rangesWf_cons.1 hw
    unfold rangeAdd
    split
    · exact hw
    · split
      · exact rangesWf_cons.2 ⟨by omega, by simp [headAbove, *], hw⟩
      · split
        · rename_i h3
          exact rangesWf_cons.2 ⟨hc.1, headAbove_rangeAdd h3 hc.2.1 hc.2.2, ih hc.2.2⟩
        · exact ih hc.2.2

/-- An address below the first range is in no range. -/
theorem inRanges_above {a b : Nat} (h : a ≤ b) {rs : List (Nat × Nat)} (hr : headAbove b rs = true) (hw : rangesWf rs = true) :
    inRanges a rs = false := by
  induction rs generalizing b with
  | nil => rfl
  | cons r rs ih =>
    obtain ⟨l, k⟩ := r
    have hc := rangesWf_cons.1 hw
    simp only [headAbove, decide_eq_true_eq] at hr
    simp only [inRanges, Bool.or_eq_false_iff, decide_eq_false_iff_not]
    exact ⟨by omega, ih (b := k) (by omega) hc.2.1 hc.2.2⟩

/-- The ranges after an addition hold the addresses they held and the added ones. -/
theorem inRanges_rangeAdd {a lo hi : Nat} {rs : List (Nat × Nat)} (hw : rangesWf rs = true) :
    inRanges a (rangeAdd lo hi rs) = (decide (lo ≤ a ∧ a < hi) || inRanges a rs) := by
  induction rs generalizing lo hi with
  | nil =>
    unfold rangeAdd
    split
    · simp [inRanges]
    · simp only [inRanges, Bool.or_false]; symm; simp; omega
  | cons r rs ih =>
    obtain ⟨l, k⟩ := r
    have hc := rangesWf_cons.1 hw
    unfold rangeAdd
    split
    · have : decide (lo ≤ a ∧ a < hi) = false := by simp; omega
      simp [this]
    · split
      · simp [inRanges]
      · split
        · simp only [inRanges, ih hc.2.2, ← Bool.or_assoc, Bool.or_comm]
        · rw [ih hc.2.2]
          simp only [inRanges, ← Bool.or_assoc]
          congr 1
          rw [← Bool.decide_or]
          exact decide_eq_decide.2 (by omega)

theorem headAbove_rangeDel {a b : Nat} {rs : List (Nat × Nat)} (hr : headAbove b rs = true) (hw : rangesWf rs = true) :
    headAbove b (rangeDel a rs) = true := by
  cases rs with
  | nil => rfl
  | cons r rs =>
    obtain ⟨l, k⟩ := r
    have hc := rangesWf_cons.1 hw
    simp only [headAbove, decide_eq_true_eq] at hr
    unfold rangeDel
    split
    · simp [headAbove, hr]
    · split
      · simp [headAbove, hr]
      · split
        · simp [headAbove, hr]
        · split
          · simp [headAbove]; omega
          · simp only [List.nil_append]; exact headAbove_mono (by omega) hc.2.1

theorem rangeDel_wf {a : Nat} {rs : List (Nat × Nat)} (hw : rangesWf rs = true) : rangesWf (rangeDel a rs) = true := by
  induction rs with
  | nil => rfl
  | cons r rs ih =>
    obtain ⟨l, k⟩ := r
    have hc := rangesWf_cons.1 hw
    unfold rangeDel
    split
    · exact rangesWf_cons.2 ⟨hc.1, headAbove_rangeDel hc.2.1 hc.2.2, ih hc.2.2⟩
    · split
      · exact hw
      · have hb : rangesWf ((if a + 1 < k then [(a + 1, k)] else []) ++ rs) = true := by
          split
          · exact rangesWf_cons.2 ⟨by omega, hc.2.1, hc.2.2⟩
          · exact hc.2.2
        split
        · refine rangesWf_cons.2 ⟨by omega, ?_, hb⟩
          show headAbove a ((if a + 1 < k then [(a + 1, k)] else []) ++ rs) = true
          split
          · simp [headAbove]
          · exact headAbove_mono (by omega) hc.2.1
        · exact hb

/-- The ranges after one address is taken out hold every other address they held. -/
theorem inRanges_rangeDel {a c : Nat} {rs : List (Nat × Nat)} (hw : rangesWf rs = true) :
    inRanges c (rangeDel a rs) = (inRanges c rs && decide (c ≠ a)) := by
  induction rs with
  | nil => rfl
  | cons r rs ih =>
    obtain ⟨l, k⟩ := r
    have hc := rangesWf_cons.1 hw
    unfold rangeDel
    split
    · simp only [inRanges, ih hc.2.2]
      by_cases h : c = a
      · subst h
        have : decide (l ≤ c ∧ c < k) = false := by simp; omega
        simp [this]
      · simp [h]
    · split
      · by_cases h : c = a
        · subst h
          rw [inRanges_above (b := c) (Nat.le_refl _) (by simpa [headAbove] using ‹_›) hw]
          rfl
        · simp [h]
      · have hin : c ≤ k → inRanges c rs = false := fun h => inRanges_above h hc.2.1 hc.2.2
        have hr : inRanges c ((if l < a then [(l, a)] else []) ++ ((if a + 1 < k then [(a + 1, k)] else []) ++ rs))
            = (decide (l ≤ c ∧ c < a) || (decide (a + 1 ≤ c ∧ c < k) || inRanges c rs)) := by
          split <;> split <;> simp only [inRanges, List.cons_append, List.nil_append]
          · have h1 : decide (a + 1 ≤ c ∧ c < k) = false := by simp; omega
            rw [h1, Bool.false_or]
          · have h1 : decide (l ≤ c ∧ c < a) = false := by simp; omega
            rw [h1, Bool.false_or]
          · have h1 : decide (l ≤ c ∧ c < a) = false := by simp; omega
            have h2 : decide (a + 1 ≤ c ∧ c < k) = false := by simp; omega
            rw [h1, h2, Bool.false_or, Bool.false_or]
        rw [hr]
        simp only [inRanges]
        by_cases hk : c ≤ k
        · rw [hin hk]
          simp only [Bool.or_false, ← Bool.decide_or, ← Bool.decide_and]
          exact decide_eq_decide.2 (by omega)
        · have h1 : decide (l ≤ c ∧ c < a) = false := by simp; omega
          have h2 : decide (a + 1 ≤ c ∧ c < k) = false := by simp; omega
          have h3 : decide (l ≤ c ∧ c < k) = false := by simp; omega
          have h4 : decide (c ≠ a) = true := by simp; omega
          rw [h1, h2, h3, h4]; simp only [Bool.false_or, Bool.and_true]

/-! ### Cells -/

theorem mem_smPut {α : Type} {k : Nat} {v : α} {e : Nat × α} {m : SMap α} (h : e ∈ smPut k v m) : e = (k, v) ∨ e ∈ m := by
  induction m with
  | nil => simpa [smPut] using h
  | cons x m ih =>
    obtain ⟨j, w⟩ := x
    unfold smPut at h
    split at h
    · simpa using h
    · split at h
      · exact (List.mem_cons.1 h).imp id (List.mem_cons_of_mem _)
      · simp only [List.mem_cons] at h ⊢
        rcases h with h | h
        · exact .inr (.inl h)
        · exact (ih h).imp id .inr

theorem mem_smDel {α : Type} {k : Nat} {e : Nat × α} {m : SMap α} (h : e ∈ smDel k m) : e ∈ m ∧ e.1 ≠ k := by
  induction m with
  | nil => simp [smDel] at h
  | cons x m ih =>
    obtain ⟨j, w⟩ := x
    unfold smDel at h
    split at h
    · exact ⟨List.mem_cons_of_mem _ (ih h).1, (ih h).2⟩
    · rename_i hj
      rcases List.mem_cons.1 h with h | h
      · subst h; exact ⟨List.mem_cons_self .., fun he => hj he.symm⟩
      · exact ⟨List.mem_cons_of_mem _ (ih h).1, (ih h).2⟩

/-- The cells' form: a table without zeros, none of whose addresses is in a zero range. -/
theorem cellsWf_iff {z : List (Nat × Nat)} {m : List Host.Cell} :
    cellsWf z m = true ↔ smWf (fun _ => (0 : BitVec 8)) m = true ∧ ∀ e ∈ m, inRanges e.1 z = false := by
  induction m with
  | nil => simp [cellsWf, smWf]
  | cons x m ih =>
    obtain ⟨a, b⟩ := x
    simp only [cellsWf, smWf, Bool.and_eq_true, ih, List.mem_cons, forall_eq_or_imp, Bool.not_eq_true']
    exact ⟨fun h => ⟨⟨h.2.1, h.2.2.1, h.2.2.2.1⟩, h.1, h.2.2.2.2⟩, fun h => ⟨h.2.1, h.1.1, h.1.2.1, h.1.2.2, h.2.2⟩⟩

/-! ### Bytes -/

/-- Writing a byte keeps the canonical form. -/
theorem memPut_wf {m : Mem} {a : Nat} {b : Byte} (h : Mem.wf m) : Mem.wf (memPut m a b) := by
  obtain ⟨hc, hr⟩ := h
  obtain ⟨hw, hz⟩ := cellsWf_iff.1 hc
  unfold memPut
  split
  · refine ⟨cellsWf_iff.2 ⟨smDel_wf hw, fun e he => ?_⟩, rangeAdd_wf hr⟩
    have := mem_smDel he
    simp only [inRanges_rangeAdd hr, hz e this.1, Bool.or_false, decide_eq_false_iff_not]
    omega
  · rename_i hb
    refine ⟨cellsWf_iff.2 ⟨smPut_wf hb hw, fun e he => ?_⟩, rangeDel_wf hr⟩
    simp only [inRanges_rangeDel hr]
    rcases mem_smPut he with rfl | he
    · simp
    · simp [hz e he]

theorem memPutList_wf {m : Mem} {a : Nat} {bs : List Byte} (h : Mem.wf m) : Mem.wf (memPutList m a bs) := by
  induction bs generalizing m a with
  | nil => exact h
  | cons b bs ih => exact ih (memPut_wf h)

theorem memZero_wf {m : Mem} {lo hi : Nat} (h : Mem.wf m) : Mem.wf (memZero m lo hi) := by
  obtain ⟨hc, hr⟩ := h
  obtain ⟨hw, hz⟩ := cellsWf_iff.1 hc
  refine ⟨cellsWf_iff.2 ⟨smErase_wf (fun k => decide (lo ≤ k ∧ k < hi)) hw, fun e he => ?_⟩, rangeAdd_wf hr⟩
  simp only [memZero, List.mem_filter] at he
  simp only [memZero, inRanges_rangeAdd hr, hz e he.1, Bool.or_false]
  have := he.2
  simp only [Bool.not_eq_true', decide_eq_false_iff_not] at this
  simpa using this

theorem reset_mem_wf : Mem.wf State.reset.fs.mem := ⟨rfl, rfl⟩

theorem smFind_smPut_self {α : Type} {k : Nat} {v : α} {m : SMap α} : smFind k (smPut k v m) = some v := by
  induction m with
  | nil => simp [smPut, smFind]
  | cons e m ih =>
    obtain ⟨j, w⟩ := e
    unfold smPut
    split
    · simp [smFind]
    · split
      · simp [smFind]
      · simp [smFind, *]

theorem smFind_smPut_ne {α : Type} {k i : Nat} {v : α} (h : i ≠ k) {m : SMap α} : smFind i (smPut k v m) = smFind i m := by
  induction m with
  | nil => simp [smPut, smFind, h]
  | cons e m ih =>
    obtain ⟨j, w⟩ := e
    unfold smPut
    split
    · simp [smFind, h]
    · split
      · rename_i hk
        subst hk
        simp [smFind, h]
      · simp only [smFind, ih]

theorem smFind_smDel_self {α : Type} {k : Nat} {m : SMap α} : smFind k (smDel k m) = none := by
  induction m with
  | nil => rfl
  | cons e m ih =>
    obtain ⟨j, w⟩ := e
    unfold smDel
    split
    · exact ih
    · rename_i h
      simp [smFind, h, ih]

theorem smFind_smDel_ne {α : Type} {k i : Nat} (hi : i ≠ k) {m : SMap α} : smFind i (smDel k m) = smFind i m := by
  induction m with
  | nil => rfl
  | cons e m ih =>
    obtain ⟨j, w⟩ := e
    unfold smDel
    split
    · rename_i h
      subst h
      simp [smFind, hi, ih]
    · simp only [smFind, ih]

/-- A byte reads as it was written. -/
theorem memGet_memPut_self {m : Mem} {a : Nat} {b : Byte} (h : Mem.wf m) : memGet (memPut m a b) a = some b := by
  obtain ⟨hc, hr⟩ := h
  have hw := (cellsWf_iff.1 hc).1
  unfold memPut
  split
  · rename_i hb
    simp [memGet, smFind_smDel_self, memDefault, inRanges_rangeAdd hr, hb]
  · simp [memGet, smFind_smPut_self]

/-- A write leaves every other byte alone. -/
theorem memGet_memPut_ne {m : Mem} {a c : Nat} {b : Byte} (hn : c ≠ a) (h : Mem.wf m) :
    memGet (memPut m a b) c = memGet m c := by
  obtain ⟨hc, hr⟩ := h
  have hw := (cellsWf_iff.1 hc).1
  unfold memPut
  split
  · have : decide (a ≤ c ∧ c < a + 1) = false := by simp; omega
    simp only [memGet, smFind_smDel_ne hn, memDefault, inRanges_rangeAdd hr, this, Bool.false_or]
  · simp only [memGet, smFind_smPut_ne hn, memDefault, inRanges_rangeDel hr, hn, ne_eq, not_false_eq_true, decide_true,
      Bool.and_true]

/-- Writing a list of bytes leaves every byte outside it alone. -/
theorem memGet_memPutList_ne {m : Mem} {a c : Nat} {bs : List Byte} (hn : c < a ∨ a + bs.length ≤ c) (h : Mem.wf m) :
    memGet (memPutList m a bs) c = memGet m c := by
  induction bs generalizing m a with
  | nil => rfl
  | cons b bs ih =>
    simp only [List.length_cons] at hn
    rw [memPutList, ih (by omega) (memPut_wf h), memGet_memPut_ne (by omega) h]

/-- A listed byte reads as it was written. -/
theorem memGet_memPutList_at {m : Mem} {a i : Nat} {bs : List Byte} (hi : i < bs.length) (h : Mem.wf m) :
    memGet (memPutList m a bs) (a + i) = bs[i]? := by
  induction bs generalizing m a i with
  | nil => simp at hi
  | cons b bs ih =>
    cases i with
    | zero => simp [memPutList, memGet_memPutList_ne (c := a) (.inl (Nat.lt_succ_self a)) (memPut_wf h), memGet_memPut_self h]
    | succ i =>
      have := ih (m := memPut m a b) (a := a + 1) (i := i) (by simpa using hi) (memPut_wf h)
      rw [memPutList, show a + (i + 1) = a + 1 + i by omega, this]
      simp

end Sys2Proof.Machine
end

