-- ==== Sys2Proof/Laws/Keeps.lean ====
section
/-! SUPPORT. How the canonical form of a state goes through the shapes that meanings are written in. -/

namespace Sys2Proof

open Sys2Proof.Machine

theorem Canonical.ite {c : Prop} {_ : Decidable c} {a b : State} (ha : Canonical a) (hb : Canonical b) :
    Canonical (if c then a else b) := by
  split <;> assumption

theorem Canonical.ite2 {α : Type} {c : Prop} {_ : Decidable c} {a b : α × State} (ha : Canonical a.2) (hb : Canonical b.2) :
    Canonical (if c then a else b).2 := by
  split <;> assumption

theorem Canonical.ite1 {α : Type} {c : Prop} {_ : Decidable c} {a b : State × α} (ha : Canonical a.1) (hb : Canonical b.1) :
    Canonical (if c then a else b).1 := by
  split <;> assumption

theorem Canonical.dite {c : Prop} {_ : Decidable c} {a : c → State} {b : ¬c → State} (ha : ∀ h, Canonical (a h))
    (hb : ∀ h, Canonical (b h)) : Canonical (if h : c then a h else b h) := by
  split
  · exact ha _
  · exact hb _

theorem Canonical.foldl {α : Type} {f : State → α → State} (hf : ∀ x e, Canonical x → Canonical (f x e)) (l : List α) {s : State}
    (h : Canonical s) : Canonical (l.foldl f s) := by
  induction l generalizing s with
  | nil => exact h
  | cons a l ih => exact ih (hf _ _ h)

theorem Canonical.foldl2 {α β : Type} {f : β × State → α → β × State} (hf : ∀ x e, Canonical x.2 → Canonical (f x e).2)
    (l : List α) {s : β × State} (h : Canonical s.2) : Canonical (l.foldl f s).2 := by
  induction l generalizing s with
  | nil => exact h
  | cons a l ih => exact ih (hf _ _ h)

theorem Canonical.pair {α : Type} {p : α × State} {b : α → State → State} (hp : Canonical p.2)
    (hb : ∀ x t, Canonical t → Canonical (b x t)) : Canonical (match p with | (x, t) => b x t) := hb _ _ hp

theorem Canonical.pair2 {α β : Type} {p : α × State} {b : α → State → β × State} (hp : Canonical p.2)
    (hb : ∀ x t, Canonical t → Canonical (b x t).2) : Canonical (match p with | (x, t) => b x t).2 := hb _ _ hp

theorem Canonical.of_snd {α : Type} {p : α × State} {x : α} {t : State} (e : p = (x, t)) (h : Canonical p.2) : Canonical t := by
  rw [e] at h
  exact h

/-- A state with the registers and the frame store of a canonical one. -/
theorem Canonical.upd {s : State} (h : Canonical s) {f0 : List Instr} {f1 : List Output} {f2 : Nat} {f3 : Nat} {f5 : SMap
    Word} {f6 : Comp} {f7 : Icu} {f8 : Power} {f9 : BaseCamp} {f10 : SMap Byte} {f11 : Cmd} {f12 : Option Image} {f13 :
    Clock} {f15 : Pools} {f16 : SMap Chan} {f17 : Nat} {f18 : Tap} {f19 : SMap Block} {f20 : SMap RegionSt} {f21 : SMap Inj}
    {f22 : SMap Nat} {f23 : SMap Pipe} {f24 : Lanes} {f25 : RingSt} {f26 : SMap Port} {f27 : SMap Target32} {f28 : Cxl} {f29
    : List (DecJob × StreamPic)} {f30 : List (DecJob × UnitIn)} :
    Canonical
      ⟨f0, f1, f2, f3, s.regs, f5, f6, f7, f8, f9, f10, f11, f12, f13, s.fs, f15, f16, f17, f18, f19, f20, f21, f22, f23,
       f24, f25, f26, f27, f28, f29, f30⟩ :=
  ⟨h.1, h.2⟩

/-- A state with the registers of a canonical one and a frame store with its bytes. -/
theorem Canonical.updFs {s : State} (h : Canonical s) {fs : FrameStore} (e : fs.mem = s.fs.mem) {f0 : List Instr} {f1 : List
    Output} {f2 : Nat} {f3 : Nat} {f5 : SMap Word} {f6 : Comp} {f7 : Icu} {f8 : Power} {f9 : BaseCamp} {f10 : SMap Byte}
    {f11 : Cmd} {f12 : Option Image} {f13 : Clock} {f15 : Pools} {f16 : SMap Chan} {f17 : Nat} {f18 : Tap} {f19 : SMap
    Block} {f20 : SMap RegionSt} {f21 : SMap Inj} {f22 : SMap Nat} {f23 : SMap Pipe} {f24 : Lanes} {f25 : RingSt} {f26 :
    SMap Port} {f27 : SMap Target32} {f28 : Cxl} {f29 : List (DecJob × StreamPic)} {f30 : List (DecJob × UnitIn)} :
    Canonical
      ⟨f0, f1, f2, f3, s.regs, f5, f6, f7, f8, f9, f10, f11, f12, f13, fs, f15, f16, f17, f18, f19, f20, f21, f22, f23, f24,
       f25, f26, f27, f28, f29, f30⟩ :=
  ⟨h.1, by show Mem.wf fs.mem; rw [e]; exact h.2⟩

theorem reset_canonical : Canonical State.reset := ⟨rfl, rfl, rfl⟩

end Sys2Proof
end

