-- ==== Sys2Proof/Laws/KeepsBase.lean ====
section
/-! SUPPORT. Every operation keeps the canonical form of a state: the registers, the interrupt controller, the memory controllers and the buffer pools. -/

namespace Sys2Proof.Machine

open Sys2Proof

/-! ### Ops -/

theorem wr_canonical {off : Nat} {w : Word} {s : State} (hc : Canonical s) : Canonical (wr off w s) := ⟨smSet_wf hc.1, hc.2⟩

theorem fput_canonical {off : Nat} {f : Fld} {v : Nat} {s : State} (hc : Canonical s) :
    Canonical (fput off f v s) := by
  unfold fput
  exact
    wr_canonical hc

theorem fset_canonical {off : Nat} {f : Fld} {s : State} (hc : Canonical s) :
    Canonical (fset off f s) := by
  unfold fset
  exact
    fput_canonical hc

theorem fclr_canonical {off : Nat} {f : Fld} {s : State} (hc : Canonical s) :
    Canonical (fclr off f s) := by
  unfold fclr
  exact
    fput_canonical hc

theorem bumpBy_canonical {n : Nat} {off : Nat} {f : Fld} {s : State} (hc : Canonical s) :
    Canonical (bumpBy n off f s) := by
  unfold bumpBy
  exact
    fput_canonical hc

theorem bump_canonical {off : Nat} {f : Fld} {s : State} (hc : Canonical s) :
    Canonical (bump off f s) := by
  unfold bump
  exact
    bumpBy_canonical hc

theorem bumpWrapBy_canonical {n : Nat} {off : Nat} {f : Fld} {s : State} (hc : Canonical s) :
    Canonical (bumpWrapBy n off f s) := by
  unfold bumpWrapBy
  exact
    fput_canonical hc

theorem bumpWrap_canonical {off : Nat} {f : Fld} {s : State} (hc : Canonical s) :
    Canonical (bumpWrap off f s) := by
  unfold bumpWrap
  exact
    bumpWrapBy_canonical hc

theorem wr64_canonical {lo : Nat} {hi : Nat} {v : Nat} {s : State} (hc : Canonical s) :
    Canonical (wr64 lo hi v s) := by
  unfold wr64
  exact
    wr_canonical (wr_canonical hc)

theorem bumpPair_canonical {n : Nat} {lo : Nat} {hi : Nat} {s : State} (hc : Canonical s) :
    Canonical (bumpPair n lo hi s) := by
  unfold bumpPair
  exact
    wr64_canonical hc

theorem emit_canonical {o : Output} {s : State} (hc : Canonical s) :
    Canonical (emit o s) := by
  unfold emit
  exact
    .upd hc

theorem stepFree_canonical {s : State} (hc : Canonical s) :
    Canonical (stepFree s) := by
  unfold stepFree
  exact
    .upd hc

theorem raise_canonical {src : Nat} {s : State} (hc : Canonical s) :
    Canonical (raise src s) := by
  unfold raise
  exact
    .ite (fset_canonical hc) (fput_canonical hc)

theorem raiseWhen_canonical {b : Bool} {src : Nat} {s : State} (hc : Canonical s) :
    Canonical (raiseWhen b src s) := by
  unfold raiseWhen
  exact
    .ite (raise_canonical hc) hc

theorem accessErr_canonical {d : Nat} {kind : Nat} {off : Nat} {s : State} (hc : Canonical s) :
    Canonical (accessErr d kind off s) := by
  unfold accessErr
  exact
    bump_canonical (fput_canonical (fset_canonical (fput_canonical hc)))

theorem fieldOverrun_canonical {d : Nat} {off : Nat} {s : State} (hc : Canonical s) :
    Canonical (fieldOverrun d off s) := by
  unfold fieldOverrun
  exact
    bump_canonical (fput_canonical (fset_canonical hc))

theorem gloveDeny_canonical {d : Nat} {off : Nat} {s : State} (hc : Canonical s) :
    Canonical (gloveDeny d off s) := by
  unfold gloveDeny
  exact
    bumpWrap_canonical (fput_canonical (fput_canonical hc))

/-! ### Icu -/

theorem setVec_canonical {d : Nat} {v : Nat} {x : Vec} {s : State} (hc : Canonical s) :
    Canonical (setVec d v x s) := by
  unfold setVec
  exact
    .upd hc

theorem setFn_canonical {d : Nat} {x : Fn} {s : State} (hc : Canonical s) :
    Canonical (setFn d x s) := by
  unfold setFn
  exact
    .upd hc

theorem setDelivered_canonical {src : Nat} {x : Delivered} {s : State} (hc : Canonical s) :
    Canonical (setDelivered src x s) := by
  unfold setDelivered
  exact
    .upd hc

theorem deliverOne_canonical {t : Target} {src : Nat} {s : State} (hc : Canonical s) :
    Canonical (deliverOne t src s) := by
  unfold deliverOne
  exact
    have h1 : Canonical _ := setDelivered_canonical hc
    have h2 : Canonical _ := fput_canonical (fset_canonical h1)
    .ite (bump_canonical h2) h2

theorem deliverAll_canonical {t : Target} {l : List Nat} {s : State} (hc : Canonical s) :
    Canonical (deliverAll t l s) := by
  unfold deliverAll
  exact
    .foldl (fun _ _ h1 => (deliverOne_canonical h1)) _ hc

theorem powerUp_canonical {r : Nat} {s : State} (hc : Canonical s) :
    Canonical (powerUp r s) := by
  unfold powerUp
  exact
    fput_canonical (.upd hc)

theorem wakeRegion_canonical {r : Nat} {s : State} (hc : Canonical s) :
    Canonical (wakeRegion r s) := by
  unfold wakeRegion
  exact
    have h1 : Canonical _ := bump_canonical (powerUp_canonical hc)
    .upd h1

theorem sendMsix_canonical {d : Nat} {v : Nat} {s : State} (hc : Canonical s) :
    Canonical (sendMsix d v s) := by
  unfold sendMsix
  exact
    have h1 : Canonical _ := emit_canonical (setVec_canonical hc)
    fclr_canonical h1

theorem deliver_canonical {t : Target} {s : State} (hc : Canonical s) :
    Canonical (deliver t s) := by
  unfold deliver
  exact
    .ite hc (by
      split
      · exact sendMsix_canonical (deliverAll_canonical hc)
      · exact have h1 : Canonical _ := deliverAll_canonical hc
        .ite (wakeRegion_canonical h1) h1
      · exact deliverAll_canonical hc)

theorem holdMasked_canonical {d : Nat} {v : Nat} {s : State} (hc : Canonical s) :
    Canonical (holdMasked d v s) := by
  unfold holdMasked
  exact
    .ite (setVec_canonical hc) hc

theorem signalPme_canonical {d : Nat} {s : State} (hc : Canonical s) :
    Canonical (signalPme d s) := by
  unfold signalPme
  exact
    .ite (emit_canonical (setFn_canonical hc)) hc

theorem deliveryDecision_canonical {t : Target} {s : State} (hc : Canonical s) :
    Canonical (deliveryDecision t s) := by
  unfold deliveryDecision
  exact
    by
      split
      · exact have h1 : Canonical _ := holdMasked_canonical (signalPme_canonical hc)
        .ite (.ite h1 (fset_canonical h1)) (deliver_canonical h1)
      · exact deliver_canonical hc

theorem holdoffExpiry_canonical {d : Nat} {v : Nat} {s : State} (hc : Canonical s) :
    Canonical (holdoffExpiry d v s) := by
  unfold holdoffExpiry
  exact
    .ite hc (
      have h1 : Canonical _ := fclr_canonical hc
      .dite (fun _ => (deliver_canonical h1)) (fun _ => h1))

theorem ackSource_canonical {src : Nat} {n : Nat} {s : State} (hc : Canonical s) :
    Canonical (ackSource src n s) := by
  unfold ackSource
  exact
    fclr_canonical (fput_canonical hc)

theorem ackWrite_canonical {page : Nat} {v : Word} {s : State} (hc : Canonical s) :
    Canonical (ackWrite page v s) := by
  unfold ackWrite
  exact
    .ite (ackSource_canonical hc) (accessErr_canonical hc)

theorem ackFirmware_canonical {src : Nat} {s : State} (hc : Canonical s) :
    Canonical (ackFirmware src s) := by
  unfold ackFirmware
  exact
    .ite (ackSource_canonical hc) hc

theorem routeWrite_canonical {d : Nat} {src : Nat} {v : Word} {s : State} (hc : Canonical s) :
    Canonical (routeWrite d src v s) := by
  unfold routeWrite
  exact
    .ite (accessErr_canonical hc) (wr_canonical hc)

theorem vecHoldWrite_canonical {i : Nat} {v : Word} {s : State} (hc : Canonical s) :
    Canonical (vecHoldWrite i v s) := by
  unfold vecHoldWrite
  exact
    fput_canonical hc

theorem awake_canonical {w : Awake} {s : State} (hc : Canonical s) :
    Canonical (awake w s) := by
  unfold awake
  exact
    by
      split
      · exact setFn_canonical hc
      · exact .ite hc (setVec_canonical hc)

theorem flrIcu_canonical {d : Nat} {s : State} (hc : Canonical s) :
    Canonical (flrIcu d s) := by
  unfold flrIcu
  exact
    have h1 : Canonical _ := .ite (vecHoldWrite_canonical hc) hc
    .foldl (fun _ _ h2 => (vecHoldWrite_canonical (fset_canonical (fclr_canonical h2)))) _ h1

theorem glitchSample_canonical {n : Nat} {level : Bool} {samples : Nat} {s : State} (hc : Canonical s) :
    Canonical (glitchSample n level samples s).1 := by
  unfold glitchSample
  exact have h1 : Canonical _ := .upd hc
    .ite1 (fput_canonical h1) h1

/-! ### Memory -/

theorem setMem_canonical {m : Mem} {s : State} (hm : Mem.wf m) (hc : Canonical s) : Canonical (setMem m s) := ⟨hc.1, hm⟩

theorem countCorrected_canonical {w : Nat} {syms : Nat} {s : State} (hc : Canonical s) :
    Canonical (countCorrected w syms s) := by
  unfold countCorrected
  exact
    have h1 : Canonical _ := bump_canonical hc
    have h2 : Canonical _ := wr_canonical h1
    have h3 : Canonical _ := fput_canonical (fput_canonical h2)
    have h4 : Canonical _ := bump_canonical h3
    .ite (raise_canonical (fset_canonical h4)) h4

theorem countUncorrectable_canonical {w : Nat} {cls : Nat} {s : State} (hc : Canonical s) :
    Canonical (countUncorrectable w cls s) := by
  unfold countUncorrectable
  exact
    have h1 : Canonical _ := bump_canonical hc
    .ite h1 (
      have h2 : Canonical _ := wr_canonical h1
      have h3 : Canonical _ := fput_canonical (fput_canonical h2)
      raise_canonical (fset_canonical h3))

theorem countRead_canonical {f : ReadFor} {w : Nat} {s : State} (hc : Canonical s) :
    Canonical (countRead f w s) := by
  unfold countRead
  exact
    by
      split
      · exact hc
      · exact countCorrected_canonical hc
      · exact by
          split
          · exact countUncorrectable_canonical hc
          · exact countUncorrectable_canonical hc
          · exact bump_canonical hc

theorem storeWord_canonical {w : Nat} {bytes : List Byte} {poisoned : Bool} {s : State} (hc : Canonical s) :
    Canonical (storeWord w bytes poisoned s) := ⟨hc.1, memPutList_wf hc.2⟩

theorem readWord_canonical {cls : Nat} {w : Nat} {s : State} (hc : Canonical s) :
    Canonical (readWord cls w s).2 := by
  unfold readWord
  exact
    countRead_canonical hc

theorem writePart_canonical {w : Nat} {i : Nat} {bytes : List Byte} {poisoned : Bool} {s : State} (hc : Canonical s) :
    Canonical (writePart w i bytes poisoned s) := by
  unfold writePart
  exact
    storeWord_canonical (countRead_canonical hc)

theorem setHdm_canonical {k : Nat} {x : Hdm} {s : State} (hc : Canonical s) :
    Canonical (setHdm k x s) := by
  unfold setHdm
  exact
    .upd hc

theorem resolveWord_canonical {w : Nat} {s : State} (hc : Canonical s) :
    Canonical (resolveWord w s) := by
  unfold resolveWord
  exact
    by
      split
      · exact hc
      · exact have h1 : Canonical _ := stepFree_canonical (emit_canonical hc)
        .ite (storeWord_canonical h1) h1

theorem resolve_canonical {a : Nat} {n : Nat} {s : State} (hc : Canonical s) :
    Canonical (resolve a n s) := by
  unfold resolve
  exact
    .ite (.foldl (fun _ _ h1 => (resolveWord_canonical h1)) _ hc) hc

theorem writeBytesFuel_canonical {fuel a : Nat} {bytes : List Byte} {poisoned : Bool} {s : State} (hc : Canonical s) :
    Canonical (writeBytesFuel fuel a bytes poisoned s) := by
  induction fuel generalizing a bytes s with
  | zero => exact hc
  | succ fuel ih =>
    unfold writeBytesFuel
    exact .ite hc (ih (.ite (storeWord_canonical hc) (writePart_canonical hc)))

theorem putBytes_canonical {a : Nat} {bytes : List Byte} {poisoned : Bool} {s : State} (hc : Canonical s) :
    Canonical (putBytes a bytes poisoned s) := by
  unfold putBytes
  exact
    writeBytesFuel_canonical hc

theorem writeBytes_canonical {a : Nat} {bytes : List Byte} {poisoned : Bool} {s : State} (hc : Canonical s) :
    Canonical (writeBytes a bytes poisoned s) := by
  unfold writeBytes
  exact
    putBytes_canonical (resolve_canonical hc)

theorem readBytesFuel_canonical {fuel cls a n : Nat} {s : State} (hc : Canonical s) :
    Canonical (readBytesFuel fuel cls a n s).2 := by
  induction fuel generalizing a n s with
  | zero => exact hc
  | succ fuel ih =>
    unfold readBytesFuel
    exact .ite2 hc (ih (readWord_canonical hc))

theorem readBytes_canonical {cls : Nat} {a : Nat} {n : Nat} {s : State} (hc : Canonical s) :
    Canonical (readBytes cls a n s).2 := by
  unfold readBytes
  exact
    readBytesFuel_canonical (resolve_canonical hc)

theorem readTaggedFuel_canonical {fuel cls a n : Nat} {s : State} (hc : Canonical s) :
    Canonical (readTaggedFuel fuel cls a n s).2 := by
  induction fuel generalizing a n s with
  | zero => exact hc
  | succ fuel ih =>
    unfold readTaggedFuel
    exact .ite2 hc (ih (readWord_canonical hc))

theorem readTagged_canonical {cls : Nat} {a : Nat} {n : Nat} {s : State} (hc : Canonical s) :
    Canonical (readTagged cls a n s).2 := by
  unfold readTagged
  exact
    readTaggedFuel_canonical (resolve_canonical hc)

theorem writeTaggedFuel_canonical {fuel a : Nat} {bytes : List (Byte × Bool)} {s : State} (hc : Canonical s) :
    Canonical (writeTaggedFuel fuel a bytes s) := by
  induction fuel generalizing a bytes s with
  | zero => exact hc
  | succ fuel ih =>
    unfold writeTaggedFuel
    exact .ite hc (ih (.ite (storeWord_canonical hc) (writePart_canonical hc)))

theorem writeTagged_canonical {a : Nat} {bytes : List (Byte × Bool)} {s : State} (hc : Canonical s) :
    Canonical (writeTagged a bytes s) := by
  unfold writeTagged
  exact
    writeTaggedFuel_canonical (resolve_canonical hc)

theorem setPseudo_canonical {c : Nat} {ch : Nat} {p : Nat} {x : Pseudo} {s : State} (hc : Canonical s) :
    Canonical (setPseudo c ch p x s) := by
  unfold setPseudo
  exact
    .updFs hc rfl

theorem setMemChannel_canonical {c : Nat} {ch : Nat} {x : MemChannel} {s : State} (hc : Canonical s) :
    Canonical (setMemChannel c ch x s) := by
  unfold setMemChannel
  exact
    .updFs hc rfl

theorem setMemCtl_canonical {c : Nat} {x : MemCtl} {s : State} (hc : Canonical s) :
    Canonical (setMemCtl c x s) := by
  unfold setMemCtl
  exact
    .updFs hc rfl

theorem enqueueReq_canonical {r : MemReq} {s : State} (hc : Canonical s) :
    Canonical (enqueueReq r s) := by
  unfold enqueueReq
  exact
    .ite (setPseudo_canonical hc) (setMemChannel_canonical hc)

theorem setMesh_canonical {c : Nat} {x : MeshOut} {s : State} (hc : Canonical s) :
    Canonical (setMesh c x s) := by
  unfold setMesh
  exact
    .updFs hc rfl

theorem hearStack_canonical {c : Nat} {s : State} (hc : Canonical s) :
    Canonical (hearStack c s) := by
  unfold hearStack
  exact
    setMemCtl_canonical hc

theorem portTake_canonical {c : Nat} {r : MemReq} {s0 : State} (hc : Canonical s0) :
    Canonical (portTake c r s0) := by
  unfold portTake
  exact
    have h1 : Canonical _ := hearStack_canonical hc
    .ite (setMemCtl_canonical h1) (enqueueReq_canonical h1)

theorem meshAdvance_canonical {c n : Nat} {s : State} (hc : Canonical s) : Canonical (meshAdvance c n s) := by
  induction n generalizing s with
  | zero => exact hc
  | succ n ih =>
    unfold meshAdvance
    dsimp only
    split
    · exact ih (setMesh_canonical hc)
    · split
      · exact .ite (ih (portTake_canonical (setMesh_canonical hc))) hc
      · exact hc

theorem meshRun_canonical {c : Nat} {s : State} (hc : Canonical s) :
    Canonical (meshRun c s) := by
  unfold meshRun
  exact
    meshAdvance_canonical hc

theorem meshSend_canonical {f : Flit} {s : State} (hc : Canonical s) :
    Canonical (meshSend f s) := by
  unfold meshSend
  exact
    meshRun_canonical (setMesh_canonical hc)

theorem corrupt_canonical {w : Nat} {n : Nat} {s : State} (hc : Canonical s) :
    Canonical (corrupt w n s) := by
  unfold corrupt
  exact
    .updFs hc rfl

theorem serveReq_canonical {r : MemReq} {s0 : State} (hc : Canonical s0) :
    Canonical (serveReq r s0) := by
  unfold serveReq
  exact
    have h1 : Canonical _ := .ite hc (resolve_canonical hc)
    .ite (.ite (storeWord_canonical h1) (writePart_canonical h1)) (
      have h2 : Canonical (_ : _ × State).2 := readWord_canonical h1
      emit_canonical h2)

theorem drainInput_canonical {c : Nat} {ch : Nat} {s : State} (hc : Canonical s) :
    Canonical (drainInput c ch s) := by
  unfold drainInput
  exact
    by
      extract_lets
      split
      · exact hc
      · exact setPseudo_canonical (setMemChannel_canonical hc)

theorem columnCommand_canonical {c : Nat} {ch : Nat} {p : Nat} {ready : List Nat} {s : State} (hc : Canonical s) :
    Canonical (columnCommand c ch p ready s) := by
  unfold columnCommand
  exact
    by
      extract_lets
      split
      · exact hc
      · exact serveReq_canonical (setPseudo_canonical hc)

theorem activateCommand_canonical {c : Nat} {ch : Nat} {p : Nat} {ready : List Nat} {s : State} (hc : Canonical s) :
    Canonical (activateCommand c ch p ready s) := by
  unfold activateCommand
  exact
    by
      extract_lets
      split
      · exact hc
      · exact .ite (setPseudo_canonical hc) (setPseudo_canonical hc)

theorem upsetWords_canonical {c : Nat} {ch : Nat} {p : Nat} {l : List (Nat × Nat)} {s : State} (hc : Canonical s) :
    Canonical (upsetWords c ch p l s) := by
  unfold upsetWords
  exact
    .foldl (fun _ _ h1 => (.ite (corrupt_canonical h1) h1)) _ hc

theorem pseudoIssue_canonical {c : Nat} {ch : Nat} {p : Nat} {colReady : List Nat} {actReady : List Nat} {s : State} (hc : Canonical s) :
    Canonical (pseudoIssue c ch p colReady actReady s) := by
  unfold pseudoIssue
  exact
    .ite hc (meshRun_canonical (drainInput_canonical (activateCommand_canonical (columnCommand_canonical hc))))

theorem pageClose_canonical {c : Nat} {ch : Nat} {p : Nat} {b : Nat} {s : State} (hc : Canonical s) :
    Canonical (pageClose c ch p b s) := by
  unfold pageClose
  exact
    .ite (setPseudo_canonical hc) hc

theorem bankRefresh_canonical {c : Nat} {ch : Nat} {p : Nat} {postpone : Bool} {s : State} (hc : Canonical s) :
    Canonical (bankRefresh c ch p postpone s) := by
  unfold bankRefresh
  exact
    .ite (setPseudo_canonical hc) (setPseudo_canonical hc)

theorem startTraining_canonical {c : Nat} {ch : Nat} {auto : Bool} {s : State} (hc : Canonical s) :
    Canonical (startTraining c ch auto s) := by
  unfold startTraining
  exact
    .ite (setMemCtl_canonical hc) (setMemCtl_canonical hc)

theorem hbmRetrain_canonical {c : Nat} {ch : Nat} {s : State} (hc : Canonical s) :
    Canonical (hbmRetrain c ch s) := by
  unfold hbmRetrain
  exact
    .ite hc (startTraining_canonical (bumpWrap_canonical hc))

theorem autoRetrain_canonical {c : Nat} {ch : Nat} {s0 : State} (hc : Canonical s0) :
    Canonical (autoRetrain c ch s0) := by
  unfold autoRetrain
  exact
    .ite hc (
      have h1 : Canonical _ := setMemChannel_canonical hc
      startTraining_canonical (raise_canonical (fset_canonical (bump_canonical h1))))

theorem retrainEnd_canonical {c : Nat} {s : State} (hc : Canonical s) :
    Canonical (retrainEnd c s) := by
  unfold retrainEnd
  exact
    by
      extract_lets
      split <;> exact setMemCtl_canonical hc

theorem channelTrained_canonical {c : Nat} {ch : Nat} {s : State} (hc : Canonical s) :
    Canonical (channelTrained c ch s) := by
  unfold channelTrained
  exact
    setMemChannel_canonical hc

theorem stackTrained_canonical {c : Nat} {s : State} (hc : Canonical s) :
    Canonical (stackTrained c s) := by
  unfold stackTrained
  exact
    .foldl (fun _ _ h1 => (channelTrained_canonical h1)) _ hc

theorem retrainFailed_canonical {c : Nat} {s : State} (hc : Canonical s) :
    Canonical (retrainFailed c s) := by
  unfold retrainFailed
  exact
    raise_canonical (fset_canonical hc)

theorem closeStack_canonical {c : Nat} {s : State} (hc : Canonical s) :
    Canonical (closeStack c s) := by
  unfold closeStack
  exact
    .foldl (fun _ _ h1 => (setPseudo_canonical h1)) _ hc

theorem selfRefreshEntry_canonical {c : Nat} {cancelled : Bool} {s : State} (hc : Canonical s) :
    Canonical (selfRefreshEntry c cancelled s) := by
  unfold selfRefreshEntry
  exact
    .ite (.ite (hearStack_canonical (bump_canonical hc)) (fput_canonical (bump_canonical (closeStack_canonical hc)))) hc

theorem selfRefreshExit_canonical {c : Nat} {s : State} (hc : Canonical s) :
    Canonical (selfRefreshExit c s) := by
  unfold selfRefreshExit
  exact
    .ite (
      have h1 : Canonical _ := stackTrained_canonical (setMemCtl_canonical (fput_canonical hc))
      meshRun_canonical (.foldl (fun _ _ h2 => (enqueueReq_canonical h2)) _ h1)) hc

theorem leaveSelfRefresh_canonical {s : State} (hc : Canonical s) :
    Canonical (leaveSelfRefresh s) := by
  unfold leaveSelfRefresh
  exact
    .foldl (fun _ _ h1 => (selfRefreshExit_canonical h1)) _ hc

theorem bucketLeak_canonical {c : Nat} {s : State} (hc : Canonical s) :
    Canonical (bucketLeak c s) := by
  unfold bucketLeak
  exact
    .ite (fput_canonical (setMemCtl_canonical hc)) hc

theorem eccCtlWrite_canonical {c : Nat} {v : Word} {s : State} (hc : Canonical s) :
    Canonical (eccCtlWrite c v s) := by
  unfold eccCtlWrite
  exact
    fput_canonical (wr_canonical hc)

theorem scrubWord_canonical {w : Nat} {s : State} (hc : Canonical s) :
    Canonical (scrubWord w s) := by
  unfold scrubWord
  exact
    have h1 : Canonical _ := countRead_canonical hc
    by
      extract_lets
      split
      · exact storeWord_canonical h1
      · exact h1

theorem scrubPage_canonical {c : Nat} {s : State} (hc : Canonical s) :
    Canonical (scrubPage c s) := by
  unfold scrubPage
  exact
    by
      split
      · exact hc
      · exact have h2 : Canonical _ := .foldl (fun _ _ h1 => (scrubWord_canonical h1)) _ (setMemCtl_canonical hc)
        .ite (wr_canonical h2) (raise_canonical (fset_canonical (wr_canonical h2)))

theorem budgetWrite_canonical {p : Nat} {v : Word} {s : State} (hc : Canonical s) :
    Canonical (budgetWrite p v s) := by
  unfold budgetWrite
  exact
    have h1 : Canonical _ := .ite (fclr_canonical hc) hc
    .ite (fset_canonical h1) (fput_canonical h1)

theorem setAgentLeft_canonical {r : Nat} {p : Option Nat} {v : Nat} {s : State} (hc : Canonical s) :
    Canonical (setAgentLeft r p v s) := by
  unfold setAgentLeft
  exact
    .updFs hc rfl

theorem setAgentQueue_canonical {r : Nat} {l : List AgentReq} {s : State} (hc : Canonical s) :
    Canonical (setAgentQueue r l s) := by
  unfold setAgentQueue
  exact
    .updFs hc rfl

theorem agentGrant_canonical {r : Nat} {x : AgentReq} {s : State} (hc : Canonical s) :
    Canonical (agentGrant r x s) := by
  unfold agentGrant
  exact
    meshSend_canonical (bumpWrapBy_canonical (setAgentLeft_canonical (setAgentQueue_canonical hc)))

theorem agentServe_canonical {r : Nat} {p : Option Nat} {n : Nat} {s : State} (hc : Canonical s) : Canonical (agentServe r p n s) := by
  induction n generalizing s with
  | zero => exact hc
  | succ n ih =>
    unfold agentServe
    split
    · exact ih (agentGrant_canonical hc)
    · exact hc

theorem countThrottle_canonical {r : Nat} {p : Nat} {s : State} (hc : Canonical s) :
    Canonical (countThrottle r p s) := by
  unfold countThrottle
  exact
    .ite hc (
      have h1 : Canonical _ := bumpWrap_canonical hc
      .updFs h1 rfl)

theorem memoryRequest_canonical {via : Option (Nat × Option Nat)} {f : Flit} {s : State} (hc : Canonical s) :
    Canonical (memoryRequest via f s) := by
  unfold memoryRequest
  split
  · exact meshSend_canonical hc
  · next r p =>
    have h : Canonical (agentServe r p ((agentQueue r s).length + 1) (setAgentQueue r (agentQueue r s ++ [⟨p, f⟩]) s)) :=
      agentServe_canonical (setAgentQueue_canonical hc)
    dsimp only
    split
    · exact .ite (countThrottle_canonical h) h
    · exact h

theorem closeShare_canonical {r : Nat} {x0 x : Share} {s : State} (hc : Canonical s) : Canonical (closeShare r x0 x s) := by
  unfold closeShare
  extract_lets s1 k belay b s2 rest o s3
  have h1 : Canonical s1 := .ite (countThrottle_canonical hc) hc
  have h2 : Canonical s2 := agentServe_canonical (setAgentLeft_canonical h1)
  have h3 : Canonical s3 := bumpWrapBy_canonical (setAgentLeft_canonical h2)
  clear_value s3
  exact ⟨h3.1, h3.2⟩

theorem addDemand_canonical {r : Nat} {d : PipeId × Nat × Nat} {s : State} (hc : Canonical s) :
    Canonical (addDemand r d s) := by
  unfold addDemand
  exact
    .updFs hc rfl

theorem ownBulk_canonical {r : Nat} {s : State} (hc : Canonical s) : Canonical (ownBulk r s) := by
  unfold ownBulk
  extract_lets k n s1
  have h1 : Canonical s1 := bumpWrapBy_canonical (setAgentLeft_canonical hc)
  clear_value s1
  exact ⟨h1.1, h1.2⟩

theorem arbitrationWindow_canonical {r : Nat} {demands : List (PipeId × Nat × Nat)} {s : State} (hc : Canonical s) :
    Canonical (arbitrationWindow r demands s) := by
  unfold arbitrationWindow
  extract_lets es s1 s2 shares done s3
  have h1 : Canonical s1 := by
    refine .foldl (fun a e h => ?_) _ hc
    exact ⟨h.1, h.2⟩
  have h2 : Canonical s2 := .foldl (fun _ _ h => .ite (addDemand_canonical h) h) _ h1
  have h3 : Canonical s3 := .foldl (fun _ _ h => closeShare_canonical h) _ h2
  exact ownBulk_canonical (agentServe_canonical (setAgentLeft_canonical h3))

/-! ### HostMem -/

theorem countOob_canonical {s : State} (hc : Canonical s) :
    Canonical (countOob s) := by
  unfold countOob
  exact
    bumpBy_canonical hc

theorem serveRead_canonical {k : Nat} {o : Nat} {s : State} (hc : Canonical s) :
    Canonical (serveRead k o s) := by
  unfold serveRead
  exact
    by
      split
      · exact emit_canonical (countOob_canonical hc)
      · exact have h1 : Canonical (_ : _ × State).2 := readWord_canonical hc
        have h2 : Canonical _ := .ite (bumpBy_canonical h1) h1
        emit_canonical h2

theorem serveWrite_canonical {k : Nat} {o : Nat} {bytes : List Byte} {poisoned : Bool} {s : State} (hc : Canonical s) :
    Canonical (serveWrite k o bytes poisoned s) := by
  unfold serveWrite
  exact
    by
      split
      · exact countOob_canonical hc
      · exact .ite hc (putBytes_canonical hc)

theorem serveHost_canonical {h : HostMem} {s : State} (hc : Canonical s) :
    Canonical (serveHost h s) := by
  unfold serveHost
  exact
    by
      split
      · exact serveRead_canonical hc
      · exact serveWrite_canonical hc

theorem hearLine_canonical {k : Nat} {o : Nat} {s : State} (hc : Canonical s) :
    Canonical (hearLine k o s) := by
  unfold hearLine
  exact
    by
      split
      · exact hearStack_canonical hc
      · exact hc

theorem hostHeard_canonical {h : HostMem} {s : State} (hc : Canonical s) :
    Canonical (hostHeard h s) := by
  unfold hostHeard
  exact
    by
      split <;> exact hearLine_canonical hc

theorem hostGoes_canonical {h : HostMem} {s : State} (hc : Canonical s) :
    Canonical (hostGoes h s) := by
  unfold hostGoes
  exact
    .ite (.updFs hc rfl) (serveHost_canonical hc)

theorem hostAccess_canonical {h : HostMem} {s : State} (hc : Canonical s) :
    Canonical (hostAccess h s) := by
  unfold hostAccess
  exact
    hostGoes_canonical (hostHeard_canonical hc)

theorem hostRun_canonical {s : State} (hc : Canonical s) :
    Canonical (hostRun s) := by
  unfold hostRun
  exact
    .foldl (fun _ _ h1 => (hostGoes_canonical h1)) _ (.updFs hc rfl)

theorem cxlMemRead_canonical {k : Nat} {o : Nat} {s : State} (hc : Canonical s) :
    Canonical (cxlMemRead k o s) := by
  unfold cxlMemRead
  exact
    .ite hc (hostAccess_canonical hc)

theorem cxlMemWrite_canonical {k : Nat} {o : Nat} {bytes : List Byte} {poisoned : Bool} {s : State} (hc : Canonical s) :
    Canonical (cxlMemWrite k o bytes poisoned s) := by
  unfold cxlMemWrite
  exact
    .ite hc (hostAccess_canonical hc)

/-! ### Pool -/

theorem setArb_canonical {p : Nat} {a : PoolArb} {s : State} (hc : Canonical s) :
    Canonical (setArb p a s) := by
  unfold setArb
  exact
    .upd hc

theorem poolWon_canonical {p : Nat} {line : Nat} {s : State} (hc : Canonical s) :
    Canonical (poolWon p line s) := by
  unfold poolWon
  exact
    setArb_canonical hc

theorem setGrow_canonical {p : Nat} {g : PoolGrow} {s : State} (hc : Canonical s) :
    Canonical (setGrow p g s) := by
  unfold setGrow
  exact
    .upd hc

theorem setBuf_canonical {n : Nat} {b : Buf} {s : State} (hc : Canonical s) :
    Canonical (setBuf n b s) := by
  unfold setBuf
  exact
    .upd hc

theorem setHead_canonical {p : Nat} {l : List Nat} {s : State} (hc : Canonical s) :
    Canonical (setHead p l s) := by
  unfold setHead
  exact
    .upd hc

theorem setFree_canonical {p : Nat} {n : Nat} {s : State} (hc : Canonical s) :
    Canonical (setFree p n s) := by
  unfold setFree
  exact
    fput_canonical hc

theorem setHeld_canonical {p : Nat} {n : Nat} {s : State} (hc : Canonical s) :
    Canonical (setHeld p n s) := by
  unfold setHeld
  exact
    have h1 : Canonical _ := fput_canonical hc
    .ite (raise_canonical (fset_canonical h1)) h1

theorem writeLink_canonical {p : Nat} {n : Nat} {next : Option Nat} {s : State} (hc : Canonical s) :
    Canonical (writeLink p n next s) := by
  unfold writeLink
  exact
    storeWord_canonical hc

theorem checkEnd_canonical {p : Nat} {n : Nat} {k : Nat} {s : State} (hc : Canonical s) :
    Canonical (checkEnd p n k s) := by
  unfold checkEnd
  exact
    .ite hc (
      have h1 : Canonical (_ : _ × State).2 := readWord_canonical (resolve_canonical hc)
      .ite h1 (fset_canonical h1))

theorem refillOne_canonical {p : Nat} {s : State} (hc : Canonical s) :
    Canonical (refillOne p s) := by
  unfold refillOne
  exact
    by
      extract_lets
      split
      · exact hc
      · exact .ite hc (
          have h1 : Canonical (_ : _ × State).2 := readWord_canonical (resolve_canonical hc)
          .ite (checkEnd_canonical (setHead_canonical h1)) (fset_canonical h1))

theorem refillMany_canonical {n p : Nat} {s : State} (hc : Canonical s) : Canonical (refillMany n p s) := by
  induction n generalizing s with
  | zero => exact hc
  | succ n ih => exact ih (refillOne_canonical hc)

theorem linkRefill_canonical {p : Nat} {s : State} (hc : Canonical s) :
    Canonical (linkRefill p s) := by
  unfold linkRefill
  exact
    refillMany_canonical hc

theorem pushFree_canonical {p : Nat} {n : Nat} {s : State} (hc : Canonical s) :
    Canonical (pushFree p n s) := by
  unfold pushFree
  exact
    have h1 : Canonical _ := setBuf_canonical hc
    have h2 : Canonical _ := setFree_canonical h1
    .ite h2 (setHead_canonical (writeLink_canonical h2))

theorem popFree_canonical {p : Nat} {s : State} (hc : Canonical s) :
    Canonical (popFree p s).2 := by
  unfold popFree
  exact
    have h1 : Canonical _ := .ite (refillOne_canonical hc) hc
    by
      extract_lets
      split
      · exact h1
      · exact setFree_canonical (setHead_canonical h1)

theorem latchPoolErr_canonical {p : Nat} {code : Nat} {buf : Nat} {who : Nat} {s : State} (hc : Canonical s) :
    Canonical (latchPoolErr p code buf who s) := by
  unfold latchPoolErr
  exact
    have h1 : Canonical _ := bump_canonical (fset_canonical hc)
    have h2 : Canonical _ := fput_canonical (fput_canonical h1)
    raise_canonical (fput_canonical h2)

theorem countAllocFail_canonical {p : Nat} {code : Nat} {live : Bool} {s : State} (hc : Canonical s) :
    Canonical (countAllocFail p code live s) := by
  unfold countAllocFail
  exact
    have h1 : Canonical _ := bump_canonical hc
    .ite (raise_canonical (fset_canonical h1)) h1

theorem allocBuf_canonical {p : Nat} {who : Nat} {newOwner : Nat} {live : Bool} {s0 : State} (hc : Canonical s0) :
    Canonical (allocBuf p who newOwner live s0).2 := by
  unfold allocBuf
  exact
    have h1 : Canonical _ := poolWon_canonical hc
    .ite2 (countAllocFail_canonical h1) (.ite2 (latchPoolErr_canonical (stepFree_canonical h1)) (by
      split
      · rename_i e
        have h2 := Canonical.of_snd e (popFree_canonical h1)
        exact countAllocFail_canonical h2
      · rename_i e
        have h3 := Canonical.of_snd e (popFree_canonical h1)
        exact setHeld_canonical (setBuf_canonical h3)))

theorem returnBuf_canonical {p : Nat} {n : Nat} {s : State} (hc : Canonical s) :
    Canonical (returnBuf p n s) := by
  unfold returnBuf
  exact
    have h1 : Canonical _ := setHeld_canonical hc
    .ite (setBuf_canonical h1) (pushFree_canonical h1)

theorem bufOpAct_canonical {op : BufOp} {p : Nat} {n : Nat} {s : State} (hc : Canonical s) :
    Canonical (bufOpAct op p n s) := by
  unfold bufOpAct
  exact
    by
      extract_lets
      split
      · exact returnBuf_canonical hc
      · exact setBuf_canonical hc
      · exact setBuf_canonical hc
      · exact setBuf_canonical hc

theorem bufOp_canonical {op : BufOp} {n : Nat} {who : Nat} {s0 : State} (hc : Canonical s0) :
    Canonical (bufOp op n who s0).2 := by
  unfold bufOp
  exact
    by
      extract_lets
      split
      · exact hc
      · exact have h1 : Canonical _ := poolWon_canonical hc
        .ite2 (bufOpAct_canonical h1) (.ite2 h1 (latchPoolErr_canonical h1))

theorem askLater_canonical {w : PoolWait} {s : State} (hc : Canonical s) :
    Canonical (askLater w s) := by
  unfold askLater
  exact
    .upd hc

theorem unitFree_canonical {n : Nat} {who : Nat} {s : State} (hc : Canonical s) :
    Canonical (unitFree n who s) := by
  unfold unitFree
  exact
    have h1 : Canonical (_ : _ × State).2 := bufOp_canonical hc
    .ite (askLater_canonical (.upd h1)) h1

theorem unitFreeAll_canonical {l : List Nat} {who : Nat} {s : State} (hc : Canonical s) :
    Canonical (unitFreeAll l who s) := by
  unfold unitFreeAll
  exact
    .foldl (fun _ _ h1 => (unitFree_canonical h1)) _ hc

theorem shrinkPool_canonical {fuel p n : Nat} {s : State} (hc : Canonical s) : Canonical (shrinkPool fuel p n s) := by
  induction fuel generalizing s with
  | zero => exact hc
  | succ fuel ih =>
    unfold shrinkPool
    refine .ite hc ?_
    split
    · rename_i e
      exact Canonical.of_snd e (popFree_canonical hc)
    · rename_i e
      exact ih (setBuf_canonical (Canonical.of_snd e (popFree_canonical hc)))

theorem poolSized_canonical {p : Nat} {n : Nat} {s : State} (hc : Canonical s) :
    Canonical (poolSized p n s) := by
  unfold poolSized
  exact
    have h1 : Canonical _ := setGrow_canonical (fput_canonical hc)
    .ite (setGrow_canonical h1) (shrinkPool_canonical h1)

theorem growCycle_canonical {p : Nat} {s : State} (hc : Canonical s) :
    Canonical (growCycle p s) := by
  unfold growCycle
  exact
    .ite (.foldl (fun _ _ h1 => (pushFree_canonical h1)) _ (setGrow_canonical hc)) (by
      split
      · exact setGrow_canonical hc
      · exact stepFree_canonical (.ite (pushFree_canonical (setGrow_canonical hc)) hc))

theorem poolCtlWrite_canonical {p : Nat} {v : Word} {s : State} (hc : Canonical s) :
    Canonical (poolCtlWrite p v s) := by
  unfold poolCtlWrite
  exact
    .ite (fclr_canonical hc) (.ite hc (
      have h1 : Canonical _ := fput_canonical hc
      .ite (fset_canonical h1) h1))

theorem linkChain_canonical {p : Nat} {l : List Nat} {s : State} (hc : Canonical s) : Canonical (linkChain p l s) := by
  induction l generalizing s with
  | nil => exact hc
  | cons n l ih =>
    unfold linkChain
    exact ih (writeLink_canonical hc)

theorem rebuildDone_canonical {p : Nat} {s : State} (hc : Canonical s) :
    Canonical (rebuildDone p s) := by
  unfold rebuildDone
  exact
    .ite (
      have h1 : Canonical _ := setFree_canonical (setHead_canonical (linkChain_canonical hc))
      have h2 : Canonical _ := fclr_canonical (fset_canonical h1)
      shrinkPool_canonical (raise_canonical (bump_canonical h2))) hc

theorem poolRelease_canonical {p : Nat} {s : State} (hc : Canonical s) :
    Canonical (poolRelease p s) := by
  unfold poolRelease
  exact
    .ite (
      have h1 : Canonical _ := fput_canonical (fput_canonical (fput_canonical hc))
      have h2 : Canonical _ := fput_canonical (fput_canonical (fput_canonical h1))
      have h3 : Canonical _ := fput_canonical (fput_canonical h2)
      setHead_canonical (setFree_canonical (linkChain_canonical h3))) hc

theorem addWait_canonical {w : PoolWait} {s : State} (hc : Canonical s) :
    Canonical (addWait w s) := by
  unfold addWait
  exact
    .ite hc (.upd hc)

theorem waitAgain_canonical {w : PoolWait} {s : State} (hc : Canonical s) :
    Canonical (waitAgain w s) := by
  unfold waitAgain
  exact
    askLater_canonical (addWait_canonical hc)

theorem dropWait_canonical {w : PoolWait} {s : State} (hc : Canonical s) :
    Canonical (dropWait w s) := by
  unfold dropWait
  exact
    .upd hc

theorem producerAlloc_canonical {who : Nat} {p : Nat} {s : State} (hc : Canonical s) :
    Canonical (producerAlloc who p s) := by
  unfold producerAlloc
  exact
    .ite (addWait_canonical hc) (
      have h1 : Canonical (_ : _ × State).2 := allocBuf_canonical hc
      .ite (waitAgain_canonical h1) (dropWait_canonical h1))

theorem hostAlloc_canonical {p : Nat} {d : Nat} {s : State} (hc : Canonical s) :
    Canonical (hostAlloc p d s) := by
  unfold hostAlloc
  exact
    have h1 : Canonical (_ : _ × State).2 := allocBuf_canonical hc
    .ite (wr_canonical h1) (wr_canonical (stepFree_canonical h1))

theorem hostBuffer_canonical {d : Nat} {op : BufOp} {n : Nat} {s : State} (hc : Canonical s) :
    Canonical (hostBuffer d op n s) := by
  unfold hostBuffer
  exact
    have h1 : Canonical (_ : _ × State).2 := bufOp_canonical hc
    wr_canonical h1

theorem poolAct_canonical {p : Nat} {x : PoolAsk} {s : State} (hc : Canonical s) :
    Canonical (poolAct p x s) := by
  unfold poolAct
  exact
    by
      split
      · exact .ite (producerAlloc_canonical hc) (allocBuf_canonical hc)
      · exact hostAlloc_canonical hc
      · exact .ite (unitFree_canonical hc) (bufOp_canonical hc)
      · exact hostBuffer_canonical hc
      · exact poolSized_canonical (poolWon_canonical hc)

theorem poolServe_canonical {p : Nat} {s : State} (hc : Canonical s) :
    Canonical (poolServe p s) := by
  unfold poolServe
  exact
    by
      extract_lets
      split
      · exact hc
      · exact poolAct_canonical (setArb_canonical hc)

theorem poolAsk_canonical {p : Nat} {x : PoolAsk} {s : State} (hc : Canonical s) :
    Canonical (poolAsk p x s) := by
  unfold poolAsk
  exact
    poolServe_canonical (setArb_canonical hc)

theorem unitAlloc_canonical {p : Nat} {who : Nat} {waits : Bool} {live : Bool} {s : State} (hc : Canonical s) :
    Canonical (unitAlloc p who waits live s) := by
  unfold unitAlloc
  exact
    .ite (addWait_canonical hc) (poolAsk_canonical hc)

theorem unitBufOp_canonical {op : BufOp} {n : Nat} {who : Nat} {s : State} (hc : Canonical s) :
    Canonical (unitBufOp op n who s) := by
  unfold unitBufOp
  exact
    by
      split
      · exact hc
      · exact poolAsk_canonical hc

theorem poolResize_canonical {d : Nat} {p : Nat} {n : Nat} {s : State} (hc : Canonical s) :
    Canonical (poolResize d p n s) := by
  unfold poolResize
  exact
    .ite (fset_canonical hc) (poolAsk_canonical hc)

theorem hopCommand_canonical {d : Nat} {v : Word} {s : State} (hc : Canonical s) : Canonical (hopCommand d v s) := by
  unfold hopCommand
  extract_lets n go
  have h (op : BufOp) : Canonical (go op) := by
    simp only [go]
    split
    · exact hostBuffer_canonical hc
    · exact poolAsk_canonical hc
  split
  · exact h _
  · exact h _
  · exact h _
  · exact h _
  · exact hc

theorem hopAlloc_canonical {d : Nat} {s : State} (hc : Canonical s) :
    Canonical (hopAlloc d s) := by
  unfold hopAlloc
  exact
    poolAsk_canonical hc

theorem poolsCycle_canonical {s : State} (hc : Canonical s) :
    Canonical (poolsCycle s) := by
  unfold poolsCycle
  exact
    have h2 : Canonical _ := .foldl (fun _ _ h1 => (poolServe_canonical h1)) _ hc
    .foldl (fun _ _ h3 => (growCycle_canonical h3)) _ h2

end Sys2Proof.Machine
end

