-- ==== Sys2Proof/Laws/State.lean ====
section
/-! SUPPORT. What each update of the state leaves alone, field by field, and what a register or a field of one reads after a write.
The other register operations come down to `fput` and `wr`. -/

namespace Sys2Proof.Machine

open Sys2Proof

/-! ### Bit fields -/

theorem getF_lt {f : Fld} {w : Word} : getF f w < 2 ^ f.width := Nat.mod_lt _ (Nat.two_pow_pos _)

theorem maskF_testBit {f : Fld} {i : Nat} (hi : i < 32) :
    (maskF f).getLsbD i = (decide (f.lo ≤ i) && decide (i < f.lo + f.width)) := by
  unfold maskF
  simp only [BitVec.getLsbD_shiftLeft, hi, decide_true, Bool.true_and, BitVec.getLsbD_ofNat, Nat.testBit_two_pow_sub_one]
  by_cases h : f.lo ≤ i
  · have h1 : decide (i < f.lo) = false := by simp; omega
    have h2 : decide (i - f.lo < 32) = true := by simp; omega
    simp only [h1, h2, h, decide_true, Bool.not_false, Bool.true_and]
    exact decide_eq_decide.2 (by omega)
  · simp [h, show i < f.lo by omega]

theorem putF_bit {f : Fld} {w : Word} {v i : Nat} (hi : i < 32) :
    (putF f w v).getLsbD i = if f.lo ≤ i ∧ i < f.lo + f.width then v.testBit (i - f.lo) else w.getLsbD i := by
  unfold putF
  simp only [BitVec.getLsbD_or, BitVec.getLsbD_and, BitVec.getLsbD_not, hi, decide_true, Bool.true_and, maskF_testBit hi,
    BitVec.getLsbD_shiftLeft, BitVec.getLsbD_ofNat, Nat.testBit_mod_two_pow]
  split
  · rename_i h
    have h1 : decide (i < f.lo) = false := by simp; omega
    have h2 : decide (i - f.lo < 32) = true := by simp; omega
    have h3 : decide (i - f.lo < f.width) = true := by simp; omega
    simp [h.1, h.2, h2, h3]
  · rename_i h
    by_cases hl : f.lo ≤ i
    · have h3 : decide (i - f.lo < f.width) = false := by simp; omega
      have h4 : decide (i < f.lo + f.width) = false := by simp; omega
      simp [h3, h4]
    · have h3 : decide (i < f.lo) = true := by simp; omega
      simp [hl, h3]

theorem getF_bit {f : Fld} {w : Word} {i : Nat} : (getF f w).testBit i = (decide (i < f.width) && w.getLsbD (f.lo + i)) := by
  unfold getF
  rw [Nat.testBit_mod_two_pow, Nat.testBit_shiftRight]
  rfl

/-- A field reads as the value put into it, cut to its width. -/
theorem getF_putF_self {f : Fld} {w : Word} {v : Nat} (hf : f.lo + f.width ≤ 32) : getF f (putF f w v) = v % 2 ^ f.width := by
  apply Nat.eq_of_testBit_eq
  intro i
  rw [getF_bit, Nat.testBit_mod_two_pow]
  by_cases h : i < f.width
  · rw [putF_bit (by omega), if_pos ⟨by omega, by omega⟩]
    simp [h]
  · simp [h]

/-- Putting a field leaves the fields beside it alone. -/
theorem getF_putF_ne {f g : Fld} {w : Word} {v : Nat} (hg : g.lo + g.width ≤ 32)
    (h : g.lo + g.width ≤ f.lo ∨ f.lo + f.width ≤ g.lo) : getF g (putF f w v) = getF g w := by
  apply Nat.eq_of_testBit_eq
  intro i
  rw [getF_bit, getF_bit]
  by_cases hi : i < g.width
  · rw [putF_bit (by omega), if_neg (by omega)]
  · simp [hi]

/-! ### Registers -/

/-- A register's word depends on the registers alone. -/
theorem rd_congr {o : Nat} {s t : State} (h : s.regs = t.regs) : rd o s = rd o t := by
  unfold rd
  rw [h]

theorem fget_congr {o : Nat} {f : Fld} {s t : State} (h : s.regs = t.regs) : fget o f s = fget o f t := by
  unfold fget
  rw [rd_congr h]

/-- A register reads as it was written, and a write leaves the others alone. -/
theorem rd_wr {o p : Nat} {w : Word} {s : State} : rd o (wr p w s) = if o = p then w else rd o s := by
  unfold rd wr
  split
  · rename_i h
    subst h
    exact smGet_smSet_self
  · rename_i h
    exact smGet_smSet_ne h

theorem rd_wr_self {o : Nat} {w : Word} {s : State} : rd o (wr o w s) = w := by rw [rd_wr, if_pos rfl]

theorem rd_wr_ne {o p : Nat} {w : Word} {s : State} (h : o ≠ p) : rd o (wr p w s) = rd o s := by
  rw [rd_wr, if_neg h]

theorem rd_fput_ne {o p : Nat} {f : Fld} {v : Nat} {s : State} (h : o ≠ p) : rd o (fput p f v s) = rd o s :=
  rd_wr_ne h

theorem rd_fput_self {o : Nat} {f : Fld} {v : Nat} {s : State} : rd o (fput o f v s) = putF f (rd o s) v :=
  rd_wr_self

theorem fget_wr_self {o : Nat} {f : Fld} {w : Word} {s : State} : fget o f (wr o w s) = getF f w := by
  unfold fget
  rw [rd_wr_self]

theorem fget_wr_ne {o p : Nat} {f : Fld} {w : Word} {s : State} (h : o ≠ p) : fget o f (wr p w s) = fget o f s := by
  unfold fget
  rw [rd_wr_ne h]

theorem fget_fput_self {o : Nat} {f : Fld} {v : Nat} {s : State} (hf : f.lo + f.width ≤ 32) :
    fget o f (fput o f v s) = v % 2 ^ f.width := by
  unfold fget
  rw [rd_fput_self, getF_putF_self hf]

theorem fget_fput_ne {o p : Nat} {f g : Fld} {v : Nat} {s : State} (h : o ≠ p) :
    fget o g (fput p f v s) = fget o g s := by
  unfold fget
  rw [rd_fput_ne h]

theorem fget_fput_beside {o : Nat} {f g : Fld} {v : Nat} {s : State}
    (hg : g.lo + g.width ≤ 32) (h : g.lo + g.width ≤ f.lo ∨ f.lo + f.width ≤ g.lo) : fget o g (fput o f v s) = fget o g s := by
  unfold fget
  rw [rd_fput_self, getF_putF_ne hg h]

/-- A register after an event is raised: only the source's count may differ. -/
theorem rd_raise_ne {o src : Nat} {s : State} (h : o ≠ Reg.icuSrcStat src) : rd o (raise src s) = rd o s := by
  unfold raise
  dsimp only
  split <;> exact rd_fput_ne h

theorem fget_raise_ne {o src : Nat} {f : Fld} {s : State} (h : o ≠ Reg.icuSrcStat src) :
    fget o f (raise src s) = fget o f s := by
  unfold fget
  rw [rd_raise_ne h]

/-! ### The other register operations -/

theorem fset_eq {off : Nat} {f : Fld} {s : State} : fset off f s = fput off f 1 s := rfl

theorem fclr_eq {off : Nat} {f : Fld} {s : State} : fclr off f s = fput off f 0 s := rfl

theorem bump_eq {off : Nat} {f : Fld} {s : State} : bump off f s = bumpBy 1 off f s := rfl

theorem bumpWrap_eq {off : Nat} {f : Fld} {s : State} : bumpWrap off f s = bumpWrapBy 1 off f s := rfl

theorem bumpBy_eq {n off : Nat} {f : Fld} {s : State} :
    bumpBy n off f s = fput off f (min (fget off f s + n) (2 ^ f.width - 1)) s := rfl

theorem bumpWrapBy_eq {n off : Nat} {f : Fld} {s : State} : bumpWrapBy n off f s = fput off f (fget off f s + n) s := rfl

/-! ### What an update leaves alone -/

@[simp] theorem wr_pending {off : Nat} {w : Word} {s : State} : (wr off w s).pending = s.pending := rfl
@[simp] theorem wr_outbox {off : Nat} {w : Word} {s : State} : (wr off w s).outbox = s.outbox := rfl
@[simp] theorem wr_freeCtr {off : Nat} {w : Word} {s : State} : (wr off w s).freeCtr = s.freeCtr := rfl
@[simp] theorem wr_now {off : Nat} {w : Word} {s : State} : (wr off w s).now = s.now := rfl
@[simp] theorem wr_regs {off : Nat} {w : Word} {s : State} : (wr off w s).regs = smSet (regReset off) off w s.regs := rfl
@[simp] theorem wr_snaps {off : Nat} {w : Word} {s : State} : (wr off w s).snaps = s.snaps := rfl
@[simp] theorem wr_comp {off : Nat} {w : Word} {s : State} : (wr off w s).comp = s.comp := rfl
@[simp] theorem wr_icu {off : Nat} {w : Word} {s : State} : (wr off w s).icu = s.icu := rfl
@[simp] theorem wr_pwr {off : Nat} {w : Word} {s : State} : (wr off w s).pwr = s.pwr := rfl
@[simp] theorem wr_bc {off : Nat} {w : Word} {s : State} : (wr off w s).bc = s.bc := rfl
@[simp] theorem wr_flash {off : Nat} {w : Word} {s : State} : (wr off w s).flash = s.flash := rfl
@[simp] theorem wr_cmd {off : Nat} {w : Word} {s : State} : (wr off w s).cmd = s.cmd := rfl
@[simp] theorem wr_staged {off : Nat} {w : Word} {s : State} : (wr off w s).staged = s.staged := rfl
@[simp] theorem wr_clock {off : Nat} {w : Word} {s : State} : (wr off w s).clock = s.clock := rfl
@[simp] theorem wr_fs {off : Nat} {w : Word} {s : State} : (wr off w s).fs = s.fs := rfl
@[simp] theorem wr_pools {off : Nat} {w : Word} {s : State} : (wr off w s).pools = s.pools := rfl
@[simp] theorem wr_chans {off : Nat} {w : Word} {s : State} : (wr off w s).chans = s.chans := rfl
@[simp] theorem wr_dmaTurn {off : Nat} {w : Word} {s : State} : (wr off w s).dmaTurn = s.dmaTurn := rfl
@[simp] theorem wr_tap {off : Nat} {w : Word} {s : State} : (wr off w s).tap = s.tap := rfl
@[simp] theorem wr_blocks {off : Nat} {w : Word} {s : State} : (wr off w s).blocks = s.blocks := rfl
@[simp] theorem wr_regions {off : Nat} {w : Word} {s : State} : (wr off w s).regions = s.regions := rfl
@[simp] theorem wr_injs {off : Nat} {w : Word} {s : State} : (wr off w s).injs = s.injs := rfl
@[simp] theorem wr_faultAt {off : Nat} {w : Word} {s : State} : (wr off w s).faultAt = s.faultAt := rfl
@[simp] theorem wr_pipes {off : Nat} {w : Word} {s : State} : (wr off w s).pipes = s.pipes := rfl
@[simp] theorem wr_lanes {off : Nat} {w : Word} {s : State} : (wr off w s).lanes = s.lanes := rfl
@[simp] theorem wr_ring {off : Nat} {w : Word} {s : State} : (wr off w s).ring = s.ring := rfl
@[simp] theorem wr_ports {off : Nat} {w : Word} {s : State} : (wr off w s).ports = s.ports := rfl
@[simp] theorem wr_targets {off : Nat} {w : Word} {s : State} : (wr off w s).targets = s.targets := rfl
@[simp] theorem wr_cxl {off : Nat} {w : Word} {s : State} : (wr off w s).cxl = s.cxl := rfl
@[simp] theorem wr_parsed {off : Nat} {w : Word} {s : State} : (wr off w s).parsed = s.parsed := rfl
@[simp] theorem wr_decoded {off : Nat} {w : Word} {s : State} : (wr off w s).decoded = s.decoded := rfl

@[simp] theorem fput_pending {off : Nat} {f : Fld} {v : Nat} {s : State} : (fput off f v s).pending = s.pending := rfl
@[simp] theorem fput_outbox {off : Nat} {f : Fld} {v : Nat} {s : State} : (fput off f v s).outbox = s.outbox := rfl
@[simp] theorem fput_freeCtr {off : Nat} {f : Fld} {v : Nat} {s : State} : (fput off f v s).freeCtr = s.freeCtr := rfl
@[simp] theorem fput_now {off : Nat} {f : Fld} {v : Nat} {s : State} : (fput off f v s).now = s.now := rfl
@[simp] theorem fput_snaps {off : Nat} {f : Fld} {v : Nat} {s : State} : (fput off f v s).snaps = s.snaps := rfl
@[simp] theorem fput_comp {off : Nat} {f : Fld} {v : Nat} {s : State} : (fput off f v s).comp = s.comp := rfl
@[simp] theorem fput_icu {off : Nat} {f : Fld} {v : Nat} {s : State} : (fput off f v s).icu = s.icu := rfl
@[simp] theorem fput_pwr {off : Nat} {f : Fld} {v : Nat} {s : State} : (fput off f v s).pwr = s.pwr := rfl
@[simp] theorem fput_bc {off : Nat} {f : Fld} {v : Nat} {s : State} : (fput off f v s).bc = s.bc := rfl
@[simp] theorem fput_flash {off : Nat} {f : Fld} {v : Nat} {s : State} : (fput off f v s).flash = s.flash := rfl
@[simp] theorem fput_cmd {off : Nat} {f : Fld} {v : Nat} {s : State} : (fput off f v s).cmd = s.cmd := rfl
@[simp] theorem fput_staged {off : Nat} {f : Fld} {v : Nat} {s : State} : (fput off f v s).staged = s.staged := rfl
@[simp] theorem fput_clock {off : Nat} {f : Fld} {v : Nat} {s : State} : (fput off f v s).clock = s.clock := rfl
@[simp] theorem fput_fs {off : Nat} {f : Fld} {v : Nat} {s : State} : (fput off f v s).fs = s.fs := rfl
@[simp] theorem fput_pools {off : Nat} {f : Fld} {v : Nat} {s : State} : (fput off f v s).pools = s.pools := rfl
@[simp] theorem fput_chans {off : Nat} {f : Fld} {v : Nat} {s : State} : (fput off f v s).chans = s.chans := rfl
@[simp] theorem fput_dmaTurn {off : Nat} {f : Fld} {v : Nat} {s : State} : (fput off f v s).dmaTurn = s.dmaTurn := rfl
@[simp] theorem fput_tap {off : Nat} {f : Fld} {v : Nat} {s : State} : (fput off f v s).tap = s.tap := rfl
@[simp] theorem fput_blocks {off : Nat} {f : Fld} {v : Nat} {s : State} : (fput off f v s).blocks = s.blocks := rfl
@[simp] theorem fput_regions {off : Nat} {f : Fld} {v : Nat} {s : State} : (fput off f v s).regions = s.regions := rfl
@[simp] theorem fput_injs {off : Nat} {f : Fld} {v : Nat} {s : State} : (fput off f v s).injs = s.injs := rfl
@[simp] theorem fput_faultAt {off : Nat} {f : Fld} {v : Nat} {s : State} : (fput off f v s).faultAt = s.faultAt := rfl
@[simp] theorem fput_pipes {off : Nat} {f : Fld} {v : Nat} {s : State} : (fput off f v s).pipes = s.pipes := rfl
@[simp] theorem fput_lanes {off : Nat} {f : Fld} {v : Nat} {s : State} : (fput off f v s).lanes = s.lanes := rfl
@[simp] theorem fput_ring {off : Nat} {f : Fld} {v : Nat} {s : State} : (fput off f v s).ring = s.ring := rfl
@[simp] theorem fput_ports {off : Nat} {f : Fld} {v : Nat} {s : State} : (fput off f v s).ports = s.ports := rfl
@[simp] theorem fput_targets {off : Nat} {f : Fld} {v : Nat} {s : State} : (fput off f v s).targets = s.targets := rfl
@[simp] theorem fput_cxl {off : Nat} {f : Fld} {v : Nat} {s : State} : (fput off f v s).cxl = s.cxl := rfl
@[simp] theorem fput_parsed {off : Nat} {f : Fld} {v : Nat} {s : State} : (fput off f v s).parsed = s.parsed := rfl
@[simp] theorem fput_decoded {off : Nat} {f : Fld} {v : Nat} {s : State} : (fput off f v s).decoded = s.decoded := rfl

@[simp] theorem emit_pending {o : Output} {s : State} : (emit o s).pending = s.pending := rfl
@[simp] theorem emit_outbox {o : Output} {s : State} : (emit o s).outbox = s.outbox ++ [o] := rfl
@[simp] theorem emit_freeCtr {o : Output} {s : State} : (emit o s).freeCtr = s.freeCtr := rfl
@[simp] theorem emit_now {o : Output} {s : State} : (emit o s).now = s.now := rfl
@[simp] theorem emit_regs {o : Output} {s : State} : (emit o s).regs = s.regs := rfl
@[simp] theorem emit_snaps {o : Output} {s : State} : (emit o s).snaps = s.snaps := rfl
@[simp] theorem emit_comp {o : Output} {s : State} : (emit o s).comp = s.comp := rfl
@[simp] theorem emit_icu {o : Output} {s : State} : (emit o s).icu = s.icu := rfl
@[simp] theorem emit_pwr {o : Output} {s : State} : (emit o s).pwr = s.pwr := rfl
@[simp] theorem emit_bc {o : Output} {s : State} : (emit o s).bc = s.bc := rfl
@[simp] theorem emit_flash {o : Output} {s : State} : (emit o s).flash = s.flash := rfl
@[simp] theorem emit_cmd {o : Output} {s : State} : (emit o s).cmd = s.cmd := rfl
@[simp] theorem emit_staged {o : Output} {s : State} : (emit o s).staged = s.staged := rfl
@[simp] theorem emit_clock {o : Output} {s : State} : (emit o s).clock = s.clock := rfl
@[simp] theorem emit_fs {o : Output} {s : State} : (emit o s).fs = s.fs := rfl
@[simp] theorem emit_pools {o : Output} {s : State} : (emit o s).pools = s.pools := rfl
@[simp] theorem emit_chans {o : Output} {s : State} : (emit o s).chans = s.chans := rfl
@[simp] theorem emit_dmaTurn {o : Output} {s : State} : (emit o s).dmaTurn = s.dmaTurn := rfl
@[simp] theorem emit_tap {o : Output} {s : State} : (emit o s).tap = s.tap := rfl
@[simp] theorem emit_blocks {o : Output} {s : State} : (emit o s).blocks = s.blocks := rfl
@[simp] theorem emit_regions {o : Output} {s : State} : (emit o s).regions = s.regions := rfl
@[simp] theorem emit_injs {o : Output} {s : State} : (emit o s).injs = s.injs := rfl
@[simp] theorem emit_faultAt {o : Output} {s : State} : (emit o s).faultAt = s.faultAt := rfl
@[simp] theorem emit_pipes {o : Output} {s : State} : (emit o s).pipes = s.pipes := rfl
@[simp] theorem emit_lanes {o : Output} {s : State} : (emit o s).lanes = s.lanes := rfl
@[simp] theorem emit_ring {o : Output} {s : State} : (emit o s).ring = s.ring := rfl
@[simp] theorem emit_ports {o : Output} {s : State} : (emit o s).ports = s.ports := rfl
@[simp] theorem emit_targets {o : Output} {s : State} : (emit o s).targets = s.targets := rfl
@[simp] theorem emit_cxl {o : Output} {s : State} : (emit o s).cxl = s.cxl := rfl
@[simp] theorem emit_parsed {o : Output} {s : State} : (emit o s).parsed = s.parsed := rfl
@[simp] theorem emit_decoded {o : Output} {s : State} : (emit o s).decoded = s.decoded := rfl
@[simp] theorem rd_emit {p_ : Nat} {o : Output} {s : State} : rd p_ (emit o s) = rd p_ s := rfl
@[simp] theorem fget_emit {p_ : Nat} {f_ : Fld} {o : Output} {s : State} : fget p_ f_ (emit o s) = fget p_ f_ s := rfl

@[simp] theorem stepFree_pending {s : State} : (stepFree s).pending = s.pending := rfl
@[simp] theorem stepFree_outbox {s : State} : (stepFree s).outbox = s.outbox := rfl
@[simp] theorem stepFree_freeCtr {s : State} : (stepFree s).freeCtr = s.freeCtr + 1 := rfl
@[simp] theorem stepFree_now {s : State} : (stepFree s).now = s.now := rfl
@[simp] theorem stepFree_regs {s : State} : (stepFree s).regs = s.regs := rfl
@[simp] theorem stepFree_snaps {s : State} : (stepFree s).snaps = s.snaps := rfl
@[simp] theorem stepFree_comp {s : State} : (stepFree s).comp = s.comp := rfl
@[simp] theorem stepFree_icu {s : State} : (stepFree s).icu = s.icu := rfl
@[simp] theorem stepFree_pwr {s : State} : (stepFree s).pwr = s.pwr := rfl
@[simp] theorem stepFree_bc {s : State} : (stepFree s).bc = s.bc := rfl
@[simp] theorem stepFree_flash {s : State} : (stepFree s).flash = s.flash := rfl
@[simp] theorem stepFree_cmd {s : State} : (stepFree s).cmd = s.cmd := rfl
@[simp] theorem stepFree_staged {s : State} : (stepFree s).staged = s.staged := rfl
@[simp] theorem stepFree_clock {s : State} : (stepFree s).clock = s.clock := rfl
@[simp] theorem stepFree_fs {s : State} : (stepFree s).fs = s.fs := rfl
@[simp] theorem stepFree_pools {s : State} : (stepFree s).pools = s.pools := rfl
@[simp] theorem stepFree_chans {s : State} : (stepFree s).chans = s.chans := rfl
@[simp] theorem stepFree_dmaTurn {s : State} : (stepFree s).dmaTurn = s.dmaTurn := rfl
@[simp] theorem stepFree_tap {s : State} : (stepFree s).tap = s.tap := rfl
@[simp] theorem stepFree_blocks {s : State} : (stepFree s).blocks = s.blocks := rfl
@[simp] theorem stepFree_regions {s : State} : (stepFree s).regions = s.regions := rfl
@[simp] theorem stepFree_injs {s : State} : (stepFree s).injs = s.injs := rfl
@[simp] theorem stepFree_faultAt {s : State} : (stepFree s).faultAt = s.faultAt := rfl
@[simp] theorem stepFree_pipes {s : State} : (stepFree s).pipes = s.pipes := rfl
@[simp] theorem stepFree_lanes {s : State} : (stepFree s).lanes = s.lanes := rfl
@[simp] theorem stepFree_ring {s : State} : (stepFree s).ring = s.ring := rfl
@[simp] theorem stepFree_ports {s : State} : (stepFree s).ports = s.ports := rfl
@[simp] theorem stepFree_targets {s : State} : (stepFree s).targets = s.targets := rfl
@[simp] theorem stepFree_cxl {s : State} : (stepFree s).cxl = s.cxl := rfl
@[simp] theorem stepFree_parsed {s : State} : (stepFree s).parsed = s.parsed := rfl
@[simp] theorem stepFree_decoded {s : State} : (stepFree s).decoded = s.decoded := rfl
@[simp] theorem rd_stepFree {p_ : Nat} {s : State} : rd p_ (stepFree s) = rd p_ s := rfl
@[simp] theorem fget_stepFree {p_ : Nat} {f_ : Fld} {s : State} : fget p_ f_ (stepFree s) = fget p_ f_ s := rfl

@[simp] theorem setMem_pending {m : Mem} {s : State} : (setMem m s).pending = s.pending := rfl
@[simp] theorem setMem_outbox {m : Mem} {s : State} : (setMem m s).outbox = s.outbox := rfl
@[simp] theorem setMem_freeCtr {m : Mem} {s : State} : (setMem m s).freeCtr = s.freeCtr := rfl
@[simp] theorem setMem_now {m : Mem} {s : State} : (setMem m s).now = s.now := rfl
@[simp] theorem setMem_regs {m : Mem} {s : State} : (setMem m s).regs = s.regs := rfl
@[simp] theorem setMem_snaps {m : Mem} {s : State} : (setMem m s).snaps = s.snaps := rfl
@[simp] theorem setMem_comp {m : Mem} {s : State} : (setMem m s).comp = s.comp := rfl
@[simp] theorem setMem_icu {m : Mem} {s : State} : (setMem m s).icu = s.icu := rfl
@[simp] theorem setMem_pwr {m : Mem} {s : State} : (setMem m s).pwr = s.pwr := rfl
@[simp] theorem setMem_bc {m : Mem} {s : State} : (setMem m s).bc = s.bc := rfl
@[simp] theorem setMem_flash {m : Mem} {s : State} : (setMem m s).flash = s.flash := rfl
@[simp] theorem setMem_cmd {m : Mem} {s : State} : (setMem m s).cmd = s.cmd := rfl
@[simp] theorem setMem_staged {m : Mem} {s : State} : (setMem m s).staged = s.staged := rfl
@[simp] theorem setMem_clock {m : Mem} {s : State} : (setMem m s).clock = s.clock := rfl
@[simp] theorem setMem_pools {m : Mem} {s : State} : (setMem m s).pools = s.pools := rfl
@[simp] theorem setMem_chans {m : Mem} {s : State} : (setMem m s).chans = s.chans := rfl
@[simp] theorem setMem_dmaTurn {m : Mem} {s : State} : (setMem m s).dmaTurn = s.dmaTurn := rfl
@[simp] theorem setMem_tap {m : Mem} {s : State} : (setMem m s).tap = s.tap := rfl
@[simp] theorem setMem_blocks {m : Mem} {s : State} : (setMem m s).blocks = s.blocks := rfl
@[simp] theorem setMem_regions {m : Mem} {s : State} : (setMem m s).regions = s.regions := rfl
@[simp] theorem setMem_injs {m : Mem} {s : State} : (setMem m s).injs = s.injs := rfl
@[simp] theorem setMem_faultAt {m : Mem} {s : State} : (setMem m s).faultAt = s.faultAt := rfl
@[simp] theorem setMem_pipes {m : Mem} {s : State} : (setMem m s).pipes = s.pipes := rfl
@[simp] theorem setMem_lanes {m : Mem} {s : State} : (setMem m s).lanes = s.lanes := rfl
@[simp] theorem setMem_ring {m : Mem} {s : State} : (setMem m s).ring = s.ring := rfl
@[simp] theorem setMem_ports {m : Mem} {s : State} : (setMem m s).ports = s.ports := rfl
@[simp] theorem setMem_targets {m : Mem} {s : State} : (setMem m s).targets = s.targets := rfl
@[simp] theorem setMem_cxl {m : Mem} {s : State} : (setMem m s).cxl = s.cxl := rfl
@[simp] theorem setMem_parsed {m : Mem} {s : State} : (setMem m s).parsed = s.parsed := rfl
@[simp] theorem setMem_decoded {m : Mem} {s : State} : (setMem m s).decoded = s.decoded := rfl
@[simp] theorem rd_setMem {p_ : Nat} {m : Mem} {s : State} : rd p_ (setMem m s) = rd p_ s := rfl
@[simp] theorem fget_setMem {p_ : Nat} {f_ : Fld} {m : Mem} {s : State} : fget p_ f_ (setMem m s) = fget p_ f_ s := rfl

@[simp] theorem setChan_pending {c : Nat} {x : Chan} {s : State} : (setChan c x s).pending = s.pending := rfl
@[simp] theorem setChan_outbox {c : Nat} {x : Chan} {s : State} : (setChan c x s).outbox = s.outbox := rfl
@[simp] theorem setChan_freeCtr {c : Nat} {x : Chan} {s : State} : (setChan c x s).freeCtr = s.freeCtr := rfl
@[simp] theorem setChan_now {c : Nat} {x : Chan} {s : State} : (setChan c x s).now = s.now := rfl
@[simp] theorem setChan_regs {c : Nat} {x : Chan} {s : State} : (setChan c x s).regs = s.regs := rfl
@[simp] theorem setChan_snaps {c : Nat} {x : Chan} {s : State} : (setChan c x s).snaps = s.snaps := rfl
@[simp] theorem setChan_comp {c : Nat} {x : Chan} {s : State} : (setChan c x s).comp = s.comp := rfl
@[simp] theorem setChan_icu {c : Nat} {x : Chan} {s : State} : (setChan c x s).icu = s.icu := rfl
@[simp] theorem setChan_pwr {c : Nat} {x : Chan} {s : State} : (setChan c x s).pwr = s.pwr := rfl
@[simp] theorem setChan_bc {c : Nat} {x : Chan} {s : State} : (setChan c x s).bc = s.bc := rfl
@[simp] theorem setChan_flash {c : Nat} {x : Chan} {s : State} : (setChan c x s).flash = s.flash := rfl
@[simp] theorem setChan_cmd {c : Nat} {x : Chan} {s : State} : (setChan c x s).cmd = s.cmd := rfl
@[simp] theorem setChan_staged {c : Nat} {x : Chan} {s : State} : (setChan c x s).staged = s.staged := rfl
@[simp] theorem setChan_clock {c : Nat} {x : Chan} {s : State} : (setChan c x s).clock = s.clock := rfl
@[simp] theorem setChan_fs {c : Nat} {x : Chan} {s : State} : (setChan c x s).fs = s.fs := rfl
@[simp] theorem setChan_pools {c : Nat} {x : Chan} {s : State} : (setChan c x s).pools = s.pools := rfl
@[simp] theorem setChan_dmaTurn {c : Nat} {x : Chan} {s : State} : (setChan c x s).dmaTurn = s.dmaTurn := rfl
@[simp] theorem setChan_tap {c : Nat} {x : Chan} {s : State} : (setChan c x s).tap = s.tap := rfl
@[simp] theorem setChan_blocks {c : Nat} {x : Chan} {s : State} : (setChan c x s).blocks = s.blocks := rfl
@[simp] theorem setChan_regions {c : Nat} {x : Chan} {s : State} : (setChan c x s).regions = s.regions := rfl
@[simp] theorem setChan_injs {c : Nat} {x : Chan} {s : State} : (setChan c x s).injs = s.injs := rfl
@[simp] theorem setChan_faultAt {c : Nat} {x : Chan} {s : State} : (setChan c x s).faultAt = s.faultAt := rfl
@[simp] theorem setChan_pipes {c : Nat} {x : Chan} {s : State} : (setChan c x s).pipes = s.pipes := rfl
@[simp] theorem setChan_lanes {c : Nat} {x : Chan} {s : State} : (setChan c x s).lanes = s.lanes := rfl
@[simp] theorem setChan_ring {c : Nat} {x : Chan} {s : State} : (setChan c x s).ring = s.ring := rfl
@[simp] theorem setChan_ports {c : Nat} {x : Chan} {s : State} : (setChan c x s).ports = s.ports := rfl
@[simp] theorem setChan_targets {c : Nat} {x : Chan} {s : State} : (setChan c x s).targets = s.targets := rfl
@[simp] theorem setChan_cxl {c : Nat} {x : Chan} {s : State} : (setChan c x s).cxl = s.cxl := rfl
@[simp] theorem setChan_parsed {c : Nat} {x : Chan} {s : State} : (setChan c x s).parsed = s.parsed := rfl
@[simp] theorem setChan_decoded {c : Nat} {x : Chan} {s : State} : (setChan c x s).decoded = s.decoded := rfl
@[simp] theorem rd_setChan {p_ : Nat} {c : Nat} {x : Chan} {s : State} : rd p_ (setChan c x s) = rd p_ s := rfl
@[simp] theorem fget_setChan {p_ : Nat} {f_ : Fld} {c : Nat} {x : Chan} {s : State} : fget p_ f_ (setChan c x s) = fget p_ f_ s := rfl

@[simp] theorem setPort_pending {n : Nat} {x : Port} {s : State} : (setPort n x s).pending = s.pending := rfl
@[simp] theorem setPort_outbox {n : Nat} {x : Port} {s : State} : (setPort n x s).outbox = s.outbox := rfl
@[simp] theorem setPort_freeCtr {n : Nat} {x : Port} {s : State} : (setPort n x s).freeCtr = s.freeCtr := rfl
@[simp] theorem setPort_now {n : Nat} {x : Port} {s : State} : (setPort n x s).now = s.now := rfl
@[simp] theorem setPort_regs {n : Nat} {x : Port} {s : State} : (setPort n x s).regs = s.regs := rfl
@[simp] theorem setPort_snaps {n : Nat} {x : Port} {s : State} : (setPort n x s).snaps = s.snaps := rfl
@[simp] theorem setPort_comp {n : Nat} {x : Port} {s : State} : (setPort n x s).comp = s.comp := rfl
@[simp] theorem setPort_icu {n : Nat} {x : Port} {s : State} : (setPort n x s).icu = s.icu := rfl
@[simp] theorem setPort_pwr {n : Nat} {x : Port} {s : State} : (setPort n x s).pwr = s.pwr := rfl
@[simp] theorem setPort_bc {n : Nat} {x : Port} {s : State} : (setPort n x s).bc = s.bc := rfl
@[simp] theorem setPort_flash {n : Nat} {x : Port} {s : State} : (setPort n x s).flash = s.flash := rfl
@[simp] theorem setPort_cmd {n : Nat} {x : Port} {s : State} : (setPort n x s).cmd = s.cmd := rfl
@[simp] theorem setPort_staged {n : Nat} {x : Port} {s : State} : (setPort n x s).staged = s.staged := rfl
@[simp] theorem setPort_clock {n : Nat} {x : Port} {s : State} : (setPort n x s).clock = s.clock := rfl
@[simp] theorem setPort_fs {n : Nat} {x : Port} {s : State} : (setPort n x s).fs = s.fs := rfl
@[simp] theorem setPort_pools {n : Nat} {x : Port} {s : State} : (setPort n x s).pools = s.pools := rfl
@[simp] theorem setPort_chans {n : Nat} {x : Port} {s : State} : (setPort n x s).chans = s.chans := rfl
@[simp] theorem setPort_dmaTurn {n : Nat} {x : Port} {s : State} : (setPort n x s).dmaTurn = s.dmaTurn := rfl
@[simp] theorem setPort_tap {n : Nat} {x : Port} {s : State} : (setPort n x s).tap = s.tap := rfl
@[simp] theorem setPort_blocks {n : Nat} {x : Port} {s : State} : (setPort n x s).blocks = s.blocks := rfl
@[simp] theorem setPort_regions {n : Nat} {x : Port} {s : State} : (setPort n x s).regions = s.regions := rfl
@[simp] theorem setPort_injs {n : Nat} {x : Port} {s : State} : (setPort n x s).injs = s.injs := rfl
@[simp] theorem setPort_faultAt {n : Nat} {x : Port} {s : State} : (setPort n x s).faultAt = s.faultAt := rfl
@[simp] theorem setPort_pipes {n : Nat} {x : Port} {s : State} : (setPort n x s).pipes = s.pipes := rfl
@[simp] theorem setPort_lanes {n : Nat} {x : Port} {s : State} : (setPort n x s).lanes = s.lanes := rfl
@[simp] theorem setPort_ring {n : Nat} {x : Port} {s : State} : (setPort n x s).ring = s.ring := rfl
@[simp] theorem setPort_targets {n : Nat} {x : Port} {s : State} : (setPort n x s).targets = s.targets := rfl
@[simp] theorem setPort_cxl {n : Nat} {x : Port} {s : State} : (setPort n x s).cxl = s.cxl := rfl
@[simp] theorem setPort_parsed {n : Nat} {x : Port} {s : State} : (setPort n x s).parsed = s.parsed := rfl
@[simp] theorem setPort_decoded {n : Nat} {x : Port} {s : State} : (setPort n x s).decoded = s.decoded := rfl
@[simp] theorem rd_setPort {p_ : Nat} {n : Nat} {x : Port} {s : State} : rd p_ (setPort n x s) = rd p_ s := rfl
@[simp] theorem fget_setPort {p_ : Nat} {f_ : Fld} {n : Nat} {x : Port} {s : State} : fget p_ f_ (setPort n x s) = fget p_ f_ s := rfl

@[simp] theorem setVec_pending {d : Nat} {v : Nat} {x : Vec} {s : State} : (setVec d v x s).pending = s.pending := rfl
@[simp] theorem setVec_outbox {d : Nat} {v : Nat} {x : Vec} {s : State} : (setVec d v x s).outbox = s.outbox := rfl
@[simp] theorem setVec_freeCtr {d : Nat} {v : Nat} {x : Vec} {s : State} : (setVec d v x s).freeCtr = s.freeCtr := rfl
@[simp] theorem setVec_now {d : Nat} {v : Nat} {x : Vec} {s : State} : (setVec d v x s).now = s.now := rfl
@[simp] theorem setVec_regs {d : Nat} {v : Nat} {x : Vec} {s : State} : (setVec d v x s).regs = s.regs := rfl
@[simp] theorem setVec_snaps {d : Nat} {v : Nat} {x : Vec} {s : State} : (setVec d v x s).snaps = s.snaps := rfl
@[simp] theorem setVec_comp {d : Nat} {v : Nat} {x : Vec} {s : State} : (setVec d v x s).comp = s.comp := rfl
@[simp] theorem setVec_pwr {d : Nat} {v : Nat} {x : Vec} {s : State} : (setVec d v x s).pwr = s.pwr := rfl
@[simp] theorem setVec_bc {d : Nat} {v : Nat} {x : Vec} {s : State} : (setVec d v x s).bc = s.bc := rfl
@[simp] theorem setVec_flash {d : Nat} {v : Nat} {x : Vec} {s : State} : (setVec d v x s).flash = s.flash := rfl
@[simp] theorem setVec_cmd {d : Nat} {v : Nat} {x : Vec} {s : State} : (setVec d v x s).cmd = s.cmd := rfl
@[simp] theorem setVec_staged {d : Nat} {v : Nat} {x : Vec} {s : State} : (setVec d v x s).staged = s.staged := rfl
@[simp] theorem setVec_clock {d : Nat} {v : Nat} {x : Vec} {s : State} : (setVec d v x s).clock = s.clock := rfl
@[simp] theorem setVec_fs {d : Nat} {v : Nat} {x : Vec} {s : State} : (setVec d v x s).fs = s.fs := rfl
@[simp] theorem setVec_pools {d : Nat} {v : Nat} {x : Vec} {s : State} : (setVec d v x s).pools = s.pools := rfl
@[simp] theorem setVec_chans {d : Nat} {v : Nat} {x : Vec} {s : State} : (setVec d v x s).chans = s.chans := rfl
@[simp] theorem setVec_dmaTurn {d : Nat} {v : Nat} {x : Vec} {s : State} : (setVec d v x s).dmaTurn = s.dmaTurn := rfl
@[simp] theorem setVec_tap {d : Nat} {v : Nat} {x : Vec} {s : State} : (setVec d v x s).tap = s.tap := rfl
@[simp] theorem setVec_blocks {d : Nat} {v : Nat} {x : Vec} {s : State} : (setVec d v x s).blocks = s.blocks := rfl
@[simp] theorem setVec_regions {d : Nat} {v : Nat} {x : Vec} {s : State} : (setVec d v x s).regions = s.regions := rfl
@[simp] theorem setVec_injs {d : Nat} {v : Nat} {x : Vec} {s : State} : (setVec d v x s).injs = s.injs := rfl
@[simp] theorem setVec_faultAt {d : Nat} {v : Nat} {x : Vec} {s : State} : (setVec d v x s).faultAt = s.faultAt := rfl
@[simp] theorem setVec_pipes {d : Nat} {v : Nat} {x : Vec} {s : State} : (setVec d v x s).pipes = s.pipes := rfl
@[simp] theorem setVec_lanes {d : Nat} {v : Nat} {x : Vec} {s : State} : (setVec d v x s).lanes = s.lanes := rfl
@[simp] theorem setVec_ring {d : Nat} {v : Nat} {x : Vec} {s : State} : (setVec d v x s).ring = s.ring := rfl
@[simp] theorem setVec_ports {d : Nat} {v : Nat} {x : Vec} {s : State} : (setVec d v x s).ports = s.ports := rfl
@[simp] theorem setVec_targets {d : Nat} {v : Nat} {x : Vec} {s : State} : (setVec d v x s).targets = s.targets := rfl
@[simp] theorem setVec_cxl {d : Nat} {v : Nat} {x : Vec} {s : State} : (setVec d v x s).cxl = s.cxl := rfl
@[simp] theorem setVec_parsed {d : Nat} {v : Nat} {x : Vec} {s : State} : (setVec d v x s).parsed = s.parsed := rfl
@[simp] theorem setVec_decoded {d : Nat} {v : Nat} {x : Vec} {s : State} : (setVec d v x s).decoded = s.decoded := rfl
@[simp] theorem rd_setVec {p_ : Nat} {d : Nat} {v : Nat} {x : Vec} {s : State} : rd p_ (setVec d v x s) = rd p_ s := rfl
@[simp] theorem fget_setVec {p_ : Nat} {f_ : Fld} {d : Nat} {v : Nat} {x : Vec} {s : State} : fget p_ f_ (setVec d v x s) = fget p_ f_ s := rfl

@[simp] theorem setDelivered_pending {src : Nat} {x : Delivered} {s : State} : (setDelivered src x s).pending = s.pending := rfl
@[simp] theorem setDelivered_outbox {src : Nat} {x : Delivered} {s : State} : (setDelivered src x s).outbox = s.outbox := rfl
@[simp] theorem setDelivered_freeCtr {src : Nat} {x : Delivered} {s : State} : (setDelivered src x s).freeCtr = s.freeCtr := rfl
@[simp] theorem setDelivered_now {src : Nat} {x : Delivered} {s : State} : (setDelivered src x s).now = s.now := rfl
@[simp] theorem setDelivered_regs {src : Nat} {x : Delivered} {s : State} : (setDelivered src x s).regs = s.regs := rfl
@[simp] theorem setDelivered_snaps {src : Nat} {x : Delivered} {s : State} : (setDelivered src x s).snaps = s.snaps := rfl
@[simp] theorem setDelivered_comp {src : Nat} {x : Delivered} {s : State} : (setDelivered src x s).comp = s.comp := rfl
@[simp] theorem setDelivered_pwr {src : Nat} {x : Delivered} {s : State} : (setDelivered src x s).pwr = s.pwr := rfl
@[simp] theorem setDelivered_bc {src : Nat} {x : Delivered} {s : State} : (setDelivered src x s).bc = s.bc := rfl
@[simp] theorem setDelivered_flash {src : Nat} {x : Delivered} {s : State} : (setDelivered src x s).flash = s.flash := rfl
@[simp] theorem setDelivered_cmd {src : Nat} {x : Delivered} {s : State} : (setDelivered src x s).cmd = s.cmd := rfl
@[simp] theorem setDelivered_staged {src : Nat} {x : Delivered} {s : State} : (setDelivered src x s).staged = s.staged := rfl
@[simp] theorem setDelivered_clock {src : Nat} {x : Delivered} {s : State} : (setDelivered src x s).clock = s.clock := rfl
@[simp] theorem setDelivered_fs {src : Nat} {x : Delivered} {s : State} : (setDelivered src x s).fs = s.fs := rfl
@[simp] theorem setDelivered_pools {src : Nat} {x : Delivered} {s : State} : (setDelivered src x s).pools = s.pools := rfl
@[simp] theorem setDelivered_chans {src : Nat} {x : Delivered} {s : State} : (setDelivered src x s).chans = s.chans := rfl
@[simp] theorem setDelivered_dmaTurn {src : Nat} {x : Delivered} {s : State} : (setDelivered src x s).dmaTurn = s.dmaTurn := rfl
@[simp] theorem setDelivered_tap {src : Nat} {x : Delivered} {s : State} : (setDelivered src x s).tap = s.tap := rfl
@[simp] theorem setDelivered_blocks {src : Nat} {x : Delivered} {s : State} : (setDelivered src x s).blocks = s.blocks := rfl
@[simp] theorem setDelivered_regions {src : Nat} {x : Delivered} {s : State} : (setDelivered src x s).regions = s.regions := rfl
@[simp] theorem setDelivered_injs {src : Nat} {x : Delivered} {s : State} : (setDelivered src x s).injs = s.injs := rfl
@[simp] theorem setDelivered_faultAt {src : Nat} {x : Delivered} {s : State} : (setDelivered src x s).faultAt = s.faultAt := rfl
@[simp] theorem setDelivered_pipes {src : Nat} {x : Delivered} {s : State} : (setDelivered src x s).pipes = s.pipes := rfl
@[simp] theorem setDelivered_lanes {src : Nat} {x : Delivered} {s : State} : (setDelivered src x s).lanes = s.lanes := rfl
@[simp] theorem setDelivered_ring {src : Nat} {x : Delivered} {s : State} : (setDelivered src x s).ring = s.ring := rfl
@[simp] theorem setDelivered_ports {src : Nat} {x : Delivered} {s : State} : (setDelivered src x s).ports = s.ports := rfl
@[simp] theorem setDelivered_targets {src : Nat} {x : Delivered} {s : State} : (setDelivered src x s).targets = s.targets := rfl
@[simp] theorem setDelivered_cxl {src : Nat} {x : Delivered} {s : State} : (setDelivered src x s).cxl = s.cxl := rfl
@[simp] theorem setDelivered_parsed {src : Nat} {x : Delivered} {s : State} : (setDelivered src x s).parsed = s.parsed := rfl
@[simp] theorem setDelivered_decoded {src : Nat} {x : Delivered} {s : State} : (setDelivered src x s).decoded = s.decoded := rfl
@[simp] theorem rd_setDelivered {p_ : Nat} {src : Nat} {x : Delivered} {s : State} : rd p_ (setDelivered src x s) = rd p_ s := rfl
@[simp] theorem fget_setDelivered {p_ : Nat} {f_ : Fld} {src : Nat} {x : Delivered} {s : State} : fget p_ f_ (setDelivered src x s) = fget p_ f_ s := rfl

@[simp] theorem setFn_pending {d : Nat} {x : Fn} {s : State} : (setFn d x s).pending = s.pending := rfl
@[simp] theorem setFn_outbox {d : Nat} {x : Fn} {s : State} : (setFn d x s).outbox = s.outbox := rfl
@[simp] theorem setFn_freeCtr {d : Nat} {x : Fn} {s : State} : (setFn d x s).freeCtr = s.freeCtr := rfl
@[simp] theorem setFn_now {d : Nat} {x : Fn} {s : State} : (setFn d x s).now = s.now := rfl
@[simp] theorem setFn_regs {d : Nat} {x : Fn} {s : State} : (setFn d x s).regs = s.regs := rfl
@[simp] theorem setFn_snaps {d : Nat} {x : Fn} {s : State} : (setFn d x s).snaps = s.snaps := rfl
@[simp] theorem setFn_comp {d : Nat} {x : Fn} {s : State} : (setFn d x s).comp = s.comp := rfl
@[simp] theorem setFn_pwr {d : Nat} {x : Fn} {s : State} : (setFn d x s).pwr = s.pwr := rfl
@[simp] theorem setFn_bc {d : Nat} {x : Fn} {s : State} : (setFn d x s).bc = s.bc := rfl
@[simp] theorem setFn_flash {d : Nat} {x : Fn} {s : State} : (setFn d x s).flash = s.flash := rfl
@[simp] theorem setFn_cmd {d : Nat} {x : Fn} {s : State} : (setFn d x s).cmd = s.cmd := rfl
@[simp] theorem setFn_staged {d : Nat} {x : Fn} {s : State} : (setFn d x s).staged = s.staged := rfl
@[simp] theorem setFn_clock {d : Nat} {x : Fn} {s : State} : (setFn d x s).clock = s.clock := rfl
@[simp] theorem setFn_fs {d : Nat} {x : Fn} {s : State} : (setFn d x s).fs = s.fs := rfl
@[simp] theorem setFn_pools {d : Nat} {x : Fn} {s : State} : (setFn d x s).pools = s.pools := rfl
@[simp] theorem setFn_chans {d : Nat} {x : Fn} {s : State} : (setFn d x s).chans = s.chans := rfl
@[simp] theorem setFn_dmaTurn {d : Nat} {x : Fn} {s : State} : (setFn d x s).dmaTurn = s.dmaTurn := rfl
@[simp] theorem setFn_tap {d : Nat} {x : Fn} {s : State} : (setFn d x s).tap = s.tap := rfl
@[simp] theorem setFn_blocks {d : Nat} {x : Fn} {s : State} : (setFn d x s).blocks = s.blocks := rfl
@[simp] theorem setFn_regions {d : Nat} {x : Fn} {s : State} : (setFn d x s).regions = s.regions := rfl
@[simp] theorem setFn_injs {d : Nat} {x : Fn} {s : State} : (setFn d x s).injs = s.injs := rfl
@[simp] theorem setFn_faultAt {d : Nat} {x : Fn} {s : State} : (setFn d x s).faultAt = s.faultAt := rfl
@[simp] theorem setFn_pipes {d : Nat} {x : Fn} {s : State} : (setFn d x s).pipes = s.pipes := rfl
@[simp] theorem setFn_lanes {d : Nat} {x : Fn} {s : State} : (setFn d x s).lanes = s.lanes := rfl
@[simp] theorem setFn_ring {d : Nat} {x : Fn} {s : State} : (setFn d x s).ring = s.ring := rfl
@[simp] theorem setFn_ports {d : Nat} {x : Fn} {s : State} : (setFn d x s).ports = s.ports := rfl
@[simp] theorem setFn_targets {d : Nat} {x : Fn} {s : State} : (setFn d x s).targets = s.targets := rfl
@[simp] theorem setFn_cxl {d : Nat} {x : Fn} {s : State} : (setFn d x s).cxl = s.cxl := rfl
@[simp] theorem setFn_parsed {d : Nat} {x : Fn} {s : State} : (setFn d x s).parsed = s.parsed := rfl
@[simp] theorem setFn_decoded {d : Nat} {x : Fn} {s : State} : (setFn d x s).decoded = s.decoded := rfl
@[simp] theorem rd_setFn {p_ : Nat} {d : Nat} {x : Fn} {s : State} : rd p_ (setFn d x s) = rd p_ s := rfl
@[simp] theorem fget_setFn {p_ : Nat} {f_ : Fld} {d : Nat} {x : Fn} {s : State} : fget p_ f_ (setFn d x s) = fget p_ f_ s := rfl

@[simp] theorem setRegion_pending {r : Nat} {x : RegionSt} {s : State} : (setRegion r x s).pending = s.pending := rfl
@[simp] theorem setRegion_outbox {r : Nat} {x : RegionSt} {s : State} : (setRegion r x s).outbox = s.outbox := rfl
@[simp] theorem setRegion_freeCtr {r : Nat} {x : RegionSt} {s : State} : (setRegion r x s).freeCtr = s.freeCtr := rfl
@[simp] theorem setRegion_now {r : Nat} {x : RegionSt} {s : State} : (setRegion r x s).now = s.now := rfl
@[simp] theorem setRegion_regs {r : Nat} {x : RegionSt} {s : State} : (setRegion r x s).regs = s.regs := rfl
@[simp] theorem setRegion_snaps {r : Nat} {x : RegionSt} {s : State} : (setRegion r x s).snaps = s.snaps := rfl
@[simp] theorem setRegion_comp {r : Nat} {x : RegionSt} {s : State} : (setRegion r x s).comp = s.comp := rfl
@[simp] theorem setRegion_icu {r : Nat} {x : RegionSt} {s : State} : (setRegion r x s).icu = s.icu := rfl
@[simp] theorem setRegion_pwr {r : Nat} {x : RegionSt} {s : State} : (setRegion r x s).pwr = s.pwr := rfl
@[simp] theorem setRegion_bc {r : Nat} {x : RegionSt} {s : State} : (setRegion r x s).bc = s.bc := rfl
@[simp] theorem setRegion_flash {r : Nat} {x : RegionSt} {s : State} : (setRegion r x s).flash = s.flash := rfl
@[simp] theorem setRegion_cmd {r : Nat} {x : RegionSt} {s : State} : (setRegion r x s).cmd = s.cmd := rfl
@[simp] theorem setRegion_staged {r : Nat} {x : RegionSt} {s : State} : (setRegion r x s).staged = s.staged := rfl
@[simp] theorem setRegion_clock {r : Nat} {x : RegionSt} {s : State} : (setRegion r x s).clock = s.clock := rfl
@[simp] theorem setRegion_fs {r : Nat} {x : RegionSt} {s : State} : (setRegion r x s).fs = s.fs := rfl
@[simp] theorem setRegion_pools {r : Nat} {x : RegionSt} {s : State} : (setRegion r x s).pools = s.pools := rfl
@[simp] theorem setRegion_chans {r : Nat} {x : RegionSt} {s : State} : (setRegion r x s).chans = s.chans := rfl
@[simp] theorem setRegion_dmaTurn {r : Nat} {x : RegionSt} {s : State} : (setRegion r x s).dmaTurn = s.dmaTurn := rfl
@[simp] theorem setRegion_tap {r : Nat} {x : RegionSt} {s : State} : (setRegion r x s).tap = s.tap := rfl
@[simp] theorem setRegion_blocks {r : Nat} {x : RegionSt} {s : State} : (setRegion r x s).blocks = s.blocks := rfl
@[simp] theorem setRegion_injs {r : Nat} {x : RegionSt} {s : State} : (setRegion r x s).injs = s.injs := rfl
@[simp] theorem setRegion_faultAt {r : Nat} {x : RegionSt} {s : State} : (setRegion r x s).faultAt = s.faultAt := rfl
@[simp] theorem setRegion_pipes {r : Nat} {x : RegionSt} {s : State} : (setRegion r x s).pipes = s.pipes := rfl
@[simp] theorem setRegion_lanes {r : Nat} {x : RegionSt} {s : State} : (setRegion r x s).lanes = s.lanes := rfl
@[simp] theorem setRegion_ring {r : Nat} {x : RegionSt} {s : State} : (setRegion r x s).ring = s.ring := rfl
@[simp] theorem setRegion_ports {r : Nat} {x : RegionSt} {s : State} : (setRegion r x s).ports = s.ports := rfl
@[simp] theorem setRegion_targets {r : Nat} {x : RegionSt} {s : State} : (setRegion r x s).targets = s.targets := rfl
@[simp] theorem setRegion_cxl {r : Nat} {x : RegionSt} {s : State} : (setRegion r x s).cxl = s.cxl := rfl
@[simp] theorem setRegion_parsed {r : Nat} {x : RegionSt} {s : State} : (setRegion r x s).parsed = s.parsed := rfl
@[simp] theorem setRegion_decoded {r : Nat} {x : RegionSt} {s : State} : (setRegion r x s).decoded = s.decoded := rfl
@[simp] theorem rd_setRegion {p_ : Nat} {r : Nat} {x : RegionSt} {s : State} : rd p_ (setRegion r x s) = rd p_ s := rfl
@[simp] theorem fget_setRegion {p_ : Nat} {f_ : Fld} {r : Nat} {x : RegionSt} {s : State} : fget p_ f_ (setRegion r x s) = fget p_ f_ s := rfl

@[simp] theorem setBlock_pending {r : Nat} {b : Nat} {x : Block} {s : State} : (setBlock r b x s).pending = s.pending := rfl
@[simp] theorem setBlock_outbox {r : Nat} {b : Nat} {x : Block} {s : State} : (setBlock r b x s).outbox = s.outbox := rfl
@[simp] theorem setBlock_freeCtr {r : Nat} {b : Nat} {x : Block} {s : State} : (setBlock r b x s).freeCtr = s.freeCtr := rfl
@[simp] theorem setBlock_now {r : Nat} {b : Nat} {x : Block} {s : State} : (setBlock r b x s).now = s.now := rfl
@[simp] theorem setBlock_regs {r : Nat} {b : Nat} {x : Block} {s : State} : (setBlock r b x s).regs = s.regs := rfl
@[simp] theorem setBlock_snaps {r : Nat} {b : Nat} {x : Block} {s : State} : (setBlock r b x s).snaps = s.snaps := rfl
@[simp] theorem setBlock_comp {r : Nat} {b : Nat} {x : Block} {s : State} : (setBlock r b x s).comp = s.comp := rfl
@[simp] theorem setBlock_icu {r : Nat} {b : Nat} {x : Block} {s : State} : (setBlock r b x s).icu = s.icu := rfl
@[simp] theorem setBlock_pwr {r : Nat} {b : Nat} {x : Block} {s : State} : (setBlock r b x s).pwr = s.pwr := rfl
@[simp] theorem setBlock_bc {r : Nat} {b : Nat} {x : Block} {s : State} : (setBlock r b x s).bc = s.bc := rfl
@[simp] theorem setBlock_flash {r : Nat} {b : Nat} {x : Block} {s : State} : (setBlock r b x s).flash = s.flash := rfl
@[simp] theorem setBlock_cmd {r : Nat} {b : Nat} {x : Block} {s : State} : (setBlock r b x s).cmd = s.cmd := rfl
@[simp] theorem setBlock_staged {r : Nat} {b : Nat} {x : Block} {s : State} : (setBlock r b x s).staged = s.staged := rfl
@[simp] theorem setBlock_clock {r : Nat} {b : Nat} {x : Block} {s : State} : (setBlock r b x s).clock = s.clock := rfl
@[simp] theorem setBlock_fs {r : Nat} {b : Nat} {x : Block} {s : State} : (setBlock r b x s).fs = s.fs := rfl
@[simp] theorem setBlock_pools {r : Nat} {b : Nat} {x : Block} {s : State} : (setBlock r b x s).pools = s.pools := rfl
@[simp] theorem setBlock_chans {r : Nat} {b : Nat} {x : Block} {s : State} : (setBlock r b x s).chans = s.chans := rfl
@[simp] theorem setBlock_dmaTurn {r : Nat} {b : Nat} {x : Block} {s : State} : (setBlock r b x s).dmaTurn = s.dmaTurn := rfl
@[simp] theorem setBlock_tap {r : Nat} {b : Nat} {x : Block} {s : State} : (setBlock r b x s).tap = s.tap := rfl
@[simp] theorem setBlock_regions {r : Nat} {b : Nat} {x : Block} {s : State} : (setBlock r b x s).regions = s.regions := rfl
@[simp] theorem setBlock_injs {r : Nat} {b : Nat} {x : Block} {s : State} : (setBlock r b x s).injs = s.injs := rfl
@[simp] theorem setBlock_faultAt {r : Nat} {b : Nat} {x : Block} {s : State} : (setBlock r b x s).faultAt = s.faultAt := rfl
@[simp] theorem setBlock_pipes {r : Nat} {b : Nat} {x : Block} {s : State} : (setBlock r b x s).pipes = s.pipes := rfl
@[simp] theorem setBlock_lanes {r : Nat} {b : Nat} {x : Block} {s : State} : (setBlock r b x s).lanes = s.lanes := rfl
@[simp] theorem setBlock_ring {r : Nat} {b : Nat} {x : Block} {s : State} : (setBlock r b x s).ring = s.ring := rfl
@[simp] theorem setBlock_ports {r : Nat} {b : Nat} {x : Block} {s : State} : (setBlock r b x s).ports = s.ports := rfl
@[simp] theorem setBlock_targets {r : Nat} {b : Nat} {x : Block} {s : State} : (setBlock r b x s).targets = s.targets := rfl
@[simp] theorem setBlock_cxl {r : Nat} {b : Nat} {x : Block} {s : State} : (setBlock r b x s).cxl = s.cxl := rfl
@[simp] theorem setBlock_parsed {r : Nat} {b : Nat} {x : Block} {s : State} : (setBlock r b x s).parsed = s.parsed := rfl
@[simp] theorem setBlock_decoded {r : Nat} {b : Nat} {x : Block} {s : State} : (setBlock r b x s).decoded = s.decoded := rfl
@[simp] theorem rd_setBlock {p_ : Nat} {r : Nat} {b : Nat} {x : Block} {s : State} : rd p_ (setBlock r b x s) = rd p_ s := rfl
@[simp] theorem fget_setBlock {p_ : Nat} {f_ : Fld} {r : Nat} {b : Nat} {x : Block} {s : State} : fget p_ f_ (setBlock r b x s) = fget p_ f_ s := rfl

@[simp] theorem setPipe_pending {p : Nat} {x : Pipe} {s : State} : (setPipe p x s).pending = s.pending := rfl
@[simp] theorem setPipe_outbox {p : Nat} {x : Pipe} {s : State} : (setPipe p x s).outbox = s.outbox := rfl
@[simp] theorem setPipe_freeCtr {p : Nat} {x : Pipe} {s : State} : (setPipe p x s).freeCtr = s.freeCtr := rfl
@[simp] theorem setPipe_now {p : Nat} {x : Pipe} {s : State} : (setPipe p x s).now = s.now := rfl
@[simp] theorem setPipe_regs {p : Nat} {x : Pipe} {s : State} : (setPipe p x s).regs = s.regs := rfl
@[simp] theorem setPipe_snaps {p : Nat} {x : Pipe} {s : State} : (setPipe p x s).snaps = s.snaps := rfl
@[simp] theorem setPipe_comp {p : Nat} {x : Pipe} {s : State} : (setPipe p x s).comp = s.comp := rfl
@[simp] theorem setPipe_icu {p : Nat} {x : Pipe} {s : State} : (setPipe p x s).icu = s.icu := rfl
@[simp] theorem setPipe_pwr {p : Nat} {x : Pipe} {s : State} : (setPipe p x s).pwr = s.pwr := rfl
@[simp] theorem setPipe_bc {p : Nat} {x : Pipe} {s : State} : (setPipe p x s).bc = s.bc := rfl
@[simp] theorem setPipe_flash {p : Nat} {x : Pipe} {s : State} : (setPipe p x s).flash = s.flash := rfl
@[simp] theorem setPipe_cmd {p : Nat} {x : Pipe} {s : State} : (setPipe p x s).cmd = s.cmd := rfl
@[simp] theorem setPipe_staged {p : Nat} {x : Pipe} {s : State} : (setPipe p x s).staged = s.staged := rfl
@[simp] theorem setPipe_clock {p : Nat} {x : Pipe} {s : State} : (setPipe p x s).clock = s.clock := rfl
@[simp] theorem setPipe_fs {p : Nat} {x : Pipe} {s : State} : (setPipe p x s).fs = s.fs := rfl
@[simp] theorem setPipe_pools {p : Nat} {x : Pipe} {s : State} : (setPipe p x s).pools = s.pools := rfl
@[simp] theorem setPipe_chans {p : Nat} {x : Pipe} {s : State} : (setPipe p x s).chans = s.chans := rfl
@[simp] theorem setPipe_dmaTurn {p : Nat} {x : Pipe} {s : State} : (setPipe p x s).dmaTurn = s.dmaTurn := rfl
@[simp] theorem setPipe_tap {p : Nat} {x : Pipe} {s : State} : (setPipe p x s).tap = s.tap := rfl
@[simp] theorem setPipe_blocks {p : Nat} {x : Pipe} {s : State} : (setPipe p x s).blocks = s.blocks := rfl
@[simp] theorem setPipe_regions {p : Nat} {x : Pipe} {s : State} : (setPipe p x s).regions = s.regions := rfl
@[simp] theorem setPipe_injs {p : Nat} {x : Pipe} {s : State} : (setPipe p x s).injs = s.injs := rfl
@[simp] theorem setPipe_faultAt {p : Nat} {x : Pipe} {s : State} : (setPipe p x s).faultAt = s.faultAt := rfl
@[simp] theorem setPipe_lanes {p : Nat} {x : Pipe} {s : State} : (setPipe p x s).lanes = s.lanes := rfl
@[simp] theorem setPipe_ring {p : Nat} {x : Pipe} {s : State} : (setPipe p x s).ring = s.ring := rfl
@[simp] theorem setPipe_ports {p : Nat} {x : Pipe} {s : State} : (setPipe p x s).ports = s.ports := rfl
@[simp] theorem setPipe_targets {p : Nat} {x : Pipe} {s : State} : (setPipe p x s).targets = s.targets := rfl
@[simp] theorem setPipe_cxl {p : Nat} {x : Pipe} {s : State} : (setPipe p x s).cxl = s.cxl := rfl
@[simp] theorem setPipe_parsed {p : Nat} {x : Pipe} {s : State} : (setPipe p x s).parsed = s.parsed := rfl
@[simp] theorem setPipe_decoded {p : Nat} {x : Pipe} {s : State} : (setPipe p x s).decoded = s.decoded := rfl
@[simp] theorem rd_setPipe {p_ : Nat} {p : Nat} {x : Pipe} {s : State} : rd p_ (setPipe p x s) = rd p_ s := rfl
@[simp] theorem fget_setPipe {p_ : Nat} {f_ : Fld} {p : Nat} {x : Pipe} {s : State} : fget p_ f_ (setPipe p x s) = fget p_ f_ s := rfl

@[simp] theorem setBuf_pending {n : Nat} {b : Buf} {s : State} : (setBuf n b s).pending = s.pending := rfl
@[simp] theorem setBuf_outbox {n : Nat} {b : Buf} {s : State} : (setBuf n b s).outbox = s.outbox := rfl
@[simp] theorem setBuf_freeCtr {n : Nat} {b : Buf} {s : State} : (setBuf n b s).freeCtr = s.freeCtr := rfl
@[simp] theorem setBuf_now {n : Nat} {b : Buf} {s : State} : (setBuf n b s).now = s.now := rfl
@[simp] theorem setBuf_regs {n : Nat} {b : Buf} {s : State} : (setBuf n b s).regs = s.regs := rfl
@[simp] theorem setBuf_snaps {n : Nat} {b : Buf} {s : State} : (setBuf n b s).snaps = s.snaps := rfl
@[simp] theorem setBuf_comp {n : Nat} {b : Buf} {s : State} : (setBuf n b s).comp = s.comp := rfl
@[simp] theorem setBuf_icu {n : Nat} {b : Buf} {s : State} : (setBuf n b s).icu = s.icu := rfl
@[simp] theorem setBuf_pwr {n : Nat} {b : Buf} {s : State} : (setBuf n b s).pwr = s.pwr := rfl
@[simp] theorem setBuf_bc {n : Nat} {b : Buf} {s : State} : (setBuf n b s).bc = s.bc := rfl
@[simp] theorem setBuf_flash {n : Nat} {b : Buf} {s : State} : (setBuf n b s).flash = s.flash := rfl
@[simp] theorem setBuf_cmd {n : Nat} {b : Buf} {s : State} : (setBuf n b s).cmd = s.cmd := rfl
@[simp] theorem setBuf_staged {n : Nat} {b : Buf} {s : State} : (setBuf n b s).staged = s.staged := rfl
@[simp] theorem setBuf_clock {n : Nat} {b : Buf} {s : State} : (setBuf n b s).clock = s.clock := rfl
@[simp] theorem setBuf_fs {n : Nat} {b : Buf} {s : State} : (setBuf n b s).fs = s.fs := rfl
@[simp] theorem setBuf_chans {n : Nat} {b : Buf} {s : State} : (setBuf n b s).chans = s.chans := rfl
@[simp] theorem setBuf_dmaTurn {n : Nat} {b : Buf} {s : State} : (setBuf n b s).dmaTurn = s.dmaTurn := rfl
@[simp] theorem setBuf_tap {n : Nat} {b : Buf} {s : State} : (setBuf n b s).tap = s.tap := rfl
@[simp] theorem setBuf_blocks {n : Nat} {b : Buf} {s : State} : (setBuf n b s).blocks = s.blocks := rfl
@[simp] theorem setBuf_regions {n : Nat} {b : Buf} {s : State} : (setBuf n b s).regions = s.regions := rfl
@[simp] theorem setBuf_injs {n : Nat} {b : Buf} {s : State} : (setBuf n b s).injs = s.injs := rfl
@[simp] theorem setBuf_faultAt {n : Nat} {b : Buf} {s : State} : (setBuf n b s).faultAt = s.faultAt := rfl
@[simp] theorem setBuf_pipes {n : Nat} {b : Buf} {s : State} : (setBuf n b s).pipes = s.pipes := rfl
@[simp] theorem setBuf_lanes {n : Nat} {b : Buf} {s : State} : (setBuf n b s).lanes = s.lanes := rfl
@[simp] theorem setBuf_ring {n : Nat} {b : Buf} {s : State} : (setBuf n b s).ring = s.ring := rfl
@[simp] theorem setBuf_ports {n : Nat} {b : Buf} {s : State} : (setBuf n b s).ports = s.ports := rfl
@[simp] theorem setBuf_targets {n : Nat} {b : Buf} {s : State} : (setBuf n b s).targets = s.targets := rfl
@[simp] theorem setBuf_cxl {n : Nat} {b : Buf} {s : State} : (setBuf n b s).cxl = s.cxl := rfl
@[simp] theorem setBuf_parsed {n : Nat} {b : Buf} {s : State} : (setBuf n b s).parsed = s.parsed := rfl
@[simp] theorem setBuf_decoded {n : Nat} {b : Buf} {s : State} : (setBuf n b s).decoded = s.decoded := rfl
@[simp] theorem rd_setBuf {p_ : Nat} {n : Nat} {b : Buf} {s : State} : rd p_ (setBuf n b s) = rd p_ s := rfl
@[simp] theorem fget_setBuf {p_ : Nat} {f_ : Fld} {n : Nat} {b : Buf} {s : State} : fget p_ f_ (setBuf n b s) = fget p_ f_ s := rfl

@[simp] theorem setHead_pending {p : Nat} {l : List Nat} {s : State} : (setHead p l s).pending = s.pending := rfl
@[simp] theorem setHead_outbox {p : Nat} {l : List Nat} {s : State} : (setHead p l s).outbox = s.outbox := rfl
@[simp] theorem setHead_freeCtr {p : Nat} {l : List Nat} {s : State} : (setHead p l s).freeCtr = s.freeCtr := rfl
@[simp] theorem setHead_now {p : Nat} {l : List Nat} {s : State} : (setHead p l s).now = s.now := rfl
@[simp] theorem setHead_regs {p : Nat} {l : List Nat} {s : State} : (setHead p l s).regs = s.regs := rfl
@[simp] theorem setHead_snaps {p : Nat} {l : List Nat} {s : State} : (setHead p l s).snaps = s.snaps := rfl
@[simp] theorem setHead_comp {p : Nat} {l : List Nat} {s : State} : (setHead p l s).comp = s.comp := rfl
@[simp] theorem setHead_icu {p : Nat} {l : List Nat} {s : State} : (setHead p l s).icu = s.icu := rfl
@[simp] theorem setHead_pwr {p : Nat} {l : List Nat} {s : State} : (setHead p l s).pwr = s.pwr := rfl
@[simp] theorem setHead_bc {p : Nat} {l : List Nat} {s : State} : (setHead p l s).bc = s.bc := rfl
@[simp] theorem setHead_flash {p : Nat} {l : List Nat} {s : State} : (setHead p l s).flash = s.flash := rfl
@[simp] theorem setHead_cmd {p : Nat} {l : List Nat} {s : State} : (setHead p l s).cmd = s.cmd := rfl
@[simp] theorem setHead_staged {p : Nat} {l : List Nat} {s : State} : (setHead p l s).staged = s.staged := rfl
@[simp] theorem setHead_clock {p : Nat} {l : List Nat} {s : State} : (setHead p l s).clock = s.clock := rfl
@[simp] theorem setHead_fs {p : Nat} {l : List Nat} {s : State} : (setHead p l s).fs = s.fs := rfl
@[simp] theorem setHead_chans {p : Nat} {l : List Nat} {s : State} : (setHead p l s).chans = s.chans := rfl
@[simp] theorem setHead_dmaTurn {p : Nat} {l : List Nat} {s : State} : (setHead p l s).dmaTurn = s.dmaTurn := rfl
@[simp] theorem setHead_tap {p : Nat} {l : List Nat} {s : State} : (setHead p l s).tap = s.tap := rfl
@[simp] theorem setHead_blocks {p : Nat} {l : List Nat} {s : State} : (setHead p l s).blocks = s.blocks := rfl
@[simp] theorem setHead_regions {p : Nat} {l : List Nat} {s : State} : (setHead p l s).regions = s.regions := rfl
@[simp] theorem setHead_injs {p : Nat} {l : List Nat} {s : State} : (setHead p l s).injs = s.injs := rfl
@[simp] theorem setHead_faultAt {p : Nat} {l : List Nat} {s : State} : (setHead p l s).faultAt = s.faultAt := rfl
@[simp] theorem setHead_pipes {p : Nat} {l : List Nat} {s : State} : (setHead p l s).pipes = s.pipes := rfl
@[simp] theorem setHead_lanes {p : Nat} {l : List Nat} {s : State} : (setHead p l s).lanes = s.lanes := rfl
@[simp] theorem setHead_ring {p : Nat} {l : List Nat} {s : State} : (setHead p l s).ring = s.ring := rfl
@[simp] theorem setHead_ports {p : Nat} {l : List Nat} {s : State} : (setHead p l s).ports = s.ports := rfl
@[simp] theorem setHead_targets {p : Nat} {l : List Nat} {s : State} : (setHead p l s).targets = s.targets := rfl
@[simp] theorem setHead_cxl {p : Nat} {l : List Nat} {s : State} : (setHead p l s).cxl = s.cxl := rfl
@[simp] theorem setHead_parsed {p : Nat} {l : List Nat} {s : State} : (setHead p l s).parsed = s.parsed := rfl
@[simp] theorem setHead_decoded {p : Nat} {l : List Nat} {s : State} : (setHead p l s).decoded = s.decoded := rfl
@[simp] theorem rd_setHead {p_ : Nat} {p : Nat} {l : List Nat} {s : State} : rd p_ (setHead p l s) = rd p_ s := rfl
@[simp] theorem fget_setHead {p_ : Nat} {f_ : Fld} {p : Nat} {l : List Nat} {s : State} : fget p_ f_ (setHead p l s) = fget p_ f_ s := rfl

@[simp] theorem setRaster_pending {d : Nat} {x : Raster} {s : State} : (setRaster d x s).pending = s.pending := rfl
@[simp] theorem setRaster_outbox {d : Nat} {x : Raster} {s : State} : (setRaster d x s).outbox = s.outbox := rfl
@[simp] theorem setRaster_freeCtr {d : Nat} {x : Raster} {s : State} : (setRaster d x s).freeCtr = s.freeCtr := rfl
@[simp] theorem setRaster_now {d : Nat} {x : Raster} {s : State} : (setRaster d x s).now = s.now := rfl
@[simp] theorem setRaster_regs {d : Nat} {x : Raster} {s : State} : (setRaster d x s).regs = s.regs := rfl
@[simp] theorem setRaster_snaps {d : Nat} {x : Raster} {s : State} : (setRaster d x s).snaps = s.snaps := rfl
@[simp] theorem setRaster_comp {d : Nat} {x : Raster} {s : State} : (setRaster d x s).comp = s.comp := rfl
@[simp] theorem setRaster_icu {d : Nat} {x : Raster} {s : State} : (setRaster d x s).icu = s.icu := rfl
@[simp] theorem setRaster_pwr {d : Nat} {x : Raster} {s : State} : (setRaster d x s).pwr = s.pwr := rfl
@[simp] theorem setRaster_bc {d : Nat} {x : Raster} {s : State} : (setRaster d x s).bc = s.bc := rfl
@[simp] theorem setRaster_flash {d : Nat} {x : Raster} {s : State} : (setRaster d x s).flash = s.flash := rfl
@[simp] theorem setRaster_cmd {d : Nat} {x : Raster} {s : State} : (setRaster d x s).cmd = s.cmd := rfl
@[simp] theorem setRaster_staged {d : Nat} {x : Raster} {s : State} : (setRaster d x s).staged = s.staged := rfl
@[simp] theorem setRaster_fs {d : Nat} {x : Raster} {s : State} : (setRaster d x s).fs = s.fs := rfl
@[simp] theorem setRaster_pools {d : Nat} {x : Raster} {s : State} : (setRaster d x s).pools = s.pools := rfl
@[simp] theorem setRaster_chans {d : Nat} {x : Raster} {s : State} : (setRaster d x s).chans = s.chans := rfl
@[simp] theorem setRaster_dmaTurn {d : Nat} {x : Raster} {s : State} : (setRaster d x s).dmaTurn = s.dmaTurn := rfl
@[simp] theorem setRaster_tap {d : Nat} {x : Raster} {s : State} : (setRaster d x s).tap = s.tap := rfl
@[simp] theorem setRaster_blocks {d : Nat} {x : Raster} {s : State} : (setRaster d x s).blocks = s.blocks := rfl
@[simp] theorem setRaster_regions {d : Nat} {x : Raster} {s : State} : (setRaster d x s).regions = s.regions := rfl
@[simp] theorem setRaster_injs {d : Nat} {x : Raster} {s : State} : (setRaster d x s).injs = s.injs := rfl
@[simp] theorem setRaster_faultAt {d : Nat} {x : Raster} {s : State} : (setRaster d x s).faultAt = s.faultAt := rfl
@[simp] theorem setRaster_pipes {d : Nat} {x : Raster} {s : State} : (setRaster d x s).pipes = s.pipes := rfl
@[simp] theorem setRaster_lanes {d : Nat} {x : Raster} {s : State} : (setRaster d x s).lanes = s.lanes := rfl
@[simp] theorem setRaster_ring {d : Nat} {x : Raster} {s : State} : (setRaster d x s).ring = s.ring := rfl
@[simp] theorem setRaster_ports {d : Nat} {x : Raster} {s : State} : (setRaster d x s).ports = s.ports := rfl
@[simp] theorem setRaster_targets {d : Nat} {x : Raster} {s : State} : (setRaster d x s).targets = s.targets := rfl
@[simp] theorem setRaster_cxl {d : Nat} {x : Raster} {s : State} : (setRaster d x s).cxl = s.cxl := rfl
@[simp] theorem setRaster_parsed {d : Nat} {x : Raster} {s : State} : (setRaster d x s).parsed = s.parsed := rfl
@[simp] theorem setRaster_decoded {d : Nat} {x : Raster} {s : State} : (setRaster d x s).decoded = s.decoded := rfl
@[simp] theorem rd_setRaster {p_ : Nat} {d : Nat} {x : Raster} {s : State} : rd p_ (setRaster d x s) = rd p_ s := rfl
@[simp] theorem fget_setRaster {p_ : Nat} {f_ : Fld} {d : Nat} {x : Raster} {s : State} : fget p_ f_ (setRaster d x s) = fget p_ f_ s := rfl

@[simp] theorem setTarget_pending {t : Nat} {x : Target32} {s : State} : (setTarget t x s).pending = s.pending := rfl
@[simp] theorem setTarget_outbox {t : Nat} {x : Target32} {s : State} : (setTarget t x s).outbox = s.outbox := rfl
@[simp] theorem setTarget_freeCtr {t : Nat} {x : Target32} {s : State} : (setTarget t x s).freeCtr = s.freeCtr := rfl
@[simp] theorem setTarget_now {t : Nat} {x : Target32} {s : State} : (setTarget t x s).now = s.now := rfl
@[simp] theorem setTarget_regs {t : Nat} {x : Target32} {s : State} : (setTarget t x s).regs = s.regs := rfl
@[simp] theorem setTarget_snaps {t : Nat} {x : Target32} {s : State} : (setTarget t x s).snaps = s.snaps := rfl
@[simp] theorem setTarget_comp {t : Nat} {x : Target32} {s : State} : (setTarget t x s).comp = s.comp := rfl
@[simp] theorem setTarget_icu {t : Nat} {x : Target32} {s : State} : (setTarget t x s).icu = s.icu := rfl
@[simp] theorem setTarget_pwr {t : Nat} {x : Target32} {s : State} : (setTarget t x s).pwr = s.pwr := rfl
@[simp] theorem setTarget_bc {t : Nat} {x : Target32} {s : State} : (setTarget t x s).bc = s.bc := rfl
@[simp] theorem setTarget_flash {t : Nat} {x : Target32} {s : State} : (setTarget t x s).flash = s.flash := rfl
@[simp] theorem setTarget_cmd {t : Nat} {x : Target32} {s : State} : (setTarget t x s).cmd = s.cmd := rfl
@[simp] theorem setTarget_staged {t : Nat} {x : Target32} {s : State} : (setTarget t x s).staged = s.staged := rfl
@[simp] theorem setTarget_clock {t : Nat} {x : Target32} {s : State} : (setTarget t x s).clock = s.clock := rfl
@[simp] theorem setTarget_fs {t : Nat} {x : Target32} {s : State} : (setTarget t x s).fs = s.fs := rfl
@[simp] theorem setTarget_pools {t : Nat} {x : Target32} {s : State} : (setTarget t x s).pools = s.pools := rfl
@[simp] theorem setTarget_chans {t : Nat} {x : Target32} {s : State} : (setTarget t x s).chans = s.chans := rfl
@[simp] theorem setTarget_dmaTurn {t : Nat} {x : Target32} {s : State} : (setTarget t x s).dmaTurn = s.dmaTurn := rfl
@[simp] theorem setTarget_tap {t : Nat} {x : Target32} {s : State} : (setTarget t x s).tap = s.tap := rfl
@[simp] theorem setTarget_blocks {t : Nat} {x : Target32} {s : State} : (setTarget t x s).blocks = s.blocks := rfl
@[simp] theorem setTarget_regions {t : Nat} {x : Target32} {s : State} : (setTarget t x s).regions = s.regions := rfl
@[simp] theorem setTarget_injs {t : Nat} {x : Target32} {s : State} : (setTarget t x s).injs = s.injs := rfl
@[simp] theorem setTarget_faultAt {t : Nat} {x : Target32} {s : State} : (setTarget t x s).faultAt = s.faultAt := rfl
@[simp] theorem setTarget_pipes {t : Nat} {x : Target32} {s : State} : (setTarget t x s).pipes = s.pipes := rfl
@[simp] theorem setTarget_lanes {t : Nat} {x : Target32} {s : State} : (setTarget t x s).lanes = s.lanes := rfl
@[simp] theorem setTarget_ring {t : Nat} {x : Target32} {s : State} : (setTarget t x s).ring = s.ring := rfl
@[simp] theorem setTarget_ports {t : Nat} {x : Target32} {s : State} : (setTarget t x s).ports = s.ports := rfl
@[simp] theorem setTarget_cxl {t : Nat} {x : Target32} {s : State} : (setTarget t x s).cxl = s.cxl := rfl
@[simp] theorem setTarget_parsed {t : Nat} {x : Target32} {s : State} : (setTarget t x s).parsed = s.parsed := rfl
@[simp] theorem setTarget_decoded {t : Nat} {x : Target32} {s : State} : (setTarget t x s).decoded = s.decoded := rfl
@[simp] theorem rd_setTarget {p_ : Nat} {t : Nat} {x : Target32} {s : State} : rd p_ (setTarget t x s) = rd p_ s := rfl
@[simp] theorem fget_setTarget {p_ : Nat} {f_ : Fld} {t : Nat} {x : Target32} {s : State} : fget p_ f_ (setTarget t x s) = fget p_ f_ s := rfl

@[simp] theorem setTap_pending {f : Tap → Tap} {s : State} : (setTap f s).pending = s.pending := rfl
@[simp] theorem setTap_outbox {f : Tap → Tap} {s : State} : (setTap f s).outbox = s.outbox := rfl
@[simp] theorem setTap_freeCtr {f : Tap → Tap} {s : State} : (setTap f s).freeCtr = s.freeCtr := rfl
@[simp] theorem setTap_now {f : Tap → Tap} {s : State} : (setTap f s).now = s.now := rfl
@[simp] theorem setTap_regs {f : Tap → Tap} {s : State} : (setTap f s).regs = s.regs := rfl
@[simp] theorem setTap_snaps {f : Tap → Tap} {s : State} : (setTap f s).snaps = s.snaps := rfl
@[simp] theorem setTap_comp {f : Tap → Tap} {s : State} : (setTap f s).comp = s.comp := rfl
@[simp] theorem setTap_icu {f : Tap → Tap} {s : State} : (setTap f s).icu = s.icu := rfl
@[simp] theorem setTap_pwr {f : Tap → Tap} {s : State} : (setTap f s).pwr = s.pwr := rfl
@[simp] theorem setTap_bc {f : Tap → Tap} {s : State} : (setTap f s).bc = s.bc := rfl
@[simp] theorem setTap_flash {f : Tap → Tap} {s : State} : (setTap f s).flash = s.flash := rfl
@[simp] theorem setTap_cmd {f : Tap → Tap} {s : State} : (setTap f s).cmd = s.cmd := rfl
@[simp] theorem setTap_staged {f : Tap → Tap} {s : State} : (setTap f s).staged = s.staged := rfl
@[simp] theorem setTap_clock {f : Tap → Tap} {s : State} : (setTap f s).clock = s.clock := rfl
@[simp] theorem setTap_fs {f : Tap → Tap} {s : State} : (setTap f s).fs = s.fs := rfl
@[simp] theorem setTap_pools {f : Tap → Tap} {s : State} : (setTap f s).pools = s.pools := rfl
@[simp] theorem setTap_chans {f : Tap → Tap} {s : State} : (setTap f s).chans = s.chans := rfl
@[simp] theorem setTap_dmaTurn {f : Tap → Tap} {s : State} : (setTap f s).dmaTurn = s.dmaTurn := rfl
@[simp] theorem setTap_blocks {f : Tap → Tap} {s : State} : (setTap f s).blocks = s.blocks := rfl
@[simp] theorem setTap_regions {f : Tap → Tap} {s : State} : (setTap f s).regions = s.regions := rfl
@[simp] theorem setTap_injs {f : Tap → Tap} {s : State} : (setTap f s).injs = s.injs := rfl
@[simp] theorem setTap_faultAt {f : Tap → Tap} {s : State} : (setTap f s).faultAt = s.faultAt := rfl
@[simp] theorem setTap_pipes {f : Tap → Tap} {s : State} : (setTap f s).pipes = s.pipes := rfl
@[simp] theorem setTap_lanes {f : Tap → Tap} {s : State} : (setTap f s).lanes = s.lanes := rfl
@[simp] theorem setTap_ring {f : Tap → Tap} {s : State} : (setTap f s).ring = s.ring := rfl
@[simp] theorem setTap_ports {f : Tap → Tap} {s : State} : (setTap f s).ports = s.ports := rfl
@[simp] theorem setTap_targets {f : Tap → Tap} {s : State} : (setTap f s).targets = s.targets := rfl
@[simp] theorem setTap_cxl {f : Tap → Tap} {s : State} : (setTap f s).cxl = s.cxl := rfl
@[simp] theorem setTap_parsed {f : Tap → Tap} {s : State} : (setTap f s).parsed = s.parsed := rfl
@[simp] theorem setTap_decoded {f : Tap → Tap} {s : State} : (setTap f s).decoded = s.decoded := rfl
@[simp] theorem rd_setTap {p_ : Nat} {f : Tap → Tap} {s : State} : rd p_ (setTap f s) = rd p_ s := rfl
@[simp] theorem fget_setTap {p_ : Nat} {f_ : Fld} {f : Tap → Tap} {s : State} : fget p_ f_ (setTap f s) = fget p_ f_ s := rfl

@[simp] theorem setHdm_pending {k : Nat} {x : Hdm} {s : State} : (setHdm k x s).pending = s.pending := rfl
@[simp] theorem setHdm_outbox {k : Nat} {x : Hdm} {s : State} : (setHdm k x s).outbox = s.outbox := rfl
@[simp] theorem setHdm_freeCtr {k : Nat} {x : Hdm} {s : State} : (setHdm k x s).freeCtr = s.freeCtr := rfl
@[simp] theorem setHdm_now {k : Nat} {x : Hdm} {s : State} : (setHdm k x s).now = s.now := rfl
@[simp] theorem setHdm_regs {k : Nat} {x : Hdm} {s : State} : (setHdm k x s).regs = s.regs := rfl
@[simp] theorem setHdm_snaps {k : Nat} {x : Hdm} {s : State} : (setHdm k x s).snaps = s.snaps := rfl
@[simp] theorem setHdm_comp {k : Nat} {x : Hdm} {s : State} : (setHdm k x s).comp = s.comp := rfl
@[simp] theorem setHdm_icu {k : Nat} {x : Hdm} {s : State} : (setHdm k x s).icu = s.icu := rfl
@[simp] theorem setHdm_pwr {k : Nat} {x : Hdm} {s : State} : (setHdm k x s).pwr = s.pwr := rfl
@[simp] theorem setHdm_bc {k : Nat} {x : Hdm} {s : State} : (setHdm k x s).bc = s.bc := rfl
@[simp] theorem setHdm_flash {k : Nat} {x : Hdm} {s : State} : (setHdm k x s).flash = s.flash := rfl
@[simp] theorem setHdm_cmd {k : Nat} {x : Hdm} {s : State} : (setHdm k x s).cmd = s.cmd := rfl
@[simp] theorem setHdm_staged {k : Nat} {x : Hdm} {s : State} : (setHdm k x s).staged = s.staged := rfl
@[simp] theorem setHdm_clock {k : Nat} {x : Hdm} {s : State} : (setHdm k x s).clock = s.clock := rfl
@[simp] theorem setHdm_fs {k : Nat} {x : Hdm} {s : State} : (setHdm k x s).fs = s.fs := rfl
@[simp] theorem setHdm_pools {k : Nat} {x : Hdm} {s : State} : (setHdm k x s).pools = s.pools := rfl
@[simp] theorem setHdm_chans {k : Nat} {x : Hdm} {s : State} : (setHdm k x s).chans = s.chans := rfl
@[simp] theorem setHdm_dmaTurn {k : Nat} {x : Hdm} {s : State} : (setHdm k x s).dmaTurn = s.dmaTurn := rfl
@[simp] theorem setHdm_tap {k : Nat} {x : Hdm} {s : State} : (setHdm k x s).tap = s.tap := rfl
@[simp] theorem setHdm_blocks {k : Nat} {x : Hdm} {s : State} : (setHdm k x s).blocks = s.blocks := rfl
@[simp] theorem setHdm_regions {k : Nat} {x : Hdm} {s : State} : (setHdm k x s).regions = s.regions := rfl
@[simp] theorem setHdm_injs {k : Nat} {x : Hdm} {s : State} : (setHdm k x s).injs = s.injs := rfl
@[simp] theorem setHdm_faultAt {k : Nat} {x : Hdm} {s : State} : (setHdm k x s).faultAt = s.faultAt := rfl
@[simp] theorem setHdm_pipes {k : Nat} {x : Hdm} {s : State} : (setHdm k x s).pipes = s.pipes := rfl
@[simp] theorem setHdm_lanes {k : Nat} {x : Hdm} {s : State} : (setHdm k x s).lanes = s.lanes := rfl
@[simp] theorem setHdm_ring {k : Nat} {x : Hdm} {s : State} : (setHdm k x s).ring = s.ring := rfl
@[simp] theorem setHdm_ports {k : Nat} {x : Hdm} {s : State} : (setHdm k x s).ports = s.ports := rfl
@[simp] theorem setHdm_targets {k : Nat} {x : Hdm} {s : State} : (setHdm k x s).targets = s.targets := rfl
@[simp] theorem setHdm_parsed {k : Nat} {x : Hdm} {s : State} : (setHdm k x s).parsed = s.parsed := rfl
@[simp] theorem setHdm_decoded {k : Nat} {x : Hdm} {s : State} : (setHdm k x s).decoded = s.decoded := rfl
@[simp] theorem rd_setHdm {p_ : Nat} {k : Nat} {x : Hdm} {s : State} : rd p_ (setHdm k x s) = rd p_ s := rfl
@[simp] theorem fget_setHdm {p_ : Nat} {f_ : Fld} {k : Nat} {x : Hdm} {s : State} : fget p_ f_ (setHdm k x s) = fget p_ f_ s := rfl

@[simp] theorem setMemCtl_pending {c : Nat} {x : MemCtl} {s : State} : (setMemCtl c x s).pending = s.pending := rfl
@[simp] theorem setMemCtl_outbox {c : Nat} {x : MemCtl} {s : State} : (setMemCtl c x s).outbox = s.outbox := rfl
@[simp] theorem setMemCtl_freeCtr {c : Nat} {x : MemCtl} {s : State} : (setMemCtl c x s).freeCtr = s.freeCtr := rfl
@[simp] theorem setMemCtl_now {c : Nat} {x : MemCtl} {s : State} : (setMemCtl c x s).now = s.now := rfl
@[simp] theorem setMemCtl_regs {c : Nat} {x : MemCtl} {s : State} : (setMemCtl c x s).regs = s.regs := rfl
@[simp] theorem setMemCtl_snaps {c : Nat} {x : MemCtl} {s : State} : (setMemCtl c x s).snaps = s.snaps := rfl
@[simp] theorem setMemCtl_comp {c : Nat} {x : MemCtl} {s : State} : (setMemCtl c x s).comp = s.comp := rfl
@[simp] theorem setMemCtl_icu {c : Nat} {x : MemCtl} {s : State} : (setMemCtl c x s).icu = s.icu := rfl
@[simp] theorem setMemCtl_pwr {c : Nat} {x : MemCtl} {s : State} : (setMemCtl c x s).pwr = s.pwr := rfl
@[simp] theorem setMemCtl_bc {c : Nat} {x : MemCtl} {s : State} : (setMemCtl c x s).bc = s.bc := rfl
@[simp] theorem setMemCtl_flash {c : Nat} {x : MemCtl} {s : State} : (setMemCtl c x s).flash = s.flash := rfl
@[simp] theorem setMemCtl_cmd {c : Nat} {x : MemCtl} {s : State} : (setMemCtl c x s).cmd = s.cmd := rfl
@[simp] theorem setMemCtl_staged {c : Nat} {x : MemCtl} {s : State} : (setMemCtl c x s).staged = s.staged := rfl
@[simp] theorem setMemCtl_clock {c : Nat} {x : MemCtl} {s : State} : (setMemCtl c x s).clock = s.clock := rfl
@[simp] theorem setMemCtl_pools {c : Nat} {x : MemCtl} {s : State} : (setMemCtl c x s).pools = s.pools := rfl
@[simp] theorem setMemCtl_chans {c : Nat} {x : MemCtl} {s : State} : (setMemCtl c x s).chans = s.chans := rfl
@[simp] theorem setMemCtl_dmaTurn {c : Nat} {x : MemCtl} {s : State} : (setMemCtl c x s).dmaTurn = s.dmaTurn := rfl
@[simp] theorem setMemCtl_tap {c : Nat} {x : MemCtl} {s : State} : (setMemCtl c x s).tap = s.tap := rfl
@[simp] theorem setMemCtl_blocks {c : Nat} {x : MemCtl} {s : State} : (setMemCtl c x s).blocks = s.blocks := rfl
@[simp] theorem setMemCtl_regions {c : Nat} {x : MemCtl} {s : State} : (setMemCtl c x s).regions = s.regions := rfl
@[simp] theorem setMemCtl_injs {c : Nat} {x : MemCtl} {s : State} : (setMemCtl c x s).injs = s.injs := rfl
@[simp] theorem setMemCtl_faultAt {c : Nat} {x : MemCtl} {s : State} : (setMemCtl c x s).faultAt = s.faultAt := rfl
@[simp] theorem setMemCtl_pipes {c : Nat} {x : MemCtl} {s : State} : (setMemCtl c x s).pipes = s.pipes := rfl
@[simp] theorem setMemCtl_lanes {c : Nat} {x : MemCtl} {s : State} : (setMemCtl c x s).lanes = s.lanes := rfl
@[simp] theorem setMemCtl_ring {c : Nat} {x : MemCtl} {s : State} : (setMemCtl c x s).ring = s.ring := rfl
@[simp] theorem setMemCtl_ports {c : Nat} {x : MemCtl} {s : State} : (setMemCtl c x s).ports = s.ports := rfl
@[simp] theorem setMemCtl_targets {c : Nat} {x : MemCtl} {s : State} : (setMemCtl c x s).targets = s.targets := rfl
@[simp] theorem setMemCtl_cxl {c : Nat} {x : MemCtl} {s : State} : (setMemCtl c x s).cxl = s.cxl := rfl
@[simp] theorem setMemCtl_parsed {c : Nat} {x : MemCtl} {s : State} : (setMemCtl c x s).parsed = s.parsed := rfl
@[simp] theorem setMemCtl_decoded {c : Nat} {x : MemCtl} {s : State} : (setMemCtl c x s).decoded = s.decoded := rfl
@[simp] theorem rd_setMemCtl {p_ : Nat} {c : Nat} {x : MemCtl} {s : State} : rd p_ (setMemCtl c x s) = rd p_ s := rfl
@[simp] theorem fget_setMemCtl {p_ : Nat} {f_ : Fld} {c : Nat} {x : MemCtl} {s : State} : fget p_ f_ (setMemCtl c x s) = fget p_ f_ s := rfl

@[simp] theorem setMemChannel_pending {c : Nat} {ch : Nat} {x : MemChannel} {s : State} : (setMemChannel c ch x s).pending = s.pending := rfl
@[simp] theorem setMemChannel_outbox {c : Nat} {ch : Nat} {x : MemChannel} {s : State} : (setMemChannel c ch x s).outbox = s.outbox := rfl
@[simp] theorem setMemChannel_freeCtr {c : Nat} {ch : Nat} {x : MemChannel} {s : State} : (setMemChannel c ch x s).freeCtr = s.freeCtr := rfl
@[simp] theorem setMemChannel_now {c : Nat} {ch : Nat} {x : MemChannel} {s : State} : (setMemChannel c ch x s).now = s.now := rfl
@[simp] theorem setMemChannel_regs {c : Nat} {ch : Nat} {x : MemChannel} {s : State} : (setMemChannel c ch x s).regs = s.regs := rfl
@[simp] theorem setMemChannel_snaps {c : Nat} {ch : Nat} {x : MemChannel} {s : State} : (setMemChannel c ch x s).snaps = s.snaps := rfl
@[simp] theorem setMemChannel_comp {c : Nat} {ch : Nat} {x : MemChannel} {s : State} : (setMemChannel c ch x s).comp = s.comp := rfl
@[simp] theorem setMemChannel_icu {c : Nat} {ch : Nat} {x : MemChannel} {s : State} : (setMemChannel c ch x s).icu = s.icu := rfl
@[simp] theorem setMemChannel_pwr {c : Nat} {ch : Nat} {x : MemChannel} {s : State} : (setMemChannel c ch x s).pwr = s.pwr := rfl
@[simp] theorem setMemChannel_bc {c : Nat} {ch : Nat} {x : MemChannel} {s : State} : (setMemChannel c ch x s).bc = s.bc := rfl
@[simp] theorem setMemChannel_flash {c : Nat} {ch : Nat} {x : MemChannel} {s : State} : (setMemChannel c ch x s).flash = s.flash := rfl
@[simp] theorem setMemChannel_cmd {c : Nat} {ch : Nat} {x : MemChannel} {s : State} : (setMemChannel c ch x s).cmd = s.cmd := rfl
@[simp] theorem setMemChannel_staged {c : Nat} {ch : Nat} {x : MemChannel} {s : State} : (setMemChannel c ch x s).staged = s.staged := rfl
@[simp] theorem setMemChannel_clock {c : Nat} {ch : Nat} {x : MemChannel} {s : State} : (setMemChannel c ch x s).clock = s.clock := rfl
@[simp] theorem setMemChannel_pools {c : Nat} {ch : Nat} {x : MemChannel} {s : State} : (setMemChannel c ch x s).pools = s.pools := rfl
@[simp] theorem setMemChannel_chans {c : Nat} {ch : Nat} {x : MemChannel} {s : State} : (setMemChannel c ch x s).chans = s.chans := rfl
@[simp] theorem setMemChannel_dmaTurn {c : Nat} {ch : Nat} {x : MemChannel} {s : State} : (setMemChannel c ch x s).dmaTurn = s.dmaTurn := rfl
@[simp] theorem setMemChannel_tap {c : Nat} {ch : Nat} {x : MemChannel} {s : State} : (setMemChannel c ch x s).tap = s.tap := rfl
@[simp] theorem setMemChannel_blocks {c : Nat} {ch : Nat} {x : MemChannel} {s : State} : (setMemChannel c ch x s).blocks = s.blocks := rfl
@[simp] theorem setMemChannel_regions {c : Nat} {ch : Nat} {x : MemChannel} {s : State} : (setMemChannel c ch x s).regions = s.regions := rfl
@[simp] theorem setMemChannel_injs {c : Nat} {ch : Nat} {x : MemChannel} {s : State} : (setMemChannel c ch x s).injs = s.injs := rfl
@[simp] theorem setMemChannel_faultAt {c : Nat} {ch : Nat} {x : MemChannel} {s : State} : (setMemChannel c ch x s).faultAt = s.faultAt := rfl
@[simp] theorem setMemChannel_pipes {c : Nat} {ch : Nat} {x : MemChannel} {s : State} : (setMemChannel c ch x s).pipes = s.pipes := rfl
@[simp] theorem setMemChannel_lanes {c : Nat} {ch : Nat} {x : MemChannel} {s : State} : (setMemChannel c ch x s).lanes = s.lanes := rfl
@[simp] theorem setMemChannel_ring {c : Nat} {ch : Nat} {x : MemChannel} {s : State} : (setMemChannel c ch x s).ring = s.ring := rfl
@[simp] theorem setMemChannel_ports {c : Nat} {ch : Nat} {x : MemChannel} {s : State} : (setMemChannel c ch x s).ports = s.ports := rfl
@[simp] theorem setMemChannel_targets {c : Nat} {ch : Nat} {x : MemChannel} {s : State} : (setMemChannel c ch x s).targets = s.targets := rfl
@[simp] theorem setMemChannel_cxl {c : Nat} {ch : Nat} {x : MemChannel} {s : State} : (setMemChannel c ch x s).cxl = s.cxl := rfl
@[simp] theorem setMemChannel_parsed {c : Nat} {ch : Nat} {x : MemChannel} {s : State} : (setMemChannel c ch x s).parsed = s.parsed := rfl
@[simp] theorem setMemChannel_decoded {c : Nat} {ch : Nat} {x : MemChannel} {s : State} : (setMemChannel c ch x s).decoded = s.decoded := rfl
@[simp] theorem rd_setMemChannel {p_ : Nat} {c : Nat} {ch : Nat} {x : MemChannel} {s : State} : rd p_ (setMemChannel c ch x s) = rd p_ s := rfl
@[simp] theorem fget_setMemChannel {p_ : Nat} {f_ : Fld} {c : Nat} {ch : Nat} {x : MemChannel} {s : State} : fget p_ f_ (setMemChannel c ch x s) = fget p_ f_ s := rfl

@[simp] theorem setPseudo_pending {c : Nat} {ch : Nat} {p : Nat} {x : Pseudo} {s : State} : (setPseudo c ch p x s).pending = s.pending := rfl
@[simp] theorem setPseudo_outbox {c : Nat} {ch : Nat} {p : Nat} {x : Pseudo} {s : State} : (setPseudo c ch p x s).outbox = s.outbox := rfl
@[simp] theorem setPseudo_freeCtr {c : Nat} {ch : Nat} {p : Nat} {x : Pseudo} {s : State} : (setPseudo c ch p x s).freeCtr = s.freeCtr := rfl
@[simp] theorem setPseudo_now {c : Nat} {ch : Nat} {p : Nat} {x : Pseudo} {s : State} : (setPseudo c ch p x s).now = s.now := rfl
@[simp] theorem setPseudo_regs {c : Nat} {ch : Nat} {p : Nat} {x : Pseudo} {s : State} : (setPseudo c ch p x s).regs = s.regs := rfl
@[simp] theorem setPseudo_snaps {c : Nat} {ch : Nat} {p : Nat} {x : Pseudo} {s : State} : (setPseudo c ch p x s).snaps = s.snaps := rfl
@[simp] theorem setPseudo_comp {c : Nat} {ch : Nat} {p : Nat} {x : Pseudo} {s : State} : (setPseudo c ch p x s).comp = s.comp := rfl
@[simp] theorem setPseudo_icu {c : Nat} {ch : Nat} {p : Nat} {x : Pseudo} {s : State} : (setPseudo c ch p x s).icu = s.icu := rfl
@[simp] theorem setPseudo_pwr {c : Nat} {ch : Nat} {p : Nat} {x : Pseudo} {s : State} : (setPseudo c ch p x s).pwr = s.pwr := rfl
@[simp] theorem setPseudo_bc {c : Nat} {ch : Nat} {p : Nat} {x : Pseudo} {s : State} : (setPseudo c ch p x s).bc = s.bc := rfl
@[simp] theorem setPseudo_flash {c : Nat} {ch : Nat} {p : Nat} {x : Pseudo} {s : State} : (setPseudo c ch p x s).flash = s.flash := rfl
@[simp] theorem setPseudo_cmd {c : Nat} {ch : Nat} {p : Nat} {x : Pseudo} {s : State} : (setPseudo c ch p x s).cmd = s.cmd := rfl
@[simp] theorem setPseudo_staged {c : Nat} {ch : Nat} {p : Nat} {x : Pseudo} {s : State} : (setPseudo c ch p x s).staged = s.staged := rfl
@[simp] theorem setPseudo_clock {c : Nat} {ch : Nat} {p : Nat} {x : Pseudo} {s : State} : (setPseudo c ch p x s).clock = s.clock := rfl
@[simp] theorem setPseudo_pools {c : Nat} {ch : Nat} {p : Nat} {x : Pseudo} {s : State} : (setPseudo c ch p x s).pools = s.pools := rfl
@[simp] theorem setPseudo_chans {c : Nat} {ch : Nat} {p : Nat} {x : Pseudo} {s : State} : (setPseudo c ch p x s).chans = s.chans := rfl
@[simp] theorem setPseudo_dmaTurn {c : Nat} {ch : Nat} {p : Nat} {x : Pseudo} {s : State} : (setPseudo c ch p x s).dmaTurn = s.dmaTurn := rfl
@[simp] theorem setPseudo_tap {c : Nat} {ch : Nat} {p : Nat} {x : Pseudo} {s : State} : (setPseudo c ch p x s).tap = s.tap := rfl
@[simp] theorem setPseudo_blocks {c : Nat} {ch : Nat} {p : Nat} {x : Pseudo} {s : State} : (setPseudo c ch p x s).blocks = s.blocks := rfl
@[simp] theorem setPseudo_regions {c : Nat} {ch : Nat} {p : Nat} {x : Pseudo} {s : State} : (setPseudo c ch p x s).regions = s.regions := rfl
@[simp] theorem setPseudo_injs {c : Nat} {ch : Nat} {p : Nat} {x : Pseudo} {s : State} : (setPseudo c ch p x s).injs = s.injs := rfl
@[simp] theorem setPseudo_faultAt {c : Nat} {ch : Nat} {p : Nat} {x : Pseudo} {s : State} : (setPseudo c ch p x s).faultAt = s.faultAt := rfl
@[simp] theorem setPseudo_pipes {c : Nat} {ch : Nat} {p : Nat} {x : Pseudo} {s : State} : (setPseudo c ch p x s).pipes = s.pipes := rfl
@[simp] theorem setPseudo_lanes {c : Nat} {ch : Nat} {p : Nat} {x : Pseudo} {s : State} : (setPseudo c ch p x s).lanes = s.lanes := rfl
@[simp] theorem setPseudo_ring {c : Nat} {ch : Nat} {p : Nat} {x : Pseudo} {s : State} : (setPseudo c ch p x s).ring = s.ring := rfl
@[simp] theorem setPseudo_ports {c : Nat} {ch : Nat} {p : Nat} {x : Pseudo} {s : State} : (setPseudo c ch p x s).ports = s.ports := rfl
@[simp] theorem setPseudo_targets {c : Nat} {ch : Nat} {p : Nat} {x : Pseudo} {s : State} : (setPseudo c ch p x s).targets = s.targets := rfl
@[simp] theorem setPseudo_cxl {c : Nat} {ch : Nat} {p : Nat} {x : Pseudo} {s : State} : (setPseudo c ch p x s).cxl = s.cxl := rfl
@[simp] theorem setPseudo_parsed {c : Nat} {ch : Nat} {p : Nat} {x : Pseudo} {s : State} : (setPseudo c ch p x s).parsed = s.parsed := rfl
@[simp] theorem setPseudo_decoded {c : Nat} {ch : Nat} {p : Nat} {x : Pseudo} {s : State} : (setPseudo c ch p x s).decoded = s.decoded := rfl
@[simp] theorem rd_setPseudo {p_ : Nat} {c : Nat} {ch : Nat} {p : Nat} {x : Pseudo} {s : State} : rd p_ (setPseudo c ch p x s) = rd p_ s := rfl
@[simp] theorem fget_setPseudo {p_ : Nat} {f_ : Fld} {c : Nat} {ch : Nat} {p : Nat} {x : Pseudo} {s : State} : fget p_ f_ (setPseudo c ch p x s) = fget p_ f_ s := rfl

@[simp] theorem raise_pending {src : Nat} {s : State} : (raise src s).pending = s.pending := by unfold raise; dsimp only; split <;> rfl
@[simp] theorem raise_outbox {src : Nat} {s : State} : (raise src s).outbox = s.outbox := by unfold raise; dsimp only; split <;> rfl
@[simp] theorem raise_freeCtr {src : Nat} {s : State} : (raise src s).freeCtr = s.freeCtr := by unfold raise; dsimp only; split <;> rfl
@[simp] theorem raise_now {src : Nat} {s : State} : (raise src s).now = s.now := by unfold raise; dsimp only; split <;> rfl
@[simp] theorem raise_snaps {src : Nat} {s : State} : (raise src s).snaps = s.snaps := by unfold raise; dsimp only; split <;> rfl
@[simp] theorem raise_comp {src : Nat} {s : State} : (raise src s).comp = s.comp := by unfold raise; dsimp only; split <;> rfl
@[simp] theorem raise_icu {src : Nat} {s : State} : (raise src s).icu = s.icu := by unfold raise; dsimp only; split <;> rfl
@[simp] theorem raise_pwr {src : Nat} {s : State} : (raise src s).pwr = s.pwr := by unfold raise; dsimp only; split <;> rfl
@[simp] theorem raise_bc {src : Nat} {s : State} : (raise src s).bc = s.bc := by unfold raise; dsimp only; split <;> rfl
@[simp] theorem raise_flash {src : Nat} {s : State} : (raise src s).flash = s.flash := by unfold raise; dsimp only; split <;> rfl
@[simp] theorem raise_cmd {src : Nat} {s : State} : (raise src s).cmd = s.cmd := by unfold raise; dsimp only; split <;> rfl
@[simp] theorem raise_staged {src : Nat} {s : State} : (raise src s).staged = s.staged := by unfold raise; dsimp only; split <;> rfl
@[simp] theorem raise_clock {src : Nat} {s : State} : (raise src s).clock = s.clock := by unfold raise; dsimp only; split <;> rfl
@[simp] theorem raise_fs {src : Nat} {s : State} : (raise src s).fs = s.fs := by unfold raise; dsimp only; split <;> rfl
@[simp] theorem raise_pools {src : Nat} {s : State} : (raise src s).pools = s.pools := by unfold raise; dsimp only; split <;> rfl
@[simp] theorem raise_chans {src : Nat} {s : State} : (raise src s).chans = s.chans := by unfold raise; dsimp only; split <;> rfl
@[simp] theorem raise_dmaTurn {src : Nat} {s : State} : (raise src s).dmaTurn = s.dmaTurn := by unfold raise; dsimp only; split <;> rfl
@[simp] theorem raise_tap {src : Nat} {s : State} : (raise src s).tap = s.tap := by unfold raise; dsimp only; split <;> rfl
@[simp] theorem raise_blocks {src : Nat} {s : State} : (raise src s).blocks = s.blocks := by unfold raise; dsimp only; split <;> rfl
@[simp] theorem raise_regions {src : Nat} {s : State} : (raise src s).regions = s.regions := by unfold raise; dsimp only; split <;> rfl
@[simp] theorem raise_injs {src : Nat} {s : State} : (raise src s).injs = s.injs := by unfold raise; dsimp only; split <;> rfl
@[simp] theorem raise_faultAt {src : Nat} {s : State} : (raise src s).faultAt = s.faultAt := by unfold raise; dsimp only; split <;> rfl
@[simp] theorem raise_pipes {src : Nat} {s : State} : (raise src s).pipes = s.pipes := by unfold raise; dsimp only; split <;> rfl
@[simp] theorem raise_lanes {src : Nat} {s : State} : (raise src s).lanes = s.lanes := by unfold raise; dsimp only; split <;> rfl
@[simp] theorem raise_ring {src : Nat} {s : State} : (raise src s).ring = s.ring := by unfold raise; dsimp only; split <;> rfl
@[simp] theorem raise_ports {src : Nat} {s : State} : (raise src s).ports = s.ports := by unfold raise; dsimp only; split <;> rfl
@[simp] theorem raise_targets {src : Nat} {s : State} : (raise src s).targets = s.targets := by unfold raise; dsimp only; split <;> rfl
@[simp] theorem raise_cxl {src : Nat} {s : State} : (raise src s).cxl = s.cxl := by unfold raise; dsimp only; split <;> rfl
@[simp] theorem raise_parsed {src : Nat} {s : State} : (raise src s).parsed = s.parsed := by unfold raise; dsimp only; split <;> rfl
@[simp] theorem raise_decoded {src : Nat} {s : State} : (raise src s).decoded = s.decoded := by unfold raise; dsimp only; split <;> rfl

end Sys2Proof.Machine
end

