-- ==== Sys2Proof/Laws/Frames.lean ====
section
/-! SUPPORT. How "only these registers change" goes through the register operations and the shapes that meanings are written in. -/

namespace Sys2Proof

open Sys2Proof.Machine

theorem OnlyRegs.refl {l : List Nat} {s : State} : OnlyRegs l s s := ⟨rfl, fun _ _ => rfl⟩

theorem OnlyRegs.trans {l : List Nat} {s t u : State} (h1 : OnlyRegs l s t) (h2 : OnlyRegs l t u) : OnlyRegs l s u :=
  ⟨h2.1.trans (congrArg (fun x : State => { x with regs := u.regs }) h1.1), fun o ho => (h2.2 o ho).trans (h1.2 o ho)⟩

/-- More registers may change than do. -/
theorem OnlyRegs.mono {l m : List Nat} {s t : State} (h : OnlyRegs l s t) (hl : ∀ o ∈ l, o ∈ m) : OnlyRegs m s t :=
  ⟨h.1, fun o ho => h.2 o fun hm => ho (hl o hm)⟩

theorem OnlyRegs.wr {l : List Nat} {p : Nat} {w : Word} {s t : State} (h : OnlyRegs l s t) (hp : p ∈ l) : OnlyRegs l s (wr p w t) :=
  h.trans ⟨rfl, fun _ ho => rd_wr_ne fun e => ho (e ▸ hp)⟩

theorem OnlyRegs.fput {l : List Nat} {p v : Nat} {f : Fld} {s t : State} (h : OnlyRegs l s t) (hp : p ∈ l) : OnlyRegs l s (fput p f v t) :=
  h.wr hp

theorem OnlyRegs.fset {l : List Nat} {p : Nat} {f : Fld} {s t : State} (h : OnlyRegs l s t) (hp : p ∈ l) : OnlyRegs l s (fset p f t) :=
  h.wr hp

theorem OnlyRegs.fclr {l : List Nat} {p : Nat} {f : Fld} {s t : State} (h : OnlyRegs l s t) (hp : p ∈ l) : OnlyRegs l s (fclr p f t) :=
  h.wr hp

theorem OnlyRegs.bump {l : List Nat} {p : Nat} {f : Fld} {s t : State} (h : OnlyRegs l s t) (hp : p ∈ l) : OnlyRegs l s (bump p f t) :=
  h.wr hp

theorem OnlyRegs.bumpWrap {l : List Nat} {p : Nat} {f : Fld} {s t : State} (h : OnlyRegs l s t) (hp : p ∈ l) :
    OnlyRegs l s (bumpWrap p f t) := h.wr hp

theorem OnlyRegs.raise {l : List Nat} {n : Nat} {s t : State} (h : OnlyRegs l s t) (hn : Reg.icuSrcStat n ∈ l) :
    OnlyRegs l s (raise n t) := by
  unfold Machine.raise
  dsimp only
  split <;> exact h.wr hn

theorem OnlyRegs.ite {l : List Nat} {c : Prop} [Decidable c] {s t u : State} (ht : OnlyRegs l s t) (hu : OnlyRegs l s u) :
    OnlyRegs l s (if c then t else u) := by
  split <;> assumption

theorem OnlyRegs.foldl {α : Type} {l : List Nat} {f : State → α → State} {s : State} (es : List α)
    (hf : ∀ t, ∀ e ∈ es, OnlyRegs l s t → OnlyRegs l s (f t e)) {t : State} (h : OnlyRegs l s t) : OnlyRegs l s (es.foldl f t) := by
  induction es generalizing t with
  | nil => exact h
  | cons e es ih => exact ih (fun t x hx => hf t x (.tail _ hx)) (hf _ _ (.head _) h)

end Sys2Proof
end

