-- ==== Sys2Proof/Laws/KeepsClock.lean ====
section
/-! SUPPORT. Every operation keeps the canonical form of a state: DMA, Base Camp, faults, the raster clock and the schedule. -/

namespace Sys2Proof.Machine

open Sys2Proof

/-! ### Dma -/

theorem setChan_canonical {c : Nat} {x : Chan} {s : State} (hc : Canonical s) :
    Canonical (setChan c x s) := by
  unfold setChan
  exact
    .upd hc

theorem setDmaState_canonical {c : Nat} {v : Nat} {s : State} (hc : Canonical s) :
    Canonical (setDmaState c v s) := by
  unfold setDmaState
  exact
    fput_canonical hc

theorem setDmaCur_canonical {c : Nat} {v : Nat} {s : State} (hc : Canonical s) :
    Canonical (setDmaCur c v s) := by
  unfold setDmaCur
  exact
    wr64_canonical hc

theorem ptrWrite_canonical {c : Nat} {p : Nat} {bytes : List (Byte × Bool)} {s : State} (hc : Canonical s) :
    Canonical (ptrWrite c p bytes s) := by
  unfold ptrWrite
  exact
    .ite (writeTagged_canonical hc) (setChan_canonical (emit_canonical hc))

theorem descWrite_canonical {c : Nat} {p : Nat} {bytes : List Byte} {s : State} (hc : Canonical s) :
    Canonical (descWrite c p bytes s) := by
  unfold descWrite
  exact
    .ite (writeTagged_canonical hc) (.ite (emit_canonical hc) (emit_canonical hc))

theorem writeStatus_canonical {c : Nat} {code : Nat} {s : State} (hc : Canonical s) :
    Canonical (writeStatus c code s) := by
  unfold writeStatus
  exact
    descWrite_canonical hc

theorem dmaHalt_canonical {c : Nat} {code : Nat} {status : Bool} {s : State} (hc : Canonical s) :
    Canonical (dmaHalt c code status s) := by
  unfold dmaHalt
  exact
    have h1 : Canonical _ := .ite (writeStatus_canonical hc) hc
    have h2 : Canonical _ := setDmaState_canonical (fclr_canonical h1)
    have h3 : Canonical _ := fput_canonical (fset_canonical h2)
    raise_canonical (setChan_canonical h3)

theorem turnDone_canonical {c : Nat} {n : Nat} {s : State} (hc : Canonical s) :
    Canonical (turnDone c n s) := by
  unfold turnDone
  exact
    have h1 : Canonical _ := setChan_canonical hc
    bumpPair_canonical (.upd h1)

theorem poisonEvent_canonical {c : Nat} {s : State} (hc : Canonical s) :
    Canonical (poisonEvent c s) := by
  unfold poisonEvent
  exact
    .ite hc (raise_canonical (fset_canonical (setChan_canonical hc)))

theorem startRead_canonical {c : Nat} {s : State} (hc : Canonical s) :
    Canonical (startRead c s) := by
  unfold startRead
  exact
    setChan_canonical hc

theorem doorbell_canonical {c : Nat} {s : State} (hc : Canonical s) :
    Canonical (doorbell c s) := by
  unfold doorbell
  exact
    .ite (fset_canonical hc) (.ite (startRead_canonical (setDmaState_canonical (setDmaCur_canonical hc))) (.ite (startRead_canonical hc) hc))

theorem dmaPoll_canonical {c : Nat} {s : State} (hc : Canonical s) :
    Canonical (dmaPoll c s) := by
  unfold dmaPoll
  exact
    .ite (startRead_canonical hc) hc

theorem descArrived_canonical {c : Nat} {d : Desc} {s : State} (hc : Canonical s) :
    Canonical (descArrived c d s) := by
  unfold descArrived
  exact
    .ite (
      have h1 : Canonical _ := setDmaState_canonical (setChan_canonical hc)
      .ite h1 (dmaHalt_canonical h1)) (.ite (fclr_canonical hc) (setDmaState_canonical (setChan_canonical hc)))

theorem descFetch_canonical {c : Nat} {h : HostRead} {s : State} (hc : Canonical s) :
    Canonical (descFetch c h s) := by
  unfold descFetch
  exact
    .ite hc (.ite (dmaHalt_canonical hc) (.ite (dmaHalt_canonical hc) (.ite hc (.ite (
      have h1 : Canonical (_ : _ × State).2 := readBytes_canonical hc
      .ite (dmaHalt_canonical h1) (descArrived_canonical h1)) (.ite (setChan_canonical hc) (
      have h2 : Canonical _ := emit_canonical hc
      by
        extract_lets
        split
        · exact descArrived_canonical (stepFree_canonical h2)
        · exact dmaHalt_canonical h2))))))

theorem ptrRead_canonical {c : Nat} {p : Nat} {n : Nat} {h : HostRead} {s : State} (hc : Canonical s) :
    Canonical (ptrRead c p n h s).2 := by
  unfold ptrRead
  exact
    .ite2 (
      have h1 : Canonical (_ : _ × State).2 := readTagged_canonical hc
      h1) (
      have h2 : Canonical _ := emit_canonical hc
      by
        extract_lets
        split
        · exact stepFree_canonical h2
        · exact stepFree_canonical h2
        · exact h2)

theorem moveBytes_canonical {c n : Nat} {h : HostRead} {s : State} (hc : Canonical s) : Canonical (moveBytes c n h s) := by
  unfold moveBytes
  extract_lets x e r
  have h1 : Canonical r.2 := .ite2 hc (ptrRead_canonical hc)
  clear_value r
  split
  · next s1 => exact dmaHalt_canonical h1
  · next l s1 =>
    have h2 : Canonical (ptrWrite c (e.2 + x.moved) l s1) := ptrWrite_canonical h1
    exact .ite (dmaHalt_canonical h2) (turnDone_canonical (.ite (poisonEvent_canonical h2) h2))

theorem moveTurn_canonical {c : Nat} {h : HostRead} {s : State} (hc : Canonical s) :
    Canonical (moveTurn c h s) := by
  unfold moveTurn
  exact
    .ite (setChan_canonical hc) (.ite hc (moveBytes_canonical hc))

theorem dmaMove_canonical {op : Nat} {c : Nat} {h : HostRead} {s : State} (hc : Canonical s) :
    Canonical (dmaMove op c h s) := by
  unfold dmaMove
  exact
    .ite hc (.ite (dmaHalt_canonical hc) (moveTurn_canonical hc))

theorem dmaCopy_canonical {c : Nat} {h : HostRead} {s : State} (hc : Canonical s) :
    Canonical (dmaCopy c h s) := by
  unfold dmaCopy
  exact
    dmaMove_canonical hc

theorem dmaFill_canonical {c : Nat} {h : HostRead} {s : State} (hc : Canonical s) :
    Canonical (dmaFill c h s) := by
  unfold dmaFill
  exact
    dmaMove_canonical hc

theorem dmaFromPool_canonical {c : Nat} {h : HostRead} {s : State} (hc : Canonical s) :
    Canonical (dmaFromPool c h s) := by
  unfold dmaFromPool
  exact
    dmaMove_canonical hc

theorem toPoolAlloc_canonical {c : Nat} {s : State} (hc : Canonical s) :
    Canonical (toPoolAlloc c s) := by
  unfold toPoolAlloc
  exact
    .ite (dmaHalt_canonical (allocBuf_canonical hc)) (.ite (addWait_canonical hc) (
      have h1 : Canonical (_ : _ × State).2 := allocBuf_canonical hc
      .ite (dropWait_canonical (setChan_canonical h1)) (waitAgain_canonical h1)))

theorem dmaToPool_canonical {c : Nat} {h : HostRead} {s : State} (hc : Canonical s) :
    Canonical (dmaToPool c h s) := by
  unfold dmaToPool
  exact
    .ite hc (.ite (dmaHalt_canonical hc) (.ite (setChan_canonical hc) (
      have h1 : Canonical _ := .ite (toPoolAlloc_canonical hc) hc
      .ite h1 (moveTurn_canonical h1))))

theorem freeAfter_canonical {c : Nat} {s : State} (hc : Canonical s) :
    Canonical (freeAfter c s) := by
  unfold freeAfter
  exact
    .ite (
      have h1 : Canonical _ := unitFree_canonical hc
      .ite h1 (setChan_canonical h1)) hc

theorem nextDesc_canonical {c : Nat} {d : Desc} {s : State} (hc : Canonical s) :
    Canonical (nextDesc c d s) := by
  unfold nextDesc
  exact
    have h1 : Canonical _ := setChan_canonical hc
    .ite (setDmaState_canonical h1) (startRead_canonical (setDmaCur_canonical h1))

theorem writeback_canonical {c : Nat} {h : HostRead} {s0 : State} (hc : Canonical s0) :
    Canonical (writeback c h s0) := by
  unfold writeback
  exact
    .ite hc (.ite (setChan_canonical hc) (.ite hc (
      have h2 : Canonical _ := .foldl (fun _ _ h1 => (emit_canonical h1)) _ hc
      .ite (dmaHalt_canonical h2) (
        have h3 : Canonical _ := freeAfter_canonical h2
        have h4 : Canonical _ := writeStatus_canonical h3
        .ite (dmaHalt_canonical h4) (
          have h5 : Canonical _ := descWrite_canonical h4
          have h6 : Canonical _ := fput_canonical (bumpWrap_canonical h5)
          nextDesc_canonical (raiseWhen_canonical h6))))))

theorem dmaCtlWrite_canonical {c : Nat} {v : Word} {s : State} (hc : Canonical s) :
    Canonical (dmaCtlWrite c v s) := by
  unfold dmaCtlWrite
  exact
    have h1 : Canonical _ := fput_canonical hc
    .ite (.ite (setChan_canonical (fclr_canonical h1)) h1) (.ite h1 (
      have h2 : Canonical _ := wr_canonical h1
      .ite h2 (
        have h3 : Canonical _ := fset_canonical h2
        have h4 : Canonical _ := setChan_canonical h3
        .ite (startRead_canonical (setDmaState_canonical h4)) (setDmaState_canonical h4))))

theorem stopInside_canonical {c : Nat} {s : State} (hc : Canonical s) :
    Canonical (stopInside c s) := by
  unfold stopInside
  exact
    have h1 : Canonical _ := writeStatus_canonical (fput_canonical hc)
    have h2 : Canonical _ := .ite h1 (unitFree_canonical h1)
    dropWait_canonical (setDmaState_canonical (setChan_canonical h2))

theorem dmaStop_canonical {c : Nat} {moved : Nat} {h : HostRead} {s : State} (hc : Canonical s) :
    Canonical (dmaStop c moved h s) := by
  unfold dmaStop
  exact
    .ite hc (.ite (.ite hc (
      have h1 : Canonical _ := .ite hc (moveBytes_canonical hc)
      .ite (stopInside_canonical h1) h1)) (setDmaState_canonical (setChan_canonical hc)))

/-! ### BaseCamp -/

theorem logWrite_canonical {kind : Nat} {arg : Nat} {data0 : Nat} {data1 : Nat} {s : State} (hc : Canonical s) :
    Canonical (logWrite kind arg data0 data1 s) := by
  unfold logWrite
  exact
    wr_canonical (.upd hc)

theorem putLogData_canonical {l : List Word} {s : State} (hc : Canonical s) :
    Canonical (putLogData l s) := by
  unfold putLogData
  exact
    .foldl (fun _ _ h1 => (wr_canonical h1)) _ hc

theorem logIdxWrite_canonical {k : Word} {s : State} (hc : Canonical s) :
    Canonical (logIdxWrite k s) := by
  unfold logIdxWrite
  exact
    have h1 : Canonical _ := wr_canonical hc
    .ite (fclr_canonical (putLogData_canonical h1)) (fset_canonical (putLogData_canonical h1))

theorem ringOff_canonical {s : State} (hc : Canonical s) :
    Canonical (ringOff s) := by
  unfold ringOff
  exact
    have h1 : Canonical _ := fput_canonical hc
    .upd h1

theorem ringLaneDark_canonical {l : Nat} {s : State} (hc : Canonical s) :
    Canonical (ringLaneDark l s) := by
  unfold ringLaneDark
  exact
    .ite hc (
      have h1 : Canonical _ := fclr_canonical (fclr_canonical (fput_canonical hc))
      .ite (raise_canonical (bump_canonical (fset_canonical h1))) h1)

theorem ringDark_canonical {s : State} (hc : Canonical s) :
    Canonical (ringDark s) := by
  unfold ringDark
  exact
    have h2 : Canonical _ := .foldl (fun _ _ h1 => (ringLaneDark_canonical h1)) _ hc
    .ite (raise_canonical (fset_canonical (fclr_canonical h2))) h2

theorem applyMitten_canonical {s : State} (hc : Canonical s) :
    Canonical (applyMitten s) := by
  unfold applyMitten
  exact
    have h1 : Canonical _ := .ite hc (.ite (ringOff_canonical hc) (ringDark_canonical (ringOff_canonical hc)))
    have h2 : Canonical _ := fput_canonical h1
    .upd h2

theorem flashFree_canonical {o n : Nat} {s : State} (hc : Canonical s) : Canonical (flashFree o n s) := by
  induction n generalizing s with
  | zero => exact hc
  | succ n ih => exact ih (.upd hc)

theorem flashCut_canonical {s : State} (hc : Canonical s) :
    Canonical (flashCut s) := by
  unfold flashCut
  exact
    .ite (stepFree_canonical (flashFree_canonical hc)) hc

theorem chipReset_canonical {cause : Nat} {s0 : State} (hc : Canonical s0) : Canonical (chipReset cause s0) := by
  unfold chipReset
  have h1 : smWf regReset (smErase (fun o => !keptByReset o) (flashCut s0).regs) = true :=
    smErase_wf _ (flashCut_canonical hc).1
  exact applyMitten_canonical (logWrite_canonical (fclr_canonical (fclr_canonical
    (.ite (fclr_canonical (fput_canonical (fput_canonical ⟨h1, reset_canonical.2⟩)))
      (fput_canonical (fput_canonical ⟨h1, reset_canonical.2⟩))))))

theorem auxPowerOn_canonical {adsel : Nat} {s : State} : Canonical (auxPowerOn adsel s) :=
  applyMitten_canonical (logWrite_canonical (.upd reset_canonical))

theorem vauxBrownout_canonical {s : State} : Canonical (vauxBrownout s) := .upd reset_canonical

theorem updateRailOk_canonical {s : State} (hc : Canonical s) :
    Canonical (updateRailOk s) := by
  unfold updateRailOk
  exact
    applyMitten_canonical (fput_canonical hc)

theorem railWindowEntry_canonical {r : Rail} {s : State} (hc : Canonical s) :
    Canonical (railWindowEntry r s) := by
  unfold railWindowEntry
  exact
    .ite (updateRailOk_canonical (.upd hc)) hc

theorem bcTrip_canonical {sensor : Nat} {s : State} (hc : Canonical s) :
    Canonical (bcTrip sensor s) := by
  unfold bcTrip
  exact
    .ite hc (
      have h1 : Canonical _ := chipReset_canonical (.upd hc)
      have h2 : Canonical _ := logWrite_canonical h1
      have h3 : Canonical _ := .ite (.upd h2) h2
      updateRailOk_canonical h3)

theorem tripOn_canonical {sensor : Nat} {s : State} (hc : Canonical s) :
    Canonical (tripOn sensor s) := by
  unfold tripOn
  exact
    .ite (bcTrip_canonical hc) hc

theorem railExcursion_canonical {r : Rail} {s : State} (hc : Canonical s) :
    Canonical (railExcursion r s) := by
  unfold railExcursion
  exact
    .ite (
      have h1 : Canonical _ := updateRailOk_canonical (.upd hc)
      .ite h1 (bcTrip_canonical h1)) hc

theorem railEntryTimeout_canonical {r : Rail} {s : State} (hc : Canonical s) :
    Canonical (railEntryTimeout r s) := by
  unfold railEntryTimeout
  exact
    .ite (bcTrip_canonical hc) hc

theorem updateWarn_canonical {s : State} (hc : Canonical s) :
    Canonical (updateWarn s) := by
  unfold updateWarn
  exact
    .ite (
      have h1 : Canonical _ := .upd hc
      .ite h1 (logWrite_canonical (raise_canonical (fset_canonical h1)))) (.ite (by
      split
      · exact .upd hc
      · exact .ite (fclr_canonical hc) hc) (.upd hc))

theorem powerSample_canonical {n : Nat} {v : Int} {s : State} (hc : Canonical s) :
    Canonical (powerSample n v s) := by
  unfold powerSample
  exact
    .ite (.upd hc) hc

theorem railSample_canonical {n : Nat} {v : Int} {s : State} (hc : Canonical s) :
    Canonical (railSample n v s) := by
  unfold railSample
  exact
    by
      split
      · exact hc
      · exact .ite (.upd hc) (.ite hc (.upd hc))

theorem sensorSample_canonical {n : Nat} {v : BitVec 16} {s : State} (hc : Canonical s) :
    Canonical (sensorSample n v s) := by
  unfold sensorSample
  exact
    .ite hc (
      have h1 : Canonical _ := fput_canonical (fput_canonical hc)
      .ite (powerSample_canonical (railSample_canonical h1)) (
        have h2 : Canonical _ := by
          split
          · exact fput_canonical (fput_canonical h1)
          · exact h1
        have h3 : Canonical _ := updateWarn_canonical h2
        .ite (bcTrip_canonical h3) h3))

theorem updatePoints_canonical {s : State} (hc : Canonical s) :
    Canonical (updatePoints s) := by
  unfold updatePoints
  exact
    wr_canonical hc

theorem setRgcState_canonical {r : Nat} {v : Nat} {s : State} (hc : Canonical s) :
    Canonical (setRgcState r v s) := by
  unfold setRgcState
  exact
    fput_canonical hc

theorem powerCapWrite_canonical {v : Word} {s : State} (hc : Canonical s) :
    Canonical (powerCapWrite v s) := by
  unfold powerCapWrite
  exact
    fput_canonical (fput_canonical hc)

theorem smbReply_canonical {addr : Nat} {pec : Bool} {always : Bool} {k : State → State} {s : State} (kk : ∀ {t}, Canonical t → Canonical (k t)) (hc : Canonical s) :
    Canonical (smbReply addr pec always k s) := by
  unfold smbReply
  exact
    .ite hc (.ite (kk hc) (.ite (emit_canonical hc) hc))

theorem smbHold_canonical {on : Bool} {s : State} (hc : Canonical s) :
    Canonical (smbHold on s) := by
  unfold smbHold
  exact
    .ite (.ite hc (fset_canonical (chipReset_canonical (.upd hc)))) (fclr_canonical (.upd hc))

theorem bmcCap_canonical {w : Nat} {s : State} (hc : Canonical s) :
    Canonical (bmcCap w s) := by
  unfold bmcCap
  exact
    fput_canonical (.ite (stepFree_canonical hc) hc)

theorem clearTrip_canonical {s : State} (hc : Canonical s) :
    Canonical (clearTrip s) := by
  unfold clearTrip
  exact
    .ite (applyMitten_canonical (.upd hc)) hc

theorem smbLogRead_canonical {s : State} (hc : Canonical s) :
    Canonical (smbLogRead s) := by
  unfold smbLogRead
  exact
    emit_canonical (.upd hc)

theorem flashHeaderRead_canonical {s : State} (hc : Canonical s) :
    Canonical (flashHeaderRead s) := by
  unfold flashHeaderRead
  exact
    have h1 : Canonical _ := fput_canonical (.upd hc)
    .foldl (fun _ _ h2 => (wr_canonical h2)) _ h1

theorem firmwareLoad_canonical {sigA : Bool} {sigB : Bool} {s : State} (hc : Canonical s) :
    Canonical (firmwareLoad sigA sigB s) := by
  unfold firmwareLoad
  exact
    .ite hc (
      have h1 : Canonical _ := flashHeaderRead_canonical hc
      have h2 : Canonical _ := wr_canonical (fput_canonical h1)
      updateRailOk_canonical (.ite h2 (logWrite_canonical h2)))

/-! ### Flags -/

theorem faultAck_canonical {u : FaultUnit} {v : Word} {s : State} (hc : Canonical s) :
    Canonical (faultAck u v s) := by
  unfold faultAck
  exact
    .ite (wr_canonical hc) (.ite (fput_canonical hc) hc)

theorem autoAck_canonical {u : FaultUnit} {c : Nat} {s : State} (hc : Canonical s) :
    Canonical (autoAck u c s) := by
  unfold autoAck
  exact
    .ite (fput_canonical hc) hc

theorem recordFault_canonical {u : FaultUnit} {injected : Bool} {level : Nat} {f : FaultIn} {place : Nat × Nat} {s : State} (hc : Canonical s) :
    Canonical (recordFault u injected level f place s) := by
  unfold recordFault
  exact
    have h1 : Canonical _ := wr64_canonical hc
    have h2 : Canonical _ := fput_canonical (fput_canonical (fput_canonical (fset_canonical h1)))
    have h3 : Canonical _ := .ite h2 (fset_canonical h2)
    have h4 : Canonical _ := .ite (bump_canonical h3) (bump_canonical h3)
    have h5 : Canonical _ := .ite h4 (logWrite_canonical h4)
    raiseWhen_canonical h5

theorem enterFault_canonical {u : FaultUnit} {f : FaultIn} {place : Nat × Nat} {s : State} (hc : Canonical s) :
    Canonical (enterFault u f place s) := by
  unfold enterFault
  exact
    have h1 : Canonical _ := recordFault_canonical hc
    have h2 : Canonical _ := .upd h1
    .ite h2 (fput_canonical h2)

theorem pipFault_canonical {p : Nat} {f : Fld} {s : State} (hc : Canonical s) :
    Canonical (pipFault p f s) := by
  unfold pipFault
  exact
    raise_canonical (fset_canonical hc)

theorem pipEvent_canonical {p : Nat} {f : Fld} {s : State} (hc : Canonical s) :
    Canonical (pipEvent p f s) := by
  unfold pipEvent
  exact
    raiseWhen_canonical (fset_canonical hc)

theorem pipRefuse_canonical {p : Nat} {r : Nat × Nat} {s : State} (hc : Canonical s) :
    Canonical (pipRefuse p r s) := by
  unfold pipRefuse
  exact
    fput_canonical (fput_canonical hc)

theorem decEvent_canonical {p : Nat} {f : Fld} {s : State} (hc : Canonical s) :
    Canonical (decEvent p f s) := by
  unfold decEvent
  exact
    raiseWhen_canonical (fset_canonical hc)

theorem setPipe_canonical {p : Nat} {x : Pipe} {s : State} (hc : Canonical s) :
    Canonical (setPipe p x s) := by
  unfold setPipe
  exact
    .upd hc

theorem onPipe_canonical {p : Nat} {f : Pipe → Pipe} {s : State} (hc : Canonical s) :
    Canonical (onPipe p f s) := by
  unfold onPipe
  exact
    setPipe_canonical hc

theorem setBlock_canonical {r : Nat} {b : Nat} {x : Block} {s : State} (hc : Canonical s) :
    Canonical (setBlock r b x s) := by
  unfold setBlock
  exact
    .upd hc

theorem onBlock_canonical {r : Nat} {b : Nat} {f : Block → Block} {s : State} (hc : Canonical s) :
    Canonical (onBlock r b f s) := by
  unfold onBlock
  exact
    setBlock_canonical hc

theorem setRegion_canonical {r : Nat} {x : RegionSt} {s : State} (hc : Canonical s) :
    Canonical (setRegion r x s) := by
  unfold setRegion
  exact
    .upd hc

theorem setBlkRole_canonical {r : Nat} {b : Nat} {v : Nat} {s : State} (hc : Canonical s) :
    Canonical (setBlkRole r b v s) := by
  unfold setBlkRole
  exact
    fput_canonical hc

theorem pipeDisable_canonical {p : Nat} {s : State} (hc : Canonical s) :
    Canonical (pipeDisable p s) := by
  unfold pipeDisable
  exact
    have h1 : Canonical _ := onPipe_canonical (fclr_canonical hc)
    .ite (onPipe_canonical (fclr_canonical h1)) h1

theorem cmdFinish_canonical {result : Nat} {s : State} (hc : Canonical s) :
    Canonical (cmdFinish result s) := by
  unfold cmdFinish
  exact
    have h1 : Canonical _ := fput_canonical hc
    have h2 : Canonical _ := fclr_canonical (fclr_canonical h1)
    have h3 : Canonical _ := .ite (fclr_canonical (fput_canonical h2)) h2
    have h4 : Canonical _ := raise_canonical (fset_canonical h3)
    have h5 : Canonical _ := .ite (logWrite_canonical h4) (.ite (logWrite_canonical h4) h4)
    have h6 : Canonical _ := .ite (fclr_canonical h5) h5
    .upd h6

theorem haltSequencers_canonical {s : State} (hc : Canonical s) :
    Canonical (haltSequencers s) := by
  unfold haltSequencers
  exact
    .foldl (fun _ _ h1 => (fput_canonical h1)) _ hc

theorem haltChannels_canonical {s : State} (hc : Canonical s) :
    Canonical (haltChannels s) := by
  unfold haltChannels
  exact
    .foldl (fun _ _ h1 => (setChan_canonical (fput_canonical (setDmaState_canonical h1)))) _ hc

theorem gateRegion_canonical {r : Nat} {s : State} (hc : Canonical s) :
    Canonical (gateRegion r s) := by
  unfold gateRegion
  exact
    have h2 : Canonical _ := .foldl (fun _ _ h1 => (setBlock_canonical h1)) _ hc
    have h4 : Canonical _ := .foldl (fun _ _ h3 => (fput_canonical h3)) _ h2
    setRgcState_canonical (.upd h4)

theorem gateAll_canonical {s : State} (hc : Canonical s) :
    Canonical (gateAll s) := by
  unfold gateAll
  exact
    .foldl (fun _ _ h1 => (gateRegion_canonical h1)) _ hc

theorem lowTrigOut_canonical {s : State} (hc : Canonical s) :
    Canonical (lowTrigOut s) := by
  unfold lowTrigOut
  exact
    .foldl (fun _ _ h1 => (emit_canonical h1)) _ hc

theorem enterSafe_canonical {c : Nat} {unit : Nat} {s : State} (hc : Canonical s) :
    Canonical (enterSafe c unit s) := by
  unfold enterSafe
  exact
    .ite hc (
      have h1 : Canonical _ := haltChannels_canonical (haltSequencers_canonical hc)
      have h2 : Canonical _ := .upd h1
      have h3 : Canonical _ := .ite (cmdFinish_canonical (flashCut_canonical h2)) h2
      have h5 : Canonical _ := .foldl (fun _ _ h4 => (pipRefuse_canonical h4)) _ (.upd h3)
      have h6 : Canonical _ := fput_canonical (fclr_canonical h5)
      have h7 : Canonical _ := lowTrigOut_canonical (gateAll_canonical h6)
      have h8 : Canonical _ := .ite (raise_canonical (fput_canonical h7)) h7
      applyMitten_canonical (logWrite_canonical (raise_canonical (wr_canonical (.upd h8)))))

theorem chipFault_canonical {f : FaultIn} {s : State} (hc : Canonical s) :
    Canonical (chipFault f s) := by
  unfold chipFault
  exact
    have h1 : Canonical _ := enterFault_canonical hc
    .ite (enterSafe_canonical h1) h1

/-! ### Raster -/

theorem setRaster_canonical {d : Nat} {x : Raster} {s : State} (hc : Canonical s) :
    Canonical (setRaster d x s) := by
  unfold setRaster
  exact
    .upd hc

theorem setRckState_canonical {v : Nat} {s : State} (hc : Canonical s) :
    Canonical (setRckState v s) := by
  unfold setRckState
  exact
    fput_canonical hc

theorem selectSource_canonical {v : Nat} {s : State} (hc : Canonical s) :
    Canonical (selectSource v s) := by
  unfold selectSource
  exact
    have h1 : Canonical _ := .upd hc
    wr_canonical (setRckState_canonical (fput_canonical h1))

theorem sourceLost_canonical {s : State} (hc : Canonical s) :
    Canonical (sourceLost s) := by
  unfold sourceLost
  exact
    .ite hc (
      have h1 : Canonical _ := .upd hc
      raise_canonical (fset_canonical (setRckState_canonical h1)))

theorem holdoverTimeout_canonical {s : State} (hc : Canonical s) :
    Canonical (holdoverTimeout s) := by
  unfold holdoverTimeout
  exact
    .ite (selectSource_canonical hc) hc

theorem setPhaseErr_canonical {e : Int} {s : State} (hc : Canonical s) :
    Canonical (setPhaseErr e s) := by
  unfold setPhaseErr
  exact
    wr_canonical (.upd hc)

theorem excursion_canonical {s : State} (hc : Canonical s) :
    Canonical (excursion s) := by
  unfold excursion
  exact
    .ite (setRckState_canonical (.upd hc)) hc

theorem phaseMeasurement_canonical {err : Int} {rate : Int} {s : State} (hc : Canonical s) :
    Canonical (phaseMeasurement err rate s) := by
  unfold phaseMeasurement
  exact
    .ite hc (
      have h1 : Canonical _ := setPhaseErr_canonical hc
      have h2 : Canonical _ := .upd h1
      .ite (setRckState_canonical (.upd h2)) (excursion_canonical h2))

theorem stepTaken_canonical {s : State} (hc : Canonical s) :
    Canonical (stepTaken s) := by
  unfold stepTaken
  exact
    .ite (raise_canonical (fset_canonical hc)) hc

theorem stepTimeBase_canonical {delta : Int} {s : State} (hc : Canonical s) :
    Canonical (stepTimeBase delta s) := by
  unfold stepTimeBase
  exact
    have h1 : Canonical _ := .upd hc
    have h3 : Canonical _ := .foldl (fun _ _ h2 => (setRaster_canonical h2)) _ h1
    stepTaken_canonical h3

theorem relock_canonical {s : State} (hc : Canonical s) :
    Canonical (relock s) := by
  unfold relock
  exact
    .ite (raise_canonical (fset_canonical (.upd hc))) hc

theorem rateUpdate_canonical {s : State} (hc : Canonical s) :
    Canonical (rateUpdate s) := by
  unfold rateUpdate
  exact
    .ite hc (by
      split
      · exact hc
      · exact have h1 : Canonical _ := excursion_canonical hc
        .ite (stepFree_canonical (.upd h1)) (.ite (stepTimeBase_canonical (.upd h1)) (.ite (relock_canonical (.upd h1)) (stepFree_canonical (.upd h1)))))

theorem rckLocked_canonical {s : State} (hc : Canonical s) :
    Canonical (rckLocked s) := by
  unfold rckLocked
  exact
    .ite (setRckState_canonical hc) hc

theorem rckCtlWrite_canonical {v : Word} {s : State} (hc : Canonical s) :
    Canonical (rckCtlWrite v s) := by
  unfold rckCtlWrite
  exact
    have h1 : Canonical _ := wr_canonical hc
    .ite h1 (selectSource_canonical h1)

theorem domOfsWrite_canonical {d : Nat} {v : Word} {s : State} (hc : Canonical s) :
    Canonical (domOfsWrite d v s) := by
  unfold domOfsWrite
  exact
    have h1 : Canonical _ := wr_canonical hc
    .ite (setRaster_canonical h1) (setRaster_canonical h1)

theorem noteValid_canonical {k : Nat} {s : State} (hc : Canonical s) :
    Canonical (noteValid k s) := by
  unfold noteValid
  exact
    .upd hc

theorem refVEdge_canonical {refF : Bool} {s : State} (hc : Canonical s) :
    Canonical (refVEdge refF s) := by
  unfold refVEdge
  exact
    have h1 : Canonical _ := .upd hc
    .ite h1 (
      have h2 : Canonical _ := .upd h1
      .ite (sourceLost_canonical h2) h2)

theorem refHEdge_canonical {s : State} (hc : Canonical s) :
    Canonical (refHEdge s) := by
  unfold refHEdge
  exact
    have h1 : Canonical _ := .upd hc
    by
      extract_lets
      split
      · exact h1
      · exact .ite h1 (.upd h1)

theorem tenEdge_canonical {s : State} (hc : Canonical s) :
    Canonical (tenEdge s) := by
  unfold tenEdge
  exact
    have h1 : Canonical _ := noteValid_canonical hc
    .ite (.upd h1) (.ite (.upd h1) (.upd h1))

theorem refEdge_canonical {input : Nat} {refF : Bool} {s : State} (hc : Canonical s) :
    Canonical (refEdge input refF s) := by
  unfold refEdge
  exact
    by
      split
      · exact refVEdge_canonical hc
      · exact refHEdge_canonical hc
      · exact noteValid_canonical hc
      · exact tenEdge_canonical hc
      · exact hc

theorem checkLoss_canonical {s : State} (hc : Canonical s) :
    Canonical (checkLoss s) := by
  unfold checkLoss
  exact
    .ite (sourceLost_canonical hc) hc

theorem waitCycles_canonical {n : Nat} {w : PoolWait} {s : State} (hc : Canonical s) :
    Canonical (waitCycles n w s) := by
  unfold waitCycles
  exact
    by
      split
      · exact have h1 : Canonical _ := bumpWrapBy_canonical hc
        .ite (bumpWrapBy_canonical h1) h1
      · exact hc

theorem clockCycles_canonical {n : Nat} {s : State} (hc : Canonical s) :
    Canonical (clockCycles n s) := by
  unfold clockCycles
  exact
    .ite (.upd hc) hc

theorem passCycles_canonical {n : Nat} {s : State} (hc : Canonical s) :
    Canonical (passCycles n s) := by
  unfold passCycles
  exact
    .ite hc (
      have h1 : Canonical _ := .ite (.upd hc) hc
      have h2 : Canonical _ := .ite (.upd h1) h1
      .foldl (fun _ _ h3 => (waitCycles_canonical h3)) _ (clockCycles_canonical h2))

/-! ### Operands -/

theorem onAction_canonical {code : Nat} {target : Nat} {k : Action → State → State} {s : State} (kk : ∀ {x0} {t}, Canonical t → Canonical (k x0 t)) (hc : Canonical s) :
    Canonical (onAction code target k s) := by
  unfold onAction
  exact
    by
      split
      · exact hc
      · exact have h1 : Canonical _ := passCycles_canonical hc
        kk (.upd h1)

/-! ### Schedule -/

theorem sendAction_canonical {a : Action} {s : State} (hc : Canonical s) :
    Canonical (sendAction a s) := by
  unfold sendAction
  exact
    .upd hc

theorem hostAction_canonical {d : Nat} {a : Action} {dom : Nat} {s : State} (hc : Canonical s) :
    Canonical (hostAction d a dom s) := by
  unfold hostAction
  exact
    .ite (sendAction_canonical hc) (sendAction_canonical (raise_canonical (fset_canonical hc)))

theorem fireEntry_canonical {d : Nat} {e : DueEntry} {host : Bool} {s : State} (hc : Canonical s) :
    Canonical (fireEntry d e host s) := by
  unfold fireEntry
  exact
    have h1 : Canonical _ := setRaster_canonical hc
    have h2 : Canonical _ := .ite (raise_canonical (fset_canonical (bumpWrap_canonical h1))) h1
    .ite (hostAction_canonical h2) (sendAction_canonical h2)

theorem scheduleFire_canonical {d : Nat} {s : State} (hc : Canonical s) :
    Canonical (scheduleFire d s) := by
  unfold scheduleFire
  exact
    .ite hc (by
      split
      · exact hc
      · exact .ite (fireEntry_canonical hc) hc)

theorem settleWalk_canonical {d : Nat} {s : State} (hc : Canonical s) :
    Canonical (settleWalk d s) := by
  unfold settleWalk
  exact
    .ite hc (setRaster_canonical hc)

theorem fireRest_canonical {d n : Nat} {s : State} (hc : Canonical s) : Canonical (fireRest d n s) := by
  induction n generalizing s with
  | zero => exact hc
  | succ n ih =>
    unfold fireRest
    split
    · exact hc
    · exact ih (fireEntry_canonical hc)

theorem beginFrame_canonical {d : Nat} {s : State} (hc : Canonical s) :
    Canonical (beginFrame d s) := by
  unfold beginFrame
  exact
    have h1 : Canonical _ := setRaster_canonical hc
    have h2 : Canonical _ := raiseWhen_canonical h1
    .ite (stepTaken_canonical h2) h2

theorem domainFrameEnd_canonical {d : Nat} {s : State} (hc : Canonical s) :
    Canonical (domainFrameEnd d s) := by
  unfold domainFrameEnd
  exact
    .ite hc (beginFrame_canonical (fireRest_canonical hc))

theorem startWalk_canonical {d : Nat} {s : State} (hc : Canonical s) :
    Canonical (startWalk d s) := by
  unfold startWalk
  exact
    setRaster_canonical hc

theorem armTriggers_canonical {n : Nat} {s : State} (hc : Canonical s) :
    Canonical (armTriggers n s) := by
  unfold armTriggers
  exact
    .foldl (fun _ _ h1 => (
      have h2 : Canonical _ := settleWalk_canonical h1
      setRaster_canonical h2)) _ hc

theorem latchTrigger_canonical {n : Nat} {s : State} (hc : Canonical s) :
    Canonical (latchTrigger n s) := by
  unfold latchTrigger
  exact
    .ite (wr_canonical (wr_canonical hc)) hc

theorem trigOut_canonical {n : Nat} {d : Nat} {arg : Nat} {s : State} (hc : Canonical s) :
    Canonical (trigOut n d arg s) := by
  unfold trigOut
  exact
    emit_canonical (.upd hc)

theorem trigOutEnd_canonical {n : Nat} {s : State} (hc : Canonical s) :
    Canonical (trigOutEnd n s) := by
  unfold trigOutEnd
  exact
    .ite hc (emit_canonical (.upd hc))

theorem scheduleWrite_canonical {d : Nat} {i : Nat} {k : Nat} {v : Word} {s : State} (hc : Canonical s) :
    Canonical (scheduleWrite d i k v s) := by
  unfold scheduleWrite
  exact
    .ite (wr_canonical (settleWalk_canonical hc)) (accessErr_canonical hc)

end Sys2Proof.Machine
end

