-- ==== Sys2Proof/Laws/KeepsStream.lean ====
section
/-! SUPPORT. Every operation keeps the canonical form of a state: rate control, capture, records, lanes, streams and the ring. -/

namespace Sys2Proof.Machine

open Sys2Proof

/-! ### Capture -/

theorem beginCapture_canonical {p : Nat} {field2 : Bool} {s : State} (hc : Canonical s) :
    Canonical (beginCapture p field2 s) := by
  unfold beginCapture
  exact
    .ite (pipEvent_canonical (setPipe_canonical hc)) (setPipe_canonical hc)

theorem inputFrameStart_canonical {p : Nat} {field2 : Bool} {s : State} (hc : Canonical s) :
    Canonical (inputFrameStart p field2 s) := by
  unfold inputFrameStart
  exact
    .ite hc (.ite (onPipe_canonical hc) (beginCapture_canonical hc))

theorem finishCapture_canonical {p : Nat} {k : Nat} {c : CapPic} {s : State} (hc : Canonical s) :
    Canonical (finishCapture p k c s) := by
  unfold finishCapture
  exact
    onPipe_canonical hc

theorem captureLine_canonical {p : Nat} {y : Nat} {i : Nat} {l : LineIn} {s : State} (hc : Canonical s) :
    Canonical (captureLine p y i l s) := by
  unfold captureLine
  exact
    .ite hc (.ite hc (.ite (finishCapture_canonical hc) (setPipe_canonical hc)))

theorem giveUpLines_canonical {p : Nat} {k : Nat} {lo : Nat} {hi : Nat} {s : State} (hc : Canonical s) :
    Canonical (giveUpLines p k lo hi s).1 := by
  unfold giveUpLines
  exact .ite1 hc (pipEvent_canonical (setPipe_canonical hc))

theorem clipCapture_canonical {p : Nat} {field2 : Bool} {s : State} (hc : Canonical s) :
    Canonical (clipCapture p field2 s) := by
  unfold clipCapture
  exact
    by
      split
      · exact hc
      · exact .ite hc (by
          split
          · exact hc
          · exact have h1 : Canonical _ := beginCapture_canonical hc
            .ite h1 (
              have h2 : Canonical (_ : _ × State).2 := readBytes_canonical h1
              have h3 : Canonical _ := finishCapture_canonical h2
              fput_canonical h3))

/-! ### Record -/

theorem queueRecord_canonical {p : Nat} {type : Nat} {pic : Nat} {body : List Byte} {s : State} (hc : Canonical s) :
    Canonical (queueRecord p type pic body s) := by
  unfold queueRecord
  exact
    setPipe_canonical hc

theorem queueWhen_canonical {n : Nat} {p : Nat} {type : Nat} {pic : Nat} {body : List Byte} {s : State} (hc : Canonical s) :
    Canonical (queueWhen n p type pic body s) := by
  unfold queueWhen
  exact
    .ite (queueRecord_canonical hc) hc

theorem ringWrite_canonical {p : Nat} {o : Nat} {bytes : List Byte} {s : State} (hc : Canonical s) :
    Canonical (ringWrite p o bytes s) := by
  unfold ringWrite
  exact
    by
      split
      · exact hc
      · exact .ite (emit_canonical hc) (by
          split
          · exact writeBytes_canonical hc
          · exact hc)

theorem ringFlush_canonical {p : Nat} {o : Nat} {s : State} (hc : Canonical s) :
    Canonical (ringFlush p o s) := by
  unfold ringFlush
  exact
    .ite (emit_canonical hc) hc

theorem checkDrained_canonical {p : Nat} {s : State} (hc : Canonical s) :
    Canonical (checkDrained p s) := by
  unfold checkDrained
  exact
    .ite (setPipe_canonical (fclr_canonical hc)) hc

theorem recordCommit_canonical {p : Nat} {s : State} (hc : Canonical s) :
    Canonical (recordCommit p s) := by
  unfold recordCommit
  exact
    by
      extract_lets
      split
      · exact hc
      · exact .ite hc (
          have h1 : Canonical _ := setPipe_canonical hc
          .ite (checkDrained_canonical (pipEvent_canonical (bump_canonical (onPipe_canonical h1)))) (
            have h2 : Canonical _ := .ite h1 (ringWrite_canonical h1)
            have h3 : Canonical _ := ringFlush_canonical (ringWrite_canonical h2)
            have h4 : Canonical _ := wr_canonical (onPipe_canonical h3)
            checkDrained_canonical (raiseWhen_canonical h4)))

/-! ### Lane -/

theorem setLaneState_canonical {v : Nat} {l : Nat} {s : State} (hc : Canonical s) :
    Canonical (setLaneState v l s) := by
  unfold setLaneState
  exact
    fput_canonical hc

theorem adaptFrom_canonical {l : Nat} {s : State} (hc : Canonical s) :
    Canonical (adaptFrom l s) := by
  unfold adaptFrom
  exact
    .upd hc

theorem groupState_canonical {v : Nat} {l : Nat} {s : State} (hc : Canonical s) :
    Canonical (groupState v l s) := by
  unfold groupState
  exact
    .foldl (fun _ _ h1 => (setLaneState_canonical h1)) _ hc

theorem laneRefuse_canonical {l : Nat} {code : Nat} {s : State} (hc : Canonical s) :
    Canonical (laneRefuse l code s) := by
  unfold laneRefuse
  exact
    fput_canonical hc

theorem setTargetUp_canonical {up : Bool} {l : List Nat} {s : State} (hc : Canonical s) :
    Canonical (setTargetUp up l s) := by
  unfold setTargetUp
  exact
    .foldl (fun _ _ h1 => (fput_canonical h1)) _ hc

theorem linkUpNow_canonical {l : Nat} {s : State} (hc : Canonical s) :
    Canonical (linkUpNow l s) := by
  unfold linkUpNow
  exact
    .ite (by
      split
      · exact hc
      · exact have h1 : Canonical _ := fset_canonical (fput_canonical (fput_canonical hc))
        setTargetUp_canonical h1) (.ite (setTargetUp_canonical hc) hc)

theorem linkDownNow_canonical {l : Nat} {s : State} (hc : Canonical s) :
    Canonical (linkDownNow l s) := by
  unfold linkDownNow
  exact
    .ite (by
      split
      · exact hc
      · exact have h1 : Canonical _ := fclr_canonical (fclr_canonical hc)
        .ite (raise_canonical (setTargetUp_canonical (fset_canonical (fclr_canonical h1)))) h1) (.ite (setTargetUp_canonical hc) hc)

theorem macPortSet_canonical {m : Nat} {j : Nat} {on : Bool} {clk : BitVec 4} {s : State} (hc : Canonical s) :
    Canonical (macPortSet m j on clk s) := by
  unfold macPortSet
  exact
    .ite (
      have h1 : Canonical _ := fput_canonical hc
      .ite (
        have h2 : Canonical _ := fput_canonical h1
        have h3 : Canonical _ := .upd h2
        .foldl (fun _ _ h4 => (setLaneState_canonical h4)) _ h3) h1) (.ite (
      have h5 : Canonical _ := by
        split
        · exact linkDownNow_canonical hc
        · exact hc
      have h6 : Canonical _ := fput_canonical h5
      .foldl (fun _ _ h7 => (wr_canonical h7)) _ h6) hc)

theorem macCtlWrite_canonical {m : Nat} {v : Word} {clk : BitVec 4} {s : State} (hc : Canonical s) :
    Canonical (macCtlWrite m v clk s) := by
  unfold macCtlWrite
  exact
    have h1 : Canonical _ := fput_canonical (fput_canonical hc)
    .foldl (fun _ _ h2 => (macPortSet_canonical h2)) _ h1

theorem sdiSet_canonical {l : Nat} {on : Bool} {clk : BitVec 4} {s : State} (hc : Canonical s) :
    Canonical (sdiSet l on clk s) := by
  unfold sdiSet
  exact
    .ite (
      have h1 : Canonical _ := laneRefuse_canonical hc
      .ite (
        have h2 : Canonical _ := fset_canonical h1
        groupState_canonical (.upd h2)) h1) (.ite (
      have h3 : Canonical _ := fclr_canonical (linkDownNow_canonical hc)
      .foldl (fun _ _ h4 => (wr_canonical h4)) _ h3) hc)

theorem newEqualiser_canonical {k : Nat} {s : State} (hc : Canonical s) :
    Canonical (newEqualiser k s) := by
  unfold newEqualiser
  exact
    have h1 : Canonical _ := stepFree_canonical (fput_canonical hc)
    stepFree_canonical (fput_canonical h1)

theorem recalWrite_canonical {l : Nat} {s : State} (hc : Canonical s) :
    Canonical (recalWrite l s) := by
  unfold recalWrite
  exact
    .ite (laneRefuse_canonical hc) (.ite hc (
      have h1 : Canonical _ := adaptFrom_canonical (linkDownNow_canonical (laneRefuse_canonical hc))
      have h3 : Canonical _ := .foldl (fun _ _ h2 => (newEqualiser_canonical (setLaneState_canonical h2))) _ h1
      .upd h3))

theorem laneCtlWrite_canonical {l : Nat} {v : Word} {clk : BitVec 4} {s : State} (hc : Canonical s) :
    Canonical (laneCtlWrite l v clk s) := by
  unfold laneCtlWrite
  exact
    have h1 : Canonical _ := fput_canonical (fput_canonical (fput_canonical hc))
    have h2 : Canonical _ := .ite (sdiSet_canonical h1) h1
    .ite (recalWrite_canonical h2) h2

theorem lanePllLock_canonical {l : Nat} {s : State} (hc : Canonical s) :
    Canonical (lanePllLock l s) := by
  unfold lanePllLock
  exact
    .ite (groupState_canonical hc) hc

theorem laneSignal_canonical {l : Nat} {s : State} (hc : Canonical s) :
    Canonical (laneSignal l s) := by
  unfold laneSignal
  exact
    .ite (.foldl (fun _ _ h1 => (fset_canonical (fset_canonical (setLaneState_canonical h1)))) _ (adaptFrom_canonical hc)) hc

theorem laneAdapted_canonical {l : Nat} {inverted : Bool} {s : State} (hc : Canonical s) :
    Canonical (laneAdapted l inverted s) := by
  unfold laneAdapted
  exact
    .ite (.foldl (fun _ _ h1 => (newEqualiser_canonical (fput_canonical (fput_canonical (setLaneState_canonical h1))))) _ hc) hc

theorem laneAlignLock_canonical {l : Nat} {logical : List Nat} {s : State} (hc : Canonical s) :
    Canonical (laneAlignLock l logical s) := by
  unfold laneAlignLock
  exact
    .ite (
      have h2 : Canonical _ := .foldl (fun _ _ h1 => (fput_canonical h1)) _ (groupState_canonical hc)
      raise_canonical (linkUpNow_canonical h2)) hc

theorem laneRetry_canonical {l : Nat} {s : State} (hc : Canonical s) :
    Canonical (laneRetry l s) := by
  unfold laneRetry
  exact
    .ite (.foldl (fun _ _ h1 => (bump_canonical (setLaneState_canonical h1))) _ (adaptFrom_canonical hc)) hc

theorem laneLockLost_canonical {l : Nat} {s : State} (hc : Canonical s) :
    Canonical (laneLockLost l s) := by
  unfold laneLockLost
  exact
    .ite (
      have h1 : Canonical _ := groupState_canonical (linkDownNow_canonical hc)
      have h2 : Canonical _ := fclr_canonical (fclr_canonical h1)
      raise_canonical (bump_canonical (fset_canonical h2))) hc

theorem recalDone_canonical {l : Nat} {s : State} (hc : Canonical s) :
    Canonical (recalDone l s) := by
  unfold recalDone
  exact
    .ite (
      have h1 : Canonical _ := .upd hc
      have h2 : Canonical _ := laneAlignLock_canonical (laneAdapted_canonical h1)
      raise_canonical (fset_canonical h2)) hc

theorem prbsWrite_canonical {d : Nat} {l : Nat} {v : Word} {guarded : Bool} {s : State} (hc : Canonical s) :
    Canonical (prbsWrite d l v guarded s) := by
  unfold prbsWrite
  exact
    .ite (accessErr_canonical hc) (.ite (laneRefuse_canonical hc) (
      have h1 : Canonical _ := fput_canonical (fput_canonical (fput_canonical (fput_canonical hc)))
      have h2 : Canonical _ := .ite (fclr_canonical h1) h1
      .ite (setLaneState_canonical (linkDownNow_canonical h2)) (.ite (setLaneState_canonical h2) h2)))

theorem checkerLock_canonical {l : Nat} {clean : Nat} {s : State} (hc : Canonical s) :
    Canonical (checkerLock l clean s) := by
  unfold checkerLock
  exact
    .ite (fset_canonical hc) hc

theorem checkerLoss_canonical {l : Nat} {errs : Nat} {s : State} (hc : Canonical s) :
    Canonical (checkerLoss l errs s) := by
  unfold checkerLoss
  exact
    .ite (
      have h1 : Canonical _ := bumpBy_canonical hc
      .ite (fclr_canonical h1) h1) hc

theorem checkerCycle_canonical {s : State} {l : Nat} (hc : Canonical s) :
    Canonical (checkerCycle s l) := by
  unfold checkerCycle
  exact
    .ite (bumpPair_canonical hc) hc

theorem sdiOutputLine_canonical {l : Nat} {s : State} (hc : Canonical s) :
    Canonical (sdiOutputLine l s) := by
  unfold sdiOutputLine
  exact
    .ite (by
      extract_lets
      split <;> exact emit_canonical hc) hc

/-! ### Ingest -/

theorem setPort_canonical {n : Nat} {x : Port} {s : State} (hc : Canonical s) :
    Canonical (setPort n x s) := by
  unfold setPort
  exact
    .upd hc

theorem onPort_canonical {n : Nat} {f : Port → Port} {s : State} (hc : Canonical s) :
    Canonical (onPort n f s) := by
  unfold onPort
  exact
    setPort_canonical hc

theorem sptEvent_canonical {n : Nat} {f : Fld} {s : State} (hc : Canonical s) :
    Canonical (sptEvent n f s) := by
  unfold sptEvent
  exact
    raiseWhen_canonical (fset_canonical hc)

theorem dropOther_canonical {n : Nat} {s : State} (hc : Canonical s) :
    Canonical (dropOther n s) := by
  unfold dropOther
  exact
    bump_canonical hc

theorem countPacket_canonical {n : Nat} {wire : Nat} {s : State} (hc : Canonical s) :
    Canonical (countPacket n wire s) := by
  unfold countPacket
  exact
    bumpPair_canonical (bumpPair_canonical hc)

theorem placeBytes_canonical {k who : Nat} {live : Bool} {f : Nat} {bytes : List Byte} {s : State} (hc : Canonical s) :
    Canonical (placeBytes k who live f bytes s).2 := by
  induction f generalizing bytes s with
  | zero => exact hc
  | succ f ih =>
    unfold placeBytes
    refine .ite2 hc ?_
    dsimp only
    split
    · rename_i n s1 e
      have h1 := ih (bytes := bytes.drop (2 ^ (poolEntry k s).log2))
        (writeBytes_canonical (a := bufAddr k n s1) (bytes := bytes.take (2 ^ (poolEntry k s).log2)) (poisoned := false)
          (Canonical.of_snd e (allocBuf_canonical hc)))
      split
      · rename_i e2
        exact Canonical.of_snd e2 h1
      · rename_i e2
        exact unitFree_canonical (Canonical.of_snd e2 h1)
    · rename_i e
      exact Canonical.of_snd e (allocBuf_canonical hc)

theorem readParts_canonical {parts : List Seg} {s : State} (hc : Canonical s) : Canonical (readParts parts s).2 := by
  unfold readParts
  refine .foldl2 (fun a e h => ?_) _ hc
  split
  · exact h
  · exact readTagged_canonical h

theorem passParts_canonical {n : Nat} {p : Nat} {bufs : List Nat} {s : State} (hc : Canonical s) :
    Canonical (passParts n p bufs s) := by
  unfold passParts
  exact
    .foldl (fun _ _ h1 => (bufOp_canonical h1)) _ hc

theorem reportLoss_canonical {p : Nat} {e : EventIn} {s : State} (hc : Canonical s) :
    Canonical (reportLoss p e s) := by
  unfold reportLoss
  exact
    onPipe_canonical hc

theorem lateBytes_canonical {p : Nat} {i : Nat} {parts : List Seg} {ends : Bool} {s : State} (hc : Canonical s) :
    Canonical (lateBytes p i parts ends s) := by
  unfold lateBytes
  exact
    have h1 : Canonical (_ : _ × State).2 := readParts_canonical hc
    have h2 : Canonical _ := unitFreeAll_canonical h1
    .ite (onPipe_canonical h2) (
      have h3 : Canonical _ := onPipe_canonical h2
      .ite h3 (decEvent_canonical (bumpBy_canonical h3)))

theorem feedCoded_canonical {p : Nat} {parts : List Seg} {starts : Bool} {ends : Bool} {ts : Option Nat} {s : State} (hc : Canonical s) :
    Canonical (feedCoded p parts starts ends ts s) := by
  unfold feedCoded
  exact
    have h1 : Canonical _ := onPipe_canonical hc
    by
      extract_lets
      split
      · exact lateBytes_canonical h1
      · exact onPipe_canonical h1

theorem endMark_canonical {p : Nat} {s : State} (hc : Canonical s) :
    Canonical (endMark p s) := by
  unfold endMark
  exact
    by
      split
      · exact lateBytes_canonical hc
      · exact onPipe_canonical hc

theorem cutUnit_canonical {k : Nat} {s : State} (hc : Canonical s) :
    Canonical (cutUnit k s) := by
  unfold cutUnit
  exact
    onPort_canonical hc

theorem poolDrop_canonical {n : Nat} {s : State} (hc : Canonical s) :
    Canonical (poolDrop n s) := by
  unfold poolDrop
  exact
    have h1 : Canonical _ := cutUnit_canonical (sptEvent_canonical (bump_canonical hc))
    by
      extract_lets
      split
      · exact reportLoss_canonical h1
      · exact h1

theorem deliverCoded_canonical {n : Nat} {k : Nat} {p : Nat} {r : PacketIn} {bufs : List (Nat × Nat)} {s : State} (hc : Canonical s) :
    Canonical (deliverCoded n k p r bufs s) := by
  unfold deliverCoded
  exact
    .ite (reportLoss_canonical (unitFreeAll_canonical hc)) (
      have h1 : Canonical _ := unitFreeAll_canonical (setPort_canonical hc)
      have h3 : Canonical _ := .foldl (fun _ _ h2 => (by
        split
        · exact reportLoss_canonical h2
        · exact feedCoded_canonical h2)) _ (passParts_canonical h1)
      .ite (endMark_canonical h3) h3)

theorem deliverVideo_canonical {n : Nat} {k : Nat} {p : Nat} {r : PacketIn} {bufs : List (Nat × Nat)} {s : State} (hc : Canonical s) :
    Canonical (deliverVideo n k p r bufs s) := by
  unfold deliverVideo
  exact
    have h1 : Canonical _ := unitFreeAll_canonical hc
    .ite (dropOther_canonical h1) (
      have h2 : Canonical _ := onPort_canonical h1
      have h3 : Canonical _ := .ite (inputFrameStart_canonical h2) h2
      .foldl (fun _ _ h4 => (captureLine_canonical h4)) _ h3)

theorem seqGap_canonical {k : Nat} {lost : Nat} {s : State} (hc : Canonical s) :
    Canonical (seqGap k lost s) := by
  unfold seqGap
  exact
    .ite hc (
      have h1 : Canonical _ := cutUnit_canonical (sptEvent_canonical (bumpBy_canonical hc))
      by
        extract_lets
        split
        · exact reportLoss_canonical h1
        · exact h1)

theorem deliverPacket_canonical {n : Nat} {k : Nat} {r : PacketIn} {bufs : List (Nat × Nat)} {s : State} (hc : Canonical s) :
    Canonical (deliverPacket n k r bufs s) := by
  unfold deliverPacket
  exact
    by
      split
      · exact hc
      · exact .ite (deliverVideo_canonical hc) (deliverCoded_canonical hc)

theorem mergeDrain_canonical {k fuel : Nat} {s : State} (hc : Canonical s) : Canonical (mergeDrain k fuel s) := by
  induction fuel generalizing s with
  | zero => exact hc
  | succ fuel ih =>
    unfold mergeDrain
    dsimp only
    split
    · exact .ite (ih (deliverPacket_canonical (setPort_canonical hc))) hc
    · exact hc

theorem mergeArrive_canonical {n : Nat} {k : Nat} {seq : Nat} {r : PacketIn} {bufs : List (Nat × Nat)} {s : State} (hc : Canonical s) :
    Canonical (mergeArrive n k seq r bufs s) := by
  unfold mergeArrive
  exact
    .ite (bump_canonical (unitFreeAll_canonical hc)) (mergeDrain_canonical (setPort_canonical hc))

theorem mergeExpire_canonical {k fuel : Nat} {s : State} (hc : Canonical s) : Canonical (mergeExpire k fuel s) := by
  induction fuel generalizing s with
  | zero => exact hc
  | succ fuel ih =>
    unfold mergeExpire
    dsimp only
    split
    · exact .ite (ih (mergeDrain_canonical (seqGap_canonical (setPort_canonical hc)))) hc
    · exact hc

theorem mergeTimeout_canonical {n : Nat} {s : State} (hc : Canonical s) :
    Canonical (mergeTimeout n s) := by
  unfold mergeTimeout
  exact
    .ite (mergeExpire_canonical hc) hc

theorem pathLoss_canonical {n : Nat} {s : State} (hc : Canonical s) :
    Canonical (pathLoss n s) := by
  unfold pathLoss
  exact
    by
      split
      · exact hc
      · exact .ite (sptEvent_canonical (setPort_canonical hc)) hc

theorem police_canonical {n : Nat} {len : Nat} {s : State} (hc : Canonical s) :
    Canonical (police n len s).2 := by
  unfold police
  exact
    .ite2 hc (.ite2 (setPort_canonical hc) (sptEvent_canonical (bump_canonical hc)))

theorem policerRefill_canonical {n : Nat} {s : State} (hc : Canonical s) :
    Canonical (policerRefill n s) := by
  unfold policerRefill
  exact
    .ite hc (onPort_canonical hc)

theorem policerFill_canonical {n : Nat} {s : State} (hc : Canonical s) :
    Canonical (policerFill n s) := by
  unfold policerFill
  exact
    onPort_canonical hc

theorem acceptPacket_canonical {n : Nat} {r : PacketIn} {bufs : List (Nat × Nat)} {s : State} (hc : Canonical s) :
    Canonical (acceptPacket n r bufs s) := by
  unfold acceptPacket
  exact
    by
      extract_lets
      split
      · exact mergeArrive_canonical hc
      · exact deliverPacket_canonical (seqGap_canonical (onPort_canonical hc))

theorem acceptFrame_canonical {n : Nat} {f : FrameIn} {s : State} (hc : Canonical s) :
    Canonical (acceptFrame n f s) := by
  unfold acceptFrame
  exact
    by
      split
      · exact hc
      · exact .ite (dropOther_canonical hc) (by
          split
          · exact dropOther_canonical hc
          · exact by
              split
              · rename_i e
                have h1 := Canonical.of_snd e (placeBytes_canonical hc)
                exact poolDrop_canonical h1
              · rename_i e
                have h2 := Canonical.of_snd e (placeBytes_canonical hc)
                exact acceptPacket_canonical h2)

theorem portFrame_canonical {n : Nat} {f : FrameIn} {s : State} (hc : Canonical s) :
    Canonical (portFrame n f s) := by
  unfold portFrame
  exact
    .ite (onPort_canonical hc) (
      have h1 : Canonical _ := countPacket_canonical (onPort_canonical hc)
      have h2 : Canonical _ := .ite (sptEvent_canonical (bump_canonical h1)) h1
      .ite h2 (
        have h3 : Canonical (_ : _ × State).2 := police_canonical h2
        .ite (acceptFrame_canonical h3) h3))

theorem macFrame_canonical {m : Nat} {j : Nat} {f : FrameIn} {s : State} (hc : Canonical s) :
    Canonical (macFrame m j f s) := by
  unfold macFrame
  exact
    .ite hc (.ite (bump_canonical hc) (by
      split
      · exact portFrame_canonical hc
      · exact have h1 : Canonical _ := bump_canonical hc
        by
          extract_lets
          split
          · exact countPacket_canonical (onPort_canonical h1)
          · exact h1))

theorem macReceive_canonical {m : Nat} {j : Nat} {corr : Nat} {uncorr : Nat} {frame : List Byte} {s : State} (hc : Canonical s) :
    Canonical (macReceive m j corr uncorr frame s) := by
  unfold macReceive
  exact
    .ite hc (macFrame_canonical (bumpBy_canonical (bumpBy_canonical hc)))

theorem linkLine_canonical {p : Nat} {y : Nat} {k : Nat} {l : LineIn} {s : State} (hc : Canonical s) :
    Canonical (linkLine p y k l s) := by
  unfold linkLine
  exact
    .foldl (fun _ _ h1 => (captureLine_canonical h1)) _ hc

theorem sdiLine_canonical {l : Nat} {y : Nat} {first : Bool} {field2 : Bool} {line : LineIn} {s : State} (hc : Canonical s) :
    Canonical (sdiLine l y first field2 line s) := by
  unfold sdiLine
  exact
    by
      split
      · exact hc
      · exact .ite hc (.ite (onPort_canonical hc) (.ite (dropOther_canonical hc) (by
          split
          · exact captureLine_canonical (.ite (inputFrameStart_canonical hc) hc)
          · exact linkLine_canonical (.ite (inputFrameStart_canonical hc) hc))))

theorem sdiReceive_canonical {l : Nat} {y : Nat} {first : Bool} {field2 : Bool} {payload : Option Word} {crcBad : Bool} {line : LineIn} {s : State} (hc : Canonical s) :
    Canonical (sdiReceive l y first field2 payload crcBad line s) := by
  unfold sdiReceive
  exact
    .ite hc (
      have h1 : Canonical _ := by
        split
        · exact wr_canonical hc
        · exact hc
      sdiLine_canonical (.ite (bump_canonical h1) h1))

theorem ringCellIn_canonical {n : Nat} {lost : Nat} {c : RingCell} {s : State} (hc : Canonical s) :
    Canonical (ringCellIn n lost c s) := by
  unfold ringCellIn
  refine .ite (onPort_canonical hc) ?_
  have h1 := countPacket_canonical (n := n) (wire := c.payload.length + 16) hc
  dsimp only
  split
  · exact dropOther_canonical h1
  · rename_i k p _
    have h2 := placeBytes_canonical (k := k) (who := portOwner n) (live := true) (f := c.payload.length + 1) (bytes := c.payload)
      (seqGap_canonical (k := n) (lost := lost) h1)
    split
    · rename_i e
      exact poolDrop_canonical (Canonical.of_snd e h2)
    · rename_i e
      exact onPort_canonical (feedCoded_canonical (passParts_canonical (Canonical.of_snd e h2)))

theorem pictureUnit_canonical {p : Nat} {data : List Byte} {s : State} (hc : Canonical s) :
    Canonical (pictureUnit p data s) := by
  unfold pictureUnit
  exact
    have h1 : Canonical _ := inputFrameStart_canonical hc
    .foldl (fun _ _ h2 => (.foldl (fun _ _ h3 => (captureLine_canonical h3)) _ h2)) _ h1

theorem hrUnitIn_canonical {n : Nat} {u : HrUnitIn} {s : State} (hc : Canonical s) :
    Canonical (hrUnitIn n u s).2 := by
  unfold hrUnitIn
  exact
    by
      split
      · exact hc
      · exact .ite2 (onPort_canonical hc) (.ite2 (dropOther_canonical hc) (.ite2 (.ite2 hc (by
          split
          · rename_i e
            have h1 := Canonical.of_snd e (placeBytes_canonical hc)
            exact h1
          · rename_i e
            have h2 := Canonical.of_snd e (placeBytes_canonical hc)
            exact onPort_canonical (feedCoded_canonical (passParts_canonical h2)))) (pictureUnit_canonical hc)))

theorem hrReadUnits_canonical {n fuel : Nat} {s : State} (hc : Canonical s) : Canonical (hrReadUnits n fuel s) := by
  induction fuel generalizing s with
  | zero => exact hc
  | succ fuel ih =>
    unfold hrReadUnits
    dsimp only
    split
    · exact hc
    · refine .ite hc (.ite ?_ (ih (wr_canonical (onPort_canonical hc))))
      split
      · rename_i e
        exact ih (wr_canonical (onPort_canonical (Canonical.of_snd e (hrUnitIn_canonical hc))))
      · rename_i e
        exact addWait_canonical (Canonical.of_snd e (hrUnitIn_canonical hc))

theorem hrCountWrite_canonical {d : Nat} {n : Nat} {isWr : Bool} {v : Word} {units : List HrUnitIn} {s : State} (hc : Canonical s) :
    Canonical (hrCountWrite d n isWr v units s) := by
  unfold hrCountWrite
  exact
    .ite (accessErr_canonical hc) (
      have h1 : Canonical _ := wr_canonical hc
      .ite (hrReadUnits_canonical (onPort_canonical h1)) h1)

/-! ### Egress -/

theorem setTarget_canonical {t : Nat} {x : Target32} {s : State} (hc : Canonical s) :
    Canonical (setTarget t x s) := by
  unfold setTarget
  exact
    .upd hc

theorem giveBack_canonical {n : Nat} {b : Nat} {s : State} (hc : Canonical s) :
    Canonical (giveBack n b s) := by
  unfold giveBack
  exact
    .ite (unitFree_canonical hc) (bufOp_canonical hc)

theorem giveBackAll_canonical {n : Nat} {l : List Nat} {s : State} (hc : Canonical s) :
    Canonical (giveBackAll n l s) := by
  unfold giveBackAll
  exact
    .foldl (fun _ _ h1 => (giveBack_canonical h1)) _ hc

theorem dropHeads_canonical {n f : Nat} {s : State} (hc : Canonical s) : Canonical (dropHeads n f s) := by
  induction f generalizing s with
  | zero => exact hc
  | succ f ih =>
    unfold dropHeads
    dsimp only
    split
    · exact hc
    · exact ih (giveBackAll_canonical (sptEvent_canonical (dropOther_canonical (setPort_canonical hc))))

theorem enqueue_canonical {n : Nat} {l : List Packet} {s : State} (hc : Canonical s) :
    Canonical (enqueue n l s) := by
  unfold enqueue
  exact
    have h1 : Canonical _ := setPort_canonical hc
    .ite (dropHeads_canonical h1) h1

theorem refreshPort_canonical {n : Nat} {s : State} (hc : Canonical s) :
    Canonical (refreshPort n s) := by
  unfold refreshPort
  exact
    by
      split
      · exact hc
      · exact .ite hc (setPort_canonical (setTarget_canonical hc))

theorem refreshTarget_canonical {t : Nat} {s : State} (hc : Canonical s) :
    Canonical (refreshTarget t s) := by
  unfold refreshTarget
  exact
    .foldl (fun _ _ h1 => (refreshPort_canonical h1)) _ hc

theorem impairPacket_canonical {n : Nat} {k : Packet} {s : State} (hc : Canonical s) :
    Canonical (impairPacket n k s) := by
  unfold impairPacket
  exact
    .ite (enqueue_canonical hc) (
      have h1 : Canonical _ := onPort_canonical hc
      .ite (giveBackAll_canonical (bump_canonical h1)) (
        have h2 : Canonical _ := .ite (bump_canonical h1) h1
        have h3 : Canonical _ := .ite (bump_canonical h2) h2
        .ite (bump_canonical (onPort_canonical h3)) (enqueue_canonical h3)))

theorem queuePackets_canonical {n : Nat} {l : List Packet} {s : State} (hc : Canonical s) :
    Canonical (queuePackets n l s) := by
  unfold queuePackets
  exact
    have h2 : Canonical _ := .foldl (fun _ _ h1 => (impairPacket_canonical h1)) _ hc
    refreshPort_canonical h2

theorem queueRtp_canonical {n : Nat} {pic : Nat} {ts : Nat} {bodies : List (List Byte)} {marker : Bool} {bufs : List Nat} {s : State} (hc : Canonical s) :
    Canonical (queueRtp n pic ts bodies marker bufs s) := by
  unfold queueRtp
  exact
    queuePackets_canonical (setPort_canonical hc)

theorem queueTs_canonical {n : Nat} {kind : Nat} {pic : Nat} {ts : Nat} {groups : List (List Byte)} {marker : Bool} {bufs : List Nat} {s : State} (hc : Canonical s) :
    Canonical (queueTs n kind pic ts groups marker bufs s) := by
  unfold queueTs
  exact
    queuePackets_canonical (setPort_canonical hc)

theorem sendPsi_canonical {n : Nat} {s : State} (hc : Canonical s) :
    Canonical (sendPsi n s) := by
  unfold sendPsi
  exact
    queueTs_canonical (setPort_canonical hc)

theorem sendTs_canonical {n : Nat} {u : SendUnit} {s : State} (hc : Canonical s) :
    Canonical (sendTs n u s) := by
  unfold sendTs
  exact
    queueTs_canonical (setPort_canonical hc)

theorem sendCells_canonical {n : Nat} {u : SendUnit} {s : State} (hc : Canonical s) :
    Canonical (sendCells n u s) := by
  unfold sendCells
  exact
    queuePackets_canonical hc

theorem sendUnit_canonical {n : Nat} {u : SendUnit} {s : State} (hc : Canonical s) :
    Canonical (sendUnit n u s) := by
  unfold sendUnit
  exact
    by
      split
      · exact hc
      · exact .ite (giveBackAll_canonical hc) (.ite (onPort_canonical hc) (by
          split
          · exact sendCells_canonical hc
          · exact sendTs_canonical (.ite (sendPsi_canonical hc) hc)
          · exact queueRtp_canonical (onPort_canonical hc)))

theorem flushOne_canonical {p : Nat} {n : Nat} {s : State} (hc : Canonical s) :
    Canonical (flushOne p n s).2 := by
  unfold flushOne
  exact
    by
      extract_lets
      split
      · exact hc
      · exact by
          extract_lets
          split
          · exact hc
          · exact .ite2 (
              have h1 : Canonical _ := onPort_canonical (onPipe_canonical hc)
              sendUnit_canonical h1) hc

theorem flushPort_canonical {p n f : Nat} {s : State} (hc : Canonical s) : Canonical (flushPort p n f s) := by
  induction f generalizing s with
  | zero => exact hc
  | succ f ih =>
    unfold flushPort
    split
    · rename_i e
      exact ih (Canonical.of_snd e (flushOne_canonical hc))
    · rename_i e
      exact Canonical.of_snd e (flushOne_canonical hc)

theorem flushPipe_canonical {p : Nat} {s : State} (hc : Canonical s) :
    Canonical (flushPipe p s) := by
  unfold flushPipe
  exact
    .foldl (fun _ _ h1 => (flushPort_canonical h1)) _ hc

theorem passChunks_canonical {p : Nat} {bufs : List Nat} {s : State} (hc : Canonical s) :
    Canonical (passChunks p bufs s).2 := by
  unfold passChunks
  dsimp only
  split
  · exact hc
  · exact .foldl (fun _ _ h1 => bufOp_canonical (.foldl (fun _ _ h2 => bufOp_canonical h2) _ h1)) _ hc

theorem freeChunks_canonical {p : Nat} {q : Pic} {s : State} (hc : Canonical s) :
    Canonical (freeChunks p q s) := by
  unfold freeChunks
  exact
    .foldl (fun _ _ h1 => (.ite (unitFreeAll_canonical h1) (.foldl (fun _ _ h2 => (giveBackAll_canonical h2)) _ h1))) _ hc

theorem allowUpTo_canonical {n : Nat} {at_ : Int} {l : List Pic} {q : Pic} {sub : Bool} {s : State} (hc : Canonical s) :
    Canonical (allowUpTo n at_ l q sub s) := by
  unfold allowUpTo
  exact
    onPort_canonical hc

theorem freeUnheld_canonical {p : Nat} {q : Pic} {s : State} (hc : Canonical s) :
    Canonical (freeUnheld p q s) := by
  unfold freeUnheld
  exact
    have h2 : Canonical _ := .foldl (fun _ _ h1 => (.ite (unitFreeAll_canonical h1) h1)) _ hc
    onPipe_canonical h2

theorem releaseAction_canonical {n : Nat} {at_ : Int} {s : State} (hc : Canonical s) :
    Canonical (releaseAction n at_ s) := by
  unfold releaseAction
  exact
    by
      split
      · exact hc
      · exact .ite hc (by
          split
          · exact hc
          · exact have h1 : Canonical _ := allowUpTo_canonical hc
            .ite (flushPort_canonical h1) (.ite (freeUnheld_canonical h1) h1))

theorem queueVideo_canonical {n : Nat} {p : Nat} {pic : Nat} {img : Planes} {second : Bool} {lo : Nat} {hi : Nat} {fin : Bool} {at_ : Nat} {s : State} (hc : Canonical s) :
    Canonical (queueVideo n p pic img second lo hi fin at_ s) := by
  unfold queueVideo
  exact
    queuePackets_canonical (setPort_canonical hc)

theorem emitToPorts_canonical {p : Nat} {o : EmitOut} {s : State} (hc : Canonical s) :
    Canonical (emitToPorts p o s) := by
  unfold emitToPorts
  exact
    .foldl (fun _ _ h1 => (by
      split
      · exact h1
      · exact .ite (queueVideo_canonical h1) (.ite (onPort_canonical h1) h1))) _ hc

theorem pcrInsert_canonical {n : Nat} {s : State} (hc : Canonical s) :
    Canonical (pcrInsert n s) := by
  unfold pcrInsert
  exact
    .ite (queueTs_canonical (onPort_canonical hc)) hc

theorem psiInsert_canonical {n : Nat} {s : State} (hc : Canonical s) :
    Canonical (psiInsert n s) := by
  unfold psiInsert
  exact
    .ite (sendPsi_canonical hc) hc

theorem tsInsertions_canonical {n : Nat} {s : State} (hc : Canonical s) :
    Canonical (tsInsertions n s) := by
  unfold tsInsertions
  exact
    have h1 : Canonical _ := .ite (psiInsert_canonical hc) hc
    .ite (pcrInsert_canonical h1) h1

theorem tsPadPort_canonical {n : Nat} {s : State} (hc : Canonical s) :
    Canonical (tsPadPort n s) := by
  unfold tsPadPort
  exact
    .ite (queueTs_canonical hc) hc

theorem tsPad_canonical {t : Nat} {s : State} (hc : Canonical s) :
    Canonical (tsPad t s) := by
  unfold tsPad
  exact
    .ite hc (.foldl (fun _ _ h1 => (tsPadPort_canonical h1)) _ hc)

theorem startPacket_canonical {n : Nat} {t : Nat} {k : Packet} {rest : List Packet} {deficit : Nat} {s : State} (hc : Canonical s) :
    Canonical (startPacket n t k rest deficit s) := by
  unfold startPacket
  exact
    have h1 : Canonical _ := setPort_canonical hc
    refreshPort_canonical (setTarget_canonical h1)

theorem drr_canonical {t : Nat} {hp : Bool} {f : Nat} {s : State} (hc : Canonical s) : Canonical (drr t hp f s) := by
  induction f generalizing s with
  | zero => exact hc
  | succ f ih =>
    unfold drr
    dsimp only
    split
    · exact hc
    · split
      · exact hc
      · exact .ite (startPacket_canonical (setPort_canonical hc)) (ih (setPort_canonical (setTarget_canonical hc)))

theorem transmit_canonical {t : Nat} {s : State} (hc : Canonical s) :
    Canonical (transmit t s) := by
  unfold transmit
  exact
    have h1 : Canonical _ := refreshTarget_canonical (tsPad_canonical hc)
    .ite h1 (by
      split
      · exact emit_canonical (setTarget_canonical h1)
      · exact by
          extract_lets
          split
          · exact startPacket_canonical h1
          · exact .ite (drr_canonical h1) (drr_canonical h1))

theorem applyChange_canonical {n : Nat} {l : List (Nat × Word)} {s : State} (hc : Canonical s) :
    Canonical (applyChange n l s) := by
  unfold applyChange
  exact
    have h2 : Canonical _ := .foldl (fun _ _ h1 => (wr_canonical h1)) _ hc
    refreshPort_canonical (onPort_canonical h2)

theorem shaperWrite_canonical {n : Nat} {off : Nat} {v : Word} {s : State} (hc : Canonical s) :
    Canonical (shaperWrite n off v s) := by
  unfold shaperWrite
  exact
    .ite (setPort_canonical hc) (applyChange_canonical hc)

theorem dueHeld_canonical {n : Nat} {s : State} (hc : Canonical s) :
    Canonical (dueHeld n s) := by
  unfold dueHeld
  exact
    setPort_canonical hc

theorem reorderRelease_canonical {n : Nat} {s : State} (hc : Canonical s) :
    Canonical (reorderRelease n s) := by
  unfold reorderRelease
  exact
    .ite hc (refreshPort_canonical (setPort_canonical hc))

theorem leavePacket_canonical {n : Nat} {k : Packet} {s : State} (hc : Canonical s) :
    Canonical (leavePacket n k s) := by
  unfold leavePacket
  exact
    .ite (.upd hc) (emit_canonical hc)

theorem packetEnd_canonical {t : Nat} {s : State} (hc : Canonical s) :
    Canonical (packetEnd t s) := by
  unfold packetEnd
  exact
    .ite hc (
      have h1 : Canonical _ := setTarget_canonical hc
      .ite h1 (by
        extract_lets
        split
        · exact h1
        · exact have h2 : Canonical _ := countPacket_canonical (leavePacket_canonical h1)
          have h3 : Canonical _ := onPort_canonical h2
          have h4 : Canonical _ := dueHeld_canonical (giveBackAll_canonical h3)
          have h5 : Canonical _ := .ite h4 (dropHeads_canonical h4)
          by
            extract_lets
            split
            · exact applyChange_canonical h5
            · exact refreshPort_canonical h5))

theorem creditTick_canonical {n : Nat} {s : State} (hc : Canonical s) :
    Canonical (creditTick n s) := by
  unfold creditTick
  exact
    by
      split
      · exact hc
      · exact refreshPort_canonical (setPort_canonical hc)

theorem creditTickAll_canonical {s : State} (hc : Canonical s) :
    Canonical (creditTickAll s) := by
  unfold creditTickAll
  exact
    .foldl (fun _ _ h1 => (creditTick_canonical h1)) _ hc

theorem queueSample_canonical {n : Nat} {s0 : State} (hc : Canonical s0) :
    Canonical (queueSample n s0) := by
  unfold queueSample
  exact
    .ite hc (
      have h1 : Canonical _ := onPort_canonical hc
      .ite (wr_canonical (.ite (wr_canonical (wr_canonical (wr_canonical h1))) (wr_canonical (wr_canonical h1)))) (.ite (wr_canonical (wr_canonical (wr_canonical h1))) (wr_canonical (wr_canonical h1))))

theorem hrDrop_canonical {n : Nat} {s : State} (hc : Canonical s) :
    Canonical (hrDrop n s) := by
  unfold hrDrop
  exact
    by
      extract_lets
      split
      · exact hc
      · exact giveBackAll_canonical (sptEvent_canonical (dropOther_canonical (setPort_canonical hc)))

theorem hrUnitOut_canonical {n : Nat} {s : State} (hc : Canonical s) :
    Canonical (hrUnitOut n s) := by
  unfold hrUnitOut
  exact
    by
      extract_lets
      split
      · exact hc
      · exact .ite hc (.ite (hrDrop_canonical hc) (
          have h1 : Canonical _ := .ite hc (emit_canonical hc)
          have h2 : Canonical _ := emit_canonical h1
          have h3 : Canonical _ := setPort_canonical h2
          countPacket_canonical (giveBackAll_canonical (wr_canonical (emit_canonical h3)))))

theorem hrDropAll_canonical {n f : Nat} {s : State} (hc : Canonical s) : Canonical (hrDropAll n f s) := by
  induction f generalizing s with
  | zero => exact hc
  | succ f ih =>
    unfold hrDropAll
    exact .ite hc (ih (hrDrop_canonical hc))

theorem portEnable_canonical {n : Nat} {s : State} (hc : Canonical s) :
    Canonical (portEnable n s) := by
  unfold portEnable
  exact
    .ite hc (
      have h1 : Canonical _ := fput_canonical hc
      .ite h1 (
        have h3 : Canonical _ := .foldl (fun _ _ h2 => (wr_canonical h2)) _ h1
        have h5 : Canonical _ := .foldl (fun _ _ h4 => (unitFreeAll_canonical h4)) _ h3
        fset_canonical (setPort_canonical h5)))

theorem dropHeldUnits_canonical {n : Nat} {p : Nat} {s : State} (hc : Canonical s) :
    Canonical (dropHeldUnits n p s) := by
  unfold dropHeldUnits
  exact
    have h1 : Canonical _ := giveBackAll_canonical hc
    onPipe_canonical h1

theorem portDisable_canonical {n : Nat} {s : State} (hc : Canonical s) :
    Canonical (portDisable n s) := by
  unfold portDisable
  exact
    .ite hc (
      have h1 : Canonical _ := fclr_canonical hc
      by
        extract_lets
        split
        · exact h1
        · exact .ite (onPort_canonical h1) (
            have h2 : Canonical _ := setPort_canonical h1
            have h3 : Canonical _ := giveBackAll_canonical h2
            refreshPort_canonical (.ite (dropHeldUnits_canonical h3) h3)))

theorem sptCtlWrite_canonical {n : Nat} {v : Word} {s : State} (hc : Canonical s) :
    Canonical (sptCtlWrite n v s) := by
  unfold sptCtlWrite
  exact
    have h1 : Canonical _ := fput_canonical (fput_canonical (fput_canonical (fput_canonical hc)))
    have h2 : Canonical _ := raiseWhen_canonical h1
    .ite (portEnable_canonical h2) (portDisable_canonical h2)

theorem impSeedWrite_canonical {n : Nat} {v : Word} {s : State} (hc : Canonical s) :
    Canonical (impSeedWrite n v s) := by
  unfold impSeedWrite
  exact
    onPort_canonical (wr_canonical hc)

theorem policerWrite_canonical {n : Nat} {off : Nat} {v : Word} {s : State} (hc : Canonical s) :
    Canonical (policerWrite n off v s) := by
  unfold policerWrite
  exact
    policerFill_canonical (wr_canonical hc)

/-! ### Ring -/

theorem onRing_canonical {f : RingSt → RingSt} {s : State} (hc : Canonical s) :
    Canonical (onRing f s) := by
  unfold onRing
  exact
    .upd hc

theorem setRingState_canonical {v : Nat} {s : State} (hc : Canonical s) :
    Canonical (setRingState v s) := by
  unfold setRingState
  exact
    setTargetUp_canonical (fput_canonical hc)

theorem ringFlag_canonical {f : Fld} {src : Nat} {s : State} (hc : Canonical s) :
    Canonical (ringFlag f src s) := by
  unfold ringFlag
  exact
    raise_canonical (fset_canonical hc)

theorem ringCtlWrite_canonical {v : Word} {clk : BitVec 4} {s : State} (hc : Canonical s) :
    Canonical (ringCtlWrite v clk s) := by
  unfold ringCtlWrite
  exact
    have h1 : Canonical _ := fput_canonical (fput_canonical hc)
    .ite (
      have h2 : Canonical _ := fput_canonical h1
      .ite (onRing_canonical (fset_canonical h2)) h2) (.ite (onRing_canonical (fclr_canonical h1)) h1)

theorem ringBoundary_canonical {s : State} (hc : Canonical s) :
    Canonical (ringBoundary s) := by
  unfold ringBoundary
  exact
    .ite (setRingState_canonical hc) (by
      split
      · exact hc
      · exact setRingState_canonical (onRing_canonical hc))

theorem ringTime_canonical {f : RingFrame} {s : State} (hc : Canonical s) :
    Canonical (ringTime f s) := by
  unfold ringTime
  exact
    have h1 : Canonical _ := fput_canonical hc
    .ite (onRing_canonical h1) (
      have h2 : Canonical _ := onRing_canonical h1
      .ite h2 (ringFlag_canonical h2))

theorem ringMaster_canonical {f : RingFrame} {s : State} (hc : Canonical s) :
    Canonical (ringMaster f s) := by
  unfold ringMaster
  exact
    have h1 : Canonical _ := fput_canonical (onRing_canonical hc)
    have h2 : Canonical _ := .ite (ringFlag_canonical h1) h1
    .ite (selectSource_canonical h2) h2

theorem ringTrigger_canonical {t : Nat} {s : State} (hc : Canonical s) :
    Canonical (ringTrigger t s) := by
  unfold ringTrigger
  exact
    latchTrigger_canonical (armTriggers_canonical hc)

theorem ringTriggers_canonical {f : RingFrame} {arrival : Nat} {s : State} (hc : Canonical s) :
    Canonical (ringTriggers f arrival s) := by
  unfold ringTriggers
  exact
    .foldl (fun _ _ h1 => (.ite (.ite (ringTrigger_canonical (fset_canonical h1)) (onRing_canonical h1)) h1)) _ hc

theorem ringTriggerAction_canonical {t : Nat} {s : State} (hc : Canonical s) :
    Canonical (ringTriggerAction t s) := by
  unfold ringTriggerAction
  exact
    by
      split
      · exact hc
      · exact ringTrigger_canonical (onRing_canonical hc)

theorem ringTrigIn_canonical {n : Nat} {s : State} (hc : Canonical s) :
    Canonical (ringTrigIn n s) := by
  unfold ringTrigIn
  exact
    .ite (onRing_canonical hc) hc

theorem ringMarkAction_canonical {a : Action} {s : State} (hc : Canonical s) :
    Canonical (ringMarkAction a s) := by
  unfold ringMarkAction
  exact
    .ite (onRing_canonical hc) (bump_canonical hc)

theorem writeMarks_canonical {t : Int} {l : List RingMark} {s : State} (hc : Canonical s) :
    Canonical (writeMarks t l s).2 := by
  unfold writeMarks
  exact
    bumpBy_canonical (onRing_canonical hc)

theorem takeMark_canonical {m : RingMark} {s : State} (hc : Canonical s) :
    Canonical (takeMark m s) := by
  unfold takeMark
  exact
    .ite (.ite hc (ringFlag_canonical hc)) (.ite hc (
      have h1 : Canonical _ := fput_canonical (fput_canonical hc)
      raise_canonical (onRing_canonical (wr_canonical (wr_canonical h1)))))

theorem takeCell_canonical {c : RingCell} {s : State} (hc : Canonical s) :
    Canonical (takeCell c s) := by
  unfold takeCell
  exact
    have h1 : Canonical _ := .ite (ringFlag_canonical hc) hc
    .ite (by
      extract_lets
      split
      · exact h1
      · exact .ite h1 (
          have h2 : Canonical _ := onRing_canonical h1
          bump_canonical (ringCellIn_canonical h2))) h1

theorem writeCells_canonical {s : State} (hc : Canonical s) :
    Canonical (writeCells s).2 := by
  unfold writeCells
  exact
    bumpBy_canonical (onRing_canonical hc)

theorem readFrame_canonical {f : RingFrame} {s : State} (hc : Canonical s) :
    Canonical (readFrame f s) := by
  unfold readFrame
  exact
    have h1 : Canonical _ := .ite (noteValid_canonical hc) hc
    have h2 : Canonical _ := .ite (ringMaster_canonical h1) h1
    have h3 : Canonical _ := wr_canonical (ringTime_canonical h2)
    .foldl (fun _ _ h4 => (takeMark_canonical h4)) _ (ringTriggers_canonical h3)

theorem memberForward_canonical {f : RingFrame} {s : State} (hc : Canonical s) :
    Canonical (memberForward f s) := by
  unfold memberForward
  exact
    have h2 : Canonical _ := .foldl (fun _ _ h1 => (takeCell_canonical h1)) _ hc
    have h3 : Canonical (_ : _ × State).2 := writeMarks_canonical h2
    have h4 : Canonical (_ : _ × State).2 := writeCells_canonical h3
    emit_canonical (onRing_canonical h4)

theorem memberVoid_canonical {f : RingFrame} {s : State} (hc : Canonical s) :
    Canonical (memberVoid f s) := by
  unfold memberVoid
  exact
    have h2 : Canonical (_ : _ × State).2 := writeCells_canonical (.foldl (fun _ _ h1 => (takeCell_canonical h1)) _ hc)
    emit_canonical h2

theorem enterMaster_canonical {s : State} (hc : Canonical s) :
    Canonical (enterMaster s) := by
  unfold enterMaster
  exact
    have h1 : Canonical _ := setRingState_canonical (onRing_canonical hc)
    .ite (sourceLost_canonical h1) h1

theorem masterReturn_canonical {f : RingFrame} {s : State} (hc : Canonical s) :
    Canonical (masterReturn f s) := by
  unfold masterReturn
  exact
    .ite (
      have h1 : Canonical _ := wr_canonical (fput_canonical hc)
      have h4 : Canonical _ := .foldl (fun _ _ h2 => (takeMark_canonical h2)) _ (.foldl (fun _ _ h3 => (takeCell_canonical h3)) _ h1)
      onRing_canonical h4) hc

theorem candidateReceive_canonical {f : RingFrame} {s : State} (hc : Canonical s) :
    Canonical (candidateReceive f s) := by
  unfold candidateReceive
  exact
    .ite (memberForward_canonical (setRingState_canonical (readFrame_canonical hc))) (.ite (enterMaster_canonical hc) (.ite (memberForward_canonical (setRingState_canonical (onRing_canonical hc))) hc))

theorem frameLock_canonical {headerBad : Bool} {s : State} (hc : Canonical s) :
    Canonical (frameLock headerBad s) := by
  unfold frameLock
  exact
    .ite (
      have h1 : Canonical _ := onRing_canonical hc
      .ite (ringFlag_canonical (fclr_canonical h1)) h1) (
      have h2 : Canonical _ := onRing_canonical hc
      .ite h2 (ringFlag_canonical (fset_canonical h2)))

theorem ringTake_canonical {f : RingFrame} {s : State} (hc : Canonical s) :
    Canonical (ringTake f s) := by
  unfold ringTake
  exact
    by
      split
      · exact emit_canonical (readFrame_canonical hc)
      · exact memberForward_canonical (readFrame_canonical hc)
      · exact masterReturn_canonical hc
      · exact candidateReceive_canonical hc
      · exact hc

theorem ringVoid_canonical {f : RingFrame} {s : State} (hc : Canonical s) :
    Canonical (ringVoid f s) := by
  unfold ringVoid
  exact
    by
      split
      · exact emit_canonical hc
      · exact memberVoid_canonical hc
      · exact onRing_canonical (.foldl (fun _ _ h1 => (takeCell_canonical h1)) _ hc)
      · exact hc

theorem ringReceive_canonical {f0 : RingFrame} {bad : List Nat} {s : State} (hc : Canonical s) :
    Canonical (ringReceive f0 bad s) := by
  unfold ringReceive
  exact
    .ite (emit_canonical (.ite hc (frameLock_canonical hc))) (.ite hc (
      have h1 : Canonical _ := ringBoundary_canonical (frameLock_canonical (bumpBy_canonical hc))
      .ite (ringVoid_canonical h1) (ringTake_canonical h1)))

theorem masterFrame_canonical {s : State} (hc : Canonical s) :
    Canonical (masterFrame s) := by
  unfold masterFrame
  exact
    have h1 : Canonical (_ : _ × State).2 := writeMarks_canonical hc
    have h2 : Canonical (_ : _ × State).2 := writeCells_canonical h1
    ringTriggers_canonical (emit_canonical (onRing_canonical (fput_canonical h2)))

theorem formingFrame_canonical {s : State} (hc : Canonical s) :
    Canonical (formingFrame s) := by
  unfold formingFrame
  exact
    emit_canonical (onRing_canonical hc)

theorem originated_canonical {s : State} (hc : Canonical s) :
    Canonical (originated s) := by
  unfold originated
  exact
    onRing_canonical hc

theorem ringOriginate_canonical {s : State} (hc : Canonical s) :
    Canonical (ringOriginate s) := by
  unfold ringOriginate
  exact
    .ite hc (.ite (ringBoundary_canonical hc) (.ite hc (.ite (originated_canonical (masterFrame_canonical hc)) (.ite (originated_canonical (formingFrame_canonical hc)) hc))))

theorem ringMasterTimeout_canonical {s : State} (hc : Canonical s) :
    Canonical (ringMasterTimeout s) := by
  unfold ringMasterTimeout
  exact
    .ite (setRingState_canonical (onRing_canonical hc)) hc

theorem ringCycle_canonical {s : State} (hc : Canonical s) :
    Canonical (ringCycle s) := by
  unfold ringCycle
  exact
    ringMasterTimeout_canonical (.foldl (fun _ _ h1 => (ringTriggerAction_canonical h1)) _ hc)

end Sys2Proof.Machine
end

