-- ==== Sys2Proof/Laws/KeepsConfig.lean ====
section
/-! SUPPORT. Every operation keeps the canonical form of a state: images, their checks and their loading. -/

namespace Sys2Proof.Machine

open Sys2Proof

/-! ### Loader -/

theorem cfgReport_canonical {f : LoadFail} {s : State} (hc : Canonical s) :
    Canonical (cfgReport f s) := by
  unfold cfgReport
  exact
    fput_canonical (fput_canonical hc)

theorem slotAccept_canonical {code : Nat} {im : Image} {s : State} (hc : Canonical s) :
    Canonical (slotAccept code im s) := by
  unfold slotAccept
  exact
    have h1 : Canonical _ := fput_canonical (fput_canonical (wr64_canonical (wr_canonical hc)))
    .upd h1

theorem loadSlots_canonical {vA : SlotVerdict} {vB : SlotVerdict} {s : State} (hc : Canonical s) :
    Canonical (loadSlots vA vB s) := by
  unfold loadSlots
  exact
    by
      extract_lets
      split
      · exact logWrite_canonical (slotAccept_canonical hc)
      · exact have h1 : Canonical _ := cfgReport_canonical (fput_canonical hc)
        by
          extract_lets
          split
          · exact logWrite_canonical (slotAccept_canonical h1)
          · exact have h2 : Canonical _ := cfgReport_canonical (fput_canonical h1)
            have h3 : Canonical _ := fput_canonical h2
            logWrite_canonical (.upd h3)

theorem writeBlock_canonical {k : Nat} {pers : Nat} {role : Nat} {slots : List Nat} {s : State} (hc : Canonical s) :
    Canonical (writeBlock k pers role slots s) := by
  unfold writeBlock
  exact
    have h1 : Canonical _ := fput_canonical (fput_canonical (fput_canonical (fput_canonical hc)))
    have h3 : Canonical _ := .foldl (fun _ _ h2 => (wr_canonical h2)) _ h1
    .foldl (fun _ _ h4 => (fput_canonical h4)) _ h3

theorem writeRegionBlocks_canonical {r : Nat} {pers : Nat} {standby : Nat} {pipes : List PipeEntry} {bad : List Nat} {s : State} (hc : Canonical s) :
    Canonical (writeRegionBlocks r pers standby pipes bad s) := by
  unfold writeRegionBlocks
  exact
    have h2 : Canonical _ := .foldl (fun _ _ h1 => (.ite (writeBlock_canonical h1) (writeBlock_canonical h1))) _ hc
    fput_canonical h2

theorem writePipeCount_canonical {r : Nat} {s : State} (hc : Canonical s) :
    Canonical (writePipeCount r s) := by
  unfold writePipeCount
  exact
    fput_canonical hc

theorem writePort_canonical {e : PortEntry} {s : State} (hc : Canonical s) :
    Canonical (writePort e s) := by
  unfold writePort
  exact
    wr_canonical (wr_canonical hc)

theorem unbindPort_canonical {n : Nat} {s : State} (hc : Canonical s) :
    Canonical (unbindPort n s) := by
  unfold unbindPort
  exact
    wr_canonical (wr_canonical hc)

theorem writePipe_canonical {e : PipeEntry} {s : State} (hc : Canonical s) :
    Canonical (writePipe e s) := by
  unfold writePipe
  exact
    fput_canonical (fput_canonical hc)

theorem writeEntry_canonical {e : SchedEntry} {s : State} (hc : Canonical s) :
    Canonical (writeEntry e s) := by
  unfold writeEntry
  exact
    .ite (wr_canonical (wr_canonical (wr_canonical (wr_canonical hc)))) hc

theorem writeDomain_canonical {d : Nat} {im : Image} {s : State} (hc : Canonical s) :
    Canonical (writeDomain d im s) := by
  unfold writeDomain
  exact
    .ite (
      have h1 : Canonical _ := wr_canonical (wr_canonical (wr_canonical hc))
      have h2 : Canonical _ := wr_canonical (wr_canonical (wr_canonical (wr_canonical h1)))
      setRaster_canonical h2) hc

theorem writePatches_canonical {im : Image} {s : State} (hc : Canonical s) :
    Canonical (writePatches im s) := by
  unfold writePatches
  exact
    have h2 : Canonical _ := .foldl (fun _ _ h1 => (setRegion_canonical h1)) _ hc
    .foldl (fun _ _ h3 => (wr_canonical (wr_canonical (onBlock_canonical h3)))) _ h2

theorem writeHdmMaps_canonical {s : State} (hc : Canonical s) :
    Canonical (writeHdmMaps s) := by
  unfold writeHdmMaps
  exact
    .foldl (fun _ _ h1 => (wr_canonical h1)) _ hc

theorem updateWaived_canonical {s : State} (hc : Canonical s) :
    Canonical (updateWaived s) := by
  unfold updateWaived
  exact
    writeHdmMaps_canonical (fput_canonical hc)

theorem fillCarve_canonical {c : Carve} {s : State} (hc : Canonical s) : Canonical (fillCarve c s) := ⟨hc.1, memZero_wf hc.2⟩

theorem fillCarves_canonical {l : List Carve} {s : State} (hc : Canonical s) :
    Canonical (fillCarves l s) := by
  unfold fillCarves
  exact
    .foldl (fun _ _ h1 => (fillCarve_canonical h1)) _ hc

theorem fillPools_canonical {s : State} (hc : Canonical s) :
    Canonical (fillPools s) := by
  unfold fillPools
  exact
    .foldl (fun _ _ h1 => (.ite (linkChain_canonical h1) h1)) _ hc

theorem install_canonical {im : Image} {s : State} (hc : Canonical s) :
    Canonical (install im s) := by
  unfold install
  exact
    have h1 : Canonical _ := .upd hc
    have h3 : Canonical _ := .foldl (fun _ _ h2 => (writeDomain_canonical h2)) _ (wr_canonical (wr_canonical h1))
    have h5 : Canonical _ := .foldl (fun _ _ h4 => (writeEntry_canonical h4)) _ h3
    have h7 : Canonical _ := .foldl (fun _ _ h6 => (wr64_canonical (writePipeCount_canonical (writeRegionBlocks_canonical h6)))) _ h5
    have h10 : Canonical _ := .foldl (fun _ _ h8 => (writePort_canonical h8)) _ (.foldl (fun _ _ h9 => (writePipe_canonical h9)) _ h7)
    have h12 : Canonical _ := .foldl (fun _ _ h11 => (fput_canonical h11)) _ (writePatches_canonical h10)
    have h14 : Canonical _ := .foldl (fun _ _ h13 => (wr_canonical h13)) _ h12
    have h15 : Canonical _ := fput_canonical (fput_canonical h14)
    fillPools_canonical (fillCarves_canonical (updateWaived_canonical h15))

theorem clearShare_canonical {r : Nat} {s : State} (hc : Canonical s) :
    Canonical (clearShare r s) := by
  unfold clearShare
  exact
    have h2 : Canonical _ := .foldl (fun _ _ h1 => (writeEntry_canonical h1)) _ hc
    have h4 : Canonical _ := .foldl (fun _ _ h3 => (unbindPort_canonical (setPort_canonical (fclr_canonical (portDisable_canonical h3))))) _ h2
    have h6 : Canonical _ := .foldl (fun _ _ h5 => (setPipe_canonical (fput_canonical h5))) _ h4
    .upd h6

theorem writeShare_canonical {r : Nat} {im : Image} {bad : List Nat} {s : State} (hc : Canonical s) :
    Canonical (writeShare r im bad s) := by
  unfold writeShare
  exact
    have h2 : Canonical _ := .foldl (fun _ _ h1 => (writeEntry_canonical h1)) _ hc
    have h3 : Canonical _ := .upd h2
    have h4 : Canonical _ := writePipeCount_canonical (writeRegionBlocks_canonical h3)
    have h7 : Canonical _ := .foldl (fun _ _ h5 => (writePort_canonical h5)) _ (.foldl (fun _ _ h6 => (writePipe_canonical h6)) _ h4)
    updateWaived_canonical (fillCarves_canonical h7)

theorem emptyRegion_canonical {r : Nat} {s : State} (hc : Canonical s) :
    Canonical (emptyRegion r s) := by
  unfold emptyRegion
  exact
    have h1 : Canonical _ := clearShare_canonical hc
    have h3 : Canonical _ := by
      split
      · exact .foldl (fun _ _ h2 => (writeEntry_canonical h2)) _ h1
      · exact h1
    have h4 : Canonical _ := writePipeCount_canonical (writeRegionBlocks_canonical h3)
    setRgcState_canonical (fset_canonical (updateWaived_canonical h4))

theorem activateDomain_canonical {r : Nat} {d : Nat} {im : Image} {s : State} (hc : Canonical s) :
    Canonical (activateDomain r d im s) := by
  unfold activateDomain
  exact
    .foldl (fun _ _ h1 => (writeEntry_canonical h1)) _ hc

end Sys2Proof.Machine
end

