-- ==== Sys2Proof/Laws/KeepsCodec.lean ====
section
/-! SUPPORT. Every operation keeps the canonical form of a state: sequencers, regions, encode and decode. -/

namespace Sys2Proof.Machine

open Sys2Proof

/-! ### Sequencer -/

theorem onPic_canonical {p : Nat} {i : Nat} {f : Pic → Pic} {s : State} (hc : Canonical s) :
    Canonical (onPic p i f s) := by
  unfold onPic
  exact
    onPipe_canonical hc

theorem setRope_canonical {r : Nat} {b : Nat} {q : Nat} {x : Rope} {s : State} (hc : Canonical s) :
    Canonical (setRope r b q x s) := by
  unfold setRope
  exact
    onBlock_canonical hc

theorem setRopeAt_canonical {id : Nat} {x : Rope} {s : State} (hc : Canonical s) :
    Canonical (setRopeAt id x s) := by
  unfold setRopeAt
  exact
    setRope_canonical hc

theorem belayTraffic_canonical {r : Nat} {p : Nat} {n : Nat} {s : State} (hc : Canonical s) :
    Canonical (belayTraffic r p n s) := by
  unfold belayTraffic
  exact
    .updFs hc rfl

theorem ownTraffic_canonical {r : Nat} {n : Nat} {s : State} (hc : Canonical s) :
    Canonical (ownTraffic r n s) := by
  unfold ownTraffic
  exact
    .updFs hc rfl

theorem writeCkpt_canonical {r : Nat} {b : Nat} {c : Ckpt} {s : State} (hc : Canonical s) :
    Canonical (writeCkpt r b c s) := by
  unfold writeCkpt
  exact
    setRegion_canonical hc

theorem saveCkpt_canonical {r : Nat} {b : Nat} {s : State} (hc : Canonical s) :
    Canonical (saveCkpt r b s) := by
  unfold saveCkpt
  exact
    by
      split
      · exact hc
      · exact by
          split
          · exact hc
          · exact writeCkpt_canonical hc

theorem saveRopeCkpts_canonical {p : Nat} {id : Nat} {s : State} (hc : Canonical s) :
    Canonical (saveRopeCkpts p id s) := by
  unfold saveRopeCkpts
  exact
    by
      split
      · exact hc
      · exact .foldl (fun _ _ h1 => (by
          split
          · exact by
              split
              · exact .ite (saveCkpt_canonical h1) h1
              · exact h1
          · exact h1)) _ hc

theorem setDq_canonical {r : Nat} {b : Nat} {q : Nat} {x : Dq} {s : State} (hc : Canonical s) :
    Canonical (setDq r b q x s) := by
  unfold setDq
  exact
    onBlock_canonical hc

theorem dqPush_canonical {r : Nat} {b : Nat} {q : Nat} {t : BitVec 128} {s : State} (hc : Canonical s) :
    Canonical (dqPush r b q t s) := by
  unfold dqPush
  exact
    have h1 : Canonical _ := setDq_canonical hc
    have h2 : Canonical _ := fput_canonical (fput_canonical h1)
    .ite (raiseWhen_canonical (fset_canonical h2)) h2

theorem dqStall_canonical {r : Nat} {b : Nat} {q : Nat} {s : State} (hc : Canonical s) :
    Canonical (dqStall r b q s) := by
  unfold dqStall
  exact
    bumpWrap_canonical (fset_canonical hc)

theorem dqPop_canonical {r : Nat} {b : Nat} {q : Nat} {s : State} (hc : Canonical s) :
    Canonical (dqPop r b q s) := by
  unfold dqPop
  exact
    by
      extract_lets
      split
      · exact hc
      · exact bumpWrap_canonical (fput_canonical (setDq_canonical hc))

theorem flushQueue_canonical {r : Nat} {b : Nat} {q : Nat} {s : State} (hc : Canonical s) :
    Canonical (flushQueue r b q s) := by
  unfold flushQueue
  exact
    fput_canonical (setDq_canonical hc)

theorem segmentTraffic_canonical {m : Nat} {r : Nat} {b : Nat} {q : Nat} {s : State} (hc : Canonical s) :
    Canonical (segmentTraffic m r b q s) := by
  unfold segmentTraffic
  exact
    have h1 : Canonical _ := setDq_canonical hc
    .ite (.updFs h1 rfl) h1

theorem dqWriteServe_canonical {r : Nat} {b : Nat} {q : Nat} {s : State} (hc : Canonical s) :
    Canonical (dqWriteServe r b q s) := by
  unfold dqWriteServe
  exact
    by
      extract_lets
      split
      · exact hc
      · exact by
          split
          · exact setDq_canonical hc
          · exact dqPush_canonical (setDq_canonical hc)

theorem dqReadServe_canonical {r : Nat} {b : Nat} {q : Nat} {s : State} (hc : Canonical s) :
    Canonical (dqReadServe r b q s) := by
  unfold dqReadServe
  exact
    by
      extract_lets
      split
      · exact hc
      · exact dqPop_canonical (setDq_canonical hc)

theorem dqWriteAsk_canonical {r : Nat} {b : Nat} {q : Nat} {who : Nat} {s : State} (hc : Canonical s) :
    Canonical (dqWriteAsk r b q who s) := by
  unfold dqWriteAsk
  exact
    have h1 : Canonical _ := dqWriteServe_canonical (setDq_canonical hc)
    .ite (dqStall_canonical h1) h1

theorem dqReadAsk_canonical {r : Nat} {b : Nat} {q : Nat} {who : Nat} {s : State} (hc : Canonical s) :
    Canonical (dqReadAsk r b q who s) := by
  unfold dqReadAsk
  exact
    dqReadServe_canonical (setDq_canonical hc)

theorem dqCycle_canonical {r : Nat} {b : Nat} {q : Nat} {s : State} (hc : Canonical s) :
    Canonical (dqCycle r b q s) := by
  unfold dqCycle
  exact
    have h1 : Canonical _ := dqReadServe_canonical (setDq_canonical hc)
    have h2 : Canonical _ := .ite h1 (dqWriteServe_canonical h1)
    .ite (dqStall_canonical h2) h2

theorem segmentMove_canonical {r : Nat} {b : Nat} {q : Nat} {s : State} (hc : Canonical s) :
    Canonical (segmentMove r b q s) := by
  unfold segmentMove
  exact
    .ite hc (
      have h1 : Canonical _ := .ite (dqReadAsk_canonical hc) (.ite hc (dqWriteAsk_canonical hc))
      .ite h1 (segmentTraffic_canonical h1))

theorem dqReset_canonical {r : Nat} {b : Nat} {q : Nat} {s : State} (hc : Canonical s) :
    Canonical (dqReset r b q s) := by
  unfold dqReset
  exact
    have h1 : Canonical _ := bumpWrapBy_canonical (setDq_canonical hc)
    bump_canonical (fset_canonical (fput_canonical h1))

theorem dqLevelWrite_canonical {r : Nat} {b : Nat} {q : Nat} {v : Word} {s : State} (hc : Canonical s) :
    Canonical (dqLevelWrite r b q v s) := by
  unfold dqLevelWrite
  exact
    fput_canonical (fput_canonical hc)

theorem setSeq_canonical {r : Nat} {b : Nat} {routine : Nat} {st : Nat} {s : State} (hc : Canonical s) :
    Canonical (setSeq r b routine st s) := by
  unfold setSeq
  exact
    fput_canonical (fput_canonical hc)

theorem writeResume_canonical {r : Nat} {b : Nat} {cause : Nat} {s : State} (hc : Canonical s) :
    Canonical (writeResume r b cause s) := by
  unfold writeResume
  exact
    have h2 : Canonical _ := .foldl (fun _ _ h1 => (wr_canonical h1)) _ hc
    raise_canonical (onBlock_canonical (setSeq_canonical (fset_canonical h2)))

theorem takeRequests_canonical {r : Nat} {b : Nat} {s : State} (hc : Canonical s) :
    Canonical (takeRequests r b s) := by
  unfold takeRequests
  have h1 {x l} : Canonical (List.foldl (fun (a : State) (q : CairnReq) =>
      match q with | .disable p => pipeDisable p a | .abort _ => a) (setBlock r b x s) l) := by
    refine .foldl (fun _ _ h => ?_) _ (setBlock_canonical hc)
    split
    · exact pipeDisable_canonical h
    · exact h
  dsimp only
  split
  · exact .ite (writeResume_canonical h1) h1
  · exact h1

theorem requestCairn_canonical {r : Nat} {b : Nat} {q : CairnReq} {s : State} (hc : Canonical s) :
    Canonical (requestCairn r b q s) := by
  unfold requestCairn
  exact
    have h1 : Canonical _ := onBlock_canonical hc
    .ite h1 (takeRequests_canonical h1)

theorem seqStart_canonical {r : Nat} {b : Nat} {routine : Nat} {key : Nat} {resume : Bool} {s : State} (hc : Canonical s) :
    Canonical (seqStart r b routine key resume s) := by
  unfold seqStart
  exact
    setSeq_canonical (onBlock_canonical hc)

theorem lineStoreTest_canonical {k : Nat} {s : State} (hc : Canonical s) :
    Canonical (lineStoreTest k s) := by
  unfold lineStoreTest
  exact
    .ite (seqStart_canonical hc) hc

theorem seqEnd_canonical {r : Nat} {b : Nat} {s : State} (hc : Canonical s) :
    Canonical (seqEnd r b s) := by
  unfold seqEnd
  exact
    .ite hc (takeRequests_canonical (setSeq_canonical hc))

theorem cairn_canonical {r : Nat} {b : Nat} {gap : Nat} {progress : Nat} {s : State} (hc : Canonical s) :
    Canonical (cairn r b gap progress s) := by
  unfold cairn
  exact
    .ite (
      have h1 : Canonical _ := fput_canonical hc
      takeRequests_canonical (onBlock_canonical h1)) hc

theorem seqWait_canonical {r : Nat} {b : Nat} {s : State} (hc : Canonical s) :
    Canonical (seqWait r b s) := by
  unfold seqWait
  exact
    .ite (takeRequests_canonical (fput_canonical hc)) hc

theorem seqGo_canonical {r : Nat} {b : Nat} {s : State} (hc : Canonical s) :
    Canonical (seqGo r b s) := by
  unfold seqGo
  exact
    .ite (fput_canonical hc) hc

theorem dqTokenWrite_canonical {r : Nat} {b : Nat} {q : Nat} {who : Nat} {far : Bool} {s : State} (hc : Canonical s) :
    Canonical (dqTokenWrite r b q who far s) := by
  unfold dqTokenWrite
  exact
    .ite hc (.ite (dqWriteAsk_canonical hc) (.ite (by
      split
      · exact hc
      · exact .ite hc (segmentTraffic_canonical (setDq_canonical hc))) (.ite hc (.ite (seqWait_canonical (dqWriteAsk_canonical hc)) (seqGo_canonical (dqWriteAsk_canonical hc))))))

theorem dqTokenRead_canonical {r : Nat} {b : Nat} {q : Nat} {who : Nat} {s : State} (hc : Canonical s) :
    Canonical (dqTokenRead r b q who s) := by
  unfold dqTokenRead
  exact
    .ite hc (.ite (dqReadAsk_canonical hc) (.ite (.ite hc (segmentTraffic_canonical (setDq_canonical hc))) (.ite (seqWait_canonical (dqReadAsk_canonical hc)) (seqGo_canonical (dqReadAsk_canonical hc)))))

theorem setSpare_canonical {r : Nat} {b : Nat} {c : Nat} {s : State} (hc : Canonical s) :
    Canonical (setSpare r b c s) := by
  unfold setSpare
  exact
    fput_canonical hc

theorem setCellRole_canonical {r : Nat} {b : Nat} {c : Nat} {v : Nat} {s : State} (hc : Canonical s) :
    Canonical (setCellRole r b c v s) := by
  unfold setCellRole
  exact
    fput_canonical hc

theorem assignRoles_canonical {r : Nat} {b : Nat} {decodes : Bool} {s : State} (hc : Canonical s) :
    Canonical (assignRoles r b decodes s) := by
  unfold assignRoles
  exact
    have h1 : Canonical _ := wr_canonical (onBlock_canonical hc)
    .foldl (fun _ _ h2 => (setCellRole_canonical h2)) _ h1

theorem moveRole_canonical {r : Nat} {b : Nat} {c : Nat} {d : Nat} {s : State} (hc : Canonical s) :
    Canonical (moveRole r b c d s) := by
  unfold moveRole
  exact
    setCellRole_canonical (setCellRole_canonical hc)

theorem retireCell_canonical {r : Nat} {b : Nat} {c : Nat} {s : State} (hc : Canonical s) :
    Canonical (retireCell r b c s) := by
  unfold retireCell
  exact
    have h1 : Canonical _ := fput_canonical hc
    have h2 : Canonical _ := onBlock_canonical h1
    .ite (setSpare_canonical (setCellRole_canonical h2)) (.ite h2 (setSpare_canonical (moveRole_canonical h2)))

theorem spareMove_canonical {r : Nat} {b : Nat} {s : State} (hc : Canonical s) :
    Canonical (spareMove r b s) := by
  unfold spareMove
  exact
    .ite hc (by
      split
      · exact hc
      · exact setSpare_canonical (moveRole_canonical (setBlock_canonical hc)))

theorem dropRunning_canonical {r : Nat} {b : Nat} {s : State} (hc : Canonical s) :
    Canonical (dropRunning r b s) := by
  unfold dropRunning
  exact
    by
      split
      · exact hc
      · exact onPic_canonical (onBlock_canonical hc)

theorem remapParts_canonical {f : Nat → Nat} {s : State} (hc : Canonical s) :
    Canonical (remapParts f s) := by
  unfold remapParts
  exact
    .upd hc

theorem dropWork_canonical {p : Nat} {s : State} (hc : Canonical s) :
    Canonical (dropWork p s) := by
  unfold dropWork
  exact
    have h2 : Canonical _ := .foldl (fun _ _ h1 => (by
      split
      · exact .ite (seqEnd_canonical (fclr_canonical (onBlock_canonical h1))) h1
      · exact h1)) _ hc
    have h4 : Canonical _ := .foldl (fun _ _ h3 => (.ite (flushQueue_canonical (fclr_canonical h3)) h3)) _ h2
    have h6 : Canonical _ := .foldl (fun _ _ h5 => (unitFreeAll_canonical (freeChunks_canonical h5))) _ h4
    .foldl (fun _ _ h7 => (unitFreeAll_canonical h7)) _ h6

theorem pipeLost_canonical {p : Nat} {s : State} (hc : Canonical s) :
    Canonical (pipeLost p s) := by
  unfold pipeLost
  exact
    have h1 : Canonical _ := fclr_canonical (fclr_canonical (dropWork_canonical hc))
    pipFault_canonical (onPipe_canonical h1)

theorem retireBlock_canonical {r : Nat} {b : Nat} {s : State} (hc : Canonical s) :
    Canonical (retireBlock r b s) := by
  unfold retireBlock
  exact
    have h1 : Canonical _ := setBlkRole_canonical (dropRunning_canonical hc)
    have h2 : Canonical _ := .ite (fput_canonical h1) h1
    have h3 : Canonical _ := remapParts_canonical h2
    have h5 : Canonical _ := .foldl (fun _ _ h4 => (flushQueue_canonical (fclr_canonical h4))) _ h3
    have h6 : Canonical _ := seqEnd_canonical (fclr_canonical (onBlock_canonical h5))
    .foldl (fun _ _ h7 => (pipeLost_canonical h7)) _ h6

theorem degradeRegion_canonical {r : Nat} {s : State} (hc : Canonical s) :
    Canonical (degradeRegion r s) := by
  unfold degradeRegion
  exact
    have h1 : Canonical _ := .ite (raise_canonical (setRgcState_canonical hc)) hc
    .foldl (fun _ _ h2 => (
      have h3 : Canonical _ := pipFault_canonical (fput_canonical h2)
      .ite (pipFault_canonical (pipeDisable_canonical h3)) h3)) _ h1

theorem addReaction_canonical {k : Nat} {a : Reaction} {s : State} (hc : Canonical s) :
    Canonical (addReaction k a s) := by
  unfold addReaction
  exact
    onBlock_canonical hc

theorem classEffect_canonical {r : Nat} {b : Nat} {f : FaultIn} {s : State} (hc : Canonical s) :
    Canonical (classEffect r b f s) := by
  unfold classEffect
  exact
    by
      split
      · exact .ite (setRope_canonical (bump_canonical hc)) hc
      · exact .ite (dqReset_canonical hc) hc
      · exact onBlock_canonical (bump_canonical hc)
      · exact .ite (retireCell_canonical hc) hc
      · exact setRegion_canonical hc
      · exact hc

theorem askRerun_canonical {r : Nat} {b : Nat} {f : FaultIn} {s : State} (hc : Canonical s) :
    Canonical (askRerun r b f s) := by
  unfold askRerun
  exact
    .ite (.ite (setSpare_canonical (onBlock_canonical hc)) (.ite (setSpare_canonical (onBlock_canonical hc)) hc)) (.ite (by
      split
      · exact addReaction_canonical hc
      · exact hc) (addReaction_canonical hc))

theorem stateCopyLost_canonical {r : Nat} {b : Nat} {s : State} (hc : Canonical s) :
    Canonical (stateCopyLost r b s) := by
  unfold stateCopyLost
  exact
    by
      split
      · exact .ite (pipeLost_canonical hc) hc
      · exact hc

theorem reactBlock_canonical {r : Nat} {b : Nat} {lvl : Nat} {f : FaultIn} {s : State} (hc : Canonical s) :
    Canonical (reactBlock r b lvl f s) := by
  unfold reactBlock
  exact
    have h1 : Canonical _ := classEffect_canonical hc
    have h2 : Canonical _ := .ite (stateCopyLost_canonical h1) h1
    .ite (
      have h3 : Canonical _ := degradeRegion_canonical h2
      .ite h3 (retireBlock_canonical h3)) (.ite (retireBlock_canonical h2) (.ite h2 (.ite (addReaction_canonical h2) (askRerun_canonical h2))))

theorem blockFault_canonical {r : Nat} {b : Nat} {fs : List FaultIn} {s : State} (hc : Canonical s) :
    Canonical (blockFault r b fs s) := by
  unfold blockFault
  exact
    .ite (.foldl (fun _ _ h1 => (reactBlock_canonical (enterFault_canonical h1))) _ hc) hc

theorem countRerun_canonical {p : Nat} {i : Nat} {row : Nat} {col : Nat} {s : State} (hc : Canonical s) :
    Canonical (countRerun p i row col s) := by
  unfold countRerun
  exact
    onPic_canonical hc

theorem restoreRope_canonical {id : Nat} {c : Ckpt} {s : State} (hc : Canonical s) :
    Canonical (restoreRope id c s) := by
  unfold restoreRope
  exact
    .ite hc (setRope_canonical (flushQueue_canonical hc))

theorem restoreCkpt_canonical {r : Nat} {b : Nat} {p : Nat} {i : Nat} {row : Nat} {col : Nat} {s : State} (hc : Canonical s) :
    Canonical (restoreCkpt r b p i row col s) := by
  unfold restoreCkpt
  exact
    by
      split
      · exact have h1 : Canonical _ := .ite (restoreRope_canonical hc) hc
        have h2 : Canonical _ := .ite (onPic_canonical h1) h1
        onBlock_canonical h2
      · exact hc

theorem belayRerun_canonical {r : Nat} {b : Nat} {work : List LocalReq} {s : State} (hc : Canonical s) :
    Canonical (belayRerun r b work s) := by
  unfold belayRerun
  exact
    .ite hc (
      have h1 : Canonical _ := .ite (moveRole_canonical hc) hc
      have h2 : Canonical _ := setBlock_canonical h1
      by
        extract_lets
        split
        · exact h2
        · exact have h3 : Canonical _ := belayTraffic_canonical (restoreCkpt_canonical (countRerun_canonical h2))
          setSeq_canonical (fset_canonical h3))

theorem takeoverRope_canonical {r : Nat} {b : Nat} {v : Nat} {q : Nat} {s : State} (hc : Canonical s) :
    Canonical (takeoverRope r b v q s) := by
  unfold takeoverRope
  exact
    fput_canonical (fput_canonical (fput_canonical hc))

theorem takeoverRegisters_canonical {r : Nat} {b : Nat} {v : Nat} {s : State} (hc : Canonical s) :
    Canonical (takeoverRegisters r b v s) := by
  unfold takeoverRegisters
  exact
    have h3 : Canonical _ := .foldl (fun _ _ h1 => (takeoverRope_canonical h1)) _ (.foldl (fun _ _ h2 => (wr_canonical h2)) _ hc)
    have h4 : Canonical _ := fput_canonical (fput_canonical (fput_canonical h3))
    have h6 : Canonical _ := .foldl (fun _ _ h5 => (wr_canonical h5)) _ (fput_canonical (fput_canonical h4))
    .foldl (fun _ _ h7 => (fclr_canonical h7)) _ h6

theorem takeoverRoles_canonical {r : Nat} {b : Nat} {v : Nat} {x : Block} {s : State} (hc : Canonical s) :
    Canonical (takeoverRoles r b v x s) := by
  unfold takeoverRoles
  exact
    have h1 : Canonical _ := remapParts_canonical hc
    have h2 : Canonical _ := .upd h1
    have h3 : Canonical _ := setBlock_canonical (setBlkRole_canonical (setBlkRole_canonical (fput_canonical h2)))
    fclr_canonical (.foldl (fun _ _ h4 => (fput_canonical h4)) _ h3)

theorem takeoverUnit_canonical {r : Nat} {b : Nat} {v : Nat} {run : Option (Nat × Nat × Nat × Nat)} {s : State} (hc : Canonical s) :
    Canonical (takeoverUnit r b v run s) := by
  unfold takeoverUnit
  exact
    by
      split
      · exact hc
      · exact have h1 : Canonical _ := countRerun_canonical (onPic_canonical hc)
        have h2 : Canonical _ := by
          split
          · exact writeCkpt_canonical h1
          · exact h1
        setSeq_canonical (fset_canonical (restoreCkpt_canonical (onBlock_canonical (ownTraffic_canonical (belayTraffic_canonical h2)))))

theorem takeoverBlock_canonical {r : Nat} {v : Nat} {x : Block} {s : State} (hc : Canonical s) :
    Canonical (takeoverBlock r v x s) := by
  unfold takeoverBlock
  exact
    onBlock_canonical hc

theorem standbyTakeover_canonical {r : Nat} {b : Nat} {s : State} (hc : Canonical s) :
    Canonical (standbyTakeover r b s) := by
  unfold standbyTakeover
  exact
    .ite hc (by
      split
      · exact retireBlock_canonical (degradeRegion_canonical hc)
      · exact .foldl (fun _ _ h1 => (addReaction_canonical h1)) _ (takeoverUnit_canonical (assignRoles_canonical (seqStart_canonical (takeoverBlock_canonical (takeoverRoles_canonical (takeoverRegisters_canonical hc)))))))

theorem blockSelftestDone_canonical {r : Nat} {b : Nat} {pass : Bool} {s : State} (hc : Canonical s) :
    Canonical (blockSelftestDone r b pass s) := by
  unfold blockSelftestDone
  exact
    .ite hc (
      have h1 : Canonical _ := seqEnd_canonical (setBlock_canonical hc)
      .ite (
        have h2 : Canonical _ := setBlkRole_canonical h1
        .ite (fput_canonical h2) h2) (blockFault_canonical h1))

theorem inservicePassDone_canonical {r : Nat} {b : Nat} {pass : Bool} {s : State} (hc : Canonical s) :
    Canonical (inservicePassDone r b pass s) := by
  unfold inservicePassDone
  exact
    .ite hc (.ite (setSpare_canonical (setBlock_canonical hc)) (blockFault_canonical hc))

theorem homedLost_canonical {r : Nat} {s : State} (hc : Canonical s) :
    Canonical (homedLost r s) := by
  unfold homedLost
  exact
    .foldl (fun _ _ h1 => (pipeLost_canonical h1)) _ hc

theorem blockGivesUp_canonical {r : Nat} {b : Nat} {s : State} (hc : Canonical s) :
    Canonical (blockGivesUp r b s) := by
  unfold blockGivesUp
  exact
    have h1 : Canonical _ := remapParts_canonical (dropRunning_canonical hc)
    have h3 : Canonical _ := .foldl (fun _ _ h2 => (flushQueue_canonical (fclr_canonical h2))) _ h1
    seqEnd_canonical (fclr_canonical (onBlock_canonical h3))

theorem pictureWorkStops_canonical {r : Nat} {s : State} (hc : Canonical s) :
    Canonical (pictureWorkStops r s) := by
  unfold pictureWorkStops
  exact
    homedLost_canonical (.foldl (fun _ _ h1 => (blockGivesUp_canonical h1)) _ (setRegion_canonical hc))

theorem reactVote_canonical {r : Nat} {lvl : Nat} {unit : Nat} {s : State} (hc : Canonical s) :
    Canonical (reactVote r lvl unit s) := by
  unfold reactVote
  exact
    .ite (pictureWorkStops_canonical hc) (
      have h1 : Canonical _ := fset_canonical hc
      have h2 : Canonical _ := .ite (fput_canonical h1) h1
      have h3 : Canonical _ := bump_canonical h2
      .ite (.ite (setRegion_canonical h3) (setRegion_canonical h3)) h3)

theorem reactRegion_canonical {r : Nat} {lvl : Nat} {f : FaultIn} {s : State} (hc : Canonical s) :
    Canonical (reactRegion r lvl f s) := by
  unfold reactRegion
  exact
    have h1 : Canonical _ := .ite (degradeRegion_canonical hc) hc
    .ite (reactVote_canonical h1) (.ite (
      have h2 : Canonical _ := fset_canonical h1
      .ite h2 (updatePoints_canonical (.upd h2))) h1)

theorem regionFaults_canonical {r : RegionId} {fs : List FaultIn} {s : State} (hc : Canonical s) :
    Canonical (regionFaults r fs s) := by
  unfold regionFaults
  exact
    .ite hc (.foldl (fun _ _ h1 => (reactRegion_canonical (enterFault_canonical h1))) _ hc)

theorem rgcResyncDone_canonical {r : Nat} {s : State} (hc : Canonical s) :
    Canonical (rgcResyncDone r s) := by
  unfold rgcResyncDone
  exact
    setRegion_canonical hc

theorem quarantine_canonical {n : Nat} {s : State} (hc : Canonical s) :
    Canonical (quarantine n s) := by
  unfold quarantine
  exact
    by
      split
      · exact hc
      · exact have h1 : Canonical _ := setBuf_canonical hc
        .ite h1 (.ite (setHead_canonical (setFree_canonical (setHeld_canonical h1))) (setHeld_canonical h1))

theorem reactChip_canonical {f : FaultIn} {v : Victim} {s : State} (hc : Canonical s) :
    Canonical (reactChip f v s) := by
  unfold reactChip
  exact
    by
      split
      · exact quarantine_canonical hc
      · exact .ite (retrainFailed_canonical hc) hc
      · exact .ite (dmaHalt_canonical hc) hc
      · exact fset_canonical (fput_canonical hc)
      · exact dropOther_canonical hc
      · exact hc

theorem chipFaultAt_canonical {f : FaultIn} {v : Victim} {s : State} (hc : Canonical s) :
    Canonical (chipFaultAt f v s) := by
  unfold chipFaultAt
  exact
    .ite hc (reactChip_canonical (chipFault_canonical hc))

theorem retrainDone_canonical {c : Nat} {ok : Bool} {s : State} (hc : Canonical s) :
    Canonical (retrainDone c ok s) := by
  unfold retrainDone
  exact
    .ite hc (
      have h1 : Canonical _ := hostRun_canonical (retrainEnd_canonical hc)
      .ite (channelTrained_canonical h1) (chipFaultAt_canonical h1))

theorem injectWrite_canonical {u : FaultUnit} {v : Word} {s : State} (hc : Canonical s) :
    Canonical (injectWrite u v s) := by
  unfold injectWrite
  exact
    have h1 : Canonical _ := fput_canonical (fput_canonical (fput_canonical (fput_canonical hc)))
    .ite h1 (.ite (fput_canonical (fclr_canonical (.upd h1))) (
      have h2 : Canonical _ := fput_canonical h1
      .ite h2 (fset_canonical (.upd h2))))

theorem unitFaults_canonical {u : FaultUnit} {fs : List FaultIn} {s : State} (hc : Canonical s) :
    Canonical (unitFaults u fs s) := by
  unfold unitFaults
  exact
    by
      split
      · exact .foldl (fun _ _ h1 => (chipFaultAt_canonical h1)) _ hc
      · exact regionFaults_canonical hc
      · exact blockFault_canonical hc

theorem injStarts_canonical {r : Nat} {b : Nat} {s : State} (hc : Canonical s) :
    Canonical (injStarts r b s) := by
  unfold injStarts
  exact
    by
      extract_lets
      split
      · exact .upd hc
      · exact hc

theorem injWaits_canonical {r : Nat} {b : Nat} {s : State} (hc : Canonical s) :
    Canonical (injWaits r b s) := by
  unfold injWaits
  exact
    by
      extract_lets
      split
      · exact .upd hc
      · exact hc

theorem injectionFire_canonical {u : FaultUnit} {both : Bool} {real : List FaultIn} {s : State} (hc : Canonical s) :
    Canonical (injectionFire u both real s) := by
  unfold injectionFire
  exact
    by
      split
      · exact hc
      · exact .ite hc (
          have h1 : Canonical _ := fset_canonical (fclr_canonical (.upd hc))
          have h2 : Canonical _ := unitFaults_canonical h1
          have h3 : Canonical _ := recordFault_canonical h2
          .ite h3 (by
            split
            · exact reactChip_canonical h3
            · exact reactRegion_canonical h3
            · exact reactBlock_canonical h3))

/-! ### Region -/

theorem wakeRegate_canonical {r : Nat} {s : State} (hc : Canonical s) :
    Canonical (wakeRegate r s) := by
  unfold wakeRegate
  exact
    .ite (gateRegion_canonical hc) hc

theorem regionIdle_canonical {r : Nat} {s : State} (hc : Canonical s) :
    Canonical (regionIdle r s) := by
  unfold regionIdle
  exact
    .ite (setRgcState_canonical hc) hc

theorem takeRegionAct_canonical {r : Nat} {a : RegionAct} {s : State} (hc : Canonical s) :
    Canonical (takeRegionAct r a s) := by
  unfold takeRegionAct
  exact
    by
      split
      · exact .ite (gateRegion_canonical hc) hc
      · exact .ite (powerUp_canonical hc) hc
      · exact .ite hc (updatePoints_canonical (.upd hc))

theorem setWaitingActs_canonical {r : Nat} {l : List RegionAct} {s : State} (hc : Canonical s) :
    Canonical (setWaitingActs r l s) := by
  unfold setWaitingActs
  exact
    .upd hc

theorem regionAct_canonical {r : Nat} {a : RegionAct} {s : State} (hc : Canonical s) :
    Canonical (regionAct r a s) := by
  unfold regionAct
  exact
    .ite hc (.ite (takeRegionAct_canonical hc) (setWaitingActs_canonical hc))

theorem regionActAtIdle_canonical {r : Nat} {s : State} (hc : Canonical s) :
    Canonical (regionActAtIdle r s) := by
  unfold regionActAtIdle
  exact
    by
      split
      · exact hc
      · exact .ite (takeRegionAct_canonical (setWaitingActs_canonical hc)) hc

theorem regionUp_canonical {r : Nat} {s : State} (hc : Canonical s) :
    Canonical (regionUp r s) := by
  unfold regionUp
  exact
    onAction_canonical (fun h1 => (regionAct_canonical h1)) hc

theorem regionGate_canonical {r : Nat} {s : State} (hc : Canonical s) :
    Canonical (regionGate r s) := by
  unfold regionGate
  exact
    onAction_canonical (fun h1 => (regionAct_canonical h1)) hc

theorem regionDvfs_canonical {r : Nat} {s : State} (hc : Canonical s) :
    Canonical (regionDvfs r s) := by
  unfold regionDvfs
  exact
    onAction_canonical (fun h1 => (regionAct_canonical h1)) hc

theorem recomposeRegate_canonical {r : Nat} {s : State} (hc : Canonical s) :
    Canonical (recomposeRegate r s) := by
  unfold recomposeRegate
  exact
    .ite (gateRegion_canonical (setRegion_canonical hc)) hc

theorem nopAction_canonical {n : Nat} {s : State} (hc : Canonical s) :
    Canonical (nopAction n s) := by
  unfold nopAction
  exact
    onAction_canonical (fun h1 => h1) hc

theorem hbmRetrainAction_canonical {c : Nat} {ch : Nat} {s : State} (hc : Canonical s) :
    Canonical (hbmRetrainAction c ch s) := by
  unfold hbmRetrainAction
  exact
    onAction_canonical (fun h1 => (.ite (hbmRetrain_canonical h1) h1)) hc

theorem trigOutAction_canonical {n : Nat} {s : State} (hc : Canonical s) :
    Canonical (trigOutAction n s) := by
  unfold trigOutAction
  exact
    onAction_canonical (fun h1 => (.ite (trigOut_canonical h1) h1)) hc

theorem irqAction_canonical {n : Nat} {s : State} (hc : Canonical s) :
    Canonical (irqAction n s) := by
  unfold irqAction
  exact
    onAction_canonical (fun h1 => (.ite (raise_canonical h1) h1)) hc

theorem ringMark_canonical {n : Nat} {s : State} (hc : Canonical s) :
    Canonical (ringMark n s) := by
  unfold ringMark
  exact
    onAction_canonical (fun h1 => (.ite (ringMarkAction_canonical h1) h1)) hc

theorem regionOffWrite_canonical {d : Nat} {v : Word} {s : State} (hc : Canonical s) :
    Canonical (regionOffWrite d v s) := by
  unfold regionOffWrite
  exact
    .ite (accessErr_canonical hc) (.foldl (fun _ _ h1 => (.ite (gateRegion_canonical h1) (.ite (setWaitingActs_canonical h1) h1))) _ (fput_canonical hc))

theorem lowerRegion_canonical {r : Nat} {s : State} (hc : Canonical s) :
    Canonical (lowerRegion r s) := by
  unfold lowerRegion
  exact
    updatePoints_canonical (.upd hc)

theorem raiseRegion_canonical {r : Nat} {s : State} (hc : Canonical s) :
    Canonical (raiseRegion r s) := by
  unfold raiseRegion
  exact
    updatePoints_canonical (.upd hc)

theorem stepDown_canonical {s : State} (hc : Canonical s) : Canonical (stepDown s).2 := by
  unfold stepDown
  dsimp only
  split
  · exact logWrite_canonical (.foldl (fun _ _ h1 => gateRegion_canonical h1) _ hc)
  · split
    · exact logWrite_canonical (raise_canonical (bump_canonical (pipFault_canonical (pipeDisable_canonical hc))))
    · split
      · exact logWrite_canonical (lowerRegion_canonical hc)
      · exact hc

theorem markStep_canonical {cap : Bool} {therm : Bool} {s : State} (hc : Canonical s) :
    Canonical (markStep cap therm s) := by
  unfold markStep
  exact
    have h1 : Canonical _ := .ite (raiseWhen_canonical (fset_canonical hc)) hc
    have h2 : Canonical _ := .ite (raiseWhen_canonical (fset_canonical h1)) h1
    .upd h2

theorem clearSteps_canonical {s : State} (hc : Canonical s) :
    Canonical (clearSteps s) := by
  unfold clearSteps
  exact
    fclr_canonical (fclr_canonical (.upd hc))

theorem newWindow_canonical {s : State} (hc : Canonical s) :
    Canonical (newWindow s) := by
  unfold newWindow
  exact
    .upd hc

theorem powerWindow_canonical {s0 : State} (hc : Canonical s0) :
    Canonical (powerWindow s0) := by
  unfold powerWindow
  exact
    .ite hc (
      have h1 : Canonical _ := newWindow_canonical hc
      have h2 : Canonical _ := fput_canonical (fput_canonical h1)
      .ite (
        have h3 : Canonical (_ : _ × State).2 := stepDown_canonical (.upd h2)
        .ite (markStep_canonical h3) h3) (.ite (
        have h4 : Canonical _ := .upd h2
        .ite h4 (by
          split
          · exact have h5 : Canonical _ := logWrite_canonical (raiseRegion_canonical h4)
            .ite (clearSteps_canonical h5) h5
          · exact clearSteps_canonical h4)) (.upd h2)))

/-! ### Encode -/

theorem copyShadow_canonical {p : Nat} {s : State} (hc : Canonical s) :
    Canonical (copyShadow p s) := by
  unfold copyShadow
  exact
    .foldl (fun _ _ h1 => (wr_canonical h1)) _ hc

theorem copyActive_canonical {p : Nat} {s : State} (hc : Canonical s) :
    Canonical (copyActive p s) := by
  unfold copyActive
  exact
    .foldl (fun _ _ h1 => (wr_canonical h1)) _ hc

theorem setPending_canonical {p : Nat} {s : State} (hc : Canonical s) :
    Canonical (setPending p s) := by
  unfold setPending
  exact
    fset_canonical hc

theorem clearPending_canonical {p : Nat} {s : State} (hc : Canonical s) :
    Canonical (clearPending p s) := by
  unfold clearPending
  exact
    fclr_canonical hc

theorem shadowWrite_canonical {p : Nat} {o : Nat} {w : Word} {s : State} (hc : Canonical s) :
    Canonical (shadowWrite p o w s) := by
  unfold shadowWrite
  exact
    have h1 : Canonical _ := setPending_canonical (wr_canonical hc)
    .ite (onPipe_canonical h1) h1

theorem shadowDiscard_canonical {p : Nat} {s : State} (hc : Canonical s) :
    Canonical (shadowDiscard p s) := by
  unfold shadowDiscard
  exact
    clearPending_canonical (onPipe_canonical (copyActive_canonical hc))

theorem activeWrite_canonical {d : Nat} {p : Nat} {o : Nat} {w : Word} {clash : Bool} {s : State} (hc : Canonical s) :
    Canonical (activeWrite d p o w clash s) := by
  unfold activeWrite
  exact
    have h1 : Canonical _ := wr_canonical hc
    have h2 : Canonical _ := .ite (fieldOverrun_canonical h1) h1
    have h3 : Canonical _ := .ite (onPipe_canonical h2) h2
    .ite (pipEvent_canonical (onPipe_canonical h3)) h3

theorem rcStart_canonical {p : Nat} {s : State} (hc : Canonical s) :
    Canonical (rcStart p s) := by
  unfold rcStart
  exact
    .ite hc (wr_canonical (wr_canonical (fput_canonical (wr_canonical hc))))

theorem startPipe_canonical {p : Nat} {s : State} (hc : Canonical s) :
    Canonical (startPipe p s) := by
  unfold startPipe
  exact
    have h2 : Canonical _ := .foldl (fun _ _ h1 => (wr_canonical h1)) _ (dropWork_canonical hc)
    have h3 : Canonical _ := rcStart_canonical (fset_canonical (fset_canonical (pipRefuse_canonical h2)))
    setPipe_canonical h3

theorem pipeEnable_canonical {p : Nat} {s : State} (hc : Canonical s) :
    Canonical (pipeEnable p s) := by
  unfold pipeEnable
  exact
    have h1 : Canonical _ := .ite (clearPending_canonical (onPipe_canonical (copyShadow_canonical hc))) hc
    .ite (startPipe_canonical h1) (pipRefuse_canonical h1)

theorem pipCtlWrite_canonical {p : Nat} {v : Word} {hold : Bool} {s : State} (hc : Canonical s) :
    Canonical (pipCtlWrite p v hold s) := by
  unfold pipCtlWrite
  exact
    have h1 : Canonical _ := fput_canonical hc
    .ite (.ite h1 (.ite (.upd h1) (pipeEnable_canonical h1))) (.ite (pipeDisable_canonical h1) (.upd h1))

theorem rcHandover_canonical {p : Nat} {old : Params} {new : Params} {s : State} (hc : Canonical s) :
    Canonical (rcHandover p old new s) := by
  unfold rcHandover
  exact
    have h1 : Canonical _ := .ite (wr_canonical hc) hc
    .ite (wr_canonical (onPipe_canonical h1)) h1

theorem copyHandover_canonical {p : Nat} {s : State} (hc : Canonical s) :
    Canonical (copyHandover p s) := by
  unfold copyHandover
  exact
    have h1 : Canonical _ := bumpWrap_canonical (clearPending_canonical (copyShadow_canonical hc))
    have h2 : Canonical _ := onPipe_canonical (pipRefuse_canonical h1)
    .ite h2 (rcHandover_canonical h2)

theorem handover_canonical {p : Nat} {s : State} (hc : Canonical s) :
    Canonical (handover p s) := by
  unfold handover
  exact
    .ite hc (
      have h1 : Canonical _ := .ite (.ite (copyHandover_canonical hc) (onPipe_canonical (pipEvent_canonical (pipRefuse_canonical hc)))) hc
      .ite (onPipe_canonical h1) h1)

theorem handoverAction_canonical {p : Nat} {s : State} (hc : Canonical s) :
    Canonical (handoverAction p s) := by
  unfold handoverAction
  exact
    onAction_canonical (fun h1 => (.ite (handover_canonical h1) h1)) hc

theorem tryBudget_canonical {p : Nat} {s : State} (hc : Canonical s) :
    Canonical (tryBudget p s) := by
  unfold tryBudget
  exact
    by
      split
      · exact hc
      · exact .ite hc (onPic_canonical hc)

theorem writeSlot_canonical {r : Nat} {b : Nat} {t : Nat} {v : SlotSt} {s : State} (hc : Canonical s) :
    Canonical (writeSlot r b t v s) := by
  unfold writeSlot
  exact
    setRegion_canonical hc

theorem slotSwitch_canonical {p r b : Nat} {s : State} (hc : Canonical s) : Canonical (slotSwitch p r b s) := by
  unfold slotSwitch
  dsimp only
  split
  · exact hc
  · refine .ite hc (ownTraffic_canonical (bumpWrap_canonical (fput_canonical (setSeq_canonical (setBlock_canonical ?_)))))
    split
    · exact writeSlot_canonical hc
    · exact hc

theorem settleSwitch_canonical {r : Nat} {b : Nat} {s : State} (hc : Canonical s) :
    Canonical (settleSwitch r b s) := by
  unfold settleSwitch
  exact
    .ite (seqEnd_canonical hc) hc

theorem prepareBlock_canonical {p : Nat} {i : Nat} {k : Nat} {s : State} (hc : Canonical s) :
    Canonical (prepareBlock p i k s) := by
  unfold prepareBlock
  exact
    have h1 : Canonical _ := onBlock_canonical hc
    have h2 : Canonical _ := slotSwitch_canonical h1
    have h3 : Canonical _ := .ite (assignRoles_canonical h2) h2
    .ite (setRgcState_canonical h3) h3

theorem prepareBlocks_canonical {p : Nat} {i : Nat} {s : State} (hc : Canonical s) :
    Canonical (prepareBlocks p i s) := by
  unfold prepareBlocks
  exact
    by
      split
      · exact hc
      · exact .foldl (fun _ _ h1 => (prepareBlock_canonical h1)) _ hc

theorem sourceCapture_canonical {p : Nat} {field2 : Option Bool} {s : State} (hc : Canonical s) :
    Canonical (sourceCapture p field2 s).2 := by
  unfold sourceCapture
  exact
    by
      split
      · exact hc
      · exact have h1 : Canonical _ := beginCapture_canonical hc
        h1

theorem endCapture_canonical {p : Nat} {k : Nat} {s : State} (hc : Canonical s) :
    Canonical (endCapture p k s) := by
  unfold endCapture
  exact
    .ite (onPipe_canonical hc) hc

theorem encStart_canonical {p : Nat} {field2 : Bool} {s : State} (hc : Canonical s) : Canonical (encStart p field2 s) := by
  unfold encStart
  extract_lets q src k lost s1 y s2
  have h1 : Canonical src.2 := sourceCapture_canonical hc
  have h2 : Canonical lost.1 := .ite1 h1 (giveUpLines_canonical h1)
  have h3 : Canonical s2 := onPipe_canonical (endCapture_canonical h2)
  exact prepareBlocks_canonical (tryBudget_canonical (bumpWrap_canonical h3))

theorem startCheck_canonical {p : Nat} {s : State} (hc : Canonical s) :
    Canonical (startCheck p s).2 := by
  unfold startCheck
  exact
    .ite2 hc (.ite2 (pipRefuse_canonical hc) (raise_canonical (pipRefuse_canonical (pipeDisable_canonical (onPipe_canonical hc)))))

theorem encPicStart_canonical {p : Nat} {arg : Nat} {s : State} (hc : Canonical s) :
    Canonical (encPicStart p arg s) := by
  unfold encPicStart
  exact
    .ite hc (by
      split
      · rename_i e
        have h1 := Canonical.of_snd e (startCheck_canonical hc)
        exact h1
      · rename_i e
        have h2 := Canonical.of_snd e (startCheck_canonical hc)
        exact encStart_canonical h2)

/-! ### RowUnit -/

theorem mapData_canonical {q : Params} {h : HostRead} {s : State} (hc : Canonical s) :
    Canonical (mapData q h s).2 := by
  unfold mapData
  exact
    .ite2 (readTagged_canonical hc) (by
      split <;> exact hc)

theorem mapReadDone_canonical {p : Nat} {h : HostRead} {s : State} (hc : Canonical s) :
    Canonical (mapReadDone p h s) := by
  unfold mapReadDone
  exact
    .ite hc (
      have h1 : Canonical (_ : _ × State).2 := mapData_canonical (.ite (emit_canonical hc) hc)
      have h2 : Canonical _ := .ite (fset_canonical h1) h1
      tryBudget_canonical (onPipe_canonical h2))

theorem faceQueue_canonical {id : Nat} {s : State} (hc : Canonical s) :
    Canonical (faceQueue id s) := by
  unfold faceQueue
  exact
    .ite hc (fput_canonical hc)

theorem blackSource_canonical {p : Nat} {y : Pic} {l : List (Nat × Nat × Nat)} {s : State} (hc : Canonical s) :
    Canonical (blackSource p y l s) := by
  unfold blackSource
  exact
    .ite hc (
      have h1 : Canonical _ := onPipe_canonical hc
      pipEvent_canonical (onPic_canonical h1))

theorem giveUnit_canonical {p : Nat} {r : Nat} {b : Nat} {y : Pic} {k : Nat} {work : List LocalReq} {poisoned : List (Nat × Nat)} {s : State} (hc : Canonical s) :
    Canonical (giveUnit p r b y k work poisoned s) := by
  unfold giveUnit
  exact
    have h1 : Canonical _ := onPic_canonical hc
    have h2 : Canonical _ := setSeq_canonical (onBlock_canonical h1)
    have h3 : Canonical _ := injStarts_canonical (.ite (setRgcState_canonical h2) h2)
    faceQueue_canonical (belayTraffic_canonical (saveCkpt_canonical h3))

theorem rowUnitHandout_canonical {p : Nat} {r : Nat} {b : Nat} {work : List LocalReq} {poisoned : List (Nat × Nat)} {black : List (Nat × Nat × Nat)} {s : State} (hc : Canonical s) :
    Canonical (rowUnitHandout p r b work poisoned black s) := by
  unfold rowUnitHandout
  exact
    have h1 : Canonical _ := settleSwitch_canonical hc
    .ite h1 (
      have h2 : Canonical _ := slotSwitch_canonical h1
      .ite h2 (by
        split
        · exact h2
        · exact .ite (
            have h3 : Canonical _ := blackSource_canonical h2
            giveUnit_canonical h3) h2))

theorem partitionAssign_canonical {p r b q : Nat} {cavlc : Bool} {s : State} (hc : Canonical s) :
    Canonical (partitionAssign p r b q cavlc s) := by
  unfold partitionAssign
  dsimp only
  split
  · exact hc
  · refine .ite hc ?_
    split
    · exact hc
    · exact faceQueue_canonical (saveRopeCkpts_canonical (setRope_canonical (fset_canonical (fput_canonical (fput_canonical (onPic_canonical hc))))))

theorem freeRope_canonical {id : Nat} {s : State} (hc : Canonical s) :
    Canonical (freeRope id s) := by
  unfold freeRope
  exact
    .ite hc (fclr_canonical hc)

theorem ctuRecords_canonical {p : Nat} {y : Pic} {row : Nat} {l : List CtuOut} {s : State} (hc : Canonical s) :
    Canonical (ctuRecords p y row l s) := by
  unfold ctuRecords
  exact
    .foldl (fun _ _ h1 => (queueWhen_canonical h1)) _ hc

theorem storeUnit_canonical {p : Nat} {bytes : List Byte} {s : State} (hc : Canonical s) :
    Canonical (storeUnit p bytes s).2 := by
  unfold storeUnit
  exact
    .ite2 hc (.ite2 (addWait_canonical hc) (.ite2 hc (by
      split
      · rename_i e
        have h1 := Canonical.of_snd e (placeBytes_canonical hc)
        exact waitAgain_canonical h1
      · rename_i e
        have h2 := Canonical.of_snd e (placeBytes_canonical hc)
        exact have h3 : Canonical (_ : _ × State).2 := passChunks_canonical (dropWait_canonical h2)
        h3)))

theorem storeBoth_canonical {p : Nat} {own : List Byte} {tail : List Byte} {s : State} (hc : Canonical s) :
    Canonical (storeBoth p own tail s).2 := by
  unfold storeBoth
  exact
    by
      split
      · rename_i e
        have h1 := Canonical.of_snd e (storeUnit_canonical hc)
        exact h1
      · rename_i e
        have h2 := Canonical.of_snd e (storeUnit_canonical hc)
        exact by
          split
          · rename_i e
            have h3 := Canonical.of_snd e (storeUnit_canonical h2)
            exact addWait_canonical hc
          · rename_i e
            have h4 := Canonical.of_snd e (storeUnit_canonical h2)
            exact h4

theorem endUnit_canonical {r : Nat} {b : Nat} {s : State} (hc : Canonical s) :
    Canonical (endUnit r b s) := by
  unfold endUnit
  exact
    seqEnd_canonical (fclr_canonical (onBlock_canonical hc))

theorem ropeDone_canonical {p : Nat} {i : Nat} {part : Nat} {n : Nat} {j : WorkJob} {ends : Bool} {s : State} (hc : Canonical s) :
    Canonical (ropeDone p i part n j ends s) := by
  unfold ropeDone
  exact
    have h1 : Canonical _ := setRopeAt_canonical (onPic_canonical hc)
    .ite (freeRope_canonical h1) (faceQueue_canonical (saveRopeCkpts_canonical h1))

theorem freeStored_canonical {p : Nat} {z : Pic} {at_ : (List Nat × List Nat) × List Nat × List Nat} {s : State} (hc : Canonical s) :
    Canonical (freeStored p z at_ s) := by
  unfold freeStored
  exact
    .ite (unitFreeAll_canonical hc) hc

theorem encUnitDone_canonical {p : Nat} {r : Nat} {b : Nat} {row : Nat} {col : Nat} {y : Pic} {s : State} (hc : Canonical s) :
    Canonical (encUnitDone p r b row col y s) := by
  unfold encUnitDone
  exact
    .ite hc (by
      extract_lets
      split
      · rename_i e
        have h1 := Canonical.of_snd e (storeBoth_canonical hc)
        exact h1
      · rename_i e
        have h2 := Canonical.of_snd e (storeBoth_canonical hc)
        exact have h3 : Canonical _ := freeStored_canonical (onPic_canonical h2)
        have h4 : Canonical _ := ctuRecords_canonical (endUnit_canonical h3)
        flushPipe_canonical (ropeDone_canonical h4))

theorem encPictureDone_canonical {p : Nat} {y : Pic} {s : State} (hc : Canonical s) :
    Canonical (encPictureDone p y s) := by
  unfold encPictureDone
  exact
    have h1 : Canonical _ := onPipe_canonical hc
    have h2 : Canonical _ := fput_canonical h1
    have h3 : Canonical _ := wr_canonical h2
    have h4 : Canonical _ := wr_canonical h3
    have h5 : Canonical _ := .ite (fset_canonical h4) h4
    have h6 : Canonical _ := .ite (bump_canonical (fset_canonical h5)) h5
    tryBudget_canonical (queueWhen_canonical h6)

theorem marginMark_canonical {p : Nat} {arg : Nat} {s : State} (hc : Canonical s) :
    Canonical (marginMark p arg s) := by
  unfold marginMark
  exact
    by
      split
      · exact hc
      · exact .ite hc (pipEvent_canonical (onPic_canonical hc))

theorem marginMarkAction_canonical {p : Nat} {s : State} (hc : Canonical s) :
    Canonical (marginMarkAction p s) := by
  unfold marginMarkAction
  exact
    onAction_canonical (fun h1 => (.ite (marginMark_canonical h1) h1)) hc

theorem prune_canonical {p : Nat} {s : State} (hc : Canonical s) :
    Canonical (prune p s) := by
  unfold prune
  exact
    onPipe_canonical hc

theorem rowDeadline_canonical {p : Nat} {arg : Nat} {s : State} (hc : Canonical s) :
    Canonical (rowDeadline p arg s) := by
  unfold rowDeadline
  exact
    by
      split
      · exact hc
      · exact have h1 : Canonical _ := onPic_canonical hc
        prune_canonical (.ite (pipEvent_canonical h1) h1)

theorem rowDeadlineAction_canonical {p : Nat} {s : State} (hc : Canonical s) :
    Canonical (rowDeadlineAction p s) := by
  unfold rowDeadlineAction
  exact
    onAction_canonical (fun h1 => (.ite (rowDeadline_canonical h1) h1)) hc

theorem lineGiveUp_canonical {p : Nat} {row : Nat} {s : State} (hc : Canonical s) :
    Canonical (lineGiveUp p row s) := by
  unfold lineGiveUp
  exact
    by
      split
      · exact hc
      · exact .ite hc (
          have h1 : Canonical (_ : State × _).1 := giveUpLines_canonical hc
          .ite hc (endCapture_canonical (onPic_canonical h1)))

theorem captureArm_canonical {p : Nat} {s : State} (hc : Canonical s) :
    Canonical (captureArm p s) := by
  unfold captureArm
  exact
    onAction_canonical (fun h1 => (.ite (onPipe_canonical h1) h1)) hc

theorem releaseOn_canonical {n : Nat} {s : State} (hc : Canonical s) :
    Canonical (releaseOn n s) := by
  unfold releaseOn
  exact
    onAction_canonical (fun h1 => (.ite (
      have h2 : Canonical _ := releaseAction_canonical h1
      by
        extract_lets
        split
        · exact prune_canonical h2
        · exact h2) h1)) hc

/-! ### DecodePath -/

theorem recordEvent_canonical {p : Nat} {i : Nat} {e : EventIn} {s : State} (hc : Canonical s) :
    Canonical (recordEvent p i e s) := by
  unfold recordEvent
  exact
    have h1 : Canonical _ := bumpBy_canonical (wr_canonical (decEvent_canonical hc))
    have h2 : Canonical _ := onPic_canonical h1
    .ite h2 (queueWhen_canonical h2)

theorem recordEvents_canonical {p : Nat} {i : Nat} {l : List EventIn} {s : State} (hc : Canonical s) :
    Canonical (recordEvents p i l s) := by
  unfold recordEvents
  exact
    .foldl (fun _ _ h1 => (recordEvent_canonical h1)) _ hc

theorem substituteRef_canonical {p : Nat} {i : Nat} {f : RefIn} {s : State} (hc : Canonical s) :
    Canonical (substituteRef p i f s) := by
  unfold substituteRef
  exact
    .ite hc (
      have h1 : Canonical _ := onPipe_canonical (recordEvent_canonical hc)
      have h2 : Canonical _ := onPic_canonical h1
      bumpBy_canonical (decEvent_canonical h2))

theorem bindRefs_canonical {p : Nat} {i : Nat} {l : List RefIn} {s : State} (hc : Canonical s) :
    Canonical (bindRefs p i l s) := by
  unfold bindRefs
  exact
    onPic_canonical hc

theorem noPicture_canonical {p : Nat} {info : StreamPic} {s : State} (hc : Canonical s) :
    Canonical (noPicture p info s) := by
  unfold noPicture
  exact
    have h1 : Canonical _ := onPipe_canonical (.upd hc)
    recordEvent_canonical (decEvent_canonical h1)

theorem memoParse_canonical {j : DecJob} {info : StreamPic} {s : State} (hc : Canonical s) :
    Canonical (memoParse j info s).2 := by
  unfold memoParse
  exact
    by
      split
      · exact hc
      · exact .upd hc

theorem memoUnit_canonical {j : DecJob} {out : UnitIn} {s : State} (hc : Canonical s) :
    Canonical (memoUnit j out s).2 := by
  unfold memoUnit
  exact
    by
      split
      · exact hc
      · exact .upd hc

theorem takePicture_canonical {p : Nat} {field2 : Bool} {e : PipeEntry} {c : CodedPic} {operand : StreamPic} {s : State} (hc : Canonical s) :
    Canonical (takePicture p field2 e c operand s) := by
  unfold takePicture
  extract_lets q x r job m info held sub start limits away t clip events under transport gap resyncs marked taint src y src2 s1 s2 s3 s4
  have h1 : Canonical r.2 := readParts_canonical hc
  have h2 : Canonical m.2 := memoParse_canonical h1
  have h : Canonical { m.2 with freeCtr := m.2.freeCtr + 2 } := ⟨h2.1, h2.2⟩
  have h3 : Canonical s1 := by
    refine setPipe_canonical ?_
    exact h
  have h4 : Canonical s2 := recordEvents_canonical (bumpWrap_canonical h3)
  have h5 : Canonical s3 := .ite (decEvent_canonical h4) h4
  have h6 : Canonical s4 := .ite (decEvent_canonical h5) h5
  exact .ite (prepareBlocks_canonical (bindRefs_canonical (.foldl (fun _ _ h => substituteRef_canonical h) _ h6))) h6

theorem decPicStart_canonical {p : Nat} {arg : Nat} {info : StreamPic} {s : State} (hc : Canonical s) :
    Canonical (decPicStart p arg info s) := by
  unfold decPicStart
  exact
    .ite hc (by
      split
      · rename_i e
        have h1 := Canonical.of_snd e (startCheck_canonical hc)
        exact h1
      · rename_i e
        have h2 := Canonical.of_snd e (startCheck_canonical hc)
        exact .ite h2 (by
          split
          · exact .ite h2 (takePicture_canonical h2)
          · exact noPicture_canonical h2
          · exact h2))

theorem picStart_canonical {p : Nat} {info : PicInfo} {s : State} (hc : Canonical s) :
    Canonical (picStart p info s) := by
  unfold picStart
  exact
    onAction_canonical (fun h1 => (.ite h1 (by
      split
      · exact .ite h1 (encPicStart_canonical h1)
      · exact .ite (decPicStart_canonical h1) h1))) hc

theorem codedPictureReceived_canonical {p : Nat} {s : State} (hc : Canonical s) :
    Canonical (codedPictureReceived p s) := by
  unfold codedPictureReceived
  exact
    onPipe_canonical hc

theorem partitionDataTimeout_canonical {p : Nat} {s : State} (hc : Canonical s) :
    Canonical (partitionDataTimeout p s) := by
  unfold partitionDataTimeout
  exact
    by
      split
      · exact hc
      · exact .ite hc (
          have h1 : Canonical _ := onPic_canonical (.upd hc)
          recordEvent_canonical (decEvent_canonical h1))

theorem concealRun_canonical {p : Nat} {i : Nat} {x0 : Nat} {n : Nat} {c : ConcealIn} {s : State} (hc : Canonical s) :
    Canonical (concealRun p i x0 n c s) := by
  unfold concealRun
  exact
    by
      split
      · exact hc
      · exact .ite (queueWhen_canonical (onPic_canonical (decEvent_canonical hc))) (.ite (onPic_canonical hc) (queueWhen_canonical (bumpBy_canonical (decEvent_canonical (onPic_canonical hc)))))

theorem decCtuRecords_canonical {p : Nat} {y : Pic} {row : Nat} {out : UnitIn} {s : State} (hc : Canonical s) :
    Canonical (decCtuRecords p y row out s) := by
  unfold decCtuRecords
  exact
    .foldl (fun _ _ h1 => (queueWhen_canonical h1)) _ hc

theorem decUnitDone_canonical {p : Nat} {r : Nat} {b : Nat} {row : Nat} {col : Nat} {y : Pic} {operand : UnitIn} {s : State} (hc : Canonical s) :
    Canonical (decUnitDone p r b row col y operand s) := by
  unfold decUnitDone
  exact
    .ite hc (
      have h1 : Canonical (_ : _ × State).2 := memoUnit_canonical hc
      have h2 : Canonical _ := endUnit_canonical (onPic_canonical h1)
      have h4 : Canonical _ := .foldl (fun _ _ h3 => (concealRun_canonical h3)) _ (recordEvents_canonical h2)
      have h5 : Canonical _ := .ite (onPipe_canonical (onPic_canonical h4)) h4
      have h6 : Canonical _ := ropeDone_canonical (decCtuRecords_canonical h5)
      .ite (unitFreeAll_canonical h6) h6)

theorem rowUnitComplete_canonical {r : Nat} {b : Nat} {out : UnitIn} {s : State} (hc : Canonical s) :
    Canonical (rowUnitComplete r b out s) := by
  unfold rowUnitComplete
  exact
    by
      extract_lets
      split
      · exact hc
      · exact .ite hc (by
          split
          · exact hc
          · exact have h1 : Canonical _ := .ite (decUnitDone_canonical hc) (encUnitDone_canonical hc)
            .ite (injWaits_canonical h1) h1)

theorem checkHash_canonical {p : Nat} {i : Nat} {img : Planes} {s : State} (hc : Canonical s) :
    Canonical (checkHash p i img s) := by
  unfold checkHash
  exact
    by
      split
      · exact hc
      · exact by
          split
          · exact hc
          · exact .ite (onPic_canonical hc) (recordEvent_canonical (onPic_canonical (.upd hc)))

theorem holdPic_canonical {p : Nat} {e : PipeEntry} {y : Pic} {img : Planes} {s : State} (hc : Canonical s) :
    Canonical (holdPic p e y img s) := by
  unfold holdPic
  exact
    have h1 : Canonical _ := onPic_canonical hc
    .ite h1 (by
      split
      · exact .ite (
          have h2 : Canonical _ := onPipe_canonical (.upd h1)
          recordEvent_canonical (onPic_canonical h2)) (onPipe_canonical h1)
      · exact onPipe_canonical h1)

theorem writeDecRecord_canonical {p : Nat} {i : Nat} {s : State} (hc : Canonical s) :
    Canonical (writeDecRecord p i s) := by
  unfold writeDecRecord
  exact
    by
      split
      · exact queueWhen_canonical hc
      · exact hc

theorem substitutePic_canonical {p : Nat} {y : Pic} {s : State} (hc : Canonical s) :
    Canonical (substitutePic p y s) := by
  unfold substitutePic
  exact
    .ite (queueWhen_canonical (bumpBy_canonical (decEvent_canonical (onPic_canonical hc)))) hc

theorem decPictureDone_canonical {p : Nat} {y : Pic} {s : State} (hc : Canonical s) :
    Canonical (decPictureDone p y s) := by
  unfold decPictureDone
  exact
    by
      split
      · exact hc
      · exact have h1 : Canonical _ := substitutePic_canonical hc
        have h2 : Canonical _ := checkHash_canonical h1
        have h3 : Canonical _ := .ite h2 (holdPic_canonical h2)
        have h4 : Canonical _ := onPic_canonical (unitFreeAll_canonical (stepFree_canonical h3))
        have h5 : Canonical _ := onPipe_canonical h4
        have h6 : Canonical _ := fput_canonical h5
        .ite (writeDecRecord_canonical h6) h6

theorem pictureComplete_canonical {p : Nat} {s : State} (hc : Canonical s) :
    Canonical (pictureComplete p s) := by
  unfold pictureComplete
  exact
    by
      split
      · exact hc
      · exact .ite hc (prune_canonical (checkDrained_canonical (.ite (decPictureDone_canonical hc) (encPictureDone_canonical hc))))

theorem beginOut_canonical {p : Nat} {h : HeldPic} {s : State} (hc : Canonical s) :
    Canonical (beginOut p h s) := by
  unfold beginOut
  exact
    emit_canonical (onPipe_canonical hc)

theorem chooseOut_canonical {p : Nat} {e : PipeEntry} {y : Pic} {s : State} (hc : Canonical s) :
    Canonical (chooseOut p e y s) := by
  unfold chooseOut
  exact
    have h1 : Canonical _ := .ite (holdPic_canonical hc) hc
    by
      extract_lets
      split
      · exact beginOut_canonical (onPic_canonical (onPipe_canonical h1))
      · exact beginOut_canonical (onPic_canonical h1)

theorem emitLines_canonical {p : Nat} {at_ : Nat} {y : Pic} {s : State} (hc : Canonical s) :
    Canonical (emitLines p at_ y s) := by
  unfold emitLines
  exact
    emitToPorts_canonical (onPic_canonical hc)

theorem closeBefore_canonical {p : Nat} {y : Pic} {s : State} (hc : Canonical s) :
    Canonical (closeBefore p y s) := by
  unfold closeBefore
  exact
    .foldl (fun _ _ h1 => (
      have h2 : Canonical _ := onPic_canonical h1
      .ite (writeDecRecord_canonical h2) h2)) _ hc

theorem emitAgain_canonical {p : Nat} {at_ : Nat} {s : State} (hc : Canonical s) :
    Canonical (emitAgain p at_ s) := by
  unfold emitAgain
  exact
    emitToPorts_canonical (beginOut_canonical hc)

theorem emitOn_canonical {p : Nat} {at_ : Nat} {s : State} (hc : Canonical s) :
    Canonical (emitOn p at_ s) := by
  unfold emitOn
  exact
    by
      extract_lets
      split
      · exact hc
      · exact .ite hc (.ite (emitAgain_canonical (onPipe_canonical hc)) (by
          split
          · exact .ite (emitAgain_canonical hc) hc
          · exact have h1 : Canonical _ := .ite (chooseOut_canonical (closeBefore_canonical hc)) hc
            have h2 : Canonical _ := emitLines_canonical (onPic_canonical h1)
            prune_canonical (checkDrained_canonical (.ite (writeDecRecord_canonical h2) h2))))

theorem emitAction_canonical {p : Nat} {s : State} (hc : Canonical s) :
    Canonical (emitAction p s) := by
  unfold emitAction
  exact
    onAction_canonical (fun h1 => (.ite (emitOn_canonical h1) h1)) hc

end Sys2Proof.Machine
end

