-- ==== Sys2Proof/Laws/KeepsControl.lean ====
section
/-! SUPPORT. Every operation keeps the canonical form of a state: start-up, modes, operations, CXL, PTP, the test port and host accesses. -/

namespace Sys2Proof.Machine

open Sys2Proof

/-! ### Startup -/

theorem modeEntered_canonical {old : Nat} {new : Nat} {s : State} (hc : Canonical s) :
    Canonical (modeEntered old new s) := by
  unfold modeEntered
  exact
    applyMitten_canonical (logWrite_canonical hc)

theorem chipStart_canonical {vA : SlotVerdict} {vB : SlotVerdict} {s : State} (hc : Canonical s) :
    Canonical (chipStart vA vB s) := by
  unfold chipStart
  exact
    .ite hc (
      have h1 : Canonical _ := .upd hc
      loadSlots_canonical (modeEntered_canonical (fput_canonical (flashHeaderRead_canonical h1))))

theorem hbmStackTrained_canonical {c : StackId} {ok : Bool} {s : State} (hc : Canonical s) :
    Canonical (hbmStackTrained c ok s) := by
  unfold hbmStackTrained
  exact
    .ite hc (.ite (
      have h1 : Canonical _ := stackTrained_canonical (fput_canonical (fput_canonical hc))
      have h2 : Canonical _ := .upd h1
      .ite (by
        split
        · exact install_canonical (.upd h2)
        · exact h2) h2) (
      have h3 : Canonical _ := .upd hc
      .ite (chipFault_canonical (fput_canonical h3)) h3))

theorem setPtpState_canonical {v : Nat} {s : State} (hc : Canonical s) :
    Canonical (setPtpState v s) := by
  unfold setPtpState
  exact
    .ite hc (logWrite_canonical (fput_canonical hc))

theorem releaseToBivouac_canonical {s : State} (hc : Canonical s) :
    Canonical (releaseToBivouac s) := by
  unfold releaseToBivouac
  exact
    .ite hc (
      have h1 : Canonical _ := .upd hc
      have h3 : Canonical _ := .foldl (fun _ _ h2 => (setRgcState_canonical h2)) _ h1
      have h4 : Canonical _ := selectSource_canonical h3
      have h6 : Canonical _ := .foldl (fun _ _ h5 => (startWalk_canonical h5)) _ h4
      have h8 : Canonical _ := .foldl (fun _ _ h7 => (poolRelease_canonical h7)) _ h6
      have h9 : Canonical _ := updatePoints_canonical (fput_canonical h8)
      have h10 : Canonical _ := fset_canonical (fset_canonical h9)
      have h11 : Canonical _ := modeEntered_canonical (fput_canonical h10)
      setPtpState_canonical h11)

theorem cxlLinkUp_canonical {mode : LinkMode} {lanes : Nat} {rate : Nat} {s : State} (hc : Canonical s) :
    Canonical (cxlLinkUp mode lanes rate s) := by
  unfold cxlLinkUp
  exact
    .ite hc (
      have h1 : Canonical _ := .upd hc
      have h2 : Canonical _ := fput_canonical (fput_canonical (fput_canonical h1))
      fput_canonical h2)

theorem perstAssert_canonical {s : State} (hc : Canonical s) :
    Canonical (perstAssert s) := by
  unfold perstAssert
  exact
    .ite (chipReset_canonical (.upd hc)) hc

theorem linkReset_canonical {s : State} (hc : Canonical s) :
    Canonical (linkReset s) := by
  unfold linkReset
  exact
    .ite (chipReset_canonical hc) hc

theorem passThroughLock_canonical {s : State} (hc : Canonical s) :
    Canonical (passThroughLock s) := by
  unfold passThroughLock
  exact
    .ite (.upd hc) hc

theorem flrPipe_canonical {p : Nat} {s : State} (hc : Canonical s) :
    Canonical (flrPipe p s) := by
  unfold flrPipe
  exact
    .ite hc (by
      split
      · exact hc
      · exact by
          split
          · exact requestCairn_canonical hc
          · exact pipeDisable_canonical hc)

theorem flrDma_canonical {c : Nat} {s : State} (hc : Canonical s) :
    Canonical (flrDma c s) := by
  unfold flrDma
  exact
    .ite (dmaCtlWrite_canonical hc) hc

theorem flrDomain_canonical {d : Nat} {s : State} (hc : Canonical s) :
    Canonical (flrDomain d s) := by
  unfold flrDomain
  exact
    have h2 : Canonical _ := .foldl (fun _ _ h1 => (flrPipe_canonical h1)) _ hc
    have h4 : Canonical _ := .foldl (fun _ _ h3 => (portDisable_canonical h3)) _ h2
    flrIcu_canonical (.foldl (fun _ _ h5 => (flrDma_canonical h5)) _ h4)

theorem flrVf_canonical {d : Nat} {s : State} (hc : Canonical s) :
    Canonical (flrVf d s) := by
  unfold flrVf
  exact
    .ite hc (flrDomain_canonical hc)

/-! ### Mode -/

theorem modeResult_canonical {code : Nat} {s : State} (hc : Canonical s) :
    Canonical (modeResult code s) := by
  unfold modeResult
  exact
    raise_canonical (fput_canonical hc)

theorem modeRequest_canonical {k : Nat} {s : State} (hc : Canonical s) :
    Canonical (modeRequest k s) := by
  unfold modeRequest
  exact
    .ite hc (.ite (modeResult_canonical hc) (.ite (fput_canonical hc) (by
      split
      · exact modeResult_canonical hc
      · exact have h1 : Canonical _ := fset_canonical hc
        .upd h1)))

theorem regionOnRun_canonical {r : Nat} {s : State} (hc : Canonical s) :
    Canonical (regionOnRun r s) := by
  unfold regionOnRun
  exact
    .ite (powerUp_canonical hc) hc

theorem regionOnGate_canonical {r : Nat} {s : State} (hc : Canonical s) :
    Canonical (regionOnGate r s) := by
  unfold regionOnGate
  exact
    have h1 : Canonical _ := .ite (gateRegion_canonical hc) hc
    setWaitingActs_canonical (setRegion_canonical h1)

theorem runGroup_canonical {s : State} (hc : Canonical s) :
    Canonical (runGroup s) := by
  unfold runGroup
  exact
    .foldl (fun _ _ h1 => (regionOnRun_canonical h1)) _ hc

theorem enterMode_canonical {k : Nat} {s : State} (hc : Canonical s) :
    Canonical (enterMode k s) := by
  unfold enterMode
  exact
    have h1 : Canonical _ := .ite (fclr_canonical hc) hc
    .ite (runGroup_canonical (runGroup_canonical (runGroup_canonical (runGroup_canonical h1)))) (.foldl (fun _ _ h2 => (regionOnGate_canonical h2)) _ h1)

theorem modeTransitionDone_canonical {s : State} (hc : Canonical s) :
    Canonical (modeTransitionDone s) := by
  unfold modeTransitionDone
  exact
    .ite hc (
      have h1 : Canonical _ := .ite hc (hostRun_canonical (leaveSelfRefresh_canonical hc))
      have h2 : Canonical _ := fclr_canonical (fput_canonical (enterMode_canonical h1))
      modeResult_canonical (modeEntered_canonical (.upd h2)))

theorem forceSafe_canonical {s : State} (hc : Canonical s) :
    Canonical (forceSafe s) := by
  unfold forceSafe
  exact
    .ite hc (chipFault_canonical hc)

theorem safeEntry_canonical {c : SafeCause} {s : State} (hc : Canonical s) :
    Canonical (safeEntry c s) := by
  unfold safeEntry
  exact
    by
      split
      · exact .ite (chipFault_canonical hc) hc
      · exact forceSafe_canonical hc
      · exact chipFault_canonical hc

theorem mittenForceWrite_canonical {v : Nat} {s : State} (hc : Canonical s) :
    Canonical (mittenForceWrite v s) := by
  unfold mittenForceWrite
  exact
    applyMitten_canonical (fput_canonical hc)

/-! ### CommandPort -/

theorem busyRejected_canonical {s : State} (hc : Canonical s) :
    Canonical (busyRejected s) := by
  unfold busyRejected
  exact
    bumpBy_canonical (fput_canonical hc)

theorem cmdArgWrite_canonical {n : Nat} {v : Word} {s : State} (hc : Canonical s) :
    Canonical (cmdArgWrite n v s) := by
  unfold cmdArgWrite
  exact
    .ite (busyRejected_canonical hc) (wr_canonical hc)

theorem startOp_canonical {op : Nat} {armed : Bool} {body : State → State} {s : State} (kbody : ∀ {t}, Canonical t → Canonical (body t)) (hc : Canonical s) :
    Canonical (startOp op armed body s) := by
  unfold startOp
  exact
    .ite hc (.ite (busyRejected_canonical hc) (
      have h1 : Canonical _ := wr_canonical (fput_canonical (fset_canonical hc))
      have h2 : Canonical _ := .upd h1
      .ite (cmdFinish_canonical h2) (.ite (cmdFinish_canonical h2) (.ite (cmdFinish_canonical h2) (.ite (cmdFinish_canonical h2) (kbody h2))))))

theorem setStep_canonical {n : Nat} {s : State} (hc : Canonical s) :
    Canonical (setStep n s) := by
  unfold setStep
  exact
    wr_canonical (.upd hc)

theorem cmdOut_canonical {i : Nat} {v : Nat} {s : State} (hc : Canonical s) :
    Canonical (cmdOut i v s) := by
  unfold cmdOut
  exact
    wr_canonical hc

theorem keepResume_canonical {n : Nat} {s : State} (hc : Canonical s) :
    Canonical (keepResume n s) := by
  unfold keepResume
  exact
    .upd hc

theorem endOp_canonical {result : Nat} {s : State} (hc : Canonical s) :
    Canonical (endOp result s) := by
  unfold endOp
  exact
    cmdFinish_canonical hc

theorem ping_canonical {s : State} (hc : Canonical s) :
    Canonical (ping s) := by
  unfold ping
  exact
    startOp_canonical (fun h1 => (.foldl (fun _ _ h2 => (cmdOut_canonical h2)) _ h1)) hc

theorem chipReboot_canonical {s : State} (hc : Canonical s) :
    Canonical (chipReboot s) := by
  unfold chipReboot
  exact
    startOp_canonical (fun h1 => (chipReset_canonical h1)) hc

theorem fuseRead_canonical {armed : Bool} {s : State} (hc : Canonical s) :
    Canonical (fuseRead armed s) := by
  unfold fuseRead
  exact
    startOp_canonical (fun h1 => (.ite (cmdFinish_canonical h1) (.foldl (fun _ _ h2 => (cmdOut_canonical h2)) _ h1))) hc

theorem cmdSource_canonical {o : Nat} {n : Nat} {h : HostRead} {s : State} (hc : Canonical s) :
    Canonical (cmdSource o n h s).2 := by
  unfold cmdSource
  exact
    .ite2 (
      have h1 : Canonical (_ : _ × State).2 := readBytes_canonical hc
      h1) (stepFree_canonical hc)

theorem flashWrite_canonical {s : State} (hc : Canonical s) :
    Canonical (flashWrite s) := by
  unfold flashWrite
  exact
    startOp_canonical (fun h1 => (.ite (cmdFinish_canonical h1) (.ite (cmdFinish_canonical h1) (setStep_canonical h1)))) hc

theorem flashPut_canonical {o : Nat} {l : List Byte} {s : State} (hc : Canonical s) : Canonical (flashPut o l s) := by
  induction l generalizing o s with
  | nil => exact hc
  | cons b l ih => exact ih (.upd hc)

theorem flashSectors_canonical {bad : List Nat} {src : List Byte} {k n : Nat} {s : State} (hc : Canonical s) :
    Canonical (flashSectors bad src k n s) := by
  induction n generalizing k s with
  | zero => exact hc
  | succ n ih => exact ih (flashPut_canonical (stepFree_canonical hc))

theorem flashWriteEnd_canonical {e : OpEnv} {s : State} (hc : Canonical s) :
    Canonical (flashWriteEnd e s) := by
  unfold flashWriteEnd
  exact
    have h1 : Canonical (_ : _ × State).2 := cmdSource_canonical hc
    have h2 : Canonical _ := flashSectors_canonical h1
    have h3 : Canonical _ := cmdOut_canonical (cmdOut_canonical (setStep_canonical h2))
    endOp_canonical (.ite (keepResume_canonical h3) h3)

theorem flashRead_canonical {s : State} (hc : Canonical s) :
    Canonical (flashRead s) := by
  unfold flashRead
  exact
    startOp_canonical (fun h1 => (.ite (cmdFinish_canonical h1) h1)) hc

theorem flashReadEnd_canonical {e : OpEnv} {s : State} (hc : Canonical s) :
    Canonical (flashReadEnd e s) := by
  unfold flashReadEnd
  exact
    have h1 : Canonical _ := .ite (writeBytes_canonical hc) (emit_canonical hc)
    endOp_canonical h1

theorem blockResults_canonical {r : Nat} {b : Nat} {e : OpEnv} {s : State} (hc : Canonical s) :
    Canonical (blockResults r b e s) := by
  unfold blockResults
  exact
    have h2 : Canonical _ := .foldl (fun _ _ h1 => (blockFault_canonical h1)) _ hc
    .ite (blockFault_canonical h2) h2

theorem testsStart_canonical {r : Nat} {s : State} (hc : Canonical s) :
    Canonical (testsStart r s) := by
  unfold testsStart
  exact
    .foldl (fun _ _ h1 => (.ite (seqStart_canonical h1) h1)) _ hc

theorem routineEnds_canonical {routines : List Nat} {r : Nat} {b : Nat} {stopped : Bool} {s : State} (hc : Canonical s) :
    Canonical (routineEnds routines r b stopped s) := by
  unfold routineEnds
  exact
    .ite hc (.ite (writeResume_canonical hc) (seqEnd_canonical hc))

theorem regionBack_canonical {r : Nat} {prior : Nat} {s : State} (hc : Canonical s) :
    Canonical (regionBack r prior s) := by
  unfold regionBack
  exact
    .ite (gateRegion_canonical (setRegion_canonical hc)) hc

theorem regionSelftest_canonical {s : State} (hc : Canonical s) :
    Canonical (regionSelftest s) := by
  unfold regionSelftest
  exact
    startOp_canonical (fun h1 => (.ite (cmdFinish_canonical h1) (.ite (cmdFinish_canonical h1) (.ite (cmdFinish_canonical h1) (
      have h2 : Canonical _ := .upd h1
      testsStart_canonical (setStep_canonical (.ite (powerUp_canonical h2) h2))))))) hc

theorem runWaiting_canonical {s : State} (hc : Canonical s) :
    Canonical (runWaiting s) := by
  unfold runWaiting
  exact
    .foldl (fun _ _ h1 => (.ite h1 (pipeEnable_canonical h1))) _ (.upd hc)

theorem regionSelftestEnd_canonical {e : OpEnv} {s : State} (hc : Canonical s) :
    Canonical (regionSelftestEnd e s) := by
  unfold regionSelftestEnd
  exact
    have h2 : Canonical _ := .foldl (fun _ _ h1 => (blockResults_canonical h1)) _ hc
    have h4 : Canonical _ := .foldl (fun _ _ h3 => (routineEnds_canonical h3)) _ h2
    have h5 : Canonical _ := cmdOut_canonical (cmdOut_canonical (cmdOut_canonical (cmdOut_canonical (setStep_canonical h4))))
    have h6 : Canonical _ := regionBack_canonical (.ite (keepResume_canonical h5) h5)
    runWaiting_canonical (endOp_canonical h6)

theorem regionTest_canonical {r : Nat} {s : State} (hc : Canonical s) :
    Canonical (regionTest r s) := by
  unfold regionTest
  exact
    have h1 : Canonical _ := .ite (powerUp_canonical hc) hc
    testsStart_canonical (.upd h1)

theorem testGroup_canonical {r : Nat} {s : State} (hc : Canonical s) :
    Canonical (testGroup r s) := by
  unfold testGroup
  exact
    .foldl (fun _ _ h1 => (regionTest_canonical h1)) _ (.upd hc)

theorem groupEnds_canonical {stopped : Bool} {s : State} (hc : Canonical s) :
    Canonical (groupEnds stopped s) := by
  unfold groupEnds
  exact
    .foldl (fun _ _ h1 => (regionBack_canonical (.foldl (fun _ _ h2 => (routineEnds_canonical h2)) _ h1))) _ hc

theorem chipSelftest_canonical {s : State} (hc : Canonical s) :
    Canonical (chipSelftest s) := by
  unfold chipSelftest
  exact
    startOp_canonical (fun h1 => (testGroup_canonical (setStep_canonical h1))) hc

theorem nextGroup_canonical {s : State} (hc : Canonical s) :
    Canonical (nextGroup s) := by
  unfold nextGroup
  exact
    .ite (testGroup_canonical (groupEnds_canonical hc)) hc

theorem chipSelftestEnd_canonical {e : OpEnv} {s : State} (hc : Canonical s) :
    Canonical (chipSelftestEnd e s) := by
  unfold chipSelftestEnd
  exact
    have h3 : Canonical _ := .foldl (fun _ _ h1 => (.foldl (fun _ _ h2 => (blockResults_canonical h2)) _ h1)) _ hc
    have h4 : Canonical _ := groupEnds_canonical h3
    have h6 : Canonical _ := .ite h4 (.foldl (fun _ _ h5 => (quarantine_canonical h5)) _ h4)
    have h7 : Canonical _ := cmdOut_canonical (cmdOut_canonical (setStep_canonical h6))
    endOp_canonical (.ite (keepResume_canonical h7) h7)

theorem memoryTest_canonical {s : State} (hc : Canonical s) :
    Canonical (memoryTest s) := by
  unfold memoryTest
  exact
    startOp_canonical (fun h1 => (.ite (cmdFinish_canonical h1) (setStep_canonical h1))) hc

theorem memoryTestEnd_canonical {e : OpEnv} {s : State} (hc : Canonical s) :
    Canonical (memoryTestEnd e s) := by
  unfold memoryTestEnd
  exact
    have h2 : Canonical _ := .foldl (fun _ _ h1 => (storeWord_canonical h1)) _ hc
    have h3 : Canonical _ := cmdOut_canonical (cmdOut_canonical (cmdOut_canonical (setStep_canonical h2)))
    hostRun_canonical (endOp_canonical (.ite (keepResume_canonical h3) h3))

theorem imageBytes_canonical {h : HostRead} {s : State} (hc : Canonical s) :
    Canonical (imageBytes h s).2 := by
  unfold imageBytes
  exact
    .ite2 (
      have h1 : Canonical (_ : _ × State).2 := readTagged_canonical hc
      h1) (by
      split <;> exact hc)

theorem recomposeReady_canonical {r : Nat} {s : State} (hc : Canonical s) :
    Canonical (recomposeReady r s) := by
  unfold recomposeReady
  exact
    have h1 : Canonical _ := .ite (gateRegion_canonical hc) (.ite (powerUp_canonical hc) (setRgcState_canonical hc))
    have h2 : Canonical _ := setRegion_canonical h1
    fclr_canonical (wr64_canonical h2)

theorem setPhase_canonical {n : Nat} {s : State} (hc : Canonical s) :
    Canonical (setPhase n s) := by
  unfold setPhase
  exact
    .upd hc

theorem regionReturns_canonical {r : Nat} {s : State} (hc : Canonical s) :
    Canonical (regionReturns r s) := by
  unfold regionReturns
  exact
    .ite (gateRegion_canonical hc) (setRgcState_canonical hc)

theorem loadsStart_canonical {r : Nat} {s : State} (hc : Canonical s) :
    Canonical (loadsStart r s) := by
  unfold loadsStart
  exact
    .foldl (fun _ _ h1 => (.ite (seqStart_canonical h1) h1)) _ hc

theorem loadsEnd_canonical {r : Nat} {stopped : Bool} {s : State} (hc : Canonical s) :
    Canonical (loadsEnd r stopped s) := by
  unfold loadsEnd
  exact
    .foldl (fun _ _ h1 => (routineEnds_canonical h1)) _ hc

theorem recomposeAdvance_canonical {passed : List (Fin 8)} {s : State} (hc : Canonical s) :
    Canonical (recomposeAdvance passed s) := by
  unfold recomposeAdvance
  exact
    by
      extract_lets
      split
      · exact .ite hc (by
          split
          · exact .upd hc
          · exact .ite hc (setPhase_canonical (setRgcState_canonical (.upd hc))))
      · exact loadsStart_canonical (setPhase_canonical (clearShare_canonical (.upd hc)))
      · exact by
          split
          · exact hc
          · exact have h1 : Canonical _ := setPhase_canonical (writeShare_canonical (loadsEnd_canonical hc))
            have h2 : Canonical _ := .upd h1
            .ite (recomposeReady_canonical h2) h2
      · exact hc

theorem recomposeRegion_canonical {x : RecomposeIn} {s : State} (hc : Canonical s) :
    Canonical (recomposeRegion x s) := by
  unfold recomposeRegion
  exact
    startOp_canonical (fun h1 => (.ite (cmdFinish_canonical h1) (
      have h2 : Canonical (_ : _ × State).2 := imageBytes_canonical h1
      have h3 : Canonical _ := fput_canonical (fset_canonical h2)
      have h4 : Canonical _ := .upd h3
      .foldl (fun _ _ h5 => (recomposeAdvance_canonical h5)) _ h4))) hc

theorem recomposeDone_canonical {result : Nat} {s : State} (hc : Canonical s) :
    Canonical (recomposeDone result s) := by
  unfold recomposeDone
  exact
    cmdFinish_canonical (fclr_canonical (.upd hc))

theorem recomposeAborted_canonical {r : Nat} {s : State} (hc : Canonical s) :
    Canonical (recomposeAborted r s) := by
  unfold recomposeAborted
  exact
    by
      split
      · exact hc
      · exact regionReturns_canonical hc
      · exact setRegion_canonical (emptyRegion_canonical (loadsEnd_canonical hc))

theorem recomposeEnd_canonical {e : OpEnv} {s : State} (hc : Canonical s) :
    Canonical (recomposeEnd e s) := by
  unfold recomposeEnd
  exact
    by
      extract_lets
      split
      · exact recomposeDone_canonical (fput_canonical (cfgReport_canonical hc))
      · exact .ite (recomposeDone_canonical (recomposeAborted_canonical hc)) (.ite (.ite (recomposeDone_canonical (fput_canonical hc)) hc) (recomposeAdvance_canonical hc))

theorem recomposeActivate_canonical {d : Nat} {s : State} (hc : Canonical s) :
    Canonical (recomposeActivate d s) := by
  unfold recomposeActivate
  exact
    .ite hc (by
      split
      · exact hc
      · exact have h1 : Canonical _ := activateDomain_canonical (.upd hc)
        .ite (recomposeReady_canonical h1) h1)

theorem lateAbort_canonical {late : Bool} {s : State} (hc : Canonical s) :
    Canonical (lateAbort late s) := by
  unfold lateAbort
  exact
    .ite (fset_canonical (fclr_canonical hc)) hc

theorem commandComplete_canonical {e : OpEnv} {s0 : State} (hc : Canonical s0) :
    Canonical (commandComplete e s0) := by
  unfold commandComplete
  exact
    .ite hc (
      have h1 : Canonical _ := lateAbort_canonical hc
      by
        extract_lets
        split
        · exact flashWriteEnd_canonical h1
        · exact flashReadEnd_canonical h1
        · exact regionSelftestEnd_canonical h1
        · exact chipSelftestEnd_canonical h1
        · exact memoryTestEnd_canonical h1
        · exact recomposeEnd_canonical h1
        · exact cmdFinish_canonical h1)

theorem cmdAbort_canonical {s : State} (hc : Canonical s) :
    Canonical (cmdAbort s) := by
  unfold cmdAbort
  exact
    .ite (fput_canonical hc) (.ite (fset_canonical hc) (fset_canonical hc))

theorem flrPf0_canonical {s : State} (hc : Canonical s) :
    Canonical (flrPf0 s) := by
  unfold flrPf0
  exact
    .ite hc (
      have h2 : Canonical _ := .foldl (fun _ _ h1 => (flrDomain_canonical h1)) _ hc
      .ite (
        have h3 : Canonical _ := cmdAbort_canonical h2
        .upd h3) h2)

theorem pipCtlHostWrite_canonical {p : Nat} {v : Word} {s : State} (hc : Canonical s) :
    Canonical (pipCtlHostWrite p v s) := by
  unfold pipCtlHostWrite
  exact
    .ite (cmdAbort_canonical (pipCtlWrite_canonical hc)) (pipCtlWrite_canonical hc)

/-! ### Cxl -/

theorem cxlLinkDown_canonical {s : State} (hc : Canonical s) :
    Canonical (cxlLinkDown s) := by
  unfold cxlLinkDown
  exact
    .ite hc (
      have h1 : Canonical _ := .upd hc
      have h2 : Canonical _ := fput_canonical (fput_canonical h1)
      bump_canonical (fset_canonical h2))

theorem releaseHeld_canonical {s : State} (hc : Canonical s) :
    Canonical (releaseHeld s) := by
  unfold releaseHeld
  exact
    .foldl (fun _ _ h1 => (setChan_canonical h1)) _ hc

theorem cxlLinkReturn_canonical {lanes : Nat} {rate : Nat} {s : State} (hc : Canonical s) :
    Canonical (cxlLinkReturn lanes rate s) := by
  unfold cxlLinkReturn
  exact
    .ite hc (
      have h1 : Canonical _ := .upd hc
      have h2 : Canonical _ := fput_canonical (fput_canonical (fput_canonical h1))
      releaseHeld_canonical h2)

theorem dropHeldDma_canonical {c : Nat} {s : State} (hc : Canonical s) :
    Canonical (dropHeldDma c s) := by
  unfold dropHeldDma
  exact
    .ite (dmaHalt_canonical hc) hc

theorem dropRecords_canonical {p : Nat} {s : State} (hc : Canonical s) :
    Canonical (dropRecords p s) := by
  unfold dropRecords
  exact
    by
      extract_lets
      split
      · exact hc
      · exact .ite hc (
          have h1 : Canonical _ := setPipe_canonical hc
          checkDrained_canonical (pipEvent_canonical (bumpBy_canonical h1)))

theorem cxlLinkDownTimeout_canonical {s : State} (hc : Canonical s) :
    Canonical (cxlLinkDownTimeout s) := by
  unfold cxlLinkDownTimeout
  exact
    .ite hc (
      have h2 : Canonical _ := .foldl (fun _ _ h1 => (dropHeldDma_canonical h1)) _ hc
      have h4 : Canonical _ := .foldl (fun _ _ h3 => (dropRecords_canonical h3)) _ h2
      .foldl (fun _ _ h5 => (hrDropAll_canonical h5)) _ h4)

theorem hdmCommit_canonical {k : Nat} {base : Nat} {size : Nat} {ways : Nat} {skip : Nat} {lock : Bool} {s : State} (hc : Canonical s) :
    Canonical (hdmCommit k base size ways skip lock s) := by
  unfold hdmCommit
  exact
    .ite hc (by
      split
      · exact .ite (setHdm_canonical hc) (setHdm_canonical hc)
      · exact setHdm_canonical hc)

theorem h2dSnoop_canonical {s : State} (hc : Canonical s) :
    Canonical (h2dSnoop s) := by
  unfold h2dSnoop
  exact
    .ite (emit_canonical hc) hc

theorem gpfPseudo_canonical {k : Nat} {s : State} (hc : Canonical s) :
    Canonical (gpfPseudo k s) := by
  unfold gpfPseudo
  exact
    .foldl (fun _ _ h1 => (serveReq_canonical h1)) _ (.updFs hc rfl)

theorem gpfChannel_canonical {k : Nat} {s : State} (hc : Canonical s) :
    Canonical (gpfChannel k s) := by
  unfold gpfChannel
  exact
    .foldl (fun _ _ h1 => (serveReq_canonical h1)) _ (.updFs hc rfl)

theorem gpfController_canonical {k : Nat} {s : State} (hc : Canonical s) :
    Canonical (gpfController k s) := by
  unfold gpfController
  exact
    .foldl (fun _ _ h1 => (serveReq_canonical h1)) _ (.updFs hc rfl)

theorem gpfHost_canonical {s : State} (hc : Canonical s) :
    Canonical (gpfHost s) := by
  unfold gpfHost
  exact
    .foldl (fun _ _ h1 => (serveHost_canonical h1)) _ (.updFs hc rfl)

theorem gpfPhase2_canonical {s : State} (hc : Canonical s) :
    Canonical (gpfPhase2 s) := by
  unfold gpfPhase2
  exact
    .ite (
      have h2 : Canonical _ := .foldl (fun _ _ h1 => (gpfPseudo_canonical h1)) _ hc
      have h4 : Canonical _ := .foldl (fun _ _ h3 => (gpfChannel_canonical h3)) _ h2
      gpfHost_canonical (.foldl (fun _ _ h5 => (gpfController_canonical h5)) _ h4)) hc

theorem poisonedTlpWrite_canonical {d : Nat} {s : State} (hc : Canonical s) :
    Canonical (poisonedTlpWrite d s) := by
  unfold poisonedTlpWrite
  exact
    .ite hc (emit_canonical (.upd hc))

theorem linkLayerRetry_canonical {s : State} (hc : Canonical s) :
    Canonical (linkLayerRetry s) := by
  unfold linkLayerRetry
  exact
    .ite (.upd hc) hc

theorem flitBufferError_canonical {s : State} (hc : Canonical s) :
    Canonical (flitBufferError s) := by
  unfold flitBufferError
  exact
    .ite (emit_canonical (.upd hc)) hc

theorem copyUpset_canonical {w : TripWord} {majority : Bool} {s : State} (hc : Canonical s) :
    Canonical (copyUpset w majority s) := by
  unfold copyUpset
  exact
    .ite hc (.ite (bumpBy_canonical hc) (chipFault_canonical hc))

/-! ### Ptp -/

theorem sendDelayReq_canonical {s : State} (hc : Canonical s) :
    Canonical (sendDelayReq s) := by
  unfold sendDelayReq
  exact
    setTarget_canonical (.upd hc)

theorem syncKnown_canonical {t1 : Nat} {s : State} (hc : Canonical s) :
    Canonical (syncKnown t1 s) := by
  unfold syncKnown
  exact
    sendDelayReq_canonical (.upd hc)

theorem ptpMessage_canonical {domain : Nat} {m : PtpMsg} {s : State} (hc : Canonical s) :
    Canonical (ptpMessage domain m s) := by
  unfold ptpMessage
  exact
    .ite hc (by
      extract_lets
      split
      · exact have h1 : Canonical _ := .upd hc
        .ite h1 (setPtpState_canonical (fput_canonical (.upd h1)))
      · exact .ite hc (
          have h2 : Canonical _ := noteValid_canonical (.upd hc)
          by
            extract_lets
            split
            · exact syncKnown_canonical h2
            · exact h2)
      · exact .ite hc (syncKnown_canonical hc)
      · exact .ite hc (.upd hc))

theorem announceLost_canonical {s : State} (hc : Canonical s) :
    Canonical (announceLost s) := by
  unfold announceLost
  exact
    .ite (setPtpState_canonical (.upd hc)) hc

theorem postTimes_canonical {s : State} (hc : Canonical s) :
    Canonical (postTimes s) := by
  unfold postTimes
  exact
    .foldl (fun _ _ h1 => (wr64_canonical h1)) _ hc

theorem ptpExchange_canonical {rate : Int} {s : State} (hc : Canonical s) :
    Canonical (ptpExchange rate s) := by
  unfold ptpExchange
  exact
    .ite hc (
      have h1 : Canonical _ := .upd hc
      have h2 : Canonical _ := setPtpState_canonical h1
      .ite (raise_canonical (postTimes_canonical h2)) (.ite (phaseMeasurement_canonical h2) h2))

theorem ptpAdjWrite_canonical {v : Word} {s : State} (hc : Canonical s) :
    Canonical (ptpAdjWrite v s) := by
  unfold ptpAdjWrite
  exact
    have h1 : Canonical _ := wr_canonical (.upd hc)
    .ite h1 (
      have h2 : Canonical _ := .upd h1
      setPhaseErr_canonical h2)

theorem ptpHostStale_canonical {s : State} (hc : Canonical s) :
    Canonical (ptpHostStale s) := by
  unfold ptpHostStale
  exact
    .ite hc (fset_canonical (.upd hc))

/-! ### Tap -/

theorem setTap_canonical {f : Tap → Tap} {s : State} (hc : Canonical s) :
    Canonical (setTap f s) := by
  unfold setTap
  exact
    .upd hc

theorem tapBypass_canonical {s : State} (hc : Canonical s) :
    Canonical (tapBypass s) := by
  unfold tapBypass
  exact
    setTap_canonical hc

theorem tapRun_canonical {f : Tap → Tap} {s : State} (hc : Canonical s) :
    Canonical (tapRun f s) := by
  unfold tapRun
  exact
    .ite (setTap_canonical hc) (tapBypass_canonical hc)

theorem tapExtest_canonical {i : TapInstr} {drive : List (Nat × Bool)} {pads : List (Nat × Bool)} {s : State} (hc : Canonical s) :
    Canonical (tapExtest i drive pads s) := by
  unfold tapExtest
  exact
    tapRun_canonical hc

theorem tapSample_canonical {preload : List (Nat × Bool)} {pads : List (Nat × Bool)} {s : State} (hc : Canonical s) :
    Canonical (tapSample preload pads s) := by
  unfold tapSample
  exact
    tapRun_canonical hc

theorem tapHighz_canonical {s : State} (hc : Canonical s) :
    Canonical (tapHighz s) := by
  unfold tapHighz
  exact
    tapRun_canonical hc

theorem tapClamp_canonical {s : State} (hc : Canonical s) :
    Canonical (tapClamp s) := by
  unfold tapClamp
  exact
    tapRun_canonical hc

theorem trstAssert_canonical {s : State} (hc : Canonical s) :
    Canonical (trstAssert s) := by
  unfold trstAssert
  exact
    .upd hc

/-! ### HostIf -/

theorem offsetUsed_canonical {b : Bar} {off : Nat} {s : State} (hc : Canonical s) :
    Canonical (offsetUsed b off s) := by
  unfold offsetUsed
  exact
    by
      split
      · exact hc
      · exact .ite hc (stepFree_canonical hc)
      · exact stepFree_canonical hc

theorem disarm_canonical {s : State} (hc : Canonical s) :
    Canonical (disarm s) := by
  unfold disarm
  exact
    fclr_canonical hc

theorem keyWrite_canonical {v : Word} {s : State} (hc : Canonical s) :
    Canonical (keyWrite v s) := by
  unfold keyWrite
  exact
    fput_canonical hc

theorem opWrite_canonical {x : RegEnv} {op : Nat} {s : State} (hc : Canonical s) :
    Canonical (opWrite x op s) := by
  unfold opWrite
  exact
    by
      split
      · exact ping_canonical hc
      · exact chipReboot_canonical hc
      · exact flashWrite_canonical hc
      · exact flashRead_canonical hc
      · exact fuseRead_canonical (disarm_canonical hc)
      · exact regionSelftest_canonical hc
      · exact chipSelftest_canonical hc
      · exact memoryTest_canonical hc
      · exact recomposeRegion_canonical hc
      · exact startOp_canonical (fun h => h) hc

theorem trigCtlWrite_canonical {w : Word} {s : State} (hc : Canonical s) :
    Canonical (trigCtlWrite w s) := by
  unfold trigCtlWrite
  exact
    have h1 : Canonical _ := wr_canonical hc
    .foldl (fun _ _ h2 => (.ite (emit_canonical h2) h2)) _ h1

theorem forceWrite_canonical {v : Word} {s : State} (hc : Canonical s) :
    Canonical (forceWrite v s) := by
  unfold forceWrite
  exact
    have h1 : Canonical _ := mittenForceWrite_canonical hc
    .ite (forceSafe_canonical h1) h1

theorem plainWrite_canonical {x : RegEnv} {d : Nat} {off : Nat} {l : List FieldRow} {w : Word} {s : State} (hc : Canonical s) :
    Canonical (plainWrite x d off l w s) := by
  unfold plainWrite
  exact
    have h1 : Canonical _ := wr_canonical hc
    .ite (fieldOverrun_canonical h1) h1

theorem setWrite_canonical {x : RegEnv} {d : Nat} {off : Nat} {shadow : Bool} {l : List FieldRow} {w : Word} {s : State} (hc : Canonical s) :
    Canonical (setWrite x d off shadow l w s) := by
  unfold setWrite
  exact
    .ite (shadowWrite_canonical hc) (.ite (activeWrite_canonical hc) (plainWrite_canonical hc))

theorem dmaHeadWrite_canonical {x : RegEnv} {d : Nat} {off : Nat} {l : List FieldRow} {w : Word} {s : State} (hc : Canonical s) :
    Canonical (dmaHeadWrite x d off l w s) := by
  unfold dmaHeadWrite
  exact
    .ite (accessErr_canonical hc) (plainWrite_canonical hc)

theorem ruleWrite_canonical {x : RegEnv} {d : Nat} {off : Nat} {n : RegName} {shadow : Bool} {v : Word} {w : Word} {s : State} (hc : Canonical s) :
    Canonical (ruleWrite x d off n shadow v w s) := by
  unfold ruleWrite
  exact
    by
      extract_lets
      split
      · exact modeRequest_canonical hc
      · exact forceWrite_canonical hc
      · exact keyWrite_canonical hc
      · exact opWrite_canonical hc
      · exact cmdArgWrite_canonical hc
      · exact .ite (cmdAbort_canonical hc) hc
      · exact rckCtlWrite_canonical hc
      · exact trigCtlWrite_canonical hc
      · exact domOfsWrite_canonical hc
      · exact ackWrite_canonical hc
      · exact routeWrite_canonical hc
      · exact vecHoldWrite_canonical hc
      · exact powerCapWrite_canonical hc
      · exact regionOffWrite_canonical hc
      · exact logIdxWrite_canonical hc
      · exact ptpAdjWrite_canonical hc
      · exact eccCtlWrite_canonical hc
      · exact poolCtlWrite_canonical hc
      · exact poolResize_canonical hc
      · exact hopCommand_canonical hc
      · exact dmaCtlWrite_canonical hc
      · exact dmaHeadWrite_canonical hc
      · exact dmaHeadWrite_canonical hc
      · exact .ite (doorbell_canonical hc) hc
      · exact laneCtlWrite_canonical hc
      · exact prbsWrite_canonical hc
      · exact macCtlWrite_canonical hc
      · exact ringCtlWrite_canonical hc
      · exact sptCtlWrite_canonical hc
      · exact hrCountWrite_canonical hc
      · exact hrCountWrite_canonical hc
      · exact policerWrite_canonical hc
      · exact policerWrite_canonical hc
      · exact impSeedWrite_canonical hc
      · exact shaperWrite_canonical hc
      · exact shaperWrite_canonical hc
      · exact shaperWrite_canonical hc
      · exact dqLevelWrite_canonical hc
      · exact pipCtlHostWrite_canonical hc
      · exact .ite (shadowDiscard_canonical hc) hc
      · exact budgetWrite_canonical hc
      · exact faultAck_canonical hc
      · exact injectWrite_canonical hc
      · exact .ite (setWrite_canonical hc) (plainWrite_canonical hc)

theorem safeWrite_canonical {d : Nat} {off : Nat} {l : List FieldRow} {v : Word} {s : State} (hc : Canonical s) :
    Canonical (safeWrite d off l v s) := by
  unfold safeWrite
  exact
    .ite (wr_canonical hc) (accessErr_canonical hc)

theorem regWrite_canonical {x : RegEnv} {d : Nat} {off : Nat} {n : RegName} {shadow : Bool} {v : Word} {s : State} (hc : Canonical s) :
    Canonical (regWrite x d off n shadow v s) := by
  unfold regWrite
  exact
    .ite (accessErr_canonical hc) (
      have h1 : Canonical _ := .ite (disarm_canonical hc) hc
      .ite (modeResult_canonical h1) (.ite (safeWrite_canonical h1) (ruleWrite_canonical h1)))

theorem componentWrite_canonical {o : Nat} {v : Word} {s : State} (hc : Canonical s) :
    Canonical (componentWrite o v s) := by
  unfold componentWrite
  exact
    .upd hc

theorem bar0Write_canonical {x : RegEnv} {d : Nat} {off : Nat} {v : Word} {s : State} (hc : Canonical s) :
    Canonical (bar0Write x d off v s) := by
  unfold bar0Write
  exact
    by
      split
      · exact regWrite_canonical hc
      · exact .ite (.ite (accessErr_canonical hc) (scheduleWrite_canonical hc)) (.ite (.ite (accessErr_canonical hc) (componentWrite_canonical hc)) hc)

theorem bar4Write_canonical {d : Nat} {off : Nat} {v : Word} {s : State} (hc : Canonical s) :
    Canonical (bar4Write d off v s) := by
  unfold bar4Write
  exact
    .ite (setVec_canonical hc) hc

theorem admitted_canonical {d : Nat} {b : Bar} {off : Nat} {i : Nat} {write : Bool} {k : State → State} {s : State} (kk : ∀ {t}, Canonical t → Canonical (k t)) (hc : Canonical s) :
    Canonical (admitted d b off i write k s) := by
  unfold admitted
  exact
    .ite (gloveDeny_canonical (offsetUsed_canonical hc)) (.ite (accessErr_canonical (offsetUsed_canonical hc)) (kk hc))

theorem wordWrite_canonical {x : RegEnv} {d : Nat} {b : Bar} {off : Nat} {data : List (Option Byte)} {s : State} (hc : Canonical s) :
    Canonical (wordWrite x d b off data s) := by
  unfold wordWrite
  exact
    .ite hc (admitted_canonical (fun h1 => (.ite (accessErr_canonical (offsetUsed_canonical h1)) (by
      split
      · exact bar4Write_canonical h1
      · exact bar0Write_canonical h1
      · exact h1))) hc)

theorem memoryWrite_canonical {x : RegEnv} {d : Nat} {b : Bar} {off : Nat} {data : List (Option Byte)} {s : State} (hc : Canonical s) :
    Canonical (memoryWrite x d b off data s) := by
  unfold memoryWrite
  exact
    .ite hc (.ite (.foldl (fun _ _ h1 => (wordWrite_canonical h1)) _ hc) (.ite (wordWrite_canonical hc) (admitted_canonical (fun h2 => (accessErr_canonical (offsetUsed_canonical h2))) hc)))

theorem configWrite_canonical {d : Nat} {c : ConfigIn} {s : State} (hc : Canonical s) :
    Canonical (configWrite d c s) := by
  unfold configWrite
  exact
    .ite hc (.ite (emit_canonical hc) (
      have h1 : Canonical _ := .ite (.upd hc) hc
      have h2 : Canonical _ := setFn_canonical h1
      .ite (.upd h2) h2))

theorem hostWrite_canonical {x : RegEnv} {d : Nat} {w : HostWrite} {s : State} (hc : Canonical s) :
    Canonical (hostWrite x d w s) := by
  unfold hostWrite
  exact
    by
      split
      · exact memoryWrite_canonical hc
      · exact configWrite_canonical hc

theorem regPut_canonical {x : RegEnv} {d : Nat} {off : Nat} {v : Word} {s : State} (hc : Canonical s) :
    Canonical (regPut x d off v s) := by
  unfold regPut
  exact
    memoryWrite_canonical hc

theorem hopSettle_canonical {f d : Nat} {s : State} (hc : Canonical s) : Canonical (hopSettle f d s) := by
  induction f generalizing s with
  | zero => exact hc
  | succ f ih =>
    unfold hopSettle
    exact .ite (ih (poolsCycle_canonical (passCycles_canonical hc))) hc

theorem readOrder_canonical {off : Nat} {s : State} (hc : Canonical s) :
    Canonical (readOrder off s) := by
  unfold readOrder
  exact
    by
      split
      · exact hopSettle_canonical hc
      · exact hc

theorem readEffect_canonical {off : Nat} {s : State} (hc : Canonical s) :
    Canonical (readEffect off s) := by
  unfold readEffect
  exact
    by
      split
      · exact have h1 : Canonical _ := hopAlloc_canonical hc
        hopSettle_canonical h1
      · exact .ite (.upd hc) hc
      · exact hc

theorem wordRead_canonical {sparse : Bool} {d : Nat} {b : Bar} {off i n : Nat} {s : State} (hc : Canonical s) :
    Canonical (wordRead sparse d b off i n s) := by
  unfold wordRead
  dsimp only
  refine .ite (emit_canonical (admitted_canonical (fun h => h) hc)) ?_
  split
  · exact emit_canonical hc
  · have h : Canonical (if (decide (n = 4) && !sparse) = true then readEffect off (readOrder off s) else readOrder off s) :=
      .ite (readEffect_canonical (readOrder_canonical hc)) (readOrder_canonical hc)
    exact emit_canonical (.ite (stepFree_canonical h) h)
  · split
    · exact emit_canonical (.ite (readEffect_canonical hc) hc)
    · exact emit_canonical hc

theorem hostRead_canonical {sparse : Bool} {d : Nat} {b : Bar} {off : Nat} {n : Nat} {s : State} (hc : Canonical s) :
    Canonical (hostRead sparse d b off n s) := by
  unfold hostRead
  exact
    .ite hc (.ite (.foldl (fun _ _ h1 => (wordRead_canonical h1)) _ hc) (.ite (wordRead_canonical hc) (.ite (emit_canonical (admitted_canonical (fun h => h) hc)) (emit_canonical (accessErr_canonical (offsetUsed_canonical hc))))))

theorem configRead_canonical {d : Nat} {early : Bool} {i : ConfigItem} {s : State} (hc : Canonical s) :
    Canonical (configRead d early i s) := by
  unfold configRead
  exact
    .ite hc (.ite (emit_canonical hc) (.ite (emit_canonical hc) (emit_canonical hc)))

theorem hostLoad_canonical {d : Nat} {r : HostLoad} {s : State} (hc : Canonical s) :
    Canonical (hostLoad d r s) := by
  unfold hostLoad
  exact
    by
      split
      · exact hostRead_canonical hc
      · exact configRead_canonical hc

/-! ### RowOps -/

theorem bytePut_canonical {d : Nat} {off : Nat} {be : BitVec 4} {v : Word} {s : State} (hc : Canonical s) :
    Canonical (bytePut d off be v s) := by
  unfold bytePut
  exact
    memoryWrite_canonical hc

theorem modeReqPut_canonical {d : Nat} {k : Nat} {s : State} (hc : Canonical s) :
    Canonical (modeReqPut d k s) := by
  unfold modeReqPut
  exact
    regPut_canonical hc

theorem opPut_canonical {d : Nat} {op : Nat} {s : State} (hc : Canonical s) :
    Canonical (opPut d op s) := by
  unfold opPut
  exact
    regPut_canonical hc

theorem trigInEvent_canonical {n : Nat} {s : State} (hc : Canonical s) :
    Canonical (trigInEvent n s) := by
  unfold trigInEvent
  exact
    .ite hc (ringTrigIn_canonical (latchTrigger_canonical (armTriggers_canonical (raise_canonical hc))))

theorem externalInput_canonical {n : Nat} {level : Bool} {samples : Nat} {s : State} (hc : Canonical s) :
    Canonical (externalInput n level samples s) := by
  unfold externalInput
  exact
    .ite hc (
      have h1 : Canonical (_ : State × _).1 := glitchSample_canonical hc
      .ite (raise_canonical h1) h1)

theorem ackBy_canonical {a : AckBy} {src : Nat} {n : Nat} {s : State} (hc : Canonical s) :
    Canonical (ackBy a src n s) := by
  unfold ackBy
  exact
    by
      split
      · exact regPut_canonical hc
      · exact .ite (ackFirmware_canonical hc) hc
      · exact .ite (ackFirmware_canonical hc) hc

theorem correctedErrors_canonical {u : FaultUnit} {n : Nat} {s : State} (hc : Canonical s) :
    Canonical (correctedErrors u n s) := by
  unfold correctedErrors
  exact
    .ite hc (bumpBy_canonical hc)

theorem patchCorrected_canonical {r : Nat} {b : Nat} {n : Nat} {s : State} (hc : Canonical s) :
    Canonical (patchCorrected r b n s) := by
  unfold patchCorrected
  exact
    .ite hc (bumpBy_canonical hc)

theorem allocBy_canonical {a : AllocBy} {s : State} (hc : Canonical s) :
    Canonical (allocBy a s) := by
  unfold allocBy
  exact
    by
      split
      · exact hostRead_canonical hc
      · exact unitAlloc_canonical hc

theorem bufBy_canonical {a : BufBy} {code : Nat} {op : BufOp} {n : Nat} {s : State} (hc : Canonical s) :
    Canonical (bufBy a code op n s) := by
  unfold bufBy
  exact
    by
      split
      · exact regPut_canonical hc
      · exact unitBufOp_canonical hc

theorem poolRetry_canonical {i : Nat} {s : State} (hc : Canonical s) :
    Canonical (poolRetry i s) := by
  unfold poolRetry
  exact
    by
      split
      · exact hc
      · exact .ite (.ite (toPoolAlloc_canonical hc) (dropWait_canonical hc)) (unitAlloc_canonical hc)
      · exact unitBufOp_canonical (dropWait_canonical hc)

theorem smbSensor_canonical {n : Nat} {s : State} (hc : Canonical s) :
    Canonical (smbSensor n s) := by
  unfold smbSensor
  exact
    .ite (emit_canonical hc) (emit_canonical (stepFree_canonical hc))

theorem smbHoldByte_canonical {v : Nat} {s : State} (hc : Canonical s) :
    Canonical (smbHoldByte v s) := by
  unfold smbHoldByte
  exact
    .ite (smbHold_canonical hc) (.ite (smbHold_canonical hc) hc)

theorem smbFwInfo_canonical {s : State} (hc : Canonical s) :
    Canonical (smbFwInfo s) := by
  unfold smbFwInfo
  exact
    emit_canonical hc

/-! ### Tick -/

theorem blockCycle_canonical {k : Nat} {s : State} (hc : Canonical s) :
    Canonical (blockCycle k s) := by
  unfold blockCycle
  exact
    .ite hc (
      have h1 : Canonical _ := onBlock_canonical (settleSwitch_canonical hc)
      .foldl (fun _ _ h2 => (dqCycle_canonical h2)) _ h1)

theorem perhaps_canonical {f : State → State} {s : State} (kf : ∀ {t}, Canonical t → Canonical (f t)) (hc : Canonical s) :
    Canonical (perhaps f s) := by
  unfold perhaps
  exact
    stepFree_canonical (.ite (kf hc) hc)

theorem testsGoOn_canonical {s : State} (hc : Canonical s) :
    Canonical (testsGoOn s) := by
  unfold testsGoOn
  exact
    .ite (perhaps_canonical (lineStoreTest_canonical) hc) hc

theorem unitsGoOn_canonical {s : State} (hc : Canonical s) :
    Canonical (unitsGoOn s) := by
  unfold unitsGoOn
  exact
    have h1 : Canonical _ := .ite (perhaps_canonical (runGroup_canonical) hc) hc
    have h2 : Canonical _ := .ite (perhaps_canonical (nextGroup_canonical) h1) h1
    have h3 : Canonical _ := testsGoOn_canonical h2
    .ite h3 (perhaps_canonical (hostRun_canonical) h3)

theorem linksCycle_canonical {s : State} (hc : Canonical s) :
    Canonical (linksCycle s) := by
  unfold linksCycle
  exact
    .foldl (fun _ _ h1 => (checkerCycle_canonical h1)) _ (.ite (ringCycle_canonical hc) hc)

theorem streamPortCycle_canonical {n : Nat} {s : State} (hc : Canonical s) :
    Canonical (streamPortCycle n s) := by
  unfold streamPortCycle
  exact
    have h1 : Canonical _ := pathLoss_canonical (.ite (mergeTimeout_canonical hc) hc)
    tsInsertions_canonical (reorderRelease_canonical h1)

theorem portsCycle_canonical {s : State} (hc : Canonical s) :
    Canonical (portsCycle s) := by
  unfold portsCycle
  exact
    .ite hc (.foldl (fun _ _ h1 => (streamPortCycle_canonical h1)) _ hc)

theorem tick_canonical {s : State} (hc : Canonical s) :
    Canonical (tick s) := by
  unfold tick
  exact
    have h1 : Canonical _ := passCycles_canonical hc
    .ite (checkLoss_canonical (announceLost_canonical (unitsGoOn_canonical (portsCycle_canonical (linksCycle_canonical (poolsCycle_canonical (.foldl (fun _ _ h2 => (blockCycle_canonical h2)) _ h1))))))) h1

end Sys2Proof.Machine
end

