-- ==== Sys2Proof/Laws/Host.lean ====
section
/-! SUPPORT. What a host write that is admitted comes down to: one call of the register's own rule. -/

namespace Sys2Proof.Machine

open Sys2Proof

theorem leBytes_four (v : Nat) :
    leBytes v 4 = [BitVec.ofNat 8 v, BitVec.ofNat 8 (v / 256), BitVec.ofNat 8 (v / 256 / 256), BitVec.ofNat 8 (v / 256 / 256 / 256)] :=
  rfl

/-- Four enabled bytes replace the whole word. -/
theorem mergeBytes_all (w v : Word) : mergeBytes w ((leBytes v.toNat 4).map some) = v := by
  apply BitVec.eq_of_toNat_eq
  have hv := v.isLt
  simp [mergeBytes, leBytes_four, leNat, List.range_succ, Nat.reducePow, BitVec.toNat_ofNat]
  omega

/-- An admitted 32-bit host write reaches the register. -/
theorem regPut_eq {x : RegEnv} {d off : Nat} {v : Word} {s : State} (h : HostMayWrite d off s) (ha : off % 4 = 0) :
    regPut x d off v s = bar0Write x d off v s := by
  obtain ⟨h1, h2, h3⟩ := h
  have hw : wordWrite x d .bar0 off ((leBytes v.toNat 4).map some) s = bar0Write x d off v s := by
    have hm := mergeBytes_all (rd off s) v
    simp only [leBytes_four, List.map_cons, List.map_nil] at hm
    unfold wordWrite
    simp only [leBytes_four, List.map_cons, List.map_nil]
    simp [admitted, h2, h3] at hm ⊢
    rw [hm]
  unfold regPut memoryWrite
  rw [if_neg (by simp [h1]), if_pos ⟨ha, by simp [leBytes_four]⟩]
  exact hw

/-- A host write that the Glove stops is recorded, and changes nothing else (R130). -/
theorem regPut_denied {x : RegEnv} {d off : Nat} {v : Word} {s : State} (hp : hostPath d s = true)
    (h : gloveStops d .bar0 off true s = true) (ha : off % 4 = 0) : regPut x d off v s = gloveDeny d off s := by
  have hw : wordWrite x d .bar0 off ((leBytes v.toNat 4).map some) s = gloveDeny d off s := by
    unfold wordWrite
    simp [leBytes_four, admitted, h, accessOffset, offsetUsed]
  unfold regPut memoryWrite
  rw [if_neg (by simp [hp]), if_pos ⟨ha, by simp [leBytes_four]⟩]
  exact hw

end Sys2Proof.Machine
end

