-- ==== Sys2Proof/Laws/Power.lean ====
section
/-! SUPPORT. What the ring bypass, the log and a chip reset do to the state. -/

namespace Sys2Proof.Machine

open Sys2Proof

/-! ### The ring bypass -/

theorem ringOff_regs {s : State} : (ringOff s).regs = (fput Reg.lanRingStatus LanRingStatus.ringState 0 s).regs := rfl

/-- A receive lane without signal writes its own state and its source only. -/
theorem ringLaneDark_only {l : Nat} {s : State} :
    OnlyRegs [Reg.lanLaneStatus l, Reg.lanLockLostCnt l, Reg.icuSrcStat (384 + l)] s (ringLaneDark l s) := by
  unfold ringLaneDark
  have h : OnlyRegs [Reg.lanLaneStatus l, Reg.lanLockLostCnt l, Reg.icuSrcStat (384 + l)] s
      (fclr (Reg.lanLaneStatus l) LanLaneStatus.cdrLock (fclr (Reg.lanLaneStatus l) LanLaneStatus.sigDet
        (fput (Reg.lanLaneStatus l) LanLaneStatus.laneState 2 s))) :=
    ((OnlyRegs.refl.fput (by simp)).fclr (by simp)).fclr (by simp)
  exact .ite .refl (.ite (((h.fset (by simp)).bump (by simp)).raise (by simp)) h)

/-- Receivers without signal write the ring's path registers only. -/
theorem ringDark_only {s : State} : OnlyRegs ringPathRegs s (ringDark s) := by
  unfold ringDark
  have h : OnlyRegs ringPathRegs s ([48, 49, 50, 51].foldl (fun a l => ringLaneDark l a) s) := by
    refine .foldl _ (fun t l hl ht => ht.trans (ringLaneDark_only.mono ?_)) .refl
    simp only [List.mem_cons, List.not_mem_nil, or_false] at hl
    rcases hl with rfl | rfl | rfl | rfl <;> decide
  exact .ite (((h.fclr (by decide)).fset (by decide)).raise (by decide)) h

/-- Driving the ring path writes the ring's path registers only. -/
theorem rd_applyMitten {o : Nat} {s : State} (h : o ∉ ringPathRegs) : rd o (applyMitten s) = rd o s := by
  have h1 : o ≠ Reg.chipMode := fun e => h (by rw [e]; decide)
  have h2 : o ≠ Reg.lanRingStatus := fun e => h (by rw [e]; decide)
  have h3 : rd o (ringOff s) = rd o s := by rw [rd_congr ringOff_regs, rd_fput_ne h2]
  have h4 (t : State) : rd o (fput Reg.chipMode ChipMode.mittenPath (mittenPlan s).2 t) = rd o t := rd_fput_ne h1
  refine (h4 (if (mittenPlan s).2 = 0 then s else if (mittenPlan s).2 = 1 then ringOff s else ringDark (ringOff s))).trans ?_
  split
  · rfl
  · split
    · exact h3
    · rw [ringDark_only.2 o h, h3]

theorem applyMitten_eq {s : State} :
    applyMitten s = { s with
      regs := (applyMitten s).regs
      ring := (applyMitten s).ring
      pwr := { s.pwr with
        mittenN := (mittenPlan s).1
        passThrough := s.pwr.passThrough && decide ((mittenPlan s).2 = 1) } } := by
  unfold applyMitten
  dsimp only
  split
  · rfl
  · split
    · rfl
    · rw [(ringDark_only (s := ringOff s)).1]
      rfl

theorem fget_applyMitten_path {s : State} :
    fget Reg.chipMode ChipMode.mittenPath (applyMitten s) = (mittenPlan s).2 % 4 :=
  fget_fput_self (s := if (mittenPlan s).2 = 0 then s else if (mittenPlan s).2 = 1 then ringOff s else ringDark (ringOff s)) (by decide)

/-- The other fields of CHIP_MODE are as they were. -/
theorem fget_applyMitten_mode {f : Fld} {s : State} (hf : f.lo + f.width ≤ 32)
    (h : f.lo + f.width ≤ ChipMode.mittenPath.lo ∨ ChipMode.mittenPath.lo + ChipMode.mittenPath.width ≤ f.lo) :
    fget Reg.chipMode f (applyMitten s) = fget Reg.chipMode f s := by
  refine (fget_fput_beside (s := if (mittenPlan s).2 = 0 then s else if (mittenPlan s).2 = 1 then ringOff s else ringDark (ringOff s)) hf h).trans ?_
  have h1 : fget Reg.chipMode f (ringOff s) = fget Reg.chipMode f s := by rw [fget_congr ringOff_regs, fget_fput_ne (by decide)]
  have h2 : fget Reg.chipMode f (ringDark (ringOff s)) = fget Reg.chipMode f (ringOff s) := by
    unfold ringDark
    dsimp only
    have h3 (t : State) : fget Reg.chipMode f ([48, 49, 50, 51].foldl (fun a l => ringLaneDark l a) t) = fget Reg.chipMode f t := by
      have := (OnlyRegs.foldl (l := [48, 49, 50, 51].flatMap fun l => [Reg.lanLaneStatus l, Reg.lanLockLostCnt l, Reg.icuSrcStat (384 + l)])
        (f := fun a l => ringLaneDark l a) (s := t) [48, 49, 50, 51] (fun u l hl hu => hu.trans (ringLaneDark_only.mono ?_)) .refl).2 Reg.chipMode (by decide)
      · exact congrArg (getF f) this
      · simp only [List.mem_cons, List.not_mem_nil, or_false] at hl
        rcases hl with rfl | rfl | rfl | rfl <;> decide
    split
    · rw [fget_raise_ne (by decide), fset_eq, fclr_eq, fget_fput_ne (by decide), fget_fput_ne (by decide), h3]
    · exact h3 _
  split
  · rfl
  · split
    · exact h1
    · rw [h2, h1]

/-! ### The log -/

/-- A log entry moves BCM_LOG_WR on and changes no other register. -/
theorem rd_logWrite {o k a d e : Nat} {s : State} (h : o ≠ Reg.bcmLogWr) :
    rd o (logWrite k a d e s) = rd o s := by
  unfold logWrite
  dsimp only
  rw [rd_wr_ne h]
  rfl

theorem logWrite_eq {k a d e : Nat} {s : State} :
    logWrite k a d e s = { s with regs := (logWrite k a d e s).regs, bc := { s.bc with log := (logWrite k a d e s).bc.log } } := rfl

theorem rd_logWrite_count {k a d e : Nat} {s : State} :
    rd Reg.bcmLogWr (logWrite k a d e s) = BitVec.ofNat 32 ((rd Reg.bcmLogWr s).toNat + 1) := by
  unfold logWrite
  dsimp only
  rw [rd_wr_self]

end Sys2Proof.Machine
end

