-- ==== Sys2Proof/Tests/Slice0.lean ====
section
/-! SUPPORT. Tests: ill-formed commands are refused, the spec's worked examples, and for each statement states and operands that
meet the hypotheses of each of its clauses together. -/

namespace Sys2Proof.Tests

set_option maxRecDepth 8000
set_option linter.unusedVariables false
set_option Elab.async false

open Sys2Proof Sys2Proof.Machine

/-! ### Small states -/

/-- A chip that has come up in mode `m`, with its link and its memory active. -/
def up (m : Nat) : State :=
  fput Reg.chipMode ChipMode.curMode m
    { State.reset with pwr := { State.reset.pwr with bypass := false, aux := true, railEn := true, perst := false, boot := .done,
                                                     linkUp := true, memActive := true, mittenN := true } }

/-- The same, at mesh cycle `n`. -/
def later (n : Nat) (s : State) : State := { s with now := n }

/-- With an action of code `c` for target `n` in flight. -/
def fly (c n arg : Nat) (s : State) : State := { s with clock := { s.clock with inFlight := [⟨c, n, arg, 0, 0⟩] } }

/-- A composition in force with pipeline 0 of personality `k` on block 0 of region 0, an egress port 0 and an ingress port 1 of it,
two carves and a pool of four buffers. -/
def composed (k : Nat) (s : State) : State :=
  { s with comp := { Comp.init with
      inForce := true, pipes := [⟨0, 0, 0, k, 0, 64, 64, 5, 1, 2, 1, 0, 1, 0, 0, 0xFFFF, 100, [0]⟩],
      ports := [⟨0, 0, true, 0, 0, 0, 4095⟩, ⟨1, 0, false, 1, 0, 0, 4095⟩],
      carves := [⟨2, 0, 0, 0, 0, 1⟩, ⟨3, 0, 0, 0, 1, 1⟩], pools := [⟨12, 4, 1⟩] } }

/-- With pipeline 0 enabled and running. -/
def enabled (s : State) : State := fput (Reg.pipStatus 0) PipStatus.running 1 (fput (Reg.pipCtl 0) PipCtl.enable 1 s)

/-- With block 0 of region 0 ACTIVE in personality `k`, its spare cell 11, pipeline 0 in its slot 0, and the region READY. -/
def blocked (k : Nat) (s : State) : State :=
  fput (Reg.rgcStatus 0) RgcStatus.rgcState 1
    (wr (Reg.blkSlot 0 0 0) 0x80000000#32 (wr (Reg.blkStatus 0 0) (BitVec.ofNat 32 (0x101B0FFF + 2 ^ 24 * k)) s))

/-- With all that the enable check of pipeline 0 asks: raster domain 0 at 50 Hz, a pool size, a budget and the latency. -/
def ready (s : State) : State :=
  fput (Reg.bpmPoolSize 0) BpmPoolSize.size 4 (fput (Reg.pipBudget 0) PipBudget.budget 10 (fput (Reg.pipLatency 0) PipLatency.rows 1
    (wr (Reg.rckDomCtl 0) 0x80000000#32 (wr (Reg.rckDomRate 0) 0x32001#32 (wr (Reg.rckDomGeom 0) 0x11945280#32 s)))))

/-- With pool 0 enabled: `held` buffers out, and those of `l` free on the on-chip list. -/
def pooled (held : Nat) (l : List Nat) (s : State) : State :=
  setHead 0 l (fput (Reg.bpmPoolFree 0) BpmPoolHeld.count l.length (fput (Reg.bpmPoolHeld 0) BpmPoolHeld.count held
    (fput (Reg.bpmPoolSize 0) BpmPoolSize.size 4 (fput (Reg.bpmPoolCtl 0) BpmPoolCtl.enable 1 (composed 2 s)))))

/-- With DMA channel `c` enabled and in state 2, its descriptor `w` in phase `ph`. -/
def channelAt (c : Nat) (ph : ChanPhase) (w : List Word) (s : State) : State :=
  setChan c { Chan.init with phase := ph, desc := ⟨w⟩ }
    (fput (Reg.dmaStatus c) DmaStatus.dmaState 2 (fput (Reg.dmaCtl c) DmaCtl.enable 1 s))

/-- With Ethernet complex 7 in mode 3, its port 3 (lane 31) enabled. -/
def mac7 (s : State) : State :=
  fput (Reg.lanMacCtl 7) LanMacCtl.mode 3 (fput (Reg.lanMacCtl 7) LanMacCtl.portEn 8 s)

/-- With ports `l` in the composition. -/
def withPorts (l : List PortEntry) (s : State) : State := { s with comp := { s.comp with ports := l } }

/-- With pipelines `l` in the composition. -/
def withPipes (l : List PipeEntry) (s : State) : State := { s with comp := { s.comp with pipes := l } }

/-- Stream port `n` enabled, with state `x`. -/
def portAt (n : Nat) (x : Port) (s : State) : State := setPort n x (fput (Reg.sptCtl n) SptCtl.enable 1 s)

/-- A parse of a coded picture of 16 by 16 samples with one CTU. -/
def pic16 : StreamPic :=
  { profile := 0, level := 0, chroma := 0, width := 16, height := 16, codedW := 16, codedH := 16, depth := 8, kind := 0, field := false, picId := 5,
    order := 1, reorder := 0, newSeq := true, rap := true, refs := [], keep := [], refresh := true, shown := true, shows := none, ctuLog2 := 4,
    tileCols := 1, hiddenRows := 0, partitions := 1, unitParts := [0], cropX := 0, cropY := 0, bitOfs := 0, unit := 0, hash := none, events := [] }

def dqStats : List Nat := (List.range 16).flatMap fun i => (List.range 8).flatMap fun j => (List.range 2).map fun q => Reg.dqStatus i j q

def sptStats : List Nat := (List.range 1024).map Reg.sptStatus

/-- A host write reaches register `off`: the three conditions as one. -/
theorem hmw {d off : Nat} {s : State} (h : (hostPath d s && !gloveStops d .bar0 off true s && !loadStops .bar0 off s) = true) :
    HostMayWrite d off s := by
  simp only [Bool.and_eq_true, Bool.not_eq_true'] at h
  exact ⟨h.1.1, h.1.2, h.2⟩

/-- The token that a queue's producer makes next. -/
theorem nt {o : Option (BitVec 128 × Dq)} {d : BitVec 128 × Dq} (h : o.isSome = true) : o = some ((o.getD d).1, (o.getD d).2) := by
  cases o with
  | none => cases h
  | some x => rfl

/-- No word has its bias with the host where no committed carve-out has. -/
theorem noLine {s : State} (h : ((List.range 8).all fun k => (hdmCarve k s).all fun c => decide (c.hdm ≠ 1)) = true) (w : Nat) : hostLine w s = none := by
  simp only [hostLine, List.findSome?_eq_none_iff]
  intro k hk
  have h2 := List.all_eq_true.mp h k hk
  split
  next c hc => simp [hc] at h2; simp [h2]
  next => rfl

/-! ### Ill-formed commands are refused, one for each check -/

theorem test_wf_chipStart : Instr.wf (.chipStart ⟨none, true, true, true, true, [32], true⟩ ⟨none, true, true, true, true, [], true⟩) = false := by decide
theorem test_wf_link_rate : (Instr.wf (.cxlLinkUp .cxl 8 3) || Instr.wf (.cxlLinkReturn 8 3) || Instr.wf (.cxlLinkUp .cxl 9 0) || Instr.wf (.cxlLinkReturn 9 0)) = false := by decide
theorem test_wf_ptp_domain : Instr.wf (.ptpMessage 256 (.announce 0 1)) = false := by decide
theorem test_wf_edge : Instr.wf (.externalInputEdge 0 true 0) = false := by decide
theorem test_wf_read_size : Instr.wf (.lowWordSnapshotRead 0 (.memory .bar0 0 0 false)) = false := by decide
theorem test_wf_unit :
    Instr.wf (.rowUnitComplete 0 0 ⟨0, [⟨0, 256, 0, 0, 0⟩], [], []⟩) = false ∧ Instr.wf (.rowUnitComplete 0 0 ⟨0, [⟨0, 0, 256, 0, 0⟩], [], []⟩) = false := by decide
theorem test_wf_fault :
    Instr.wf (.blockFault 0 0 [⟨64, 0, false, none⟩] 0 0) = false ∧ Instr.wf (.blockFault 0 0 [⟨0, 16, false, none⟩] 0 0) = false ∧
    Instr.wf (.regionFault 0 [⟨64, 0, false, none⟩] 0) = false ∧ Instr.wf (.chipFault [⟨0, 16, false, none⟩] .none 0) = false := by decide
theorem test_wf_injection :
    Instr.wf (.injectionFire .chip false [⟨64, 0, false, none⟩]) = false := by decide
theorem test_wf_cairn : Instr.wf (.cairn 0 0 4097 0) = false := by decide
theorem test_wf_line : Instr.wf (.captureLine 0 0 0 ⟨[1], [1], []⟩) = false ∧ Instr.wf (.sdiLineReceive 0 0 false false none false ⟨[1], [], [1]⟩) = false := by decide
theorem test_wf_request :
    Instr.wf (.memoryRequest ⟨0, 0, none⟩ ⟨true, 0, [1#8, 2#8], 63, 0, false⟩) = false ∧
    Instr.wf (.memoryRequest ⟨0, 0, none⟩ ⟨false, 0, [], 0, 5, false⟩) = false := by decide
theorem test_wf_issue :
    Instr.wf (.pseudoChannelIssue 0 0 0 [48] [] []) = false ∧ Instr.wf (.pseudoChannelIssue 0 0 0 [] [48] []) = false := by decide
theorem test_wf_stop : Instr.wf (.dmaStop 0 (2 ^ 24) .error) = false := by decide
theorem test_wf_ring :
    (RingFrame.wf ⟨4, 0, 0, 0, 0, 0, 0, 0, 0#8, 0#8, 0, [], []⟩ || RingFrame.wf ⟨1, 16, 0, 0, 0, 0, 0, 0, 0#8, 0#8, 0, [], []⟩
      || RingFrame.wf ⟨1, 0, 16, 0, 0, 0, 0, 0, 0#8, 0#8, 0, [], []⟩ || RingFrame.wf ⟨1, 0, 0, 256, 0, 0, 0, 0, 0#8, 0#8, 0, [], []⟩
      || RingFrame.wf ⟨1, 0, 0, 0, 0, 0, 10 ^ 9, 0, 0#8, 0#8, 0, [], []⟩
      || RingFrame.wf ⟨1, 0, 0, 0, 0, 0, 0, 0, 0#8, 0#8, 0, [⟨4, false, 0, 0, 0, 0, 0, 0#32, 0, 0⟩], []⟩
      || RingFrame.wf ⟨1, 0, 0, 0, 0, 0, 0, 0, 0#8, 0#8, 0, [], [⟨102, true, true, true, 0, 0, 0, 0, 0, []⟩]⟩) = false := by decide
theorem test_wf_frame : Instr.wf (.macFrameReceive 0 0 0 0 (List.replicate 13 0#8)) = false := by decide
theorem test_wf_hostRing : Instr.wf (.hostRingWrWrite 0 0 0#32 [⟨256, 0, 0, []⟩]) = false ∧ Instr.wf (.hostRingWrWrite 0 0 0#32 [⟨0, 256, 0, []⟩]) = false := by decide
theorem test_wf_write :
    HostWrite.wf (.memory .bar0 0 []) = false ∧ HostWrite.wf (.config ⟨false, false, true, true, true, true, true, 16⟩) = false := by decide
theorem test_wf_cxl :
    Instr.wf (.cxlMemRead 0 63) = false ∧ Instr.wf (.cxlMemWrite 0 63 (List.replicate 64 0#8) false) = false ∧
    Instr.wf (.cxlMemWrite 0 0 [0#8] false) = false := by decide
theorem test_wf_prbs : Instr.wf (.prbsCheckerLockLoss 0 1025) = false := by decide
theorem test_wf_picture (i : StreamPic) :
    Instr.wf (.picStart 0 (.decode { i with ctuLog2 := 3 })) = false ∧ Instr.wf (.picStart 0 (.decode { i with ctuLog2 := 8 })) = false ∧
    Instr.wf (.picStart 0 (.decode { i with ctuLog2 := 4, tileCols := 0 })) = false := ⟨rfl, rfl, rfl⟩

/-! ### The spec's worked examples -/

/-- What a command leaves, read by `f`: none where it answers no next state. -/
def after {α : Type} (i : Instr) (f : State → α) (s : State) : Option α :=
  match exec i s with
  | .next t => some (f t)
  | _ => none

/-- 05: the draws after seed 1 (R238). -/
theorem test_draws : xorshift (seedOf 0#32) = 0x00042021#32 ∧ xorshift 0x00042021#32 = 0x04080601#32 ∧ xorshift 0x04080601#32 = 0x9DCCA8C5#32 ∧
    truncatePick 17 0x04080601#32 = 0 ∧ truncateKeep 9600 0x9DCCA8C5#32 = 6328 := by decide +kernel

/-- 09: the pixel map with s = 4 (R361 to R363). -/
theorem test_map : place [⟨2, 4, 0, 0, 0, 65536⟩] 0x4C132A40 = ⟨2, 2, 1, 32, 202, 576⟩ ∧
    (place [⟨2, 4, 0, 0, 0, 65536⟩] (0x4C132A40 + 48 * 2 ^ 20)).bank = 35 := by decide +kernel

/-- 06: the RC set of pipeline 200, and picture 900's rows, target and next level (R255 to R259). -/
def rc900 : Params :=
  ⟨2, [(0x104, BitVec.ofNat 32 (3840 * 65536 + 2160)), (0x108, 0x00600000#32), (0x300, 1#32), (0x304, 40000#32), (0x30C, 20000#32)]⟩
theorem test_rows900 : rc900.ctuRows = 34 ∧ rc900.ctuCols = 60 := by decide +kernel
theorem test_target900 : modelInc rc900 900 (60, 1) = 666666 ∧ minSize rc900 12000000 666666 < 0 ∧
    rawTarget rc900 900 16 12000000 0 0 0 (60, 1) = some 729166 ∧ clampTarget rc900 900 12000000 0 729166 = 729166 ∧
    nextLevel rc900 12000000 757240 666666 = 11909426 := by decide +kernel

/-- 10: the two descriptors of the clip picture (R424). -/
theorem test_descriptors : descLength ⟨[0x807E9000#32]⟩ = 8294400 ∧ descOp ⟨[0x807E9000#32]⟩ = 0 ∧ descLength ⟨[0xF1017000#32]⟩ = 94208 ∧
    descOp ⟨[0xF1017000#32]⟩ = 1 := by decide +kernel

/-- 11: a member forwards a frame that left its master at 0 ns with 6 ns of cable: 46 ns (R466). -/
theorem test_ring_forward :
    after (.ringFrameReceive ⟨1, 0, 0, 200, 9, 7, 250000000, 0, 0#8, 0#8, 0, [], []⟩ [])
      (fun t => t.outbox.getLast?.map fun o => match o with | .ringFrame h _ => (h.drop 20).take 4 | _ => [])
      (fput Reg.chipMode ChipMode.mittenPath 0 (fput Reg.lanRingCable LanRingCable.cableNs 6 (fput Reg.lanRingStatus LanRingStatus.ringState 2
        { up 3 with ring := { RingSt.init with id := 1, pri := 100 }, comp := { Comp.init with ringEn := true } }))) = some (some [46#8, 0#8, 0#8, 0#8]) := by decide +kernel

/-- 13: the command port as the recomposition of region 8 runs, meets a second command, and an abort in step 6 (R553 to R559). -/
def recomposing (n : Nat) : State :=
  wr Reg.cmdStatus 0x00003101#32 { up 3 with cmd := { (up 3).cmd with step := n, args := [8#32, 0x40000000#32, 4#32, 1#32, 0x600000#32] } }
theorem test_second_command : after (.flashRead 0) (fun t => (rd Reg.cmdStatus t, rd Reg.cmdRejectCnt t)) (recomposing 3) = some (0x00803101#32, 1#32) := by decide +kernel
theorem test_abort_held : after (.cmdAbort 0) (fun t => rd Reg.cmdStatus t) (wr Reg.cmdStatus 0x00803101#32 (recomposing 6)) = some 0x00803109#32 := by decide +kernel

/-- 14: the handler's read and acknowledgement of source 1,600 (R580, R581). -/
def busy1600 : State :=
  setDelivered 1600 ⟨5, 1⟩ (fput (Reg.icuSrcStat 1600) IcuSrcStat.delKind 1 (fput (Reg.icuSrcStat 1600) IcuSrcStat.inflight 1
    (fput (Reg.icuSrcStat 1600) IcuSrcStat.count 2 (up 3))))
theorem test_source_word : Reg.icuSrcStat 1600 = 0x39900 ∧ readWordAt (Reg.icuSrcStat 1600) busy1600 = 0xC1000002#32 := by decide +kernel
theorem test_ack : after (.interruptAck (.host 0) 1600 2) (fun t => (srcInflight 1600 t, srcCount 1600 t)) busy1600 = some (false, 0) := by decide +kernel

/-- 15: the fault registers after the cell fault of block 1 of region 9 (R584, R592). -/
theorem test_fault_registers :
    after (.blockFault 9 1 [⟨3, 4, false, none⟩] 0 0) (fun t => [rd (Reg.fltHistLo (faultBase (.block 9 1)) 0) t, rd (Reg.fltHistHi (faultBase (.block 9 1)) 0) t, rd (Reg.fltStatus (faultBase (.block 9 1))) t,
      rd (Reg.fltUnack (faultBase (.block 9 1))) t])
      (later 20000000000 (setBlock 9 1 { Block.init with running := some (0, 0, 19, 0) } (up 3))) = some [0x00068013#32, 0x12A05F20#32, 0x00030001#32, 0x40#32] := by decide +kernel

/-- 00: PIP_REFUSE of pipeline 37 (R2). -/
theorem test_window37 : pipWindow 37 = 0x825000 ∧ Reg.pipRefuse 37 - pipWindow 37 < 0x100 := by decide +kernel

/-- 04: CHIP_MODE in LOAD before and in BIVOUAC after the release, and the refused slot (R155, R158). -/
theorem test_release : after .releaseToBivouac (fun t => (rd Reg.chipMode t))
    (wr Reg.chipMode 0x4001#32 (fput Reg.bcmStatus BcmStatus.railOk 1 { up 1 with pwr := { (up 1).pwr with boot := .filled }, comp := { Comp.init with ringEn := true, inForce := true } })) = some 0x0802#32 := by decide +kernel

/-- 03: the Glove word of pipelines 64 to 191 of domain 1 (R129). -/
theorem test_glove : gloveOwner [0x110BF040#32] 1 64 = 1 ∧ gloveOwner [0x110BF040#32] 1 191 = 1 ∧ gloveOwner [0x110BF040#32] 1 192 = 0 := by decide +kernel

/-! ### Each clause's hypotheses are met together -/

theorem test_meets_EmptyQueueIsOneMeshCycle :
    (∃ (s : State), s.pending = []) ∧
    (∃ (s : State), s.pending = []) ∧
    (∃ (s : State), s.pending = [] ∧ s.pwr.boot ≠ .done ∧ s.pools.waits = []) ∧
    (∃ (s : State), s.pending = [] ∧ s.pwr.boot ≠ .done ∧ s.pools.waits = []) :=
  ⟨⟨State.reset, by decide +kernel⟩,
   ⟨{ up 3 with now := 7 }, by decide +kernel⟩,
   ⟨State.reset, by decide +kernel⟩,
   ⟨{ up 3 with pwr := { (up 3).pwr with boot := .training } }, by decide +kernel⟩⟩

theorem test_meets_EveryStepKeepsCanonicalForm : ∃ (s : State) (t : State), Canonical s ∧ step s = .next t :=
  ⟨{ State.reset with pending := [.trstAssert] }, State.reset, ⟨by decide +kernel, by decide +kernel⟩, rfl⟩

theorem test_meets_ResetsClearTheChip :
    (∃ (s : State) (c : Instr) (cause : Nat), (c = Instr.perstAssert ∧ s.pwr.aux = true ∧ cause = 1 ∨ c = Instr.linkReset ∧ s.pwr.linkUp = true ∧ cause = 2)) ∧
    (∃ (s : State) (c : Instr) (cause : Nat), (c = Instr.perstAssert ∧ s.pwr.aux = true ∧ cause = 1 ∨ c = Instr.linkReset ∧ s.pwr.linkUp = true ∧ cause = 2)) :=
  ⟨⟨(up 3), .perstAssert, 1, by decide +kernel⟩,
   ⟨(up 5), .linkReset, 2, by decide +kernel⟩⟩

theorem test_meets_RailsAndTrips :
    (∃ (s : State) (r : Rail), s.pwr.aux = true ∧ s.pwr.railEn = true) ∧
    (∃ (s : State) (r : Rail), s.pwr.aux = true ∧ s.pwr.railEn = true) ∧
    (∃ (s : State) (r : Rail), s.pwr.railSeen.contains r = true ∧ (s.pwr.railGood.erase r).contains r = false ∧ s.pwr.perst = true) ∧
    (∃ (s : State) (c : Instr), (s.pwr.aux = true ∧ s.pwr.trip = false) ∧ ((∃ n : Fin 32, c = Instr.baseCampTrip n ∧ tripCondition n s = true) ∨ (∃ r, c = Instr.railExcursion r ∧ s.pwr.railSeen.contains r = true ∧ s.pwr.perst = false) ∨ (∃ r, c = Instr.railEntryTimeout r ∧ s.pwr.railEn = true ∧ s.pwr.railSeen.contains r = false ∧ s.bc.railAt + railEntryPs ≤ s.bc.auxPs))) ∧
    (∃ (s : State) (c : Instr), (s.pwr.aux = true ∧ s.pwr.trip = false) ∧ ((∃ n : Fin 32, c = Instr.baseCampTrip n ∧ tripCondition n s = true) ∨ (∃ r, c = Instr.railExcursion r ∧ s.pwr.railSeen.contains r = true ∧ s.pwr.perst = false) ∨ (∃ r, c = Instr.railEntryTimeout r ∧ s.pwr.railEn = true ∧ s.pwr.railSeen.contains r = false ∧ s.bc.railAt + railEntryPs ≤ s.bc.auxPs))) :=
  ⟨⟨{ State.reset with pwr := { State.reset.pwr with aux := true, railEn := true, railSeen := [.vio1v8], railGood := [.vio1v8] } }, .vio1v8, by decide +kernel⟩,
   ⟨{ State.reset with pwr := { State.reset.pwr with aux := true, railEn := true, railSeen := [.vio1v8], railGood := [.vio1v8] } }, .vaux0v8, by decide +kernel⟩,
   ⟨{ State.reset with pwr := { State.reset.pwr with aux := true, railEn := true, railSeen := [.vio1v8], railGood := [.vio1v8] } }, .vio1v8, by decide +kernel⟩,
   ⟨(wr (Reg.bcmSensor 3) (putF BcmSensor.valid (putF BcmSensor.value 0 1760) 1) (up 3)), (.baseCampTrip 3), by decide +kernel, .inl ⟨3, rfl, by decide +kernel⟩⟩,
   ⟨{ up 3 with bc := { (up 3).bc with railAt := 5, auxPs := 50000000005 } }, (.railEntryTimeout .vio1v8), by decide +kernel, .inr (.inr ⟨.vio1v8, rfl, by decide +kernel, by decide +kernel, by decide +kernel⟩)⟩⟩

theorem test_meets_FirmwareLoadsAndChipStarts :
    (∃ (s : State) (a : Bool) (b : Bool), s.pwr.aux = true ∧ s.pwr.railGood.contains .vio1v8 = true ∧ fget Reg.bcmStatus BcmStatus.fwSlot s = 0) ∧
    (∃ (s : State) (vA : SlotVerdict) (vB : SlotVerdict), s.pwr.bypass = true ∧ suppliesGood s = true ∧ s.pwr.hold = false ∧ s.pwr.trip = false) :=
  ⟨⟨{ State.reset with pwr := { State.reset.pwr with aux := true, railEn := true, railSeen := [.vio1v8], railGood := [.vio1v8] } }, true, false, by decide +kernel⟩,
   ⟨(fput Reg.bcmStatus BcmStatus.fwSlot 1 { State.reset with pwr := { State.reset.pwr with aux := true, railEn := true, railSeen := allRails, railGood := allRails } }), ⟨none, true, true, true, true, [], true⟩, ⟨some 1, true, true, true, true, [], true⟩, by decide +kernel⟩⟩

theorem test_meets_StartUpCommandsComplete :
    (∃ (s : State), s.pwr.aux = true) ∧
    (∃ (s : State), s.pwr.linkUp = true) ∧
    (∃ (s : State) (a : Bool) (b : Bool), s.pwr.aux = true ∧ s.pwr.railGood.contains .vio1v8 = true ∧ fget Reg.bcmStatus BcmStatus.fwSlot s = 0) ∧
    (∃ (s : State) (vA : SlotVerdict) (vB : SlotVerdict), s.pwr.bypass = true ∧ suppliesGood s = true ∧ s.pwr.hold = false ∧ s.pwr.trip = false) ∧
    (∃ (s : State) (c : StackId), s.pwr.boot = .training ∧ s.pwr.bypass = false ∧ curMode s = 1 ∧ s.pwr.trained.contains c = false) ∧
    (∃ (s : State), s.pwr.boot = .filled ∧ s.pwr.bypass = false ∧ curMode s = 1) :=
  ⟨⟨(up 3), by decide +kernel⟩,
   ⟨(up 3), by decide +kernel⟩,
   ⟨{ State.reset with pwr := { State.reset.pwr with aux := true, railEn := true, railSeen := [.vio1v8], railGood := [.vio1v8] } }, true, false, by decide +kernel⟩,
   ⟨(fput Reg.bcmStatus BcmStatus.fwSlot 1 { State.reset with pwr := { State.reset.pwr with aux := true, railEn := true, railSeen := allRails, railGood := allRails } }), ⟨none, true, true, true, true, [], true⟩, ⟨some 1, true, true, true, true, [], true⟩, by decide +kernel⟩,
   ⟨(fput Reg.chipMode ChipMode.curMode 1 { State.reset with pwr := { State.reset.pwr with bypass := false, boot := .training } }), 3, by decide +kernel⟩,
   ⟨{ (fput Reg.chipMode ChipMode.curMode 1 { State.reset with pwr := { State.reset.pwr with bypass := false, boot := .training } }) with pwr := { State.reset.pwr with bypass := false, boot := .filled } }, by decide +kernel⟩⟩

theorem test_meets_TrainingEndsAndReleaseEntersBivouac :
    (∃ (s : State) (c : StackId), s.pwr.boot = .training ∧ s.pwr.bypass = false ∧ curMode s = 1 ∧ s.pwr.trained.contains c = false ∧ (∃ k : StackId, k ≠ c ∧ s.pwr.trained.contains k = false)) ∧
    (∃ (s : State) (c : StackId) (im : Image), s.pwr.boot = .training ∧ s.pwr.bypass = false ∧ curMode s = 1 ∧ s.pwr.trained.contains c = false ∧ (∀ k : StackId, k ≠ c → s.pwr.trained.contains k = true) ∧ s.staged = some im) ∧
    (∃ (s : State) (c : StackId), s.pwr.boot = .training ∧ s.pwr.bypass = false ∧ curMode s = 1 ∧ s.pwr.trained.contains c = false ∧ smGet 0 c.val s.pwr.trainFails ≠ 2) ∧
    (∃ (s : State) (c : StackId), s.pwr.boot = .training ∧ s.pwr.bypass = false ∧ curMode s = 1 ∧ s.pwr.trained.contains c = false ∧ smGet 0 c.val s.pwr.trainFails = 2) ∧
    (∃ (s : State), s.pwr.boot = .filled ∧ s.pwr.bypass = false ∧ curMode s = 1) :=
  ⟨⟨(fput Reg.chipMode ChipMode.curMode 1 { State.reset with pwr := { State.reset.pwr with bypass := false, boot := .training } }), 3, by decide +kernel⟩,
   ⟨{ (fput Reg.chipMode ChipMode.curMode 1 { State.reset with pwr := { State.reset.pwr with bypass := false, boot := .training } }) with pwr := { State.reset.pwr with bypass := false, boot := .training, trained := [0, 1, 3] }, staged := some (parseImage (fun _ => 0#8) 0) }, 2, (parseImage (fun _ => 0#8) 0), by decide +kernel⟩,
   ⟨(fput Reg.chipMode ChipMode.curMode 1 { State.reset with pwr := { State.reset.pwr with bypass := false, boot := .training } }), 2, by decide +kernel⟩,
   ⟨{ (fput Reg.chipMode ChipMode.curMode 1 { State.reset with pwr := { State.reset.pwr with bypass := false, boot := .training } }) with pwr := { State.reset.pwr with bypass := false, boot := .training, trainFails := [(2, 2)] } }, 2, by decide +kernel⟩,
   ⟨{ (fput Reg.chipMode ChipMode.curMode 1 { State.reset with pwr := { State.reset.pwr with bypass := false, boot := .training } }) with pwr := { State.reset.pwr with bypass := false, boot := .filled } }, by decide +kernel⟩⟩

theorem test_meets_HostLinkComesGoesAndTimesOut :
    (∃ (s : State) (mode : LinkMode) (lanes : Nat) (rate : Nat), s.pwr.bypass = false ∧ s.pwr.linkUp = false ∧ s.cxl.retraining = false ∧ 4 ≤ lanes ∧ rate < 4) ∧
    (∃ (s : State) (mode : LinkMode) (lanes : Nat) (rate : Nat), s.pwr.bypass = false ∧ s.pwr.linkUp = false ∧ s.cxl.retraining = false ∧ 4 ≤ lanes ∧ rate < 4) ∧
    (∃ (s : State), s.pwr.linkUp = true) ∧
    (∃ (s : State) (lanes : Nat) (rate : Nat), s.cxl.retraining = true ∧ 4 ≤ lanes ∧ rate < 4) ∧
    (∃ (s : State), s.cxl.retraining = true ∧ s.cxl.downAt + cyclesPerSecond ≤ s.now ∧ s.comp.pipes = [] ∧ s.comp.ports = []) :=
  ⟨⟨{ up 2 with pwr := { (up 2).pwr with linkUp := false } }, .pcie, 8, 2, by decide +kernel⟩,
   ⟨{ up 2 with pwr := { (up 2).pwr with linkUp := false } }, .cxl, 4, 0, by decide +kernel⟩,
   ⟨(up 3), by decide +kernel⟩,
   ⟨{ up 3 with pwr := { (up 3).pwr with linkUp := false }, cxl := { (up 3).cxl with retraining := true } }, 4, 1, by decide +kernel⟩,
   ⟨(later (10 ^ 10) <| setChan 63 { Chan.init with phase := .ready, held := true } (fput (Reg.dmaStatus 63) DmaStatus.dmaState 2 (fput (Reg.dmaCtl 63) DmaCtl.enable 1 ({ up 3 with pwr := { (up 3).pwr with linkUp := false }, cxl := { (up 3).cxl with retraining := true } })))), by decide +kernel⟩⟩

theorem test_meets_PassThroughLockTrstAndFunctionResets :
    (∃ (s : State), s.pwr.mittenN = true ∧ fget Reg.chipMode ChipMode.mittenPath s = 1) ∧
    (∃ (s : State) (d : DomId), s.pwr.linkUp = true ∧ s.pwr.bypass = false ∧ d.val ≠ 0 ∧ d.val ≤ s.icu.numVfs) ∧
    (∃ (s : State), s.pwr.linkUp = true ∧ s.pwr.bypass = false) :=
  ⟨⟨(fput Reg.chipMode ChipMode.mittenPath 1 (up 3)), by decide +kernel⟩,
   ⟨(fput (Reg.dmaCtl 5) DmaCtl.enable 1 ({ up 3 with icu := { (up 3).icu with numVfs := 15 } })), 15, by decide +kernel⟩,
   ⟨(fput (Reg.dmaCtl 5) DmaCtl.enable 1 ({ up 3 with icu := { (up 3).icu with numVfs := 15 } })), by decide +kernel⟩⟩

theorem test_meets_ModeRequestsStartOrAreRefused :
    (∃ (s : State) (d : DomId) (c : Instr) (k : Nat), HostMayWrite d Reg.chipMode s ∧ modeBusy s = false ∧ (c = .modeReqRun d ∧ k = 3 ∧ curMode s = 2 ∨ c = .modeReqMaintain d ∧ k = 4 ∧ curMode s = 2 ∨ c = .modeReqBivouac d ∧ k = 2 ∧ curMode s = 3 ∧ anyPipeEnabled s = false ∨ c = .modeReqBivouac d ∧ k = 2 ∧ curMode s = 4 ∧ s.comp.inForce = true ∧ maintOpRunning s = false)) ∧
    (∃ (s : State) (d : DomId) (c : Instr) (k : Nat), HostMayWrite d Reg.chipMode s ∧ modeBusy s = false ∧ (c = .modeReqRun d ∧ k = 3 ∧ curMode s = 2 ∨ c = .modeReqMaintain d ∧ k = 4 ∧ curMode s = 2 ∨ c = .modeReqBivouac d ∧ k = 2 ∧ curMode s = 3 ∧ anyPipeEnabled s = false ∨ c = .modeReqBivouac d ∧ k = 2 ∧ curMode s = 4 ∧ s.comp.inForce = true ∧ maintOpRunning s = false)) ∧
    (∃ (s : State) (d : DomId) (c : Instr) (code : Nat), HostMayWrite d Reg.chipMode s ∧ (c = .modeReqBivouac d ∧ code = 0xE2 ∧ curMode s = 3 ∧ modeBusy s = false ∧ anyPipeEnabled s = true ∨ c = .modeReqBivouac d ∧ code = 0xE4 ∧ curMode s = 4 ∧ modeBusy s = false ∧ s.comp.inForce = false ∨ c = .modeReqBivouac d ∧ code = 0xE5 ∧ curMode s = 4 ∧ modeBusy s = false ∧ s.comp.inForce = true ∧ maintOpRunning s = true ∨ c = .modeReqRun d ∧ code = 0xE3 ∧ curMode s = 4 ∧ modeBusy s = false ∨ c = .modeReqMaintain d ∧ code = 0xE3 ∧ curMode s = 3 ∧ modeBusy s = false ∨ (c = .modeReqBivouac d ∨ c = .modeReqRun d ∨ c = .modeReqMaintain d) ∧ code = 0xE6 ∧ curMode s ≠ 5 ∧ modeBusy s = true)) ∧
    (∃ (s : State) (d : DomId) (c : Instr) (code : Nat), HostMayWrite d Reg.chipMode s ∧ (c = .modeReqBivouac d ∧ code = 0xE2 ∧ curMode s = 3 ∧ modeBusy s = false ∧ anyPipeEnabled s = true ∨ c = .modeReqBivouac d ∧ code = 0xE4 ∧ curMode s = 4 ∧ modeBusy s = false ∧ s.comp.inForce = false ∨ c = .modeReqBivouac d ∧ code = 0xE5 ∧ curMode s = 4 ∧ modeBusy s = false ∧ s.comp.inForce = true ∧ maintOpRunning s = true ∨ c = .modeReqRun d ∧ code = 0xE3 ∧ curMode s = 4 ∧ modeBusy s = false ∨ c = .modeReqMaintain d ∧ code = 0xE3 ∧ curMode s = 3 ∧ modeBusy s = false ∨ (c = .modeReqBivouac d ∨ c = .modeReqRun d ∨ c = .modeReqMaintain d) ∧ code = 0xE6 ∧ curMode s ≠ 5 ∧ modeBusy s = true)) :=
  ⟨⟨(up 2), 0, (.modeReqRun 0), 3, hmw (by decide +kernel), by decide +kernel⟩,
   ⟨{ up 4 with comp := { Comp.init with inForce := true } }, 0, (.modeReqBivouac 0), 2, hmw (by decide +kernel), by decide +kernel⟩,
   ⟨(enabled (composed 2 (up 3))), 0, (.modeReqBivouac 0), 0xE2, hmw (by decide +kernel), by decide +kernel⟩,
   ⟨(fput Reg.chipMode ChipMode.modeBusy 1 (up 3)), 0, (.modeReqBivouac 0), 0xE6, hmw (by decide +kernel), by decide +kernel⟩⟩

theorem test_meets_TransitionsCompleteInTheirTarget : ∃ (s : State), modeBusy s = true ∧ s.pwr.bypass = false ∧ s.pwr.modeTarget < 8 ∧ (curMode s = 3 → noRegionActive s = true) :=
  ⟨(fput Reg.chipMode ChipMode.modeBusy 1 { up 3 with pwr := { (up 3).pwr with modeTarget := 2 } }), by decide +kernel⟩

theorem test_meets_SafeEntryAndMittenForce :
    (∃ (s : State) (c : Instr) (cls : Nat) (unit : Nat), (curMode s ≠ 5 ∧ s.pwr.bypass = false) ∧ ((∃ (d : DomId) (m : Fin 4), c = .forceSafe d m ∧ HostMayWrite d Reg.chipForce s ∧ keyArmed s = true) ∧ cls = 0x3C ∧ unit = 15 ∨ c = .safeEntry .forced ∧ cls = 0x3C ∧ unit = 15 ∨ c = .safeEntry (.fault cls unit) ∧ 0x30 ≤ cls ∧ cls < 0x40 ∧ unit < 16 ∨ (∃ k : StackId, c = .safeEntry (.training k) ∧ unit = k.val) ∧ cls = 0x38)) ∧
    (∃ (s : State) (c : Instr) (cls : Nat) (unit : Nat), (curMode s ≠ 5 ∧ s.pwr.bypass = false) ∧ ((∃ (d : DomId) (m : Fin 4), c = .forceSafe d m ∧ HostMayWrite d Reg.chipForce s ∧ keyArmed s = true) ∧ cls = 0x3C ∧ unit = 15 ∨ c = .safeEntry .forced ∧ cls = 0x3C ∧ unit = 15 ∨ c = .safeEntry (.fault cls unit) ∧ 0x30 ≤ cls ∧ cls < 0x40 ∧ unit < 16 ∨ (∃ k : StackId, c = .safeEntry (.training k) ∧ unit = k.val) ∧ cls = 0x38)) ∧
    (∃ (s : State) (d : DomId) (m : Fin 4), HostMayWrite d Reg.chipForce s ∧ curMode s ≠ 5 ∧ keyArmed s = true) ∧
    (∃ (s : State) (d : DomId) (m : Fin 4), HostMayWrite d Reg.chipForce s ∧ curMode s ≠ 5 ∧ keyArmed s = false) :=
  ⟨⟨(fput Reg.chipKeyState ChipKeyState.armed 1 (up 3)), (.forceSafe 0 3), 0x3C, 15, by decide +kernel, .inl ⟨⟨0, 3, rfl, hmw (by decide +kernel), by decide +kernel⟩, rfl, rfl⟩⟩,
   ⟨(up 1), (.safeEntry (.training 3)), 0x38, 3, by decide +kernel, .inr (.inr (.inr ⟨⟨3, rfl, rfl⟩, rfl⟩))⟩,
   ⟨(fput Reg.chipKeyState ChipKeyState.armed 1 (up 3)), 0, 3, hmw (by decide +kernel), by decide +kernel⟩,
   ⟨(up 3), 0, 3, hmw (by decide +kernel), by decide +kernel⟩⟩

theorem test_meets_RasterClockFollowsItsSource :
    (∃ (s : State), s.clock.running = true ∧ refAct s ≠ 0 ∧ rckState s ≠ 3 ∧ lossCycle s ≤ s.now) ∧
    (∃ (s : State), s.clock.running = true ∧ refAct s ≠ 0 ∧ rckState s ≠ 3 ∧ lossCycle s ≤ s.now) ∧
    (∃ (s : State), rckState s = 3 ∧ fget Reg.rckCtl RckCtl.rckSecEn s = 1 ∧ s.clock.running = true ∧ s.clock.lostAt + 1600000 * fget Reg.rckCtl RckCtl.rckHoldMs s ≤ s.now) ∧
    (∃ (s : State), rckState s = 3 ∧ fget Reg.rckCtl RckCtl.rckSecEn s = 1 ∧ s.clock.running = true ∧ s.clock.lostAt + 1600000 * fget Reg.rckCtl RckCtl.rckHoldMs s ≤ s.now) ∧
    (∃ (s : State) (err : Int) (rate : Int) (e : Int), (s.clock.running = true ∧ refAct s ≠ 0 ∧ rckState s = 3) ∧ e = (sourceErr s).getD (foldSource (err * 10 ^ 12) s)) ∧
    (∃ (s : State) (err : Int) (rate : Int) (e : Int), (s.clock.running = true ∧ refAct s ≠ 0 ∧ rckState s = 3) ∧ e = (sourceErr s).getD (foldSource (err * 10 ^ 12) s)) ∧
    (∃ (s : State), rckState s = 1 ∧ s.clock.acquiring = false ∧ - lockLimit ≤ s.clock.err ∧ s.clock.err ≤ lockLimit ∧ s.clock.outAt + 1600000000 ≤ s.now) ∧
    (∃ (s : State), rckState s = 1 ∧ s.clock.acquiring = false ∧ - lockLimit ≤ s.clock.err ∧ s.clock.err ≤ lockLimit ∧ s.clock.outAt + 1600000000 ≤ s.now) ∧
    (∃ (s : State) (r : Int), s.clock.running = true ∧ refAct s ≠ 0 ∧ rckState s = 2 ∧ s.clock.fresh = true ∧ s.clock.tracked = some r ∧ s.clock.acquiring = false ∧ s.clock.err = 0) :=
  ⟨⟨(fput Reg.rckStatus RckStatus.rckState 2 (fput Reg.rckStatus RckStatus.rckRefAct 1 ({ up 3 with now := 10 ^ 12, clock := { Clock.init with running := true, timeBase := 1000, rate := 5 } }))), by decide +kernel⟩,
   ⟨(fput Reg.rckStatus RckStatus.rckState 1 (fput Reg.rckStatus RckStatus.rckRefAct 4 ({ up 3 with now := 10 ^ 12, clock := { Clock.init with running := true, timeBase := 1000, rate := 5 } }))), by decide +kernel⟩,
   ⟨(later (10 ^ 12) <| fput Reg.rckCtl RckCtl.rckRefSec 0 (fput Reg.rckCtl RckCtl.rckSecEn 1 (fput Reg.rckStatus RckStatus.rckState 3 (fput Reg.rckStatus RckStatus.rckRefAct 2 ({ up 3 with clock := { Clock.init with running := true, timeBase := 1000, rate := 5 } }))))), by decide +kernel⟩,
   ⟨(later (10 ^ 12) <| fput Reg.rckCtl RckCtl.rckRefSec 7 (fput Reg.rckCtl RckCtl.rckSecEn 1 (fput Reg.rckStatus RckStatus.rckState 3 (fput Reg.rckStatus RckStatus.rckRefAct 2 ({ up 3 with clock := { Clock.init with running := true, timeBase := 1000, rate := 5 } }))))), by decide +kernel⟩,
   ⟨(fput Reg.rckStatus RckStatus.rckState 3 (fput Reg.rckStatus RckStatus.rckRefAct 1 ({ up 3 with clock := { Clock.init with running := true, timeBase := 1000, rate := 5 } }))), -250, 7, (sourceErr (fput Reg.rckStatus RckStatus.rckState 3 (fput Reg.rckStatus RckStatus.rckRefAct 1 ({ up 3 with clock := { Clock.init with running := true, timeBase := 1000, rate := 5 } })))).getD (foldSource ((-250) * 10 ^ 12) (fput Reg.rckStatus RckStatus.rckState 3 (fput Reg.rckStatus RckStatus.rckRefAct 1 ({ up 3 with clock := { Clock.init with running := true, timeBase := 1000, rate := 5 } })))), by decide +kernel, rfl⟩,
   ⟨(fput Reg.rckStatus RckStatus.rckState 3 (fput Reg.rckStatus RckStatus.rckRefAct 3 ({ up 3 with clock := { Clock.init with running := true, timeBase := 1000, rate := 5 } }))), 1500000000, 7, (sourceErr (fput Reg.rckStatus RckStatus.rckState 3 (fput Reg.rckStatus RckStatus.rckRefAct 3 ({ up 3 with clock := { Clock.init with running := true, timeBase := 1000, rate := 5 } })))).getD (foldSource (1500000000 * 10 ^ 12) (fput Reg.rckStatus RckStatus.rckState 3 (fput Reg.rckStatus RckStatus.rckRefAct 3 ({ up 3 with clock := { Clock.init with running := true, timeBase := 1000, rate := 5 } })))), by decide +kernel, rfl⟩,
   ⟨(later (10 ^ 12) <| fput Reg.rckStatus RckStatus.rckState 1 (fput Reg.rckStatus RckStatus.rckRefAct 1 ({ up 3 with clock := { Clock.init with running := true, timeBase := 1000, rate := 5, err := 10 ^ 14 } }))), by decide +kernel⟩,
   ⟨(later (10 ^ 12) <| fput Reg.rckStatus RckStatus.rckState 1 (fput Reg.rckStatus RckStatus.rckRefAct 1 ({ up 3 with clock := { Clock.init with running := true, timeBase := 1000, rate := 5, err := -(10 ^ 14) } }))), by decide +kernel⟩,
   ⟨(fput Reg.rckStatus RckStatus.rckState 2 (fput Reg.rckStatus RckStatus.rckRefAct 1 ({ up 3 with clock := { Clock.init with running := true, timeBase := 1000, rate := 5, fresh := true, tracked := some 9 } }))), 9, by decide +kernel⟩⟩

theorem test_meets_RasterRegistersAndEdges :
    (∃ (s : State) (d : DomId) (v : Word), HostMayWrite d Reg.rckCtl s ∧ curMode s ≠ 5) ∧
    (∃ (s : State) (d : DomId) (v : Word), HostMayWrite d Reg.rckCtl s ∧ curMode s ≠ 5) ∧
    (∃ (s : State) (d : DomId) (r : RasterId) (v : Word), HostMayWrite d (Reg.rckDomOfs r) s ∧ curMode s ≠ 5) ∧
    (∃ (s : State) (d : DomId) (r : RasterId) (v : Word), HostMayWrite d (Reg.rckDomOfs r) s ∧ curMode s ≠ 5) ∧
    (∃ (s : State) (d : DomId) (v : Word), HostMayWrite d Reg.bcmPtpAdj s ∧ curMode s ≠ 5 ∧ s.bc.servoHost = false) ∧
    (∃ (s : State) (d : DomId) (e : Fin 65536) (k : Fin 4) (v : Word), HostMayWrite d (0xC00000 + 16 * e.val + 4 * k.val) s ∧ curMode s ≠ 5 ∧ inHostRange e.val s = true) ∧
    (∃ (s : State) (d : DomId) (e : Fin 65536) (k : Fin 4) (v : Word), HostMayWrite d (0xC00000 + 16 * e.val + 4 * k.val) s ∧ curMode s ≠ 5 ∧ inHostRange e.val s = false) ∧
    (∃ (s : State) (domain : Nat) (id : Nat) (k : Int), ptpUp s = true ∧ domain = fget Reg.bcmPtpCtl BcmPtpCtl.ptpDomain s ∧ fget Reg.bcmPtpStatus BcmPtpStatus.ptpState s = 1) ∧
    (∃ (s : State) (domain : Nat) (id : Nat) (k : Int), ptpUp s = true ∧ domain = fget Reg.bcmPtpCtl BcmPtpCtl.ptpDomain s ∧ fget Reg.bcmPtpStatus BcmPtpStatus.ptpState s = 1) ∧
    (∃ (s : State) (rate : Int), ptpUp s = true ∧ s.bc.ptpGot = 3 ∧ fget Reg.bcmPtpCtl BcmPtpCtl.servo s = 0 ∧ refAct s ≠ 1) ∧
    (∃ (s : State), s.bc.servoHost = true ∧ ptpRuns s = true ∧ s.bc.adjAt + 2 * cyclesPerSecond ≤ s.now) ∧
    (∃ (s : State) (f : Bool), refBreach s.clock.timeBase s = false ∧ (f = false ∨ domInterlaced (refDom s) s = false)) ∧
    (∃ (s : State) (f : Bool), refBreach s.clock.timeBase s = false ∧ (f = false ∨ domInterlaced (refDom s) s = false)) ∧
    (∃ (s : State), refBreach s.clock.timeBase s = true ∧ 1 ≤ s.clock.breaches ∧ refAct s = 2 ∧ s.clock.running = true ∧ rckState s ≠ 3) ∧
    (∃ (s : State) (u : Int) (f : Bool) (g : Bool), s.clock.vEdge = some (u, f) ∧ u + lockLimit ≤ s.clock.timeBase ∧ (f = false ∨ domInterlaced (refDom s) s = false)) :=
  ⟨⟨{ up 3 with clock := { Clock.init with running := true, timeBase := 1000, rate := 5 } }, 0, 0#32, hmw (by decide +kernel), by decide +kernel⟩,
   ⟨(up 2), 0, 1#32, hmw (by decide +kernel), by decide +kernel⟩,
   ⟨{ up 3 with clock := { Clock.init with running := true, timeBase := 1000, rate := 5 } }, 0, 15, 0x80000000#32, hmw (by decide +kernel), by decide +kernel⟩,
   ⟨(up 2), 0, 15, 0x80000000#32, hmw (by decide +kernel), by decide +kernel⟩,
   ⟨{ up 3 with clock := { Clock.init with running := true, timeBase := 1000, rate := 5 } }, 0, 0xFFFFFFFF#32, hmw (by decide +kernel), by decide +kernel⟩,
   ⟨(fput Reg.rckSchedHost RckSchedHost.hostCount 4 (up 3)), 0, 3, 3, 0xFFFFFFFF#32, hmw (by decide +kernel), by decide +kernel⟩,
   ⟨(fput Reg.rckSchedHost RckSchedHost.hostCount 4 (up 3)), 0, 4, 0, 0xFFFFFFFF#32, hmw (by decide +kernel), by decide +kernel⟩,
   ⟨(fput Reg.bcmPtpStatus BcmPtpStatus.ptpState 1 (fput (Reg.lanMacPortStatus 0 0) LanMacPortStatus.linkUp 1 { up 3 with clock := { Clock.init with running := true }, comp := { Comp.init with ptpMac := 0 } })), 127, 77, -3, by decide +kernel⟩,
   ⟨(fput Reg.bcmPtpStatus BcmPtpStatus.ptpState 1 (fput (Reg.lanMacPortStatus 0 0) LanMacPortStatus.linkUp 1 { up 3 with clock := { Clock.init with running := true }, comp := { Comp.init with ptpMac := 0 } })), 127, 77, 2, by decide +kernel⟩,
   ⟨{ (fput (Reg.lanMacPortStatus 0 0) LanMacPortStatus.linkUp 1 { up 3 with clock := { Clock.init with running := true }, comp := { Comp.init with ptpMac := 0 } }) with bc := { BaseCamp.init with ptpGot := 3, servoHost := true } }, -5, by decide +kernel⟩,
   ⟨{ (fput (Reg.lanMacPortStatus 0 0) LanMacPortStatus.linkUp 1 { up 3 with clock := { Clock.init with running := true }, comp := { Comp.init with ptpMac := 0 } }) with now := 10 ^ 10, bc := { BaseCamp.init with servoHost := true } }, by decide +kernel⟩,
   ⟨(fput Reg.rckCtl RckCtl.rckRefDom 15 (wr (Reg.rckDomCtl 15) 0x80000000#32 (wr (Reg.rckDomRate 15) (BitVec.ofNat 32 (50 * 4096 + 1)) (wr (Reg.rckDomGeom 15) (BitVec.ofNat 32 (1125 * 2 ^ 18 + 2640 * 8)) (fput Reg.rckStatus RckStatus.rckState 2 (fput Reg.rckStatus RckStatus.rckRefAct 2 ({ up 3 with clock := { Clock.init with running := true, timeBase := 1000, rate := 5 } }))))))), false, by decide +kernel⟩,
   ⟨{ (fput Reg.rckCtl RckCtl.rckRefDom 15 (wr (Reg.rckDomCtl 15) 0x80000000#32 (wr (Reg.rckDomRate 15) (BitVec.ofNat 32 (50 * 4096 + 1)) (wr (Reg.rckDomGeom 15) (BitVec.ofNat 32 (1125 * 2 ^ 18 + 2640 * 8)) (fput Reg.rckStatus RckStatus.rckState 2 (fput Reg.rckStatus RckStatus.rckRefAct 2 ({ up 3 with clock := { Clock.init with running := true, timeBase := 1000, rate := 5 } }))))))) with clock := { (fput Reg.rckCtl RckCtl.rckRefDom 15 (wr (Reg.rckDomCtl 15) 0x80000000#32 (wr (Reg.rckDomRate 15) (BitVec.ofNat 32 (50 * 4096 + 1)) (wr (Reg.rckDomGeom 15) (BitVec.ofNat 32 (1125 * 2 ^ 18 + 2640 * 8)) (fput Reg.rckStatus RckStatus.rckState 2 (fput Reg.rckStatus RckStatus.rckRefAct 2 ({ up 3 with clock := { Clock.init with running := true, timeBase := 1000, rate := 5 } }))))))).clock with edges := [(2, 0)], timeBase := 20000000000000000000 } }, true, by decide +kernel⟩,
   ⟨{ (fput Reg.rckCtl RckCtl.rckRefDom 15 (wr (Reg.rckDomCtl 15) 0x80000000#32 (wr (Reg.rckDomRate 15) (BitVec.ofNat 32 (50 * 4096 + 1)) (wr (Reg.rckDomGeom 15) (BitVec.ofNat 32 (1125 * 2 ^ 18 + 2640 * 8)) (fput Reg.rckStatus RckStatus.rckState 2 (fput Reg.rckStatus RckStatus.rckRefAct 2 ({ up 3 with clock := { Clock.init with running := true, timeBase := 1000, rate := 5 } }))))))) with clock := { (fput Reg.rckCtl RckCtl.rckRefDom 15 (wr (Reg.rckDomCtl 15) 0x80000000#32 (wr (Reg.rckDomRate 15) (BitVec.ofNat 32 (50 * 4096 + 1)) (wr (Reg.rckDomGeom 15) (BitVec.ofNat 32 (1125 * 2 ^ 18 + 2640 * 8)) (fput Reg.rckStatus RckStatus.rckState 2 (fput Reg.rckStatus RckStatus.rckRefAct 2 ({ up 3 with clock := { Clock.init with running := true, timeBase := 1000, rate := 5 } }))))))).clock with edges := [(2, 0)], timeBase := 20100000000000000000, breaches := 1 } }, by decide +kernel⟩,
   ⟨{ (fput Reg.rckCtl RckCtl.rckRefDom 15 (wr (Reg.rckDomCtl 15) 0x80000000#32 (wr (Reg.rckDomRate 15) (BitVec.ofNat 32 (50 * 4096 + 1)) (wr (Reg.rckDomGeom 15) (BitVec.ofNat 32 (1125 * 2 ^ 18 + 2640 * 8)) (fput Reg.rckStatus RckStatus.rckState 2 (fput Reg.rckStatus RckStatus.rckRefAct 2 ({ up 3 with clock := { Clock.init with running := true, timeBase := 1000, rate := 5 } }))))))) with clock := { (fput Reg.rckCtl RckCtl.rckRefDom 15 (wr (Reg.rckDomCtl 15) 0x80000000#32 (wr (Reg.rckDomRate 15) (BitVec.ofNat 32 (50 * 4096 + 1)) (wr (Reg.rckDomGeom 15) (BitVec.ofNat 32 (1125 * 2 ^ 18 + 2640 * 8)) (fput Reg.rckStatus RckStatus.rckState 2 (fput Reg.rckStatus RckStatus.rckRefAct 2 ({ up 3 with clock := { Clock.init with running := true, timeBase := 1000, rate := 5 } }))))))).clock with vEdge := some (7, false), timeBase := 7 + 10 ^ 14 } }, 7, false, true, by decide +kernel⟩⟩

theorem test_meets_FramesEndAndWalkersSend :
    (∃ (s : State) (r : RasterId), s.clock.running = true ∧ domValid r s = true ∧ walkerDue r s = none ∧ frameOver r s = true) ∧
    (∃ (s : State) (r : RasterId) (e : DueEntry), s.clock.running = true ∧ domValid r s = true ∧ walkerDue r s = some (e, false) ∧ e.late = false ∧ (e.at_ : Int) ≤ walkPos r s ∧ ((getRaster r s).lastFire = 0 ∨ (getRaster r s).lastFire + 3 ≤ s.now)) :=
  ⟨⟨(setRaster 15 { Raster.init with newOfs := some (-3), stepping := true, next := 1 } (wr (Reg.rckDomCtl 15) 0x80000000#32 (wr (Reg.rckDomRate 15) (BitVec.ofNat 32 (50 * 4096 + 1)) (wr (Reg.rckDomGeom 15) (BitVec.ofNat 32 (1125 * 2 ^ 18 + 2640 * 8)) ({ up 3 with clock := { Clock.init with running := true, timeBase := 3 * 10 ^ 19, rate := 5 } }))))), 15, by decide +kernel⟩,
   ⟨(wr 0xC00010 (BitVec.ofNat 32 (15 * 2 ^ 28 + 0x20 * 2 ^ 20)) (wr 0xC00014 0x80000FFF#32 (wr 0xC00018 0x10000#32 (fput (Reg.rckDomSched 15) RckDomSched.domSchedBase 1 (fput (Reg.rckDomSched 15) RckDomSched.domSchedCount 1 (wr (Reg.rckDomCtl 15) 0x80000000#32 (wr (Reg.rckDomRate 15) (BitVec.ofNat 32 (50 * 4096 + 1)) (wr (Reg.rckDomGeom 15) (BitVec.ofNat 32 (1125 * 2 ^ 18 + 2640 * 8)) ({ up 3 with clock := { Clock.init with running := true, timeBase := 1000, rate := 5 } }))))))))), 15, ⟨1, 0, false⟩, by decide +kernel⟩⟩

theorem test_meets_ChipActionsTakeEffect :
    (∃ (s : State) (a : Action) (l : List Action) (u : State) (n : Fin 4096), u = arrived a l s ∧ takeAction actNop n s.clock.inFlight = some (a, l)) ∧
    (∃ (s : State) (a : Action) (l : List Action) (u : State) (n : Fin 4), u = arrived a l s ∧ actsInMode u = true ∧ takeAction actTrigOut n s.clock.inFlight = some (a, l)) ∧
    (∃ (s : State) (a : Action) (l : List Action) (u : State) (n : Fin 4), u = arrived a l s ∧ actsInMode u = true ∧ takeAction actTrigOut n s.clock.inFlight = some (a, l)) ∧
    (∃ (s : State) (a : Action) (l : List Action) (u : State) (n : Fin 4096), u = arrived a l s ∧ actsInMode u = true ∧ takeAction actIrq n s.clock.inFlight = some (a, l)) ∧
    (∃ (s : State) (a : Action) (l : List Action) (u : State) (n : Fin 4096), u = arrived a l s ∧ actsInMode u = true ∧ takeAction actIrq n s.clock.inFlight = some (a, l)) ∧
    (∃ (s : State) (a : Action) (l : List Action) (u : State) (n : Fin 4096), u = arrived a l s ∧ actsInMode u = true ∧ takeAction actRingMark n s.clock.inFlight = some (a, l)) ∧
    (∃ (s : State) (a : Action) (l : List Action) (u : State) (n : Fin 4096), u = arrived a l s ∧ actsInMode u = true ∧ takeAction actRingMark n s.clock.inFlight = some (a, l)) ∧
    (∃ (s : State) (a : Action) (l : List Action) (u : State) (c : StackId) (ch : Fin 16), u = arrived a l s ∧ actsInMode u = true ∧ takeAction actHbmRetrain (16 * c + ch) s.clock.inFlight = some (a, l) ∧ memState c u ≠ 2 ∧ (getMemCtl c u).training = 0) ∧
    (∃ (s : State) (n : Fin 4), 2 ≤ smGet 0 n.val s.clock.trigOut ∧ pulseOver n s = true) :=
  ⟨⟨(fly actNop 4095 7 (up 3)), ⟨actNop, 4095, 7, 0, 0⟩, [], (arrived (⟨actNop, 4095, 7, 0, 0⟩) ([]) (fly actNop 4095 7 (up 3))), 4095, rfl, by decide +kernel⟩,
   ⟨(fly actTrigOut 3 0x10000 (up 2)), ⟨actTrigOut, 3, 0x10000, 0, 0⟩, [], (arrived (⟨actTrigOut, 3, 0x10000, 0, 0⟩) ([]) (fly actTrigOut 3 0x10000 (up 2))), 3, rfl, by decide +kernel⟩,
   ⟨(fly actTrigOut 3 0x1FFFF (up 2)), ⟨actTrigOut, 3, 0x1FFFF, 0, 0⟩, [], (arrived (⟨actTrigOut, 3, 0x1FFFF, 0, 0⟩) ([]) (fly actTrigOut 3 0x1FFFF (up 2))), 3, rfl, by decide +kernel⟩,
   ⟨(fput (Reg.icuSrcStat 127) IcuSrcStat.count 0 (fly actIrq 0 31 (up 4))), ⟨actIrq, 0, 31, 0, 0⟩, [], (arrived (⟨actIrq, 0, 31, 0, 0⟩) ([]) (fput (Reg.icuSrcStat 127) IcuSrcStat.count 0 (fly actIrq 0 31 (up 4)))), 0, rfl, by decide +kernel⟩,
   ⟨(fput (Reg.icuSrcStat 127) IcuSrcStat.count 255 (fly actIrq 0 31 (up 4))), ⟨actIrq, 0, 31, 0, 0⟩, [], (arrived (⟨actIrq, 0, 31, 0, 0⟩) ([]) (fput (Reg.icuSrcStat 127) IcuSrcStat.count 255 (fly actIrq 0 31 (up 4)))), 0, rfl, by decide +kernel⟩,
   ⟨(fput Reg.lanRingStatus LanRingStatus.ringState 0 (fly actRingMark 0 31 (up 4))), ⟨actRingMark, 0, 31, 0, 0⟩, [], (arrived (⟨actRingMark, 0, 31, 0, 0⟩) ([]) (fput Reg.lanRingStatus LanRingStatus.ringState 0 (fly actRingMark 0 31 (up 4)))), 0, rfl, by decide +kernel⟩,
   ⟨(fput Reg.lanRingStatus LanRingStatus.ringState 3 (fly actRingMark 0 31 (up 4))), ⟨actRingMark, 0, 31, 0, 0⟩, [], (arrived (⟨actRingMark, 0, 31, 0, 0⟩) ([]) (fput Reg.lanRingStatus LanRingStatus.ringState 3 (fly actRingMark 0 31 (up 4)))), 0, rfl, by decide +kernel⟩,
   ⟨(fly actHbmRetrain 63 0 (up 3)), ⟨actHbmRetrain, 63, 0, 0, 0⟩, [], (arrived (⟨actHbmRetrain, 63, 0, 0, 0⟩) ([]) (fly actHbmRetrain 63 0 (up 3))), 3, 15, rfl, by decide +kernel⟩,
   ⟨{ up 3 with clock := { Clock.init with trigOut := [(3, 5)] } }, 3, by decide +kernel⟩⟩

theorem test_meets_HandoverAndPictureStart :
    (∃ (s : State) (p : PipeId) (a : Action) (l : List Action) (u : State), u = arrived a l s ∧ takeAction actHandover p s.clock.inFlight = some (a, l) ∧ curMode u = 3 ∧ pipeEnabled p u = true ∧ shadowPending p u = true ∧ fbit (Reg.pipHandover p) PipHandover.hoHold u = false ∧ (setCheck p 1 u).1 = 0) ∧
    (∃ (s : State) (p : PipeId) (a : Action) (l : List Action) (u : State), u = arrived a l s ∧ takeAction actCaptureArm p s.clock.inFlight = some (a, l) ∧ captures p u = true) ∧
    (∃ (s : State) (p : PipeId) (a : Action) (l : List Action) (u : State), u = arrived a l s ∧ takeAction actPicStart p s.clock.inFlight = some (a, l) ∧ curMode u = 3 ∧ homeReady p u = true ∧ pipeEnabled p u = true ∧ (getPipe p u).activeWritten = false ∧ pipeDecodes p u = false ∧ skipsField p a.arg u = false ∧ (∀ z ∈ (getPipe p u).pics, z.idx ≠ (getPipe p u).next ∧ (z.complete = true ∨ z.budgeted = true))) ∧
    (∃ (s : State) (p : PipeId) (a : Action) (l : List Action) (u : State) (i : StreamPic) (c : CodedPic) (cs : List CodedPic), u = arrived a l s ∧ (takeAction actPicStart p s.clock.inFlight = some (a, l) ∧ curMode u = 3 ∧ homeReady p u = true ∧ pipeEnabled p u = true ∧ (getPipe p u).activeWritten = false ∧ pipeDecodes p u = true ∧ a.arg % 2 = 0 ∧ (getPipe p u).coded = c :: cs) ∧ (∀ w, hostLine w u = none)) :=
  ⟨⟨(fput (Reg.pipShadowPending 0) PipShadowPending.pending 1 (fly actHandover 0 0 (enabled (composed 9 (up 3))))), 0, ⟨actHandover, 0, 0, 0, 0⟩, [], (arrived (⟨actHandover, 0, 0, 0, 0⟩) ([]) (fput (Reg.pipShadowPending 0) PipShadowPending.pending 1 (fly actHandover 0 0 (enabled (composed 9 (up 3)))))), rfl, by decide +kernel⟩,
   ⟨(fly actCaptureArm 0 0 (enabled (composed 2 (up 3)))), 0, ⟨actCaptureArm, 0, 0, 0, 0⟩, [], (arrived (⟨actCaptureArm, 0, 0, 0, 0⟩) ([]) (fly actCaptureArm 0 0 (enabled (composed 2 (up 3))))), rfl, by decide +kernel⟩,
   ⟨(fput (Reg.rgcStatus 0) RgcStatus.rgcState 1 (fly actPicStart 0 0 (enabled (composed 2 (up 3))))), 0, ⟨actPicStart, 0, 0, 0, 0⟩, [], (arrived (⟨actPicStart, 0, 0, 0, 0⟩) ([]) (fput (Reg.rgcStatus 0) RgcStatus.rgcState 1 (fly actPicStart 0 0 (enabled (composed 2 (up 3)))))), rfl, by decide +kernel⟩,
   ⟨(fput (Reg.rgcStatus 0) RgcStatus.rgcState 1 (fly actPicStart 0 0 (setPipe 0 { Pipe.init with coded := [⟨[], true, some 3, []⟩] } (enabled (composed 9 (up 3)))))), 0, ⟨actPicStart, 0, 0, 0, 0⟩, [], (arrived (⟨actPicStart, 0, 0, 0, 0⟩) ([]) (fput (Reg.rgcStatus 0) RgcStatus.rgcState 1 (fly actPicStart 0 0 (setPipe 0 { Pipe.init with coded := [⟨[], true, some 3, []⟩] } (enabled (composed 9 (up 3))))))), pic16, ⟨[], true, some 3, []⟩, [], rfl, by decide +kernel, noLine (by decide +kernel)⟩⟩

theorem test_meets_MarksDeadlinesEmitAndRelease :
    (∃ (s : State) (p : PipeId) (y : Pic) (a : Action) (l : List Action) (u : State), u = arrived a l s ∧ curMode u = 3 ∧ openPic p u = some y ∧ takeAction actMarginMark p s.clock.inFlight = some (a, l) ∧ y.unitsDone < min (a.arg % 65536) y.unitCount) ∧
    (∃ (s : State) (p : PipeId) (y : Pic) (a : Action) (l : List Action) (u : State), u = arrived a l s ∧ curMode u = 3 ∧ openPic p u = some y ∧ takeAction actMarginMark p s.clock.inFlight = some (a, l) ∧ y.unitsDone < min (a.arg % 65536) y.unitCount) ∧
    (∃ (s : State) (p : PipeId) (y : Pic) (a : Action) (l : List Action) (u : State), u = arrived a l s ∧ curMode u = 3 ∧ openPic p u = some y ∧ takeAction actRowDeadline p s.clock.inFlight = some (a, l) ∧ y.complete = false) ∧
    (∃ (s : State) (p : PipeId) (y : Pic) (a : Action) (l : List Action) (u : State), u = arrived a l s ∧ curMode u = 3 ∧ openPic p u = some y ∧ takeAction actRowDeadline p s.clock.inFlight = some (a, l) ∧ y.complete = false) ∧
    (∃ (s : State) (a : Action) (l : List Action) (u : State) (p : PipeId) (e : PipeEntry) (y : Pic) (h : HeldPic) (rest : List HeldPic), u = arrived a l s ∧ curMode u = 3 ∧ takeAction actEmit p s.clock.inFlight = some (a, l) ∧ pipeEntry p u = some e ∧ pipeDecodes p u = true ∧ pipeEnabled p u = true ∧ subPicture p u = false ∧ (getPipe p u).repeatNext = false ∧ outPic p (·.emitDone) u = some y ∧ (∀ z ∈ (getPipe p u).pics, z.idx < y.idx → z.emitDone = true) ∧ y.emitBegun = false ∧ y.missed = false ∧ waitingPics y.idx (getPipe p u) = h :: rest ∧ y.depth ≤ rest.length) ∧
    (∃ (s : State) (a : Action) (l : List Action) (u : State) (p : PipeId), u = arrived a l s ∧ curMode u = 3 ∧ takeAction actEmit p s.clock.inFlight = some (a, l) ∧ (pipeEntry p u).isSome = true ∧ pipeDecodes p u = true ∧ pipeEnabled p u = true ∧ (getPipe p u).repeatNext = true) ∧
    (∃ (s : State) (a : Action) (l : List Action) (u : State) (p : PipeId), u = arrived a l s ∧ curMode u = 3 ∧ takeAction actEmit p s.clock.inFlight = some (a, l) ∧ (pipeEntry p u).isSome = true ∧ pipeDecodes p u = true ∧ pipeEnabled p u = true ∧ (getPipe p u).repeatNext = true) ∧
    (∃ (s : State) (a : Action) (l : List Action) (u : State) (n : PortId) (e : PortEntry) (q : Pic) (allow : Nat), u = arrived a l s ∧ curMode u = 3 ∧ takeAction actRelease n s.clock.inFlight = some (a, l) ∧ portEntry n u = some e ∧ e.egress = true ∧ e.pipe < 1024 ∧ sptEnabled n u = true ∧ (outPic e.pipe (fun z => decide (z.idx < (getPort n u).relNext)) u = some q) ∧ (getPort n u).relNext ≤ q.idx ∧ (∀ z ∈ (getPipe e.pipe u).pics, z.units = []) ∧ allow = (if subPicture e.pipe u && !q.fullFired then q.due else q.unitCount)) :=
  ⟨⟨(fly actMarginMark 0 65535 (setPipe 0 { Pipe.init with pics := [{ Pic.init with idx := 4, rowCount := 3, unitsDone := 1 }] } (enabled (composed 2 (up 3))))), 0, { Pic.init with idx := 4, rowCount := 3, unitsDone := 1 }, ⟨actMarginMark, 0, 65535, 0, 0⟩, [], (arrived (⟨actMarginMark, 0, 65535, 0, 0⟩) ([]) (fly actMarginMark 0 65535 (setPipe 0 { Pipe.init with pics := [{ Pic.init with idx := 4, rowCount := 3, unitsDone := 1 }] } (enabled (composed 2 (up 3)))))), rfl, by decide +kernel⟩,
   ⟨(fly actMarginMark 0 65535 (setPipe 0 { Pipe.init with pics := [{ Pic.init with idx := 4, rowCount := 3, unitsDone := 1 }] } (enabled (composed 9 (up 3))))), 0, { Pic.init with idx := 4, rowCount := 3, unitsDone := 1 }, ⟨actMarginMark, 0, 65535, 0, 0⟩, [], (arrived (⟨actMarginMark, 0, 65535, 0, 0⟩) ([]) (fly actMarginMark 0 65535 (setPipe 0 { Pipe.init with pics := [{ Pic.init with idx := 4, rowCount := 3, unitsDone := 1 }] } (enabled (composed 9 (up 3)))))), rfl, by decide +kernel⟩,
   ⟨(fly actRowDeadline 0 1 (setPipe 0 { Pipe.init with pics := [{ Pic.init with idx := 4, rowCount := 3, unitsDone := 1 }] } (enabled (composed 2 (up 3))))), 0, { Pic.init with idx := 4, rowCount := 3, unitsDone := 1 }, ⟨actRowDeadline, 0, 1, 0, 0⟩, [], (arrived (⟨actRowDeadline, 0, 1, 0, 0⟩) ([]) (fly actRowDeadline 0 1 (setPipe 0 { Pipe.init with pics := [{ Pic.init with idx := 4, rowCount := 3, unitsDone := 1 }] } (enabled (composed 2 (up 3)))))), rfl, by decide +kernel⟩,
   ⟨(fly actRowDeadline 0 65535 (setPipe 0 { Pipe.init with pics := [{ Pic.init with idx := 4, rowCount := 3, unitsDone := 1 }] } (enabled (composed 9 (up 3))))), 0, { Pic.init with idx := 4, rowCount := 3, unitsDone := 1 }, ⟨actRowDeadline, 0, 65535, 0, 0⟩, [], (arrived (⟨actRowDeadline, 0, 65535, 0, 0⟩) ([]) (fly actRowDeadline 0 65535 (setPipe 0 { Pipe.init with pics := [{ Pic.init with idx := 4, rowCount := 3, unitsDone := 1 }] } (enabled (composed 9 (up 3)))))), rfl, by decide +kernel⟩,
   ⟨(fly actEmit 0 0 (setPipe 0 { Pipe.init with pics := [{ Pic.init with idx := 4, rowCount := 3, complete := true, unitsDone := 3 }], heldPics := [(⟨3, 2, true, false, false, 4, default, (0, 0), (16, 16), false, 0, 0⟩ : HeldPic)] } (enabled (composed 9 (up 3))))), ⟨actEmit, 0, 0, 0, 0⟩, [], (arrived (⟨actEmit, 0, 0, 0, 0⟩) ([]) (fly actEmit 0 0 (setPipe 0 { Pipe.init with pics := [{ Pic.init with idx := 4, rowCount := 3, complete := true, unitsDone := 3 }], heldPics := [(⟨3, 2, true, false, false, 4, default, (0, 0), (16, 16), false, 0, 0⟩ : HeldPic)] } (enabled (composed 9 (up 3)))))), 0, ⟨0, 0, 0, 9, 0, 64, 64, 5, 1, 2, 1, 0, 1, 0, 0, 0xFFFF, 100, [0]⟩, { Pic.init with idx := 4, rowCount := 3, complete := true, unitsDone := 3 }, (⟨3, 2, true, false, false, 4, default, (0, 0), (16, 16), false, 0, 0⟩ : HeldPic), [], rfl, by decide +kernel⟩,
   ⟨(fly actEmit 0 0 (setPipe 0 { Pipe.init with pics := [{ Pic.init with idx := 4, rowCount := 3, complete := true, unitsDone := 3 }], repeatNext := true, lastOut := none } (enabled (composed 9 (up 3))))), ⟨actEmit, 0, 0, 0, 0⟩, [], (arrived (⟨actEmit, 0, 0, 0, 0⟩) ([]) (fly actEmit 0 0 (setPipe 0 { Pipe.init with pics := [{ Pic.init with idx := 4, rowCount := 3, complete := true, unitsDone := 3 }], repeatNext := true, lastOut := none } (enabled (composed 9 (up 3)))))), 0, rfl, by decide +kernel⟩,
   ⟨(fly actEmit 0 0 (setPipe 0 { Pipe.init with pics := [{ Pic.init with idx := 4, rowCount := 3, complete := true, unitsDone := 3 }], repeatNext := true, lastOut := some (⟨3, 2, true, false, false, 4, default, (0, 0), (16, 16), false, 0, 0⟩ : HeldPic) } (enabled (composed 9 (up 3))))), ⟨actEmit, 0, 0, 0, 0⟩, [], (arrived (⟨actEmit, 0, 0, 0, 0⟩) ([]) (fly actEmit 0 0 (setPipe 0 { Pipe.init with pics := [{ Pic.init with idx := 4, rowCount := 3, complete := true, unitsDone := 3 }], repeatNext := true, lastOut := some (⟨3, 2, true, false, false, 4, default, (0, 0), (16, 16), false, 0, 0⟩ : HeldPic) } (enabled (composed 9 (up 3)))))), 0, rfl, by decide +kernel⟩,
   ⟨(fput (Reg.sptCtl 0) SptCtl.enable 1 (fly actRelease 0 0 (setPipe 0 { Pipe.init with pics := [{ Pic.init with idx := 4, rowCount := 3, unitsDone := 1 }] } (enabled (composed 2 (up 3)))))), ⟨actRelease, 0, 0, 0, 0⟩, [], (arrived (⟨actRelease, 0, 0, 0, 0⟩) ([]) (fput (Reg.sptCtl 0) SptCtl.enable 1 (fly actRelease 0 0 (setPipe 0 { Pipe.init with pics := [{ Pic.init with idx := 4, rowCount := 3, unitsDone := 1 }] } (enabled (composed 2 (up 3))))))), 0, ⟨0, 0, true, 0, 0, 0, 4095⟩, { Pic.init with idx := 4, rowCount := 3, unitsDone := 1 }, 3, rfl, by decide +kernel⟩⟩

theorem test_meets_RegionActionsMovePowerStates :
    (∃ (s : State) (r : RegionId) (a : Action) (l : List Action) (u : State) (c : Instr) (code : Nat), u = arrived a l s ∧ curMode u = 3 ∧ (c = Instr.regionUp r ∧ code = actRegionUp ∧ rgcState r u = 0 ∧ regionHeld r u = false ∨ c = .regionGate r ∧ code = actRegionGate ∧ rgcState r u = 1 ∨ c = .regionDvfs r ∧ code = actRegionDvfs ∧ a.arg % 4 ≠ 3 ∧ u.bc.ivrHold.contains r.val = false) ∧ takeAction code r s.clock.inFlight = some (a, l) ∧ waitingActs r u = [] ∧ blocksIdle r u = true) ∧
    (∃ (s : State) (r : RegionId) (a : Action) (l : List Action) (u : State) (c : Instr) (code : Nat), u = arrived a l s ∧ curMode u = 3 ∧ (c = Instr.regionUp r ∧ code = actRegionUp ∧ rgcState r u = 0 ∧ regionHeld r u = false ∨ c = .regionGate r ∧ code = actRegionGate ∧ rgcState r u = 1 ∨ c = .regionDvfs r ∧ code = actRegionDvfs ∧ a.arg % 4 ≠ 3 ∧ u.bc.ivrHold.contains r.val = false) ∧ takeAction code r s.clock.inFlight = some (a, l) ∧ waitingActs r u = [] ∧ blocksIdle r u = true) ∧
    (∃ (s : State) (r : RegionId) (a : Action) (l : List Action) (u : State), u = arrived a l s ∧ curMode u = 3 ∧ takeAction actRegionUp r s.clock.inFlight = some (a, l) ∧ blocksIdle r u = false ∧ rgcState r u = 0 ∧ regionHeld r u = false) ∧
    (∃ (s : State) (r : RegionId) (acts : List RegionAct), waitingActs r s = .up :: acts ∧ blocksIdle r s = true ∧ rgcState r s = 0 ∧ regionHeld r s = false) ∧
    (∃ (s : State) (r : RegionId), rgcState r s = 2 ∧ regionWork r s = false) ∧
    (∃ (s : State) (r : RegionId), (getRegion r s).regateDue = true ∧ (curMode s = 2 ∨ curMode s = 4) ∧ rgcState r s = 1 ∧ blocksIdle r s = true) ∧
    (∃ (s : State) (r : RegionId), (getRegion r s).regateDue = true ∧ (curMode s = 2 ∨ curMode s = 4) ∧ rgcState r s = 1 ∧ blocksIdle r s = true) :=
  ⟨⟨(fly actRegionUp 15 0 (fput (Reg.rgcStatus 15) RgcStatus.rgcState 0 (up 3))), 15, ⟨actRegionUp, 15, 0, 0, 0⟩, [], (arrived (⟨actRegionUp, 15, 0, 0, 0⟩) ([]) (fly actRegionUp 15 0 (fput (Reg.rgcStatus 15) RgcStatus.rgcState 0 (up 3)))), (.regionUp 15), actRegionUp, rfl, by decide +kernel⟩,
   ⟨(fly actRegionDvfs 15 2 (fput (Reg.rgcStatus 15) RgcStatus.rgcState 1 (up 3))), 15, ⟨actRegionDvfs, 15, 2, 0, 0⟩, [], (arrived (⟨actRegionDvfs, 15, 2, 0, 0⟩) ([]) (fly actRegionDvfs 15 2 (fput (Reg.rgcStatus 15) RgcStatus.rgcState 1 (up 3)))), (.regionDvfs 15), actRegionDvfs, rfl, by decide +kernel⟩,
   ⟨(fput (Reg.seqStatus 0 7) SeqStatus.seqState 2 (fly actRegionUp 0 0 (up 3))), 0, ⟨actRegionUp, 0, 0, 0, 0⟩, [], (arrived (⟨actRegionUp, 0, 0, 0, 0⟩) ([]) (fput (Reg.seqStatus 0 7) SeqStatus.seqState 2 (fly actRegionUp 0 0 (up 3)))), rfl, by decide +kernel⟩,
   ⟨(setWaitingActs 3 [.up, .gate] (up 3)), 3, [.gate], by decide +kernel⟩,
   ⟨(fput (Reg.rgcStatus 15) RgcStatus.rgcState 2 (up 3)), 15, by decide +kernel⟩,
   ⟨(setRegion 15 { RegionSt.init with regateDue := true } (fput (Reg.rgcStatus 15) RgcStatus.rgcState 1 (up 2))), 15, by decide +kernel⟩,
   ⟨(setRegion 15 { RegionSt.init with regateDue := true } (fput (Reg.rgcStatus 15) RgcStatus.rgcState 1 (up 4))), 15, by decide +kernel⟩⟩

theorem test_meets_QueuesMoveTokensAndCairnsTakeAborts :
    (∃ (s : State) (r : RegionId) (b : BlockId) (q : Fin 2) (who : Fin 13) (x : Dq) (k : BitVec 128) (z : Dq) (far : Bool), x = getDq r b q s ∧ blockWorks r b s = true ∧ nextToken r b q s = some (k, z) ∧ (dqDecodes r b q s = true ∨ dqSegment r b q s = false ∧ far = false) ∧ x.writeSide.used = false ∧ x.writeSide.waiting = [] ∧ dqHolds x = false) ∧
    (∃ (s : State) (r : RegionId) (b : BlockId) (q : Fin 2) (who : Fin 13) (x : Dq) (k : BitVec 128) (z : Dq) (far : Bool), x = getDq r b q s ∧ blockWorks r b s = true ∧ nextToken r b q s = some (k, z) ∧ (dqDecodes r b q s = true ∨ dqSegment r b q s = false ∧ far = false) ∧ x.writeSide.used = false ∧ x.writeSide.waiting = [] ∧ dqHolds x = false) ∧
    (∃ (s : State) (r : RegionId) (b : BlockId) (q : Fin 2) (who : Fin 13) (x : Dq) (k : BitVec 128) (z : Dq), x = getDq r b q s ∧ blockWorks r b s = true ∧ farToken r b q s = some (k, z) ∧ dqDecodes r b q s = false ∧ z.segment.length < 65536) ∧
    (∃ (s : State) (r : RegionId) (b : BlockId) (q : Fin 2) (who : Fin 13) (x : Dq) (far : Bool), x = getDq r b q s ∧ blockWorks r b s = true ∧ dqDecodes r b q s = true ∧ 8192 ≤ x.tokens.length) ∧
    (∃ (s : State) (r : RegionId) (b : BlockId) (q : Fin 2) (who : Fin 13) (x : Dq) (k : BitVec 128) (l : List (BitVec 128)), x = getDq r b q s ∧ blockWorks r b s = true ∧ x.tokens = k :: l ∧ x.readSide.used = false ∧ x.readSide.waiting = [] ∧ (dqDecodes r b q s = false ∧ (getRope r b q s).stopped = false ∨ dqDecodes r b q s = true ∧ dqSegment r b q s = false)) ∧
    (∃ (s : State) (r : RegionId) (b : BlockId) (q : Fin 2) (who : Fin 13) (x : Dq) (k : BitVec 128) (l : List (BitVec 128)), x = getDq r b q s ∧ blockWorks r b s = true ∧ x.tokens = k :: l ∧ x.readSide.used = false ∧ x.readSide.waiting = [] ∧ (dqDecodes r b q s = false ∧ (getRope r b q s).stopped = false ∨ dqDecodes r b q s = true ∧ dqSegment r b q s = false)) ∧
    (∃ (s : State) (r : RegionId) (b : BlockId) (q : Fin 2) (who : Fin 13) (x : Dq) (k : BitVec 128) (l : List (BitVec 128)), x = getDq r b q s ∧ blockWorks r b s = true ∧ x.tokens = k :: l ∧ x.readSide.used = false ∧ x.readSide.waiting = [] ∧ dqSegment r b q s = true ∧ dqDecodes r b q s = true ∧ x.segment.length < 65536) ∧
    (∃ (s : State) (r : RegionId) (b : BlockId) (q : Fin 2) (who : Fin 13) (x : Dq) (k : BitVec 128) (l : List (BitVec 128)), x = getDq r b q s ∧ blockWorks r b s = true ∧ x.segment = k :: l ∧ dqSegment r b q s = true ∧ dqDecodes r b q s = true) ∧
    (∃ (s : State) (r : RegionId) (b : BlockId) (q : Fin 2) (who : Fin 13) (x : Dq) (k : BitVec 128) (l : List (BitVec 128)) (z : Dq), x = getDq r b q s ∧ (blockWorks r b s = true ∧ x.segment = k :: l ∧ dqSegment r b q s = true) ∧ segmentToken r b q s = some (k, z) ∧ dqDecodes r b q s = false ∧ dqHolds x = false ∧ x.writeSide.used = false ∧ x.writeSide.waiting = []) ∧
    (∃ (s : State) (r : RegionId) (b : BlockId) (q : Fin 2) (who : Fin 13) (x : Dq) (d : DomId) (v : Word), x = getDq r b q s ∧ blockWorks r b s = true ∧ HostMayWrite d (Reg.dqCtl r b q) s ∧ curMode s ≠ 5) ∧
    (∃ (s : State) (r : RegionId) (b : BlockId) (gap : Nat) (progress : Nat), seqState r b s = 1 ∧ (getBlock r b s).requests = [] ∧ gap < 2 ^ SeqStatus.seqCairnGap.width) ∧
    (∃ (s : State) (r : RegionId) (b : BlockId) (gap : Nat) (progress : Nat) (cause : Nat), seqState r b s = 1 ∧ (getBlock r b s).requests = [.abort cause] ∧ abortable (fget (Reg.seqStatus r b) SeqStatus.seqRoutine s) = true) :=
  ⟨⟨(setBlock 0 0 { Block.init with running := some (0, 4, 0, 0) } (setPipe 0 { Pipe.init with pics := [{ Pic.init with idx := 4, rowCount := 2, parts := [(0, 1)], units := [(0, { UnitSt.init with block := 1 })] }] } (fput (Reg.seqStatus 0 0) SeqStatus.seqRoutine 1 (fput (Reg.seqStatus 0 0) SeqStatus.seqState 1 (blocked 2 (enabled (composed 2 (up 3)))))))), 0, 0, 0, 12, (getDq 0 0 0 (setBlock 0 0 { Block.init with running := some (0, 4, 0, 0) } (setPipe 0 { Pipe.init with pics := [{ Pic.init with idx := 4, rowCount := 2, parts := [(0, 1)], units := [(0, { UnitSt.init with block := 1 })] }] } (fput (Reg.seqStatus 0 0) SeqStatus.seqRoutine 1 (fput (Reg.seqStatus 0 0) SeqStatus.seqState 1 (blocked 2 (enabled (composed 2 (up 3))))))))), ((nextToken 0 0 0 (setBlock 0 0 { Block.init with running := some (0, 4, 0, 0) } (setPipe 0 { Pipe.init with pics := [{ Pic.init with idx := 4, rowCount := 2, parts := [(0, 1)], units := [(0, { UnitSt.init with block := 1 })] }] } (fput (Reg.seqStatus 0 0) SeqStatus.seqRoutine 1 (fput (Reg.seqStatus 0 0) SeqStatus.seqState 1 (blocked 2 (enabled (composed 2 (up 3))))))))).getD (0, Dq.init)).1, ((nextToken 0 0 0 (setBlock 0 0 { Block.init with running := some (0, 4, 0, 0) } (setPipe 0 { Pipe.init with pics := [{ Pic.init with idx := 4, rowCount := 2, parts := [(0, 1)], units := [(0, { UnitSt.init with block := 1 })] }] } (fput (Reg.seqStatus 0 0) SeqStatus.seqRoutine 1 (fput (Reg.seqStatus 0 0) SeqStatus.seqState 1 (blocked 2 (enabled (composed 2 (up 3))))))))).getD (0, Dq.init)).2, false, rfl, by decide +kernel, nt (by decide +kernel), by decide +kernel⟩,
   ⟨(setBlock 0 0 { Block.init with running := some (0, 4, 0, 0) } (setPipe 0 { Pipe.init with pics := [{ Pic.init with idx := 4, rowCount := 2, parts := [(0, 1)], units := [(0, { UnitSt.init with block := 1 })] }] } (fput (Reg.seqStatus 0 0) SeqStatus.seqRoutine 1 (fput (Reg.seqStatus 0 0) SeqStatus.seqState 1 (fput (Reg.dqStatus 0 0 0) DqStatus.dqDir 1 (blocked 9 (enabled (composed 9 (up 3))))))))), 0, 0, 0, 12, (getDq 0 0 0 (setBlock 0 0 { Block.init with running := some (0, 4, 0, 0) } (setPipe 0 { Pipe.init with pics := [{ Pic.init with idx := 4, rowCount := 2, parts := [(0, 1)], units := [(0, { UnitSt.init with block := 1 })] }] } (fput (Reg.seqStatus 0 0) SeqStatus.seqRoutine 1 (fput (Reg.seqStatus 0 0) SeqStatus.seqState 1 (fput (Reg.dqStatus 0 0 0) DqStatus.dqDir 1 (blocked 9 (enabled (composed 9 (up 3)))))))))), ((nextToken 0 0 0 (setBlock 0 0 { Block.init with running := some (0, 4, 0, 0) } (setPipe 0 { Pipe.init with pics := [{ Pic.init with idx := 4, rowCount := 2, parts := [(0, 1)], units := [(0, { UnitSt.init with block := 1 })] }] } (fput (Reg.seqStatus 0 0) SeqStatus.seqRoutine 1 (fput (Reg.seqStatus 0 0) SeqStatus.seqState 1 (fput (Reg.dqStatus 0 0 0) DqStatus.dqDir 1 (blocked 9 (enabled (composed 9 (up 3)))))))))).getD (0, Dq.init)).1, ((nextToken 0 0 0 (setBlock 0 0 { Block.init with running := some (0, 4, 0, 0) } (setPipe 0 { Pipe.init with pics := [{ Pic.init with idx := 4, rowCount := 2, parts := [(0, 1)], units := [(0, { UnitSt.init with block := 1 })] }] } (fput (Reg.seqStatus 0 0) SeqStatus.seqRoutine 1 (fput (Reg.seqStatus 0 0) SeqStatus.seqState 1 (fput (Reg.dqStatus 0 0 0) DqStatus.dqDir 1 (blocked 9 (enabled (composed 9 (up 3)))))))))).getD (0, Dq.init)).2, true, rfl, by decide +kernel, nt (by decide +kernel), by decide +kernel⟩,
   ⟨(setBlock 0 1 { Block.init with running := some (0, 4, 1, 0) } (withPipes [⟨0, 0, 0, 2, 0, 64, 64, 5, 1, 2, 1, 0, 1, 0, 0, 0xFFFF, 100, [0, 1]⟩] (setBlock 0 0 { Block.init with running := some (0, 4, 0, 0) } (setPipe 0 { Pipe.init with pics := [{ Pic.init with idx := 4, rowCount := 2, parts := [(0, 1)], units := [(0, { UnitSt.init with block := 1 })] }] } (fput (Reg.seqStatus 0 0) SeqStatus.seqRoutine 1 (fput (Reg.seqStatus 0 0) SeqStatus.seqState 1 (blocked 2 (enabled (composed 2 (up 3)))))))))), 0, 0, 0, 12, (getDq 0 0 0 (setBlock 0 1 { Block.init with running := some (0, 4, 1, 0) } (withPipes [⟨0, 0, 0, 2, 0, 64, 64, 5, 1, 2, 1, 0, 1, 0, 0, 0xFFFF, 100, [0, 1]⟩] (setBlock 0 0 { Block.init with running := some (0, 4, 0, 0) } (setPipe 0 { Pipe.init with pics := [{ Pic.init with idx := 4, rowCount := 2, parts := [(0, 1)], units := [(0, { UnitSt.init with block := 1 })] }] } (fput (Reg.seqStatus 0 0) SeqStatus.seqRoutine 1 (fput (Reg.seqStatus 0 0) SeqStatus.seqState 1 (blocked 2 (enabled (composed 2 (up 3))))))))))), ((farToken 0 0 0 (setBlock 0 1 { Block.init with running := some (0, 4, 1, 0) } (withPipes [⟨0, 0, 0, 2, 0, 64, 64, 5, 1, 2, 1, 0, 1, 0, 0, 0xFFFF, 100, [0, 1]⟩] (setBlock 0 0 { Block.init with running := some (0, 4, 0, 0) } (setPipe 0 { Pipe.init with pics := [{ Pic.init with idx := 4, rowCount := 2, parts := [(0, 1)], units := [(0, { UnitSt.init with block := 1 })] }] } (fput (Reg.seqStatus 0 0) SeqStatus.seqRoutine 1 (fput (Reg.seqStatus 0 0) SeqStatus.seqState 1 (blocked 2 (enabled (composed 2 (up 3))))))))))).getD (0, Dq.init)).1, ((farToken 0 0 0 (setBlock 0 1 { Block.init with running := some (0, 4, 1, 0) } (withPipes [⟨0, 0, 0, 2, 0, 64, 64, 5, 1, 2, 1, 0, 1, 0, 0, 0xFFFF, 100, [0, 1]⟩] (setBlock 0 0 { Block.init with running := some (0, 4, 0, 0) } (setPipe 0 { Pipe.init with pics := [{ Pic.init with idx := 4, rowCount := 2, parts := [(0, 1)], units := [(0, { UnitSt.init with block := 1 })] }] } (fput (Reg.seqStatus 0 0) SeqStatus.seqRoutine 1 (fput (Reg.seqStatus 0 0) SeqStatus.seqState 1 (blocked 2 (enabled (composed 2 (up 3))))))))))).getD (0, Dq.init)).2, rfl, by decide +kernel, nt (by decide +kernel), by decide +kernel⟩,
   ⟨(setDq 0 0 0 { Dq.init with tokens := List.replicate 8192 7#128 } (fput (Reg.dqStatus 0 0 0) DqStatus.dqDir 1 (blocked 9 (enabled (composed 9 (up 3)))))), 0, 0, 0, 12, (getDq 0 0 0 (setDq 0 0 0 { Dq.init with tokens := List.replicate 8192 7#128 } (fput (Reg.dqStatus 0 0 0) DqStatus.dqDir 1 (blocked 9 (enabled (composed 9 (up 3))))))), true, rfl, by decide +kernel⟩,
   ⟨(setDq 0 0 0 { Dq.init with tokens := [7#128, 8#128], rd := 16383 } (blocked 2 (enabled (composed 2 (up 3))))), 0, 0, 0, 12, (getDq 0 0 0 (setDq 0 0 0 { Dq.init with tokens := [7#128, 8#128], rd := 16383 } (blocked 2 (enabled (composed 2 (up 3)))))), 7#128, [8#128], rfl, by decide +kernel⟩,
   ⟨(setDq 0 0 0 { Dq.init with tokens := [7#128, 8#128], rd := 16383 } (fput (Reg.dqStatus 0 0 0) DqStatus.dqDir 1 (blocked 9 (enabled (composed 9 (up 3)))))), 0, 0, 0, 12, (getDq 0 0 0 (setDq 0 0 0 { Dq.init with tokens := [7#128, 8#128], rd := 16383 } (fput (Reg.dqStatus 0 0 0) DqStatus.dqDir 1 (blocked 9 (enabled (composed 9 (up 3))))))), 7#128, [8#128], rfl, by decide +kernel⟩,
   ⟨(setDq 0 0 0 { Dq.init with tokens := [7#128] } (fput (Reg.dqStatus 0 0 0) DqStatus.dqDir 1 (fput (Reg.dqStatus 0 0 0) DqStatus.dqSeg 1 (blocked 9 (enabled (composed 9 (up 3))))))), 0, 0, 0, 12, (getDq 0 0 0 (setDq 0 0 0 { Dq.init with tokens := [7#128] } (fput (Reg.dqStatus 0 0 0) DqStatus.dqDir 1 (fput (Reg.dqStatus 0 0 0) DqStatus.dqSeg 1 (blocked 9 (enabled (composed 9 (up 3)))))))), 7#128, [], rfl, by decide +kernel⟩,
   ⟨(setDq 0 0 0 { Dq.init with segment := [7#128] } (fput (Reg.dqStatus 0 0 0) DqStatus.dqDir 1 (fput (Reg.dqStatus 0 0 0) DqStatus.dqSeg 1 (blocked 9 (enabled (composed 9 (up 3))))))), 0, 0, 0, 12, (getDq 0 0 0 (setDq 0 0 0 { Dq.init with segment := [7#128] } (fput (Reg.dqStatus 0 0 0) DqStatus.dqDir 1 (fput (Reg.dqStatus 0 0 0) DqStatus.dqSeg 1 (blocked 9 (enabled (composed 9 (up 3)))))))), 7#128, [], rfl, by decide +kernel⟩,
   ⟨(setDq 0 0 0 { Dq.init with segment := [7#128] } (fput (Reg.dqStatus 0 0 0) DqStatus.dqSeg 1 (setBlock 0 0 { Block.init with running := some (0, 4, 0, 0) } (setPipe 0 { Pipe.init with pics := [{ Pic.init with idx := 4, rowCount := 2, parts := [(0, 1)], units := [(0, { UnitSt.init with block := 1 })] }] } (blocked 2 (enabled (composed 2 (up 3)))))))), 0, 0, 0, 12, (getDq 0 0 0 (setDq 0 0 0 { Dq.init with segment := [7#128] } (fput (Reg.dqStatus 0 0 0) DqStatus.dqSeg 1 (setBlock 0 0 { Block.init with running := some (0, 4, 0, 0) } (setPipe 0 { Pipe.init with pics := [{ Pic.init with idx := 4, rowCount := 2, parts := [(0, 1)], units := [(0, { UnitSt.init with block := 1 })] }] } (blocked 2 (enabled (composed 2 (up 3))))))))), ((segmentToken 0 0 0 (setDq 0 0 0 { Dq.init with segment := [7#128] } (fput (Reg.dqStatus 0 0 0) DqStatus.dqSeg 1 (setBlock 0 0 { Block.init with running := some (0, 4, 0, 0) } (setPipe 0 { Pipe.init with pics := [{ Pic.init with idx := 4, rowCount := 2, parts := [(0, 1)], units := [(0, { UnitSt.init with block := 1 })] }] } (blocked 2 (enabled (composed 2 (up 3))))))))).getD (0, Dq.init)).1, [], ((segmentToken 0 0 0 (setDq 0 0 0 { Dq.init with segment := [7#128] } (fput (Reg.dqStatus 0 0 0) DqStatus.dqSeg 1 (setBlock 0 0 { Block.init with running := some (0, 4, 0, 0) } (setPipe 0 { Pipe.init with pics := [{ Pic.init with idx := 4, rowCount := 2, parts := [(0, 1)], units := [(0, { UnitSt.init with block := 1 })] }] } (blocked 2 (enabled (composed 2 (up 3))))))))).getD (0, Dq.init)).2, rfl, by decide +kernel, nt (by decide +kernel), by decide +kernel⟩,
   ⟨(blocked 2 (enabled (composed 2 (up 3)))), 0, 0, 0, 12, (getDq 0 0 0 (blocked 2 (enabled (composed 2 (up 3))))), 0, 0xFFFFFFFF#32, rfl, by decide +kernel, hmw (by decide +kernel), by decide +kernel⟩,
   ⟨(fput (Reg.seqStatus 0 0) SeqStatus.seqRoutine 1 (fput (Reg.seqStatus 0 0) SeqStatus.seqState 1 (blocked 2 (enabled (composed 2 (up 3)))))), 0, 0, 8191, 5, by decide +kernel⟩,
   ⟨(setBlock 0 0 { Block.init with requests := [.abort 3], key := 9 } (fput (Reg.seqStatus 0 0) SeqStatus.seqRoutine 7 (fput (Reg.seqStatus 0 0) SeqStatus.seqState 1 (blocked 2 (enabled (composed 2 (up 3))))))), 0, 0, 8191, 5, 3, by decide +kernel⟩⟩

theorem test_meets_RowUnitsAreHandedOutAndDone :
    (∃ (s : State) (p : PipeId) (r : RegionId) (b : BlockId) (y : Pic) (k : Nat) (work : List LocalReq) (poisoned : List (Nat × Nat)) (black : List (Nat × Nat × Nat)), curMode s = 3 ∧ homeReady p s = true ∧ blockFree p r b s = true ∧ slotOf p r b s = some (fget (Reg.blkStatus r b) BlkStatus.blkCurSlot s) ∧ (getBlock r b s).readyAt ≤ s.now ∧ nextUnit (getPipe p s) = some (y, k) ∧ picAt p y.idx s = some y ∧ unitReady p y k s = true) ∧
    (∃ (s : State) (p : PipeId) (r : RegionId) (b : BlockId) (y : Pic) (k : Nat) (work : List LocalReq) (poisoned : List (Nat × Nat)) (black : List (Nat × Nat × Nat)), curMode s = 3 ∧ homeReady p s = true ∧ blockFree p r b s = true ∧ slotOf p r b s = some (fget (Reg.blkStatus r b) BlkStatus.blkCurSlot s) ∧ (getBlock r b s).readyAt ≤ s.now ∧ nextUnit (getPipe p s) = some (y, k) ∧ picAt p y.idx s = some y ∧ unitReady p y k s = true) ∧
    (∃ (s : State) (p : PipeId) (r : RegionId) (b : BlockId) (y : Pic) (q : Fin 2) (cavlc : Bool) (e : PipeEntry) (k : Nat) (coder : Nat), curMode s = 3 ∧ homeReady p s = true ∧ pipeEntry p s = some e ∧ (blocksInService e s).contains (8 * r.val + b.val) = true ∧ blkRole r b s = 1 ∧ (getRegion r s).stopped = false ∧ fbit (Reg.ropeStatus r b q) RopeStatus.ropeBusy s = false ∧ nextPart (getPipe p s) = some (y, k) ∧ coder = ropeCoder (codecOf e.pers) (if persDecodes e.pers then cavlc else (picParams p y s).fld 0x100 EncCodec.cavlc == 1)) ∧
    (∃ (s : State) (r : RegionId) (b : BlockId) (out : UnitIn) (y : Pic) (g : Nat) (i : Nat) (row : Nat) (col : Nat), ((getBlock r b s).running = some (g, i, row, col) ∧ (getBlock r b s).reactions = [] ∧ (getBlock r b s).requests = [] ∧ seqState r b s ≠ 4 ∧ picAt g i s = some y ∧ unitCan g r b row col y s = true) ∧ (pipeDecodes g s = true ∨ pipeDecodes g s = false ∧ ∀ q c z own, q = picParams g y s → c = codeUnit g y row col s → z = countUnit q y row col c → own = ownBytes q y row col c.raw → (storeBoth g own (if z.unitsDone = z.unitCount then tailUnits q z (z.bytes + own.length) else []).flatten s).1.isSome = true)) :=
  ⟨⟨(setPipe 0 { Pipe.init with pics := [{ Pic.init with idx := 4, rowCount := 2, parts := [(0, 1)] }] } (blocked 9 (enabled (composed 9 (up 3))))), 0, 0, 0, { Pic.init with idx := 4, rowCount := 2, parts := [(0, 1)] }, 0, [.sram 11 1 .belay 0 (some [5#8])], [], [], by decide +kernel⟩,
   ⟨(setPipe 0 { Pipe.init with pics := [{ Pic.init with idx := 4, rowCount := 2, cap := 1, sets := [], budgeted := true }], caps := [(1, { CapPic.init with whole := true, count := 1 })] } (blocked 2 (enabled (composed 2 (up 3))))), 0, 0, 0, { Pic.init with idx := 4, rowCount := 2, cap := 1, sets := [], budgeted := true }, 0, [], [], [(1, 2, 0)], by decide +kernel⟩,
   ⟨(setPipe 0 { Pipe.init with pics := [{ Pic.init with idx := 4, rowCount := 2, nparts := 2, parts := [(0, 9)] }] } (blocked 2 (enabled (composed 2 (up 3))))), 0, 0, 0, { Pic.init with idx := 4, rowCount := 2, nparts := 2, parts := [(0, 9)] }, 1, true, ⟨0, 0, 0, 2, 0, 64, 64, 5, 1, 2, 1, 0, 1, 0, 0, 0xFFFF, 100, [0]⟩, 1, (ropeCoder (codecOf 2) false), by decide +kernel⟩,
   ⟨(setBlock 0 0 { Block.init with running := some (0, 4, 0, 0) } (setPipe 0 { Pipe.init with pics := [{ Pic.init with idx := 4, rowCount := 2, parts := [(0, 1)], units := [(0, { UnitSt.init with block := 1 })] }] } (fput (Reg.seqStatus 0 0) SeqStatus.seqRoutine 1 (fput (Reg.seqStatus 0 0) SeqStatus.seqState 1 (blocked 9 (enabled (composed 9 (up 3)))))))), 0, 0, ⟨0, [], [], []⟩, { Pic.init with idx := 4, rowCount := 2, parts := [(0, 1)], units := [(0, { UnitSt.init with block := 1 })] }, 0, 4, 0, 0, by decide +kernel, .inl (by decide +kernel)⟩⟩

theorem test_meets_PictureCompletionUpdatesItsPipeline :
    (∃ (s : State) (p : PipeId) (y : Pic), ((getPipe p s).pics.find? (fun z => !z.complete) = some y) ∧ y.unitsDone = y.unitCount ∧ pipeDecodes p s = false) ∧
    (∃ (s : State) (p : PipeId) (y : Pic), ((getPipe p s).pics.find? (fun z => !z.complete) = some y) ∧ y.unitsDone = y.unitCount ∧ pipeDecodes p s = false) ∧
    (∃ (s : State) (p : PipeId) (y : Pic), ((getPipe p s).pics.find? (fun z => !z.complete) = some y) ∧ y.unitsDone = y.unitCount ∧ pipeDecodes p s = true ∧ (pipeEntry p s).isSome = true ∧ picAt p y.idx s = some y ∧ y.substituted = false ∧ y.stored = true ∧ y.bufs = []) :=
  ⟨⟨(setPipe 0 { Pipe.init with pics := [{ Pic.init with idx := 4, rowCount := 2, unitsDone := 2, intra := true, bytes := 10 }] } (blocked 2 (enabled (composed 2 (up 3))))), 0, { Pic.init with idx := 4, rowCount := 2, unitsDone := 2, intra := true, bytes := 10 }, by decide +kernel⟩,
   ⟨(setPipe 0 { Pipe.init with pics := [{ Pic.init with idx := 4, rowCount := 2, unitsDone := 2, intra := false, bytes := 10 }] } (blocked 2 (enabled (composed 2 (up 3))))), 0, { Pic.init with idx := 4, rowCount := 2, unitsDone := 2, intra := false, bytes := 10 }, by decide +kernel⟩,
   ⟨(setPipe 0 { Pipe.init with pics := [{ Pic.init with idx := 4, rowCount := 2, unitsDone := 2, stored := true, tainted := true }] } (blocked 9 (enabled (composed 9 (up 3))))), 0, { Pic.init with idx := 4, rowCount := 2, unitsDone := 2, stored := true, tainted := true }, by decide +kernel⟩⟩

theorem test_meets_SparesTestAndMove :
    (∃ (s : State) (r : RegionId) (b : BlockId) (c : Nat), (getBlock r b s).passDone = true ∧ atPictureBoundary r b s = true ∧ blkSpare r b s < 12 ∧ (((List.range 11).map fun i => (blkSpare r b s + 1 + i) % 12).find? (fun c => cellOk r b c s) = some c)) ∧
    (∃ (s : State) (r : RegionId) (b : BlockId) (c : Nat), (rgcState r s = 1 ∨ rgcState r s = 2) ∧ passTaken r b s = true ∧ c = (if (getBlock r b s).testing ≠ 0 then (getBlock r b s).testing - 1 else blkSpare r b s) ∧ c < 12) ∧
    (∃ (s : State) (r : RegionId) (b : BlockId) (c : Nat), (rgcState r s = 1 ∨ rgcState r s = 2) ∧ passTaken r b s = true ∧ c = (if (getBlock r b s).testing ≠ 0 then (getBlock r b s).testing - 1 else blkSpare r b s) ∧ c < 12) ∧
    (∃ (s : State) (r : RegionId) (b : BlockId) (c : Nat), (rgcState r s = 1 ∨ rgcState r s = 2) ∧ passTaken r b s = true ∧ c = (if (getBlock r b s).testing ≠ 0 then (getBlock r b s).testing - 1 else blkSpare r b s) ∧ c < 12 ∧ s.pwr.bypass = false ∧ entryLevel (.block r b) 4 s < 2) ∧
    (∃ (s : State) (r : RegionId) (b : BlockId) (c : Nat), (rgcState r s = 1 ∨ rgcState r s = 2) ∧ passTaken r b s = true ∧ c = (if (getBlock r b s).testing ≠ 0 then (getBlock r b s).testing - 1 else blkSpare r b s) ∧ c < 12 ∧ s.pwr.bypass = false ∧ entryLevel (.block r b) 4 s < 2) ∧
    (∃ (s : State) (r : RegionId) (b : BlockId), (getBlock r b s).selfTest = true ∧ (getBlock r b s).requests = [] ∧ seqState r b s ≠ 4) ∧
    (∃ (s : State) (r : RegionId) (b : BlockId), (getBlock r b s).selfTest = true ∧ (getBlock r b s).requests = [] ∧ seqState r b s ≠ 4) :=
  ⟨⟨(setBlock 0 0 { Block.init with passDone := true } (blocked 2 (enabled (composed 2 (up 3))))), 0, 0, 0, by decide +kernel⟩,
   ⟨{ (setBlock 0 0 { Block.init with testing := 0 } (blocked 2 (enabled (composed 2 (up 3))))) with now := 10 ^ 7 }, 0, 0, 11, by decide +kernel⟩,
   ⟨{ (setBlock 0 0 { Block.init with testing := 4 } (blocked 2 (enabled (composed 2 (up 3))))) with now := 10 ^ 7 }, 0, 0, 3, by decide +kernel⟩,
   ⟨{ (setBlock 0 0 { Block.init with testing := 0 } (blocked 2 (enabled (composed 2 (up 3))))) with now := 10 ^ 7 }, 0, 0, 11, by decide +kernel⟩,
   ⟨{ (setBlock 0 0 { Block.init with testing := 4 } (blocked 2 (enabled (composed 2 (up 3))))) with now := 10 ^ 7 }, 0, 0, 3, by decide +kernel⟩,
   ⟨(setBlock 0 0 { Block.init with selfTest := true } (blocked 2 (enabled (composed 2 (up 3))))), 0, 0, by decide +kernel⟩,
   ⟨(setBlock 0 0 { Block.init with selfTest := true } (blocked 2 (enabled (composed 2 (up 3))))), 0, 0, by decide +kernel⟩⟩

theorem test_meets_FaultsAreRecordedAckedAndInjected :
    (∃ (s : State) (c : Instr) (u : FaultUnit) (f : FaultIn), s.pwr.bypass = false ∧ ((∃ r b, c = .blockFault r b [f] 0 0 ∧ u = .block r b ∧ f.cls ≠ 10 ∧ falseMismatch r b f s = false) ∨ (∃ r, c = .regionFault r [f] 0 ∧ u = .region r ∧ f.unit ≠ 3 ∧ (getRegion r s).excluded = 0) ∨ c = .chipFault [f] .none 0 ∧ u = .chip) ∧ classOf u f.cls = true ∧ isL4 f.cls = false ∧ f.both = false ∧ entryLevel u f.cls s < 2) ∧
    (∃ (s : State) (c : Instr) (u : FaultUnit) (f : FaultIn), s.pwr.bypass = false ∧ ((∃ r b, c = .blockFault r b [f] 0 0 ∧ u = .block r b ∧ f.cls ≠ 10 ∧ falseMismatch r b f s = false) ∨ (∃ r, c = .regionFault r [f] 0 ∧ u = .region r ∧ f.unit ≠ 3 ∧ (getRegion r s).excluded = 0) ∨ c = .chipFault [f] .none 0 ∧ u = .chip) ∧ classOf u f.cls = true ∧ isL4 f.cls = false ∧ f.both = false ∧ entryLevel u f.cls s < 2) ∧
    (∃ (s : State) (u : FaultUnit) (d : DomId) (v : Word), HostMayWrite d (Reg.fltAck (faultBase u)) s) ∧
    (∃ (s : State) (u : FaultUnit) (d : DomId) (v : Word), HostMayWrite d (Reg.fltAck (faultBase u)) s) ∧
    (∃ (s : State) (u : FaultUnit) (c : Fin 64), fget (Reg.fltCtl (faultBase u)) FltCtl.autoAckS s ≠ 0 ∧ classOf u c = true ∧ lastFaultAt u c s + fget (Reg.fltCtl (faultBase u)) FltCtl.autoAckS s * cyclesPerSecond ≤ s.now) ∧
    (∃ (s : State) (u : FaultUnit) (d : DomId) (v : Word), HostMayWrite d (Reg.fltInject (faultBase u)) s ∧ curMode s ≠ 5 ∧ keyArmed s = true ∧ getF FltInject.injGo v = 1 ∧ getF FltInject.injClass v ≠ 0) ∧
    (∃ (s : State) (u : FaultUnit) (d : DomId) (v : Word), HostMayWrite d (Reg.fltInject (faultBase u)) s ∧ curMode s ≠ 5 ∧ keyArmed s = true ∧ getF FltInject.injGo v = 1 ∧ getF FltInject.injClass v ≠ 0) ∧
    (∃ (s : State) (u : FaultUnit) (j : Inj), smFind (unitKey u) s.injs = some j ∧ injDue u j s = true ∧ curMode s ≠ 5 ∧ classOf u j.cls = true ∧ isL4 j.cls = false ∧ j.cls ≠ 10 ∧ raiseLevel u j.cls j.level s < 2 ∧ (∀ r, u = .region r → (getRegion r s).excluded = 0)) ∧
    (∃ (s : State) (u : FaultUnit) (j : Inj), smFind (unitKey u) s.injs = some j ∧ injDue u j s = true ∧ curMode s ≠ 5 ∧ classOf u j.cls = true ∧ isL4 j.cls = false ∧ j.cls ≠ 10 ∧ raiseLevel u j.cls j.level s < 2 ∧ (∀ r, u = .region r → (getRegion r s).excluded = 0)) :=
  ⟨⟨(blocked 2 (enabled (composed 2 (up 3)))), (.blockFault 15 7 [⟨9, 3, false, none⟩] 0 0), (.block 15 7), ⟨9, 3, false, none⟩, by decide +kernel, .inl ⟨15, 7, rfl, rfl, by decide +kernel, by decide +kernel⟩, by decide +kernel⟩,
   ⟨(blocked 2 (enabled (composed 2 (up 3)))), (.chipFault [⟨0x23, 0, false, none⟩] .none 0), .chip, ⟨0x23, 0, false, none⟩, by decide +kernel, .inr (.inr ⟨rfl, rfl⟩), by decide +kernel⟩,
   ⟨(up 5), (.block 15 7), 0, 0x80000000#32, hmw (by decide +kernel)⟩,
   ⟨(up 5), (.block 15 7), 0, 0x3F#32, hmw (by decide +kernel)⟩,
   ⟨{ (fput (Reg.fltCtl (faultBase (.region 3))) FltCtl.autoAckS 1 (up 3)) with now := 10 ^ 12 }, (.region 3), 0x13, by decide +kernel⟩,
   ⟨(fput Reg.chipKeyState ChipKeyState.armed 1 (blocked 2 (enabled (composed 2 (up 3))))), (.block 0 0), 0, (BitVec.ofNat 32 (2 ^ 31 + 1 * 2 ^ 22 + 3 * 2 ^ 18)), hmw (by decide +kernel), by decide +kernel⟩,
   ⟨(fput Reg.chipKeyState ChipKeyState.armed 1 (blocked 2 (enabled (composed 2 (up 3))))), (.region 0), 0, (BitVec.ofNat 32 (2 ^ 31 + 0x11 * 2 ^ 22)), hmw (by decide +kernel), by decide +kernel⟩,
   ⟨{ (blocked 2 (enabled (composed 2 (up 3)))) with injs := [(17, ⟨0, 3, 2, 0, some 0⟩)] }, (.block 0 0), ⟨0, 3, 2, 0, some 0⟩, by decide +kernel⟩,
   ⟨{ (blocked 2 (enabled (composed 2 (up 3)))) with injs := [(1, ⟨0, 0x10, 1, 0, some 0⟩)] }, (.region 0), ⟨0, 0x10, 1, 0, some 0⟩, by decide +kernel⟩⟩

theorem test_meets_BelayAndStandbyKeepTheWork :
    (∃ (s : State) (r : RegionId) (b : BlockId) (work : List LocalReq) (p : Nat) (i : Nat) (row : Nat) (col : Nat), ((getBlock r b s).reactions.any (fun a => match a with | .rerun _ _ => true | .takeover => false) = true) ∧ (getBlock r b s).reactions.contains .takeover = false ∧ blkRole r b s = 1 ∧ seqState r b s ≠ 4 ∧ (getBlock r b s).running = some (p, i, row, col)) ∧
    (∃ (s : State) (r : RegionId) (b : BlockId) (work : List LocalReq) (p : Nat) (i : Nat) (row : Nat) (col : Nat), ((getBlock r b s).reactions.any (fun a => match a with | .rerun _ _ => true | .takeover => false) = true) ∧ (getBlock r b s).reactions.contains .takeover = false ∧ blkRole r b s = 1 ∧ seqState r b s ≠ 4 ∧ (getBlock r b s).running = some (p, i, row, col)) ∧
    (∃ (s : State) (r : RegionId) (b : BlockId) (v : Nat), (getBlock r b s).reactions.contains .takeover = true ∧ blkRole r b s = 1 ∧ seqState r b s ≠ 4 ∧ standbyOf r s = some v) :=
  ⟨⟨(setBlock 0 0 { Block.init with reactions := [.rerun 1 2], running := some (0, 4, 1, 0), spareWas := 3 } (setPipe 0 { Pipe.init with pics := [{ Pic.init with idx := 4, rowCount := 2, units := [(1, { UnitSt.init with block := 1 })] }] } (fput (Reg.seqStatus 0 0) SeqStatus.seqRoutine 1 (fput (Reg.seqStatus 0 0) SeqStatus.seqState 1 (blocked 2 (enabled (composed 2 (up 3)))))))), 0, 0, [], 0, 4, 1, 0, by decide +kernel⟩,
   ⟨(setRegion 0 { RegionSt.init with ckpts := [(0, some ⟨(0, 4, 1, 0), [], RowCtl.init, false, ⟨510, 7, 2, [3], [4], 9, [5], 1⟩, true⟩), (1, some ⟨(0, 4, 1, 0), [], RowCtl.init, false, ⟨510, 7, 2, [3], [4], 9, [5], 1⟩, true⟩)], patch := [7#32] } (setBlock 0 0 { Block.init with reactions := [.rerun 1 2], running := some (0, 4, 1, 0), spareWas := 3 } (setPipe 0 { Pipe.init with pics := [{ Pic.init with idx := 4, rowCount := 2, parts := [(0, 1)], units := [(0, { UnitSt.init with done := true }), (1, { UnitSt.init with block := 1 })] }] } (fput (Reg.seqStatus 0 0) SeqStatus.seqRoutine 1 (fput (Reg.seqStatus 0 0) SeqStatus.seqState 1 (blocked 2 (enabled (composed 2 (up 3))))))))), 0, 0, [], 0, 4, 1, 0, by decide +kernel⟩,
   ⟨(setBlock 0 0 { Block.init with reactions := [.rerun 1 2, .takeover], running := some (0, 4, 1, 0) } (setPipe 0 { Pipe.init with pics := [{ Pic.init with idx := 4, rowCount := 2, units := [(1, { UnitSt.init with block := 1 })] }] } (fput (Reg.rgcStatus 0) RgcStatus.rgcStandby 1 (fput (Reg.blkStatus 0 1) BlkStatus.blkRole 2 (fput (Reg.seqStatus 0 0) SeqStatus.seqRoutine 1 (fput (Reg.seqStatus 0 0) SeqStatus.seqState 1 (blocked 2 (enabled (composed 2 (up 3)))))))))), 0, 0, 1, by decide +kernel⟩⟩

theorem test_meets_CaptureAndPictureData :
    (∃ (s : State) (p : PipeId) (f2 : Bool), captures p s = true ∧ secondOfFrame p f2 s = false ∧ (hasArmEntries p s = false ∨ (getPipe p s).capArmed = true)) ∧
    (∃ (s : State) (p : PipeId) (f2 : Bool), captures p s = true ∧ secondOfFrame p f2 s = false ∧ (hasArmEntries p s = false ∨ (getPipe p s).capArmed = true)) ∧
    (∃ (s : State) (p : PipeId) (f2 : Bool), secondOfFrame p f2 s = true) ∧
    (∃ (s : State) (p : PipeId) (f2 : Bool) (y : Nat) (x : Nat) (l : LineIn), captures p s = true ∧ (getPipe p s).capLive ≠ 0 ∧ y < (capParams p ((getPipe p s).capLive - 1) s).height ∧ (getCap ((getPipe p s).capLive - 1) (getPipe p s)).gaveUp.contains y = false) ∧
    (∃ (s : State) (p : PipeId) (f2 : Bool) (row : Nat) (y : Pic) (l : List Nat), openPic p s = some y ∧ subPicture p s = true ∧ pipeDecodes p s = false ∧ y.complete = false ∧ l = linesMissing (capParams p y.cap s).width (getCap y.cap (getPipe p s)) (rowLines (picParams p y s) (pipeChroma p s) row).1 (rowLines (picParams p y s) (pipeChroma p s) row).2 ∧ l ≠ []) ∧
    (∃ (s : State) (p : PipeId) (f2 : Bool) (e : PipeEntry) (cv : Carve), (pipeEntry p s = some e ∧ captures p s = true ∧ e.flags / 8 % 2 = 1 ∧ secondOfFrame p f2 s = false) ∧ (∀ w, hostLine w s = none) ∧ (hasArmEntries p s = false ∨ (getPipe p s).capArmed = true) ∧ s.comp.carves[e.srcCarve]? = some cv ∧ capBusy (getPipe p s).capNext (getPipe p s) = false) ∧
    (∃ (s : State) (p : PipeId) (f2 : Bool) (e : PipeEntry) (cv : Carve), (pipeEntry p s = some e ∧ captures p s = true ∧ e.flags / 8 % 2 = 1 ∧ secondOfFrame p f2 s = false) ∧ (∀ w, hostLine w s = none) ∧ (hasArmEntries p s = false ∨ (getPipe p s).capArmed = true) ∧ s.comp.carves[e.srcCarve]? = some cv ∧ capBusy (getPipe p s).capNext (getPipe p s) = false) ∧
    (∃ (s : State) (p : PipeId) (h : HostRead) (q : Params) (u : State), (getPipe p s).mapPending = true ∧ (q = (match (getPipe p s).pics.find? fun y => !y.mapReady with | some y => picParams p y s | none => paramsOf p 0 s)) ∧ (q.fld 0x580 RoiMapCtl.mapSrc = 1 → s.pwr.linkUp = true) ∧ (q.fld 0x580 RoiMapCtl.mapSrc = 0 → rangeWaits (mapBase q) (mapBytes q) s = false) ∧ u = (if q.fld 0x580 RoiMapCtl.mapSrc = 1 then { s with outbox := s.outbox ++ [.hostRead (owner s glvDma (q.fld 0x580 RoiMapCtl.mapDma)) (mapBase q) (mapBytes q) false] } else s)) ∧
    (∃ (s : State) (p : PipeId) (h : HostRead) (q : Params) (u : State), (getPipe p s).mapPending = true ∧ (q = (match (getPipe p s).pics.find? fun y => !y.mapReady with | some y => picParams p y s | none => paramsOf p 0 s)) ∧ (q.fld 0x580 RoiMapCtl.mapSrc = 1 → s.pwr.linkUp = true) ∧ (q.fld 0x580 RoiMapCtl.mapSrc = 0 → rangeWaits (mapBase q) (mapBytes q) s = false) ∧ u = (if q.fld 0x580 RoiMapCtl.mapSrc = 1 then { s with outbox := s.outbox ++ [.hostRead (owner s glvDma (q.fld 0x580 RoiMapCtl.mapDma)) (mapBase q) (mapBytes q) false] } else s)) ∧
    (∃ (s : State) (p : PipeId) (c : CodedPic), (getPipe p s).lateFor = none ∧ (getPipe p s).coded.getLast? = some c) ∧
    (∃ (s : State) (p : PipeId) (y : Pic), ((getPipe p s).pics.find? (fun z => !z.complete && !z.whole) = some y) ∧ subPicture p s = true ∧ pipeDecodes p s = true) :=
  ⟨⟨(enabled (composed 2 (up 3))), 0, false, by decide +kernel⟩,
   ⟨(setPipe 0 { Pipe.init with capNext := 1, capCount := 9 } (fput (Reg.rckDomCtl 0) RckDomCtl.domInterlaced 1 (enabled (composed 2 (up 3))))), 0, true, by decide +kernel⟩,
   ⟨(wr (Reg.encCodec (encActive 0)) 0xFFFFFFFF#32 (fput (Reg.rckDomCtl 0) RckDomCtl.domInterlaced 1 (enabled (composed 2 (up 3))))), 0, true, by decide +kernel⟩,
   ⟨(setPipe 0 { Pipe.init with capLive := 1 } (wr (Reg.encSize (encActive 0)) (BitVec.ofNat 32 (64 * 65536 + 64)) (enabled (composed 2 (up 3))))), 0, false, 63, 0, ⟨[1], [2], [3]⟩, by decide +kernel⟩,
   ⟨(setPipe 0 { Pipe.init with pics := [{ Pic.init with idx := 4, cap := 0, rowCount := 2, sets := [(0x104, 0x00400040#32)] }] } ((fun x : State => { x with comp := { x.comp with pipes := [⟨0, 0, 0, 2, 0, 64, 64, 5, 1, 2, 1, 4, 1, 0, 0, 0xFFFF, 100, [0]⟩] } }) (wr (Reg.encSize (encActive 0)) (BitVec.ofNat 32 (64 * 65536 + 64)) (enabled (composed 2 (up 3)))))), 0, false, 1, { Pic.init with idx := 4, cap := 0, rowCount := 2, sets := [(0x104, 0x00400040#32)] }, (linesMissing (capParams 0 0 (setPipe 0 { Pipe.init with pics := [{ Pic.init with idx := 4, cap := 0, rowCount := 2, sets := [(0x104, 0x00400040#32)] }] } ((fun x : State => { x with comp := { x.comp with pipes := [⟨0, 0, 0, 2, 0, 64, 64, 5, 1, 2, 1, 4, 1, 0, 0, 0xFFFF, 100, [0]⟩] } }) (wr (Reg.encSize (encActive 0)) (BitVec.ofNat 32 (64 * 65536 + 64)) (enabled (composed 2 (up 3))))))).width (getCap 0 (getPipe 0 (setPipe 0 { Pipe.init with pics := [{ Pic.init with idx := 4, cap := 0, rowCount := 2, sets := [(0x104, 0x00400040#32)] }] } ((fun x : State => { x with comp := { x.comp with pipes := [⟨0, 0, 0, 2, 0, 64, 64, 5, 1, 2, 1, 4, 1, 0, 0, 0xFFFF, 100, [0]⟩] } }) (wr (Reg.encSize (encActive 0)) (BitVec.ofNat 32 (64 * 65536 + 64)) (enabled (composed 2 (up 3)))))))) (rowLines (picParams 0 { Pic.init with idx := 4, cap := 0, rowCount := 2, sets := [(0x104, 0x00400040#32)] } (setPipe 0 { Pipe.init with pics := [{ Pic.init with idx := 4, cap := 0, rowCount := 2, sets := [(0x104, 0x00400040#32)] }] } ((fun x : State => { x with comp := { x.comp with pipes := [⟨0, 0, 0, 2, 0, 64, 64, 5, 1, 2, 1, 4, 1, 0, 0, 0xFFFF, 100, [0]⟩] } }) (wr (Reg.encSize (encActive 0)) (BitVec.ofNat 32 (64 * 65536 + 64)) (enabled (composed 2 (up 3))))))) (pipeChroma 0 (setPipe 0 { Pipe.init with pics := [{ Pic.init with idx := 4, cap := 0, rowCount := 2, sets := [(0x104, 0x00400040#32)] }] } ((fun x : State => { x with comp := { x.comp with pipes := [⟨0, 0, 0, 2, 0, 64, 64, 5, 1, 2, 1, 4, 1, 0, 0, 0xFFFF, 100, [0]⟩] } }) (wr (Reg.encSize (encActive 0)) (BitVec.ofNat 32 (64 * 65536 + 64)) (enabled (composed 2 (up 3))))))) 1).1 (rowLines (picParams 0 { Pic.init with idx := 4, cap := 0, rowCount := 2, sets := [(0x104, 0x00400040#32)] } (setPipe 0 { Pipe.init with pics := [{ Pic.init with idx := 4, cap := 0, rowCount := 2, sets := [(0x104, 0x00400040#32)] }] } ((fun x : State => { x with comp := { x.comp with pipes := [⟨0, 0, 0, 2, 0, 64, 64, 5, 1, 2, 1, 4, 1, 0, 0, 0xFFFF, 100, [0]⟩] } }) (wr (Reg.encSize (encActive 0)) (BitVec.ofNat 32 (64 * 65536 + 64)) (enabled (composed 2 (up 3))))))) (pipeChroma 0 (setPipe 0 { Pipe.init with pics := [{ Pic.init with idx := 4, cap := 0, rowCount := 2, sets := [(0x104, 0x00400040#32)] }] } ((fun x : State => { x with comp := { x.comp with pipes := [⟨0, 0, 0, 2, 0, 64, 64, 5, 1, 2, 1, 4, 1, 0, 0, 0xFFFF, 100, [0]⟩] } }) (wr (Reg.encSize (encActive 0)) (BitVec.ofNat 32 (64 * 65536 + 64)) (enabled (composed 2 (up 3))))))) 1).2), by decide +kernel⟩,
   ⟨(fun x : State => { x with comp := { x.comp with pipes := [⟨0, 0, 0, 2, 0, 64, 64, 5, 1, 2, 1, 8, 1, 0, 0, 0xFFFF, 100, [0]⟩] } }) (enabled (composed 2 (up 3))), 0, false, ⟨0, 0, 0, 2, 0, 64, 64, 5, 1, 2, 1, 8, 1, 0, 0, 0xFFFF, 100, [0]⟩, ⟨2, 0, 0, 0, 0, 1⟩, by decide +kernel, noLine (by decide +kernel), by decide +kernel⟩,
   ⟨(setPipe 0 { Pipe.init with capNext := 1 } (wr (Reg.encSrc (encActive 0)) 0xFFFFFFFF#32 ((fun x : State => { x with comp := { x.comp with pipes := [⟨0, 0, 0, 2, 0, 64, 64, 5, 1, 2, 1, 8, 1, 0, 0, 0xFFFF, 100, [0]⟩] } }) (enabled (composed 2 (up 3)))))), 0, false, ⟨0, 0, 0, 2, 0, 64, 64, 5, 1, 2, 1, 8, 1, 0, 0, 0xFFFF, 100, [0]⟩, ⟨2, 0, 0, 0, 0, 1⟩, by decide +kernel, noLine (by decide +kernel), by decide +kernel⟩,
   ⟨(setPipe 0 { Pipe.init with mapPending := true } (fput (Reg.roiMapCtl (roiActive 0)) RoiMapCtl.mapSrc 1 (wr (Reg.encSize (encActive 0)) (BitVec.ofNat 32 (64 * 65536 + 64)) (enabled (composed 2 (up 3)))))), 0, (.data [1#8, 2#8]), (paramsOf 0 0 (setPipe 0 { Pipe.init with mapPending := true } (fput (Reg.roiMapCtl (roiActive 0)) RoiMapCtl.mapSrc 1 (wr (Reg.encSize (encActive 0)) (BitVec.ofNat 32 (64 * 65536 + 64)) (enabled (composed 2 (up 3))))))), { (setPipe 0 { Pipe.init with mapPending := true } (fput (Reg.roiMapCtl (roiActive 0)) RoiMapCtl.mapSrc 1 (wr (Reg.encSize (encActive 0)) (BitVec.ofNat 32 (64 * 65536 + 64)) (enabled (composed 2 (up 3)))))) with outbox := (setPipe 0 { Pipe.init with mapPending := true } (fput (Reg.roiMapCtl (roiActive 0)) RoiMapCtl.mapSrc 1 (wr (Reg.encSize (encActive 0)) (BitVec.ofNat 32 (64 * 65536 + 64)) (enabled (composed 2 (up 3)))))).outbox ++ [.hostRead (owner (setPipe 0 { Pipe.init with mapPending := true } (fput (Reg.roiMapCtl (roiActive 0)) RoiMapCtl.mapSrc 1 (wr (Reg.encSize (encActive 0)) (BitVec.ofNat 32 (64 * 65536 + 64)) (enabled (composed 2 (up 3)))))) glvDma ((paramsOf 0 0 (setPipe 0 { Pipe.init with mapPending := true } (fput (Reg.roiMapCtl (roiActive 0)) RoiMapCtl.mapSrc 1 (wr (Reg.encSize (encActive 0)) (BitVec.ofNat 32 (64 * 65536 + 64)) (enabled (composed 2 (up 3))))))).fld 0x580 RoiMapCtl.mapDma)) (mapBase (paramsOf 0 0 (setPipe 0 { Pipe.init with mapPending := true } (fput (Reg.roiMapCtl (roiActive 0)) RoiMapCtl.mapSrc 1 (wr (Reg.encSize (encActive 0)) (BitVec.ofNat 32 (64 * 65536 + 64)) (enabled (composed 2 (up 3)))))))) (mapBytes (paramsOf 0 0 (setPipe 0 { Pipe.init with mapPending := true } (fput (Reg.roiMapCtl (roiActive 0)) RoiMapCtl.mapSrc 1 (wr (Reg.encSize (encActive 0)) (BitVec.ofNat 32 (64 * 65536 + 64)) (enabled (composed 2 (up 3)))))))) false] }, by decide +kernel⟩,
   ⟨(setPipe 0 { Pipe.init with mapPending := true, pics := [{ { Pic.init with idx := 4, cap := 0, rowCount := 2, sets := [(0x104, 0x00400040#32)] } with mapReady := false }] } (wr (Reg.encSize (encActive 0)) (BitVec.ofNat 32 (64 * 65536 + 64)) (enabled (composed 2 (up 3))))), 0, .error, (picParams 0 { { Pic.init with idx := 4, cap := 0, rowCount := 2, sets := [(0x104, 0x00400040#32)] } with mapReady := false } (setPipe 0 { Pipe.init with mapPending := true, pics := [{ { Pic.init with idx := 4, cap := 0, rowCount := 2, sets := [(0x104, 0x00400040#32)] } with mapReady := false }] } (wr (Reg.encSize (encActive 0)) (BitVec.ofNat 32 (64 * 65536 + 64)) (enabled (composed 2 (up 3)))))), (setPipe 0 { Pipe.init with mapPending := true, pics := [{ { Pic.init with idx := 4, cap := 0, rowCount := 2, sets := [(0x104, 0x00400040#32)] } with mapReady := false }] } (wr (Reg.encSize (encActive 0)) (BitVec.ofNat 32 (64 * 65536 + 64)) (enabled (composed 2 (up 3))))), by decide +kernel⟩,
   ⟨(setPipe 0 { Pipe.init with coded := [⟨[⟨0, 0, 5, true⟩], true, some 3, []⟩, ⟨[⟨1, 0, 5, true⟩], false, none, []⟩] } (enabled (composed 9 (up 3)))), 0, ⟨[⟨1, 0, 5, true⟩], false, none, []⟩, by decide +kernel⟩,
   ⟨(setPipe 0 { Pipe.init with pics := [{ Pic.init with idx := 65540, whole := false }] } ((fun x : State => { x with comp := { x.comp with pipes := [⟨0, 0, 0, 9, 0, 64, 64, 5, 1, 2, 1, 4, 1, 0, 0, 0xFFFF, 100, [0]⟩] } }) (enabled (composed 9 (up 3))))), 0, { Pic.init with idx := 65540, whole := false }, by decide +kernel⟩⟩

theorem test_meets_ParametersAndRecords :
    (∃ (s : State) (d : DomId) (p : PipeId) (set : Fin 3) (o : Fin 64) (v : Word) (n : RegName), curMode s ≠ 5 ∧ HostMayWrite d (setOffset p set true o) s ∧ (regAt (fun g => pipeDecodes g s) (setOffset p set true o) = some (n, true))) ∧
    (∃ (s : State) (d : DomId) (p : PipeId) (set : Fin 3) (o : Fin 64) (v : Word) (n : RegName), curMode s ≠ 5 ∧ HostMayWrite d (setOffset p set true o) s ∧ (regAt (fun g => pipeDecodes g s) (setOffset p set true o) = some (n, true))) ∧
    (∃ (s : State) (d : DomId) (p : PipeId) (set : Fin 3) (o : Fin 64) (v : Word) (n : RegName), curMode s ≠ 5 ∧ HostMayWrite d (setOffset p set false o) s ∧ (regAt (fun g => pipeDecodes g s) (setOffset p set false o) = some (n, false)) ∧ hasClass (regFields n) isHwu = true) ∧
    (∃ (s : State) (d : DomId) (p : PipeId), curMode s ≠ 5 ∧ HostMayWrite d (Reg.pipShadowPending p) s) ∧
    (∃ (s : State) (p : PipeId) (e : PipeEntry) (r : List Byte) (rest : List (List Byte)) (w : Nat) (o : Nat) (used : Nat) (c : Carve), ((getPipe p s).recs = r :: rest ∧ pipeEntry p s = some e ∧ curMode s ≠ 5 ∧ w = (rd (Reg.pipRecWr p) s).toNat ∧ o = w % ringSize p s ∧ used = (w + 2 ^ 32 - (rd (Reg.pipRecRd p) s).toNat) % 2 ^ 32 ∧ o + r.length ≤ ringSize p s ∧ used + r.length ≤ ringSize p s ∧ (getPipe p s).recGap = false ∧ e.recCarve ≠ 0xFFFF ∧ s.comp.carves[e.recCarve]? = some c ∧ ringWaits p s = false) ∧ Canonical s) ∧
    (∃ (s : State) (p : PipeId) (e : PipeEntry) (r : List Byte) (rest : List (List Byte)) (w : Nat) (o : Nat) (used : Nat), (getPipe p s).recs = r :: rest ∧ pipeEntry p s = some e ∧ curMode s ≠ 5 ∧ w = (rd (Reg.pipRecWr p) s).toNat ∧ o = w % ringSize p s ∧ used = (w + 2 ^ 32 - (rd (Reg.pipRecRd p) s).toNat) % 2 ^ 32 ∧ o + r.length ≤ ringSize p s ∧ used + r.length ≤ ringSize p s ∧ (getPipe p s).recGap = false ∧ e.recCarve = 0xFFFF ∧ s.pwr.linkUp = true) ∧
    (∃ (s : State) (p : PipeId) (e : PipeEntry) (r : List Byte) (rest : List (List Byte)) (w : Nat) (o : Nat) (used : Nat), (getPipe p s).recs = r :: rest ∧ pipeEntry p s = some e ∧ curMode s ≠ 5 ∧ w = (rd (Reg.pipRecWr p) s).toNat ∧ o = w % ringSize p s ∧ used = (w + 2 ^ 32 - (rd (Reg.pipRecRd p) s).toNat) % 2 ^ 32 ∧ o + r.length ≤ ringSize p s ∧ ringSize p s < used + r.length ∧ (e.recCarve ≠ 0xFFFF ∨ s.pwr.linkUp = true) ∧ ringWaits p s = false) ∧
    (∃ (s : State) (p : PipeId) (e : PipeEntry) (r : List Byte) (rest : List (List Byte)) (w : Nat) (o : Nat) (used : Nat), (getPipe p s).recs = r :: rest ∧ pipeEntry p s = some e ∧ curMode s ≠ 5 ∧ w = (rd (Reg.pipRecWr p) s).toNat ∧ o = w % ringSize p s ∧ used = (w + 2 ^ 32 - (rd (Reg.pipRecRd p) s).toNat) % 2 ^ 32 ∧ o + r.length ≤ ringSize p s ∧ ringSize p s < used + r.length ∧ (e.recCarve ≠ 0xFFFF ∨ s.pwr.linkUp = true) ∧ ringWaits p s = false) :=
  ⟨⟨(enabled (composed 2 (up 3))), 0, 0, 0, 0, 0xFFFFFFFF#32, .encCodec, by decide +kernel, hmw (by decide +kernel), by decide +kernel⟩,
   ⟨(enabled (composed 2 (up 3))), 0, 0, 2, 1, 0xFFFFFFFF#32, .roiRectY, by decide +kernel, hmw (by decide +kernel), by decide +kernel⟩,
   ⟨(enabled (composed 2 (up 3))), 0, 0, 0, 7, 0xFFFFFFFF#32, ((regAt (fun g => pipeDecodes g (enabled (composed 2 (up 3)))) (setOffset 0 0 false 7)).getD (.encCodec, false)).1, by decide +kernel, hmw (by decide +kernel), by decide +kernel⟩,
   ⟨(fput (Reg.pipShadowPending 0) PipShadowPending.pending 1 (enabled (composed 2 (up 3)))), 0, 0, by decide +kernel, hmw (by decide +kernel)⟩,
   ⟨(wr (Reg.pipRecWr 0) 0x10010#32 (wr (Reg.pipRecRd 0) 0x8000#32 (setPipe 0 { Pipe.init with recs := [[1#8, 2#8, 3#8], [4#8]], recGap := false } ((fun x : State => { x with comp := { x.comp with pipes := [⟨0, 0, 0, 2, 0, 64, 64, 5, 1, 2, 1, 0, 1, 0, 0, 1, 100, [0]⟩] } }) (enabled (composed 2 (up 3))))))), 0, ⟨0, 0, 0, 2, 0, 64, 64, 5, 1, 2, 1, 0, 1, 0, 0, 1, 100, [0]⟩, [1#8, 2#8, 3#8], [[4#8]], 0x10010, 0x10, 0x8010, ⟨3, 0, 0, 0, 1, 1⟩, by decide +kernel, ⟨by decide +kernel, by decide +kernel⟩⟩,
   ⟨(wr (Reg.pipRecWr 0) 0xFFFF#32 (wr (Reg.pipRecRd 0) 0x8000#32 (setPipe 0 { Pipe.init with recs := [[1#8], [4#8]], recGap := false } (enabled (composed 2 (up 3)))))), 0, ⟨0, 0, 0, 2, 0, 64, 64, 5, 1, 2, 1, 0, 1, 0, 0, 0xFFFF, 100, [0]⟩, [1#8], [[4#8]], 0xFFFF, 0xFFFF, 0x7FFF, by decide +kernel⟩,
   ⟨(wr (Reg.pipRecWr 0) 0x10010#32 (wr (Reg.pipRecRd 0) 0x10#32 (setPipe 0 { Pipe.init with recs := [[1#8, 2#8, 3#8], [4#8]], recGap := false } (enabled (composed 2 (up 3)))))), 0, ⟨0, 0, 0, 2, 0, 64, 64, 5, 1, 2, 1, 0, 1, 0, 0, 0xFFFF, 100, [0]⟩, [1#8, 2#8, 3#8], [[4#8]], 0x10010, 0x10, 0x10000, by decide +kernel⟩,
   ⟨(wr (Reg.pipRecWr 0) 0x10010#32 (wr (Reg.pipRecRd 0) 0x10#32 (setPipe 0 { Pipe.init with recs := [[1#8, 2#8, 3#8], [4#8]], recGap := true } (enabled (composed 2 (up 3)))))), 0, ⟨0, 0, 0, 2, 0, 64, 64, 5, 1, 2, 1, 0, 1, 0, 0, 0xFFFF, 100, [0]⟩, [1#8, 2#8, 3#8], [[4#8]], 0x10010, 0x10, 0x10000, by decide +kernel⟩⟩

theorem test_meets_PipelinesAndBudgets :
    (∃ (s : State) (d : DomId) (p : PipeId) (v : Word), HostMayWrite d (Reg.pipCtl p) s ∧ curMode s ≠ 5 ∧ pipeEnabled p s = false ∧ selftestHolds p s = false ∧ shadowPending p s = false ∧ (enableCheck p (fput (Reg.pipCtl p) PipCtl.picIrq (getF PipCtl.picIrq (putF PipCtl.enable v 1)) s)).1 = 0) ∧
    (∃ (s : State) (d : DomId) (p : PipeId) (v : Word), HostMayWrite d (Reg.pipCtl p) s ∧ curMode s ≠ 5 ∧ pipeEnabled p s = false ∧ selftestHolds p s = false ∧ shadowPending p s = false ∧ (enableCheck p (fput (Reg.pipCtl p) PipCtl.picIrq (getF PipCtl.picIrq (putF PipCtl.enable v 1)) s)).1 ≠ 0) ∧
    (∃ (s : State) (d : DomId) (p : PipeId) (v : Word), HostMayWrite d (Reg.pipCtl p) s ∧ curMode s ≠ 5 ∧ pipeEnabled p s = false ∧ selftestHolds p s = false ∧ shadowPending p s = false ∧ (enableCheck p (fput (Reg.pipCtl p) PipCtl.picIrq (getF PipCtl.picIrq (putF PipCtl.enable v 1)) s)).1 ≠ 0) ∧
    (∃ (s : State) (d : DomId) (p : PipeId) (v : Word), HostMayWrite d (Reg.pipCtl p) s ∧ curMode s ≠ 5 ∧ pipeEnabled p s = true) ∧
    (∃ (s : State) (d : DomId) (p : PipeId) (v : Word), HostMayWrite d (Reg.pipCtl p) s ∧ curMode s ≠ 5 ∧ pipeEnabled p s = true) ∧
    (∃ (s : State) (d : DomId) (p : PipeId) (v : Word), HostMayWrite d (Reg.pipBudget p) s ∧ curMode s ≠ 5) ∧
    (∃ (s : State) (d : DomId) (p : PipeId) (v : Word), HostMayWrite d (Reg.pipBudget p) s ∧ curMode s ≠ 5) ∧
    (∃ (s : State) (r : RegionId) (demands : List (PipeId × Nat × Nat)) (e : PipeEntry) (want : Nat) (belay : Nat) (k : Nat) (n : Nat), k = 1024 * r.val + e.pipe ∧ ((regionPipes r s).filter (fun e => pipeLive e.pipe s) = [e]) ∧ 0 < e.weight ∧ e.pipe < 1024 ∧ agentQueue r s = [] ∧ (belay = smGet 0 k s.fs.belayWants + demands.foldl (fun n d => if d.1.val = e.pipe then n + d.2.1 else n) 0) ∧ (want = smGet 0 k s.fs.wants + demands.foldl (fun n d => if d.1.val = e.pipe then n + d.2.2 else n) 0) ∧ smGet 0 (agentKey r none) s.fs.belayWants = 0 ∧ n = min belay (budgetOf e.pipe s)) ∧
    (∃ (s : State) (r : RegionId) (demands : List (PipeId × Nat × Nat)) (e : PipeEntry) (want : Nat) (belay : Nat) (k : Nat) (n : Nat), k = 1024 * r.val + e.pipe ∧ ((regionPipes r s).filter (fun e => pipeLive e.pipe s) = [e]) ∧ 0 < e.weight ∧ e.pipe < 1024 ∧ agentQueue r s = [] ∧ (belay = smGet 0 k s.fs.belayWants + demands.foldl (fun n d => if d.1.val = e.pipe then n + d.2.1 else n) 0) ∧ (want = smGet 0 k s.fs.wants + demands.foldl (fun n d => if d.1.val = e.pipe then n + d.2.2 else n) 0) ∧ smGet 0 (agentKey r none) s.fs.belayWants = 0 ∧ n = min belay (budgetOf e.pipe s)) :=
  ⟨⟨(ready (composed 9 (up 3))), 0, 0, 0xFFFFFFFF#32, hmw (by decide +kernel), by decide +kernel⟩,
   ⟨(composed 2 (up 3)), 0, 0, 0xFFFFFFFF#32, hmw (by decide +kernel), by decide +kernel⟩,
   ⟨(composed 9 (up 4)), 0, 0, 0xFFFFFFFF#32, hmw (by decide +kernel), by decide +kernel⟩,
   ⟨(enabled (composed 2 (up 3))), 0, 0, 0#32, hmw (by decide +kernel), by decide +kernel⟩,
   ⟨(setPipe 0 { Pipe.init with pics := [{ Pic.init with idx := 4 }] } (enabled (composed 2 (up 3)))), 0, 0, 0#32, hmw (by decide +kernel), by decide +kernel⟩,
   ⟨(enabled (composed 2 (up 3))), 0, 0, 0#32, hmw (by decide +kernel), by decide +kernel⟩,
   ⟨(composed 2 (up 3)), 0, 0, 5#32, hmw (by decide +kernel), by decide +kernel⟩,
   ⟨{ (fput (Reg.pipBudget 0) PipBudget.budget 12 (enabled (composed 2 (up 3)))) with fs := { (enabled (composed 2 (up 3))).fs with wants := [(0, 3)], belayWants := [(0, 1)] } }, 0, [(0, 5, 9), (1, 1, 7)], ⟨0, 0, 0, 2, 0, 64, 64, 5, 1, 2, 1, 0, 1, 0, 0, 0xFFFF, 100, [0]⟩, 12, 6, 0, 6, by decide +kernel⟩,
   ⟨(fput (Reg.pipBudget 0) PipBudget.budget 12 (enabled (composed 2 (up 3)))), 0, [(0, 1, 2)], ⟨0, 0, 0, 2, 0, 64, 64, 5, 1, 2, 1, 0, 1, 0, 0, 0xFFFF, 100, [0]⟩, 2, 1, 0, 1, by decide +kernel⟩⟩

theorem test_meets_MemoryRequestsAreQueuedAndServed :
    (∃ (s : State) (by_ : MemBy) (m : MemReqIn) (g : Place) (f : Flit), g = placeOf s (64 * m.word) ∧ f = memFlit by_ m s ∧ (m.word < hbmSize / 64 ∧ by_.agent = none) ∧ MeshIdle g.stack s ∧ ctlAccepts g.stack s = true ∧ memState g.stack s ≠ 2 ∧ (getBank (getPseudo g.stack g.channel g.pseudo s) g.bank).queue.length < 8 ∧ (∀ e ∈ (getMemChannel g.stack g.channel s).input, e.1 ≠ g.pseudo ∨ e.2.1 ≠ g.bank)) ∧
    (∃ (s : State) (by_ : MemBy) (m : MemReqIn) (g : Place) (f : Flit), g = placeOf s (64 * m.word) ∧ f = memFlit by_ m s ∧ (m.word < hbmSize / 64 ∧ by_.agent = none) ∧ MeshIdle g.stack s ∧ ctlAccepts g.stack s = true ∧ memState g.stack s = 2) ∧
    (∃ (s : State) (by_ : MemBy) (m : MemReqIn) (g : Place) (f : Flit), g = placeOf s (64 * m.word) ∧ f = memFlit by_ m s ∧ m.word < hbmSize / 64 ∧ by_.agent = none ∧ (getMesh g.stack s).asking = [] ∧ ctlAccepts g.stack s = false ∧ s.fs.meshCredits ≤ smGet 0 m.cls (getMesh g.stack s).used) ∧
    (∃ (s : State) (by_ : MemBy) (m : MemReqIn) (g : Place) (f : Flit) (r : RegionId) (p : PipeId), g = placeOf s (64 * m.word) ∧ f = memFlit by_ m s ∧ m.word < hbmSize / 64 ∧ by_.agent = some (r, some p) ∧ (∀ x ∈ agentQueue r s, x.pipe ≠ some p.val) ∧ reqCost f.req ≤ agentLeft r (some p) s) ∧
    (∃ (s : State) (by_ : MemBy) (m : MemReqIn) (g : Place) (f : Flit) (r : RegionId) (p : PipeId), g = placeOf s (64 * m.word) ∧ f = memFlit by_ m s ∧ m.word < hbmSize / 64 ∧ by_.agent = some (r, some p) ∧ (∀ x ∈ agentQueue r s, x.pipe ≠ some p.val) ∧ reqCost f.req ≤ agentLeft r (some p) s) ∧
    (∃ (s : State) (by_ : MemBy) (m : MemReqIn) (g : Place) (f : Flit) (r : RegionId) (p : PipeId), g = placeOf s (64 * m.word) ∧ f = memFlit by_ m s ∧ m.word < hbmSize / 64 ∧ by_.agent = some (r, some p) ∧ (∀ x ∈ agentQueue r s, x.pipe ≠ some p.val) ∧ agentLeft r (some p) s < reqCost f.req) ∧
    (∃ (s : State) (by_ : MemBy) (m : MemReqIn) (g : Place) (f : Flit), g = placeOf s (64 * m.word) ∧ f = memFlit by_ m s ∧ hbmSize / 64 ≤ m.word) ∧
    (∃ (s : State) (c : StackId) (ch : Fin 16) (p : Fin 2) (ready : List Nat) (b : Nat) (r : MemReq) (u : State), (channelStalled c ch s = false ∧ (getMemChannel c ch s).input = []) ∧ MeshIdle c s ∧ u = (if r.cls = 4 then s else resolve (64 * r.word) 64 s) ∧ (firstBank (getPseudo c ch p s) (fun b r => decide (b ∈ ready) && (getBank (getPseudo c ch p s) b).openRow == (reqPlace s r).row + 1) (bankOrder (getPseudo c ch p s).lastCol) = some (b, r))) ∧
    (∃ (s : State) (c : StackId) (ch : Fin 16) (p : Fin 2) (ready : List Nat) (b : Nat) (r : MemReq) (u : State), (channelStalled c ch s = false ∧ (getMemChannel c ch s).input = []) ∧ MeshIdle c s ∧ u = (if r.cls = 4 then s else resolve (64 * r.word) 64 s) ∧ (firstBank (getPseudo c ch p s) (fun b r => decide (b ∈ ready) && (getBank (getPseudo c ch p s) b).openRow == (reqPlace s r).row + 1) (bankOrder (getPseudo c ch p s).lastCol) = some (b, r))) ∧
    (∃ (s : State) (c : StackId) (ch : Fin 16) (p : Fin 2) (b : Fin 48), (getBank (getPseudo c ch p s) b).queue = [] ∧ (getBank (getPseudo c ch p s) b).usedAt + fget (Reg.memCtl c) MemCtl.idleTimer s ≤ s.now) ∧
    (∃ (s : State) (c : StackId) (ch : Fin 16) (p : Fin 2) (b : Nat) (postpone : Bool), b = ((getPseudo c ch p s).lastRef + 1) % 48) ∧
    (∃ (s : State) (c : StackId) (ch : Fin 16) (p : Fin 2) (b : Nat) (postpone : Bool), b = ((getPseudo c ch p s).lastRef + 1) % 48) :=
  ⟨⟨(fput (Reg.memStatus 0) MemStatus.memState 1 (up 3)), ⟨31, 9, none⟩, ⟨true, hbmSize / 64 - 1, [1#8], 63, 3, false⟩, (placeOf (up 3) (64 * (hbmSize / 64 - 1))), (memFlit ⟨31, 9, none⟩ ⟨true, hbmSize / 64 - 1, [1#8], 63, 3, false⟩ (fput (Reg.memStatus 0) MemStatus.memState 1 (up 3))), by decide +kernel, rfl, by decide +kernel, of_decide_eq_true (p := _ ∧ _) (by decide +kernel), by decide +kernel⟩,
   ⟨(fput (Reg.memStatus (placeOf (up 3) (64 * 77)).stack) MemStatus.memState 2 (up 3)), ⟨31, 9, none⟩, ⟨true, 77, [1#8], 63, 3, false⟩, (placeOf (up 3) (64 * (77))), (memFlit ⟨31, 9, none⟩ ⟨true, 77, [1#8], 63, 3, false⟩ (fput (Reg.memStatus (placeOf (up 3) (64 * 77)).stack) MemStatus.memState 2 (up 3))), by decide +kernel, rfl, by decide +kernel, of_decide_eq_true (p := _ ∧ _) (by decide +kernel), by decide +kernel⟩,
   ⟨{ (up 3) with fs := { (up 3).fs with channels := [(0, { MemChannel.init with input := List.replicate 256 (0, 0, 0, ⟨false, 0, [], 0, 0, false⟩) })], mesh := [(0, { MeshOut.init with used := [(3, 8)] })], meshCredits := 8 } }, ⟨31, 9, none⟩, ⟨true, 0, [1#8], 63, 3, false⟩, (placeOf (up 3) (64 * (0))), (memFlit ⟨31, 9, none⟩ ⟨true, 0, [1#8], 63, 3, false⟩ ({ (up 3) with fs := { (up 3).fs with channels := [(0, { MemChannel.init with input := List.replicate 256 (0, 0, 0, ⟨false, 0, [], 0, 0, false⟩) })], mesh := [(0, { MeshOut.init with used := [(3, 8)] })], meshCredits := 8 } })), by decide +kernel, rfl, by decide +kernel⟩,
   ⟨{ (enabled (composed 2 (up 3))) with fs := { (enabled (composed 2 (up 3))).fs with left := [(0, 2)] } }, ⟨31, 9, some (0, some 0)⟩, ⟨true, 5, [1#8], 63, 3, false⟩, (placeOf (up 3) (64 * (5))), (memFlit ⟨31, 9, some (0, some 0)⟩ ⟨true, 5, [1#8], 63, 3, false⟩ ({ (enabled (composed 2 (up 3))) with fs := { (enabled (composed 2 (up 3))).fs with left := [(0, 2)] } })), 0, 0, by decide +kernel, rfl, by decide +kernel⟩,
   ⟨{ (enabled (composed 2 (up 3))) with fs := { (enabled (composed 2 (up 3))).fs with left := [(0, 2)] } }, ⟨31, 9, some (0, some 0)⟩, ⟨true, 5, List.replicate 64 7#8, 63, 3, false⟩, (placeOf (up 3) (64 * (5))), (memFlit ⟨31, 9, some (0, some 0)⟩ ⟨true, 5, List.replicate 64 7#8, 63, 3, false⟩ ({ (enabled (composed 2 (up 3))) with fs := { (enabled (composed 2 (up 3))).fs with left := [(0, 2)] } })), 0, 0, by decide +kernel, rfl, by decide +kernel⟩,
   ⟨(enabled (composed 2 (up 3))), ⟨31, 9, some (0, some 0)⟩, ⟨true, 5, [1#8], 63, 3, false⟩, (placeOf (up 3) (64 * (5))), (memFlit ⟨31, 9, some (0, some 0)⟩ ⟨true, 5, [1#8], 63, 3, false⟩ (enabled (composed 2 (up 3)))), 0, 0, by decide +kernel, rfl, by decide +kernel⟩,
   ⟨(up 3), ⟨31, 9, none⟩, ⟨true, hbmSize / 64, [1#8], 63, 3, false⟩, (placeOf (up 3) (64 * (hbmSize / 64))), (memFlit ⟨31, 9, none⟩ ⟨true, hbmSize / 64, [1#8], 63, 3, false⟩ (up 3)), by decide +kernel, rfl, by decide +kernel⟩,
   ⟨(setPseudo 0 0 0 (setBank Pseudo.init 5 ⟨[⟨false, 0, [], 0, 0, false⟩], 1, 0, 0⟩) (fput (Reg.memStatus 0) MemStatus.memState 1 (up 3))), 0, 0, 0, [5], 5, ⟨false, 0, [], 0, 0, false⟩, (if (⟨false, 0, [], 0, 0, false⟩ : MemReq).cls = 4 then (setPseudo 0 0 0 (setBank Pseudo.init 5 ⟨[⟨false, 0, [], 0, 0, false⟩], 1, 0, 0⟩) (fput (Reg.memStatus 0) MemStatus.memState 1 (up 3))) else resolve (64 * (⟨false, 0, [], 0, 0, false⟩ : MemReq).word) 64 (setPseudo 0 0 0 (setBank Pseudo.init 5 ⟨[⟨false, 0, [], 0, 0, false⟩], 1, 0, 0⟩) (fput (Reg.memStatus 0) MemStatus.memState 1 (up 3)))), by decide +kernel, of_decide_eq_true (p := _ ∧ _) (by decide +kernel), by decide +kernel⟩,
   ⟨(setPseudo 0 0 0 (setBank Pseudo.init 5 ⟨[⟨false, 0, [], 0, 4, false⟩], 1, 0, 0⟩) (fput (Reg.memStatus 0) MemStatus.memState 1 (up 3))), 0, 0, 0, [5], 5, ⟨false, 0, [], 0, 4, false⟩, (if (⟨false, 0, [], 0, 4, false⟩ : MemReq).cls = 4 then (setPseudo 0 0 0 (setBank Pseudo.init 5 ⟨[⟨false, 0, [], 0, 4, false⟩], 1, 0, 0⟩) (fput (Reg.memStatus 0) MemStatus.memState 1 (up 3))) else resolve (64 * (⟨false, 0, [], 0, 4, false⟩ : MemReq).word) 64 (setPseudo 0 0 0 (setBank Pseudo.init 5 ⟨[⟨false, 0, [], 0, 4, false⟩], 1, 0, 0⟩) (fput (Reg.memStatus 0) MemStatus.memState 1 (up 3)))), by decide +kernel, of_decide_eq_true (p := _ ∧ _) (by decide +kernel), by decide +kernel⟩,
   ⟨(setPseudo 3 15 1 (setBank Pseudo.init 47 ⟨[], 9, 2, 0⟩) (later 70 (up 3))), 3, 15, 1, 47, by decide +kernel⟩,
   ⟨(setPseudo 3 15 1 { (setBank Pseudo.init 47 ⟨[], 9, 2, 0⟩) with lastRef := 46 } (up 3)), 3, 15, 1, 47, true, by decide +kernel⟩,
   ⟨(setPseudo 3 15 1 { (setBank Pseudo.init 47 ⟨[⟨false, 0, [], 0, 0, false⟩], 9, 7, 0⟩) with lastRef := 46 } (up 3)), 3, 15, 1, 47, false, by decide +kernel⟩⟩

theorem test_meets_StacksRetrainLeakAndScrub :
    (∃ (s : State) (c : StackId), (getMemCtl c s).training ≠ 0 ∧ s.fs.hostWaiting = []) ∧
    (∃ (s : State) (c : StackId), (getMemCtl c s).training ≠ 0 ∧ s.fs.hostWaiting = []) ∧
    (∃ (s : State) (c : StackId), (getMemCtl c s).training ≠ 0 ∧ s.fs.hostWaiting = [] ∧ s.pwr.bypass = false) ∧
    (∃ (s : State) (c : StackId) (ch : Fin 16), memState c s = 1 ∧ retrainLate c ch s = true ∧ (getMemCtl c s).training = 0) ∧
    (∃ (s : State) (c : StackId) (cancelled : Bool), curMode s = 2 ∧ fbit (Reg.memCtl c) MemCtl.srEn s = true ∧ memState c s = 1 ∧ stackIdle c s = true ∧ quietLong c s = true) ∧
    (∃ (s : State) (c : StackId) (cancelled : Bool), curMode s = 2 ∧ fbit (Reg.memCtl c) MemCtl.srEn s = true ∧ memState c s = 1 ∧ stackIdle c s = true ∧ quietLong c s = true) ∧
    (∃ (s : State) (c : StackId), memState c s = 2 ∧ MeshIdle c s ∧ s.fs.hostWaiting = []) ∧
    (∃ (s : State) (c : StackId), memState c s = 2 ∧ MeshIdle c s ∧ s.fs.hostWaiting = []) ∧
    (∃ (s : State) (c : StackId), leakDue c s = true) ∧
    (∃ (s : State) (c : StackId), leakDue c s = true) ∧
    (∃ (s : State) (c : StackId) (d : DomId) (v : Word), HostMayWrite d (Reg.memEccCtl c) s ∧ curMode s ≠ 5) ∧
    (∃ (s : State) (c : StackId) (a : Nat), Canonical s ∧ fget (Reg.memScrubCtl c) MemScrubCtl.periodH s ≠ 0 ∧ memState c s = 1 ∧ memTestRuns s = false ∧ scrubDue c s = true ∧ scrubTarget c (rd (Reg.memScrubPos c) s).toNat s.comp.carves = some a) ∧
    (∃ (s : State) (c : StackId) (a : Nat), Canonical s ∧ fget (Reg.memScrubCtl c) MemScrubCtl.periodH s ≠ 0 ∧ memState c s = 1 ∧ memTestRuns s = false ∧ scrubDue c s = true ∧ scrubTarget c (rd (Reg.memScrubPos c) s).toNat s.comp.carves = some a) :=
  ⟨⟨(setMemCtl 3 { MemCtl.init with training := 4, waiting := [] } (up 3)), 3, by decide +kernel⟩,
   ⟨(setMemCtl 3 { MemCtl.init with training := 4, waiting := [5] } (up 3)), 3, by decide +kernel⟩,
   ⟨(setMemCtl 3 { MemCtl.init with training := 4 } (up 3)), 3, by decide +kernel⟩,
   ⟨(later (10 ^ 12) <| fput (Reg.memStatus 3) MemStatus.memState 1 (up 3)), 3, 15, by decide +kernel⟩,
   ⟨(later (10 ^ 12) <| fput (Reg.memCtl 3) MemCtl.srEn 1 (fput (Reg.memStatus 3) MemStatus.memState 1 (up 2))), 3, true, by decide +kernel⟩,
   ⟨(later (10 ^ 12) <| fput (Reg.memCtl 3) MemCtl.srEn 1 (fput (Reg.memStatus 3) MemStatus.memState 1 (up 2))), 3, false, by decide +kernel⟩,
   ⟨(setMemCtl 3 { MemCtl.init with srWaiting := [⟨false, 96, [], 0, 0, false⟩] } (fput (Reg.memStatus 3) MemStatus.memState 2 (up 2))), 3, by decide +kernel, of_decide_eq_true (p := _ ∧ _) (by decide +kernel), by decide +kernel⟩,
   ⟨(fput (Reg.memStatus 3) MemStatus.memState 2 (up 2)), 3, by decide +kernel, of_decide_eq_true (p := _ ∧ _) (by decide +kernel), by decide +kernel⟩,
   ⟨(later (10 ^ 13) <| fput (Reg.memStatus 3) MemStatus.bucket 0 (up 2)), 3, by decide +kernel⟩,
   ⟨(later (10 ^ 13) <| fput (Reg.memStatus 3) MemStatus.bucket 255 (up 2)), 3, by decide +kernel⟩,
   ⟨(fput (Reg.memStatus 3) MemStatus.bucket 9 (up 2)), 3, 0, 0xFFFFFFFF#32, hmw (by decide +kernel), by decide +kernel⟩,
   ⟨(later (10 ^ 14) <| wr (Reg.memScrubPos 0) 0#32 (fput (Reg.memScrubCtl 0) MemScrubCtl.periodH 1 (fput (Reg.memStatus 0) MemStatus.memState 1 (composed 2 (up 3))))), 0, (scrubTarget 0 (rd (Reg.memScrubPos 0) (later (10 ^ 14) <| wr (Reg.memScrubPos 0) 0#32 (fput (Reg.memScrubCtl 0) MemScrubCtl.periodH 1 (fput (Reg.memStatus 0) MemStatus.memState 1 (composed 2 (up 3)))))).toNat (later (10 ^ 14) <| wr (Reg.memScrubPos 0) 0#32 (fput (Reg.memScrubCtl 0) MemScrubCtl.periodH 1 (fput (Reg.memStatus 0) MemStatus.memState 1 (composed 2 (up 3))))).comp.carves).getD 7, ⟨by decide +kernel, by decide +kernel⟩, by decide +kernel⟩,
   ⟨(later (10 ^ 14) <| wr (Reg.memScrubPos 0) 1023#32 (fput (Reg.memScrubCtl 0) MemScrubCtl.periodH 1 (fput (Reg.memStatus 0) MemStatus.memState 1 (composed 2 (up 3))))), 0, (scrubTarget 0 (rd (Reg.memScrubPos 0) (later (10 ^ 14) <| wr (Reg.memScrubPos 0) 1023#32 (fput (Reg.memScrubCtl 0) MemScrubCtl.periodH 1 (fput (Reg.memStatus 0) MemStatus.memState 1 (composed 2 (up 3)))))).toNat (later (10 ^ 14) <| wr (Reg.memScrubPos 0) 1023#32 (fput (Reg.memScrubCtl 0) MemScrubCtl.periodH 1 (fput (Reg.memStatus 0) MemStatus.memState 1 (composed 2 (up 3))))).comp.carves).getD 7, ⟨by decide +kernel, by decide +kernel⟩, by decide +kernel⟩⟩

theorem test_meets_AllocTakesTheHeadBuffer :
    (∃ (s : State) (p : PoolId) (who : Fin 4096) (n : Nat) (m : Nat) (l : List Nat) (c : Instr) (live : Bool), PoolIdle p s ∧ (allocCode p who who s = 0 ∧ getHead p s = n :: m :: l) ∧ (c = .alloc (.unit p who false live) ∨ c = .alloc (.unit p who true live) ∧ poolHeld p s < waitLevel p s ∨ (∃ k : Nat, c = .poolRetry k ∧ s.pools.waits[k]? = some (.alloc who p) ∧ mayAsk (.alloc who p) s = true ∧ (who.val < 1024 ∨ 1088 ≤ who.val) ∧ poolHeld p s < waitLevel p s))) ∧
    (∃ (s : State) (p : PoolId) (who : Fin 4096) (n : Nat) (m : Nat) (l : List Nat) (c : Instr) (live : Bool), PoolIdle p s ∧ (allocCode p who who s = 0 ∧ getHead p s = n :: m :: l) ∧ (c = .alloc (.unit p who false live) ∨ c = .alloc (.unit p who true live) ∧ poolHeld p s < waitLevel p s ∨ (∃ k : Nat, c = .poolRetry k ∧ s.pools.waits[k]? = some (.alloc who p) ∧ mayAsk (.alloc who p) s = true ∧ (who.val < 1024 ∨ 1088 ≤ who.val) ∧ poolHeld p s < waitLevel p s))) ∧
    (∃ (s : State) (p : PoolId) (who : Fin 4096) (n : Nat) (m : Nat) (l : List Nat) (c : Instr) (live : Bool), PoolIdle p s ∧ allocCode p who who s = codeEmpty) ∧
    (∃ (s : State) (p : PoolId) (who : Fin 4096) (n : Nat) (m : Nat) (l : List Nat) (c : Instr) (live : Bool), PoolIdle p s ∧ allocCode p who who s ≠ 0 ∧ allocCode p who who s ≠ codeEmpty ∧ allocCode p who who s ≠ codeOverQuota) ∧
    (∃ (s : State) (p : PoolId) (who : Fin 4096) (n : Nat) (m : Nat) (l : List Nat) (c : Instr) (live : Bool), PoolIdle p s ∧ allocCode p who who s ≠ 0 ∧ allocCode p who who s ≠ codeEmpty ∧ allocCode p who who s ≠ codeOverQuota) ∧
    (∃ (s : State) (p : PoolId) (who : Fin 4096) (n : Nat) (m : Nat) (l : List Nat) (c : Instr) (live : Bool) (d : DomId), PoolIdle p s ∧ hostPath d s = true ∧ gloveStops d .bar0 (Reg.hopAlloc d) false s = false ∧ loadStops .bar0 (Reg.hopAlloc d) s = false ∧ fget (Reg.hopArg d) HopArg.pool s = p.val ∧ allocCode p (1088 + d.val) (1088 + d.val) s = 0 ∧ getHead p s = n :: m :: l) :=
  ⟨⟨(pooled 0 [0, 1, 2, 3] (up 3)), 0, 0, 0, 1, [2, 3], (.alloc (.unit 0 0 false true)), true, of_decide_eq_true (p := _ ∧ _) (by decide +kernel), by decide +kernel, .inl rfl⟩,
   ⟨{ pooled 0 [0, 1, 2, 3] (up 3) with pools := { (pooled 0 [0, 1, 2, 3] (up 3)).pools with waits := [.free 3 2, .alloc 5 0] } }, 0, 5, 0, 1, [2, 3], (.poolRetry 1), true, of_decide_eq_true (p := _ ∧ _) (by decide +kernel), by decide +kernel, .inr (.inr ⟨1, rfl, by decide +kernel, by decide +kernel, by decide +kernel⟩)⟩,
   ⟨(pooled 4 [] (up 3)), 0, 7, 0, 1, [2, 3], (.nop 0), true, of_decide_eq_true (p := _ ∧ _) (by decide +kernel), by decide +kernel⟩,
   ⟨(fclr (Reg.bpmPoolCtl 0) BpmPoolCtl.enable (pooled 0 [0, 1] (up 3))), 0, 7, 0, 1, [2, 3], (.nop 0), true, of_decide_eq_true (p := _ ∧ _) (by decide +kernel), by decide +kernel⟩,
   ⟨(pooled 0 [0, 1] (up 3)), 15, 0, 0, 1, [2, 3], (.nop 0), true, of_decide_eq_true (p := _ ∧ _) (by decide +kernel), by decide +kernel⟩,
   ⟨(pooled 0 [0, 1, 2, 3] (up 3)), 0, 0, 0, 1, [2, 3], (.nop 0), true, 0, of_decide_eq_true (p := _ ∧ _) (by decide +kernel), by decide +kernel⟩⟩

theorem test_meets_BufferOperationsFollowTheTable :
    (∃ (s : State) (n : BufId) (who : Fin 4096) (p : Nat), poolOfBuf n s = some p ∧ PoolIdle p s ∧ (bufOpCode .free n who s = 0 ∧ poolHeld p s + poolFree p s ≤ poolSize p s ∧ poolRebuilding p s = false) ∧ Canonical s) ∧
    (∃ (s : State) (n : BufId) (who : Fin 4096) (p : Nat), poolOfBuf n s = some p ∧ PoolIdle p s ∧ (bufOpCode .free n who s = 0 ∧ poolHeld p s + poolFree p s ≤ poolSize p s ∧ poolRebuilding p s = false) ∧ Canonical s) ∧
    (∃ (s : State) (n : BufId) (who : Fin 4096) (p : Nat) (k : Nat), poolOfBuf n s = some p ∧ PoolIdle p s ∧ (bufOpCode .free n who s = 0 ∧ poolHeld p s + poolFree p s ≤ poolSize p s ∧ poolRebuilding p s = false) ∧ Canonical s ∧ s.pools.waits[k]? = some (.free who n) ∧ mayAsk (.free who n) s = true) ∧
    (∃ (s : State) (n : BufId) (who : Fin 4096) (p : Nat), poolOfBuf n s = some p ∧ PoolIdle p s ∧ bufOpCode .free n who s = codeSharedPending) ∧
    (∃ (s : State) (n : BufId) (who : Fin 4096) (p : Nat) (op : BufOp) (c : Instr) (b : Buf), poolOfBuf n s = some p ∧ PoolIdle p s ∧ b = getBuf n s ∧ (op = .release ∧ c = .releaseShare (.unit who) n ∨ op = .share ∧ c = .share (.unit who) n ∨ ∃ o : Fin 4096, op = .pass o ∧ c = .pass (.unit who) n o) ∧ bufOpCode op n who s = 0) ∧
    (∃ (s : State) (n : BufId) (who : Fin 4096) (p : Nat) (op : BufOp) (c : Instr) (b : Buf), poolOfBuf n s = some p ∧ PoolIdle p s ∧ b = getBuf n s ∧ (op = .release ∧ c = .releaseShare (.unit who) n ∨ op = .share ∧ c = .share (.unit who) n ∨ ∃ o : Fin 4096, op = .pass o ∧ c = .pass (.unit who) n o) ∧ bufOpCode op n who s = 0) ∧
    (∃ (s : State) (n : BufId) (who : Fin 4096) (p : Nat) (op : BufOp) (c : Instr), poolOfBuf n s = some p ∧ PoolIdle p s ∧ (op = .free ∧ c = .free (.unit who) n ∨ op = .release ∧ c = .releaseShare (.unit who) n ∨ op = .share ∧ c = .share (.unit who) n ∨ ∃ o : Fin 4096, op = .pass o ∧ c = .pass (.unit who) n o) ∧ bufOpCode op n who s ≠ 0 ∧ bufOpCode op n who s ≠ codeSharedPending) ∧
    (∃ (s : State) (n : BufId) (who : Fin 4096) (p : Nat) (op : BufOp) (c : Instr), poolOfBuf n s = some p ∧ PoolIdle p s ∧ (op = .free ∧ c = .free (.unit who) n ∨ op = .release ∧ c = .releaseShare (.unit who) n ∨ op = .share ∧ c = .share (.unit who) n ∨ ∃ o : Fin 4096, op = .pass o ∧ c = .pass (.unit who) n o) ∧ bufOpCode op n who s ≠ 0 ∧ bufOpCode op n who s ≠ codeSharedPending) ∧
    (∃ (s : State) (n : BufId) (who : Fin 4096) (p : Nat) (d : DomId), poolOfBuf n s = some p ∧ PoolIdle p s ∧ HostMayWrite d (Reg.hopCmd d) s ∧ curMode s ≠ 5 ∧ bufOpCode .share n (1088 + d.val) s = 0) :=
  ⟨⟨(setBuf 0 ⟨1, 1, 7⟩ (pooled 1 [1, 2, 3] (up 3))), 0, 7, 0, by decide +kernel, of_decide_eq_true (p := _ ∧ _) (by decide +kernel), by decide +kernel, ⟨by decide +kernel, by decide +kernel⟩⟩,
   ⟨(setBuf 0 ⟨1, 1, 7⟩ (pooled 4 [] (up 3))), 0, 7, 0, by decide +kernel, of_decide_eq_true (p := _ ∧ _) (by decide +kernel), by decide +kernel, ⟨by decide +kernel, by decide +kernel⟩⟩,
   ⟨(fun x : State => { x with pools := { x.pools with waits := [.alloc 3 0, .free 7 0] } }) (setBuf 0 ⟨1, 1, 7⟩ (pooled 1 [1, 2, 3] (up 3))), 0, 7, 0, 1, by decide +kernel, of_decide_eq_true (p := _ ∧ _) (by decide +kernel), by decide +kernel, ⟨by decide +kernel, by decide +kernel⟩, by decide +kernel⟩,
   ⟨(setBuf 0 ⟨1, 2, 7⟩ (pooled 1 [1, 2, 3] (up 3))), 0, 7, 0, by decide +kernel, of_decide_eq_true (p := _ ∧ _) (by decide +kernel), by decide +kernel⟩,
   ⟨(setBuf 0 ⟨1, 2, 7⟩ (pooled 1 [1, 2, 3] (up 3))), 0, 9, 0, .release, (.releaseShare (.unit 9) 0), ⟨1, 2, 7⟩, by decide +kernel, of_decide_eq_true (p := _ ∧ _) (by decide +kernel), rfl, .inl ⟨rfl, rfl⟩, by decide +kernel⟩,
   ⟨(setBuf 0 ⟨1, 1, 7⟩ (pooled 1 [1, 2, 3] (up 3))), 0, 7, 0, (.pass 3071), (.pass (.unit 7) 0 3071), ⟨1, 1, 7⟩, by decide +kernel, of_decide_eq_true (p := _ ∧ _) (by decide +kernel), rfl, .inr (.inr ⟨3071, rfl, rfl⟩), by decide +kernel⟩,
   ⟨(setBuf 0 ⟨1, 1, 7⟩ (pooled 1 [1, 2, 3] (up 3))), 0, 8, 0, .free, (.free (.unit 8) 0), by decide +kernel, of_decide_eq_true (p := _ ∧ _) (by decide +kernel), .inl ⟨rfl, rfl⟩, by decide +kernel⟩,
   ⟨(setBuf 0 ⟨1, 1, 7⟩ (pooled 1 [1, 2, 3] (up 3))), 0, 7, 0, (.pass 1200), (.pass (.unit 7) 0 1200), by decide +kernel, of_decide_eq_true (p := _ ∧ _) (by decide +kernel), .inr (.inr (.inr ⟨1200, rfl, rfl⟩)), by decide +kernel⟩,
   ⟨(setBuf 0 ⟨1, 1, 1088⟩ (pooled 1 [1, 2, 3] (up 3))), 0, 0, 0, 0, by decide +kernel, of_decide_eq_true (p := _ ∧ _) (by decide +kernel), hmw (by decide +kernel), by decide +kernel⟩⟩

theorem test_meets_PoolsRefillRebuildAndResize :
    (∃ (s : State) (p : PoolId) (l : List Nat) (n : Nat) (v : Nat) (w : Nat) (e : Nat), (getHead p s = l ++ [n] ∧ (getHead p s).length < 64 ∧ poolRebuilding p s = false ∧ poolFree p s = (getHead p s).length + 1 ∧ v = leNat ((wordBytes (bufAddr p n s / 64) s).take 8)) ∧ w = bufAddr p (v % 2 ^ 19) s / 64 ∧ e = leNat ((wordBytes w s).take 8) ∧ (∀ w, hostLine w s = none)) ∧
    (∃ (s : State) (p : PoolId) (l : List Nat) (n : Nat) (v : Nat) (w : Nat) (e : Nat), (getHead p s = l ++ [n] ∧ (getHead p s).length < 64 ∧ poolRebuilding p s = false ∧ poolFree p s = (getHead p s).length + 1 ∧ v = leNat ((wordBytes (bufAddr p n s / 64) s).take 8)) ∧ w = bufAddr p (v % 2 ^ 19) s / 64 ∧ e = leNat ((wordBytes w s).take 8) ∧ (∀ w, hostLine w s = none)) ∧
    (∃ (s : State) (p : PoolId), poolRebuilding p s = true ∧ poolHeld p s + (poolBufsIn p 0 s).length ≤ poolSize p s) ∧
    (∃ (s : State) (p : PoolId) (d : DomId) (v : Word), HostMayWrite d (Reg.bpmPoolSize p) s ∧ curMode s ≠ 5 ∧ poolMax p s < getF BpmPoolSize.size v) ∧
    (∃ (s : State) (p : PoolId) (d : DomId) (v : Word), HostMayWrite d (Reg.bpmPoolSize p) s ∧ (curMode s ≠ 5 ∧ getF BpmPoolSize.size v ≤ poolMax p s) ∧ PoolIdle p s) ∧
    (∃ (s : State) (p : PoolId) (d : DomId) (v : Word), HostMayWrite d (Reg.bpmPoolSize p) s ∧ (curMode s ≠ 5 ∧ getF BpmPoolSize.size v ≤ poolMax p s) ∧ PoolIdle p s) ∧
    (∃ (s : State) (p : PoolId) (d : DomId), HostMayWrite d (Reg.bpmPoolCtl p) s ∧ curMode s ≠ 5) ∧
    (∃ (s : State) (p : PoolId) (d : DomId), HostMayWrite d (Reg.bpmPoolCtl p) s ∧ curMode s ≠ 5 ∧ fget (Reg.bpmPoolCtl p) BpmPoolCtl.enable s = 0) ∧
    (∃ (s : State) (p : PoolId) (d : DomId), HostMayWrite d (Reg.bpmPoolCtl p) s ∧ curMode s ≠ 5 ∧ fget (Reg.bpmPoolCtl p) BpmPoolCtl.enable s = 0) :=
  ⟨⟨(storeWord (bufAddr 0 0 (fput (Reg.bpmPoolFree 0) BpmPoolHeld.count 2 (pooled 0 [0] (up 3))) / 64) (leBytes (linkWord 0 (some 2)) 64) false (fput (Reg.bpmPoolFree 0) BpmPoolHeld.count 2 (pooled 0 [0] (up 3)))), 0, [], 0, (linkWord 0 (some 2)), (bufAddr 0 ((linkWord 0 (some 2)) % 2 ^ 19) (storeWord (bufAddr 0 0 (fput (Reg.bpmPoolFree 0) BpmPoolHeld.count 2 (pooled 0 [0] (up 3))) / 64) (leBytes (linkWord 0 (some 2)) 64) false (fput (Reg.bpmPoolFree 0) BpmPoolHeld.count 2 (pooled 0 [0] (up 3)))) / 64), (leNat ((wordBytes (bufAddr 0 ((linkWord 0 (some 2)) % 2 ^ 19) (storeWord (bufAddr 0 0 (fput (Reg.bpmPoolFree 0) BpmPoolHeld.count 2 (pooled 0 [0] (up 3))) / 64) (leBytes (linkWord 0 (some 2)) 64) false (fput (Reg.bpmPoolFree 0) BpmPoolHeld.count 2 (pooled 0 [0] (up 3)))) / 64) (storeWord (bufAddr 0 0 (fput (Reg.bpmPoolFree 0) BpmPoolHeld.count 2 (pooled 0 [0] (up 3))) / 64) (leBytes (linkWord 0 (some 2)) 64) false (fput (Reg.bpmPoolFree 0) BpmPoolHeld.count 2 (pooled 0 [0] (up 3))))).take 8)), by decide +kernel, rfl, rfl, noLine (by decide +kernel)⟩,
   ⟨(storeWord (bufAddr 0 0 (fput (Reg.bpmPoolFree 0) BpmPoolHeld.count 2 (pooled 0 [0] (up 3))) / 64) (leBytes (5) 64) false (fput (Reg.bpmPoolFree 0) BpmPoolHeld.count 2 (pooled 0 [0] (up 3)))), 0, [], 0, 5, (bufAddr 0 ((5) % 2 ^ 19) (storeWord (bufAddr 0 0 (fput (Reg.bpmPoolFree 0) BpmPoolHeld.count 2 (pooled 0 [0] (up 3))) / 64) (leBytes (5) 64) false (fput (Reg.bpmPoolFree 0) BpmPoolHeld.count 2 (pooled 0 [0] (up 3)))) / 64), (leNat ((wordBytes (bufAddr 0 ((5) % 2 ^ 19) (storeWord (bufAddr 0 0 (fput (Reg.bpmPoolFree 0) BpmPoolHeld.count 2 (pooled 0 [0] (up 3))) / 64) (leBytes (5) 64) false (fput (Reg.bpmPoolFree 0) BpmPoolHeld.count 2 (pooled 0 [0] (up 3)))) / 64) (storeWord (bufAddr 0 0 (fput (Reg.bpmPoolFree 0) BpmPoolHeld.count 2 (pooled 0 [0] (up 3))) / 64) (leBytes (5) 64) false (fput (Reg.bpmPoolFree 0) BpmPoolHeld.count 2 (pooled 0 [0] (up 3))))).take 8)), by decide +kernel, rfl, rfl, noLine (by decide +kernel)⟩,
   ⟨(fput (Reg.bpmPoolStatus 0) BpmPoolStatus.rebuilding 1 (setBuf 0 ⟨1, 1, 7⟩ (fput (Reg.bpmPoolFree 0) BpmPoolHeld.count 2 (pooled 0 [0] (up 3))))), 0, by decide +kernel⟩,
   ⟨(pooled 0 [0, 1, 2, 3] (up 3)), 0, 0, 5#32, hmw (by decide +kernel), by decide +kernel⟩,
   ⟨(pooled 0 [0, 1, 2, 3] (up 3)), 0, 0, 4#32, hmw (by decide +kernel), by decide +kernel, of_decide_eq_true (p := _ ∧ _) (by decide +kernel)⟩,
   ⟨(fput (Reg.bpmPoolSize 0) BpmPoolSize.size 2 (setBuf 0 ⟨1, 1, 7⟩ (pooled 1 [1, 2, 3] (up 3)))), 0, 0, 2#32, hmw (by decide +kernel), by decide +kernel, of_decide_eq_true (p := _ ∧ _) (by decide +kernel)⟩,
   ⟨(pooled 0 [0, 1, 2, 3] (up 3)), 0, 0, hmw (by decide +kernel), by decide +kernel⟩,
   ⟨(fput (Reg.bpmPoolCtl 0) BpmPoolCtl.enable 0 (pooled 0 [0, 1, 2, 3] (up 3))), 0, 0, hmw (by decide +kernel), by decide +kernel⟩,
   ⟨(up 2), 15, 0, hmw (by decide +kernel), by decide +kernel⟩⟩

theorem test_meets_ChannelsEnableRunAndStop :
    (∃ (s : State) (c : ChanId) (d : DomId) (v : Word), HostMayWrite d (Reg.dmaCtl c) s ∧ curMode s ≠ 5 ∧ dmaEnabled c s = false ∧ released s = true ∧ dmaCheck c s = 0) ∧
    (∃ (s : State) (c : ChanId) (d : DomId) (v : Word), HostMayWrite d (Reg.dmaCtl c) s ∧ curMode s ≠ 5 ∧ dmaEnabled c s = false ∧ released s = true ∧ dmaCheck c s = 0) ∧
    (∃ (s : State) (c : ChanId) (d : DomId) (v : Word), HostMayWrite d (Reg.dmaCtl c) s ∧ curMode s ≠ 5 ∧ dmaEnabled c s = false ∧ released s = true ∧ dmaCheck c s ≠ 0) ∧
    (∃ (s : State) (c : ChanId) (d : DomId), HostMayWrite d (Reg.dmaDb c) s ∧ curMode s ≠ 5) ∧
    (∃ (s : State) (c : ChanId) (d : DomId), HostMayWrite d (Reg.dmaDb c) s ∧ curMode s ≠ 5) ∧
    (∃ (s : State) (c : ChanId), dmaState c s = 3 ∧ pollDue c s = true ∧ (getChan c s).phase = .idle) ∧
    (∃ (s : State) (c : ChanId) (moved : Nat) (h : HostRead) (n : Nat) (ptrs : List Nat) (u : State), ((getChan c s).stopping = true ∧ (getChan c s).phase = .ready) ∧ (n = max ((getChan c s).moved + toCairn (getChan c s).moved) (if opCheck c s = 0 ∧ (descOp (getChan c s).desc ≠ 2 ∨ (getChan c s).buf ≠ 0) then moved / 65536 * 65536 else 0)) ∧ n < descLength (getChan c s).desc ∧ ptrs = (if n = (getChan c s).moved then [] else movePtrs c s) ∧ linkHeld (dmaCur c s :: ptrs) s = false ∧ ptrWaits (dmaCur c s) 8 s = false ∧ (∀ q ∈ ptrs, ptrWaits q (n - (getChan c s).moved) s = false) ∧ u = (if n = (getChan c s).moved then s else moveBytes c (n - (getChan c s).moved) h s) ∧ (getChan c u).phase = .ready) ∧
    (∃ (s : State) (c : ChanId) (moved : Nat) (h : HostRead), (getChan c s).stopping = true ∧ (getChan c s).phase = .moved) ∧
    (∃ (s : State) (c : ChanId) (moved : Nat) (h : HostRead), (getChan c s).stopping = true ∧ ((getChan c s).phase = .idle ∨ (getChan c s).phase = .reading)) ∧
    (∃ (s : State) (c : ChanId) (moved : Nat) (h : HostRead), (getChan c s).stopping = true ∧ ((getChan c s).phase = .idle ∨ (getChan c s).phase = .reading)) :=
  ⟨⟨(up 3), 63, 0, 0xFFFFFFFF#32, hmw (by decide +kernel), by decide +kernel⟩,
   ⟨(setChan 63 { Chan.init with restart := true } (up 3)), 63, 0, 0xFFFFFFFF#32, hmw (by decide +kernel), by decide +kernel⟩,
   ⟨(wr (Reg.dmaHeadLo 63) 16#32 (up 3)), 63, 0, 0xFFFFFFFF#32, hmw (by decide +kernel), by decide +kernel⟩,
   ⟨(setChan 63 { Chan.init with phase := .reading } (fput (Reg.dmaStatus 63) DmaStatus.dmaState 2 (up 3))), 63, 0, hmw (by decide +kernel), by decide +kernel⟩,
   ⟨(setChan 63 { Chan.init with phase := .idle } (fput (Reg.dmaStatus 63) DmaStatus.dmaState 4 (up 3))), 63, 0, hmw (by decide +kernel), by decide +kernel⟩,
   ⟨(later (10 ^ 8) <| fput (Reg.dmaCtl 63) DmaCtl.pollUs 4095 (setChan 63 { Chan.init with phase := .idle } (fput (Reg.dmaStatus 63) DmaStatus.dmaState 3 (up 3)))), 63, by decide +kernel⟩,
   ⟨(setChan 63 { Chan.init with phase := .ready, stopping := true, desc := ⟨[0x81000100#32, 0#32, 0x11#32, 0#32, 0x200000#32, 0x80000000#32, 0#32, 0#32]⟩ } (fput (Reg.dmaStatus 63) DmaStatus.dmaState 2 (composed 2 (up 3)))), 63, 0, .error, (max ((getChan 63 (setChan 63 { Chan.init with phase := .ready, stopping := true, desc := ⟨[0x81000100#32, 0#32, 0x11#32, 0#32, 0x200000#32, 0x80000000#32, 0#32, 0#32]⟩ } (fput (Reg.dmaStatus 63) DmaStatus.dmaState 2 (composed 2 (up 3))))).moved + toCairn (getChan 63 (setChan 63 { Chan.init with phase := .ready, stopping := true, desc := ⟨[0x81000100#32, 0#32, 0x11#32, 0#32, 0x200000#32, 0x80000000#32, 0#32, 0#32]⟩ } (fput (Reg.dmaStatus 63) DmaStatus.dmaState 2 (composed 2 (up 3))))).moved) (if opCheck 63 (setChan 63 { Chan.init with phase := .ready, stopping := true, desc := ⟨[0x81000100#32, 0#32, 0x11#32, 0#32, 0x200000#32, 0x80000000#32, 0#32, 0#32]⟩ } (fput (Reg.dmaStatus 63) DmaStatus.dmaState 2 (composed 2 (up 3)))) = 0 ∧ (descOp (getChan 63 (setChan 63 { Chan.init with phase := .ready, stopping := true, desc := ⟨[0x81000100#32, 0#32, 0x11#32, 0#32, 0x200000#32, 0x80000000#32, 0#32, 0#32]⟩ } (fput (Reg.dmaStatus 63) DmaStatus.dmaState 2 (composed 2 (up 3))))).desc ≠ 2 ∨ (getChan 63 (setChan 63 { Chan.init with phase := .ready, stopping := true, desc := ⟨[0x81000100#32, 0#32, 0x11#32, 0#32, 0x200000#32, 0x80000000#32, 0#32, 0#32]⟩ } (fput (Reg.dmaStatus 63) DmaStatus.dmaState 2 (composed 2 (up 3))))).buf ≠ 0) then 0 / 65536 * 65536 else 0)), (if (max ((getChan 63 (setChan 63 { Chan.init with phase := .ready, stopping := true, desc := ⟨[0x81000100#32, 0#32, 0x11#32, 0#32, 0x200000#32, 0x80000000#32, 0#32, 0#32]⟩ } (fput (Reg.dmaStatus 63) DmaStatus.dmaState 2 (composed 2 (up 3))))).moved + toCairn (getChan 63 (setChan 63 { Chan.init with phase := .ready, stopping := true, desc := ⟨[0x81000100#32, 0#32, 0x11#32, 0#32, 0x200000#32, 0x80000000#32, 0#32, 0#32]⟩ } (fput (Reg.dmaStatus 63) DmaStatus.dmaState 2 (composed 2 (up 3))))).moved) (if opCheck 63 (setChan 63 { Chan.init with phase := .ready, stopping := true, desc := ⟨[0x81000100#32, 0#32, 0x11#32, 0#32, 0x200000#32, 0x80000000#32, 0#32, 0#32]⟩ } (fput (Reg.dmaStatus 63) DmaStatus.dmaState 2 (composed 2 (up 3)))) = 0 ∧ (descOp (getChan 63 (setChan 63 { Chan.init with phase := .ready, stopping := true, desc := ⟨[0x81000100#32, 0#32, 0x11#32, 0#32, 0x200000#32, 0x80000000#32, 0#32, 0#32]⟩ } (fput (Reg.dmaStatus 63) DmaStatus.dmaState 2 (composed 2 (up 3))))).desc ≠ 2 ∨ (getChan 63 (setChan 63 { Chan.init with phase := .ready, stopping := true, desc := ⟨[0x81000100#32, 0#32, 0x11#32, 0#32, 0x200000#32, 0x80000000#32, 0#32, 0#32]⟩ } (fput (Reg.dmaStatus 63) DmaStatus.dmaState 2 (composed 2 (up 3))))).buf ≠ 0) then 0 / 65536 * 65536 else 0)) = (getChan 63 (setChan 63 { Chan.init with phase := .ready, stopping := true, desc := ⟨[0x81000100#32, 0#32, 0x11#32, 0#32, 0x200000#32, 0x80000000#32, 0#32, 0#32]⟩ } (fput (Reg.dmaStatus 63) DmaStatus.dmaState 2 (composed 2 (up 3))))).moved then [] else movePtrs 63 (setChan 63 { Chan.init with phase := .ready, stopping := true, desc := ⟨[0x81000100#32, 0#32, 0x11#32, 0#32, 0x200000#32, 0x80000000#32, 0#32, 0#32]⟩ } (fput (Reg.dmaStatus 63) DmaStatus.dmaState 2 (composed 2 (up 3))))), (if (max ((getChan 63 (setChan 63 { Chan.init with phase := .ready, stopping := true, desc := ⟨[0x81000100#32, 0#32, 0x11#32, 0#32, 0x200000#32, 0x80000000#32, 0#32, 0#32]⟩ } (fput (Reg.dmaStatus 63) DmaStatus.dmaState 2 (composed 2 (up 3))))).moved + toCairn (getChan 63 (setChan 63 { Chan.init with phase := .ready, stopping := true, desc := ⟨[0x81000100#32, 0#32, 0x11#32, 0#32, 0x200000#32, 0x80000000#32, 0#32, 0#32]⟩ } (fput (Reg.dmaStatus 63) DmaStatus.dmaState 2 (composed 2 (up 3))))).moved) (if opCheck 63 (setChan 63 { Chan.init with phase := .ready, stopping := true, desc := ⟨[0x81000100#32, 0#32, 0x11#32, 0#32, 0x200000#32, 0x80000000#32, 0#32, 0#32]⟩ } (fput (Reg.dmaStatus 63) DmaStatus.dmaState 2 (composed 2 (up 3)))) = 0 ∧ (descOp (getChan 63 (setChan 63 { Chan.init with phase := .ready, stopping := true, desc := ⟨[0x81000100#32, 0#32, 0x11#32, 0#32, 0x200000#32, 0x80000000#32, 0#32, 0#32]⟩ } (fput (Reg.dmaStatus 63) DmaStatus.dmaState 2 (composed 2 (up 3))))).desc ≠ 2 ∨ (getChan 63 (setChan 63 { Chan.init with phase := .ready, stopping := true, desc := ⟨[0x81000100#32, 0#32, 0x11#32, 0#32, 0x200000#32, 0x80000000#32, 0#32, 0#32]⟩ } (fput (Reg.dmaStatus 63) DmaStatus.dmaState 2 (composed 2 (up 3))))).buf ≠ 0) then 0 / 65536 * 65536 else 0)) = (getChan 63 (setChan 63 { Chan.init with phase := .ready, stopping := true, desc := ⟨[0x81000100#32, 0#32, 0x11#32, 0#32, 0x200000#32, 0x80000000#32, 0#32, 0#32]⟩ } (fput (Reg.dmaStatus 63) DmaStatus.dmaState 2 (composed 2 (up 3))))).moved then (setChan 63 { Chan.init with phase := .ready, stopping := true, desc := ⟨[0x81000100#32, 0#32, 0x11#32, 0#32, 0x200000#32, 0x80000000#32, 0#32, 0#32]⟩ } (fput (Reg.dmaStatus 63) DmaStatus.dmaState 2 (composed 2 (up 3)))) else moveBytes 63 ((max ((getChan 63 (setChan 63 { Chan.init with phase := .ready, stopping := true, desc := ⟨[0x81000100#32, 0#32, 0x11#32, 0#32, 0x200000#32, 0x80000000#32, 0#32, 0#32]⟩ } (fput (Reg.dmaStatus 63) DmaStatus.dmaState 2 (composed 2 (up 3))))).moved + toCairn (getChan 63 (setChan 63 { Chan.init with phase := .ready, stopping := true, desc := ⟨[0x81000100#32, 0#32, 0x11#32, 0#32, 0x200000#32, 0x80000000#32, 0#32, 0#32]⟩ } (fput (Reg.dmaStatus 63) DmaStatus.dmaState 2 (composed 2 (up 3))))).moved) (if opCheck 63 (setChan 63 { Chan.init with phase := .ready, stopping := true, desc := ⟨[0x81000100#32, 0#32, 0x11#32, 0#32, 0x200000#32, 0x80000000#32, 0#32, 0#32]⟩ } (fput (Reg.dmaStatus 63) DmaStatus.dmaState 2 (composed 2 (up 3)))) = 0 ∧ (descOp (getChan 63 (setChan 63 { Chan.init with phase := .ready, stopping := true, desc := ⟨[0x81000100#32, 0#32, 0x11#32, 0#32, 0x200000#32, 0x80000000#32, 0#32, 0#32]⟩ } (fput (Reg.dmaStatus 63) DmaStatus.dmaState 2 (composed 2 (up 3))))).desc ≠ 2 ∨ (getChan 63 (setChan 63 { Chan.init with phase := .ready, stopping := true, desc := ⟨[0x81000100#32, 0#32, 0x11#32, 0#32, 0x200000#32, 0x80000000#32, 0#32, 0#32]⟩ } (fput (Reg.dmaStatus 63) DmaStatus.dmaState 2 (composed 2 (up 3))))).buf ≠ 0) then 0 / 65536 * 65536 else 0)) - (getChan 63 (setChan 63 { Chan.init with phase := .ready, stopping := true, desc := ⟨[0x81000100#32, 0#32, 0x11#32, 0#32, 0x200000#32, 0x80000000#32, 0#32, 0#32]⟩ } (fput (Reg.dmaStatus 63) DmaStatus.dmaState 2 (composed 2 (up 3))))).moved) .error (setChan 63 { Chan.init with phase := .ready, stopping := true, desc := ⟨[0x81000100#32, 0#32, 0x11#32, 0#32, 0x200000#32, 0x80000000#32, 0#32, 0#32]⟩ } (fput (Reg.dmaStatus 63) DmaStatus.dmaState 2 (composed 2 (up 3))))), by decide +kernel, rfl, by decide +kernel⟩,
   ⟨(setChan 63 { Chan.init with phase := .moved, stopping := true, desc := ⟨[0x81000100#32, 0#32, 0x11#32, 0#32, 0x200000#32, 0x80000000#32, 0#32, 0#32]⟩ } (fput (Reg.dmaStatus 63) DmaStatus.dmaState 2 (composed 2 (up 3)))), 63, 0, .error, by decide +kernel⟩,
   ⟨(setChan 63 { Chan.init with phase := .idle, stopping := true, desc := ⟨[0x81000100#32, 0#32, 0x11#32, 0#32, 0x200000#32, 0x80000000#32, 0#32, 0#32]⟩ } (fput (Reg.dmaStatus 63) DmaStatus.dmaState 2 (composed 2 (up 3)))), 63, 65536, .error, by decide +kernel, .inl rfl⟩,
   ⟨(setChan 63 { Chan.init with phase := .reading, stopping := true, desc := ⟨[0x81000100#32, 0#32, 0x11#32, 0#32, 0x200000#32, 0x80000000#32, 0#32, 0#32]⟩ } (fput (Reg.dmaStatus 63) DmaStatus.dmaState 2 (composed 2 (up 3)))), 63, 65536, .error, by decide +kernel, .inr rfl⟩⟩

theorem test_meets_DescriptorsMoveData :
    (∃ (s : State) (c : ChanId) (x : Chan) (h : HostRead) (l : List Byte), x = getChan c s ∧ (x.phase = .reading ∧ dmaCur c s % 32 = 0 ∧ ptrOk c (dmaCur c s) 32 s = true ∧ ptrWaits (dmaCur c s) 32 s = false) ∧ (∀ w, hostLine w s = none) ∧ (ptrHbm (dmaCur c s) = true ∧ (readBytes 4 (ptrAddr (dmaCur c s)) 32 s).1 = (l, false) ∨ ptrHbm (dmaCur c s) = false ∧ s.pwr.linkUp = true ∧ h = .data l ∧ 32 ≤ l.length)) ∧
    (∃ (s : State) (c : ChanId) (x : Chan) (h : HostRead) (l : List Byte), x = getChan c s ∧ (x.phase = .reading ∧ dmaCur c s % 32 = 0 ∧ ptrOk c (dmaCur c s) 32 s = true ∧ ptrWaits (dmaCur c s) 32 s = false) ∧ (∀ w, hostLine w s = none) ∧ (ptrHbm (dmaCur c s) = true ∧ (readBytes 4 (ptrAddr (dmaCur c s)) 32 s).1 = (l, false) ∨ ptrHbm (dmaCur c s) = false ∧ s.pwr.linkUp = true ∧ h = .data l ∧ 32 ≤ l.length)) ∧
    (∃ (s : State) (c : ChanId) (x : Chan) (i : Instr) (h : HostRead) (n : Nat) (d : Nat) (u : State) (l : List (Byte × Bool)), x = getChan c s ∧ (i = .copy c h ∧ running c 0 s = true ∨ i = .fill c h ∧ running c 1 s = true ∨ i = .toPool c h ∧ running c 2 s = true ∨ i = .fromPool c h ∧ running c 3 s = true) ∧ (opCheck c s = 0 ∧ (i = .toPool c h → x.buf ≠ 0 ∧ linkHeld [descSrc x.desc] s = false) ∧ n = turnBytes c s ∧ n ≠ 0 ∧ linkHeld (movePtrs c s) s = false ∧ (∀ q ∈ movePtrs c s, ptrWaits q n s = false) ∧ d = (moveEnds c s).2 + x.moved ∧ (if i = .fill c h then (some ((patternBytes (descSrc x.desc) x.moved n).map (·, false)), s) else ptrRead c ((moveEnds c s).1 + x.moved) n h s) = (some l, u) ∧ (ptrHbm (moveEnds c s).2 = true ∨ hostError h = false)) ∧ Canonical s) ∧
    (∃ (s : State) (c : ChanId) (x : Chan) (i : Instr) (h : HostRead) (n : Nat) (d : Nat) (u : State) (l : List (Byte × Bool)), x = getChan c s ∧ (i = .copy c h ∧ running c 0 s = true ∨ i = .fill c h ∧ running c 1 s = true ∨ i = .toPool c h ∧ running c 2 s = true ∨ i = .fromPool c h ∧ running c 3 s = true) ∧ (opCheck c s = 0 ∧ (i = .toPool c h → x.buf ≠ 0 ∧ linkHeld [descSrc x.desc] s = false) ∧ n = turnBytes c s ∧ n ≠ 0 ∧ linkHeld (movePtrs c s) s = false ∧ (∀ q ∈ movePtrs c s, ptrWaits q n s = false) ∧ d = (moveEnds c s).2 + x.moved ∧ (if i = .fill c h then (some ((patternBytes (descSrc x.desc) x.moved n).map (·, false)), s) else ptrRead c ((moveEnds c s).1 + x.moved) n h s) = (some l, u) ∧ (ptrHbm (moveEnds c s).2 = true ∨ hostError h = false)) ∧ Canonical s) ∧
    (∃ (s : State) (c : ChanId) (x : Chan) (i : Instr) (h : HostRead), x = getChan c s ∧ (i = .copy c h ∧ running c 0 s = true ∨ i = .fill c h ∧ running c 1 s = true ∨ i = .toPool c h ∧ running c 2 s = true ∨ i = .fromPool c h ∧ running c 3 s = true) ∧ opCheck c s ≠ 0) ∧
    (∃ (s : State) (c : ChanId) (x : Chan) (i : Instr) (h : HostRead), x = getChan c s ∧ (i = .copy c h ∧ running c 0 s = true ∨ i = .fill c h ∧ running c 1 s = true ∨ i = .toPool c h ∧ running c 2 s = true ∨ i = .fromPool c h ∧ running c 3 s = true) ∧ opCheck c s ≠ 0) ∧
    (∃ (s : State) (c : ChanId) (x : Chan) (h : HostRead) (n : Nat) (m : Nat) (l : List Nat), x = getChan c s ∧ running c 2 s = true ∧ opCheck c s = 0 ∧ x.buf = 0 ∧ linkHeld [descSrc x.desc] s = false ∧ allocCode (toPoolPool x.desc) (1024 + c) (toPoolOwner c x.desc) s = 0 ∧ poolHeld (toPoolPool x.desc) s < waitLevel (toPoolPool x.desc) s ∧ getHead (toPoolPool x.desc) s = n :: m :: l) ∧
    (∃ (s : State) (c : ChanId) (x : Chan) (h : HostRead), x = getChan c s ∧ (x.phase = .moved ∧ linkHeld (dmaCur c s :: flushes c s) s = false ∧ ptrWaits (dmaCur c s) 8 s = false ∧ (descOp x.desc = 3 → descSrc x.desc / 2 ^ 62 % 2 = 0) ∧ dmaCur c s % 32 = 0 ∧ hostLine (ptrAddr (dmaCur c s) / 64) s = none ∧ (ptrHbm (dmaCur c s) = true ∧ flushes c s = [] ∨ hostError h = false)) ∧ Canonical s) ∧
    (∃ (s : State) (c : ChanId) (x : Chan) (h : HostRead), x = getChan c s ∧ (x.phase = .moved ∧ linkHeld (dmaCur c s :: flushes c s) s = false ∧ ptrWaits (dmaCur c s) 8 s = false ∧ (descOp x.desc = 3 → descSrc x.desc / 2 ^ 62 % 2 = 0) ∧ dmaCur c s % 32 = 0 ∧ hostLine (ptrAddr (dmaCur c s) / 64) s = none ∧ (ptrHbm (dmaCur c s) = true ∧ flushes c s = [] ∨ hostError h = false)) ∧ Canonical s) :=
  ⟨⟨(setChan 63 { Chan.init with phase := .reading } (fput (Reg.dmaStatus 63) DmaStatus.dmaState 2 (up 3))), 63, (getChan 63 (setChan 63 { Chan.init with phase := .reading } (fput (Reg.dmaStatus 63) DmaStatus.dmaState 2 (up 3)))), (.data ((List.replicate 28 0#8) ++ [1#8, 0#8, 0#8, 0x81#8])), (List.replicate 28 0#8) ++ [1#8, 0#8, 0#8, 0x81#8], rfl, by decide +kernel, noLine (by decide +kernel), by decide +kernel⟩,
   ⟨(setChan 63 { Chan.init with phase := .reading } (fput (Reg.dmaStatus 63) DmaStatus.dmaState 2 (wr (Reg.dmaCurHi 63) 0x80000000#32 (writeBytes 0 (List.replicate 64 0#8) false (composed 2 (up 3)))))), 63, (getChan 63 (setChan 63 { Chan.init with phase := .reading } (fput (Reg.dmaStatus 63) DmaStatus.dmaState 2 (wr (Reg.dmaCurHi 63) 0x80000000#32 (writeBytes 0 (List.replicate 64 0#8) false (composed 2 (up 3))))))), .error, (List.replicate 32 0#8), rfl, by decide +kernel, noLine (by decide +kernel), by decide +kernel⟩,
   ⟨(channelAt 63 .ready [0x80000064#32, 0#32, 0x10#32, 0x80000000#32, 0x200005#32, 0x80000000#32, 0#32, 0#32] (writeBytes 0 (List.replicate 128 7#8) false (composed 2 (up 3)))), 63, (getChan 63 (channelAt 63 .ready [0x80000064#32, 0#32, 0x10#32, 0x80000000#32, 0x200005#32, 0x80000000#32, 0#32, 0#32] (writeBytes 0 (List.replicate 128 7#8) false (composed 2 (up 3))))), (.copy 63 .error), (.error), 100, (2 ^ 63 + 0x200005), (if (.copy 63 .error : Instr) = .fill 63 (.error) then (some ((patternBytes (descSrc (getChan 63 (channelAt 63 .ready [0x80000064#32, 0#32, 0x10#32, 0x80000000#32, 0x200005#32, 0x80000000#32, 0#32, 0#32] (writeBytes 0 (List.replicate 128 7#8) false (composed 2 (up 3))))).desc) (getChan 63 (channelAt 63 .ready [0x80000064#32, 0#32, 0x10#32, 0x80000000#32, 0x200005#32, 0x80000000#32, 0#32, 0#32] (writeBytes 0 (List.replicate 128 7#8) false (composed 2 (up 3))))).moved 100).map (·, false)), (channelAt 63 .ready [0x80000064#32, 0#32, 0x10#32, 0x80000000#32, 0x200005#32, 0x80000000#32, 0#32, 0#32] (writeBytes 0 (List.replicate 128 7#8) false (composed 2 (up 3))))) else ptrRead 63 ((moveEnds 63 (channelAt 63 .ready [0x80000064#32, 0#32, 0x10#32, 0x80000000#32, 0x200005#32, 0x80000000#32, 0#32, 0#32] (writeBytes 0 (List.replicate 128 7#8) false (composed 2 (up 3))))).1 + (getChan 63 (channelAt 63 .ready [0x80000064#32, 0#32, 0x10#32, 0x80000000#32, 0x200005#32, 0x80000000#32, 0#32, 0#32] (writeBytes 0 (List.replicate 128 7#8) false (composed 2 (up 3))))).moved) 100 (.error) (channelAt 63 .ready [0x80000064#32, 0#32, 0x10#32, 0x80000000#32, 0x200005#32, 0x80000000#32, 0#32, 0#32] (writeBytes 0 (List.replicate 128 7#8) false (composed 2 (up 3))))).2, ((if (.copy 63 .error : Instr) = .fill 63 (.error) then (some ((patternBytes (descSrc (getChan 63 (channelAt 63 .ready [0x80000064#32, 0#32, 0x10#32, 0x80000000#32, 0x200005#32, 0x80000000#32, 0#32, 0#32] (writeBytes 0 (List.replicate 128 7#8) false (composed 2 (up 3))))).desc) (getChan 63 (channelAt 63 .ready [0x80000064#32, 0#32, 0x10#32, 0x80000000#32, 0x200005#32, 0x80000000#32, 0#32, 0#32] (writeBytes 0 (List.replicate 128 7#8) false (composed 2 (up 3))))).moved 100).map (·, false)), (channelAt 63 .ready [0x80000064#32, 0#32, 0x10#32, 0x80000000#32, 0x200005#32, 0x80000000#32, 0#32, 0#32] (writeBytes 0 (List.replicate 128 7#8) false (composed 2 (up 3))))) else ptrRead 63 ((moveEnds 63 (channelAt 63 .ready [0x80000064#32, 0#32, 0x10#32, 0x80000000#32, 0x200005#32, 0x80000000#32, 0#32, 0#32] (writeBytes 0 (List.replicate 128 7#8) false (composed 2 (up 3))))).1 + (getChan 63 (channelAt 63 .ready [0x80000064#32, 0#32, 0x10#32, 0x80000000#32, 0x200005#32, 0x80000000#32, 0#32, 0#32] (writeBytes 0 (List.replicate 128 7#8) false (composed 2 (up 3))))).moved) 100 (.error) (channelAt 63 .ready [0x80000064#32, 0#32, 0x10#32, 0x80000000#32, 0x200005#32, 0x80000000#32, 0#32, 0#32] (writeBytes 0 (List.replicate 128 7#8) false (composed 2 (up 3))))).1).getD [], rfl, .inl ⟨rfl, by decide +kernel⟩, by decide +kernel, ⟨by decide +kernel, by decide +kernel⟩⟩,
   ⟨(channelAt 63 .ready [0x81000080#32, 0#32, 0x11223344#32, 0x55667788#32, 0x40#32, 0x80000000#32, 0#32, 0#32] (composed 2 (up 3))), 63, (getChan 63 (channelAt 63 .ready [0x81000080#32, 0#32, 0x11223344#32, 0x55667788#32, 0x40#32, 0x80000000#32, 0#32, 0#32] (composed 2 (up 3)))), (.fill 63 .error), (.error), 128, (2 ^ 63 + 0x40), (if (.fill 63 .error : Instr) = .fill 63 (.error) then (some ((patternBytes (descSrc (getChan 63 (channelAt 63 .ready [0x81000080#32, 0#32, 0x11223344#32, 0x55667788#32, 0x40#32, 0x80000000#32, 0#32, 0#32] (composed 2 (up 3)))).desc) (getChan 63 (channelAt 63 .ready [0x81000080#32, 0#32, 0x11223344#32, 0x55667788#32, 0x40#32, 0x80000000#32, 0#32, 0#32] (composed 2 (up 3)))).moved 128).map (·, false)), (channelAt 63 .ready [0x81000080#32, 0#32, 0x11223344#32, 0x55667788#32, 0x40#32, 0x80000000#32, 0#32, 0#32] (composed 2 (up 3)))) else ptrRead 63 ((moveEnds 63 (channelAt 63 .ready [0x81000080#32, 0#32, 0x11223344#32, 0x55667788#32, 0x40#32, 0x80000000#32, 0#32, 0#32] (composed 2 (up 3)))).1 + (getChan 63 (channelAt 63 .ready [0x81000080#32, 0#32, 0x11223344#32, 0x55667788#32, 0x40#32, 0x80000000#32, 0#32, 0#32] (composed 2 (up 3)))).moved) 128 (.error) (channelAt 63 .ready [0x81000080#32, 0#32, 0x11223344#32, 0x55667788#32, 0x40#32, 0x80000000#32, 0#32, 0#32] (composed 2 (up 3)))).2, ((if (.fill 63 .error : Instr) = .fill 63 (.error) then (some ((patternBytes (descSrc (getChan 63 (channelAt 63 .ready [0x81000080#32, 0#32, 0x11223344#32, 0x55667788#32, 0x40#32, 0x80000000#32, 0#32, 0#32] (composed 2 (up 3)))).desc) (getChan 63 (channelAt 63 .ready [0x81000080#32, 0#32, 0x11223344#32, 0x55667788#32, 0x40#32, 0x80000000#32, 0#32, 0#32] (composed 2 (up 3)))).moved 128).map (·, false)), (channelAt 63 .ready [0x81000080#32, 0#32, 0x11223344#32, 0x55667788#32, 0x40#32, 0x80000000#32, 0#32, 0#32] (composed 2 (up 3)))) else ptrRead 63 ((moveEnds 63 (channelAt 63 .ready [0x81000080#32, 0#32, 0x11223344#32, 0x55667788#32, 0x40#32, 0x80000000#32, 0#32, 0#32] (composed 2 (up 3)))).1 + (getChan 63 (channelAt 63 .ready [0x81000080#32, 0#32, 0x11223344#32, 0x55667788#32, 0x40#32, 0x80000000#32, 0#32, 0#32] (composed 2 (up 3)))).moved) 128 (.error) (channelAt 63 .ready [0x81000080#32, 0#32, 0x11223344#32, 0x55667788#32, 0x40#32, 0x80000000#32, 0#32, 0#32] (composed 2 (up 3)))).1).getD [], rfl, .inr (.inl ⟨rfl, by decide +kernel⟩), by decide +kernel, ⟨by decide +kernel, by decide +kernel⟩⟩,
   ⟨(channelAt 63 .ready [0x8100007f#32, 0#32, 0x11223344#32, 0x55667788#32, 0x40#32, 0x80000000#32, 0#32, 0#32] (composed 2 (up 3))), 63, (getChan 63 (channelAt 63 .ready [0x8100007f#32, 0#32, 0x11223344#32, 0x55667788#32, 0x40#32, 0x80000000#32, 0#32, 0#32] (composed 2 (up 3)))), (.fill 63 .error), .error, rfl, .inr (.inl ⟨rfl, by decide +kernel⟩), by decide +kernel⟩,
   ⟨(channelAt 63 .ready [0x80000080#32, 0#32, 0x0#32, 0x80000000#32, 0x3fffc0#32, 0x80000000#32, 0#32, 0#32] (composed 2 (up 3))), 63, (getChan 63 (channelAt 63 .ready [0x80000080#32, 0#32, 0x0#32, 0x80000000#32, 0x3fffc0#32, 0x80000000#32, 0#32, 0#32] (composed 2 (up 3)))), (.copy 63 .error), .error, rfl, .inl ⟨rfl, by decide +kernel⟩, by decide +kernel⟩,
   ⟨(channelAt 63 .ready [0x82000064#32, 0#32, 0x10#32, 0x80000000#32, 0x0#32, 0#32, 0#32, 0#32] (pooled 0 [0, 1, 2, 3] (up 3))), 63, (getChan 63 (channelAt 63 .ready [0x82000064#32, 0#32, 0x10#32, 0x80000000#32, 0x0#32, 0#32, 0#32, 0#32] (pooled 0 [0, 1, 2, 3] (up 3)))), .error, 0, 1, [2, 3], rfl, by decide +kernel⟩,
   ⟨(channelAt 63 .moved [0x80000080#32, 0#32, 0x0#32, 0x80000000#32, 0x40#32, 0x80000000#32, 0x60#32, 0x80000000#32] (wr (Reg.dmaCurHi 63) 0x80000000#32 (composed 2 (up 3)))), 63, (getChan 63 (channelAt 63 .moved [0x80000080#32, 0#32, 0x0#32, 0x80000000#32, 0x40#32, 0x80000000#32, 0x60#32, 0x80000000#32] (wr (Reg.dmaCurHi 63) 0x80000000#32 (composed 2 (up 3))))), .error, rfl, by decide +kernel, ⟨by decide +kernel, by decide +kernel⟩⟩,
   ⟨(channelAt 63 .moved [0x92000080#32, 0#32, 0x0#32, 0x80000000#32, 0x0#32, 0#32, 0x60#32, 0x80000000#32] (composed 2 (up 3))), 63, (getChan 63 (channelAt 63 .moved [0x92000080#32, 0#32, 0x0#32, 0x80000000#32, 0x0#32, 0#32, 0x60#32, 0x80000000#32] (composed 2 (up 3)))), (.data []), rfl, by decide +kernel, ⟨by decide +kernel, by decide +kernel⟩⟩⟩

theorem test_meets_LanesComeUpStepByStep :
    (∃ (s : State) (l : LaneId), l.val ∈ laneGroup l s ∧ (laneState l s = 1 ∨ ringLaneStarts l s = true)) ∧
    (∃ (s : State) (l : LaneId), l.val ∈ laneGroup l s ∧ (laneState l s = 1 ∨ ringLaneStarts l s = true)) ∧
    (∃ (s : State) (l : LaneId), l.val ∈ laneGroup l s ∧ laneState l s = 2 ∧ ringLaneLit l s = true) ∧
    (∃ (s : State) (l : LaneId), l.val ∈ laneGroup l s ∧ laneState l s = 2 ∧ ringLaneLit l s = true) ∧
    (∃ (s : State) (l : LaneId) (inverted : Bool), l.val ∈ laneGroup l s ∧ laneState l s = 3) ∧
    (∃ (s : State) (l : LaneId) (inverted : Bool), l.val ∈ laneGroup l s ∧ laneState l s = 3) ∧
    (∃ (s : State) (l : LaneId) (n : List (Fin 16)), l.val ∈ laneGroup l s ∧ laneState l s = 5) ∧
    (∃ (s : State) (l : LaneId) (n : List (Fin 16)), l.val ∈ laneGroup l s ∧ laneState l s = 5) ∧
    (∃ (s : State) (l : LaneId), l.val ∈ laneGroup l s ∧ 3 ≤ laneState l s ∧ laneState l s ≤ 5 ∧ retryDue l s = true) ∧
    (∃ (s : State) (l : LaneId), l.val ∈ laneGroup l s ∧ 3 ≤ laneState l s ∧ laneState l s ≤ 5 ∧ retryDue l s = true) ∧
    (∃ (s : State) (l : LaneId), l.val ∈ laneGroup l s ∧ laneState l s = 6) ∧
    (∃ (s : State) (l : LaneId), l.val ∈ laneGroup l s ∧ laneState l s = 6) ∧
    (∃ (s : State) (l : LaneId), l.val ∈ laneGroup l s ∧ s.lanes.recal.contains l.val = true ∧ (laneState l s = 3 ∨ laneState l s = 5 ∨ ∀ k ∈ laneGroup l s, laneState k s = 6)) ∧
    (∃ (s : State) (l : LaneId), l.val ∈ laneGroup l s ∧ s.lanes.recal.contains l.val = true ∧ (laneState l s = 3 ∨ laneState l s = 5 ∨ ∀ k ∈ laneGroup l s, laneState k s = 6)) :=
  ⟨⟨(fput (Reg.lanLaneStatus 31) LanLaneStatus.laneState 1 (mac7 (up 3))), 31, by decide +kernel⟩,
   ⟨(fput (Reg.lanLaneStatus 55) LanLaneStatus.laneState 0 (up 3)), 55, by decide +kernel⟩,
   ⟨(fput (Reg.lanLaneStatus 31) LanLaneStatus.laneState 2 (mac7 (up 3))), 31, by decide +kernel⟩,
   ⟨(fput (Reg.lanLaneStatus 47) LanLaneStatus.laneState 2 ({ fput (Reg.lanLaneCtl 44) LanLaneCtl.sdiEn 1 (up 3) with lanes := { Lanes.init with sdi := [(44, 2#32)] } })), 47, by decide +kernel⟩,
   ⟨(fput (Reg.lanLaneCtl 31) LanLaneCtl.rxPolAuto 1 (fput (Reg.lanLaneStatus 31) LanLaneStatus.laneState 3 (mac7 (up 3)))), 31, true, by decide +kernel⟩,
   ⟨(fput (Reg.lanLaneCtl 55) LanLaneCtl.rxPolAuto 1 (fput (Reg.lanLaneStatus 55) LanLaneStatus.laneState 3 (up 3))), 55, false, by decide +kernel⟩,
   ⟨(withPorts [⟨1023, 0, true, 7, 0, 0, 4095⟩, ⟨2, 1, true, 15, 0, 0, 4095⟩] (fput (Reg.sptEncap 1023) SptEncap.macPort 3 (fput (Reg.lanLaneStatus 31) LanLaneStatus.laneState 5 (mac7 (up 3))))), 31, [15], by decide +kernel⟩,
   ⟨(withPorts [⟨1023, 0, true, 7, 0, 0, 4095⟩, ⟨2, 1, true, 15, 0, 0, 4095⟩] (fput (Reg.sptEncap 1023) SptEncap.macPort 3 (fput (Reg.lanLaneStatus 55) LanLaneStatus.laneState 5 (up 3)))), 55, [15], by decide +kernel⟩,
   ⟨(later (10 ^ 9) <| fput (Reg.lanLaneStatus 31) LanLaneStatus.laneState 5 (mac7 (up 3))), 31, by decide +kernel⟩,
   ⟨(later (10 ^ 9) <| fput (Reg.lanLaneStatus 55) LanLaneStatus.retryCnt 15 (fput (Reg.lanLaneStatus 55) LanLaneStatus.laneState 3 (up 3))), 55, by decide +kernel⟩,
   ⟨(fput (Reg.lanMacPortStatus 7 3) LanMacPortStatus.linkUp 1 (fput (Reg.lanLaneStatus 31) LanLaneStatus.laneState 6 (mac7 (up 3)))), 31, by decide +kernel⟩,
   ⟨(fput (Reg.lanLaneStatus 47) LanLaneStatus.laneState 6 ({ fput (Reg.lanLaneCtl 44) LanLaneCtl.sdiEn 1 (up 3) with lanes := { Lanes.init with sdi := [(44, 2#32)] } })), 47, by decide +kernel⟩,
   ⟨(fun x : State => { x with lanes := { x.lanes with recal := [3, 31] } }) (fput (Reg.lanLaneStatus 31) LanLaneStatus.laneState 5 (mac7 (up 3))), 31, by decide +kernel⟩,
   ⟨(fun x : State => { x with lanes := { x.lanes with recal := [3, 55] } }) (fput (Reg.lanLaneStatus 55) LanLaneStatus.laneState 5 (up 3)), 55, by decide +kernel⟩⟩

theorem test_meets_LanesAreEnabledAndTested :
    (∃ (s : State) (d : DomId) (v : Word) (m : MacId) (j : Fin 4) (clk : BitVec 4), curMode s ≠ 5 ∧ HostMayWrite d (Reg.lanMacCtl m) s ∧ (portEn m s).testBit j = false ∧ (∀ k < 4, k ≠ j.val → (getF LanMacCtl.portEn v).testBit k = (portEn m s).testBit k)) ∧
    (∃ (s : State) (d : DomId) (v : Word) (m : MacId) (j : Fin 4) (clk : BitVec 4), curMode s ≠ 5 ∧ HostMayWrite d (Reg.lanMacCtl m) s ∧ (portEn m s).testBit j = false ∧ (∀ k < 4, k ≠ j.val → (getF LanMacCtl.portEn v).testBit k = (portEn m s).testBit k)) ∧
    (∃ (s : State) (d : DomId) (v : Word) (l : Fin 16) (clk : BitVec 4), curMode s ≠ 5 ∧ HostMayWrite d (Reg.lanLaneCtl (32 + l.val)) s ∧ sdiEnabled (32 + l.val) s = false ∧ getF LanLaneCtl.recal v = 0) ∧
    (∃ (s : State) (d : DomId) (v : Word) (l : Fin 16) (clk : BitVec 4), curMode s ≠ 5 ∧ HostMayWrite d (Reg.lanLaneCtl (32 + l.val)) s ∧ sdiEnabled (32 + l.val) s = false ∧ getF LanLaneCtl.recal v = 0) ∧
    (∃ (s : State) (d : DomId) (v : Word) (l : LaneId), curMode s ≠ 5 ∧ HostMayWrite d (Reg.lanLaneCtl l) s ∧ (32 ≤ l.val → l.val < 48 → sdiEnabled l s = true ∧ getF LanLaneCtl.sdiEn v = 1) ∧ laneActive l s = true) ∧
    (∃ (s : State) (d : DomId) (v : Word) (l : LaneId), curMode s ≠ 5 ∧ HostMayWrite d (Reg.lanLaneCtl l) s ∧ (32 ≤ l.val → l.val < 48 → sdiEnabled l s = true ∧ getF LanLaneCtl.sdiEn v = 1) ∧ laneActive l s = false ∧ laneState l s ≠ 0 ∧ l.val ∈ laneGroup l s) ∧
    (∃ (s : State) (d : DomId) (v : Word) (l : LaneId), curMode s ≠ 5 ∧ HostMayWrite d (Reg.lanLaneCtl l) s ∧ (32 ≤ l.val → l.val < 48 → sdiEnabled l s = true ∧ getF LanLaneCtl.sdiEn v = 1) ∧ laneActive l s = false ∧ laneState l s ≠ 0 ∧ l.val ∈ laneGroup l s) ∧
    (∃ (s : State) (l : LaneId) (d : DomId) (v : Word), HostMayWrite d (Reg.lanPrbs l) s ∧ curMode s ≠ 5 ∧ getF LanPrbs.genEn v = 1 ∧ laneActive l s = true ∧ keyArmed s = false) ∧
    (∃ (s : State) (l : LaneId) (d : DomId) (v : Word), HostMayWrite d (Reg.lanPrbs l) s ∧ curMode s ≠ 5 ∧ (getF LanPrbs.genEn v = 0 ∨ laneActive l s = false ∨ keyArmed s = true) ∧ (6 ≤ prbsPattern (getF LanPrbs.genPat v) ∨ 6 ≤ prbsPattern (getF LanPrbs.chkPat v)) ∧ lanePam4 l s = false) ∧
    (∃ (s : State) (l : LaneId) (d : DomId) (v : Word), HostMayWrite d (Reg.lanPrbs l) s ∧ curMode s ≠ 5 ∧ (getF LanPrbs.genEn v = 0 ∨ laneActive l s = false ∨ keyArmed s = true) ∧ (6 ≤ prbsPattern (getF LanPrbs.genPat v) ∨ 6 ≤ prbsPattern (getF LanPrbs.chkPat v)) ∧ lanePam4 l s = false) ∧
    (∃ (s : State) (l : LaneId) (d : DomId) (v : Word), HostMayWrite d (Reg.lanPrbs l) s ∧ curMode s ≠ 5 ∧ (getF LanPrbs.genEn v = 0 ∨ laneActive l s = false ∨ keyArmed s = true) ∧ (prbsPattern (getF LanPrbs.genPat v) < 6 ∧ prbsPattern (getF LanPrbs.chkPat v) < 6 ∨ lanePam4 l s = true)) ∧
    (∃ (s : State) (l : LaneId) (d : DomId) (v : Word), HostMayWrite d (Reg.lanPrbs l) s ∧ curMode s ≠ 5 ∧ (getF LanPrbs.genEn v = 0 ∨ laneActive l s = false ∨ keyArmed s = true) ∧ (prbsPattern (getF LanPrbs.genPat v) < 6 ∧ prbsPattern (getF LanPrbs.chkPat v) < 6 ∨ lanePam4 l s = true)) ∧
    (∃ (s : State) (l : LaneId) (clean : Nat), fbit (Reg.lanPrbs l) LanPrbs.chkEn s = true) ∧
    (∃ (s : State) (l : LaneId) (clean : Nat), fbit (Reg.lanPrbs l) LanPrbs.chkEn s = true) ∧
    (∃ (s : State) (l : LaneId) (errs : Nat), fbit (Reg.lanPrbs l) LanPrbs.chkLock s = true) ∧
    (∃ (s : State) (l : LaneId) (errs : Nat), fbit (Reg.lanPrbs l) LanPrbs.chkLock s = true) ∧
    (∃ (s : State) (l : LaneId) (k : Fin 16) (ctl : Word) (d : Nat) (line : Nat), (laneGroup (32 + k.val) s ≠ [] ∧ sdiIsOutput (32 + k.val) s = true ∧ 2 ≤ laneState (32 + k.val) s ∧ curMode s ≠ 5 ∧ ctl = sdiCtl (laneHead (32 + k.val) s) s) ∧ d = getF LanSdiCtl.dom ctl ∧ line = (domPos d s).2.1) ∧
    (∃ (s : State) (l : LaneId) (k : Fin 16) (ctl : Word) (d : Nat) (line : Nat), (laneGroup (32 + k.val) s ≠ [] ∧ sdiIsOutput (32 + k.val) s = true ∧ 2 ≤ laneState (32 + k.val) s ∧ curMode s ≠ 5 ∧ ctl = sdiCtl (laneHead (32 + k.val) s) s) ∧ d = getF LanSdiCtl.dom ctl ∧ line = (domPos d s).2.1) :=
  ⟨⟨(fput (Reg.lanMacCtl 7) LanMacCtl.mode 3 (up 3)), 0, 0x30000008#32, 7, 3, 0#4, by decide +kernel, hmw (by decide +kernel), by decide +kernel⟩,
   ⟨(fput (Reg.lanMacCtl 7) LanMacCtl.portEn 8 (fput (Reg.lanMacCtl 7) LanMacCtl.mode 3 (up 3))), 0, 0x30000009#32, 7, 0, 0xF#4, by decide +kernel, hmw (by decide +kernel), by decide +kernel⟩,
   ⟨(up 3), 0, 1#32, 15, 0#4, by decide +kernel, hmw (by decide +kernel), by decide +kernel⟩,
   ⟨(ready (wr (Reg.lanSdiCtl 44) 2#32 (up 3))), 0, 1#32, 12, 0xF#4, by decide +kernel, hmw (by decide +kernel), by decide +kernel⟩,
   ⟨(fput (Reg.lanLaneStatus 55) LanLaneStatus.laneState 6 (fput (Reg.lanPrbs 55) LanPrbs.genEn 1 (up 3))), 0, 2#32, 55, by decide +kernel, hmw (by decide +kernel), by decide +kernel⟩,
   ⟨(fput (Reg.lanLaneStatus 31) LanLaneStatus.laneState 6 (mac7 (up 3))), 0, 2#32, 31, by decide +kernel, hmw (by decide +kernel), by decide +kernel⟩,
   ⟨(fput (Reg.lanLaneStatus 47) LanLaneStatus.laneState 6 ({ fput (Reg.lanLaneCtl 47) LanLaneCtl.sdiEn 1 (up 3) with lanes := { Lanes.init with sdi := [(47, 0x05000000#32)] } })), 0, 3#32, 47, by decide +kernel, hmw (by decide +kernel), by decide +kernel⟩,
   ⟨(up 3), 48, 0, 1#32, hmw (by decide +kernel), by decide +kernel⟩,
   ⟨(up 3), 31, 0, 0x06060001#32, hmw (by decide +kernel), by decide +kernel⟩,
   ⟨(fput Reg.chipKeyState ChipKeyState.armed 1 (up 3)), 31, 0, 0x06000000#32, hmw (by decide +kernel), by decide +kernel⟩,
   ⟨(fput (Reg.lanPrbs 31) LanPrbs.genEn 1 (mac7 (up 3))), 31, 0, 0x01010003#32, hmw (by decide +kernel), by decide +kernel⟩,
   ⟨(fput Reg.chipKeyState ChipKeyState.armed 1 (up 3)), 55, 0, 1#32, hmw (by decide +kernel), by decide +kernel⟩,
   ⟨(fput (Reg.lanPrbs 55) LanPrbs.chkEn 1 (up 3)), 55, 63, by decide +kernel⟩,
   ⟨(fput (Reg.lanPrbs 55) LanPrbs.chkEn 1 (up 3)), 55, 64, by decide +kernel⟩,
   ⟨(wr (Reg.lanPrbsErr 55) 0xFFFFFFFE#32 (fput (Reg.lanPrbs 55) LanPrbs.chkLock 1 (up 3))), 55, 5, by decide +kernel⟩,
   ⟨(wr (Reg.lanPrbsErr 55) 0xFFFFFFFE#32 (fput (Reg.lanPrbs 55) LanPrbs.chkLock 1 (up 3))), 55, 0x100000001, by decide +kernel⟩,
   ⟨{ (fput (Reg.lanLaneStatus 47) LanLaneStatus.laneState 2 (fput (Reg.sptCtl 2) SptCtl.enable 1 ({ fput (Reg.lanLaneCtl 47) LanLaneCtl.sdiEn 1 (up 3) with lanes := { Lanes.init with sdi := [(47, 0x05000000#32)] } }))) with comp := { Comp.init with sdiOut := 0xFFFF, ports := [] } }, 0, 15, (sdiCtl (laneHead 47 ({ (fput (Reg.lanLaneStatus 47) LanLaneStatus.laneState 2 (fput (Reg.sptCtl 2) SptCtl.enable 1 ({ fput (Reg.lanLaneCtl 47) LanLaneCtl.sdiEn 1 (up 3) with lanes := { Lanes.init with sdi := [(47, 0x05000000#32)] } }))) with comp := { Comp.init with sdiOut := 0xFFFF, ports := [] } })) ({ (fput (Reg.lanLaneStatus 47) LanLaneStatus.laneState 2 (fput (Reg.sptCtl 2) SptCtl.enable 1 ({ fput (Reg.lanLaneCtl 47) LanLaneCtl.sdiEn 1 (up 3) with lanes := { Lanes.init with sdi := [(47, 0x05000000#32)] } }))) with comp := { Comp.init with sdiOut := 0xFFFF, ports := [] } })), (getF LanSdiCtl.dom (sdiCtl (laneHead 47 ({ (fput (Reg.lanLaneStatus 47) LanLaneStatus.laneState 2 (fput (Reg.sptCtl 2) SptCtl.enable 1 ({ fput (Reg.lanLaneCtl 47) LanLaneCtl.sdiEn 1 (up 3) with lanes := { Lanes.init with sdi := [(47, 0x05000000#32)] } }))) with comp := { Comp.init with sdiOut := 0xFFFF, ports := [] } })) ({ (fput (Reg.lanLaneStatus 47) LanLaneStatus.laneState 2 (fput (Reg.sptCtl 2) SptCtl.enable 1 ({ fput (Reg.lanLaneCtl 47) LanLaneCtl.sdiEn 1 (up 3) with lanes := { Lanes.init with sdi := [(47, 0x05000000#32)] } }))) with comp := { Comp.init with sdiOut := 0xFFFF, ports := [] } }))), (domPos (getF LanSdiCtl.dom (sdiCtl (laneHead 47 ({ (fput (Reg.lanLaneStatus 47) LanLaneStatus.laneState 2 (fput (Reg.sptCtl 2) SptCtl.enable 1 ({ fput (Reg.lanLaneCtl 47) LanLaneCtl.sdiEn 1 (up 3) with lanes := { Lanes.init with sdi := [(47, 0x05000000#32)] } }))) with comp := { Comp.init with sdiOut := 0xFFFF, ports := [] } })) ({ (fput (Reg.lanLaneStatus 47) LanLaneStatus.laneState 2 (fput (Reg.sptCtl 2) SptCtl.enable 1 ({ fput (Reg.lanLaneCtl 47) LanLaneCtl.sdiEn 1 (up 3) with lanes := { Lanes.init with sdi := [(47, 0x05000000#32)] } }))) with comp := { Comp.init with sdiOut := 0xFFFF, ports := [] } }))) ({ (fput (Reg.lanLaneStatus 47) LanLaneStatus.laneState 2 (fput (Reg.sptCtl 2) SptCtl.enable 1 ({ fput (Reg.lanLaneCtl 47) LanLaneCtl.sdiEn 1 (up 3) with lanes := { Lanes.init with sdi := [(47, 0x05000000#32)] } }))) with comp := { Comp.init with sdiOut := 0xFFFF, ports := [] } })).2.1, by decide +kernel, rfl, rfl⟩,
   ⟨{ (fput (Reg.lanLaneStatus 47) LanLaneStatus.laneState 2 (fput (Reg.sptCtl 2) SptCtl.enable 1 ({ fput (Reg.lanLaneCtl 47) LanLaneCtl.sdiEn 1 (up 3) with lanes := { Lanes.init with sdi := [(47, 0x05000000#32)] } }))) with comp := { Comp.init with sdiOut := 0xFFFF, ports := [⟨2, 1, true, 15, 0, 0, 4095⟩] } }, 0, 15, (sdiCtl (laneHead 47 ({ (fput (Reg.lanLaneStatus 47) LanLaneStatus.laneState 2 (fput (Reg.sptCtl 2) SptCtl.enable 1 ({ fput (Reg.lanLaneCtl 47) LanLaneCtl.sdiEn 1 (up 3) with lanes := { Lanes.init with sdi := [(47, 0x05000000#32)] } }))) with comp := { Comp.init with sdiOut := 0xFFFF, ports := [⟨2, 1, true, 15, 0, 0, 4095⟩] } })) ({ (fput (Reg.lanLaneStatus 47) LanLaneStatus.laneState 2 (fput (Reg.sptCtl 2) SptCtl.enable 1 ({ fput (Reg.lanLaneCtl 47) LanLaneCtl.sdiEn 1 (up 3) with lanes := { Lanes.init with sdi := [(47, 0x05000000#32)] } }))) with comp := { Comp.init with sdiOut := 0xFFFF, ports := [⟨2, 1, true, 15, 0, 0, 4095⟩] } })), (getF LanSdiCtl.dom (sdiCtl (laneHead 47 ({ (fput (Reg.lanLaneStatus 47) LanLaneStatus.laneState 2 (fput (Reg.sptCtl 2) SptCtl.enable 1 ({ fput (Reg.lanLaneCtl 47) LanLaneCtl.sdiEn 1 (up 3) with lanes := { Lanes.init with sdi := [(47, 0x05000000#32)] } }))) with comp := { Comp.init with sdiOut := 0xFFFF, ports := [⟨2, 1, true, 15, 0, 0, 4095⟩] } })) ({ (fput (Reg.lanLaneStatus 47) LanLaneStatus.laneState 2 (fput (Reg.sptCtl 2) SptCtl.enable 1 ({ fput (Reg.lanLaneCtl 47) LanLaneCtl.sdiEn 1 (up 3) with lanes := { Lanes.init with sdi := [(47, 0x05000000#32)] } }))) with comp := { Comp.init with sdiOut := 0xFFFF, ports := [⟨2, 1, true, 15, 0, 0, 4095⟩] } }))), (domPos (getF LanSdiCtl.dom (sdiCtl (laneHead 47 ({ (fput (Reg.lanLaneStatus 47) LanLaneStatus.laneState 2 (fput (Reg.sptCtl 2) SptCtl.enable 1 ({ fput (Reg.lanLaneCtl 47) LanLaneCtl.sdiEn 1 (up 3) with lanes := { Lanes.init with sdi := [(47, 0x05000000#32)] } }))) with comp := { Comp.init with sdiOut := 0xFFFF, ports := [⟨2, 1, true, 15, 0, 0, 4095⟩] } })) ({ (fput (Reg.lanLaneStatus 47) LanLaneStatus.laneState 2 (fput (Reg.sptCtl 2) SptCtl.enable 1 ({ fput (Reg.lanLaneCtl 47) LanLaneCtl.sdiEn 1 (up 3) with lanes := { Lanes.init with sdi := [(47, 0x05000000#32)] } }))) with comp := { Comp.init with sdiOut := 0xFFFF, ports := [⟨2, 1, true, 15, 0, 0, 4095⟩] } }))) ({ (fput (Reg.lanLaneStatus 47) LanLaneStatus.laneState 2 (fput (Reg.sptCtl 2) SptCtl.enable 1 ({ fput (Reg.lanLaneCtl 47) LanLaneCtl.sdiEn 1 (up 3) with lanes := { Lanes.init with sdi := [(47, 0x05000000#32)] } }))) with comp := { Comp.init with sdiOut := 0xFFFF, ports := [⟨2, 1, true, 15, 0, 0, 4095⟩] } })).2.1, by decide +kernel, rfl, rfl⟩⟩

theorem test_meets_RingDevicesForwardAndOriginate :
    (∃ (s : State) (d : DomId) (v : Word) (clk : BitVec 4), HostMayWrite d Reg.lanRingCtl s ∧ curMode s ≠ 5 ∧ fbit Reg.lanRingCtl LanRingCtl.active s = false ∧ getF LanRingCtl.active v = 1) ∧
    (∃ (s : State) (d : DomId) (v : Word) (clk : BitVec 4), HostMayWrite d Reg.lanRingCtl s ∧ curMode s ≠ 5 ∧ fbit Reg.lanRingCtl LanRingCtl.active s = false ∧ getF LanRingCtl.active v = 1) ∧
    (∃ (s : State) (f : RingFrame) (g : RingFrame) (bad : List (Fin 40)), memberPath s = true ∧ s.ring.wanted = none ∧ g = cellsLeft (bad.map Fin.val) f ∧ headerVoid (bad.map Fin.val) = false ∧ ringState s = 1) ∧
    (∃ (s : State) (f : RingFrame) (g : RingFrame) (bad : List (Fin 40)), memberPath s = true ∧ s.ring.wanted = none ∧ g = cellsLeft (bad.map Fin.val) f ∧ headerVoid (bad.map Fin.val) = false ∧ ringState s = 1) ∧
    (∃ (s : State) (f : RingFrame) (g : RingFrame) (bad : List (Fin 40)), memberPath s = true ∧ s.ring.wanted = none ∧ g = cellsLeft (bad.map Fin.val) f ∧ headerVoid (bad.map Fin.val) = false ∧ ringState s = 2) ∧
    (∃ (s : State) (f : RingFrame) (g : RingFrame) (bad : List (Fin 40)), memberPath s = true ∧ s.ring.wanted = none ∧ g = cellsLeft (bad.map Fin.val) f ∧ headerVoid (bad.map Fin.val) = false ∧ ringState s = 2) ∧
    (∃ (s : State) (f : RingFrame) (g : RingFrame) (bad : List (Fin 40)), memberPath s = true ∧ s.ring.wanted = none ∧ g = cellsLeft (bad.map Fin.val) f ∧ headerVoid (bad.map Fin.val) = false ∧ ringState s = 3 ∧ f.kind = 1 ∧ f.masterId = s.ring.id) ∧
    (∃ (s : State) (f : RingFrame) (g : RingFrame) (bad : List (Fin 40)), memberPath s = true ∧ s.ring.wanted = none ∧ g = cellsLeft (bad.map Fin.val) f ∧ headerVoid (bad.map Fin.val) = true ∧ ringState s ≠ 0 ∧ s.ring.badRun = 63 ∧ fbit Reg.lanRingStatus LanRingStatus.frameLock s = true) ∧
    (∃ (s : State) (f : RingFrame) (g : RingFrame) (bad : List (Fin 40)), memberPath s = true ∧ s.ring.wanted = none ∧ g = cellsLeft (bad.map Fin.val) f ∧ headerVoid (bad.map Fin.val) = true ∧ ringState s ≠ 0 ∧ s.ring.badRun = 63 ∧ fbit Reg.lanRingStatus LanRingStatus.frameLock s = true) ∧
    (∃ (s : State) (f : RingFrame) (bad : List (Fin 40)), s.pwr.passThrough = true ∧ s.pwr.bypass = true ∧ fget Reg.chipMode ChipMode.mittenPath s = 1) ∧
    (∃ (s : State), memberPath s = true ∧ ringState s = 3 ∧ s.ring.wanted ≠ some false ∧ originateDue s = true) ∧
    (∃ (s : State), memberPath s = true ∧ ringState s = 4 ∧ s.ring.wanted ≠ some false ∧ originateDue s = true) ∧
    (∃ (s : State), memberPath s = true ∧ s.ring.heardAt + 25600 ≤ s.now ∧ ringState s ≤ 2 ∧ fbit Reg.lanRingCtl LanRingCtl.active s = true ∧ 0 < s.ring.pri) ∧
    (∃ (s : State) (k : Fin 8) (e : Nat × Nat), s.ring.trigDue.find? (fun x => x.1 == k.val && decide (x.2 ≤ s.now)) = some e) :=
  ⟨⟨{ (fput Reg.chipMode ChipMode.mittenPath 0 (fput Reg.lanRingStatus LanRingStatus.ringState 0 (up 3))) with ring := RingSt.init, comp := { Comp.init with ringEn := true } }, 0, 0x07030001#32, 0#4, hmw (by decide +kernel), by decide +kernel⟩,
   ⟨{ (fput Reg.chipMode ChipMode.mittenPath 0 (fput Reg.lanRingStatus LanRingStatus.ringState 0 (up 3))) with ring := RingSt.init, comp := { Comp.init with ringEn := true } }, 0, 0x07030001#32, 0xF#4, hmw (by decide +kernel), by decide +kernel⟩,
   ⟨{ (fput Reg.chipMode ChipMode.mittenPath 0 (fput Reg.lanRingStatus LanRingStatus.ringState 1 (up 3))) with ring := { RingSt.init with id := 3, pri := 7 }, comp := { Comp.init with ringEn := true } }, ⟨1, 0, 3, 7, 9, 5, 7, 11, 0#8, 0#8, 150, [], []⟩, (cellsLeft (([] : List (Fin 40)).map Fin.val) (⟨1, 0, 3, 7, 9, 5, 7, 11, 0#8, 0#8, 150, [], []⟩ : RingFrame)), [], by decide +kernel⟩,
   ⟨{ (fput Reg.chipMode ChipMode.mittenPath 0 (fput Reg.lanRingStatus LanRingStatus.ringState 1 (up 3))) with ring := { RingSt.init with id := 3, pri := 7 }, comp := { Comp.init with ringEn := true } }, ⟨1, 0, 5, 9, 3, 4, 5, 6, 0xFF#8, 0xFF#8, 150, [], []⟩, (cellsLeft (([39] : List (Fin 40)).map Fin.val) (⟨1, 0, 5, 9, 3, 4, 5, 6, 0xFF#8, 0xFF#8, 150, [], []⟩ : RingFrame)), [39], by decide +kernel⟩,
   ⟨{ (fput Reg.chipMode ChipMode.mittenPath 0 (fput Reg.lanRingStatus LanRingStatus.ringState 2 (up 3))) with ring := { RingSt.init with id := 3, pri := 7 }, comp := { Comp.init with ringEn := true } }, ⟨1, 0, 3, 7, 9, 5, 7, 11, 0#8, 0#8, 150, [], []⟩, (cellsLeft (([] : List (Fin 40)).map Fin.val) (⟨1, 0, 3, 7, 9, 5, 7, 11, 0#8, 0#8, 150, [], []⟩ : RingFrame)), [], by decide +kernel⟩,
   ⟨{ (fput Reg.chipMode ChipMode.mittenPath 0 (fput Reg.lanRingStatus LanRingStatus.ringState 2 (up 3))) with ring := { RingSt.init with id := 3, pri := 7 }, comp := { Comp.init with ringEn := true } }, ⟨1, 0, 5, 9, 3, 4, 5, 6, 0xFF#8, 0xFF#8, 150, [], []⟩, (cellsLeft (([38, 39] : List (Fin 40)).map Fin.val) (⟨1, 0, 5, 9, 3, 4, 5, 6, 0xFF#8, 0xFF#8, 150, [], []⟩ : RingFrame)), [38, 39], by decide +kernel⟩,
   ⟨{ (fput Reg.chipMode ChipMode.mittenPath 0 (fput Reg.lanRingStatus LanRingStatus.ringState 3 (up 3))) with ring := { RingSt.init with id := 3, pri := 7 }, comp := { Comp.init with ringEn := true } }, ⟨1, 0, 3, 7, 9, 5, 7, 11, 0#8, 0#8, 150, [], []⟩, (cellsLeft (([] : List (Fin 40)).map Fin.val) (⟨1, 0, 3, 7, 9, 5, 7, 11, 0#8, 0#8, 150, [], []⟩ : RingFrame)), [], by decide +kernel⟩,
   ⟨(fput Reg.lanRingStatus LanRingStatus.frameLock 1 { (fput Reg.chipMode ChipMode.mittenPath 0 (fput Reg.lanRingStatus LanRingStatus.ringState 2 (up 3))) with ring := { RingSt.init with badRun := 63 }, comp := { Comp.init with ringEn := true } }), ⟨1, 0, 3, 7, 9, 5, 7, 11, 0#8, 0#8, 150, [], []⟩, (cellsLeft (([0, 1, 2, 3, 4, 5, 6, 7] : List (Fin 40)).map Fin.val) (⟨1, 0, 3, 7, 9, 5, 7, 11, 0#8, 0#8, 150, [], []⟩ : RingFrame)), [0, 1, 2, 3, 4, 5, 6, 7], by decide +kernel⟩,
   ⟨(fput Reg.lanRingStatus LanRingStatus.frameLock 1 { (fput Reg.chipMode ChipMode.mittenPath 0 (fput Reg.lanRingStatus LanRingStatus.ringState 1 (up 3))) with ring := { RingSt.init with badRun := 63 }, comp := { Comp.init with ringEn := true } }), ⟨1, 0, 3, 7, 9, 5, 7, 11, 0#8, 0#8, 150, [], []⟩, (cellsLeft (([0, 1, 2, 3, 4, 5, 6, 7] : List (Fin 40)).map Fin.val) (⟨1, 0, 3, 7, 9, 5, 7, 11, 0#8, 0#8, 150, [], []⟩ : RingFrame)), [0, 1, 2, 3, 4, 5, 6, 7], by decide +kernel⟩,
   ⟨(fput Reg.chipMode ChipMode.mittenPath 1 { (up 0) with pwr := { (up 0).pwr with bypass := true, passThrough := true } }), ⟨1, 0, 3, 7, 9, 5, 7, 11, 0#8, 0#8, 150, [], []⟩, [3], by decide +kernel⟩,
   ⟨{ (fput Reg.chipMode ChipMode.mittenPath 0 (fput Reg.lanRingStatus LanRingStatus.ringState 3 ({ up 3 with clock := { Clock.init with running := true, timeBase := 2 * 10 ^ 15, rate := 5 } }))) with ring := { RingSt.init with id := 3, pri := 7, seqOut := 0xFFFFFFFF, returned := some ⟨1, 0, 3, 7, 9, 5, 7, 11, 0#8, 0#8, 150, [], []⟩, trigUp := 3#8 }, comp := { Comp.init with ringEn := true } }, by decide +kernel⟩,
   ⟨{ (fput Reg.chipMode ChipMode.mittenPath 0 (fput Reg.lanRingStatus LanRingStatus.ringState 4 ({ up 3 with clock := { Clock.init with running := true, timeBase := 2 * 10 ^ 15, rate := 5 } }))) with ring := { RingSt.init with id := 3, pri := 7 }, comp := { Comp.init with ringEn := true } }, by decide +kernel⟩,
   ⟨{ (fput Reg.chipMode ChipMode.mittenPath 0 (fput Reg.lanRingStatus LanRingStatus.ringState 2 ({ (fput Reg.lanRingCtl LanRingCtl.active 1 (up 3)) with now := 30000 }))) with ring := { RingSt.init with id := 3, pri := 7 }, comp := { Comp.init with ringEn := true } }, by decide +kernel⟩,
   ⟨{ fput Reg.rckTrigCtl RckTrigCtl.tinEn 8 (({ up 3 with clock := { Clock.init with running := true, timeBase := 1000, rate := 5 } })) with now := 7, ring := { RingSt.init with trigDue := [(2, 5), (7, 6)] } }, 7, (7, 6), by decide +kernel⟩⟩

theorem test_meets_IngressAndPolicing :
    (∃ (s : State) (m : MacId) (j : Fin 4) (corr : Nat) (uncorr : Nat) (frame : List Byte) (f : FrameIn), curMode s ≠ 5 ∧ f = parseFrame frame ∧ fbit (Reg.lanMacPortStatus m j) LanMacPortStatus.linkUp s = true ∧ isPtp m f s = false ∧ (f.dstMac ≠ macAddr (rd (Reg.schMacAddrLo (4 * m.val + j.val)) s) (rd (Reg.schMacAddrHi (4 * m.val + j.val)) s) ∧ macGroup f.dstMac = false ∨ classify m j f s = none ∧ rawPort m j false s = none)) ∧
    (∃ (s : State) (m : MacId) (j : Fin 4) (corr : Nat) (uncorr : Nat) (frame : List Byte) (f : FrameIn), curMode s ≠ 5 ∧ f = parseFrame frame ∧ fbit (Reg.lanMacPortStatus m j) LanMacPortStatus.linkUp s = true ∧ isPtp m f s = false ∧ (f.dstMac ≠ macAddr (rd (Reg.schMacAddrLo (4 * m.val + j.val)) s) (rd (Reg.schMacAddrHi (4 * m.val + j.val)) s) ∧ macGroup f.dstMac = false ∨ classify m j f s = none ∧ rawPort m j false s = none)) ∧
    (∃ (s : State) (m : MacId) (j : Fin 4) (corr : Nat) (uncorr : Nat) (frame : List Byte) (f : FrameIn) (n : PortId), curMode s ≠ 5 ∧ f = parseFrame frame ∧ fbit (Reg.lanMacPortStatus m j) LanMacPortStatus.linkUp s = true ∧ isPtp m f s = false ∧ (macGroup f.dstMac = true ∨ f.dstMac = macAddr (rd (Reg.schMacAddrLo (4 * m.val + j.val)) s) (rd (Reg.schMacAddrHi (4 * m.val + j.val)) s)) ∧ classify m j f s = some n.val ∧ sptEnabled n s = true) ∧
    (∃ (s : State) (m : MacId) (j : Fin 4) (corr : Nat) (uncorr : Nat) (frame : List Byte) (f : FrameIn) (n : PortId), curMode s ≠ 5 ∧ f = parseFrame frame ∧ fbit (Reg.lanMacPortStatus m j) LanMacPortStatus.linkUp s = true ∧ isPtp m f s = false ∧ (macGroup f.dstMac = true ∨ f.dstMac = macAddr (rd (Reg.schMacAddrLo (4 * m.val + j.val)) s) (rd (Reg.schMacAddrHi (4 * m.val + j.val)) s)) ∧ classify m j f s = some n.val ∧ sptEnabled n s = true) ∧
    (∃ (s : State) (l : Fin 16) (y : Nat) (first : Bool) (f2 : Bool) (payload : Option Word) (crcBad : Bool) (line : LineIn), curMode s ≠ 5 ∧ laneState (32 + l.val) s = 6) ∧
    (∃ (s : State) (l : Fin 16) (y : Nat) (first : Bool) (f2 : Bool) (payload : Option Word) (crcBad : Bool) (line : LineIn), curMode s ≠ 5 ∧ laneState (32 + l.val) s = 6) ∧
    (∃ (s : State) (n : PortId), (getPort n s).tokenAt + 1600 ≤ s.now) ∧
    (∃ (s : State) (n : PortId) (d : DomId) (burst : Bool) (v : Word) (o : Nat), o = (if burst then Reg.sptPolBurst n else Reg.sptPolRate n) ∧ HostMayWrite d o s ∧ curMode s ≠ 5) ∧
    (∃ (s : State) (n : PortId) (d : DomId) (burst : Bool) (v : Word) (o : Nat), o = (if burst then Reg.sptPolBurst n else Reg.sptPolRate n) ∧ HostMayWrite d o s ∧ curMode s ≠ 5) ∧
    (∃ (s : State) (n : PortId) (m : Nat) (k : Nat) (q : Nat) (h : MergeIn), mergePartner n s = some m ∧ k = min n.val m ∧ (getPort k s).merge = [h] ∧ (getPort k s).nextSeq = some q ∧ q < h.seq ∧ h.since + mergeCycles h.port s ≤ s.now) ∧
    (∃ (s : State) (n : PortId) (m : Nat) (k : Nat) (q : Nat) (h : MergeIn), mergePartner n s = some m ∧ k = min n.val m ∧ (getPort k s).merge = [h] ∧ (getPort k s).nextSeq = some q ∧ q < h.seq ∧ s.now < h.since + mergeCycles h.port s) ∧
    (∃ (s : State) (n : PortId) (m : Nat), portTakes n s = true ∧ mergePartner n s = some m ∧ (getPort n s).silent = false ∧ (getPort n s).heard + mergeCycles n s ≤ s.now ∧ s.now < (getPort m s).heard + mergeCycles n s) :=
  ⟨⟨(fput (Reg.lanMacPortStatus 7 3) LanMacPortStatus.linkUp 1 (wr (Reg.lanMacPortFecCorr 7 3) 0xFFFFFFFF#32 (up 3))), 7, 3, 5, 1, [0#8, 0#8, 0#8, 0#8, 0#8, 5#8, 2#8, 0#8, 0#8, 0#8, 0#8, 1#8, 8#8, 0#8, 69#8, 0#8, 0#8, 44#8, 0#8, 0#8, 0#8, 0#8, 64#8, 17#8, 144#8, 191#8, 10#8, 0#8, 0#8, 1#8, 224#8, 0#8, 0#8, 1#8, 0#8, 9#8, 19#8, 140#8, 0#8, 24#8, 171#8, 214#8, 128#8, 224#8, 0#8, 7#8, 0#8, 0#8, 0#8, 90#8, 0#8, 0#8, 0#8, 5#8, 38#8, 1#8, 175#8, 8#8], (parseFrame ([0#8, 0#8, 0#8, 0#8, 0#8, 5#8, 2#8, 0#8, 0#8, 0#8, 0#8, 1#8, 8#8, 0#8, 69#8, 0#8, 0#8, 44#8, 0#8, 0#8, 0#8, 0#8, 64#8, 17#8, 144#8, 191#8, 10#8, 0#8, 0#8, 1#8, 224#8, 0#8, 0#8, 1#8, 0#8, 9#8, 19#8, 140#8, 0#8, 24#8, 171#8, 214#8, 128#8, 224#8, 0#8, 7#8, 0#8, 0#8, 0#8, 90#8, 0#8, 0#8, 0#8, 5#8, 38#8, 1#8, 175#8, 8#8])), by decide +kernel, rfl, by decide +kernel⟩,
   ⟨(fput (Reg.lanMacPortStatus 7 3) LanMacPortStatus.linkUp 1 (up 3)), 7, 3, 5, 1, [1#8, 0#8, 94#8, 0#8, 0#8, 1#8, 2#8, 0#8, 0#8, 0#8, 0#8, 1#8, 8#8, 0#8, 69#8, 0#8, 0#8, 44#8, 0#8, 0#8, 0#8, 0#8, 64#8, 17#8, 144#8, 191#8, 10#8, 0#8, 0#8, 1#8, 224#8, 0#8, 0#8, 1#8, 0#8, 9#8, 19#8, 140#8, 0#8, 24#8, 171#8, 214#8, 128#8, 224#8, 0#8, 7#8, 0#8, 0#8, 0#8, 90#8, 0#8, 0#8, 0#8, 5#8, 38#8, 1#8, 175#8, 8#8], (parseFrame ([1#8, 0#8, 94#8, 0#8, 0#8, 1#8, 2#8, 0#8, 0#8, 0#8, 0#8, 1#8, 8#8, 0#8, 69#8, 0#8, 0#8, 44#8, 0#8, 0#8, 0#8, 0#8, 64#8, 17#8, 144#8, 191#8, 10#8, 0#8, 0#8, 1#8, 224#8, 0#8, 0#8, 1#8, 0#8, 9#8, 19#8, 140#8, 0#8, 24#8, 171#8, 214#8, 128#8, 224#8, 0#8, 7#8, 0#8, 0#8, 0#8, 90#8, 0#8, 0#8, 0#8, 5#8, 38#8, 1#8, 175#8, 8#8])), by decide +kernel, rfl, by decide +kernel⟩,
   ⟨(portAt 1023 { Port.init with latched := [(0x10, 0x2C000000#32), (0x14, 0x138C#32), (0x18, 0xE0000001#32)] } (withPorts [⟨1023, 0, false, 7, 0, 0, 4095⟩] (fput (Reg.lanMacPortStatus 7 3) LanMacPortStatus.linkUp 1 (enabled (composed 9 (pooled 0 [0, 1, 2, 3] (up 3))))))), 7, 3, 5, 1, [1#8, 0#8, 94#8, 0#8, 0#8, 1#8, 2#8, 0#8, 0#8, 0#8, 0#8, 1#8, 8#8, 0#8, 69#8, 0#8, 0#8, 44#8, 0#8, 0#8, 0#8, 0#8, 64#8, 17#8, 144#8, 191#8, 10#8, 0#8, 0#8, 1#8, 224#8, 0#8, 0#8, 1#8, 0#8, 9#8, 19#8, 140#8, 0#8, 24#8, 171#8, 214#8, 128#8, 224#8, 0#8, 7#8, 0#8, 0#8, 0#8, 90#8, 0#8, 0#8, 0#8, 5#8, 38#8, 1#8, 175#8, 8#8], (parseFrame ([1#8, 0#8, 94#8, 0#8, 0#8, 1#8, 2#8, 0#8, 0#8, 0#8, 0#8, 1#8, 8#8, 0#8, 69#8, 0#8, 0#8, 44#8, 0#8, 0#8, 0#8, 0#8, 64#8, 17#8, 144#8, 191#8, 10#8, 0#8, 0#8, 1#8, 224#8, 0#8, 0#8, 1#8, 0#8, 9#8, 19#8, 140#8, 0#8, 24#8, 171#8, 214#8, 128#8, 224#8, 0#8, 7#8, 0#8, 0#8, 0#8, 90#8, 0#8, 0#8, 0#8, 5#8, 38#8, 1#8, 175#8, 8#8])), 1023, by decide +kernel, rfl, by decide +kernel⟩,
   ⟨(wr (Reg.sptPolRate 1023) 5#32 (portAt 1023 { Port.init with latched := [(0x10, 0x2C000000#32), (0x14, 0x138C#32), (0x18, 0xE0000001#32)] } (withPorts [⟨1023, 0, false, 7, 0, 0, 4095⟩] (fput (Reg.lanMacPortStatus 7 3) LanMacPortStatus.linkUp 1 (enabled (composed 9 (pooled 0 [0, 1, 2, 3] (up 3)))))))), 7, 3, 5, 1, [1#8, 0#8, 94#8, 0#8, 0#8, 1#8, 2#8, 0#8, 0#8, 0#8, 0#8, 1#8, 8#8, 0#8, 69#8, 0#8, 0#8, 44#8, 0#8, 0#8, 0#8, 0#8, 64#8, 17#8, 144#8, 191#8, 10#8, 0#8, 0#8, 1#8, 224#8, 0#8, 0#8, 1#8, 0#8, 9#8, 19#8, 140#8, 0#8, 24#8, 171#8, 214#8, 128#8, 224#8, 0#8, 7#8, 0#8, 0#8, 0#8, 90#8, 0#8, 0#8, 0#8, 5#8, 38#8, 1#8, 175#8, 8#8], (parseFrame ([1#8, 0#8, 94#8, 0#8, 0#8, 1#8, 2#8, 0#8, 0#8, 0#8, 0#8, 1#8, 8#8, 0#8, 69#8, 0#8, 0#8, 44#8, 0#8, 0#8, 0#8, 0#8, 64#8, 17#8, 144#8, 191#8, 10#8, 0#8, 0#8, 1#8, 224#8, 0#8, 0#8, 1#8, 0#8, 9#8, 19#8, 140#8, 0#8, 24#8, 171#8, 214#8, 128#8, 224#8, 0#8, 7#8, 0#8, 0#8, 0#8, 90#8, 0#8, 0#8, 0#8, 5#8, 38#8, 1#8, 175#8, 8#8])), 1023, by decide +kernel, rfl, by decide +kernel⟩,
   ⟨(withPorts [⟨5, 1, false, 15, 0, 0, 4095⟩] (fput (Reg.lanLaneStatus 47) LanLaneStatus.laneState 6 (enabled (composed 2 (up 3))))), 15, 3, true, false, (some 5#32), true, ⟨[1], [2], [3]⟩, by decide +kernel⟩,
   ⟨(fput (Reg.sptCtl 5) SptCtl.enable 1 (withPorts [⟨5, 1, false, 15, 0, 0, 4095⟩] (fput (Reg.lanLaneStatus 47) LanLaneStatus.laneState 6 (setPipe 0 { Pipe.init with capLive := 1 } (enabled (composed 2 (up 3))))))), 15, 3, false, false, none, false, ⟨[1], [2], [3]⟩, by decide +kernel⟩,
   ⟨(later 1600 <| wr (Reg.sptPolBurst 1023) 0xFF000002#32 (wr (Reg.sptPolRate 1023) 0xFFFFFFFF#32 (up 3))), 1023, by decide +kernel⟩,
   ⟨(up 3), 1023, 0, true, 0xFFFFFFFF#32, (Reg.sptPolBurst 1023), by decide +kernel, hmw (by decide +kernel), by decide +kernel⟩,
   ⟨(wr (Reg.sptPolBurst 1023) 2#32 (up 3)), 1023, 0, false, 0xFFFFFFFF#32, (Reg.sptPolRate 1023), by decide +kernel, hmw (by decide +kernel), by decide +kernel⟩,
   ⟨{ (setPort 1022 { Port.init with merge := [⟨9, ⟨true, 90, 9, [], [], [], 0⟩, 1023, [], 0⟩], nextSeq := some 4 } (withPorts [⟨1022, 0, false, 7, 0, 0, 1023⟩, ⟨1023, 0, false, 7, 0, 0, 1022⟩] (enabled (composed 9 (up 3))))) with now := 1600000 }, 1023, 1022, 1022, 4, ⟨9, ⟨true, 90, 9, [], [], [], 0⟩, 1023, [], 0⟩, by decide +kernel⟩,
   ⟨{ (setPort 1022 { Port.init with merge := [⟨9, ⟨true, 90, 9, [], [], [], 0⟩, 1023, [], 0⟩], nextSeq := some 4 } (withPorts [⟨1022, 0, false, 7, 0, 0, 1023⟩, ⟨1023, 0, false, 7, 0, 0, 1022⟩] (enabled (composed 9 (up 3))))) with now := 1599999 }, 1023, 1022, 1022, 4, ⟨9, ⟨true, 90, 9, [], [], [], 0⟩, 1023, [], 0⟩, by decide +kernel⟩,
   ⟨{ (setPort 1023 { Port.init with heard := 1 } (fput (Reg.sptCtl 1022) SptCtl.enable 1 (withPorts [⟨1022, 0, false, 7, 0, 0, 1023⟩] (up 3)))) with now := 1600000 }, 1022, 1023, by decide +kernel⟩⟩

theorem test_meets_TargetsAndShapers :
    (∃ (s : State) (k : Fin 33) (p : State) (q : Packet) (l : List Packet), p = refreshTarget k (tsPad k s) ∧ (getTarget k p).busy = 0 ∧ targetUp k p = true ∧ curMode p ≠ 5 ∧ (getTarget k p).ptp = q :: l) ∧
    (∃ (s : State) (k : Fin 33) (p : State) (n : Nat) (q : Packet) (l : List Packet), p = refreshTarget k (tsPad k s) ∧ (getTarget k p).busy = 0 ∧ targetUp k p = true ∧ curMode p ≠ 5 ∧ (getTarget k p).ptp = [] ∧ k.val < 32 ∧ rawPort (k / 4) (k % 4) true p = some n ∧ (getPort n p).queue = q :: l) ∧
    (∃ (s : State) (k : Fin 33) (p : State) (n : Nat) (l : List Nat) (q : Packet) (qs : List Packet) (a : Nat), p = refreshTarget k (tsPad k s) ∧ ((getTarget k p).busy = 0 ∧ targetUp k p = true ∧ curMode p ≠ 5 ∧ (getTarget k p).ptp = [] ∧ (if k.val < 32 then rawPort (k / 4) (k % 4) true p else none) = none) ∧ ((getTarget k p).high = n :: l ∨ (getTarget k p).high = [] ∧ (getTarget k p).low = n :: l) ∧ (getPort n p).queue = q :: qs ∧ a = (getPort n p).deficit + (if (getPort n p).fresh then (fget (Reg.schPortCtl n) SchPortCtl.quantum p + 1) * 64 else 0) ∧ q.size ≤ a) ∧
    (∃ (s : State) (k : Fin 33) (p : State) (n : Nat) (l : List Nat) (q : Packet) (qs : List Packet) (a : Nat), p = refreshTarget k (tsPad k s) ∧ ((getTarget k p).busy = 0 ∧ targetUp k p = true ∧ curMode p ≠ 5 ∧ (getTarget k p).ptp = [] ∧ (if k.val < 32 then rawPort (k / 4) (k % 4) true p else none) = none) ∧ ((getTarget k p).high = n :: l ∨ (getTarget k p).high = [] ∧ (getTarget k p).low = n :: l) ∧ (getPort n p).queue = q :: qs ∧ a = (getPort n p).deficit + (if (getPort n p).fresh then (fget (Reg.schPortCtl n) SchPortCtl.quantum p + 1) * 64 else 0) ∧ q.size ≤ a) ∧
    (∃ (s : State) (k : Fin 33) (n : PortId), curMode s ≠ 5 ∧ targetPorts k s = [n.val] ∧ sptEnabled n s = true ∧ portEncap n s = 3 ∧ tsSpacing n s ≠ 0 ∧ (getPort n s).queue = [] ∧ (getPort n s).tsNext ≤ s.now ∧ (getTarget k s).busy ≠ 0 ∧ portLinkUp n s = true ∧ fbit (Reg.sptImpCtl n) SptImpCtl.impEn s = false) ∧
    (∃ (s : State) (k : Fin 33) (n : PortId) (q : Packet), (getTarget k s).busy = n.val + 1 ∧ (getPort n s).sending = some q ∧ q.kind ≠ 5 ∧ (getPort n s).change = none ∧ (getTarget k s).endAt ≤ s.now) ∧
    (∃ (s : State) (k : Fin 33) (n : PortId) (q : Packet), (getTarget k s).busy = n.val + 1 ∧ (getPort n s).sending = some q ∧ q.kind ≠ 5 ∧ (getPort n s).change = none ∧ (getTarget k s).endAt ≤ s.now) ∧
    (∃ (s : State), (s.comp.ports.map (·.port)).Nodup) ∧
    (∃ (s : State), (s.comp.ports.map (·.port)).Nodup) ∧
    (∃ (s : State) (n : PortId) (d : DomId) (k : Fin 3) (v : Word), HostMayWrite d (Reg.schPortCtl n + 4 * k.val) s ∧ curMode s ≠ 5 ∧ (getPort n s).sending.isSome = true) ∧
    (∃ (s : State) (n : PortId) (d : DomId) (k : Fin 3) (v : Word), HostMayWrite d (Reg.schPortCtl n + 4 * k.val) s ∧ curMode s ≠ 5 ∧ (getPort n s).sending.isSome = true) ∧
    (∃ (s : State) (n : PortId) (d : DomId) (k : Fin 3) (v : Word), HostMayWrite d (Reg.schPortCtl n + 4 * k.val) s ∧ curMode s ≠ 5 ∧ (getPort n s).sending = none) ∧
    (∃ (s : State) (n : PortId) (d : DomId) (k : Fin 3) (v : Word), HostMayWrite d (Reg.schPortCtl n + 4 * k.val) s ∧ curMode s ≠ 5 ∧ (getPort n s).sending = none) ∧
    (∃ (s : State) (n : PortId), sptEnabled n s = true ∧ sampleDue n s = true ∧ (portEntry n s).any (·.egress) = true) ∧
    (∃ (s : State) (n : PortId), sptEnabled n s = true ∧ sampleDue n s = true ∧ (portEntry n s).any (·.egress) = true) :=
  ⟨⟨(setTarget 31 { Target32.init with ptp := [⟨1, 100, 0, 0, 0, 3, true, [], true, true, true, none, []⟩, ⟨1, 72, 0, 0, 0, 3, true, [], true, true, true, none, []⟩] } (fput (Reg.lanMacPortStatus 7 3) LanMacPortStatus.linkUp 1 (up 3))), 31, (refreshTarget 31 (tsPad 31 (setTarget 31 { Target32.init with ptp := [⟨1, 100, 0, 0, 0, 3, true, [], true, true, true, none, []⟩, ⟨1, 72, 0, 0, 0, 3, true, [], true, true, true, none, []⟩] } (fput (Reg.lanMacPortStatus 7 3) LanMacPortStatus.linkUp 1 (up 3))))), ⟨1, 100, 0, 0, 0, 3, true, [], true, true, true, none, []⟩, [⟨1, 72, 0, 0, 0, 3, true, [], true, true, true, none, []⟩], rfl, by decide +kernel⟩,
   ⟨(portAt 1023 { Port.init with latched := [(0x10, 0x61F00000#32)], queue := [⟨2, 100, 0, 0, 0, 3, true, [], true, true, true, none, []⟩] } (withPorts [⟨1023, 3, true, 7, 0, 0, 4095⟩] (fput (Reg.lanMacPortStatus 7 3) LanMacPortStatus.linkUp 1 (mac7 (up 3))))), 31, (refreshTarget 31 (tsPad 31 (portAt 1023 { Port.init with latched := [(0x10, 0x61F00000#32)], queue := [⟨2, 100, 0, 0, 0, 3, true, [], true, true, true, none, []⟩] } (withPorts [⟨1023, 3, true, 7, 0, 0, 4095⟩] (fput (Reg.lanMacPortStatus 7 3) LanMacPortStatus.linkUp 1 (mac7 (up 3))))))), 1023, ⟨2, 100, 0, 0, 0, 3, true, [], true, true, true, none, []⟩, [], rfl, by decide +kernel⟩,
   ⟨(fput (Reg.schPortCtl 1023) SchPortCtl.quantum 4 (portAt 1023 { Port.init with latched := [(0x10, 0x2C000000#32)], queue := [⟨0, 100, 0, 0, 0, 3, true, [], true, true, true, none, []⟩, ⟨0, 50, 0, 0, 0, 3, true, [], true, true, true, none, []⟩] } (withPorts [⟨1023, 0, true, 7, 0, 0, 4095⟩] (fput (Reg.lanMacPortStatus 7 3) LanMacPortStatus.linkUp 1 (up 3))))), 31, (refreshTarget 31 (tsPad 31 (fput (Reg.schPortCtl 1023) SchPortCtl.quantum 4 (portAt 1023 { Port.init with latched := [(0x10, 0x2C000000#32)], queue := [⟨0, 100, 0, 0, 0, 3, true, [], true, true, true, none, []⟩, ⟨0, 50, 0, 0, 0, 3, true, [], true, true, true, none, []⟩] } (withPorts [⟨1023, 0, true, 7, 0, 0, 4095⟩] (fput (Reg.lanMacPortStatus 7 3) LanMacPortStatus.linkUp 1 (up 3))))))), 1023, [], ⟨0, 100, 0, 0, 0, 3, true, [], true, true, true, none, []⟩, [⟨0, 50, 0, 0, 0, 3, true, [], true, true, true, none, []⟩], 320, rfl, by decide +kernel, .inr (by decide +kernel), by decide +kernel⟩,
   ⟨(fput (Reg.schPortCtl 1023) SchPortCtl.prio 1 (portAt 1023 { Port.init with latched := [(0x10, 0x2C000000#32)], queue := [⟨0, 64, 0, 0, 0, 3, true, [], true, true, true, none, []⟩] } (withPorts [⟨1023, 0, true, 7, 0, 0, 4095⟩] (fput (Reg.lanMacPortStatus 7 3) LanMacPortStatus.linkUp 1 (up 3))))), 31, (refreshTarget 31 (tsPad 31 (fput (Reg.schPortCtl 1023) SchPortCtl.prio 1 (portAt 1023 { Port.init with latched := [(0x10, 0x2C000000#32)], queue := [⟨0, 64, 0, 0, 0, 3, true, [], true, true, true, none, []⟩] } (withPorts [⟨1023, 0, true, 7, 0, 0, 4095⟩] (fput (Reg.lanMacPortStatus 7 3) LanMacPortStatus.linkUp 1 (up 3))))))), 1023, [], ⟨0, 64, 0, 0, 0, 3, true, [], true, true, true, none, []⟩, [], 64, rfl, by decide +kernel, .inl (by decide +kernel), by decide +kernel⟩,
   ⟨(setTarget 31 { Target32.init with busy := 1024 } (portAt 1023 { Port.init with latched := [(0x10, 0x3C000000#32), (0x50, 0x7#32)], queue := [] } (withPorts [⟨1023, 0, true, 7, 0, 0, 4095⟩] (fput (Reg.lanMacPortStatus 7 3) LanMacPortStatus.linkUp 1 (mac7 (up 3)))))), 31, 1023, by decide +kernel⟩,
   ⟨(setTarget 31 { Target32.init with busy := 1024 } (portAt 1023 { Port.init with latched := [(0x10, 0x2C000000#32)], queue := [], sending := some ⟨0, 100, 0, 0, 0, 3, true, [1#8], true, true, true, none, []⟩ } (withPorts [⟨1023, 0, true, 7, 0, 0, 4095⟩] (fput (Reg.lanMacPortStatus 7 3) LanMacPortStatus.linkUp 1 (up 3))))), 31, 1023, ⟨0, 100, 0, 0, 0, 3, true, [1#8], true, true, true, none, []⟩, by decide +kernel⟩,
   ⟨(setTarget 31 { Target32.init with busy := 1024 } (portAt 1023 { Port.init with latched := [(0x10, 0x2C000000#32)], queue := [], sending := some ⟨2, 100, 0, 0, 0, 3, true, [1#8], true, true, true, none, []⟩ } (withPorts [⟨1023, 0, true, 7, 0, 0, 4095⟩] (fput (Reg.lanMacPortStatus 7 3) LanMacPortStatus.linkUp 1 (up 3))))), 31, 1023, ⟨2, 100, 0, 0, 0, 3, true, [1#8], true, true, true, none, []⟩, by decide +kernel⟩,
   ⟨(later 2 <| wr (Reg.schIdleKbps 1023) 77777#32 (fput (Reg.schPortCtl 1023) SchPortCtl.shapeEn 1 (portAt 1023 { Port.init with latched := [(0x10, 0x2C000000#32)], queue := [], sending := some ⟨0, 100, 0, 0, 0, 3, true, [], true, true, true, none, []⟩ } (withPorts [⟨1023, 0, true, 7, 0, 0, 4095⟩] (fput (Reg.lanMacPortStatus 7 3) LanMacPortStatus.linkUp 1 (mac7 (up 3))))))), by decide +kernel⟩,
   ⟨(later 2 <| wr (Reg.schIdleKbps 1023) 77777#32 (fput (Reg.schPortCtl 1023) SchPortCtl.shapeEn 1 (portAt 1023 { Port.init with latched := [(0x10, 0x2C000000#32)], queue := [⟨0, 100, 0, 0, 0, 3, true, [], true, true, true, none, []⟩] } (withPorts [⟨1023, 0, true, 7, 0, 0, 4095⟩] (fput (Reg.lanMacPortStatus 7 3) LanMacPortStatus.linkUp 1 (mac7 (up 3))))))), by decide +kernel⟩,
   ⟨(portAt 1023 { Port.init with latched := [(0x10, 0x2C000000#32)], queue := [], sending := some ⟨0, 100, 0, 0, 0, 3, true, [], true, true, true, none, []⟩ } (withPorts [⟨1023, 0, true, 7, 0, 0, 4095⟩] (up 3))), 1023, 0, 0, 0xFFFFFFFF#32, hmw (by decide +kernel), by decide +kernel⟩,
   ⟨(portAt 1023 { Port.init with latched := [(0x10, 0x2C000000#32)], queue := [], sending := some ⟨0, 100, 0, 0, 0, 3, true, [], true, true, true, none, []⟩ } (withPorts [⟨1023, 0, true, 7, 0, 0, 4095⟩] (up 3))), 1023, 0, 2, 0xFFFFFFFF#32, hmw (by decide +kernel), by decide +kernel⟩,
   ⟨(portAt 1023 { Port.init with latched := [(0x10, 0x2C000000#32)], queue := [], credit := 7 } (withPorts [⟨1023, 0, true, 7, 0, 0, 4095⟩] (up 3))), 1023, 0, 0, 0xFFFFFFFF#32, hmw (by decide +kernel), by decide +kernel⟩,
   ⟨(portAt 1023 { Port.init with latched := [(0x10, 0x2C000000#32)], queue := [⟨0, 100, 0, 0, 0, 3, true, [], true, true, true, none, []⟩], credit := 7 } (withPorts [⟨1023, 0, true, 7, 0, 0, 4095⟩] (fput Reg.schCreditOnChange SchCreditOnChange.onChange 1 (mac7 (up 3))))), 1023, 0, 2, 0xFFFFFFFF#32, hmw (by decide +kernel), by decide +kernel⟩,
   ⟨{ fput (Reg.schPortCtl 1023) SchPortCtl.sampleUs 1 (portAt 1023 { Port.init with latched := [(0x10, 0x2C000000#32)], queue := [] } (withPorts [⟨1023, 0, true, 7, 0, 0, 4095⟩] (up 3))) with now := 1600 }, 1023, by decide +kernel⟩,
   ⟨{ fput (Reg.schPortCtl 1023) SchPortCtl.sampleUs 1 (portAt 1023 { Port.init with latched := [(0x10, 0x2C000000#32)], queue := [⟨0, 100, 0, 0, 0, 3, true, [], true, true, true, none, []⟩, ⟨0, 50, 0, 0, 0, 3, true, [], true, true, true, none, []⟩] } (withPorts [⟨1023, 0, true, 7, 0, 0, 4095⟩] (up 3))) with now := 1600 }, 1023, by decide +kernel⟩⟩

theorem test_meets_PortsAndInsertions :
    (∃ (s : State) (d : DomId) (n : PortId) (v : Word), HostMayWrite d (Reg.sptCtl n) s ∧ curMode s ≠ 5 ∧ sptEnabled n s = false ∧ released s = true ∧ (getPort n s).merge = [] ∧ getF SptCtl.ipv6 v = fget (Reg.sptCtl n) SptCtl.ipv6 s ∧ getF SptCtl.srcFilt v = fget (Reg.sptCtl n) SptCtl.srcFilt s) ∧
    (∃ (s : State) (d : DomId) (n : PortId) (v : Word), HostMayWrite d (Reg.sptCtl n) s ∧ curMode s ≠ 5 ∧ sptEnabled n s = false ∧ released s = true ∧ (getPort n s).merge = [] ∧ getF SptCtl.ipv6 v = fget (Reg.sptCtl n) SptCtl.ipv6 s ∧ getF SptCtl.srcFilt v = fget (Reg.sptCtl n) SptCtl.srcFilt s) ∧
    (∃ (s : State) (d : DomId) (n : PortId) (v : Word) (e : PortEntry), HostMayWrite d (Reg.sptCtl n) s ∧ curMode s ≠ 5 ∧ sptEnabled n s = true ∧ portEntry n s = some e) ∧
    (∃ (s : State) (d : DomId) (n : PortId) (v : Word) (e : PortEntry), HostMayWrite d (Reg.sptCtl n) s ∧ curMode s ≠ 5 ∧ sptEnabled n s = true ∧ portEntry n s = some e) ∧
    (∃ (s : State) (n : PortId), (sptEnabled n s = true ∧ portEncap n s = 3 ∧ curMode s ≠ 5 ∧ (portEntry n s).any (·.egress) = true ∧ fbit (Reg.sptImpCtl n) SptImpCtl.impEn s = false) ∧ ((getPort n s).queue ≠ [] ∨ portLinkUp n s = true)) ∧
    (∃ (s : State) (n : PortId), (sptEnabled n s = true ∧ portEncap n s = 3 ∧ curMode s ≠ 5 ∧ (portEntry n s).any (·.egress) = true ∧ fbit (Reg.sptImpCtl n) SptImpCtl.impEn s = false) ∧ ((getPort n s).queue ≠ [] ∨ portLinkUp n s = true)) ∧
    (∃ (s : State) (n : PortId), (sptEnabled n s = true ∧ portEncap n s = 3 ∧ curMode s ≠ 5 ∧ (portEntry n s).any (·.egress) = true ∧ fbit (Reg.sptImpCtl n) SptImpCtl.impEn s = false) ∧ ((getPort n s).queue ≠ [] ∨ portLinkUp n s = true)) ∧
    (∃ (s : State) (n : PortId), (sptEnabled n s = true ∧ portEncap n s = 3 ∧ curMode s ≠ 5 ∧ (portEntry n s).any (·.egress) = true ∧ fbit (Reg.sptImpCtl n) SptImpCtl.impEn s = false) ∧ ((getPort n s).queue ≠ [] ∨ portLinkUp n s = true)) ∧
    (∃ (s : State) (n : PortId) (l : List (Packet × Nat × Nat)), (l = (getPort n s).held.filter (fun h => decide (h.2.2 + holdCycles ≤ s.now))) ∧ l ≠ []) ∧
    (∃ (s : State) (n : PortId) (d : DomId) (v : Word), HostMayWrite d (Reg.sptImpSeed n) s ∧ curMode s ≠ 5) ∧
    (∃ (s : State) (n : PortId) (d : DomId) (v : Word), HostMayWrite d (Reg.sptImpSeed n) s ∧ curMode s ≠ 5) :=
  ⟨⟨(withPorts [⟨1023, 0, true, 7, 0, 0, 4095⟩] (wr (Reg.sptEncap 1023) 0x2C000000#32 (wr (Reg.sptUdp 1023) 0x138C#32 (wr (Reg.sptDstIp 1023 0) 0xE0000001#32 (mac7 (composed 2 (up 3))))))), 0, 1023, 1#32, hmw (by decide +kernel), by decide +kernel⟩,
   ⟨(withPorts [⟨1023, 0, true, 7, 0, 0, 4095⟩] (wr (Reg.sptEncap 1023) 0x2C000000#32 (wr (Reg.sptUdp 1023) 0x138C#32 (wr (Reg.sptDstIp 1023 0) 0xE0000001#32 (mac7 (composed 9 (up 3))))))), 0, 1023, 1#32, hmw (by decide +kernel), by decide +kernel⟩,
   ⟨(portAt 1023 { Port.init with latched := [(0x10, 0x2C000000#32)], queue := [⟨0, 100, 0, 0, 0, 3, true, [], true, true, true, none, []⟩], held := [(⟨0, 100, 0, 0, 0, 3, true, [], true, true, true, none, []⟩, 2, 0)], units := [⟨0, true, true, [1#8], []⟩] } (withPorts [⟨1023, 0, true, 7, 0, 0, 4095⟩] (mac7 (up 3)))), 0, 1023, 0#32, ⟨1023, 0, true, 7, 0, 0, 4095⟩, hmw (by decide +kernel), by decide +kernel⟩,
   ⟨(portAt 1023 { Port.init with latched := [(0x10, 0x2C000000#32), (0x14, 0x138C#32), (0x18, 0xE0000001#32)] } (withPorts [⟨1023, 0, false, 7, 0, 0, 4095⟩] (fput (Reg.lanMacPortStatus 7 3) LanMacPortStatus.linkUp 1 (enabled (composed 9 (pooled 0 [0, 1, 2, 3] (up 3))))))), 0, 1023, 0#32, ⟨1023, 0, false, 7, 0, 0, 4095⟩, hmw (by decide +kernel), by decide +kernel⟩,
   ⟨(portAt 1023 { Port.init with latched := [(0x10, 0x3C000000#32)], queue := [⟨0, 100, 0, 0, 0, 3, true, [], true, true, true, none, []⟩] } (withPorts [⟨1023, 0, true, 7, 0, 0, 4095⟩] (up 3))), 1023, by decide +kernel, .inl (by decide +kernel)⟩,
   ⟨(portAt 1023 { Port.init with latched := [(0x10, 0x3C000000#32)], queue := [⟨0, 100, 0, 0, 0, 3, true, [], true, true, true, none, []⟩] } (withPorts [⟨1023, 0, true, 7, 0, 0, 4095⟩] (fput (Reg.lanMacPortStatus 7 3) LanMacPortStatus.linkUp 1 (mac7 (up 3))))), 1023, by decide +kernel, .inr (by decide +kernel)⟩,
   ⟨(portAt 1023 { Port.init with latched := [(0x10, 0x3C000000#32)], queue := [⟨0, 100, 0, 0, 0, 3, true, [], true, true, true, none, []⟩] } (withPorts [⟨1023, 0, true, 7, 0, 0, 4095⟩] (up 3))), 1023, by decide +kernel, .inl (by decide +kernel)⟩,
   ⟨(portAt 1023 { Port.init with latched := [(0x10, 0x3C000000#32)], queue := [⟨0, 100, 0, 0, 0, 3, true, [], true, true, true, none, []⟩] } (withPorts [⟨1023, 0, true, 7, 0, 0, 4095⟩] (fput (Reg.lanMacPortStatus 7 3) LanMacPortStatus.linkUp 1 (mac7 (up 3))))), 1023, by decide +kernel, .inr (by decide +kernel)⟩,
   ⟨{ (portAt 1023 { Port.init with latched := [(0x10, 0x2C000000#32)], queue := [⟨0, 5, 0, 0, 0, 3, true, [], true, true, true, none, []⟩], held := [(⟨0, 9, 0, 0, 4, 3, true, [], true, true, true, none, []⟩, 2, 0), (⟨0, 9, 0, 0, 5, 3, true, [], true, true, true, none, []⟩, 3, 1)] } (withPorts [⟨1023, 0, true, 7, 0, 0, 4095⟩] (up 3))) with now := 1600000 }, 1023, [(⟨0, 9, 0, 0, 4, 3, true, [], true, true, true, none, []⟩, 2, 0)], by decide +kernel⟩,
   ⟨(up 3), 1023, 0, 0#32, hmw (by decide +kernel), by decide +kernel⟩,
   ⟨(up 3), 1023, 0, 5#32, hmw (by decide +kernel), by decide +kernel⟩⟩

theorem test_meets_HostRingsCarryUnits :
    (∃ (s : State) (n : PortId) (d : DomId) (v : Word) (l : List HrUnitIn), HostMayWrite d (Reg.sptHrWr n) s ∧ curMode s ≠ 5 ∧ deviceProduces n s = true) ∧
    (∃ (s : State) (n : PortId) (d : DomId) (v : Word) (l : List HrUnitIn), HostMayWrite d (Reg.sptHrWr n) s ∧ curMode s ≠ 5 ∧ deviceProduces n s = true) ∧
    (∃ (s : State) (n : PortId) (d : DomId) (v : Word) (l : List HrUnitIn), HostMayWrite d (Reg.sptHrWr n) s ∧ curMode s ≠ 5 ∧ deviceProduces n s = false ∧ sptEnabled n s = false) ∧
    (∃ (s : State) (n : PortId) (d : DomId) (v : Word) (l : List HrUnitIn) (u : HrUnitIn), HostMayWrite d (Reg.sptHrWr n) s ∧ (curMode s ≠ 5 ∧ deviceProduces n s = false ∧ sptEnabled n s = true ∧ (portEntry n s).isSome = true ∧ portEncap n s = 6 ∧ (getPort n s).inUnits = []) ∧ l = [u] ∧ u.kind = 1 ∧ hrUnitBytes u.data.length < 2 ^ 32 ∧ v = rd (Reg.sptHrRd n) s + BitVec.ofNat 32 (hrUnitBytes u.data.length)) ∧
    (∃ (s : State) (n : PortId) (u : HrUnit) (l : List HrUnit) (w : Nat) (len : Nat) (pad : Nat), (getPort n s).units = u :: l ∧ curMode s ≠ 5 ∧ s.pwr.linkUp = true ∧ w = (rd (Reg.sptHrWr n) s).toNat ∧ len = hrUnitBytes u.data.length ∧ pad = (if hrSize n s < w % hrSize n s + len then hrSize n s - w % hrSize n s else 0)) ∧
    (∃ (s : State) (n : PortId) (u : HrUnit) (l : List HrUnit) (w : Nat) (len : Nat) (pad : Nat), (getPort n s).units = u :: l ∧ curMode s ≠ 5 ∧ s.pwr.linkUp = true ∧ w = (rd (Reg.sptHrWr n) s).toNat ∧ len = hrUnitBytes u.data.length ∧ pad = (if hrSize n s < w % hrSize n s + len then hrSize n s - w % hrSize n s else 0)) :=
  ⟨⟨(portAt 1023 { Port.init with latched := [(0x10, 0x50000000#32)] } (withPorts [⟨1023, 3, true, 7, 0, 0, 4095⟩] (up 3))), 1023, 0, 5#32, [], hmw (by decide +kernel), by decide +kernel⟩,
   ⟨(portAt 1023 { Port.init with latched := [(0x10, 0x60000000#32)] } (withPorts [⟨1023, 3, false, 7, 1024, 0, 4095⟩] (up 3))), 1023, 0, 5#32, [], hmw (by decide +kernel), by decide +kernel⟩,
   ⟨(withPorts [⟨1023, 3, false, 7, 0, 0, 4095⟩] (up 3)), 1023, 0, 5#32, [], hmw (by decide +kernel), by decide +kernel⟩,
   ⟨(wr (Reg.sptHrRd 1023) 0xFFFFFFF0#32 (portAt 1023 { Port.init with latched := [(0x10, 0x60000000#32)] } (withPorts [⟨1023, 3, true, 7, 1024, 0, 4095⟩] (up 3)))), 1023, 0, 0x10#32, [⟨1, 3, 7, [1#8, 2#8]⟩], ⟨1, 3, 7, [1#8, 2#8]⟩, hmw (by decide +kernel), by decide +kernel, rfl, by decide +kernel⟩,
   ⟨(wr (Reg.sptHrWr 1023) 0x0#32 (wr (Reg.sptHrRd 1023) 0#32 (portAt 1023 { Port.init with latched := [(0x10, 0x50000000#32)], units := [⟨4, true, false, [1#8, 2#8], []⟩], hrGap := true } (withPorts [⟨1023, 3, true, 7, 0, 0, 4095⟩] (up 3))))), 1023, ⟨4, true, false, [1#8, 2#8], []⟩, [], 0x0, 32, 0, by decide +kernel⟩,
   ⟨(wr (Reg.sptHrWr 1023) 0xFFFF#32 (wr (Reg.sptHrRd 1023) 0x10#32 (portAt 1023 { Port.init with latched := [(0x10, 0x50000000#32)], units := [⟨4, true, false, [1#8, 2#8], []⟩], hrGap := true } (withPorts [⟨1023, 3, true, 7, 0, 0, 4095⟩] (up 3))))), 1023, ⟨4, true, false, [1#8, 2#8], []⟩, [], 0xFFFF, 32, 1, by decide +kernel⟩⟩

theorem test_meets_WritesArgumentsAndSnapshots :
    (∃ (s : State) (d : DomId) (x : RegEnv) (v : Word) (b : Bar) (off : Nat) (l : List (Option Byte)), hostPath d s = false) ∧
    (∃ (s : State) (d : DomId) (x : RegEnv) (v : Word) (b : Bar) (off : Nat) (l : List (Option Byte)), hostPath d s = false) ∧
    (∃ (s : State) (d : DomId) (x : RegEnv) (v : Word) (off : Nat), off % 4 = 0 ∧ hostPath d s = true ∧ gloveStops d .bar0 off true s = true) ∧
    (∃ (s : State) (d : DomId) (x : RegEnv) (v : Word) (off : Nat), off % 4 = 0 ∧ hostPath d s = true ∧ gloveStops d .bar0 off true s = true) ∧
    (∃ (s : State) (d : DomId) (x : RegEnv) (v : Word), HostMayWrite d Reg.lanRingCable s ∧ curMode s ≠ 5 ∧ x.clash = false) ∧
    (∃ (s : State) (d : DomId) (x : RegEnv) (v : Word) (b : Byte), HostMayWrite d Reg.lanRingCable s ∧ curMode s ≠ 5 ∧ x.clash = false) ∧
    (∃ (s : State) (d : DomId) (x : RegEnv) (v : Word) (n : PortId), HostMayWrite d (Reg.sptStatus n) s ∧ curMode s ≠ 5 ∧ x.clash = false) ∧
    (∃ (s : State) (d : DomId) (x : RegEnv) (v : Word) (c : ConfigIn), s.pwr.linkUp = true ∧ s.pwr.bypass = false ∧ c.early = true ∧ curMode s = 1) ∧
    (∃ (s : State) (d : DomId) (x : RegEnv) (v : Word) (c : ConfigIn), (s.pwr.linkUp = true ∧ s.pwr.bypass = false) ∧ (c.early = false ∨ curMode s ≠ 1)) ∧
    (∃ (s : State) (d : DomId) (x : RegEnv) (v : Word) (c : ConfigIn), (s.pwr.linkUp = true ∧ s.pwr.bypass = false) ∧ (c.early = false ∨ curMode s ≠ 1)) ∧
    (∃ (s : State) (d : DomId) (v : Word) (n : Fin 8) (be : BitVec 4), HostMayWrite d (Reg.cmdArg n) s ∧ be ≠ 0 ∧ cmdBusy s = false) ∧
    (∃ (s : State) (d : DomId) (v : Word) (n : Fin 8) (be : BitVec 4), HostMayWrite d (Reg.cmdArg n) s ∧ be ≠ 0 ∧ cmdBusy s = false) ∧
    (∃ (s : State) (d : DomId) (v : Word) (n : Fin 8) (be : BitVec 4), HostMayWrite d (Reg.cmdArg n) s ∧ be ≠ 0 ∧ cmdBusy s = true) ∧
    (∃ (s : State) (d : DomId) (v : Word) (n : PortId) (i : Nat) (k : Nat), hostPath d s = true ∧ gloveStops d .bar0 (Reg.sptPktsLo n) false s = false ∧ loadStops .bar0 (Reg.sptPktsLo n) s = false ∧ 0 < k ∧ i + k ≤ 4 ∧ k ≠ 4) ∧
    (∃ (s : State) (d : DomId) (v : Word) (n : PortId) (i : Nat) (k : Nat), hostPath d s = true ∧ gloveStops d .bar0 (Reg.sptPktsLo n) false s = false ∧ loadStops .bar0 (Reg.sptPktsLo n) s = false ∧ 0 < k ∧ i + k ≤ 4 ∧ k ≠ 4) ∧
    (∃ (s : State) (d : DomId) (v : Word) (n : PortId), hostPath d s = true ∧ gloveStops d .bar0 (Reg.sptPktsLo n) false s = false ∧ loadStops .bar0 (Reg.sptPktsLo n) s = false) ∧
    (∃ (s : State) (d : DomId) (v : Word) (early : Bool) (i : ConfigItem), (s.pwr.linkUp = true ∧ s.pwr.bypass = false) ∧ early = true ∧ curMode s = 1) ∧
    (∃ (s : State) (d : DomId) (v : Word) (early : Bool) (i : ConfigItem), (s.pwr.linkUp = true ∧ s.pwr.bypass = false) ∧ (early = false ∨ curMode s ≠ 1)) ∧
    (∃ (s : State) (d : DomId) (v : Word) (early : Bool) (i : ConfigItem), (s.pwr.linkUp = true ∧ s.pwr.bypass = false) ∧ (early = false ∨ curMode s ≠ 1)) :=
  ⟨⟨State.reset, 0, ⟨0#4, false, [], ⟨⟨none, true, true, true, true, [], true⟩, .error, 0, []⟩⟩, 5#32, .bar4, 0, [some 1#8], by decide +kernel⟩,
   ⟨{ up 3 with icu := { (up 3).icu with numVfs := 15 } }, 15, ⟨0#4, false, [], ⟨⟨none, true, true, true, true, [], true⟩, .error, 0, []⟩⟩, 5#32, .bar0, 0, [some 1#8], by decide +kernel⟩,
   ⟨(setFn 15 { Fn.init with memSpace := true } ({ up 3 with icu := { (up 3).icu with numVfs := 15 } })), 15, ⟨0#4, false, [], ⟨⟨none, true, true, true, true, [], true⟩, .error, 0, []⟩⟩, 5#32, 0x10000, by decide +kernel⟩,
   ⟨(setFn 15 { Fn.init with memSpace := true } ({ up 3 with icu := { (up 3).icu with numVfs := 15 } })), 15, ⟨0#4, false, [], ⟨⟨none, true, true, true, true, [], true⟩, .error, 0, []⟩⟩, 5#32, 0xFFFFFC, by decide +kernel⟩,
   ⟨(up 3), 0, ⟨0#4, false, [], ⟨⟨none, true, true, true, true, [], true⟩, .error, 0, []⟩⟩, 0xFFFFFFFF#32, hmw (by decide +kernel), by decide +kernel⟩,
   ⟨(up 3), 0, ⟨0#4, false, [], ⟨⟨none, true, true, true, true, [], true⟩, .error, 0, []⟩⟩, 0#32, 0xFF#8, hmw (by decide +kernel), by decide +kernel⟩,
   ⟨(wr (Reg.sptStatus 1023) 0xFFFFFFFF#32 (up 3)), 0, ⟨0#4, false, [], ⟨⟨none, true, true, true, true, [], true⟩, .error, 0, []⟩⟩, 0x55#32, 1023, hmw (by decide +kernel), by decide +kernel⟩,
   ⟨(up 1), 15, ⟨0#4, false, [], ⟨⟨none, true, true, true, true, [], true⟩, .error, 0, []⟩⟩, 0#32, ⟨true, true, false, true, true, false, true, 3⟩, by decide +kernel⟩,
   ⟨(up 3), 0, ⟨0#4, false, [], ⟨⟨none, true, true, true, true, [], true⟩, .error, 0, []⟩⟩, 0#32, ⟨false, true, false, true, true, false, true, 15⟩, by decide +kernel, .inl rfl⟩,
   ⟨{ (up 3) with cxl := { Cxl.init with aer := [(15, true)] }, icu := { (up 3).icu with fns := [(15, { Fn.init with pme := true })] } }, 15, ⟨0#4, false, [], ⟨⟨none, true, true, true, true, [], true⟩, .error, 0, []⟩⟩, 0#32, ⟨true, true, false, true, true, false, true, 0⟩, by decide +kernel, .inr (by decide +kernel)⟩,
   ⟨(wr (Reg.cmdArg 7) 0xAABBCCDD#32 (up 3)), 0, 0x11223344#32, 7, 5#4, hmw (by decide +kernel), by decide +kernel⟩,
   ⟨(up 5), 0, 0x11223344#32, 7, 15#4, hmw (by decide +kernel), by decide +kernel⟩,
   ⟨(wr Reg.cmdRejectCnt 0xFFFFFFFF#32 (fput Reg.cmdStatus CmdStatus.busy 1 (up 3))), 0, 0x11223344#32, 7, 5#4, hmw (by decide +kernel), by decide +kernel⟩,
   ⟨{ wr (Reg.sptPktsHi 1023) 9#32 (wr (Reg.sptPktsLo 1023) 0x11223344#32 (up 3)) with snaps := [(3, 4#32)] }, 0, 0#32, 1023, 0, 1, by decide +kernel⟩,
   ⟨{ wr (Reg.sptPktsHi 1023) 9#32 (wr (Reg.sptPktsLo 1023) 0x11223344#32 (up 3)) with snaps := [(3, 4#32)] }, 0, 0#32, 1023, 2, 2, by decide +kernel⟩,
   ⟨{ wr (Reg.sptPktsHi 1023) 9#32 (wr (Reg.sptPktsLo 1023) 0x11223344#32 (up 3)) with snaps := [(3, 4#32)] }, 0, 0#32, 1023, by decide +kernel⟩,
   ⟨(up 1), 3, 0#32, true, .vendorId, by decide +kernel, rfl, by decide +kernel⟩,
   ⟨(up 3), 0, 0#32, false, .vendorId, by decide +kernel, .inl rfl⟩,
   ⟨(up 3), 15, 0#32, true, .vendorId, by decide +kernel, .inr (by decide +kernel)⟩⟩

theorem test_meets_KeyGuardTakesOneWrite :
    (∃ (s : State) (d : DomId) (v : Word), HostMayWrite d Reg.chipKey s) ∧
    (∃ (s : State) (d : DomId) (v : Word), HostMayWrite d Reg.chipKey s) ∧
    (∃ (s : State) (d : DomId) (v : Word) (x : RegEnv) (off : Nat), HostMayWrite d off s ∧ (off ∈ [Reg.chipForce, Reg.bcmFlashCtl, Reg.bcmRegionOff] ∨ (∃ u, off = Reg.fltInject (faultBase u)) ∨ ∃ l : LaneId, off = Reg.lanPrbs l ∧ getF LanPrbs.genEn v = 1 ∧ laneActive l s = true) ∧ keyArmed s = true) ∧
    (∃ (s : State) (d : DomId) (v : Word) (x : RegEnv) (off : Nat), HostMayWrite d off s ∧ (off ∈ [Reg.chipForce, Reg.bcmFlashCtl, Reg.bcmRegionOff] ∨ (∃ u, off = Reg.fltInject (faultBase u)) ∨ ∃ l : LaneId, off = Reg.lanPrbs l ∧ getF LanPrbs.genEn v = 1 ∧ laneActive l s = true) ∧ keyArmed s = true) ∧
    (∃ (s : State) (d : DomId) (v : Word) (x : RegEnv) (off : Nat) (n : RegName) (shadow : Bool), HostMayWrite d off s ∧ (off ∈ [Reg.chipForce, Reg.bcmFlashCtl, Reg.bcmRegionOff] ∨ (∃ u, off = Reg.fltInject (faultBase u)) ∨ ∃ l : LaneId, off = Reg.lanPrbs l ∧ getF LanPrbs.genEn v = 1 ∧ laneActive l s = true) ∧ keyArmed s = true ∧ curMode s ≠ 5 ∧ (regAt (fun p => pipeDecodes p s) off = some (n, shadow))) ∧
    (∃ (s : State) (d : DomId) (v : Word) (x : RegEnv) (off : Nat) (n : RegName) (shadow : Bool), HostMayWrite d off s ∧ (off ∈ [Reg.chipForce, Reg.bcmFlashCtl, Reg.bcmRegionOff] ∨ (∃ u, off = Reg.fltInject (faultBase u)) ∨ ∃ l : LaneId, off = Reg.lanPrbs l ∧ getF LanPrbs.genEn v = 1 ∧ laneActive l s = true) ∧ keyArmed s = true ∧ curMode s ≠ 5 ∧ (regAt (fun p => pipeDecodes p s) off = some (n, shadow))) ∧
    (∃ (s : State) (d : DomId) (v : Word) (x : RegEnv) (off : Nat), HostMayWrite d off s ∧ (off ∈ [Reg.chipForce, Reg.bcmFlashCtl, Reg.bcmRegionOff] ∨ (∃ u, off = Reg.fltInject (faultBase u)) ∨ ∃ l : LaneId, off = Reg.lanPrbs l ∧ getF LanPrbs.genEn v = 1 ∧ laneActive l s = true) ∧ keyArmed s = false) ∧
    (∃ (s : State) (d : DomId) (v : Word) (x : RegEnv) (off : Nat), HostMayWrite d off s ∧ (off ∈ [Reg.chipForce, Reg.bcmFlashCtl, Reg.bcmRegionOff] ∨ (∃ u, off = Reg.fltInject (faultBase u)) ∨ ∃ l : LaneId, off = Reg.lanPrbs l ∧ getF LanPrbs.genEn v = 1 ∧ laneActive l s = true) ∧ keyArmed s = false) :=
  ⟨⟨(up 5), 0, 0x6D3A#32, hmw (by decide +kernel)⟩,
   ⟨(up 5), 0, 0x6D3B#32, hmw (by decide +kernel)⟩,
   ⟨(fput Reg.chipKeyState ChipKeyState.armed 1 (up 3)), 0, 1#32, ⟨0#4, false, [], ⟨⟨none, true, true, true, true, [], true⟩, .error, 0, []⟩⟩, Reg.chipForce, hmw (by decide +kernel), .inl (by decide +kernel), by decide +kernel⟩,
   ⟨(fput Reg.chipKeyState ChipKeyState.armed 1 (up 3)), 0, 1#32, ⟨0#4, false, [], ⟨⟨none, true, true, true, true, [], true⟩, .error, 0, []⟩⟩, (Reg.lanPrbs 55), hmw (by decide +kernel), .inr (.inr ⟨55, rfl, by decide +kernel, by decide +kernel⟩), by decide +kernel⟩,
   ⟨(fput Reg.chipKeyState ChipKeyState.armed 1 (up 3)), 0, 1#32, ⟨0#4, false, [], ⟨⟨none, true, true, true, true, [], true⟩, .error, 0, []⟩⟩, Reg.chipForce, .chipForce, false, hmw (by decide +kernel), .inl (by decide +kernel), by decide +kernel⟩,
   ⟨(fput Reg.chipKeyState ChipKeyState.armed 1 (up 3)), 0, 1#32, ⟨0#4, false, [], ⟨⟨none, true, true, true, true, [], true⟩, .error, 0, []⟩⟩, (Reg.lanPrbs 55), .lanPrbs, false, hmw (by decide +kernel), .inr (.inr ⟨55, rfl, by decide +kernel, by decide +kernel⟩), by decide +kernel⟩,
   ⟨(up 3), 0, 1#32, ⟨0#4, false, [], ⟨⟨none, true, true, true, true, [], true⟩, .error, 0, []⟩⟩, Reg.chipForce, hmw (by decide +kernel), .inl (by decide +kernel), by decide +kernel⟩,
   ⟨(up 3), 0, 1#32, ⟨0#4, false, [], ⟨⟨none, true, true, true, true, [], true⟩, .error, 0, []⟩⟩, (Reg.lanPrbs 55), hmw (by decide +kernel), .inr (.inr ⟨55, rfl, by decide +kernel, by decide +kernel⟩), by decide +kernel⟩⟩

theorem test_meets_CommandPortStartsOperations :
    (∃ (s : State) (d : DomId) (arg : Nat → Nat) (c : Instr) (op : Nat), (∀ n, arg n = (rd (Reg.cmdArg n) s).toNat) ∧ HostMayWrite d Reg.cmdOp s ∧ (cmdBusy s = false ∧ (opModes op).contains (curMode s) = true ∧ (op ∈ [0x20, 0x21, 0x22] → s.comp.inForce = true)) ∧ (c = .ping d ∧ op = 0x01 ∨ c = .flashWrite d ∧ op = 0x10 ∧ fbit Reg.bcmFlashCtl BcmFlashCtl.flashWe s = true ∧ arg 0 % 0x10000 = 0 ∧ arg 4 % 0x10000 = 0 ∧ (arg 3 = 1 ∨ arg 3 = 0 ∧ inDomain 0 (arg 1 + 2 ^ 32 * arg 2) (arg 4) s = true) ∧ (∃ a ∈ flashAreas, a.1 ≤ arg 0 ∧ arg 0 + arg 4 ≤ a.1 + a.2) ∨ c = .flashRead d ∧ op = 0x11 ∧ arg 0 % 64 = 0 ∧ arg 4 % 64 = 0 ∧ arg 0 + arg 4 ≤ flashSize ∧ (arg 3 = 1 ∨ arg 3 = 0 ∧ inDomain 0 (arg 1 + 2 ^ 32 * arg 2) (arg 4) s = true) ∨ c = .fuseRead d ∧ op = 0x12 ∧ keyArmed s = true ∧ arg 0 < 32 ∨ c = .regionSelftest d ∧ op = 0x20 ∧ arg 0 < 16 ∧ enabledOn (arg 0) s = [] ∧ rgcState (arg 0) s ≠ 3 ∧ regionHeld (arg 0) s = false ∨ c = .chipSelftest d ∧ op = 0x21 ∨ c = .memoryTest d ∧ op = 0x22 ∧ arg 0 < hbmSize / unitSize ∧ arg 0 + arg 1 ≤ hbmSize / unitSize)) ∧
    (∃ (s : State) (d : DomId) (arg : Nat → Nat) (c : Instr) (op : Nat), (∀ n, arg n = (rd (Reg.cmdArg n) s).toNat) ∧ HostMayWrite d Reg.cmdOp s ∧ (cmdBusy s = false ∧ (opModes op).contains (curMode s) = true ∧ (op ∈ [0x20, 0x21, 0x22] → s.comp.inForce = true)) ∧ (c = .ping d ∧ op = 0x01 ∨ c = .flashWrite d ∧ op = 0x10 ∧ fbit Reg.bcmFlashCtl BcmFlashCtl.flashWe s = true ∧ arg 0 % 0x10000 = 0 ∧ arg 4 % 0x10000 = 0 ∧ (arg 3 = 1 ∨ arg 3 = 0 ∧ inDomain 0 (arg 1 + 2 ^ 32 * arg 2) (arg 4) s = true) ∧ (∃ a ∈ flashAreas, a.1 ≤ arg 0 ∧ arg 0 + arg 4 ≤ a.1 + a.2) ∨ c = .flashRead d ∧ op = 0x11 ∧ arg 0 % 64 = 0 ∧ arg 4 % 64 = 0 ∧ arg 0 + arg 4 ≤ flashSize ∧ (arg 3 = 1 ∨ arg 3 = 0 ∧ inDomain 0 (arg 1 + 2 ^ 32 * arg 2) (arg 4) s = true) ∨ c = .fuseRead d ∧ op = 0x12 ∧ keyArmed s = true ∧ arg 0 < 32 ∨ c = .regionSelftest d ∧ op = 0x20 ∧ arg 0 < 16 ∧ enabledOn (arg 0) s = [] ∧ rgcState (arg 0) s ≠ 3 ∧ regionHeld (arg 0) s = false ∨ c = .chipSelftest d ∧ op = 0x21 ∨ c = .memoryTest d ∧ op = 0x22 ∧ arg 0 < hbmSize / unitSize ∧ arg 0 + arg 1 ≤ hbmSize / unitSize)) ∧
    (∃ (s : State) (d : DomId) (arg : Nat → Nat) (c : Instr) (op : Nat), (∀ n, arg n = (rd (Reg.cmdArg n) s).toNat) ∧ HostMayWrite d Reg.cmdOp s ∧ ((c, op) ∈ [(Instr.ping d, 0x01), (.chipReboot d, 0x02), (.flashWrite d, 0x10), (.flashRead d, 0x11), (.fuseRead d, 0x12), (.regionSelftest d, 0x20), (.chipSelftest d, 0x21), (.memoryTest d, 0x22)] ∧ cmdBusy s = false) ∧ ((opModes op).contains (curMode s) = false ∨ op ∈ [0x20, 0x21, 0x22] ∧ s.comp.inForce = false)) ∧
    (∃ (s : State) (d : DomId) (arg : Nat → Nat) (c : Instr) (op : Nat), (∀ n, arg n = (rd (Reg.cmdArg n) s).toNat) ∧ HostMayWrite d Reg.cmdOp s ∧ ((c, op) ∈ [(Instr.ping d, 0x01), (.chipReboot d, 0x02), (.flashWrite d, 0x10), (.flashRead d, 0x11), (.fuseRead d, 0x12), (.regionSelftest d, 0x20), (.chipSelftest d, 0x21), (.memoryTest d, 0x22)] ∧ cmdBusy s = false) ∧ ((opModes op).contains (curMode s) = false ∨ op ∈ [0x20, 0x21, 0x22] ∧ s.comp.inForce = false)) ∧
    (∃ (s : State) (d : DomId) (arg : Nat → Nat) (c : Instr) (op : Nat), (∀ n, arg n = (rd (Reg.cmdArg n) s).toNat) ∧ HostMayWrite d Reg.cmdOp s ∧ (c, op) ∈ [(Instr.ping d, 0x01), (.chipReboot d, 0x02), (.flashWrite d, 0x10), (.flashRead d, 0x11), (.fuseRead d, 0x12), (.regionSelftest d, 0x20), (.chipSelftest d, 0x21), (.memoryTest d, 0x22)] ∧ cmdBusy s = true) ∧
    (∃ (s : State) (d : DomId) (arg : Nat → Nat) (c : Instr) (op : Nat), (∀ n, arg n = (rd (Reg.cmdArg n) s).toNat) ∧ HostMayWrite d Reg.cmdOp s ∧ (c, op) ∈ [(Instr.ping d, 0x01), (.chipReboot d, 0x02), (.flashWrite d, 0x10), (.flashRead d, 0x11), (.fuseRead d, 0x12), (.regionSelftest d, 0x20), (.chipSelftest d, 0x21), (.memoryTest d, 0x22)] ∧ cmdBusy s = true) ∧
    (∃ (s : State) (d : DomId) (arg : Nat → Nat), (∀ n, arg n = (rd (Reg.cmdArg n) s).toNat) ∧ HostMayWrite d Reg.cmdOp s ∧ cmdBusy s = false ∧ (opModes 0x02).contains (curMode s) = true) ∧
    (∃ (s : State) (d : DomId) (arg : Nat → Nat), (∀ n, arg n = (rd (Reg.cmdArg n) s).toNat) ∧ HostMayWrite d Reg.cmdAbort s) ∧
    (∃ (s : State) (d : DomId) (arg : Nat → Nat), (∀ n, arg n = (rd (Reg.cmdArg n) s).toNat) ∧ HostMayWrite d Reg.cmdAbort s) :=
  ⟨⟨(up 5), 0, (fun n => (rd (Reg.cmdArg n) (up 5)).toNat), (.ping 0), 0x01, fun _ => rfl, hmw (by decide +kernel), by decide +kernel, .inl ⟨rfl, rfl⟩⟩,
   ⟨(wr (Reg.cmdArg 1) 1#32 (wr (Reg.cmdArg 0) 73727#32 ({ up 4 with comp := { Comp.init with inForce := true } }))), 0, (fun n => (rd (Reg.cmdArg n) (wr (Reg.cmdArg 1) 1#32 (wr (Reg.cmdArg 0) 73727#32 ({ up 4 with comp := { Comp.init with inForce := true } })))).toNat), (.memoryTest 0), 0x22, fun _ => rfl, hmw (by decide +kernel), by decide +kernel, .inr (.inr (.inr (.inr (.inr (.inr (⟨rfl, rfl, by decide +kernel, by decide +kernel⟩))))))⟩,
   ⟨(up 3), 0, (fun n => (rd (Reg.cmdArg n) (up 3)).toNat), (.flashWrite 0), 0x10, fun _ => rfl, hmw (by decide +kernel), by decide +kernel, .inl (by decide +kernel)⟩,
   ⟨(up 4), 0, (fun n => (rd (Reg.cmdArg n) (up 4)).toNat), (.memoryTest 0), 0x22, fun _ => rfl, hmw (by decide +kernel), by decide +kernel, .inr (by decide +kernel)⟩,
   ⟨(fput Reg.cmdStatus CmdStatus.busy 1 (up 4)), 0, (fun n => (rd (Reg.cmdArg n) (fput Reg.cmdStatus CmdStatus.busy 1 (up 4))).toNat), (.ping 0), 0x01, fun _ => rfl, hmw (by decide +kernel), by decide +kernel⟩,
   ⟨(fput Reg.cmdStatus CmdStatus.busy 1 (fput Reg.chipKeyState ChipKeyState.armed 1 (up 4))), 0, (fun n => (rd (Reg.cmdArg n) (fput Reg.cmdStatus CmdStatus.busy 1 (fput Reg.chipKeyState ChipKeyState.armed 1 (up 4)))).toNat), (.fuseRead 0), 0x12, fun _ => rfl, hmw (by decide +kernel), by decide +kernel⟩,
   ⟨(up 5), 0, (fun n => (rd (Reg.cmdArg n) (up 5)).toNat), fun _ => rfl, hmw (by decide +kernel), by decide +kernel⟩,
   ⟨(up 5), 0, (fun n => (rd (Reg.cmdArg n) (up 5)).toNat), fun _ => rfl, hmw (by decide +kernel)⟩,
   ⟨(fput Reg.cmdStatus CmdStatus.curOp 0x20 (fput Reg.cmdStatus CmdStatus.busy 1 (up 4))), 0, (fun n => (rd (Reg.cmdArg n) (fput Reg.cmdStatus CmdStatus.curOp 0x20 (fput Reg.cmdStatus CmdStatus.busy 1 (up 4)))).toNat), fun _ => rfl, hmw (by decide +kernel)⟩⟩

theorem test_meets_OperationsEndWithTheirResults :
    (∃ (s : State) (e : OpEnv), cmdBusy s = true ∧ curOp s ∈ [0x01, 0x12]) ∧
    (∃ (s : State) (e : OpEnv), cmdBusy s = true ∧ curOp s ∈ [0x01, 0x12]) ∧
    (∃ (s : State) (e : OpEnv) (x : List Byte × State), cmdBusy s = true ∧ curOp s = 0x10 ∧ cmdAborting s = false ∧ x = cmdSource 0 (cmdArg 4 s) e.host s ∧ cmdArg 4 s % 0x10000 = 0 ∧ 0x10000 * s.cmd.step ≤ cmdArg 4 s) ∧
    (∃ (s : State) (e : OpEnv), cmdBusy s = true ∧ curOp s = 0x11 ∧ cmdAborting s = false) ∧
    (∃ (s : State) (e : OpEnv), cmdBusy s = true ∧ curOp s = 0x11 ∧ cmdAborting s = false) ∧
    (∃ (s : State) (e : OpEnv), cmdBusy s = true ∧ (curOp s = 0x20 ∨ curOp s = 0x21) ∧ cmdAborting s = false) ∧
    (∃ (s : State) (e : OpEnv), cmdBusy s = true ∧ (curOp s = 0x20 ∨ curOp s = 0x21) ∧ cmdAborting s = false) ∧
    (∃ (s : State) (e : OpEnv), cmdBusy s = true ∧ curOp s = 0x22 ∧ cmdAborting s = false ∧ s.fs.hostWaiting = []) ∧
    (∃ (s : State) (e : OpEnv), cmdBusy s = true ∧ curOp s = 0x22 ∧ cmdAborting s = false ∧ s.fs.hostWaiting = []) ∧
    (∃ (s : State) (e : OpEnv), cmdBusy s = true ∧ curOp s ∈ [0x10, 0x11, 0x20, 0x21, 0x22] ∧ cmdAborting s = true ∧ e.late = false) ∧
    (∃ (s : State) (e : OpEnv), cmdBusy s = true ∧ curOp s ∈ [0x10, 0x11, 0x20, 0x21, 0x22] ∧ cmdAborting s = true ∧ e.late = false) ∧
    (∃ (s : State) (e : OpEnv), cmdBusy s = true ∧ curOp s ∈ [0x10, 0x11, 0x20, 0x21, 0x22] ∧ cmdAborting s = true ∧ e.late = true) ∧
    (∃ (s : State) (e : OpEnv), cmdBusy s = true ∧ curOp s ∈ [0x10, 0x11, 0x20, 0x21, 0x22] ∧ cmdAborting s = true ∧ e.late = true) :=
  ⟨⟨{ fput Reg.cmdStatus CmdStatus.aborting 0 (fput Reg.cmdStatus CmdStatus.curOp 0x01 (fput Reg.cmdStatus CmdStatus.busy 1 (up 4))) with cmd := { Cmd.init with args := [] } }, ⟨.error, 0, [], [], [], [], 0, [], [], [], false⟩, by decide +kernel⟩,
   ⟨{ fput Reg.cmdStatus CmdStatus.aborting 0 (fput Reg.cmdStatus CmdStatus.curOp 0x12 (fput Reg.cmdStatus CmdStatus.busy 1 (up 4))) with cmd := { Cmd.init with args := [] } }, ⟨.error, 0, [], [], [], [], 0, [], [], [], false⟩, by decide +kernel⟩,
   ⟨{ fput Reg.cmdStatus CmdStatus.aborting 0 (fput Reg.cmdStatus CmdStatus.curOp 0x10 (fput Reg.cmdStatus CmdStatus.busy 1 (fput Reg.bcmFlashCtl BcmFlashCtl.flashWe 1 (up 4)))) with cmd := { Cmd.init with args := [0x1000000#32, 0#32, 0#32, 1#32, 0#32, 0#32, 0#32, 0#32] } }, ⟨.data [], 0, [], [], [], [], 0, [], [], [], false⟩, (cmdSource 0 (cmdArg 4 ({ fput Reg.cmdStatus CmdStatus.aborting 0 (fput Reg.cmdStatus CmdStatus.curOp 0x10 (fput Reg.cmdStatus CmdStatus.busy 1 (fput Reg.bcmFlashCtl BcmFlashCtl.flashWe 1 (up 4)))) with cmd := { Cmd.init with args := [0x1000000#32, 0#32, 0#32, 1#32, 0#32, 0#32, 0#32, 0#32] } })) (.data []) ({ fput Reg.cmdStatus CmdStatus.aborting 0 (fput Reg.cmdStatus CmdStatus.curOp 0x10 (fput Reg.cmdStatus CmdStatus.busy 1 (fput Reg.bcmFlashCtl BcmFlashCtl.flashWe 1 (up 4)))) with cmd := { Cmd.init with args := [0x1000000#32, 0#32, 0#32, 1#32, 0#32, 0#32, 0#32, 0#32] } })), by decide +kernel⟩,
   ⟨{ fput Reg.cmdStatus CmdStatus.aborting 0 (fput Reg.cmdStatus CmdStatus.curOp 0x11 (fput Reg.cmdStatus CmdStatus.busy 1 (composed 2 (up 4)))) with cmd := { Cmd.init with args := [0#32, 0#32, 0#32, 0#32, 0x40#32, 0#32, 0#32, 0#32] } }, ⟨.error, 0, [], [], [], [], 0, [], [], [], false⟩, by decide +kernel⟩,
   ⟨{ fput Reg.cmdStatus CmdStatus.aborting 0 (fput Reg.cmdStatus CmdStatus.curOp 0x11 (fput Reg.cmdStatus CmdStatus.busy 1 (up 4))) with cmd := { Cmd.init with args := [0#32, 0#32, 0#32, 1#32, 0x40#32, 0#32, 0#32, 0#32] } }, ⟨.error, 0, [], [], [], [], 0, [], [], [], false⟩, by decide +kernel⟩,
   ⟨{ fput Reg.cmdStatus CmdStatus.aborting 0 (fput Reg.cmdStatus CmdStatus.curOp 0x20 (fput Reg.cmdStatus CmdStatus.busy 1 (up 4))) with cmd := { Cmd.init with args := [15#32] } }, ⟨.error, 0, [], [], [], [], 0, [], [], [], false⟩, by decide +kernel, .inl (by decide +kernel), by decide +kernel⟩,
   ⟨{ fput Reg.cmdStatus CmdStatus.aborting 0 (fput Reg.cmdStatus CmdStatus.curOp 0x21 (fput Reg.cmdStatus CmdStatus.busy 1 (up 4))) with cmd := { Cmd.init with args := [] } }, ⟨.error, 0, [], [], [(15, 0), (3, 7)], [], 0, [], [], [], false⟩, by decide +kernel, .inr (by decide +kernel), by decide +kernel⟩,
   ⟨{ fput Reg.cmdStatus CmdStatus.aborting 0 (fput Reg.cmdStatus CmdStatus.curOp 0x22 (fput Reg.cmdStatus CmdStatus.busy 1 (up 4))) with cmd := { Cmd.init with args := [0#32, 1#32] } }, ⟨.error, 0, [], [], [], [], 0, [], [], [], false⟩, by decide +kernel⟩,
   ⟨{ fput Reg.cmdStatus CmdStatus.aborting 0 (fput Reg.cmdStatus CmdStatus.curOp 0x22 (fput Reg.cmdStatus CmdStatus.busy 1 (up 4))) with cmd := { Cmd.init with args := [0#32, 0#32] } }, ⟨.error, 0, [], [], [], [], 0, [], [hbmSize / 64 - 1], [], false⟩, by decide +kernel⟩,
   ⟨{ fput Reg.cmdStatus CmdStatus.aborting 1 (fput Reg.cmdStatus CmdStatus.curOp 0x10 (fput Reg.cmdStatus CmdStatus.busy 1 (up 4))) with cmd := { Cmd.init with args := [0#32, 0#32, 0#32, 1#32, 0x40#32, 0#32, 0#32, 0#32] } }, ⟨.error, 3, [], [], [], [], 0, [], [], [], false⟩, by decide +kernel⟩,
   ⟨{ fput Reg.cmdStatus CmdStatus.aborting 1 (fput Reg.cmdStatus CmdStatus.curOp 0x22 (fput Reg.cmdStatus CmdStatus.busy 1 (up 4))) with cmd := { Cmd.init with args := [0#32, 0#32, 0#32, 1#32, 0x40#32, 0#32, 0#32, 0#32] } }, ⟨.error, 3, [], [], [], [], 0, [], [], [], false⟩, by decide +kernel⟩,
   ⟨{ fput Reg.cmdStatus CmdStatus.aborting 1 (fput Reg.cmdStatus CmdStatus.curOp 0x11 (fput Reg.cmdStatus CmdStatus.busy 1 (up 4))) with cmd := { Cmd.init with args := [0#32, 0#32, 0#32, 1#32, 0x40#32, 0#32, 0#32, 0#32] } }, ⟨.error, 0, [], [], [], [], 0, [], [], [], true⟩, by decide +kernel⟩,
   ⟨{ fput Reg.cmdStatus CmdStatus.aborting 1 (fput Reg.cmdStatus CmdStatus.curOp 0x21 (fput Reg.cmdStatus CmdStatus.busy 1 (up 4))) with cmd := { Cmd.init with args := [0#32, 0#32, 0#32, 1#32, 0x40#32, 0#32, 0#32, 0#32] } }, ⟨.error, 0, [], [], [], [], 0, [], [], [], true⟩, by decide +kernel⟩⟩

theorem test_meets_RegionsAreRecomposed :
    (∃ (s : State) (d : DomId) (x : RecomposeIn) (arg : Nat → Nat), (∀ n, arg n = (rd (Reg.cmdArg n) s).toNat) ∧ HostMayWrite d Reg.cmdOp s ∧ cmdBusy s = false ∧ (curMode s = 2 ∨ curMode s = 3) ∧ (16 ≤ arg 0 ∨ 1 < arg 3 ∨ arg 5 ≠ 0 ∨ arg 6 ≠ 0 ∨ arg 7 ≠ 0)) ∧
    (∃ (s : State) (d : DomId) (x : RecomposeIn) (arg : Nat → Nat), (∀ n, arg n = (rd (Reg.cmdArg n) s).toNat) ∧ HostMayWrite d Reg.cmdOp s ∧ cmdBusy s = false ∧ (curMode s = 2 ∨ curMode s = 3) ∧ (16 ≤ arg 0 ∨ 1 < arg 3 ∨ arg 5 ≠ 0 ∨ arg 6 ≠ 0 ∨ arg 7 ≠ 0)) ∧
    (∃ (s : State) (d : DomId) (x : RecomposeIn) (arg : Nat → Nat), (∀ n, arg n = (rd (Reg.cmdArg n) s).toNat) ∧ HostMayWrite d Reg.cmdOp s ∧ cmdBusy s = false ∧ (curMode s = 2 ∨ curMode s = 3) ∧ arg 0 < 16 ∧ arg 3 ≤ 1 ∧ arg 5 = 0 ∧ arg 6 = 0 ∧ arg 7 = 0 ∧ (arg 3 = 1 ∨ arg 1 + 2 ^ 32 * arg 2 + arg 4 ≤ hbmSize) ∧ x.reached.val = 0) ∧
    (∃ (s : State) (d : DomId) (x : RecomposeIn) (arg : Nat → Nat), (∀ n, arg n = (rd (Reg.cmdArg n) s).toNat) ∧ HostMayWrite d Reg.cmdOp s ∧ cmdBusy s = false ∧ (curMode s = 2 ∨ curMode s = 3) ∧ arg 0 < 16 ∧ arg 3 ≤ 1 ∧ arg 5 = 0 ∧ arg 6 = 0 ∧ arg 7 = 0 ∧ (arg 3 = 1 ∨ arg 1 + 2 ^ 32 * arg 2 + arg 4 ≤ hbmSize) ∧ x.reached.val = 0) ∧
    (∃ (s : State) (e : OpEnv) (r : Nat) (code : Nat) (sect : Nat) (obj : Nat), cmdBusy s = true ∧ curOp s = 0x31 ∧ r = cmdArg 0 s ∧ r < 16 ∧ s.cmd.fail = some (code, sect, obj) ∧ code < 256) ∧
    (∃ (s : State) (e : OpEnv) (r : Nat) (code : Nat) (sect : Nat) (obj : Nat), cmdBusy s = true ∧ curOp s = 0x31 ∧ r = cmdArg 0 s ∧ r < 16 ∧ s.cmd.fail = some (code, sect, obj) ∧ code < 256) ∧
    (∃ (s : State) (e : OpEnv) (r : Nat) (p : Nat), cmdBusy s = true ∧ curOp s = 0x31 ∧ r = cmdArg 0 s ∧ r < 16 ∧ s.cmd.fail = none ∧ (cmdAborting s = false ∨ e.late = true) ∧ s.cmd.step = 0 ∧ enabledPipe r s = some p) ∧
    (∃ (s : State) (e : OpEnv) (r : Nat), cmdBusy s = true ∧ curOp s = 0x31 ∧ r = cmdArg 0 s ∧ r < 16 ∧ s.cmd.fail = none ∧ (cmdAborting s = false ∨ e.late = true) ∧ s.cmd.step = 0 ∧ enabledPipe r s = none ∧ rgcState r s ≠ 2) ∧
    (∃ (s : State) (e : OpEnv) (r : Nat), cmdBusy s = true ∧ curOp s = 0x31 ∧ r = cmdArg 0 s ∧ r < 16 ∧ s.cmd.fail = none ∧ (cmdAborting s = false ∨ e.late = true) ∧ s.cmd.step = 0 ∧ enabledPipe r s = none ∧ rgcState r s ≠ 2) ∧
    (∃ (s : State) (e : OpEnv) (r : Nat), cmdBusy s = true ∧ curOp s = 0x31 ∧ r = cmdArg 0 s ∧ r < 16 ∧ s.cmd.fail = none ∧ (cmdAborting s = false ∨ e.late = true) ∧ s.cmd.step = 1) ∧
    (∃ (s : State) (e : OpEnv) (r : Nat), cmdBusy s = true ∧ curOp s = 0x31 ∧ r = cmdArg 0 s ∧ r < 16 ∧ s.cmd.fail = none ∧ (cmdAborting s = false ∨ e.late = true) ∧ s.cmd.step = 1) ∧
    (∃ (s : State) (e : OpEnv) (r : Nat) (im : Image), cmdBusy s = true ∧ curOp s = 0x31 ∧ r = cmdArg 0 s ∧ r < 16 ∧ s.cmd.fail = none ∧ (cmdAborting s = false ∨ e.late = true) ∧ s.cmd.step = 2 ∧ s.staged = some im) ∧
    (∃ (s : State) (e : OpEnv) (r : Nat), cmdBusy s = true ∧ curOp s = 0x31 ∧ r = cmdArg 0 s ∧ r < 16 ∧ s.cmd.fail = none ∧ (cmdAborting s = false ∨ e.late = true) ∧ s.cmd.step = 3 ∧ s.cmd.left = []) ∧
    (∃ (s : State) (e : OpEnv) (r : Nat), cmdBusy s = true ∧ curOp s = 0x31 ∧ r = cmdArg 0 s ∧ r < 16 ∧ s.cmd.fail = none ∧ cmdAborting s = true ∧ e.late = false ∧ s.cmd.step < 3) ∧
    (∃ (s : State) (e : OpEnv) (r : Nat), cmdBusy s = true ∧ curOp s = 0x31 ∧ r = cmdArg 0 s ∧ r < 16 ∧ s.cmd.fail = none ∧ cmdAborting s = true ∧ e.late = false ∧ s.cmd.step < 3) ∧
    (∃ (s : State) (r : RasterId) (l : List Nat), cmdBusy s = true ∧ curOp s = 0x31 ∧ s.cmd.step = 3 ∧ s.cmd.left.contains r.val = true ∧ (l = s.cmd.left.filter (fun k => k != r.val)) ∧ s.staged.isSome = true ∧ cmdArg 0 s < 16) ∧
    (∃ (s : State) (r : RasterId) (l : List Nat), cmdBusy s = true ∧ curOp s = 0x31 ∧ s.cmd.step = 3 ∧ s.cmd.left.contains r.val = true ∧ (l = s.cmd.left.filter (fun k => k != r.val)) ∧ s.staged.isSome = true ∧ cmdArg 0 s < 16) :=
  ⟨⟨(wr (Reg.cmdArg 3) 1#32 (wr (Reg.cmdArg 0) 16#32 (up 3))), 0, ⟨⟨none, true, true, true, true, [], true⟩, .data [1#8], 0, []⟩, (fun n => (rd (Reg.cmdArg n) (wr (Reg.cmdArg 3) 1#32 (wr (Reg.cmdArg 0) 16#32 (up 3)))).toNat), fun _ => rfl, hmw (by decide +kernel), by decide +kernel⟩,
   ⟨(wr (Reg.cmdArg 7) 1#32 (wr (Reg.cmdArg 3) 1#32 (wr (Reg.cmdArg 0) 0#32 (up 3)))), 0, ⟨⟨none, true, true, true, true, [], true⟩, .data [1#8], 0, []⟩, (fun n => (rd (Reg.cmdArg n) (wr (Reg.cmdArg 7) 1#32 (wr (Reg.cmdArg 3) 1#32 (wr (Reg.cmdArg 0) 0#32 (up 3))))).toNat), fun _ => rfl, hmw (by decide +kernel), by decide +kernel⟩,
   ⟨(wr (Reg.cmdArg 3) 1#32 (wr (Reg.cmdArg 0) 15#32 (up 2))), 0, ⟨⟨none, true, true, true, true, [], true⟩, .data [1#8], 0, []⟩, (fun n => (rd (Reg.cmdArg n) (wr (Reg.cmdArg 3) 1#32 (wr (Reg.cmdArg 0) 15#32 (up 2)))).toNat), fun _ => rfl, hmw (by decide +kernel), by decide +kernel⟩,
   ⟨(wr (Reg.cmdArg 4) 0x80#32 (wr (Reg.cmdArg 1) 0x40#32 (wr (Reg.cmdArg 0) 15#32 (up 3)))), 0, ⟨⟨none, true, true, true, true, [], true⟩, .error, 0, []⟩, (fun n => (rd (Reg.cmdArg n) (wr (Reg.cmdArg 4) 0x80#32 (wr (Reg.cmdArg 1) 0x40#32 (wr (Reg.cmdArg 0) 15#32 (up 3))))).toNat), fun _ => rfl, hmw (by decide +kernel), by decide +kernel⟩,
   ⟨{ fput Reg.cmdStatus CmdStatus.aborting 0 (fput Reg.cmdStatus CmdStatus.curOp 0x31 (fput Reg.cmdStatus CmdStatus.busy 1 (up 3))) with cmd := { Cmd.init with args := [15#32], step := 0, fail := some (0x41, 3, 9) } }, ⟨.error, 0, [], [], [], [], 0, [], [], [], false⟩, 15, 0x41, ( 3), ( 9), by decide +kernel⟩,
   ⟨{ fput Reg.cmdStatus CmdStatus.aborting 0 (fput Reg.cmdStatus CmdStatus.curOp 0x31 (fput Reg.cmdStatus CmdStatus.busy 1 (up 3))) with cmd := { Cmd.init with args := [15#32], step := 0, fail := some (255, 255, 0xFFFF) } }, ⟨.error, 0, [], [], [], [], 0, [], [], [], false⟩, 15, 255, ( 255), ( 0xFFFF), by decide +kernel⟩,
   ⟨{ fput Reg.cmdStatus CmdStatus.aborting 0 (fput Reg.cmdStatus CmdStatus.curOp 0x31 (fput Reg.cmdStatus CmdStatus.busy 1 (enabled (composed 2 (up 3))))) with cmd := { Cmd.init with args := [0#32], step := 0 } }, ⟨.error, 0, [], [], [], [], 0, [], [], [], false⟩, 0, 0, by decide +kernel⟩,
   ⟨{ fput Reg.cmdStatus CmdStatus.aborting 0 (fput Reg.cmdStatus CmdStatus.curOp 0x31 (fput Reg.cmdStatus CmdStatus.busy 1 (up 3))) with cmd := { Cmd.init with args := [15#32], step := 0 } }, ⟨.error, 0, [], [], [], [], 0, [], [], [], false⟩, 15, by decide +kernel⟩,
   ⟨{ fput Reg.cmdStatus CmdStatus.aborting 1 (fput Reg.cmdStatus CmdStatus.curOp 0x31 (fput Reg.cmdStatus CmdStatus.busy 1 (fput (Reg.rgcStatus 15) RgcStatus.rgcState 4 (up 3)))) with cmd := { Cmd.init with args := [15#32], step := 0 } }, ⟨.error, 0, [], [], [], [], 0, [], [], [], true⟩, 15, by decide +kernel⟩,
   ⟨{ fput Reg.cmdStatus CmdStatus.aborting 0 (fput Reg.cmdStatus CmdStatus.curOp 0x31 (fput Reg.cmdStatus CmdStatus.busy 1 (up 3))) with cmd := { Cmd.init with args := [15#32], step := 1 } }, ⟨.error, 0, [], [], [], [], 0, [], [], [], false⟩, 15, by decide +kernel⟩,
   ⟨{ fput Reg.cmdStatus CmdStatus.aborting 0 (fput Reg.cmdStatus CmdStatus.curOp 0x31 (fput Reg.cmdStatus CmdStatus.busy 1 (composed 2 (up 3)))) with cmd := { Cmd.init with args := [0#32], step := 1 } }, ⟨.error, 0, [], [], [], [], 0, [], [], [], false⟩, 0, by decide +kernel⟩,
   ⟨{ ({ fput Reg.cmdStatus CmdStatus.aborting 0 (fput Reg.cmdStatus CmdStatus.curOp 0x31 (fput Reg.cmdStatus CmdStatus.busy 1 (up 3))) with cmd := { Cmd.init with args := [15#32], step := 2 } }) with staged := some ⟨0, 0, [], 0, 0, 0, [], [], [], [], [], [], [], [], 0, false, 15, [], 0, 0, 0, [], []⟩ }, ⟨.error, 0, [], [], [], [], 0, [], [], [], false⟩, 15, ⟨0, 0, [], 0, 0, 0, [], [], [], [], [], [], [], [], 0, false, 15, [], 0, 0, 0, [], []⟩, by decide +kernel⟩,
   ⟨{ ({ fput Reg.cmdStatus CmdStatus.aborting 0 (fput Reg.cmdStatus CmdStatus.curOp 0x31 (fput Reg.cmdStatus CmdStatus.busy 1 (up 3))) with cmd := { Cmd.init with args := [15#32], step := 3 } }) with staged := some ⟨0, 0, [], 0, 0, 0, [], [], [], [], [], [], [], [], 0, false, 15, [], 0, 0, 0, [], []⟩ }, ⟨.error, 0, [], [], [], [], 0, [], [], [], false⟩, 15, by decide +kernel⟩,
   ⟨{ ({ fput Reg.cmdStatus CmdStatus.aborting 1 (fput Reg.cmdStatus CmdStatus.curOp 0x31 (fput Reg.cmdStatus CmdStatus.busy 1 (composed 2 (up 3)))) with cmd := { Cmd.init with args := [0#32], step := 0, prior := 0 } }) with staged := some ⟨0, 0, [], 0, 0, 0, [], [], [], [], [], [], [], [], 0, false, 15, [], 0, 0, 0, [], []⟩ }, ⟨.error, 0, [], [], [], [], 0, [], [], [], false⟩, 0, by decide +kernel⟩,
   ⟨{ ({ fput Reg.cmdStatus CmdStatus.aborting 1 (fput Reg.cmdStatus CmdStatus.curOp 0x31 (fput Reg.cmdStatus CmdStatus.busy 1 (composed 2 (up 3)))) with cmd := { Cmd.init with args := [0#32], step := 2, prior := 1 } }) with staged := some ⟨0, 0, [], 0, 0, 0, [], [], [], [], [], [], [], [], 0, false, 15, [], 0, 0, 0, [], []⟩ }, ⟨.error, 0, [], [], [], [], 0, [], [], [], false⟩, 0, by decide +kernel⟩,
   ⟨{ ({ fput Reg.cmdStatus CmdStatus.aborting 0 (fput Reg.cmdStatus CmdStatus.curOp 0x31 (fput Reg.cmdStatus CmdStatus.busy 1 (up 3))) with cmd := { Cmd.init with args := [15#32], step := 3, left := [15] } }) with staged := some ⟨0, 0, [], 0, 0, 0, [], [], [], [], [], [], [], [], 0, false, 15, [], 0, 0, 0, [], []⟩ }, 15, [], by decide +kernel⟩,
   ⟨{ ({ fput Reg.cmdStatus CmdStatus.aborting 0 (fput Reg.cmdStatus CmdStatus.curOp 0x31 (fput Reg.cmdStatus CmdStatus.busy 1 (up 3))) with cmd := { Cmd.init with args := [15#32], step := 3, left := [15, 3] } }) with staged := some ⟨0, 0, [], 0, 0, 0, [], [], [], [], [], [], [], [], 0, false, 15, [], 0, 0, 0, [], []⟩ }, 15, [3], by decide +kernel⟩⟩

theorem test_meets_CxlRequestsAndLinkErrors :
    (∃ (s : State) (k : Fin 8) (base : Nat) (size : Nat) (ways : Nat) (skip : Nat) (lock : Bool) (c : Carve), (s.pwr.linkUp = true ∧ s.pwr.bypass = false ∧ (getHdm k s).locked = false ∧ hdmCarve k s = some c ∧ s.pwr.linkPcie = false ∧ size = hdmSize c) ∧ ways = 0 ∧ skip = 0) ∧
    (∃ (s : State) (k : Fin 8) (base : Nat) (size : Nat) (ways : Nat) (skip : Nat) (lock : Bool) (c : Carve), (s.pwr.linkUp = true ∧ s.pwr.bypass = false ∧ (getHdm k s).locked = false ∧ hdmCarve k s = some c ∧ s.pwr.linkPcie = false ∧ size = hdmSize c) ∧ ways = 0 ∧ skip = 0) ∧
    (∃ (s : State) (k : Fin 8) (base : Nat) (size : Nat) (ways : Nat) (skip : Nat) (lock : Bool) (c : Carve), s.pwr.linkUp = true ∧ s.pwr.bypass = false ∧ (getHdm k s).locked = false ∧ hdmCarve k s = some c ∧ (s.pwr.linkPcie = true ∨ size ≠ hdmSize c ∨ ways ≠ 0 ∨ skip ≠ 0)) ∧
    (∃ (s : State) (k : Fin 8) (base : Nat) (size : Nat) (ways : Nat) (skip : Nat) (lock : Bool) (c : Carve), s.pwr.linkUp = true ∧ s.pwr.bypass = false ∧ (getHdm k s).locked = false ∧ hdmCarve k s = some c ∧ (s.pwr.linkPcie = true ∨ size ≠ hdmSize c ∨ ways ≠ 0 ∨ skip ≠ 0)) ∧
    (∃ (s : State) (k : Fin 8) (o : Nat), memServed s = true ∧ hdmHits k o s = true ∧ hdmAddress k o s = none) ∧
    (∃ (s : State) (k : Fin 8) (o : Nat), memServed s = true ∧ hdmHits k o s = true ∧ hdmAddress k o s = none) ∧
    (∃ (s : State) (k : Fin 8) (o : Nat) (l : List Byte) (poisoned : Bool), memServed s = true ∧ hdmHits k o s = true ∧ hdmAddress k o s = none) ∧
    (∃ (s : State) (k : Fin 8) (o : Nat) (a : Nat), memServed s = true ∧ hdmHits k o s = true ∧ hdmAddress k o s = some a ∧ accessWaits a s = true) ∧
    (∃ (s : State) (k : Fin 8) (o : Nat) (a : Nat) (l : List Byte) (poisoned : Bool), memServed s = true ∧ hdmHits k o s = true ∧ hdmAddress k o s = some a ∧ accessWaits a s = true) ∧
    (∃ (s : State) (k : Fin 8) (o : Nat) (a : Nat), memServed s = true ∧ hdmHits k o s = true ∧ hdmAddress k o s = some a ∧ accessWaits a s = false) ∧
    (∃ (s : State) (k : Fin 8) (o : Nat) (a : Nat) (l : List Byte) (poisoned : Bool), memServed s = true ∧ hdmHits k o s = true ∧ hdmAddress k o s = some a ∧ accessWaits a s = false ∧ curMode s = 5) ∧
    (∃ (s : State) (k : Fin 8) (o : Nat) (a : Nat) (l : List Byte) (poisoned : Bool), (memServed s = true ∧ hdmHits k o s = true ∧ hdmAddress k o s = some a ∧ accessWaits a s = false ∧ curMode s ≠ 5 ∧ l ≠ []) ∧ Canonical s) ∧
    (∃ (s : State) (k : Fin 8) (o : Nat) (a : Nat) (l : List Byte) (poisoned : Bool), (memServed s = true ∧ hdmHits k o s = true ∧ hdmAddress k o s = some a ∧ accessWaits a s = false ∧ curMode s ≠ 5 ∧ l ≠ []) ∧ Canonical s) ∧
    (∃ (s : State), memServed s = true) ∧
    (∃ (s : State), memServed s = true) ∧
    (∃ (s : State), memServed s = true) ∧
    (∃ (s : State) (d : DomId), s.pwr.linkUp = true ∧ d.val ≤ s.icu.numVfs) ∧
    (∃ (s : State), memServed s = true) ∧
    (∃ (s : State), s.pwr.linkUp = true) ∧
    (∃ (s : State), s.pwr.linkUp = true) ∧
    (∃ (s : State) (w : TripWord), s.pwr.bypass = false) ∧
    (∃ (s : State) (w : TripWord), s.pwr.bypass = false) ∧
    (∃ (s : State) (w : TripWord), s.pwr.bypass = false ∧ curMode s ≠ 5) ∧
    (∃ (s : State) (w : TripWord), s.pwr.bypass = false ∧ curMode s ≠ 5) :=
  ⟨⟨{ (up 3) with comp := { Comp.init with carves := [⟨2, 0, 0, 0, 0, 1⟩, ⟨3, 0, 1, 0, 1, 3⟩] } }, 0, 5, (2 ^ 28), 0, 0, true, ⟨3, 0, 1, 0, 1, 3⟩, by decide +kernel, rfl, rfl⟩,
   ⟨{ (up 3) with comp := { Comp.init with carves := [⟨2, 0, 0, 0, 0, 1⟩, ⟨3, 0, 1, 0, 1, 3⟩] } }, 0, 5, (2 ^ 28), 0, 0, false, ⟨3, 0, 1, 0, 1, 3⟩, by decide +kernel, rfl, rfl⟩,
   ⟨{ (up 3) with comp := { Comp.init with carves := [⟨2, 0, 0, 0, 0, 1⟩, ⟨3, 0, 1, 0, 1, 3⟩] } }, 0, 5, (2 ^ 28), 1, 0, true, ⟨3, 0, 1, 0, 1, 3⟩, by decide +kernel⟩,
   ⟨{ (up 3) with comp := { Comp.init with carves := [⟨2, 0, 0, 0, 0, 1⟩, ⟨3, 0, 1, 0, 1, 3⟩] } }, 0, 5, (2 ^ 28 + 1), 0, 0, true, ⟨3, 0, 1, 0, 1, 3⟩, by decide +kernel⟩,
   ⟨(setHdm 0 ⟨0x1000, 2 ^ 28, true, false, false⟩ ({ (up 3) with comp := { Comp.init with carves := [⟨2, 0, 0, 0, 0, 1⟩, ⟨3, 0, 1, 0, 1, 3⟩] } })), 0, (3 * 2 ^ 21), by decide +kernel⟩,
   ⟨(setHdm 0 ⟨0x1000, 2 ^ 28, true, false, false⟩ ({ (up 3) with comp := { Comp.init with carves := [⟨2, 0, 0, 0, 0, 1⟩, ⟨3, 0, 1, 0, 1, 3⟩] } })), 0, (2 ^ 28 - 64), by decide +kernel⟩,
   ⟨(setHdm 0 ⟨0x1000, 2 ^ 28, true, false, false⟩ ({ (up 3) with comp := { Comp.init with carves := [⟨2, 0, 0, 0, 0, 1⟩, ⟨3, 0, 1, 0, 1, 3⟩] } })), 0, (2 ^ 28 - 1), [1#8], true, by decide +kernel⟩,
   ⟨(setHdm 0 ⟨0x1000, 2 ^ 28, true, false, false⟩ ({ (fput (Reg.memStatus (placeOf (up 3) (2 ^ 21)).stack) MemStatus.memState 2 (up 3)) with comp := { Comp.init with carves := [⟨2, 0, 0, 0, 0, 1⟩, ⟨3, 0, 1, 0, 1, 3⟩] } })), 0, 0, (2 ^ 21), by decide +kernel⟩,
   ⟨(setHdm 0 ⟨0x1000, 2 ^ 28, true, false, false⟩ ({ (fput (Reg.memStatus (placeOf (up 3) (2 ^ 21)).stack) MemStatus.memState 2 (up 3)) with comp := { Comp.init with carves := [⟨2, 0, 0, 0, 0, 1⟩, ⟨3, 0, 1, 0, 1, 3⟩] } })), 0, 0, (2 ^ 21), [1#8], false, by decide +kernel⟩,
   ⟨(setHdm 0 ⟨0x1000, 2 ^ 28, true, false, false⟩ ({ (up 3) with comp := { Comp.init with carves := [⟨2, 0, 0, 0, 0, 1⟩, ⟨3, 0, 1, 0, 1, 3⟩] } })), 0, (3 * 2 ^ 21 - 1), (4 * 2 ^ 21 - 1), by decide +kernel⟩,
   ⟨(setHdm 0 ⟨0x1000, 2 ^ 28, true, false, false⟩ ({ (up 5) with comp := { Comp.init with carves := [⟨2, 0, 0, 0, 0, 1⟩, ⟨3, 0, 1, 0, 1, 3⟩] } })), 0, 0, (2 ^ 21), [1#8], false, by decide +kernel⟩,
   ⟨(setHdm 0 ⟨0x1000, 2 ^ 28, true, false, false⟩ ({ (up 3) with comp := { Comp.init with carves := [⟨2, 0, 0, 0, 0, 1⟩, ⟨3, 0, 1, 0, 1, 3⟩] } })), 0, 3, (2 ^ 21 + (3)), [1#8, 2#8], false, by decide +kernel, ⟨by decide +kernel, by decide +kernel⟩⟩,
   ⟨(setHdm 0 ⟨0x1000, 2 ^ 28, true, false, false⟩ ({ (up 3) with comp := { Comp.init with carves := [⟨2, 0, 0, 0, 0, 1⟩, ⟨3, 0, 1, 0, 1, 3⟩] } })), 0, (3 * 2 ^ 21 - 1), (2 ^ 21 + (3 * 2 ^ 21 - 1)), (List.replicate 64 9#8), false, by decide +kernel, ⟨by decide +kernel, by decide +kernel⟩⟩,
   ⟨(up 3), by decide +kernel⟩,
   ⟨(setPseudo 0 0 0 (setBank Pseudo.init 5 ⟨[⟨true, 0, List.replicate 64 7#8, 0, 4, false⟩, ⟨false, 0, [], 0, 0, false⟩], 1, 0, 0⟩) (fput (Reg.memStatus 0) MemStatus.memState 1 (up 3))), by decide +kernel⟩,
   ⟨{ (setHdm 0 ⟨0x1000, 2 ^ 28, true, false, false⟩ ({ (fput (Reg.memStatus (placeOf (up 3) (2 ^ 21)).stack) MemStatus.memState 2 (up 3)) with comp := { Comp.init with carves := [⟨2, 0, 0, 0, 0, 1⟩, ⟨3, 0, 1, 0, 1, 3⟩] } })) with fs := { (setHdm 0 ⟨0x1000, 2 ^ 28, true, false, false⟩ ({ (fput (Reg.memStatus (placeOf (up 3) (2 ^ 21)).stack) MemStatus.memState 2 (up 3)) with comp := { Comp.init with carves := [⟨2, 0, 0, 0, 0, 1⟩, ⟨3, 0, 1, 0, 1, 3⟩] } })).fs with hostWaiting := [.write 0 5 [1#8] false, .read 0 0] } }, by decide +kernel⟩,
   ⟨{ up 3 with icu := { (up 3).icu with numVfs := 15 } }, 15, by decide +kernel⟩,
   ⟨(up 3), by decide +kernel⟩,
   ⟨(up 3), by decide +kernel⟩,
   ⟨{ up 3 with cxl := { Cxl.init with headerLog := 5 } }, by decide +kernel⟩,
   ⟨(fput Reg.chipTmr ChipTmr.tmrCorr 65535 (up 3)), .chip, by decide +kernel⟩,
   ⟨(fput Reg.chipTmr ChipTmr.tmrCorr 65535 (up 3)), .baseCamp, by decide +kernel⟩,
   ⟨(up 3), .chip, by decide +kernel⟩,
   ⟨(up 3), .baseCamp, by decide +kernel⟩⟩

theorem test_meets_DecisionsDeliverTheCoveredSources :
    (∃ (s : State) (g : Target), covered g s ≠ [] ∧ (∀ d v, g = .host d v → holdRuns d v s = false ∨ vecIdle d v s = true)) ∧
    (∃ (s : State) (g : Target), covered g s ≠ [] ∧ (∀ d v, g = .host d v → holdRuns d v s = false ∨ vecIdle d v s = true)) ∧
    (∃ (s : State) (g : Target) (d : DomId) (v : Fin 2048), g = .host d v ∧ covered g s ≠ [] ∧ holdRuns d v s = true ∧ vecIdle d v s = false) ∧
    (∃ (s : State) (g : Target) (d : DomId) (v : Fin 2048), g = .host d v ∧ covered g s = []) ∧
    (∃ (s : State) (g : Target) (d : DomId) (v : Fin 2048), g = .host d v ∧ covered g s = []) :=
  ⟨⟨(setVec 0 5 { Vec.init with addr := 77, data := 9#32, mask := false } (setFn 0 { Fn.init with msixEn := true, memSpace := true } (wr (Reg.icuSrcRoute 66) 0x10000005#32 (fput (Reg.icuSrcStat 66) IcuSrcStat.count 255 (wr (Reg.icuSrcRoute 3) 0x10000005#32 (fput (Reg.icuSrcStat 3) IcuSrcStat.count 7 (up 3))))))), (.host 0 5), by decide +kernel, fun d v h => by cases h; decide⟩,
   ⟨(wr (Reg.icuSrcRoute 66) 0x2F000000#32 (fput (Reg.icuSrcStat 66) IcuSrcStat.count 1 (up 3))), .baseCamp, by decide +kernel, fun d v h => by cases h⟩,
   ⟨(fput (Reg.icuSrcStat 3) IcuSrcStat.inflight 1 (setDelivered 3 ⟨6, 1⟩ (setVec 0 5 { Vec.init with addr := 77, data := 9#32, mask := false, sent := some 0 } (setFn 0 { Fn.init with msixEn := true, memSpace := true } (fput (Reg.icuVecHold 5) IcuVecHold.holdUs 5 (wr (Reg.icuSrcRoute 66) 0x10000005#32 (fput (Reg.icuSrcStat 66) IcuSrcStat.count 255 (wr (Reg.icuSrcRoute 3) 0x10000005#32 (fput (Reg.icuSrcStat 3) IcuSrcStat.count 7 (up 3)))))))))), (.host 0 5), 0, 5, rfl, by decide +kernel⟩,
   ⟨(up 3), (.host 0 5), 0, 5, rfl, by decide +kernel⟩,
   ⟨(setVec 0 5 { Vec.init with addr := 77, data := 9#32, mask := false } (setFn 0 { Fn.init with pmeEn := true, d0 := false, pme := true } (wr (Reg.icuSrcRoute 66) 0x10000005#32 (fput (Reg.icuSrcStat 66) IcuSrcStat.count 1 (up 3))))), (.host 0 5), 0, 5, rfl, by decide +kernel⟩⟩

theorem test_meets_InputsAcksRoutesAndWakes :
    (∃ (s : State) (n : Fin 4), s.pwr.bypass = false) ∧
    (∃ (s : State) (n : Fin 4), s.pwr.bypass = false) ∧
    (∃ (s : State) (n : Fin 8) (level : Bool) (samples : Nat), s.pwr.bypass = false) ∧
    (∃ (s : State) (n : Fin 8) (level : Bool) (samples : Nat), s.pwr.bypass = false) ∧
    (∃ (s : State) (d : DomId) (v : Fin 2048), v.val < vecCount d ∧ holdRuns d v s = false) ∧
    (∃ (s : State) (d : DomId) (v : Fin 2048), v.val < vecCount d ∧ holdRuns d v s = false) ∧
    (∃ (s : State) (d : DomId) (src : SrcId) (n : Fin 256), HostMayWrite d (Reg.icuAck d) s ∧ srcOwner s src = d.val) ∧
    (∃ (s : State) (d : DomId) (src : SrcId) (n : Fin 256), HostMayWrite d (Reg.icuAck d) s ∧ srcOwner s src = d.val) ∧
    (∃ (s : State) (d : DomId) (src : SrcId) (n : Fin 256), HostMayWrite d (Reg.icuAck d) s ∧ srcOwner s src ≠ d.val) ∧
    (∃ (s : State) (a : AckBy) (src : SrcId) (n : Fin 256), (srcInflight src s = true ∧ levelActive src s = false) ∧ ((∃ r : RegionId, a = .rgc r ∧ deliveredAs src s = 2 ∧ fget (Reg.icuSrcRoute src) IcuSrcRoute.rgcRegion s = r.val) ∨ a = .baseCamp ∧ (deliveredAs src s = 3 ∨ deliveredAs src s = 5))) ∧
    (∃ (s : State) (a : AckBy) (src : SrcId) (n : Fin 256), (srcInflight src s = true ∧ levelActive src s = false) ∧ ((∃ r : RegionId, a = .rgc r ∧ deliveredAs src s = 2 ∧ fget (Reg.icuSrcRoute src) IcuSrcRoute.rgcRegion s = r.val) ∨ a = .baseCamp ∧ (deliveredAs src s = 3 ∨ deliveredAs src s = 5))) ∧
    (∃ (s : State) (d : DomId) (src : SrcId) (v : Word), HostMayWrite d (Reg.icuSrcRoute src) s ∧ (curMode s ≠ 5 ∨ src.val < 64) ∧ ((d.val ≠ 0 ∧ (getF IcuSrcRoute.kind v = 2 ∨ getF IcuSrcRoute.kind v = 3)) ∨ vecCount (srcOwner s src) ≤ getF IcuSrcRoute.vector v)) ∧
    (∃ (s : State) (d : DomId) (src : SrcId) (v : Word), HostMayWrite d (Reg.icuSrcRoute src) s ∧ (curMode s ≠ 5 ∨ src.val < 64) ∧ ((d.val ≠ 0 ∧ (getF IcuSrcRoute.kind v = 2 ∨ getF IcuSrcRoute.kind v = 3)) ∨ vecCount (srcOwner s src) ≤ getF IcuSrcRoute.vector v)) ∧
    (∃ (s : State) (d : DomId) (src : SrcId) (v : Word), HostMayWrite d (Reg.icuSrcRoute src) s ∧ (curMode s ≠ 5 ∨ src.val < 64) ∧ (d.val = 0 ∨ getF IcuSrcRoute.kind v = 0 ∨ getF IcuSrcRoute.kind v = 1) ∧ getF IcuSrcRoute.vector v < vecCount (srcOwner s src)) ∧
    (∃ (s : State) (d : DomId) (src : SrcId) (v : Word), HostMayWrite d (Reg.icuSrcRoute src) s ∧ (curMode s ≠ 5 ∨ src.val < 64) ∧ (d.val = 0 ∨ getF IcuSrcRoute.kind v = 0 ∨ getF IcuSrcRoute.kind v = 1) ∧ getF IcuSrcRoute.vector v < vecCount (srcOwner s src)) ∧
    (∃ (s : State) (d : DomId) (v : Fin 2048) (a : Nat) (data : Word), v.val < vecCount d) ∧
    (∃ (s : State) (d : DomId) (v : Fin 2048) (a : Nat) (data : Word), v.val < vecCount d) ∧
    (∃ (s : State) (r : RegionId), smGet false r.val s.icu.wakes = true ∧ rgcQuiet r s = true ∧ (curMode s = 2 ∨ curMode s = 4) ∧ rgcState r s = 1) ∧
    (∃ (s : State) (r : RegionId), smGet false r.val s.icu.wakes = true ∧ rgcQuiet r s = true ∧ (curMode s = 2 ∨ curMode s = 4) ∧ rgcState r s = 1) :=
  ⟨⟨(fput Reg.rckTrigCtl RckTrigCtl.tinEn 0 (fput (Reg.icuSrcStat 2563) IcuSrcStat.count 255 ({ up 3 with clock := { Clock.init with running := true, timeBase := 1000, rate := 5 } }))), 3, by decide +kernel⟩,
   ⟨(fput Reg.rckTrigCtl RckTrigCtl.tinEn 15 (fput (Reg.icuSrcStat 2563) IcuSrcStat.count 255 ({ up 3 with clock := { Clock.init with running := true, timeBase := 1000, rate := 5 } }))), 3, by decide +kernel⟩,
   ⟨(fput (Reg.icuExtCtl 7) IcuExtCtl.sense 0 (up 3)), 7, true, 2, by decide +kernel⟩,
   ⟨{ fput (Reg.icuExtCtl 7) IcuExtCtl.filt 255 (up 3) with icu := { Icu.init with glitch := [(7, ⟨true, 255⟩)] } }, 7, true, 1, by decide +kernel⟩,
   ⟨(up 3), 15, 127, by decide +kernel⟩,
   ⟨(setVec 0 2047 { Vec.init with addr := 77, data := 9#32, mask := false, sent := some 0 } (setFn 0 { Fn.init with msixEn := true, memSpace := true } (wr (Reg.icuSrcRoute 66) 0x100007FF#32 (fput (Reg.icuSrcStat 66) IcuSrcStat.count 1 (up 3))))), 0, 2047, by decide +kernel⟩,
   ⟨(wr (Reg.icuSrcStat 4095) 0xA1000010#32 (up 5)), 0, 4095, 0, hmw (by decide +kernel), by decide +kernel⟩,
   ⟨(wr (Reg.icuSrcStat 4095) 0xA1000010#32 (up 5)), 0, 4095, 4, hmw (by decide +kernel), by decide +kernel⟩,
   ⟨(setFn 15 { Fn.init with memSpace := true } ({ up 3 with icu := { (up 3).icu with numVfs := 15 } })), 15, 0, 3, hmw (by decide +kernel), by decide +kernel⟩,
   ⟨(setDelivered 66 ⟨0, 4⟩ (wr (Reg.icuSrcRoute 66) 0x2F000000#32 (wr (Reg.icuSrcStat 66) 0x82000009#32 (up 3)))), (.rgc 15), 66, 3, by decide +kernel, .inl ⟨15, rfl, by decide +kernel, by decide +kernel⟩⟩,
   ⟨(setDelivered 66 ⟨0, 4⟩ (wr (Reg.icuSrcRoute 66) 0x2F000000#32 (wr (Reg.icuSrcStat 66) 0x85000009#32 (up 3)))), .baseCamp, 66, 3, by decide +kernel, .inr ⟨rfl, by decide +kernel⟩⟩,
   ⟨(setFn 15 { Fn.init with memSpace := true } ({ ({ up 3 with icu := { (up 3).icu with numVfs := 15 } }) with comp := { (up 3).comp with glove := [0x1F000000#32] } })), 15, 1536, 0x20000000#32, hmw (by decide +kernel), by decide +kernel⟩,
   ⟨(setFn 15 { Fn.init with memSpace := true } ({ ({ up 3 with icu := { (up 3).icu with numVfs := 15 } }) with comp := { (up 3).comp with glove := [0x1F000000#32] } })), 15, 1536, 0x100007FF#32, hmw (by decide +kernel), by decide +kernel⟩,
   ⟨(up 3), 0, 4095, 0xFFFFFFFF#32, hmw (by decide +kernel), by decide +kernel⟩,
   ⟨(up 5), 0, 63, 0x10000000#32, hmw (by decide +kernel), by decide +kernel⟩,
   ⟨(up 3), 15, 127, 5, 7#32, by decide +kernel⟩,
   ⟨(up 3), 0, 2047, 0, 7#32, by decide +kernel⟩,
   ⟨{ (fput (Reg.rgcStatus 15) RgcStatus.rgcState 1 (up 2)) with icu := { Icu.init with wakes := [(15, true)] } }, 15, by decide +kernel⟩,
   ⟨{ (fput (Reg.rgcStatus 15) RgcStatus.rgcState 1 (up 4)) with icu := { Icu.init with wakes := [(15, true)] } }, 15, by decide +kernel⟩⟩

theorem test_meets_SensorsAndBaseCampRegisters :
    (∃ (s : State) (n : Fin 48) (v : BitVec 16), s.pwr.aux = true ∧ 22 ≤ n.val) ∧
    (∃ (s : State) (n : Fin 48) (v : BitVec 16), s.pwr.aux = true ∧ 22 ≤ n.val) ∧
    (∃ (s : State) (n : Fin 48) (v : BitVec 16), s.pwr.aux = true ∧ n.val < 22 ∧ v.toInt < 1760) ∧
    (∃ (s : State) (n : Fin 48) (v : BitVec 16), s.pwr.aux = true ∧ n.val < 22 ∧ v.toInt < 1760) ∧
    (∃ (s : State) (n : Fin 48) (v : BitVec 16), s.pwr.aux = true ∧ n.val < 22 ∧ 1760 ≤ v.toInt ∧ s.pwr.trip = false) ∧
    (∃ (s : State) (n : Fin 48) (v : BitVec 16), s.pwr.aux = true ∧ n.val < 22 ∧ 1760 ≤ v.toInt ∧ s.pwr.trip = false) ∧
    (∃ (s : State), s.bc.auxPs < s.bc.windowAt + windowPs s) ∧
    (∃ (s : State) (average : Nat) (n : Nat), (fwRuns s = true ∧ s.pwr.bypass = false ∧ s.bc.windowAt + windowPs s ≤ s.bc.auxPs) ∧ average = windowAverage s ∧ n = s.bc.lowSince.getD s.bc.windowAt ∧ average ≤ 10 * effectiveCap s ∧ tMax s < 16 * (throttleC s : Int) ∧ (19 * (10 * effectiveCap s) ≤ 20 * average ∨ 16 * ((throttleC s : Int) - 5) ≤ tMax s)) ∧
    (∃ (s : State) (average : Nat) (n : Nat), (fwRuns s = true ∧ s.pwr.bypass = false ∧ s.bc.windowAt + windowPs s ≤ s.bc.auxPs) ∧ average = windowAverage s ∧ n = s.bc.lowSince.getD s.bc.windowAt ∧ average ≤ 10 * effectiveCap s ∧ tMax s < 16 * (throttleC s : Int) ∧ (19 * (10 * effectiveCap s) ≤ 20 * average ∨ 16 * ((throttleC s : Int) - 5) ≤ tMax s)) ∧
    (∃ (s : State) (average : Nat) (n : Nat), (fwRuns s = true ∧ s.pwr.bypass = false ∧ s.bc.windowAt + windowPs s ≤ s.bc.auxPs) ∧ average = windowAverage s ∧ n = s.bc.lowSince.getD s.bc.windowAt ∧ 20 * average < 19 * (10 * effectiveCap s) ∧ tMax s < 16 * ((throttleC s : Int) - 5) ∧ s.bc.auxPs < n + secondPs) ∧
    (∃ (s : State) (average : Nat) (n : Nat), (fwRuns s = true ∧ s.pwr.bypass = false ∧ s.bc.windowAt + windowPs s ≤ s.bc.auxPs) ∧ average = windowAverage s ∧ n = s.bc.lowSince.getD s.bc.windowAt ∧ 20 * average < 19 * (10 * effectiveCap s) ∧ tMax s < 16 * ((throttleC s : Int) - 5) ∧ s.bc.auxPs < n + secondPs) ∧
    (∃ (s : State) (average : Nat) (n : Nat) (r : Nat) (l : List Nat), (fwRuns s = true ∧ s.pwr.bypass = false ∧ s.bc.windowAt + windowPs s ≤ s.bc.auxPs) ∧ average = windowAverage s ∧ n = s.bc.lowSince.getD s.bc.windowAt ∧ 20 * average < 19 * (10 * effectiveCap s) ∧ tMax s < 16 * ((throttleC s : Int) - 5) ∧ n + secondPs ≤ s.bc.auxPs ∧ s.bc.lowered = l ++ [r]) ∧
    (∃ (s : State) (average : Nat) (n : Nat) (r : Nat) (l : List Nat), (fwRuns s = true ∧ s.pwr.bypass = false ∧ s.bc.windowAt + windowPs s ≤ s.bc.auxPs) ∧ average = windowAverage s ∧ n = s.bc.lowSince.getD s.bc.windowAt ∧ 20 * average < 19 * (10 * effectiveCap s) ∧ tMax s < 16 * ((throttleC s : Int) - 5) ∧ n + secondPs ≤ s.bc.auxPs ∧ s.bc.lowered = l ++ [r]) ∧
    (∃ (s : State) (average : Nat) (n : Nat) (r : Nat), (r < 16 ∧ fwRuns s = true ∧ s.pwr.bypass = false ∧ s.bc.windowAt + windowPs s ≤ s.bc.auxPs) ∧ average = windowAverage s ∧ n = s.bc.lowSince.getD s.bc.windowAt ∧ 10 * effectiveCap s < average ∧ rgcState r s = 1 ∧ regionWork r s = false ∧ blocksIdle r s = true) ∧
    (∃ (s : State) (average : Nat) (n : Nat) (r : Nat), (r < 16 ∧ fwRuns s = true ∧ s.pwr.bypass = false ∧ s.bc.windowAt + windowPs s ≤ s.bc.auxPs) ∧ average = windowAverage s ∧ n = s.bc.lowSince.getD s.bc.windowAt ∧ 10 * effectiveCap s < average ∧ rgcState r s = 1 ∧ regionWork r s = false ∧ blocksIdle r s = true) ∧
    (∃ (s : State) (d : DomId) (v : Word), curMode s ≠ 5 ∧ HostMayWrite d Reg.bcmPowerCap s) ∧
    (∃ (s : State) (d : DomId) (v : Word), curMode s ≠ 5 ∧ HostMayWrite d Reg.bcmPowerCap s) ∧
    (∃ (s : State) (d : DomId) (v : Word), curMode s ≠ 5 ∧ HostMayWrite d Reg.bcmRegionOff s ∧ keyArmed s = false) ∧
    (∃ (s : State) (d : DomId) (v : Word), curMode s ≠ 5 ∧ HostMayWrite d Reg.bcmRegionOff s ∧ keyArmed s = true ∧ (∃ r < 16, (getF BcmRegionOff.off v).testBit r = true ∧ enabledOn r s ≠ [])) ∧
    (∃ (s : State) (d : DomId) (v : Word), curMode s ≠ 5 ∧ HostMayWrite d Reg.bcmRegionOff s ∧ keyArmed s = true ∧ (∀ r < 16, (getF BcmRegionOff.off v).testBit r = true → enabledOn r s = [])) ∧
    (∃ (s : State) (d : DomId) (v : Word), curMode s ≠ 5 ∧ HostMayWrite d Reg.bcmRegionOff s ∧ keyArmed s = true ∧ (∀ r < 16, (getF BcmRegionOff.off v).testBit r = true → enabledOn r s = [])) ∧
    (∃ (s : State) (d : DomId) (v : Word), curMode s ≠ 5 ∧ HostMayWrite d Reg.bcmFlashCtl s ∧ keyArmed s = false) ∧
    (∃ (s : State) (d : DomId) (v : Word), curMode s ≠ 5 ∧ HostMayWrite d Reg.bcmFlashCtl s ∧ keyArmed s = true) ∧
    (∃ (s : State) (d : DomId) (v : Word), curMode s ≠ 5 ∧ HostMayWrite d Reg.bcmFlashCtl s ∧ keyArmed s = true) :=
  ⟨⟨(up 3), 47, 0x8000#16, by decide +kernel⟩,
   ⟨(up 3), 30, 0x7FFF#16, by decide +kernel⟩,
   ⟨(up 3), 21, 1759#16, by decide +kernel⟩,
   ⟨{ (fput Reg.bcmStatus BcmStatus.tempWarn 1 (up 3)) with bc := { (up 3).bc with auxPs := 2 * 10 ^ 12 - 1, coolSince := some (10 ^ 12) } }, 0, 0#16, by decide +kernel⟩,
   ⟨(up 3), 0, 1760#16, by decide +kernel⟩,
   ⟨(up 5), 3, 0x7FFF#16, by decide +kernel⟩,
   ⟨{ up 3 with bc := { (up 3).bc with windowAt := 1, auxPs := 10 ^ 9 } }, by decide +kernel⟩,
   ⟨{ (fput Reg.bcmStatus BcmStatus.fwSlot 1 (fput Reg.bcmPowerCap BcmPowerCap.capW 100 (up 3))) with bc := { (fput Reg.bcmStatus BcmStatus.fwSlot 1 (fput Reg.bcmPowerCap BcmPowerCap.capW 100 (up 3))).bc with windowAt := 0, auxPs := 10000000000000, powerSum := 1000, powerCount := 1 } }, (windowAverage ({ (fput Reg.bcmStatus BcmStatus.fwSlot 1 (fput Reg.bcmPowerCap BcmPowerCap.capW 100 (up 3))) with bc := { (fput Reg.bcmStatus BcmStatus.fwSlot 1 (fput Reg.bcmPowerCap BcmPowerCap.capW 100 (up 3))).bc with windowAt := 0, auxPs := 10000000000000, powerSum := 1000, powerCount := 1 } })), ({ (fput Reg.bcmStatus BcmStatus.fwSlot 1 (fput Reg.bcmPowerCap BcmPowerCap.capW 100 (up 3))) with bc := { (fput Reg.bcmStatus BcmStatus.fwSlot 1 (fput Reg.bcmPowerCap BcmPowerCap.capW 100 (up 3))).bc with windowAt := 0, auxPs := 10000000000000, powerSum := 1000, powerCount := 1 } }).bc.lowSince.getD ({ (fput Reg.bcmStatus BcmStatus.fwSlot 1 (fput Reg.bcmPowerCap BcmPowerCap.capW 100 (up 3))) with bc := { (fput Reg.bcmStatus BcmStatus.fwSlot 1 (fput Reg.bcmPowerCap BcmPowerCap.capW 100 (up 3))).bc with windowAt := 0, auxPs := 10000000000000, powerSum := 1000, powerCount := 1 } }).bc.windowAt, by decide +kernel, rfl, rfl, by decide +kernel⟩,
   ⟨{ (fput Reg.bcmStatus BcmStatus.fwSlot 1 (fput Reg.bcmPowerCap BcmPowerCap.capW 100 (fput (Reg.rgcStatus 15) RgcStatus.rgcState 1 (up 3)))) with bc := { (fput Reg.bcmStatus BcmStatus.fwSlot 1 (fput Reg.bcmPowerCap BcmPowerCap.capW 100 (fput (Reg.rgcStatus 15) RgcStatus.rgcState 1 (up 3)))).bc with windowAt := 0, auxPs := 10000000000000, powerSum := 995, powerCount := 1, lowSince := some 5, lowered := [3] } }, (windowAverage ({ (fput Reg.bcmStatus BcmStatus.fwSlot 1 (fput Reg.bcmPowerCap BcmPowerCap.capW 100 (fput (Reg.rgcStatus 15) RgcStatus.rgcState 1 (up 3)))) with bc := { (fput Reg.bcmStatus BcmStatus.fwSlot 1 (fput Reg.bcmPowerCap BcmPowerCap.capW 100 (fput (Reg.rgcStatus 15) RgcStatus.rgcState 1 (up 3)))).bc with windowAt := 0, auxPs := 10000000000000, powerSum := 995, powerCount := 1, lowSince := some 5, lowered := [3] } })), ({ (fput Reg.bcmStatus BcmStatus.fwSlot 1 (fput Reg.bcmPowerCap BcmPowerCap.capW 100 (fput (Reg.rgcStatus 15) RgcStatus.rgcState 1 (up 3)))) with bc := { (fput Reg.bcmStatus BcmStatus.fwSlot 1 (fput Reg.bcmPowerCap BcmPowerCap.capW 100 (fput (Reg.rgcStatus 15) RgcStatus.rgcState 1 (up 3)))).bc with windowAt := 0, auxPs := 10000000000000, powerSum := 995, powerCount := 1, lowSince := some 5, lowered := [3] } }).bc.lowSince.getD ({ (fput Reg.bcmStatus BcmStatus.fwSlot 1 (fput Reg.bcmPowerCap BcmPowerCap.capW 100 (fput (Reg.rgcStatus 15) RgcStatus.rgcState 1 (up 3)))) with bc := { (fput Reg.bcmStatus BcmStatus.fwSlot 1 (fput Reg.bcmPowerCap BcmPowerCap.capW 100 (fput (Reg.rgcStatus 15) RgcStatus.rgcState 1 (up 3)))).bc with windowAt := 0, auxPs := 10000000000000, powerSum := 995, powerCount := 1, lowSince := some 5, lowered := [3] } }).bc.windowAt, by decide +kernel, rfl, rfl, by decide +kernel⟩,
   ⟨{ (fput Reg.bcmStatus BcmStatus.fwSlot 1 (fput Reg.bcmPowerCap BcmPowerCap.capW 100 (up 3))) with bc := { (fput Reg.bcmStatus BcmStatus.fwSlot 1 (fput Reg.bcmPowerCap BcmPowerCap.capW 100 (up 3))).bc with windowAt := 9900000000000, auxPs := 10000000000000, powerSum := 100, powerCount := 1 } }, (windowAverage ({ (fput Reg.bcmStatus BcmStatus.fwSlot 1 (fput Reg.bcmPowerCap BcmPowerCap.capW 100 (up 3))) with bc := { (fput Reg.bcmStatus BcmStatus.fwSlot 1 (fput Reg.bcmPowerCap BcmPowerCap.capW 100 (up 3))).bc with windowAt := 9900000000000, auxPs := 10000000000000, powerSum := 100, powerCount := 1 } })), ({ (fput Reg.bcmStatus BcmStatus.fwSlot 1 (fput Reg.bcmPowerCap BcmPowerCap.capW 100 (up 3))) with bc := { (fput Reg.bcmStatus BcmStatus.fwSlot 1 (fput Reg.bcmPowerCap BcmPowerCap.capW 100 (up 3))).bc with windowAt := 9900000000000, auxPs := 10000000000000, powerSum := 100, powerCount := 1 } }).bc.lowSince.getD ({ (fput Reg.bcmStatus BcmStatus.fwSlot 1 (fput Reg.bcmPowerCap BcmPowerCap.capW 100 (up 3))) with bc := { (fput Reg.bcmStatus BcmStatus.fwSlot 1 (fput Reg.bcmPowerCap BcmPowerCap.capW 100 (up 3))).bc with windowAt := 9900000000000, auxPs := 10000000000000, powerSum := 100, powerCount := 1 } }).bc.windowAt, by decide +kernel, rfl, rfl, by decide +kernel⟩,
   ⟨{ (fput Reg.bcmStatus BcmStatus.fwSlot 1 (fput Reg.bcmPowerCap BcmPowerCap.capW 100 (up 3))) with bc := { (fput Reg.bcmStatus BcmStatus.fwSlot 1 (fput Reg.bcmPowerCap BcmPowerCap.capW 100 (up 3))).bc with windowAt := 9900000000000, auxPs := 10000000000000, powerSum := 949, powerCount := 1, lowSince := some (9 * 10 ^ 12 + 1), lowered := [3] } }, (windowAverage ({ (fput Reg.bcmStatus BcmStatus.fwSlot 1 (fput Reg.bcmPowerCap BcmPowerCap.capW 100 (up 3))) with bc := { (fput Reg.bcmStatus BcmStatus.fwSlot 1 (fput Reg.bcmPowerCap BcmPowerCap.capW 100 (up 3))).bc with windowAt := 9900000000000, auxPs := 10000000000000, powerSum := 949, powerCount := 1, lowSince := some (9 * 10 ^ 12 + 1), lowered := [3] } })), ({ (fput Reg.bcmStatus BcmStatus.fwSlot 1 (fput Reg.bcmPowerCap BcmPowerCap.capW 100 (up 3))) with bc := { (fput Reg.bcmStatus BcmStatus.fwSlot 1 (fput Reg.bcmPowerCap BcmPowerCap.capW 100 (up 3))).bc with windowAt := 9900000000000, auxPs := 10000000000000, powerSum := 949, powerCount := 1, lowSince := some (9 * 10 ^ 12 + 1), lowered := [3] } }).bc.lowSince.getD ({ (fput Reg.bcmStatus BcmStatus.fwSlot 1 (fput Reg.bcmPowerCap BcmPowerCap.capW 100 (up 3))) with bc := { (fput Reg.bcmStatus BcmStatus.fwSlot 1 (fput Reg.bcmPowerCap BcmPowerCap.capW 100 (up 3))).bc with windowAt := 9900000000000, auxPs := 10000000000000, powerSum := 949, powerCount := 1, lowSince := some (9 * 10 ^ 12 + 1), lowered := [3] } }).bc.windowAt, by decide +kernel, rfl, rfl, by decide +kernel⟩,
   ⟨{ (fput Reg.bcmStatus BcmStatus.fwSlot 1 (fput Reg.bcmPowerCap BcmPowerCap.capW 100 (up 3))) with bc := { (fput Reg.bcmStatus BcmStatus.fwSlot 1 (fput Reg.bcmPowerCap BcmPowerCap.capW 100 (up 3))).bc with windowAt := 0, auxPs := 10000000000000, powerSum := 100, powerCount := 1, lowSince := some (9 * 10 ^ 12), lowered := [3], capLevel := [(3, 2)] } }, (windowAverage ({ (fput Reg.bcmStatus BcmStatus.fwSlot 1 (fput Reg.bcmPowerCap BcmPowerCap.capW 100 (up 3))) with bc := { (fput Reg.bcmStatus BcmStatus.fwSlot 1 (fput Reg.bcmPowerCap BcmPowerCap.capW 100 (up 3))).bc with windowAt := 0, auxPs := 10000000000000, powerSum := 100, powerCount := 1, lowSince := some (9 * 10 ^ 12), lowered := [3], capLevel := [(3, 2)] } })), ({ (fput Reg.bcmStatus BcmStatus.fwSlot 1 (fput Reg.bcmPowerCap BcmPowerCap.capW 100 (up 3))) with bc := { (fput Reg.bcmStatus BcmStatus.fwSlot 1 (fput Reg.bcmPowerCap BcmPowerCap.capW 100 (up 3))).bc with windowAt := 0, auxPs := 10000000000000, powerSum := 100, powerCount := 1, lowSince := some (9 * 10 ^ 12), lowered := [3], capLevel := [(3, 2)] } }).bc.lowSince.getD ({ (fput Reg.bcmStatus BcmStatus.fwSlot 1 (fput Reg.bcmPowerCap BcmPowerCap.capW 100 (up 3))) with bc := { (fput Reg.bcmStatus BcmStatus.fwSlot 1 (fput Reg.bcmPowerCap BcmPowerCap.capW 100 (up 3))).bc with windowAt := 0, auxPs := 10000000000000, powerSum := 100, powerCount := 1, lowSince := some (9 * 10 ^ 12), lowered := [3], capLevel := [(3, 2)] } }).bc.windowAt, 3, [], by decide +kernel, rfl, rfl, by decide +kernel⟩,
   ⟨{ (fput Reg.bcmStatus BcmStatus.fwSlot 1 (fput Reg.bcmPowerCap BcmPowerCap.capW 100 (fput Reg.bcmStatus BcmStatus.capActive 1 (up 3)))) with bc := { (fput Reg.bcmStatus BcmStatus.fwSlot 1 (fput Reg.bcmPowerCap BcmPowerCap.capW 100 (fput Reg.bcmStatus BcmStatus.capActive 1 (up 3)))).bc with windowAt := 9900000000000, auxPs := 10000000000000, powerSum := 949, powerCount := 1, lowSince := some 5, lowered := [15, 15], capLevel := [(15, 2)] } }, (windowAverage ({ (fput Reg.bcmStatus BcmStatus.fwSlot 1 (fput Reg.bcmPowerCap BcmPowerCap.capW 100 (fput Reg.bcmStatus BcmStatus.capActive 1 (up 3)))) with bc := { (fput Reg.bcmStatus BcmStatus.fwSlot 1 (fput Reg.bcmPowerCap BcmPowerCap.capW 100 (fput Reg.bcmStatus BcmStatus.capActive 1 (up 3)))).bc with windowAt := 9900000000000, auxPs := 10000000000000, powerSum := 949, powerCount := 1, lowSince := some 5, lowered := [15, 15], capLevel := [(15, 2)] } })), ({ (fput Reg.bcmStatus BcmStatus.fwSlot 1 (fput Reg.bcmPowerCap BcmPowerCap.capW 100 (fput Reg.bcmStatus BcmStatus.capActive 1 (up 3)))) with bc := { (fput Reg.bcmStatus BcmStatus.fwSlot 1 (fput Reg.bcmPowerCap BcmPowerCap.capW 100 (fput Reg.bcmStatus BcmStatus.capActive 1 (up 3)))).bc with windowAt := 9900000000000, auxPs := 10000000000000, powerSum := 949, powerCount := 1, lowSince := some 5, lowered := [15, 15], capLevel := [(15, 2)] } }).bc.lowSince.getD ({ (fput Reg.bcmStatus BcmStatus.fwSlot 1 (fput Reg.bcmPowerCap BcmPowerCap.capW 100 (fput Reg.bcmStatus BcmStatus.capActive 1 (up 3)))) with bc := { (fput Reg.bcmStatus BcmStatus.fwSlot 1 (fput Reg.bcmPowerCap BcmPowerCap.capW 100 (fput Reg.bcmStatus BcmStatus.capActive 1 (up 3)))).bc with windowAt := 9900000000000, auxPs := 10000000000000, powerSum := 949, powerCount := 1, lowSince := some 5, lowered := [15, 15], capLevel := [(15, 2)] } }).bc.windowAt, 15, [15], by decide +kernel, rfl, rfl, by decide +kernel⟩,
   ⟨{ (fput Reg.bcmStatus BcmStatus.fwSlot 1 (fput Reg.bcmPowerCap BcmPowerCap.capW 100 (fput (Reg.rgcStatus 15) RgcStatus.rgcState 1 (up 3)))) with bc := { (fput Reg.bcmStatus BcmStatus.fwSlot 1 (fput Reg.bcmPowerCap BcmPowerCap.capW 100 (fput (Reg.rgcStatus 15) RgcStatus.rgcState 1 (up 3)))).bc with windowAt := 0, auxPs := 10000000000000, powerSum := 1001, powerCount := 1 } }, (windowAverage ({ (fput Reg.bcmStatus BcmStatus.fwSlot 1 (fput Reg.bcmPowerCap BcmPowerCap.capW 100 (fput (Reg.rgcStatus 15) RgcStatus.rgcState 1 (up 3)))) with bc := { (fput Reg.bcmStatus BcmStatus.fwSlot 1 (fput Reg.bcmPowerCap BcmPowerCap.capW 100 (fput (Reg.rgcStatus 15) RgcStatus.rgcState 1 (up 3)))).bc with windowAt := 0, auxPs := 10000000000000, powerSum := 1001, powerCount := 1 } })), ({ (fput Reg.bcmStatus BcmStatus.fwSlot 1 (fput Reg.bcmPowerCap BcmPowerCap.capW 100 (fput (Reg.rgcStatus 15) RgcStatus.rgcState 1 (up 3)))) with bc := { (fput Reg.bcmStatus BcmStatus.fwSlot 1 (fput Reg.bcmPowerCap BcmPowerCap.capW 100 (fput (Reg.rgcStatus 15) RgcStatus.rgcState 1 (up 3)))).bc with windowAt := 0, auxPs := 10000000000000, powerSum := 1001, powerCount := 1 } }).bc.lowSince.getD ({ (fput Reg.bcmStatus BcmStatus.fwSlot 1 (fput Reg.bcmPowerCap BcmPowerCap.capW 100 (fput (Reg.rgcStatus 15) RgcStatus.rgcState 1 (up 3)))) with bc := { (fput Reg.bcmStatus BcmStatus.fwSlot 1 (fput Reg.bcmPowerCap BcmPowerCap.capW 100 (fput (Reg.rgcStatus 15) RgcStatus.rgcState 1 (up 3)))).bc with windowAt := 0, auxPs := 10000000000000, powerSum := 1001, powerCount := 1 } }).bc.windowAt, 15, by decide +kernel, rfl, rfl, by decide +kernel⟩,
   ⟨{ (fput Reg.bcmStatus BcmStatus.fwSlot 1 (fput Reg.bcmPowerCap BcmPowerCap.capW 100 (fput (Reg.rgcStatus 0) RgcStatus.rgcState 1 (up 3)))) with bc := { (fput Reg.bcmStatus BcmStatus.fwSlot 1 (fput Reg.bcmPowerCap BcmPowerCap.capW 100 (fput (Reg.rgcStatus 0) RgcStatus.rgcState 1 (up 3)))).bc with windowAt := 0, auxPs := 10000000000000, powerSum := 9999, powerCount := 3, lowered := [2] } }, (windowAverage ({ (fput Reg.bcmStatus BcmStatus.fwSlot 1 (fput Reg.bcmPowerCap BcmPowerCap.capW 100 (fput (Reg.rgcStatus 0) RgcStatus.rgcState 1 (up 3)))) with bc := { (fput Reg.bcmStatus BcmStatus.fwSlot 1 (fput Reg.bcmPowerCap BcmPowerCap.capW 100 (fput (Reg.rgcStatus 0) RgcStatus.rgcState 1 (up 3)))).bc with windowAt := 0, auxPs := 10000000000000, powerSum := 9999, powerCount := 3, lowered := [2] } })), ({ (fput Reg.bcmStatus BcmStatus.fwSlot 1 (fput Reg.bcmPowerCap BcmPowerCap.capW 100 (fput (Reg.rgcStatus 0) RgcStatus.rgcState 1 (up 3)))) with bc := { (fput Reg.bcmStatus BcmStatus.fwSlot 1 (fput Reg.bcmPowerCap BcmPowerCap.capW 100 (fput (Reg.rgcStatus 0) RgcStatus.rgcState 1 (up 3)))).bc with windowAt := 0, auxPs := 10000000000000, powerSum := 9999, powerCount := 3, lowered := [2] } }).bc.lowSince.getD ({ (fput Reg.bcmStatus BcmStatus.fwSlot 1 (fput Reg.bcmPowerCap BcmPowerCap.capW 100 (fput (Reg.rgcStatus 0) RgcStatus.rgcState 1 (up 3)))) with bc := { (fput Reg.bcmStatus BcmStatus.fwSlot 1 (fput Reg.bcmPowerCap BcmPowerCap.capW 100 (fput (Reg.rgcStatus 0) RgcStatus.rgcState 1 (up 3)))).bc with windowAt := 0, auxPs := 10000000000000, powerSum := 9999, powerCount := 3, lowered := [2] } }).bc.windowAt, 0, by decide +kernel, rfl, rfl, by decide +kernel⟩,
   ⟨(up 3), 0, 0#32, by decide +kernel, hmw (by decide +kernel)⟩,
   ⟨(up 3), 0, 0x00310032#32, by decide +kernel, hmw (by decide +kernel)⟩,
   ⟨(up 3), 0, 1#32, by decide +kernel, hmw (by decide +kernel), by decide +kernel⟩,
   ⟨(fput Reg.chipKeyState ChipKeyState.armed 1 (enabled (composed 2 (up 3)))), 0, 1#32, by decide +kernel, hmw (by decide +kernel), by decide +kernel⟩,
   ⟨(fput Reg.chipKeyState ChipKeyState.armed 1 (fput (Reg.rgcStatus 15) RgcStatus.rgcState 1 (up 3))), 0, 0xFFFFFFFF#32, by decide +kernel, hmw (by decide +kernel), by decide +kernel⟩,
   ⟨(fput Reg.chipKeyState ChipKeyState.armed 1 (fput Reg.bcmRegionOff BcmRegionOff.off 0xFFFF (fput (Reg.rgcStatus 3) RgcStatus.rgcState 1 (up 4)))), 0, 0#32, by decide +kernel, hmw (by decide +kernel), by decide +kernel⟩,
   ⟨(up 3), 0, 1#32, by decide +kernel, hmw (by decide +kernel), by decide +kernel⟩,
   ⟨(fput Reg.chipKeyState ChipKeyState.armed 1 (up 4)), 0, 1#32, by decide +kernel, hmw (by decide +kernel), by decide +kernel⟩,
   ⟨(fput Reg.chipKeyState ChipKeyState.armed 1 (up 4)), 0, 0xFFFFFFFF#32, by decide +kernel, hmw (by decide +kernel), by decide +kernel⟩⟩

theorem test_meets_LogIndexCopiesAnEntry :
    (∃ (s : State) (d : DomId) (v : Word), HostMayWrite d Reg.bcmLogIdx s ∧ curMode s ≠ 5) ∧
    (∃ (s : State) (d : DomId) (v : Word), HostMayWrite d Reg.bcmLogIdx s ∧ curMode s ≠ 5) :=
  ⟨⟨{ wr Reg.bcmLogWr 6#32 (up 3) with bc := { BaseCamp.init with log := [(5, ⟨1, 2, 3, 4, 5⟩)] } }, 0, 5#32, hmw (by decide +kernel), by decide +kernel⟩,
   ⟨{ wr Reg.bcmLogWr 0xFFFFFFFF#32 (up 3) with bc := { BaseCamp.init with log := [(5, ⟨1, 2, 3, 4, 5⟩)] } }, 0, 5#32, hmw (by decide +kernel), by decide +kernel⟩⟩

theorem test_meets_UntilFirmwareRunsOnlyTwoCommandsAreAnswered :
    (∃ (s : State) (a : Fin 128), s.pwr.aux = true ∧ fwRuns s = false ∧ a.val = smbAddress s) ∧
    (∃ (s : State) (a : Fin 128), s.pwr.aux = true ∧ fwRuns s = false ∧ a.val = smbAddress s) ∧
    (∃ (s : State) (a : Fin 128), s.pwr.aux = true ∧ fwRuns s = false ∧ a.val = smbAddress s) ∧
    (∃ (s : State) (a : Fin 128), s.pwr.aux = true ∧ fwRuns s = false ∧ a.val = smbAddress s) ∧
    (∃ (s : State) (a : Fin 128) (c : Instr) (pec : Bool), (s.pwr.aux = true ∧ fwRuns s = false ∧ a.val = smbAddress s) ∧ (c = .smbTempMax a pec ∨ c = .smbPower a pec ∨ (∃ n, c = .smbSensor a pec n) ∨ (∃ k, c = .logSeek a pec k) ∨ c = .logRead a pec ∨ (∃ n, c = .smbHold a pec n) ∨ (∃ w, c = .bmcCap a pec w) ∨ c = .clearTrip a pec)) ∧
    (∃ (s : State) (a : Fin 128) (c : Instr) (pec : Bool), (s.pwr.aux = true ∧ fwRuns s = false ∧ a.val = smbAddress s) ∧ (c = .smbTempMax a pec ∨ c = .smbPower a pec ∨ (∃ n, c = .smbSensor a pec n) ∨ (∃ k, c = .logSeek a pec k) ∨ c = .logRead a pec ∨ (∃ n, c = .smbHold a pec n) ∨ (∃ w, c = .bmcCap a pec w) ∨ c = .clearTrip a pec)) :=
  ⟨⟨{ State.reset with pwr := { State.reset.pwr with aux := true, adsel := 0 } }, 88, by decide +kernel⟩,
   ⟨{ State.reset with pwr := { State.reset.pwr with aux := true, adsel := 3 } }, 91, by decide +kernel⟩,
   ⟨{ State.reset with pwr := { State.reset.pwr with aux := true, adsel := 0 } }, 88, by decide +kernel⟩,
   ⟨{ State.reset with pwr := { State.reset.pwr with aux := true, adsel := 3 } }, 91, by decide +kernel⟩,
   ⟨{ State.reset with pwr := { State.reset.pwr with aux := true, adsel := 1 } }, 89, (.smbTempMax 89 true), true, by decide +kernel, .inl rfl⟩,
   ⟨{ State.reset with pwr := { State.reset.pwr with aux := true, adsel := 1 } }, 89, (.clearTrip 89 false), false, by decide +kernel, .inr (.inr (.inr (.inr (.inr (.inr (.inr rfl))))))⟩⟩

theorem test_meets_SmbusCommandsAreAnswered :
    (∃ (s : State) (a : Fin 128) (c : Instr) (pec : Bool), s.pwr.aux = true ∧ (c = .smbStatus a pec ∨ c = .fwInfo a pec ∨ c = .smbTempMax a pec ∨ c = .smbPower a pec ∨ (∃ n, c = .smbSensor a pec n) ∨ (∃ k, c = .logSeek a pec k) ∨ c = .logRead a pec ∨ (∃ n, c = .smbHold a pec n) ∨ (∃ w, c = .bmcCap a pec w) ∨ c = .clearTrip a pec) ∧ a.val ≠ smbAddress s) ∧
    (∃ (s : State) (a : Fin 128) (c : Instr) (pec : Bool), s.pwr.aux = true ∧ (c = .smbStatus a pec ∨ c = .fwInfo a pec ∨ c = .smbTempMax a pec ∨ c = .smbPower a pec ∨ (∃ n, c = .smbSensor a pec n) ∨ (∃ k, c = .logSeek a pec k) ∨ c = .logRead a pec ∨ (∃ n, c = .smbHold a pec n) ∨ (∃ w, c = .bmcCap a pec w) ∨ c = .clearTrip a pec) ∧ a.val ≠ smbAddress s) ∧
    (∃ (s : State) (a : Fin 128) (c : Instr) (pec : Bool), s.pwr.aux = true ∧ (c = .smbStatus a pec ∨ c = .fwInfo a pec ∨ c = .smbTempMax a pec ∨ c = .smbPower a pec ∨ (∃ n, c = .smbSensor a pec n) ∨ (∃ k, c = .logSeek a pec k) ∨ c = .logRead a pec ∨ (∃ n, c = .smbHold a pec n) ∨ (∃ w, c = .bmcCap a pec w) ∨ c = .clearTrip a pec) ∧ a.val = smbAddress s ∧ pec = false) ∧
    (∃ (s : State) (a : Fin 128) (c : Instr) (pec : Bool), s.pwr.aux = true ∧ (c = .smbStatus a pec ∨ c = .fwInfo a pec ∨ c = .smbTempMax a pec ∨ c = .smbPower a pec ∨ (∃ n, c = .smbSensor a pec n) ∨ (∃ k, c = .logSeek a pec k) ∨ c = .logRead a pec ∨ (∃ n, c = .smbHold a pec n) ∨ (∃ w, c = .bmcCap a pec w) ∨ c = .clearTrip a pec) ∧ a.val = smbAddress s ∧ pec = false) ∧
    (∃ (s : State) (a : Fin 128), s.pwr.aux = true ∧ a.val = smbAddress s) ∧
    (∃ (s : State) (a : Fin 128), s.pwr.aux = true ∧ a.val = smbAddress s) ∧
    (∃ (s : State) (a : Fin 128), s.pwr.aux = true ∧ a.val = smbAddress s ∧ fwRuns s = true) ∧
    (∃ (s : State) (a : Fin 128), s.pwr.aux = true ∧ a.val = smbAddress s ∧ fwRuns s = true) ∧
    (∃ (s : State) (a : Fin 128) (n : Fin 256), s.pwr.aux = true ∧ a.val = smbAddress s ∧ fwRuns s = true ∧ n.val < 64) ∧
    (∃ (s : State) (a : Fin 128) (n : Fin 256), s.pwr.aux = true ∧ a.val = smbAddress s ∧ fwRuns s = true ∧ n.val < 64) ∧
    (∃ (s : State) (a : Fin 128) (n : Fin 256), s.pwr.aux = true ∧ a.val = smbAddress s ∧ fwRuns s = true ∧ 64 ≤ n.val) ∧
    (∃ (s : State) (a : Fin 128) (n : Fin 256), s.pwr.aux = true ∧ a.val = smbAddress s ∧ fwRuns s = true ∧ 64 ≤ n.val) ∧
    (∃ (s : State) (a : Fin 128) (k : Word), s.pwr.aux = true ∧ a.val = smbAddress s ∧ fwRuns s = true) ∧
    (∃ (s : State) (a : Fin 128), s.pwr.aux = true ∧ a.val = smbAddress s ∧ fwRuns s = true) ∧
    (∃ (s : State) (a : Fin 128), s.pwr.aux = true ∧ a.val = smbAddress s ∧ fwRuns s = true) ∧
    (∃ (s : State) (a : Fin 128), s.pwr.aux = true ∧ a.val = smbAddress s ∧ fwRuns s = true ∧ s.pwr.hold = false) ∧
    (∃ (s : State) (a : Fin 128), s.pwr.aux = true ∧ a.val = smbAddress s ∧ fwRuns s = true) ∧
    (∃ (s : State) (a : Fin 128), s.pwr.aux = true ∧ a.val = smbAddress s ∧ fwRuns s = true) ∧
    (∃ (s : State) (a : Fin 128) (n : Fin 256), s.pwr.aux = true ∧ a.val = smbAddress s ∧ fwRuns s = true ∧ 2 ≤ n.val) ∧
    (∃ (s : State) (a : Fin 128) (n : Fin 256), s.pwr.aux = true ∧ a.val = smbAddress s ∧ fwRuns s = true ∧ 2 ≤ n.val) ∧
    (∃ (s : State) (a : Fin 128) (w : BitVec 16), s.pwr.aux = true ∧ a.val = smbAddress s ∧ fwRuns s = true) ∧
    (∃ (s : State) (a : Fin 128) (w : BitVec 16), s.pwr.aux = true ∧ a.val = smbAddress s ∧ fwRuns s = true) ∧
    (∃ (s : State) (a : Fin 128), s.pwr.aux = true ∧ a.val = smbAddress s ∧ fwRuns s = true ∧ s.pwr.trip = true ∧ (∀ n < 22, sensorInt n s < 16 * (warnC s : Int))) ∧
    (∃ (s : State) (a : Fin 128), s.pwr.aux = true ∧ a.val = smbAddress s ∧ fwRuns s = true ∧ s.pwr.trip = true ∧ (∃ n < 22, 16 * (warnC s : Int) ≤ sensorInt n s)) :=
  ⟨⟨(fput Reg.bcmStatus BcmStatus.fwSlot 2 ({ State.reset with pwr := { State.reset.pwr with aux := true, adsel := 2 } })), 88, (.smbStatus 88 true), true, by decide +kernel, .inl rfl, by decide +kernel⟩,
   ⟨(fput Reg.bcmStatus BcmStatus.fwSlot 2 ({ State.reset with pwr := { State.reset.pwr with aux := true, adsel := 2 } })), 88, (.clearTrip 88 false), false, by decide +kernel, .inr (.inr (.inr (.inr (.inr (.inr (.inr (.inr (.inr rfl)))))))), by decide +kernel⟩,
   ⟨(fput Reg.bcmStatus BcmStatus.fwSlot 2 ({ State.reset with pwr := { State.reset.pwr with aux := true, adsel := 2 } })), 90, (.smbStatus 90 false), false, by decide +kernel, .inl rfl, by decide +kernel, rfl⟩,
   ⟨(fput Reg.bcmStatus BcmStatus.fwSlot 2 ({ State.reset with pwr := { State.reset.pwr with aux := true, adsel := 2 } })), 90, (.clearTrip 90 false), false, by decide +kernel, .inr (.inr (.inr (.inr (.inr (.inr (.inr (.inr (.inr rfl)))))))), by decide +kernel, rfl⟩,
   ⟨(fput Reg.bcmStatus BcmStatus.fwSlot 2 ({ State.reset with pwr := { State.reset.pwr with aux := true, adsel := 2 } })), 90, by decide +kernel⟩,
   ⟨(fput Reg.bcmStatus BcmStatus.fwSlot 2 ({ State.reset with pwr := { State.reset.pwr with aux := true, adsel := 2 } })), 90, by decide +kernel⟩,
   ⟨(fput Reg.bcmStatus BcmStatus.fwSlot 2 ({ State.reset with pwr := { State.reset.pwr with aux := true, adsel := 2 } })), 90, by decide +kernel⟩,
   ⟨(fput Reg.bcmStatus BcmStatus.fwSlot 2 ({ State.reset with pwr := { State.reset.pwr with aux := true, adsel := 2 } })), 90, by decide +kernel⟩,
   ⟨(fput Reg.bcmStatus BcmStatus.fwSlot 2 ({ State.reset with pwr := { State.reset.pwr with aux := true, adsel := 2 } })), 90, 0, by decide +kernel⟩,
   ⟨(fput Reg.bcmStatus BcmStatus.fwSlot 2 ({ State.reset with pwr := { State.reset.pwr with aux := true, adsel := 2 } })), 90, 63, by decide +kernel⟩,
   ⟨(fput Reg.bcmStatus BcmStatus.fwSlot 2 ({ State.reset with pwr := { State.reset.pwr with aux := true, adsel := 2 } })), 90, 64, by decide +kernel⟩,
   ⟨(fput Reg.bcmStatus BcmStatus.fwSlot 2 ({ State.reset with pwr := { State.reset.pwr with aux := true, adsel := 2 } })), 90, 255, by decide +kernel⟩,
   ⟨(fput Reg.bcmStatus BcmStatus.fwSlot 2 ({ State.reset with pwr := { State.reset.pwr with aux := true, adsel := 2 } })), 90, 0xFFFFFFFF#32, by decide +kernel⟩,
   ⟨{ wr Reg.bcmLogWr 6#32 (fput Reg.bcmStatus BcmStatus.fwSlot 2 ({ State.reset with pwr := { State.reset.pwr with aux := true, adsel := 2 } })) with bc := { BaseCamp.init with smbIdx := 0xFFFFFFFF, log := [(5, ⟨1, 2, 3, 4, 5⟩)] } }, 90, by decide +kernel⟩,
   ⟨{ wr Reg.bcmLogWr 6#32 (fput Reg.bcmStatus BcmStatus.fwSlot 2 ({ State.reset with pwr := { State.reset.pwr with aux := true, adsel := 2 } })) with bc := { BaseCamp.init with smbIdx := 5, log := [(5, ⟨1, 2, 3, 4, 5⟩)] } }, 90, by decide +kernel⟩,
   ⟨{ (fput Reg.bcmStatus BcmStatus.fwSlot 1 (up 3)) with pwr := { (fput Reg.bcmStatus BcmStatus.fwSlot 1 (up 3)).pwr with adsel := 2 } }, 90, by decide +kernel⟩,
   ⟨(fput Reg.bcmStatus BcmStatus.fwSlot 2 ({ State.reset with pwr := { State.reset.pwr with aux := true, adsel := 2 } })), 90, by decide +kernel⟩,
   ⟨{ ({ (fput Reg.bcmStatus BcmStatus.fwSlot 1 (up 3)) with pwr := { (fput Reg.bcmStatus BcmStatus.fwSlot 1 (up 3)).pwr with adsel := 2 } }) with pwr := { ({ (fput Reg.bcmStatus BcmStatus.fwSlot 1 (up 3)) with pwr := { (fput Reg.bcmStatus BcmStatus.fwSlot 1 (up 3)).pwr with adsel := 2 } }).pwr with hold := true } }, 90, by decide +kernel⟩,
   ⟨(fput Reg.bcmStatus BcmStatus.fwSlot 2 ({ State.reset with pwr := { State.reset.pwr with aux := true, adsel := 2 } })), 90, 2, by decide +kernel⟩,
   ⟨(fput Reg.bcmStatus BcmStatus.fwSlot 2 ({ State.reset with pwr := { State.reset.pwr with aux := true, adsel := 2 } })), 90, 255, by decide +kernel⟩,
   ⟨(fput Reg.bcmStatus BcmStatus.fwSlot 2 ({ State.reset with pwr := { State.reset.pwr with aux := true, adsel := 2 } })), 90, 0#16, by decide +kernel⟩,
   ⟨(fput Reg.bcmStatus BcmStatus.fwSlot 2 ({ State.reset with pwr := { State.reset.pwr with aux := true, adsel := 2 } })), 90, 0xFFFF#16, by decide +kernel⟩,
   ⟨(fput Reg.bcmStatus BcmStatus.fwSlot 2 { State.reset with pwr := { State.reset.pwr with aux := true, trip := true, adsel := 2 } }), 90, by decide +kernel⟩,
   ⟨(fput (Reg.bcmSensor 21) BcmSensor.value (16 * 105) (fput (Reg.bcmSensor 21) BcmSensor.valid 1 (fput Reg.bcmStatus BcmStatus.fwSlot 2 { State.reset with pwr := { State.reset.pwr with aux := true, trip := true, adsel := 2 } }))), 90, by decide +kernel⟩⟩

theorem test_meets_BoundaryScanTouchesTheTapOnly :
    (∃ (s : State) (drive : List (Nat × Bool)) (pads : List (Nat × Bool)) (c : Instr) (i : TapInstr), (c, i) ∈ [(Instr.extest drive pads, TapInstr.extest), (.extestPulse drive pads, .extestPulse), (.extestTrain drive pads, .extestTrain)] ∧ s.pwr.aux = true ∧ s.pwr.perst = true) ∧
    (∃ (s : State) (drive : List (Nat × Bool)) (pads : List (Nat × Bool)) (c : Instr) (i : TapInstr), (c, i) ∈ [(Instr.extest drive pads, TapInstr.extest), (.extestPulse drive pads, .extestPulse), (.extestTrain drive pads, .extestTrain)] ∧ s.pwr.aux = true ∧ s.pwr.perst = true) ∧
    (∃ (s : State) (drive : List (Nat × Bool)) (pads : List (Nat × Bool)), s.pwr.aux = true ∧ s.pwr.perst = true) ∧
    (∃ (s : State) (drive : List (Nat × Bool)) (pads : List (Nat × Bool)), s.pwr.aux = true ∧ s.pwr.perst = true) ∧
    (∃ (s : State) (drive : List (Nat × Bool)) (pads : List (Nat × Bool)), s.pwr.aux = true ∧ s.pwr.perst = true) ∧
    (∃ (s : State) (drive : List (Nat × Bool)) (pads : List (Nat × Bool)) (c : Instr), (s.pwr.aux = false ∨ s.pwr.perst = false) ∧ c ∈ [Instr.extest drive pads, .extestPulse drive pads, .extestTrain drive pads, .samplePreload drive pads, .highz, .clamp] ∨ c = .bypass) ∧
    (∃ (s : State) (drive : List (Nat × Bool)) (pads : List (Nat × Bool)) (c : Instr), (s.pwr.aux = false ∨ s.pwr.perst = false) ∧ c ∈ [Instr.extest drive pads, .extestPulse drive pads, .extestTrain drive pads, .samplePreload drive pads, .highz, .clamp] ∨ c = .bypass) :=
  ⟨⟨{ State.reset with pwr := { State.reset.pwr with aux := true, perst := true } }, [(3, true), (1, false)], [(7, true)], (.extest ([(3, true), (1, false)]) ([(7, true)])), .extest, by decide +kernel⟩,
   ⟨{ State.reset with pwr := { State.reset.pwr with aux := true, perst := true } }, [(3, true), (1, false)], [(7, true)], (.extestTrain ([(3, true), (1, false)]) ([(7, true)])), .extestTrain, by decide +kernel⟩,
   ⟨{ State.reset with pwr := { State.reset.pwr with aux := true, perst := true } }, [(3, true), (1, false)], [(7, true)], by decide +kernel⟩,
   ⟨{ State.reset with pwr := { State.reset.pwr with aux := true, perst := true } }, [(3, true), (1, false)], [(7, true)], by decide +kernel⟩,
   ⟨{ State.reset with pwr := { State.reset.pwr with aux := true, perst := true } }, [(3, true), (1, false)], [(7, true)], by decide +kernel⟩,
   ⟨(up 3), [(3, true), (1, false)], [(7, true)], .highz, by decide +kernel⟩,
   ⟨(up 3), [(3, true), (1, false)], [(7, true)], .clamp, by decide +kernel⟩⟩

end Sys2Proof.Tests
end

section
/-! The key guard (R549, R550): no operation that a read or a guarded write comes down to writes CHIP_KEY_STATE, so that only a write
of CHIP_KEY and the check for the guard itself change it. -/

namespace Sys2Proof.Machine

open Sys2Proof

/-! ### The word of the guard -/

/-- CHIP_KEY_STATE, the register of the key guard (R549), holds `w`. -/
def KeyWord (w : Word) (s : State) : Prop := rd Reg.chipKeyState s = w

theorem keyArmed_eq_of_keyWord {w : Word} {s t : State} (hs : KeyWord w s) (ht : KeyWord w t) : keyArmed t = keyArmed s := by
  unfold keyArmed fbit fget
  rw [show rd _ t = w from ht, show rd _ s = w from hs]

section
variable {w : Word} {s : State} {α : Type}

/-- A write of another register than CHIP_KEY_STATE. -/
theorem KeyWord.wrAt {off : Nat} {v : Word} (h : KeyWord w s) (ho : off ≠ Reg.chipKeyState) : KeyWord w (wr off v s) :=
  (rd_wr_ne ho.symm).trans h

/-- A write of a register in a window above CHIP_KEY_STATE. -/
theorem KeyWord.wr {base k : Nat} {v : Word} (h : KeyWord w s) (hb : 0x14 < base) : KeyWord w (wr (base + k) v s) :=
  h.wrAt (Nat.ne_of_gt (Nat.lt_add_right k hb))

/-- An update of other parts of the state than the registers. -/
theorem KeyWord.upd {t : State} (h : KeyWord w s) (e : t.regs = s.regs) : KeyWord w t := (rd_congr e).trans h

theorem KeyWord.emit {o : Output} (h : KeyWord w s) : KeyWord w (emit o s) := h.upd rfl

theorem KeyWord.stepFree (h : KeyWord w s) : KeyWord w (stepFree s) := h.upd rfl

theorem KeyWord.setArb {p : Nat} {a : PoolArb} (h : KeyWord w s) : KeyWord w (setArb p a s) := h.upd rfl

theorem KeyWord.setGrow {p : Nat} {g : PoolGrow} (h : KeyWord w s) : KeyWord w (setGrow p g s) := h.upd rfl

theorem KeyWord.setHead {p : Nat} {l : List Nat} (h : KeyWord w s) : KeyWord w (setHead p l s) := h.upd rfl

theorem KeyWord.setBuf {n : Nat} {b : Buf} (h : KeyWord w s) : KeyWord w (setBuf n b s) := h.upd rfl

theorem KeyWord.setChan {c : Nat} {x : Chan} (h : KeyWord w s) : KeyWord w (setChan c x s) := h.upd rfl

theorem KeyWord.setBlock {r b : Nat} {x : Block} (h : KeyWord w s) : KeyWord w (setBlock r b x s) := h.upd rfl

theorem KeyWord.askLater {x : PoolWait} (h : KeyWord w s) : KeyWord w (askLater x s) := h.upd rfl

theorem KeyWord.storeWord {a : Nat} {l : List Byte} {b : Bool} (h : KeyWord w s) : KeyWord w (storeWord a l b s) := h.upd rfl

theorem KeyWord.ite {c : Prop} [Decidable c] {t u : State} (ht : KeyWord w t) (hu : KeyWord w u) : KeyWord w (if c then t else u) := by
  split <;> assumption

theorem KeyWord.foldl {f : State → α → State} (hf : ∀ t e, KeyWord w t → KeyWord w (f t e)) (l : List α) {t : State}
    (ht : KeyWord w t) : KeyWord w (l.foldl f t) := by
  induction l generalizing t with
  | nil => exact ht
  | cons e l ih => exact ih (hf t e ht)

theorem KeyWord.raise {src : Nat} (h : KeyWord w s) : KeyWord w (raise src s) := .ite (h.wr (by omega)) (h.wr (by omega))

theorem KeyWord.accessErr {d kind off : Nat} (h : KeyWord w s) : KeyWord w (accessErr d kind off s) :=
  (((h.wr (by omega)).wr (by omega)).wr (by omega)).wr (by omega)

/-! ### Reads: the pools and the memory -/

theorem KeyWord.countCorrected {a n : Nat} (h : KeyWord w s) : KeyWord w (countCorrected a n s) :=
  have h4 := ((((h.wr (by omega)).wr (by omega)).wr (by omega)).wr (by omega)).wr (by omega)
  .ite (h4.wr (by omega)).raise h4

theorem KeyWord.countUncorrectable {a cls : Nat} (h : KeyWord w s) : KeyWord w (countUncorrectable a cls s) :=
  have h1 := h.wr (by omega)
  .ite h1 ((((h1.wr (by omega)).wr (by omega)).wr (by omega)).wr (by omega)).raise

theorem KeyWord.countRead {f : ReadFor} {a : Nat} (h : KeyWord w s) : KeyWord w (countRead f a s) := by
  unfold Machine.countRead
  split
  · exact h
  · exact h.countCorrected
  · split
    · exact h.countUncorrectable
    · exact h.countUncorrectable
    · exact h.wr (by omega)

theorem KeyWord.resolve {a n : Nat} (h : KeyWord w s) : KeyWord w (resolve a n s) := by
  refine .ite (.foldl (fun t e ht => ?_) _ h) h
  unfold resolveWord
  split
  · exact ht
  · exact .ite ht.emit.stepFree.storeWord ht.emit.stepFree

theorem KeyWord.checkEnd {p n k : Nat} (h : KeyWord w s) : KeyWord w (checkEnd p n k s) :=
  have hr := h.resolve.countRead
  .ite h (.ite hr (hr.wr (by omega)))

theorem KeyWord.refillOne {p : Nat} (h : KeyWord w s) : KeyWord w (refillOne p s) := by
  unfold Machine.refillOne
  dsimp only
  split
  · exact h
  · next n _ =>
    have hr : KeyWord w (readWord 3 (bufAddr p n s / 64) (Machine.resolve (bufAddr p n s) 64 s)).2 := h.resolve.countRead
    exact .ite h (.ite hr.setHead.checkEnd (hr.wr (by omega)))

theorem KeyWord.popFree {p : Nat} (h : KeyWord w s) : KeyWord w (popFree p s).2 := by
  unfold Machine.popFree
  extract_lets s1
  have h1 : KeyWord w s1 := .ite h.refillOne h
  split
  · exact h1
  · exact h1.setHead.wr (by omega)

theorem KeyWord.setHeld {p n : Nat} (h : KeyWord w s) : KeyWord w (setHeld p n s) :=
  have h1 := h.wr (by omega)
  .ite (h1.wr (by omega)).raise h1

theorem KeyWord.countAllocFail {p code : Nat} {live : Bool} (h : KeyWord w s) : KeyWord w (countAllocFail p code live s) := by
  unfold Machine.countAllocFail
  have h1 : KeyWord w (bump (if code = codeEmpty then Reg.bpmPoolEmptyCnt p else Reg.bpmPoolOverCnt p) BpmPoolEmptyCnt.count s) := by
    split <;> exact h.wr (by omega)
  exact .ite (h1.wr (by omega)).raise h1

theorem KeyWord.latchPoolErr {p code buf who : Nat} (h : KeyWord w s) : KeyWord w (latchPoolErr p code buf who s) :=
  (((((h.wr (by omega)).wr (by omega)).wr (by omega)).wr (by omega)).wr (by omega)).raise

theorem KeyWord.allocBuf {p who owner : Nat} {live : Bool} (h : KeyWord w s) : KeyWord w (allocBuf p who owner live s).2 := by
  unfold Machine.allocBuf
  extract_lets t c
  have ht : KeyWord w t := h.setArb
  split
  · exact ht.countAllocFail
  · split
    · exact ht.stepFree.latchPoolErr
    · split
      · next s1 he => exact KeyWord.countAllocFail (he ▸ ht.popFree :)
      · next n s1 he =>
        have h1 : KeyWord w s1 := (he ▸ ht.popFree (p := p) :)
        exact h1.setBuf.setHeld

theorem KeyWord.addWait {x : PoolWait} (h : KeyWord w s) : KeyWord w (addWait x s) := .ite h (h.upd rfl)

theorem KeyWord.producerAlloc {who p : Nat} (h : KeyWord w s) : KeyWord w (producerAlloc who p s) := by
  unfold Machine.producerAlloc
  extract_lets x r
  have hr : KeyWord w r.2 := h.allocBuf
  exact .ite h.addWait (.ite hr.addWait.askLater (hr.upd rfl))

theorem KeyWord.hostAlloc {p d : Nat} (h : KeyWord w s) : KeyWord w (hostAlloc p d s) :=
  have hr := h.allocBuf
  .ite (hr.wr (by omega)) (hr.stepFree.wr (by omega))

theorem KeyWord.pushFree {p n : Nat} (h : KeyWord w s) : KeyWord w (pushFree p n s) :=
  have h2 := h.setBuf.wr (by omega)
  .ite h2 h2.storeWord.setHead

theorem KeyWord.returnBuf {p n : Nat} (h : KeyWord w s) : KeyWord w (returnBuf p n s) :=
  have h1 := h.setHeld
  .ite h1.setBuf h1.pushFree

theorem KeyWord.bufOpAct {op : BufOp} {p n : Nat} (h : KeyWord w s) : KeyWord w (bufOpAct op p n s) := by
  cases op with
  | free => exact h.returnBuf
  | release => exact h.setBuf
  | share => exact h.setBuf
  | pass o => exact h.setBuf

theorem KeyWord.bufOp {op : BufOp} {n who : Nat} (h : KeyWord w s) : KeyWord w (bufOp op n who s).2 := by
  unfold Machine.bufOp
  extract_lets c
  split
  · exact h
  · extract_lets t
    have ht : KeyWord w t := h.setArb
    split
    · exact ht.bufOpAct
    · split
      · exact ht
      · exact ht.latchPoolErr

theorem KeyWord.unitFree {n who : Nat} (h : KeyWord w s) : KeyWord w (unitFree n who s) :=
  have hr := h.bufOp
  .ite (KeyWord.askLater (hr.upd rfl)) hr

theorem KeyWord.shrinkPool {fuel p n : Nat} (h : KeyWord w s) : KeyWord w (shrinkPool fuel p n s) := by
  induction fuel generalizing s with
  | zero => exact h
  | succ fuel ih =>
    unfold Machine.shrinkPool
    refine .ite h ?_
    split
    · next s1 he => exact (he ▸ h.popFree (p := p) :)
    · next b s1 he =>
      have h1 : KeyWord w s1 := (he ▸ h.popFree (p := p) :)
      exact ih h1.setBuf

theorem KeyWord.poolSized {p n : Nat} (h : KeyWord w s) : KeyWord w (poolSized p n s) :=
  have h1 := (h.wr (by omega)).setGrow
  .ite h1.setGrow h1.shrinkPool

theorem KeyWord.poolAct {p : Nat} {x : PoolAsk} (h : KeyWord w s) : KeyWord w (poolAct p x s) := by
  unfold Machine.poolAct
  split
  · exact .ite h.producerAlloc h.allocBuf
  · exact h.hostAlloc
  · exact .ite h.unitFree h.bufOp
  · exact h.bufOp.wr (by omega)
  · exact h.setArb.poolSized

theorem KeyWord.poolServe {p : Nat} (h : KeyWord w s) : KeyWord w (poolServe p s) := by
  unfold Machine.poolServe
  extract_lets a
  split
  · exact h
  · exact h.setArb.poolAct

theorem KeyWord.growCycle {p : Nat} (h : KeyWord w s) : KeyWord w (growCycle p s) := by
  unfold Machine.growCycle
  extract_lets g
  refine .ite (.foldl (fun t b ht => ht.pushFree) _ h.setGrow) ?_
  split
  · exact h.setGrow
  · exact (KeyWord.ite h.setGrow.pushFree h).stepFree

theorem KeyWord.poolsCycle {s : State} (h : KeyWord w s) : KeyWord w (poolsCycle s) :=
  .foldl (fun _ _ ht => ht.growCycle) _ (.foldl (fun _ _ ht => ht.poolServe) _ h)

theorem KeyWord.waitCycles {n : Nat} {x : PoolWait} (h : KeyWord w s) : KeyWord w (waitCycles n x s) := by
  cases x with
  | alloc who p => exact .ite ((h.wr (by omega)).wr (by omega)) (h.wr (by omega))
  | free who n => exact h

theorem KeyWord.clockCycles {n : Nat} (h : KeyWord w s) : KeyWord w (clockCycles n s) := .ite (h.upd rfl) h

theorem KeyWord.passCycles {n : Nat} (h : KeyWord w s) : KeyWord w (passCycles n s) := by
  unfold Machine.passCycles
  refine .ite h (.foldl (fun _ _ ht => ht.waitCycles) _ (KeyWord.clockCycles ?_))
  have h1 : KeyWord w (if s.pwr.aux then { s with bc := { s.bc with auxPs := s.bc.auxPs + 625 * n } } else s) := .ite (h.upd rfl) h
  exact .ite (h1.upd rfl) h1

theorem KeyWord.hopSettle {fuel d : Nat} (h : KeyWord w s) : KeyWord w (hopSettle fuel d s) := by
  induction fuel generalizing s with
  | zero => exact h
  | succ fuel ih => exact .ite (ih h.passCycles.poolsCycle) h

/-! ### Reads: the host's side -/

theorem KeyWord.offsetUsed {b : Bar} {off : Nat} (h : KeyWord w s) : KeyWord w (offsetUsed b off s) := by
  cases b with
  | bar0 => exact h
  | bar2 => exact .ite h h.stepFree
  | bar4 => exact h.stepFree

theorem KeyWord.gloveDeny {d off : Nat} (h : KeyWord w s) : KeyWord w (gloveDeny d off s) :=
  ((h.wrAt (by decide)).wrAt (by decide)).wrAt (by decide)

/-- A read that the Glove or the mode stops is recorded. -/
theorem KeyWord.admitted_id {d off i : Nat} {b : Bar} {write : Bool} (h : KeyWord w s) : KeyWord w (admitted d b off i write id s) :=
  .ite h.offsetUsed.gloveDeny (.ite h.offsetUsed.accessErr h)

theorem KeyWord.readOrder {off : Nat} (h : KeyWord w s) : KeyWord w (readOrder off s) := by
  unfold Machine.readOrder
  split
  · exact h.hopSettle
  · exact h

theorem KeyWord.readEffect {off : Nat} (h : KeyWord w s) : KeyWord w (readEffect off s) := by
  unfold Machine.readEffect
  split
  · exact h.setArb.poolServe.hopSettle
  · exact .ite (h.upd rfl) h
  · exact h

theorem KeyWord.wordRead {sparse : Bool} {d off i n : Nat} {b : Bar} (h : KeyWord w s) : KeyWord w (wordRead sparse d b off i n s) := by
  unfold Machine.wordRead
  extract_lets full answer s₀ t₀
  refine .ite h.admitted_id.emit ?_
  cases b with
  | bar0 =>
    have ht : KeyWord w t₀ := .ite h.readOrder.readEffect h.readOrder
    exact (KeyWord.ite ht.stepFree ht).emit
  | bar2 =>
    dsimp only
    split
    · exact (KeyWord.ite h.readEffect h).emit
    · exact h.emit
  | bar4 => exact h.emit

theorem KeyWord.hostRead {sparse : Bool} {d off n : Nat} {b : Bar} (h : KeyWord w s) : KeyWord w (hostRead sparse d b off n s) := by
  unfold Machine.hostRead
  extract_lets o
  exact .ite h (.ite (.foldl (fun _ _ ht => ht.wordRead) _ h)
    (.ite h.wordRead (.ite h.admitted_id.emit h.offsetUsed.accessErr.emit)))

/-- No read changes the guard (R549). -/
theorem KeyWord.hostLoad {d : Nat} {r : HostLoad} (h : KeyWord w s) : KeyWord w (hostLoad d r s) := by
  cases r with
  | memory b off n sparse => exact h.hostRead
  | config early i => exact .ite h (.ite h.emit (.ite h.emit h.emit))

/-! ### Guarded writes: FORCE_SAFE and the entry into SAFE -/

theorem KeyWord.applyMitten (h : KeyWord w s) : KeyWord w (applyMitten s) := (rd_applyMitten (by decide)).trans h

theorem KeyWord.logWrite {k a d e : Nat} (h : KeyWord w s) : KeyWord w (logWrite k a d e s) := (rd_logWrite (by decide)).trans h

theorem lt_faultBase (u : FaultUnit) : 0x14 < faultBase u := by
  cases u <;> simp only [faultBase] <;> omega

theorem KeyWord.recordFault {u : FaultUnit} {injected : Bool} {level : Nat} {f : FaultIn} {place : Nat × Nat} (h : KeyWord w s) :
    KeyWord w (recordFault u injected level f place s) := by
  have hs : Reg.fltStatus (faultBase u) ≠ Reg.chipKeyState := Nat.ne_of_gt (lt_faultBase u)
  unfold Machine.recordFault
  extract_lets b i e s1 s2 s3 s4 s5
  have hb : 0x14 < b := lt_faultBase u
  have h1 : KeyWord w s1 := (h.wr (by omega)).wr (by omega)
  have h2 : KeyWord w s2 := (((h1.wrAt hs).wrAt hs).wrAt hs).wrAt hs
  have h3 : KeyWord w s3 := .ite h2 (h2.wrAt hs)
  have h4 : KeyWord w s4 := .ite (h3.wr hb) (h3.wr hb)
  have h5 : KeyWord w s5 := .ite h4 h4.logWrite
  exact .ite h5.raise h5

theorem KeyWord.enterFault {u : FaultUnit} {f : FaultIn} {place : Nat × Nat} (h : KeyWord w s) : KeyWord w (enterFault u f place s) := by
  unfold Machine.enterFault
  extract_lets s0 s1
  have h1 : KeyWord w s1 := h.recordFault.upd rfl
  exact .ite h1 (h1.wr (lt_faultBase u))

theorem KeyWord.haltChannels (h : KeyWord w s) : KeyWord w (haltChannels s) :=
  .foldl (fun _ _ ht => ((ht.wr (by omega)).wr (by omega)).setChan) _ h

theorem KeyWord.haltSequencers (h : KeyWord w s) : KeyWord w (haltSequencers s) := .foldl (fun _ _ ht => ht.wr (by omega)) _ h

theorem KeyWord.flashFree {o n : Nat} (h : KeyWord w s) : KeyWord w (flashFree o n s) := by
  induction n generalizing s with
  | zero => exact h
  | succ n ih => exact ih (h.upd rfl)

theorem KeyWord.flashCut (h : KeyWord w s) : KeyWord w (flashCut s) := .ite h.flashFree.stepFree h

theorem KeyWord.cmdFinish {result : Nat} (h : KeyWord w s) : KeyWord w (cmdFinish result s) := by
  unfold Machine.cmdFinish
  extract_lets op a held s1 s2 s3 s4 s5 s6
  have h2 : KeyWord w s2 := ((h.wrAt (by decide)).wrAt (by decide)).wrAt (by decide)
  have h3 : KeyWord w s3 := .ite ((h2.wrAt (by decide)).wrAt (by decide)) h2
  have h4 : KeyWord w s4 := (h3.wrAt (by decide)).raise
  have h5 : KeyWord w s5 := .ite h4.logWrite (.ite h4.logWrite h4)
  have h6 : KeyWord w s6 := .ite (h5.wr (by omega)) h5
  exact h6.upd rfl

theorem KeyWord.gateRegion {r : Nat} (h : KeyWord w s) : KeyWord w (gateRegion r s) := by
  unfold Machine.gateRegion
  extract_lets -underBinder s1 s2
  have h1 : KeyWord w s1 := .foldl (fun _ _ ht => ht.setBlock) _ h
  have h2 : KeyWord w s2 := .foldl (fun _ _ ht => ht.wr (by omega)) _ h1
  clear_value s2
  exact KeyWord.wr (h2.upd rfl) (by omega)

/-- The entry into SAFE, taken step by step; each state is made opaque once its word is known, so that the next step is not checked by
running the ones before it. -/
theorem KeyWord.enterSafe {c unit : Nat} (h : KeyWord w s) : KeyWord w (enterSafe c unit s) := by
  unfold Machine.enterSafe
  refine .ite h ?_
  extract_lets old s1 _ _ s2 done _ s3 s4 s5 cause s6 _
  have h1 : KeyWord w s1 := h.haltSequencers.haltChannels
  clear_value s1
  have h2 : KeyWord w s2 := h1.upd rfl
  have hd : KeyWord w done := .ite h2.flashCut.cmdFinish h2
  clear_value done
  have h3 : KeyWord w s3 := .foldl (fun _ _ ht => (ht.wr (by omega)).wr (by omega)) _ (hd.upd rfl)
  have h4 : KeyWord w s4 := (h3.wrAt (by decide)).wrAt (by decide)
  have h5 : KeyWord w s5 := .foldl (fun _ _ ht => ht.emit) _ (.foldl (fun _ _ ht => ht.gateRegion) _ h4)
  have h6 : KeyWord w s6 := .ite (h5.wrAt (by decide)).raise h5
  clear_value s6
  exact (KeyWord.wrAt (h6.upd (by rfl)) (by decide)).raise.logWrite.applyMitten

theorem KeyWord.forceWrite {v : Word} (h : KeyWord w s) : KeyWord w (forceWrite v s) := by
  unfold Machine.forceWrite forceSafe chipFault
  extract_lets s1
  have h1 : KeyWord w s1 := (h.wrAt (by decide)).applyMitten
  have h2 := h1.enterFault (u := .chip) (f := ⟨classForced, 15, false, none⟩) (place := noPlace)
  exact .ite (.ite h1 (.ite h2.enterSafe h2)) h1

/-! ### Guarded writes: the other registers -/

theorem KeyWord.setWaitingActs {r : Nat} {l : List RegionAct} (h : KeyWord w s) : KeyWord w (setWaitingActs r l s) := h.upd rfl

theorem KeyWord.regionOffWrite {d : Nat} {v : Word} (h : KeyWord w s) : KeyWord w (regionOffWrite d v s) :=
  .ite h.accessErr (.foldl (fun _ _ ht => .ite ht.gateRegion (.ite ht.setWaitingActs ht)) _ (h.wrAt (by decide)))

theorem KeyWord.setTargetUp {up : Bool} {l : List Nat} (h : KeyWord w s) : KeyWord w (setTargetUp up l s) :=
  .foldl (fun _ _ ht => ht.wr (by omega)) _ h

theorem KeyWord.linkDownNow {l : Nat} (h : KeyWord w s) : KeyWord w (linkDownNow l s) := by
  unfold Machine.linkDownNow
  refine .ite ?_ (.ite h.setTargetUp h)
  split
  · exact h
  · extract_lets m r s1
    have h1 : KeyWord w s1 := (h.wr (by omega)).wr (by omega)
    exact .ite (KeyWord.setTargetUp ((h1.wr (by omega)).wr (by omega))).raise h1

theorem KeyWord.prbsWrite {d l : Nat} {v : Word} {g : Bool} (h : KeyWord w s) : KeyWord w (prbsWrite d l v g s) := by
  unfold Machine.prbsWrite
  extract_lets r gen was chk s1 s2
  have h1 : KeyWord w s1 := (((h.wr (by omega)).wr (by omega)).wr (by omega)).wr (by omega)
  have h2 : KeyWord w s2 := .ite (h1.wr (by omega)) h1
  exact .ite h.accessErr (.ite (h.wr (by omega)) (.ite (h2.linkDownNow.wr (by omega)) (.ite (h2.wr (by omega)) h2)))

theorem KeyWord.injectWrite {u : FaultUnit} {v : Word} (h : KeyWord w s) : KeyWord w (injectWrite u v s) := by
  have hs : Reg.fltStatus (faultBase u) ≠ Reg.chipKeyState := Nat.ne_of_gt (lt_faultBase u)
  unfold Machine.injectWrite
  extract_lets b s1 code s2
  have hb : 0x14 < b := lt_faultBase u
  have h1 : KeyWord w s1 := (((h.wr hb).wr hb).wr hb).wr hb
  have h2 : KeyWord w s2 := h1.wrAt hs
  have hc : KeyWord w { s1 with injs := smDel (unitKey u) s1.injs } := h1.upd rfl
  exact .ite h1 (.ite ((hc.wrAt hs).wrAt hs) (.ite h2 (KeyWord.wrAt (h2.upd rfl) hs)))

theorem KeyWord.plainWrite {x : RegEnv} {d off : Nat} {l : List FieldRow} {v : Word} (ho : off ≠ Reg.chipKeyState) (h : KeyWord w s) :
    KeyWord w (plainWrite x d off l v s) :=
  have h1 := h.wrAt ho
  .ite (((h1.wr (by omega)).wr (by omega)).wr (by omega)) h1

theorem KeyWord.modeResult {code : Nat} (h : KeyWord w s) : KeyWord w (modeResult code s) := (h.wrAt (by decide)).raise

theorem KeyWord.safeWrite {d off : Nat} {l : List FieldRow} {v : Word} (ho : off ≠ Reg.chipKeyState) (h : KeyWord w s) :
    KeyWord w (safeWrite d off l v s) :=
  .ite (h.wrAt ho) h.accessErr

end

/-! ### Guarded registers -/

section
variable {n : RegName} {d off : Nat} {v : Word} {s t : State} {x : RegEnv} {shadow : Bool}

/-- A write of `v` at the BAR0 offset `off` reaches register `n`, which is guarded in state `s` (R550); no such register lies in the
pipelines' windows or is CHIP_KEY_STATE. -/
structure GuardedAt (v : Word) (s : State) (off : Nat) (n : RegName) : Prop where
  guard : guarded n off v s = true
  reg : ∀ decodes, regAt decodes off = some (n, false)
  aligned : off % 4 = 0
  low : off < 0x800000
  notKey : off ≠ Reg.chipKeyState

theorem regAt_blockInject (decodes : Nat → Bool) {r b : Nat} (hr : r < 16) (hb : b < 8) :
    regAt decodes (0x410110 + 0x40000 * r + 0x4000 * b) = some (.fltInject, false) := by
  have ho : (0x410110 + 0x40000 * r + 0x4000 * b - 0x400000) % 0x40000 = 0x10110 + 0x4000 * b := by omega
  have hk : (0x10110 + 0x4000 * b - 0x10000) % 0x4000 = 0x110 := by clear ho; omega
  unfold regAt
  simp (disch := omega) only [ho, hk, if_neg, if_pos]
  rfl

theorem regAt_fltInject (decodes : Nat → Bool) (u : FaultUnit) :
    regAt decodes (Reg.fltInject (faultBase u)) = some (.fltInject, false) := by
  cases u with
  | chip => rfl
  | region r =>
    have hu : Reg.fltInject (faultBase (.region r)) = 0x400110 + 0x40000 * r.val := by simp only [Reg.fltInject, faultBase]; omega
    have ho : (0x400110 + 0x40000 * r.val - 0x400000) % 0x40000 = 0x110 := by omega
    rw [hu]
    unfold regAt
    simp (disch := omega) only [ho, if_neg, if_pos]
    rfl
  | block r b =>
    have hu : Reg.fltInject (faultBase (.block r b)) = 0x410110 + 0x40000 * r.val + 0x4000 * b.val := by
      simp only [Reg.fltInject, faultBase]; omega
    rw [hu]
    exact regAt_blockInject decodes r.isLt b.isLt

theorem regAt_lanPrbs (decodes : Nat → Bool) (l : LaneId) : regAt decodes (Reg.lanPrbs l) = some (.lanPrbs, false) := by
  have ho : (Reg.lanPrbs l - 0x80000) % 0x100 = 0x10 := by simp only [Reg.lanPrbs]; omega
  have hl : Reg.lanPrbs l = 0x80010 + 0x100 * l.val := by simp only [Reg.lanPrbs]; omega
  unfold regAt
  simp (disch := omega) only [ho, if_neg, if_pos]
  split <;> rfl

/-- The registers of R550, FUSE_READ apart, are guarded. -/
theorem exists_guardedAt
    (h : off ∈ [Reg.chipForce, Reg.bcmFlashCtl, Reg.bcmRegionOff] ∨ (∃ u, off = Reg.fltInject (faultBase u))
      ∨ ∃ l : LaneId, off = Reg.lanPrbs l ∧ getF LanPrbs.genEn v = 1 ∧ laneActive l s = true) :
    ∃ n, GuardedAt v s off n := by
  rcases h with h | ⟨u, rfl⟩ | ⟨l, rfl, hgen, hact⟩
  · simp only [List.mem_cons, List.not_mem_nil, or_false] at h
    rcases h with rfl | rfl | rfl
    · exact ⟨.chipForce, rfl, fun _ => rfl, rfl, by decide, by decide⟩
    · exact ⟨.bcmFlashCtl, rfl, fun _ => rfl, rfl, by decide, by decide⟩
    · exact ⟨.bcmRegionOff, rfl, fun _ => rfl, rfl, by decide, by decide⟩
  · refine ⟨.fltInject, rfl, fun _ => regAt_fltInject _ u, ?_, ?_, ?_⟩ <;>
      cases u <;> simp only [Reg.fltInject, Reg.chipKeyState, faultBase] <;> omega
  · have hl : (Reg.lanPrbs l - 0x80000) / 0x100 = l := by simp only [Reg.lanPrbs]; omega
    refine ⟨.lanPrbs, ?_, fun _ => regAt_lanPrbs _ l, ?_, ?_, ?_⟩
    · simp [guarded, hl, hgen, hact]
    all_goals simp only [Reg.lanPrbs, Reg.chipKeyState]; omega

/-- The rule of a guarded register leaves the guard as it is: what disarms it is that the write has got there. -/
theorem KeyWord.ruleWrite_guarded {w v' : Word} (hg : GuardedAt v t off n) (h : KeyWord w s) :
    KeyWord w (ruleWrite x d off n shadow v v' s) := by
  have hn := hg.guard
  unfold guarded at hn
  split at hn
  · exact h.forceWrite
  · have hlow := hg.low
    have hr : ruleWrite x d off .bcmFlashCtl shadow v v' s = Machine.plainWrite x d off (regFields .bcmFlashCtl) v' s :=
      if_neg fun h8 => Nat.not_le.2 hlow h8.1
    exact hr ▸ h.plainWrite hg.notKey
  · exact h.regionOffWrite
  · exact h.injectWrite
  · exact h.prbsWrite
  · cases hn

theorem keyArmed_disarm : keyArmed (disarm s) = false := by
  simp [keyArmed, disarm, fbit, fclr_eq, fget_fput_self, ChipKeyState.armed]

theorem curMode_disarm : curMode (disarm s) = curMode s := by
  unfold curMode disarm
  rw [fclr_eq, fget_fput_ne (by decide), fput_pwr]

/-- A disarmed guard drops the write (R549). -/
theorem regWrite_of_disarmed (hg : guarded n off v s = true) (ha : keyArmed s = false) :
    regWrite x d off n shadow v s = accessErr d kindKey off s := by
  unfold regWrite
  rw [hg, ha]
  rfl

/-- Steps 4 and 5 of R540 behind an armed guard: the guard is disarmed first. -/
theorem regWrite_of_armed (hg : guarded n off v s = true) (ha : keyArmed s = true) :
    regWrite x d off n shadow v s =
      if curMode (disarm s) = 5 ∧ n = .chipMode ∧ requestMeetsSafe (getF ChipMode.modeReq v) (disarm s) = true then
        modeResult 0xE3 (disarm s)
      else if curMode (disarm s) = 5 ∧ safeWritable n off = false then safeWrite d off (regFields n) v (disarm s)
      else ruleWrite x d off n shadow v (classWord (regFields n) v (rd off (disarm s))) (disarm s) := by
  unfold regWrite
  rw [hg, ha]
  rfl

/-- A write behind an armed guard disarms it, whatever its effect (R549). -/
theorem keyArmed_regWrite (hg : GuardedAt v s off n) (ha : keyArmed s = true) : keyArmed (regWrite x d off n shadow v s) = false := by
  have hd : KeyWord (rd Reg.chipKeyState (disarm s)) (disarm s) := rfl
  rw [regWrite_of_armed hg.guard ha, ← keyArmed_disarm (s := s)]
  exact keyArmed_eq_of_keyWord hd (.ite hd.modeResult (.ite (hd.safeWrite hg.notKey) (hd.ruleWrite_guarded hg)))

/-- Outside SAFE the write takes effect by the register's own rule (R549). -/
theorem regWrite_takes_effect (hg : GuardedAt v s off n) (ha : keyArmed s = true) (hm : curMode s ≠ 5) :
    regWrite x d off n shadow v s = ruleWrite x d off n shadow v (classWord (regFields n) v (rd off s)) (disarm s) := by
  have hm' : curMode (disarm s) ≠ 5 := by rwa [curMode_disarm]
  have hr : rd off (disarm s) = rd off s := rd_fput_ne hg.notKey
  rw [regWrite_of_armed hg.guard ha, if_neg fun h => hm' h.1, if_neg fun h => hm' h.1, hr]

/-- An admitted 32-bit write of a BAR0 register comes down to its steps 4 and 5 of R540. -/
theorem exec_registerWrite_bar0 {d : DomId} (h : HostMayWrite d off s) (ha : off % 4 = 0)
    (hr : regAt (fun p => pipeDecodes p s) off = some (n, shadow)) :
    exec (.registerWrite d x (.memory .bar0 off ((leBytes v.toNat 4).map some))) s = .next (regWrite x d off n shadow v s) := by
  have he : exec (.registerWrite d x (.memory .bar0 off ((leBytes v.toNat 4).map some))) s = .next (regPut x d off v s) := rfl
  rw [he, regPut_eq h ha]
  unfold bar0Write
  rw [hr]

/-! ### CHIP_KEY -/

/-- A write to CHIP_KEY arms the guard with the key and disarms it with any other value, in every mode (R549, R616). -/
theorem exec_chipKeyWrite {d : DomId} (h : HostMayWrite d Reg.chipKey s) : exec (.chipKeyWrite d v) s = .next (keyWrite v s) := by
  have he : exec (.chipKeyWrite d v) s = .next (regPut RegEnv.plain d Reg.chipKey v s) := rfl
  rw [he, regPut_eq h rfl]
  have hr : bar0Write RegEnv.plain d Reg.chipKey v s = regWrite RegEnv.plain d Reg.chipKey .chipKey false v s := rfl
  rw [hr]
  simp [regWrite, guarded, safeWritable, ruleWrite]

theorem keyArmed_keyWrite : keyArmed (keyWrite v s) = decide (v = 0x6D3A#32) := by
  by_cases hv : v = 0x6D3A#32 <;> simp [keyArmed, keyWrite, fbit, fget_fput_self, ChipKeyState.armed, hv]

end

/-- Settles O47: CHIP_KEY sets the guard; an armed guard is disarmed before the register's own rule, or the rule of SAFE, acts, and
neither writes CHIP_KEY_STATE; a disarmed guard drops the write; and nothing a read does writes CHIP_KEY_STATE. -/
theorem keyGuardTakesOneWrite : Obligations.KeyGuardTakesOneWrite := by
  unfold Obligations.KeyGuardTakesOneWrite
  intro s d v
  refine ⟨fun h => ?_, fun x off h hoff => ?_, fun r => ?_⟩
  · exact ⟨_, exec_chipKeyWrite h, keyArmed_keyWrite, OnlyRegs.refl.fput (.head _)⟩
  · obtain ⟨n, hg⟩ := exists_guardedAt hoff
    have he := exec_registerWrite_bar0 (v := v) (x := x) h hg.aligned (hg.reg _)
    refine ⟨fun ha => ⟨⟨_, he, keyArmed_regWrite hg ha⟩, fun m shadow hm hr => ?_⟩, fun ha => ?_⟩
    · obtain ⟨rfl, rfl⟩ := Prod.mk.inj (Option.some.inj ((hg.reg _).symm.trans hr))
      rw [he, regWrite_takes_effect hg ha hm]
    · rw [he, regWrite_of_disarmed hg.guard ha]
  · exact ⟨_, rfl, keyArmed_eq_of_keyWord rfl (KeyWord.hostLoad rfl)⟩

end Sys2Proof.Machine
end

section
/-! The log and SMBus of Base Camp: what a write of BCM_LOG_IDX leaves in the log registers (R650), and which SMBus commands are answered
before the firmware runs (R633). -/

namespace Sys2Proof.Machine

open Sys2Proof

/-! ### BCM_LOG_DATA0 to 7 -/

theorem bcmLogData_inj {i j : Nat} : Reg.bcmLogData i = Reg.bcmLogData j ↔ i = j := by
  unfold Reg.bcmLogData
  omega

/-- Of the first `n` data registers, each reads the word that was put there. -/
theorem rd_bcmLogData_foldl {l : List Word} {i n : Nat} {s : State} (hi : i < n) :
    rd (Reg.bcmLogData i) ((List.range n).foldl (fun a j => wr (Reg.bcmLogData j) ((l[j]?).getD 0) a) s) = (l[i]?).getD 0 := by
  induction n with
  | zero => cases hi
  | succ n ih =>
    rw [List.range_succ, List.foldl_append, List.foldl_cons, List.foldl_nil]
    by_cases h : i = n
    · rw [h, rd_wr_self]
    · rw [rd_wr_ne (mt bcmLogData_inj.1 h), ih (by omega)]

theorem rd_bcmLogData_putLogData {l : List Word} {i : Nat} {s : State} (hi : i < 8) :
    rd (Reg.bcmLogData i) (putLogData l s) = (l[i]?).getD 0 :=
  rd_bcmLogData_foldl hi

/-- Putting a log entry writes the data registers only. -/
theorem onlyRegs_putLogData {l : List Word} {s : State} : OnlyRegs ((List.range 8).map Reg.bcmLogData) s (putLogData l s) :=
  .foldl _ (fun _ _ hi ht => ht.wr (List.mem_map_of_mem hi)) .refl

/-! ### BCM_LOG_IDX -/

/-- BCM_LOG_IDX holds `k`, the data registers hold the words `l`, and LOG_STALE is `stale`. -/
def showLog (k : Word) (l : List Word) (stale : Nat) (s : State) : State :=
  fput Reg.bcmLogStatus BcmLogStatus.logStale stale (putLogData l (wr Reg.bcmLogIdx k s))

section
variable {k : Word} {l : List Word} {stale : Nat} {s : State}

theorem logIdxWrite_of_holds (h : logHolds k.toNat s = true) :
    logIdxWrite k s = showLog k (wordsOf 8 (logBytes (logEntryAt k.toNat s))) 0 s := if_pos h

theorem logIdxWrite_of_stale (h : logHolds k.toNat s = false) : logIdxWrite k s = showLog k [] 1 s := if_neg (by simp [h])

theorem rd_bcmLogIdx_showLog : rd Reg.bcmLogIdx (showLog k l stale s) = k := by
  unfold showLog
  rw [rd_fput_ne (by decide), onlyRegs_putLogData.2 _ (by decide), rd_wr_self]

theorem rd_bcmLogData_showLog {i : Nat} (hi : i < 8) : rd (Reg.bcmLogData i) (showLog k l stale s) = (l[i]?).getD 0 := by
  have hne : Reg.bcmLogData i ≠ Reg.bcmLogStatus := by
    unfold Reg.bcmLogData Reg.bcmLogStatus
    omega
  unfold showLog
  rw [rd_fput_ne hne, rd_bcmLogData_putLogData hi]

theorem fget_logStale_showLog : fget Reg.bcmLogStatus BcmLogStatus.logStale (showLog k l stale s) = stale % 2 :=
  fget_fput_self (by decide)

/-- The index, LOG_STALE and the data registers are all that is written; the SMBus index is no register and stays (R650). -/
theorem onlyRegs_showLog :
    OnlyRegs (Reg.bcmLogIdx :: Reg.bcmLogStatus :: (List.range 8).map Reg.bcmLogData) s (showLog k l stale s) :=
  have hidx := OnlyRegs.refl.wr (.head _)
  have hdata := onlyRegs_putLogData.mono fun _ ho => .tail _ (.tail _ ho)
  (hidx.trans hdata).fput (.tail _ (.head _))

/-- A write of BCM_LOG_IDX shows the entry or, where the ring does not hold it, that it is stale. -/
theorem exists_logIdxWrite_eq_showLog (k : Word) (s : State) : ∃ l stale, logIdxWrite k s = showLog k l stale s := by
  cases h : logHolds k.toNat s with
  | true => exact ⟨_, _, logIdxWrite_of_holds h⟩
  | false => exact ⟨_, _, logIdxWrite_of_stale h⟩

end

theorem logHolds_eq_true_iff {k : Nat} {s : State} :
    logHolds k s = true ↔ k < (rd Reg.bcmLogWr s).toNat ∧ (rd Reg.bcmLogWr s).toNat ≤ k + 2048 := by
  simp [logHolds]

theorem logHolds_eq_false_iff {k : Nat} {s : State} :
    logHolds k s = false ↔ (rd Reg.bcmLogWr s).toNat ≤ k ∨ k + 2048 < (rd Reg.bcmLogWr s).toNat := by
  rw [← Bool.not_eq_true, logHolds_eq_true_iff]
  omega

/-- The write of a field that is the whole word. -/
theorem putF_whole_word {w v : Word} : putF ⟨0, 32⟩ w (getF ⟨0, 32⟩ v) = v := by
  apply BitVec.eq_of_toNat_eq
  simpa [putF, getF, maskF] using v.isLt

/-- Outside SAFE a register without a guard is written by its own rule. -/
theorem regWrite_of_not_guarded {x : RegEnv} {d off : Nat} {n : RegName} {shadow : Bool} {v : Word} {s : State}
    (hg : guarded n off v s = false) (hm : curMode s ≠ 5) :
    regWrite x d off n shadow v s = ruleWrite x d off n shadow v (classWord (regFields n) v (rd off s)) s := by
  simp [regWrite, hg, hm]

/-- An admitted write to BCM_LOG_IDX outside SAFE copies the entry (R650). -/
theorem exec_logIdxWrite {d : DomId} {v : Word} {s : State} (h : HostMayWrite d Reg.bcmLogIdx s) (hm : curMode s ≠ 5) :
    exec (.logIdxWrite d v) s = .next (logIdxWrite v s) := by
  have he : exec (.logIdxWrite d v) s = .next (regPut RegEnv.plain d Reg.bcmLogIdx v s) := rfl
  have hr : bar0Write RegEnv.plain d Reg.bcmLogIdx v s = regWrite RegEnv.plain d Reg.bcmLogIdx .bcmLogIdx false v s := rfl
  have hw : classWord (regFields .bcmLogIdx) v (rd Reg.bcmLogIdx s) = v := putF_whole_word
  rw [he, regPut_eq h rfl, hr, regWrite_of_not_guarded rfl hm, hw]
  rfl

/-- Settles O55: the write shows the entry's words, or zeros and LOG_STALE, as the ring holds the entry or not. -/
theorem logIndexCopiesAnEntry : Obligations.LogIndexCopiesAnEntry := by
  unfold Obligations.LogIndexCopiesAnEntry
  intro s d v h hm
  obtain ⟨l, stale, ht⟩ := exists_logIdxWrite_eq_showLog v s
  have honly := ht ▸ onlyRegs_showLog (k := v) (l := l) (stale := stale) (s := s)
  refine ⟨logIdxWrite v s, exec_logIdxWrite h hm, ht ▸ rd_bcmLogIdx_showLog, congrArg (·.bc.smbIdx) honly.1, ?_, ?_, honly⟩
  · intro hlt hle
    rw [logIdxWrite_of_holds (logHolds_eq_true_iff.2 ⟨hlt, hle⟩)]
    exact ⟨fget_logStale_showLog, fun _ hi => rd_bcmLogData_showLog hi⟩
  · intro hout
    rw [logIdxWrite_of_stale (logHolds_eq_false_iff.2 hout)]
    exact ⟨fget_logStale_showLog, fun _ hi => rd_bcmLogData_showLog hi⟩

/-! ### SMBus before the firmware runs -/

section
variable {s : State} {k : State → State}

/-- Base Camp answers STATUS and FW_INFO whether or not firmware runs (R633). -/
theorem smbReply_of_always (haux : s.pwr.aux = true) : smbReply (smbAddress s) true true k s = k s := by
  simp [smbReply, smbAnswers, haux]

/-- Without firmware every other command is a NACK, whatever its PEC (R633). -/
theorem smbReply_without_firmware {pec : Bool} (haux : s.pwr.aux = true) (hfw : fwRuns s = false) :
    smbReply (smbAddress s) pec false k s = emit .smbusNack s := by
  simp [smbReply, smbAnswers, haux, hfw]

end

/-- The SMBus commands that need firmware: all of R647's but STATUS and FW_INFO. -/
theorem exists_exec_eq_smbReply {a : Fin 128} {c : Instr} {pec : Bool} {s : State}
    (hc : c = .smbTempMax a pec ∨ c = .smbPower a pec ∨ (∃ n, c = .smbSensor a pec n) ∨ (∃ k, c = .logSeek a pec k)
      ∨ c = .logRead a pec ∨ (∃ n, c = .smbHold a pec n) ∨ (∃ w, c = .bmcCap a pec w) ∨ c = .clearTrip a pec) :
    ∃ k, exec c s = .next (smbReply a pec false k s) := by
  rcases hc with rfl | rfl | ⟨n, rfl⟩ | ⟨k, rfl⟩ | rfl | ⟨n, rfl⟩ | ⟨w, rfl⟩ | rfl <;> exact ⟨_, rfl⟩

/-- Settles O56: STATUS and FW_INFO do not ask for firmware, and every other command does. -/
theorem untilFirmwareRunsOnlyTwoCommandsAreAnswered : Obligations.UntilFirmwareRunsOnlyTwoCommandsAreAnswered := by
  unfold Obligations.UntilFirmwareRunsOnlyTwoCommandsAreAnswered
  intro s a haux hfw ha
  refine ⟨?status, ?fwInfo, fun c pec hc => ?others⟩
  case status =>
    have he : exec (.smbStatus a true) s
        = .next (smbReply a.val true true (fun t => emit (.smbus (smbBytes (smbStatusWord t) 2)) t) s) := rfl
    rw [he, ha, smbReply_of_always haux]
    exact ⟨_, rfl⟩
  case fwInfo =>
    have he : exec (.fwInfo a true) s = .next (smbReply a.val true true smbFwInfo s) := rfl
    rw [he, ha, smbReply_of_always haux]
    exact ⟨_, rfl⟩
  case others =>
    obtain ⟨k, he⟩ := exists_exec_eq_smbReply (s := s) hc
    rw [he, ha, smbReply_without_firmware haux hfw]
    rfl

end Sys2Proof.Machine
end

section
/-! The boundary-scan TAP (R690, R691): what an instruction does with and without the compliance-enable condition. -/

namespace Sys2Proof.Machine

open Sys2Proof

section
variable {s : State} {f : Tap → Tap}

/-- Under compliance-enable an instruction has its own effect, on the TAP alone (R691). -/
theorem tapRun_of_enabled (haux : s.pwr.aux = true) (hperst : s.pwr.perst = true) : tapRun f s = { s with tap := f s.tap } := by
  have hen : tapEnabled s = true := by simp [tapEnabled, haux, hperst]
  exact if_pos hen

/-- Without compliance-enable every instruction acts as BYPASS (R691). -/
theorem tapRun_of_disabled (h : s.pwr.aux = false ∨ s.pwr.perst = false) : tapRun f s = tapBypass s := by
  have hdis : ¬ tapEnabled s = true := by
    simpa only [tapEnabled, Bool.not_eq_true, Bool.and_eq_false_iff] using h
  exact if_neg hdis

end

section
variable {drive pads : List (Nat × Bool)} {c : Instr}

/-- EXTEST and the two instructions of IEEE 1149.6 differ only in the instruction they leave in force (R690). -/
theorem exec_eq_tapExtest {i : TapInstr} {s : State} (hc : (c, i) ∈ [(Instr.extest drive pads, TapInstr.extest),
      (.extestPulse drive pads, .extestPulse), (.extestTrain drive pads, .extestTrain)]) :
    exec c s = .next (tapExtest i drive pads s) := by
  simp only [List.mem_cons, List.not_mem_nil, or_false, Prod.mk.injEq] at hc
  rcases hc with ⟨rfl, rfl⟩ | ⟨rfl, rfl⟩ | ⟨rfl, rfl⟩ <;> rfl

/-- Every instruction of R690's table but BYPASS asks for compliance-enable. -/
theorem exists_exec_eq_tapRun {s : State} (hc : c ∈ [Instr.extest drive pads, .extestPulse drive pads, .extestTrain drive pads,
      .samplePreload drive pads, .highz, .clamp]) : ∃ f, exec c s = .next (tapRun f s) := by
  simp only [List.mem_cons, List.not_mem_nil, or_false] at hc
  rcases hc with rfl | rfl | rfl | rfl | rfl | rfl <;> exact ⟨_, rfl⟩

end

/-- Settles O58: by whether the compliance-enable condition holds, which alone decides between an instruction and BYPASS. -/
theorem boundaryScanTouchesTheTapOnly : Obligations.BoundaryScanTouchesTheTapOnly := by
  unfold Obligations.BoundaryScanTouchesTheTapOnly
  intro s drive pads
  refine ⟨fun c i hc haux hperst => ?extest, fun haux hperst => ?others, fun c hc => ?bypass⟩
  case extest =>
    rw [exec_eq_tapExtest hc]
    exact congrArg _ (tapRun_of_enabled haux hperst)
  case others =>
    have hrun (f : Tap → Tap) : tapRun f s = { s with tap := f s.tap } := tapRun_of_enabled haux hperst
    exact ⟨congrArg _ (hrun _), congrArg _ (hrun _), congrArg _ (hrun _)⟩
  case bypass =>
    have hbypass : exec .bypass s = .next (tapBypass s) := rfl
    obtain ⟨hoff, hc⟩ | rfl := hc
    · obtain ⟨f, hf⟩ := exists_exec_eq_tapRun (s := s) hc
      rw [hf, tapRun_of_disabled hoff]
      rfl
    · exact hbypass

end Sys2Proof.Machine
end
